-- ==== Sys2Proof/Word.lean ====
section
/-! DEFINITION. The word types of the K48 (spec/00_scope.md R6) and nothing else. -/

namespace Sys2Proof

abbrev Byte := BitVec 8
abbrev Half := BitVec 16
abbrev Word := BitVec 32
abbrev Dword := BitVec 64

/-- A run of bytes in address order. -/
abbrev Bytes := List Byte

/-- A map with few entries: pairs of key and value in rising order of key. -/
abbrev Sparse (α : Type) := List (Nat × α)

end Sys2Proof
end

