-- ==== Sys2Proof/Config.lean ====
section
/-! DEFINITION. What every K48 fixes (counts and addresses of the spec) and the open values of the spec: constants
with no body, so that nothing can be proved about their values. -/

namespace Sys2Proof
namespace Config

/-- Physical and logical cells, plots, rings and ports (spec/01_architecture.md R14). -/
def plots : Nat := 12
def physicalCells : Nat := 3264
def logicalCells : Nat := 3072
def rings : Nat := 64
def functions : Nat := 16
def ports : Nat := 24
def memStacks : Nat := 8
def channels : Nat := 256
def encoders : Nat := 8
def decoders : Nat := 16
def rails : Nat := 19
def lanes : Nat := 96
def budgetClasses : Nat := 11
/-- Plot store of one plot, in bytes (R14). -/
def plotStoreBytes : Nat := 67108864
/-- MEM_TOP: payload bytes of memory (spec/13_stacked_memory.md R317). -/
def memTop : Nat := 0x0071C7100000
/-- Blocks of 4,096 bytes in one channel (R294). -/
def slotsPerChannel : Nat := 466033
/-- The recovery area, and the start of the reserve (spec/18_reliability_and_recovery.md R429, spec/19_security.md R443). -/
def recoveryBase : Nat := 0x0071BAD00000
/-- The cell firmware area (spec/17_bring_up.md R406). -/
def firmwareBase : Nat := 0x0071BB100000
/-- Bytes of the seal table (R308). -/
def sealTableBytes : Nat := 0x1C71C400
/-- Admitted jobs the hub holds (spec/16_scheduling_and_budgets.md R373). -/
def maxJobs : Nat := 256
/-- Records of the memory event log and of the flash log (R434). -/
def memLogRecords : Nat := 65536
def flashLogRecords : Nat := 16384
/-- IDCODE (spec/21_management_identity_debug.md R485). -/
def idcode : Word := 0x14B48A6B#32

/-- Fused limits of a variant (spec/00_scope.md R3): power limit in watts and maximum cell clock in megahertz. -/
def pwrLimit (variant : Nat) : Nat := if variant = 1 then 3000 else if variant = 2 then 2400 else 1800
def clkMax (variant : Nat) : Nat := if variant = 1 then 2000 else if variant = 2 then 1700 else 1400

/-- SHA-384 of a run of bytes (R437, R453): the standard's function, not opened by this model (log 9). -/
opaque sha384 : Bytes → BitVec 384
/-- Whether an ECDSA P-384 signature verifies: key, signed bytes, signature (R437, R453; log 9). -/
opaque ecdsaVerify : BitVec 768 → Bytes → BitVec 768 → Bool
/-- The signature the device key makes over a transcript (R442; log 9). -/
opaque deviceSign : Bytes → BitVec 768
/-- AES-256-GCM opening of a frame: key, IV, additional data, ciphertext, tag (R449; log 9). -/
opaque gcmOpen : BitVec 256 → BitVec 96 → Bytes → Bytes → BitVec 128 → Option Bytes
/-- AES-256-GCM sealing of a frame: key, IV, additional data, plaintext (R449; log 9). -/
opaque gcmSeal : BitVec 256 → BitVec 96 → Bytes → Bytes → Bytes × BitVec 128
/-- A value the spec leaves to chance or states nowhere, indexed by the machine's counter of such values (log 5). -/
opaque freeValue : Nat → BitVec 256
/-- The boot ROM's own measurement (R440, block 1), which the spec does not state (log 9). -/
opaque bootRomDigest : BitVec 384
/-- The tested-combination table that a hub firmware image carries (R411: where in the image it lies is not stated):
hub firmware, cell firmware, codec microcode and fabric PHY firmware versions (log 9). -/
opaque testedTable : Bytes → List (Word × Word × Word × Word)
/-- The recognised-cable table of a fabric PHY firmware image (R481; its place is not stated): OUI, part, generation,
preset index (log 9). -/
opaque cableTable : Bytes → List (Nat × Nat × Nat × Nat)
/-- The certificate chain of slot 0 (R442), which the spec does not state (log 9). -/
opaque certChain : Bytes
/-- The hub handle of a job's validated copies (spec/16 R381 PROGRAM: a value of the hub's own choosing; log 5). -/
opaque hubHandle : Nat → Dword
/-- The bytes of a codec session's state area (spec/11_video_encode.md R244, spec/12_decode_and_ingest.md R273: the
microcode version fixes the format, which is not stated), by that version and all that the area holds (log 31). -/
opaque stateImage {α : Type} : Word → α → Bytes
/-- What a state area that this module did not write means to a microcode version (log 31). -/
opaque stateOf {α : Type} [Inhabited α] : Word → Bytes → α
/-- The sequence header or parameter sets that a key picture carries, as the standard writes them: codec and the values
of the header's fields (R239, R240, R245; log 31). -/
opaque codedHeader : Nat → List Nat → List Bool
/-- The bits of a coded block row (R247: the microcode version fixes them), by everything that R247 lets them depend on;
the second argument says what the row codes (log 31). -/
opaque codedRow {α β : Type} : α → β → List Bool
/-- The microcode's choice of intra coding for block k of an inter picture (R247), the best vector found given (log 31). -/
opaque codedIntra {α : Type} : α → Nat → Nat × Int × Int → Bool
/-- The codec's first predicted vector of block k: reference and vector (R259; log 31). -/
opaque predicted {α : Type} : α → Nat → Nat × Int × Int
/-- The luma and chroma planes that the coded picture stands for (R244; log 31). -/
opaque reconstructed {α : Type} : α → Bytes × Bytes
/-- The codec's interpolated luma sample at a phase in eighths of a sample, across and down, from the 8 x 8 integer
samples around it in raster order: codec, bit depth, samples, phase (R251; log 31). -/
opaque interpolated : Nat → Nat → List Nat → Nat → Nat → Nat
/-- What a decoder reads in an access unit from a byte on: the next picture's header (spec/12_decode_and_ingest.md R271;
log 31), by everything that R271 lets it depend on. -/
opaque decodedHead {α β : Type} [Inhabited β] : α → Nat → β
/-- What a decoder reads of a slice, tile group or frame whose data begins at a byte (R271, R277; log 31). -/
opaque decodedSlice {α β γ : Type} [Inhabited γ] : α → β → Nat → γ
/-- The luma and chroma planes of a decoded picture before concealment, by its inputs and its references' planes (R271;
log 31). -/
opaque decodedPlanes {α β : Type} : α → β → Bytes × Bytes
/-- What later access units need of those before beside the pictures: parameter sets and contexts (R271; log 31). -/
opaque decodedContext {α : Type} : α → Bytes
/-- Entry k of expansion table t as a MAT reads it where no table write precedes its execution in iteration order
(spec/04_number_formats.md R89, R91 state no bank then; log 8). -/
opaque unwrittenEntry : Nat → Nat → Half
/-- A quotient of rate control whose divisor, a picture budget, is 0 (R254, R256 state none), by its dividend (log 5). -/
opaque rateOverZero : Int → Int

end Config
end Sys2Proof
end

