-- ==== Sys2Proof/Inputs.lean ====
section
/-! DEFINITION. Records that commands carry as operands: a fabric frame, a cable assembly's answer. -/

namespace Sys2Proof

/-- A fabric frame as it arrives (spec/14_twisil_fabric.md R322): the 96-bit header word, the payload, the 24-byte
security trailer of an encrypted port (spec/19_security.md R449) as NONCE word and tag, and the CRC word. -/
structure Frame where
  header  : BitVec 96
  payload : Bytes
  sec     : Option (Dword × BitVec 128)
  crc     : Word
  deriving DecidableEq, Repr

/-- What a cable assembly's CMIS memory shows (spec/21_management_identity_debug.md R481). -/
structure Cable where
  valid : Bool
  oui   : Nat
  part  : Nat
  /-- the highest generation among the advertised host interface applications -/
  gen   : Nat
  deriving DecidableEq, Repr

end Sys2Proof
end

