-- ==== Sys2Proof/Syntax.lean ====
section
/-! DEFINITION. The commands of the K48, one constructor per row of spec/opcode_table.json. A row whose event happens
at a moment that a rule tests carries that moment `t`, in nanoseconds of the model's clock (log 1). -/

namespace Sys2Proof

inductive Instr where
  /-- REGISTER_WRITE (R350): function f writes w bytes (4 or 8) at BAR0 offset off -/
  | registerWrite (f off w : Nat) (v : Dword)
  /-- PWR_IN_READ (R459): function f reads PWR_IN, w bytes at offset off -/
  | pwrInRead (f off w : Nat)
  /-- JOB_RING_DOORBELL (R363): function f writes JR_TAIL of ring r -/
  | jobRingDoorbell (f r : Nat) (tail : Word)
  /-- TM_NUM_CLEAR (R102): function f writes TM_NUM_CTL with CLEAR -/
  | tmNumClear (f : Nat) (v : Word)
  /-- SEAL_EN_WRITE (R317): function f writes MEM_CTL, for its SEAL_EN -/
  | sealEnWrite (f : Nat) (v : Word)
  /-- ECC_MODE_WRITE (R317): function f writes MEM_CTL, for its ECC_MODE -/
  | eccModeWrite (f : Nat) (v : Word)
  /-- MEM_SEAL_BASE_WRITE (R317): function f writes MEM_SEAL_BASE -/
  | memSealBaseWrite (f : Nat) (v : Dword)
  /-- FAB_ID_WRITE (R344): function f writes FAB_ID -/
  | fabIdWrite (f : Nat) (v : Word)
  /-- FAB_PTP_SET_WRITE (R341): function f writes FAB_PTP_SET -/
  | fabPtpSetWrite (f : Nat) (v : Dword)
  /-- PORT_RELEASE (R338): function f writes FAB_PORT_CTL of port p, for its RELEASE -/
  | portRelease (f p : Nat) (v : Word)
  /-- PORT_ENABLE (R338): function f writes FAB_PORT_CTL of port p, for its ENABLE -/
  | portEnable (f p : Nat) (v : Word)
  /-- FAB_OPQ_TAIL_WRITE (R339): function f writes FAB_OPQ_TAIL of queue q -/
  | fabOpqTailWrite (f q : Nat) (v : Word)
  /-- BU_STEP_WRITE (R403): function f writes BU_STEP -/
  | buStepWrite (f : Nat) (v : Word)
  /-- ID_UNLOCK_WRITE (R454): function f writes ID_UNLOCK -/
  | idUnlockWrite (f : Nat) (v : Dword)
  /-- ID_DEBUG_LOCK (R454): function f writes ID_DEBUG -/
  | idDebugLock (f : Nat) (v : Word)
  /-- FAB_PORT_KEY_WRITE (R451): function f writes key slot k of port p, direction d -/
  | fabPortKeyWrite (f p d k : Nat) (v : BitVec 512)
  /-- TM_OBS_SEL_WRITE (R483): function f writes TM_OBS_SEL of pin k -/
  | tmObsSelWrite (f k : Nat) (v : Word)
  /-- GET_STATE (R358) -/
  | getState (f : Nat) (tag : Word)
  /-- GET_INFO (R359) -/
  | getInfo (f : Nat) (tag : Word)
  /-- RING_ASSIGN (R360) -/
  | ringAssign (f : Nat) (tag : Word) (a0 a1 : Dword)
  /-- RING_SETUP (R360) -/
  | ringSetup (f : Nat) (tag : Word) (a0 a1 a2 : Dword)
  /-- RING_ENABLE (R361) -/
  | ringEnable (f : Nat) (tag : Word) (a0 : Dword)
  /-- RING_DISABLE (R361) -/
  | ringDisable (f : Nat) (tag : Word) (a0 : Dword)
  /-- CONTEXT_BIND (R445) -/
  | contextBind (f : Nat) (tag : Word) (a0 a1 : Dword)
  /-- SESSION_CLOSE (R360) -/
  | sessionClose (f : Nat) (tag : Word) (a0 a1 : Dword)
  /-- ROLE_SET (R360) -/
  | roleSet (f : Nat) (tag : Word) (a0 a1 : Dword)
  /-- POLICY_SET (R394) -/
  | policySet (f : Nat) (tag : Word) (a0 a1 : Dword)
  /-- EVENT_READ (R360) -/
  | eventRead (f : Nat) (tag : Word) (a0 a1 a2 : Dword)
  /-- EVENT_ACK (R431) -/
  | eventAck (f : Nat) (tag : Word) (a0 : Dword)
  /-- OVERRIDE (R413) -/
  | override (f : Nat) (tag : Word) (a0 : Dword)
  /-- RESTART (R398) -/
  | restart (f : Nat) (tag : Word) (a0 : Dword)
  /-- FUNCTION_LEVEL_RESET (R368) -/
  | functionLevelReset (f : Nat)
  /-- FUNCTION_RESET_JOB_END (R368): job j -/
  | functionResetJobEnd (j : Nat)
  /-- PERST_N_ASSERT (R368) -/
  | perstNAssert
  /-- LINK_HOT_RESET (R368) -/
  | linkHotReset
  /-- PCIE_LINK_TRAINING (R479): the partner's highest generation (4, 5 or 6) and the lanes that train -/
  | pcieLinkTraining (gen width : Nat)
  /-- BAR2_READ (R351): n bytes at logical address a -/
  | bar2Read (f : Nat) (a : Dword) (n : Nat)
  /-- BAR2_WRITE (R351) -/
  | bar2Write (f : Nat) (a : Dword) (b : Bytes)
  /-- ADMISSION_DECISION (R372) -/
  | admissionDecision
  /-- ADJOURN_CONTEXT_WRITE (R377) -/
  | adjournContextWrite (j : Nat)
  /-- JOB_COMPLETION (R367) -/
  | jobCompletion (j : Nat)
  /-- BUDGET_PERIOD (R393) -/
  | budgetPeriod
  /-- BLITZ_DEADLINE_EXPIRY (R391): at time t -/
  | blitzDeadlineExpiry (t j : Nat)
  /-- TILE_STEP_ISSUE (R40): descriptor d at cell g of job j -/
  | tileStepIssue (j g d : Nat)
  /-- TILE_STEP_COMPLETE (R37) -/
  | tileStepComplete (j g d : Nat)
  /-- SUM_LINK_TRANSFER (R52): streamed row m arrives at chain position p -/
  | sumLinkTransfer (j p m : Nat)
  /-- STATIONARY_RELOAD (R66) -/
  | stationaryReload (j g : Nat)
  /-- SHADOW_SWAP (R67) -/
  | shadowSwap (j g : Nat)
  /-- FIRST_OVERFLOW_FAULT (R123) -/
  | firstOverflowFault (j g : Nat)
  /-- CLAIM_REQUEST (R130) -/
  | claimRequest (j g : Nat)
  /-- CLAIM_ANSWER (R130) -/
  | claimAnswer (j g : Nat)
  /-- MESH_TIMEOUT (R424) -/
  | meshTimeout (j g : Nat)
  /-- SOFTMAX_COMPLETION_STEP (R151): for the MAT descriptor d -/
  | softmaxCompletionStep (j g d : Nat)
  /-- LOOP_ITERATION_ADVANCE (R233) -/
  | loopIterationAdvance (j : Nat)
  /-- HUB_EXECUTION_GRANT (R46): hub descriptor d of job j -/
  | hubExecutionGrant (j d : Nat)
  /-- HUB_EXECUTION_COMPLETE (R44) -/
  | hubExecutionComplete (j d : Nat)
  /-- ENC_BLOCK_ROW (R264) -/
  | encBlockRow (j d : Nat)
  /-- ENC_CHUNK_EMIT (R265) -/
  | encChunkEmit (j d : Nat)
  /-- DEC_PICTURE_OUTPUT (R274): for execution n of hub descriptor d -/
  | decPictureOutput (j d n : Nat)
  /-- INGEST_ENTRY (R282) -/
  | ingestEntry (j d : Nat)
  /-- INGEST_DELIVERY (R284) -/
  | ingestDelivery (j d : Nat)
  /-- LIVE_TICK_EMIT (R286) -/
  | liveTickEmit (t j d : Nat)
  /-- PREFIX_LOOKUP (R186): the granted PREFIX execution of descriptor d -/
  | prefixLookup (j d : Nat)
  /-- PREFIX_INSERT (R186) -/
  | prefixInsert (j d : Nat)
  /-- PREFIX_FORK (R186) -/
  | prefixFork (j d : Nat)
  /-- PREFIX_RELEASE (R186) -/
  | prefixRelease (j d : Nat)
  /-- PREFIX_FETCH (R186) -/
  | prefixFetch (j d : Nat)
  /-- PREFIX_EVICT (R186) -/
  | prefixEvict (j d : Nat)
  /-- PREFIX_SEND (R186) -/
  | prefixSend (j d : Nat)
  /-- LEASE_LAPSE (R191): node n of the serving tree -/
  | leaseLapse (t n : Nat)
  /-- ATOMIC_UNIT_REQUEST (R181): for the SCAT step of cell g -/
  | atomicUnitRequest (j g : Nat)
  /-- WC_WRITE_MERGE (R303): requester code of R301, memory address, bytes -/
  | wcWriteMerge (src a : Nat) (b : Bytes)
  /-- WC_IDLE_FLUSH (R304) -/
  | wcIdleFlush (t line : Nat)
  /-- CORRECTION_WRITEBACK (R300) -/
  | correctionWriteback (line : Nat)
  /-- SCRUB_READ (R314) -/
  | scrubRead
  /-- STACK_TEMP_SAMPLE (R312): stack k, degrees Celsius, signed -/
  | stackTempSample (k : Nat) (temp : Byte)
  /-- PORT_TRAINING (R321): whether the attempt reached lock -/
  | portTraining (t p : Nat) (locked : Bool)
  /-- TRAINING_LOCK_TIMEOUT (R321) -/
  | trainingLockTimeout (t p : Nat)
  /-- PORT_RETRY_TIMER (R321) -/
  | portRetryTimer (t p : Nat)
  /-- IDLE (R324) -/
  | idle (t p : Nat) (fr : Frame)
  /-- REQ (R331) -/
  | req (t p : Nat) (fr : Frame)
  /-- READ (R333): the request of endpoint src with that tag -/
  | read (src tag : Nat)
  /-- WRITE (R333) -/
  | write (src tag : Nat)
  /-- FETCH_ADD (R333) -/
  | fetchAdd (src tag : Nat)
  /-- CMP_SWAP (R333) -/
  | cmpSwap (src tag : Nat)
  /-- SWAP (R333) -/
  | swap (src tag : Nat)
  /-- PAGE_READ (R191) -/
  | pageRead (src tag : Nat)
  /-- PAGE_WRITE (R333) -/
  | pageWrite (src tag : Nat)
  /-- PREFIX (R191) -/
  | prefixRequest (src tag : Nat)
  /-- DATA (R330) -/
  | data (t p : Nat) (fr : Frame)
  /-- RESP (R334) -/
  | resp (t p : Nat) (fr : Frame)
  /-- LINK_HELLO (R321) -/
  | linkHello (t p : Nat) (fr : Frame)
  /-- LINK_CREDIT (R326) -/
  | linkCredit (t p : Nat) (fr : Frame)
  /-- LINK_REPLAY (R325) -/
  | linkReplay (t p : Nat) (fr : Frame)
  /-- LINK_NAK (R337) -/
  | linkNak (t p : Nat) (fr : Frame)
  /-- LINK_QUARANTINE (R338) -/
  | linkQuarantine (t p : Nat) (fr : Frame)
  /-- REPLAY_REQUEST_REPEAT (R324) -/
  | replayRequestRepeat (t p : Nat)
  /-- IDLE_SEND_TIMER (R324) -/
  | idleSendTimer (t p : Nat)
  /-- CREDIT_RETURN_TIMER (R326) -/
  | creditReturnTimer (t p : Nat)
  /-- QUARANTINE_BEACON (R338) -/
  | quarantineBeacon (t p : Nat)
  /-- FORWARD_QUEUE_TIMEOUT (R329) -/
  | forwardQueueTimeout (t p : Nat)
  /-- TRANSACTION_TIMEOUT (R334) -/
  | transactionTimeout (t tag : Nat)
  /-- TARGET_WRITE_TIMEOUT (R333) -/
  | targetWriteTimeout (t src tag : Nat)
  /-- OPQ_RECORD_ISSUE (R339) -/
  | opqRecordIssue (q : Nat)
  /-- ANNOUNCE (R342): the PTP frame that carries the message arrives at time t on port p -/
  | announce (t p : Nat) (fr : Frame)
  /-- SYNC (R342) -/
  | sync (t p : Nat) (fr : Frame)
  /-- FOLLOW_UP (R342) -/
  | followUp (t p : Nat) (fr : Frame)
  /-- PDELAY_REQ (R342) -/
  | pdelayReq (t p : Nat) (fr : Frame)
  /-- PDELAY_RESP (R342) -/
  | pdelayResp (t p : Nat) (fr : Frame)
  /-- PDELAY_RESP_FOLLOW_UP (R342) -/
  | pdelayRespFollowUp (t p : Nat) (fr : Frame)
  /-- PTP_SYNC_TIMER (R342) -/
  | ptpSyncTimer (t : Nat)
  /-- PTP_ANNOUNCE_TIMER (R342) -/
  | ptpAnnounceTimer (t : Nat)
  /-- PTP_PDELAY_TIMER (R342) -/
  | ptpPdelayTimer (t : Nat)
  /-- PPS_IN_EDGE (R340): high time and rise time in ns -/
  | ppsInEdge (t high rise : Nat)
  /-- PTP_SOURCE_LOSS (R340) -/
  | ptpSourceLoss (t : Nat)
  /-- P48V_RISE (R455) -/
  | p48vRise (mv : Nat)
  /-- POWER_GOOD (R455) -/
  | powerGood (t : Nat)
  /-- P48V_UNDERVOLTAGE (R455) -/
  | p48vUndervoltage (mv : Nat)
  /-- P48V_OVERVOLTAGE (R455) -/
  | p48vOvervoltage (mv : Nat)
  /-- POWER_SAMPLE (R458): current in 10 mA units -/
  | powerSample (t mv curr : Nat) (mw : Word) (rail : List (Half × Word))
  /-- PWR_BRAKE_N_FALL (R464) -/
  | pwrBrakeNFall (t : Nat)
  /-- BRAKE_RELEASE (R464) -/
  | brakeRelease (t : Nat)
  /-- CONTROL_WINDOW (R461) -/
  | controlWindow
  /-- CELL_TEMP_SAMPLE (R462): physical cell index -/
  | cellTempSample (i : Nat) (temp : Byte)
  /-- HUB_TEMP_SAMPLE (R465) -/
  | hubTempSample (temp : Byte)
  /-- HUB_BOOT (R438): the carrier record as read; empty when absent -/
  | hubBoot (carrier : Bytes)
  /-- MEM_TRAIN (R401): stacks with a channel that fails training -/
  | memTrain (failing : List Nat)
  /-- MEM_INIT (R401) -/
  | memInit
  /-- CELL_WAVES (R405) -/
  | cellWaves
  /-- CELL_WAVE (R405) -/
  | cellWave (t : Nat) (settled : Bool)
  /-- DEFECT_MAP (R416) -/
  | defectMap
  /-- CELL_FIRMWARE (R412): physical cells whose second fetch mismatches -/
  | cellFirmware (bad : List Nat)
  /-- KNOWN_ANSWER (R408): failing units with expected and computed values -/
  | knownAnswer (cells engines : List (Nat × Word × Word))
  /-- LINK_TRAIN (R401): what FC0 to FC5 answer -/
  | linkTrain (assemblies : List (Option Cable))
  /-- READY (R401) -/
  | ready
  /-- STEP_RETRY_TIMER (R467) -/
  | stepRetryTimer (t : Nat)
  /-- WARM_START (R399) -/
  | warmStart (t : Nat)
  /-- JOB_REPLAY (R421) -/
  | jobReplay (j : Nat)
  /-- OVERLONG_STEP_TIMEOUT (R422) -/
  | overlongStepTimeout (j g d : Nat)
  /-- CASTLING_MAP_CHANGE (R418): row i = 16 x plot + physical row; moved columns whose second fetch mismatches, or that fail their known-answer run with expected and computed value -/
  | castlingMapChange (i : Nat) (bad : List (Nat × Option (Word × Word)))
  /-- CASTLING_RETURN (R418) -/
  | castlingReturn (i : Nat)
  /-- MODULE_LOST_FAULT (R428) -/
  | moduleLostFault (t : Nat) (arg1 : Dword)
  /-- MP_WATCHDOG_TIMEOUT (R427) -/
  | mpWatchdogTimeout (t core : Nat)
  /-- LOCKSTEP_MISMATCH (R427) -/
  | lockstepMismatch (t core : Nat)
  /-- RECOVERY_RESTORE (R429) -/
  | recoveryRestore (t : Nat)
  /-- FLASH_LOG_STORE (R434) -/
  | flashLogStore (t : Nat)
  /-- FIELD_MASK_STORE (R416) -/
  | fieldMaskStore (t : Nat)
  /-- SET_ENDPOINT_ID (R471): binding b: 0 SMBus, 1 PCIe VDM -/
  | setEndpointId (b : Nat) (eid : Byte)
  /-- GET_ENDPOINT_ID (R471) -/
  | getEndpointId (b : Nat)
  /-- GET_MCTP_VERSION_SUPPORT (R471) -/
  | getMctpVersionSupport (b : Nat) (typ : Byte)
  /-- GET_MESSAGE_TYPE_SUPPORT (R471) -/
  | getMessageTypeSupport (b : Nat)
  /-- PLDM_SENSOR_UPDATE (R473) -/
  | pldmSensorUpdate (t : Nat)
  /-- POLL_FOR_PLATFORM_EVENT_MESSAGE (R475) -/
  | pollForPlatformEventMessage (b : Nat) (ack : Bool)
  /-- SET_NUMERIC_EFFECTER (R474) -/
  | setNumericEffecter (b : Nat) (eff : Half) (v : Word)
  /-- REQUEST_UPDATE (R476): NumberOfComponents and MaximumTransferSize -/
  | requestUpdate (b comps size : Nat)
  /-- PASS_COMPONENT_TABLE (R476): component identifier and image size -/
  | passComponentTable (b : Nat) (comps : List (Nat × Nat))
  /-- FIRMWARE_COMPONENT_TRANSFER (R477) -/
  | firmwareComponentTransfer (t b comp off : Nat) (part : Bytes)
  /-- VERIFY_COMPLETE (R477) -/
  | verifyComplete (b : Nat)
  /-- APPLY_COMPLETE (R477) -/
  | applyComplete (b : Nat)
  /-- ACTIVATE_FIRMWARE (R477) -/
  | activateFirmware (t b : Nat)
  /-- CANCEL_UPDATE (R477) -/
  | cancelUpdate (b : Nat)
  /-- GET_VERSION (R441): transport b: 0 MCTP over SMBus, 1 MCTP over VDM, 2 DOE -/
  | getVersion (b : Nat)
  /-- GET_CAPABILITIES (R441) -/
  | getCapabilities (b : Nat)
  /-- NEGOTIATE_ALGORITHMS (R441) -/
  | negotiateAlgorithms (b : Nat) (asym hash : Word)
  /-- GET_DIGESTS (R441) -/
  | getDigests (b : Nat)
  /-- GET_CERTIFICATE (R442) -/
  | getCertificate (b slot off len : Nat)
  /-- CHALLENGE (R441) -/
  | challenge (b slot : Nat) (nonce : BitVec 256)
  /-- GET_MEASUREMENTS (R440) -/
  | getMeasurements (b idx : Nat) (sign : Bool) (nonce : BitVec 256)
  /-- CABLE_POLL (R480) -/
  | cablePoll (t c : Nat) (a : Option Cable)
  /-- VCBL_OVERCURRENT (R494) -/
  | vcblOvercurrent (c : Nat)
  /-- TAP_RESET (R485) -/
  | tapReset
  /-- EXTEST (R487): the value shifted into the boundary-scan register -/
  | extest (v : BitVec 23)
  /-- IDCODE (R485) -/
  | idcode
  /-- JTAG_SAMPLE (R485) -/
  | jtagSample (pins : BitVec 23)
  /-- PRELOAD (R485) -/
  | preload (v : BitVec 23)
  /-- HIGHZ (R487) -/
  | highz
  /-- CLAMP (R487) -/
  | clamp
  /-- INT_SCAN (R487) -/
  | intScan
  /-- MEM_ACCESS (R487): memory address; the 16 bytes of a write -/
  | memAccess (a : Nat) (wr : Option Bytes)
  /-- BYPASS (R485): the opcode loaded -/
  | bypass (op : Byte)
  /-- P48V_OVERVOLTAGE_CLEAR (R455) -/
  | p48vOvervoltageClear (mv : Nat)
  /-- PWR_BRAKE_N_RISE (R464) -/
  | pwrBrakeNRise (t : Nat)
  /-- CONFIGURATION_REQUEST (R346): kind 0 power state, 1 BAR2 size, 2 NumVFs, 3 DOE, 4 maximum payload, 5 maximum read
  request, 6 ECRC, 7 AER clear -/
  | configurationRequest (f kind : Nat) (v : Word)
  /-- SYNDROME_LOCK_LOSS (R320) -/
  | syndromeLockLoss (t p : Nat)
  /-- RECOVERY_CUT_BOUND (R428) -/
  | recoveryCutBound (t : Nat)
  /-- RECENT_FAULT_AGE_OUT (R430) -/
  | recentFaultAgeOut (t : Nat)
  /-- TAI_YEAR_CHANGE (R435) -/
  | taiYearChange (year : Half)
  deriving DecidableEq, Repr

end Sys2Proof
end

