-- ==== Sys2Proof/Machine/Bits.lean ====
section
/-! DEFINITION. Bit fields, byte order, maps with few entries and CRC-32C: the helpers every other file of the machine
uses. -/

namespace Sys2Proof
namespace Bits

/-- Bits hi to lo of v. -/
def field (v hi lo : Nat) : Nat := v / 2 ^ lo % 2 ^ (hi + 1 - lo)
/-- Bit i of v. -/
def bit (v i : Nat) : Bool := v / 2 ^ i % 2 == 1
/-- A Bool as a bit. -/
def ofBool (b : Bool) : Nat := if b then 1 else 0
/-- v with bit i set or cleared. -/
def setBit (v i : Nat) (b : Bool) : Nat :=
  if bit v i == b then v else if b then v + 2 ^ i else v - 2 ^ i
/-- The w low bits of v read as a two's complement number. -/
def sext (w v : Nat) : Int :=
  let m := v % 2 ^ w
  if 2 ^ (w - 1) ≤ m then (m : Int) - (2 ^ w : Nat) else m
/-- The w-bit two's complement code of x. -/
def wrap (w : Nat) (x : Int) : Nat := (x % ((2 ^ w : Nat) : Int)).toNat
def satInc (top v n : Nat) : Nat := min top (v + n)
def top64 : Nat := 2 ^ 64 - 1
/-- Number of set bits of v among the n low ones. -/
def popcount : Nat → Nat → Nat
  | 0, _ => 0
  | n + 1, v => ofBool (bit v n) + popcount n v
/-- Ceiling of a / b. -/
def ceilDiv (a b : Nat) : Nat := (a + b - 1) / b

/-- A little-endian run of bytes as a number (spec/00_scope.md R6). -/
def le : Bytes → Nat
  | [] => 0
  | b :: r => b.toNat + 256 * le r
/-- The n low bytes of v, lowest first (R6). -/
def toLe : Nat → Nat → Bytes
  | 0, _ => []
  | n + 1, v => BitVec.ofNat 8 v :: toLe n (v / 256)
/-- A big-endian run of bytes as a number, and a number as n such bytes: the exceptions to R6 (IEEE 1588 messages, SPDM
digests and signatures, SEC1 keys). -/
def be (b : Bytes) : Nat := b.foldl (fun a x => 256 * a + x.toNat) 0
def toBe (n v : Nat) : Bytes := (toLe n v).reverse
/-- n bytes of b from offset o; a byte past the end reads 0. -/
def slice (b : Bytes) (o n : Nat) : Bytes :=
  let t := (b.drop o).take n
  t ++ List.replicate (n - t.length) 0#8
/-- The n-byte little-endian field of b at offset o. -/
def fld (b : Bytes) (o n : Nat) : Nat := le (slice b o n)
/-- b with x in place of its bytes from offset o; b is extended with zeros where x lies past its end. -/
def splice (b : Bytes) (o : Nat) (x : Bytes) : Bytes :=
  slice b 0 o ++ x ++ b.drop (o + x.length)
/-- n bytes of zero. -/
def zeros (n : Nat) : Bytes := List.replicate n 0#8
/-- All bytes of b are zero. -/
def allZero (b : Bytes) : Bool := b.all (· == 0#8)
/-- A run of bytes written as ASCII. -/
def ascii (s : String) : Bytes := s.toList.map fun c => BitVec.ofNat 8 c.toNat

/-- One bit of a reflected CRC register. -/
def crcBit (c : Word) : Word := if c.getLsbD 0 then (c >>> 1) ^^^ 0x82F63B78#32 else c >>> 1
def crcByte (c : Word) (b : Byte) : Word :=
  let x := c ^^^ b.setWidth 32
  crcBit (crcBit (crcBit (crcBit (crcBit (crcBit (crcBit (crcBit x)))))))
/-- CRC-32C with the parameters of spec/13_stacked_memory.md R307. -/
def crc32c (b : Bytes) : Word := b.foldl crcByte 0xFFFFFFFF#32 ^^^ 0xFFFFFFFF#32

end Bits

namespace Sparse

/-- The value under key k. -/
def get? {α : Type} : Sparse α → Nat → Option α
  | [], _ => none
  | (j, v) :: r, k => if j = k then some v else get? r k
/-- The value under key k, or d. -/
def getD {α : Type} (m : Sparse α) (k : Nat) (d : α) : α := (get? m k).getD d
/-- m with v under key k, keys rising. -/
def put {α : Type} : Sparse α → Nat → α → Sparse α
  | [], k, v => [(k, v)]
  | (j, w) :: r, k, v => if j < k then (j, w) :: put r k v else if j = k then (k, v) :: r else (k, v) :: (j, w) :: r
/-- m without key k. -/
def del {α : Type} (m : Sparse α) (k : Nat) : Sparse α := m.filter fun p => p.1 != k
/-- m with v under key k; no entry where v is what an absent key reads as. -/
def set {α : Type} [DecidableEq α] (m : Sparse α) (k : Nat) (v d : α) : Sparse α :=
  if v = d then del m k else put m k v
/-- m with the value under k changed by f. -/
def upd {α : Type} (m : Sparse α) (k : Nat) (d : α) (f : α → α) : Sparse α := put m k (f (getD m k d))

end Sparse
end Sys2Proof
end

