-- ==== Sys2Proof/Machine/Blocks.lean ====
section
/-! DEFINITION. The blocks of the hub side of the K48 as plain data: fuses and flash, power, bring-up, identity and
debug, host interface, memory, fabric, time, event log and management. INVENTORY.md, "State", lists each piece with
its rule and reset value. -/

namespace Sys2Proof
namespace Machine

/-- An event record (spec/18_reliability_and_recovery.md R432) with its log position (R434). -/
structure Event where
  pos    : Nat
  time   : Nat
  status : Nat
  source : Nat
  flags  : Nat
  fn     : Nat
  cls    : Nat
  arg0   : Nat
  arg1   : Nat
  deriving DecidableEq, Repr

/-- Fuses (spec/00_scope.md R3, spec/17_bring_up.md R416, spec/19_security.md R439, R442, R453). -/
structure Fuses where
  /-- 1, 2 or 3 -/
  variant  : Nat
  device   : Nat
  /-- factory mask of row 16 x plot + physical row -/
  factory  : Sparse Nat
  keyHash  : List (BitVec 384)
  dbgHash  : BitVec 384
  /-- bit s: key slot s revoked -/
  revoked  : Nat
  svn      : Nat
  deriving DecidableEq, Repr

/-- One flash slot: its sequence number and the images written to it, by component identifier (R438, R476). -/
structure FlashSlot where
  seq    : Nat
  images : Sparse Bytes
  deriving DecidableEq, Repr

/-- One flash copy of the field mask (R416). -/
structure MaskCopy where
  seq   : Nat
  valid : Bool
  bits  : Sparse Nat
  deriving DecidableEq, Repr

/-- Flash and the module identity memory (R401, R416, R434, R435, R437, R478). -/
structure Flash where
  slot0    : FlashSlot
  slot1    : FlashSlot
  mask0    : MaskCopy
  mask1    : MaskCopy
  /-- temperature in the training record of each stack -/
  training : Sparse Int
  log      : List Event
  /-- TM_FAULTS[2] -/
  lost     : Nat
  downYear : Nat
  downMs   : Nat
  /-- module identity memory, 256 bytes -/
  ident    : Bytes
  deriving DecidableEq, Repr

/-- Phase of the hot-swap controller (spec/20_power_thermal_measurement.md R455, R466). -/
inductive PowerPhase where
  | off | softStart | good | overvolt | tripped
  /-- the rails are good, and INT_SCAN has stopped every clock island (spec/21_management_identity_debug.md R487) -/
  | scanned
  deriving DecidableEq, Repr

/-- A store that waits for stable power (R469). -/
inductive StoreKind where
  | flashLog
  | fieldMask
  /-- training records: stack, temperature (R401) -/
  | training (l : List (Nat × Int))
  | fuseSvn (n : Nat)
  deriving DecidableEq, Repr

/-- What a budget period's measurement holds (R458, R459). -/
structure Sample where
  volt  : Nat
  curr  : Nat
  mw    : Nat
  rails : List (Nat × Nat)
  time  : Nat
  deriving DecidableEq, Repr

/-- Input, clocks, temperatures and stores (spec/20_power_thermal_measurement.md). -/
structure Power where
  phase     : PowerPhase
  p48v      : Nat
  latest    : Sample
  /-- values latched by PWR_IN: rails, sample time, P_avg in mW (R459) -/
  latch     : Option (List (Nat × Nat) × Nat × Nat)
  winSum    : Nat
  winCount  : Nat
  /-- P_avg of the last control window, mW (R470) -/
  pAvg      : Nat
  /-- consecutive windows with P_avg above the fused limit (R463) -/
  overWins  : Nat
  /-- policies as set (R460) -/
  polP      : Nat
  polT      : Nat
  polF      : Nat
  /-- policies in force since the last control window -/
  pOp       : Nat
  tTh       : Nat
  fCap      : Nat
  fTgt      : Nat
  /-- clock limit of each physical cell that differs from fCap (R462) -/
  fc        : Sparse Nat
  cellTemp  : Sparse Int
  hubTemp   : Int
  /-- PWR_BRAKE_N is low -/
  brakePin  : Bool
  /-- the last period's power exceeded 115 % of the fused limit -/
  brakeOver : Bool
  /-- the hard brake is in force (R464) -/
  brake     : Bool
  /-- when the brake's last cause ended -/
  brakeEnd  : Nat
  /-- P48V lies in a band of R456 -/
  outBand   : Bool
  /-- since when P48V has lain in the operating range (R469) -/
  inSince   : Option Nat
  /-- the cases of R463 that are entered -/
  yieldPow  : Bool
  yieldHub  : Bool
  hot       : List Nat
  /-- what the hot-swap controller latched at a thermal trip: ARG0 and temperature (R466) -/
  trip      : Option (Nat × Int)
  thermTrip : Bool
  hold      : Bool
  deferred  : Bool
  waiting   : List StoreKind
  /-- eye height and width of each fabric lane (R470) -/
  eye       : Sparse (Nat × Nat)
  deriving DecidableEq, Repr

/-- A job ring (spec/15_host_and_mailboxes.md R361, R362; reservation spec/16_scheduling_and_budgets.md R385). -/
structure Ring where
  base   : Nat
  log2   : Nat
  vector : Nat
  owner  : Nat
  cls    : Nat
  state  : Nat
  tail   : Nat
  head   : Nat
  done   : Nat
  resv   : Nat
  /-- doorbells whose entries have not all left: TAIL written and time of arrival (R390) -/
  bells  : List (Nat × Nat)
  deriving DecidableEq, Repr

/-- A mailbox (R353): request and response areas and its registers. -/
structure Mailbox where
  /-- offsets 0x040 to 0x7FF -/
  req     : Bytes
  /-- offsets 0x800 to 0xFFF -/
  resp    : Bytes
  seq     : Nat
  overrun : Bool
  done    : Bool
  busy    : Bool
  irqEn   : Bool
  deriving DecidableEq, Repr

/-- One translation entry (spec/19_security.md R444): first logical page, pages, first memory page, W, R. -/
structure XlatEntry where
  lpage : Nat
  pages : Nat
  mpage : Nat
  w     : Bool
  r     : Bool
  deriving DecidableEq, Repr

/-- What a host read returned (R349, R351). -/
inductive ReadStatus where
  | ok | poisoned | unsupported | retry
  deriving DecidableEq, Repr
structure ReadReply where
  fn     : Nat
  status : ReadStatus
  data   : Bytes
  deriving DecidableEq, Repr

/-- PCIe settings of a function (spec/15_host_and_mailboxes.md R346): log2 of the maximum payload and read request sizes,
ECRC generation and checking enables, AER uncorrectable error status. -/
structure PcieFn where
  payload : Nat
  request : Nat
  ecrc    : Nat
  aer     : Nat
  deriving DecidableEq, Repr

/-- The host side: link, functions, BAR0 staging, mailboxes and rings (spec/15_host_and_mailboxes.md). -/
structure HostIf where
  linkUp    : Bool
  linkGen   : Nat
  linkWidth : Nat
  perstLow  : Bool
  /-- functions in D3hot (R346) -/
  d3        : List Nat
  /-- log2 of the BAR2 size, by function; 30 where not listed -/
  bar2      : Sparse Nat
  numVfs    : Nat
  /-- PCIe settings by function -/
  pcie      : Sparse PcieFn
  /-- (function, vector) pairs whose mask bit is clear -/
  unmasked  : List (Nat × Nat)
  /-- words of the MSI-X tables, keyed 1024 x function + word (R348; layout of the PCIe standard) -/
  msixTab   : Sparse Nat
  msixPend  : List (Nat × Nat)
  /-- MSI-X messages sent, the latest first -/
  msixSent  : List (Nat × Nat)
  /-- staged parts: function, part offset, value (R350) -/
  staged    : List (Nat × Nat × Nat)
  /-- captured registers: function, register offset, value (R350) -/
  captured  : List (Nat × Nat × Nat)
  lastRead  : Option ReadReply
  mbox      : Sparse Mailbox
  /-- mailboxes whose command is held until the management processor starts, with the request copied at GO (R354) -/
  held      : List (Nat × Bytes)
  rings     : Sparse Ring
  /-- functions whose reset waits for their last jobs (R368) -/
  resetting : List Nat
  /-- translation of each bound function; the PF unbound maps memory below the reserve, an unbound VF nothing (R443) -/
  ctx       : Sparse (List XlatEntry)
  deriving DecidableEq, Repr

/-- Whose write it is: the admitted job's identifier (none: the host's or a peer's), the descriptor of the step or execution
(0xFFFFFFFF: the hub's own work for the job), and the requester code of spec/13_stacked_memory.md R301. -/
structure Writer where
  job  : Option Nat
  desc : Nat
  src  : Nat
  deriving DecidableEq, Repr

/-- An entry of a channel's write-combining buffer (spec/13_stacked_memory.md R303, R304). -/
structure WcEntry where
  line : Nat
  data : Bytes
  /-- 64 bits, bit k for byte k -/
  mask : Nat
  /-- requester code of R301 of the last writer -/
  src  : Nat
  /-- who wrote it -/
  writers : List Writer
  time : Nat
  /-- budget class of the last writer -/
  cls  : Nat
  deriving DecidableEq, Repr

/-- The stacked memory (spec/13_stacked_memory.md). -/
structure Mem where
  /-- payload bytes that are not zero, addresses rising -/
  bytes    : List (Nat × Byte)
  /-- error pattern of a line: 36 symbols (R298) -/
  errs     : Sparse (List Nat)
  /-- write-combining entries of all channels, the least recently written first -/
  wc       : List WcEntry
  /-- lines whose corrected codeword is on its way back (R300), with that codeword's 64 bytes; a byte more
  follows where the patrol scrub has put it there (R314) -/
  fixes    : Sparse Bytes
  /-- classes of the read-modify-writes that flushes have made and no budget has been charged for yet (R304) -/
  owed     : List Nat
  eccMode  : Bool
  sealEn   : Bool
  sealBase : Nat
  temp     : Sparse Int
  rate     : Sparse Nat
  throttle : List Nat
  selfRef  : List Nat
  corr     : Sparse Nat
  uncorr   : Sparse Nat
  passes   : Nat
  slot     : Nat
  codeword : Nat
  deriving DecidableEq, Repr

/-- A castling in progress (spec/17_bring_up.md R418). -/
structure Castling where
  /-- row 16 x plot + physical row -/
  row   : Nat
  /-- failed physical column -/
  col   : Nat
  /-- false: before the map change; true: map changed, cells not yet returned -/
  mapped : Bool
  /-- logical IDs withdrawn -/
  lids  : List Nat
  deriving DecidableEq, Repr

/-- Bring-up, defect map and recovery registers (spec/17_bring_up.md, spec/18_reliability_and_recovery.md). -/
structure BringUp where
  auto      : Bool
  step      : Nat
  phase     : Nat
  code      : Nat
  skipped   : Nat
  override  : Bool
  /-- the four versions an override is for (R414) -/
  overVers  : Option (Word × Word × Word × Word)
  reject    : Bool
  warm      : Bool
  /-- field mask in force, and whether flash does not hold it yet (R416) -/
  fieldMask : Sparse Nat
  maskDirty : Bool
  /-- ports that have reached UP, or ended an attempt DOWN, since LINK_TRAIN began (R401) -/
  trained   : List Nat
  encOut    : Nat
  decOut    : Nat
  fwBase    : Nat
  /-- the four images copied into the hub at HUB_BOOT, by type (R438) -/
  images    : Sparse Bytes
  slot      : Nat
  fallback  : Bool
  /-- loaded map OUT of row 16 x plot + physical row -/
  outMap    : Sparse Nat
  /-- version in the instruction store of each physical cell that fetched its copy (R407) -/
  cellFw    : Sparse Word
  /-- PTP time of the last passing run of each physical cell (R409) -/
  kat       : Sparse Nat
  waves     : Nat
  /-- CELL_WAVES has begun (R405) -/
  wavesOn   : Bool
  lastWave  : Nat
  castling  : List Castling
  /-- logical positions withdrawn from placement (R418) -/
  withdrawn : List Nat
  recovering : Bool
  /-- when the module-lost fault that is being recovered was detected (R428 step 1) -/
  downFrom  : Option Nat
  /-- times of module-lost faults within RECENT (R428, R430) -/
  recent    : List Nat
  warmEn    : Bool
  mpRunning : Bool
  /-- cells and hub stations are stopped for a warm start (R399) -/
  stopped   : Bool
  /-- a module-lost fault waits for its warm start or cold start -/
  lostArg   : Option Nat
  /-- a RESTART waits: true for warm -/
  restart   : Option Bool
  deriving DecidableEq, Repr

/-- Identity, debug lifecycle, JTAG, cables (spec/19_security.md R454, spec/21_management_identity_debug.md). -/
structure Ident where
  fails    : Nat
  result   : Nat
  level    : Nat
  unlocks  : Nat
  nonce    : BitVec 256
  carrier  : Bool
  pcieMax  : Nat
  carSlot  : Nat
  txp      : Nat
  /-- per connector: present, recognised, limit, preset (R482) -/
  cables   : Sparse (Bool × Bool × Nat × Nat)
  /-- connectors whose VCBL is switched off (R494) -/
  vcblOff  : List Nat
  obsSel   : Sparse Nat
  ir       : Nat
  bsCap    : BitVec 23
  bsUpd    : BitVec 23
  /-- pins driven by EXTEST, CLAMP, or floated by HIGHZ -/
  pinMode  : Nat
  tdo      : Option Bytes
  deriving DecidableEq, Repr

/-- Security registers of a port key slot (R451): salt, key, loaded, counter. -/
structure PortKey where
  salt   : Word
  key    : BitVec 256
  loaded : Bool
  count  : Nat
  deriving DecidableEq, Repr

/-- Settings of a port that the recovery area keeps (R400, R429). -/
structure PortCfg where
  maxGen : Nat
  enable : Bool
  qmark  : Bool
  encrypt : Bool
  txSlot : Nat
  /-- transmit slots 0, 1 and receive slots 0, 1: index 2 x direction + slot -/
  keys   : Sparse PortKey
  deriving DecidableEq, Repr

/-- Port states (R344). -/
inductive PortState where
  | disabled | down | training | up | quarantined
  deriving DecidableEq, Repr

/-- A fabric port's link (spec/14_twisil_fabric.md R321 to R326, R337, R338). -/
structure Port where
  state    : PortState
  partner  : Nat
  gen      : Nat
  viol     : Nat
  lastReason : Nat
  replays  : Nat
  fecUncorr : Nat
  late     : Nat
  /-- 0 training at GEN 1, 1 locked and HELLO sent, 2 retraining at tryGen, 3 locked and HELLO sent -/
  stage    : Nat
  /-- generation being trained -/
  tryGen   : Nat
  partnerOffer : Nat
  /-- times of the violations in the last second, latest first, at most 64 -/
  violTimes : List Nat
  rxSeq    : Nat
  txSeq    : Nat
  /-- replay wanted: expected SEQ has not arrived since a REPLAY was sent -/
  replaying : Bool
  /-- frames sent that ACK does not cover: SEQ and frame -/
  unacked  : List (Nat × Sys2Proof.Frame)
  /-- last SEQ named by REPLAY and how often without progress -/
  tries    : Nat × Nat
  /-- an encrypted port's counter reached its bound (R450) -/
  keySpent : Bool
  /-- per VC, cumulative since entry into UP: units the partner freed, units sent, units freed here, units received,
  and units freed here as last returned to the partner (R326) -/
  granted  : Sparse Nat
  used     : Sparse Nat
  freed    : Sparse Nat
  received : Sparse Nat
  returned : Sparse Nat
  /-- frames held for credits or for their turn: time of arrival and frame without SEQ and ACK -/
  queue    : List (Nat × Sys2Proof.Frame)
  /-- when the port went DOWN (R321) -/
  downAt   : Nat
  /-- it retrains after it was UP (R325) -/
  wasUp    : Bool
  /-- encryption in force since entry into UP -/
  crypt    : Bool
  deriving DecidableEq, Repr

/-- Who issued a transaction of this module (R335). -/
inductive Requester where
  /-- job, cell, descriptor, step -/
  | cell (j g d n : Nat)
  /-- queue, record position -/
  | opq (q n : Nat)
  /-- PREFIX execution: job, descriptor -/
  | pfx (j d : Nat)
  /-- nobody any more: its step has been discarded -/
  | gone
  deriving DecidableEq, Repr

/-- A transaction outstanding at this module (R334). -/
structure Txn where
  tag    : Nat
  dst    : Nat
  op     : Nat
  region : Nat
  offset : Nat
  length : Nat
  /-- local memory address of a READ destination or WRITE source, by units of the run -/
  addr   : List (Nat × Nat)
  owner  : Requester
  issued : Nat
  /-- units of read data that have arrived, and their bytes -/
  units  : Sparse Bytes
  resp   : Option Bytes
  deriving DecidableEq, Repr

/-- A request this module serves (R333). -/
structure Served where
  src    : Nat
  tag    : Nat
  port   : Nat
  blk    : Bytes
  time   : Nat
  /-- the reason with which R333 step 1 answers it; 0 it passes -/
  deny   : Nat
  /-- memory address of its first byte -/
  addr   : Nat
  /-- units of write data that have arrived -/
  units  : Sparse Bytes
  deriving DecidableEq, Repr

/-- An operation queue (R339, R344). -/
structure Opq where
  base : Nat
  log2 : Nat
  tail : Nat
  head : Nat
  /-- next record to issue -/
  next : Nat
  /-- records at or after head that are complete -/
  done : List Nat
  deriving DecidableEq, Repr

/-- Fabric settings, ports and transactions (spec/14_twisil_fabric.md). -/
structure Fabric where
  idValid : Bool
  group   : Nat
  member  : Nat
  ptpCtl  : Nat
  grp     : Sparse Nat
  mbr     : Sparse Nat
  region  : Sparse (BitVec 256)
  opq     : Sparse Opq
  cfg     : Sparse PortCfg
  port    : Sparse Port
  txns    : List Txn
  /-- TAGs of timed-out transactions and when they may be used again (R334) -/
  cooling : List (Nat × Nat)
  served  : List Served
  /-- frames sent, the latest first: port and frame -/
  sent    : List (Nat × Sys2Proof.Frame)
  deriving DecidableEq, Repr

/-- A master heard on a port: the Announce dataset (R342). -/
structure Master where
  prio1 : Nat
  cls   : Nat
  acc   : Nat
  var   : Nat
  prio2 : Nat
  gm    : Nat
  steps : Nat
  /-- the sender's port identity: clock identity and port number -/
  sender : Nat
  deriving DecidableEq, Repr

/-- One PTP message sent (the block's output): kind, port, sequence, a time. -/
structure PtpMsg where
  kind : Nat
  port : Nat
  seq  : Nat
  time : Nat
  deriving DecidableEq, Repr

/-- PTP clock (R340 to R344). PTP time is the model clock plus `offset`, and what the frequency correction `rate`, in
parts per 10^9, has added since `since`. -/
structure Ptp where
  offset  : Int
  rate    : Int
  since   : Nat
  state   : Nat
  measured : Int
  pendSet : Option Nat
  lastPps : Option Nat
  masters : Sparse Master
  slave   : Option Nat
  lastSync : Nat
  /-- Sync awaiting its Follow_Up: port, sequence, receive time less its correction -/
  sync    : Option (Nat × Nat × Int)
  delay   : Sparse Int
  /-- Pdelay_Req sent: sequence and time, per port -/
  pdReq   : Sparse (Nat × Nat)
  /-- Pdelay_Resp received: sequence, request receive time at the peer, local receive time less its correction -/
  pdResp  : Sparse (Nat × Nat × Int)
  seq     : Nat
  sent    : List PtpMsg
  deriving DecidableEq, Repr

/-- Numeric counts and fault counters (spec/04_number_formats.md R102, R435). -/
structure Tm where
  hold     : Bool
  /-- times TM_NUM_CTL.CLEAR was written -/
  era      : Nat
  sat      : Nat
  flush    : Nat
  replayed : Nat
  jobLost  : Nat
  deriving DecidableEq, Repr

/-- The memory event log (R434) and the positions of R359. -/
structure EvLog where
  recs   : List Event
  next   : Nat
  notify : Nat
  acked  : Nat
  /-- records that wait to reach the flash log -/
  toFlash : List Event
  deriving DecidableEq, Repr

/-- A PLDM platform event (R475). -/
inductive PldmEvent where
  | log (e : Event)
  | sensor (id state : Nat)
  deriving DecidableEq, Repr

/-- A firmware update in progress (R476, R477). -/
structure Update where
  binding  : Nat
  passed   : Bool
  /-- the slot not in force has been erased for it -/
  erased   : Bool
  sizes    : Sparse Nat
  verified : Bool
  applied  : Bool
  deriving DecidableEq, Repr

/-- What the K48 answered on MCTP, SPDM or PLDM (the block's output). -/
structure Reply where
  binding : Nat
  code    : Nat
  data    : Bytes
  deriving DecidableEq, Repr

/-- MCTP, PLDM and SPDM (spec/21_management_identity_debug.md, spec/19_security.md R441). -/
structure Mgmt where
  eid      : Sparse Nat
  queue    : List PldmEvent
  overflow : Nat
  /-- the oldest message has been delivered and is not acknowledged -/
  given    : Bool
  sensors  : Sparse Int
  states   : Sparse Nat
  update   : Option Update
  /-- SPDM per transport: 0 none, 1 version, 2 capabilities, 3 algorithms -/
  spdm     : Sparse Nat
  /-- bytes the signature transcript of each transport covers so far (R442) -/
  script   : Sparse Bytes
  reply    : Option Reply
  deriving DecidableEq, Repr

end Machine
end Sys2Proof
end

