-- ==== Sys2Proof/Machine/Memory.lean ====
section
/-! DEFINITION. The stacked memory (spec/13_stacked_memory.md): interleave, line code, write combining, as functions
on the memory block alone. -/

namespace Sys2Proof
namespace Machine
namespace Memory

open Bits

/-- What a byte of memory that nothing has written reads as (log 7). -/
def blank : Byte := 0#8

/-- Addresses rise strictly and no listed byte equals `blank`. -/
def wfBytes : List (Nat × Byte) → Bool
  | [] => true
  | [(_, v)] => v != blank
  | (a, v) :: (b, w) :: r => (v != blank) && decide (a < b) && wfBytes ((b, w) :: r)

/-- The memory's bytes are in canonical form. -/
def wf (m : Mem) : Bool := wfBytes m.bytes

/-- The byte at address a. -/
def byteAt (m : List (Nat × Byte)) (a : Nat) : Byte := Sparse.getD m a blank
/-- n bytes from address a. -/
def run (m : List (Nat × Byte)) (a n : Nat) : Bytes := (List.range n).map fun i => byteAt m (a + i)
/-- The bytes of b that are not blank, with their addresses from a. -/
def cells (a : Nat) : Bytes → List (Nat × Byte)
  | [] => []
  | x :: r => if x = blank then cells (a + 1) r else (a, x) :: cells (a + 1) r
/-- m with the bytes b from address a. -/
def put (m : List (Nat × Byte)) (a : Nat) (b : Bytes) : List (Nat × Byte) :=
  m.filter (fun p => p.1 < a) ++ cells a b ++ m.filter (fun p => a + b.length ≤ p.1)

/-- The channel of memory address a (R297). -/
def channelOf (a : Nat) : Nat :=
  let b := a / 4096
  let r := b / 256
  let f := (r % 256) ^^^ (r / 256 % 256) ^^^ (r / 65536 % 8)
  (b % 256) ^^^ f
/-- Stack of memory address a (R297). -/
def stackOf (a : Nat) : Nat := channelOf a % 8
def channelInStack (a : Nat) : Nat := channelOf a / 8
/-- Slot and codeword of memory address a (R297). -/
def slotOf (a : Nat) : Nat := a / 4096 / 256
def codewordOf (a : Nat) : Nat := a % 4096 / 64
/-- Raw channel offsets of a's data byte and of its line's check bytes (R297). -/
def dataOffset (a : Nat) : Nat := 4608 * slotOf a + 64 * codewordOf a + a % 64
def checkOffset (a : Nat) : Nat := 4608 * slotOf a + 4096 + 8 * codewordOf a
/-- The memory address of codeword i of slot r on channel ch: the inverse of R297. -/
def lineAddr (ch r i : Nat) : Nat :=
  let f := (r % 256) ^^^ (r / 256 % 256) ^^^ (r / 65536 % 8)
  (r * 256 + (ch ^^^ f)) * 4096 + i * 64

/-! ### The line code (R298, R299) -/

def xtime (a : Nat) : Nat := if 32768 ≤ a then (2 * a) ^^^ 0x1100B else 2 * a
def gfMulAux : Nat → Nat → Nat → Nat
  | 0, _, _ => 0
  | k + 1, a, b => (if b % 2 = 1 then a else 0) ^^^ gfMulAux k (xtime a) (b / 2)
/-- Product in GF(2^16) with x^16 + x^12 + x^3 + x + 1. -/
def gfMul (a b : Nat) : Nat := gfMulAux 16 a b
/-- a to the n-th power. -/
def gfPow (a : Nat) : Nat → Nat
  | 0 => 1
  | n + 1 => gfMul a (gfPow a n)
def gfInvAux : Nat → Nat → Nat → Nat
  | 0, _, acc => acc
  | k + 1, sq, acc => let q := gfMul sq sq; gfInvAux k q (gfMul acc q)
/-- Inverse in GF(2^16): the product of a^(2^i), i from 1 to 15. -/
def gfInv (a : Nat) : Nat := gfInvAux 15 a 1
/-- Symbol s of 16 bits of some bytes, little-endian. -/
def symbol (d : Bytes) (s : Nat) : Nat := fld d (2 * s) 2
/-- The code's generator x^4 + g3 x^3 + g2 x^2 + g1 x + g0, as g3, g2, g1, g0: the product of x - alpha^k, k from 1 to 4. -/
def generator : List Nat :=
  let times := fun (p : List Nat) (r : Nat) => (List.range 5).map fun i =>
    (if i = 0 then 0 else p.getD (i - 1) 0) ^^^ gfMul r (p.getD i 0)
  let p := [2, gfPow 2 2, gfPow 2 3, gfPow 2 4].foldl times [1, 0, 0, 0, 0]
  [p.getD 3 0, p.getD 2 0, p.getD 1 0, p.getD 0 0]
/-- Check symbols p0 to p3 of 64 data bytes: D(x) x^4 mod g(x), one data symbol after the other (R298). -/
def checkSymbols (d : Bytes) : List Nat :=
  (List.range 32).foldl (fun (r : List Nat) s =>
    let q := r.getD 0 0 ^^^ symbol d s
    (List.range 4).map fun i => (r.getD (i + 1) 0) ^^^ gfMul q (generator.getD i 0)) [0, 0, 0, 0]
/-- The 8 check bytes of 64 data bytes. -/
def checkBytes (d : Bytes) : Bytes := (checkSymbols d).flatMap (toLe 2)
/-- The locator of symbol s of the 36 of a codeword: alpha to the power of its degree, 35 - s. -/
def locator (s : Nat) : Nat := gfPow 2 (35 - s)
/-- Syndrome k of an error pattern. -/
def syndrome (e : List Nat) (k : Nat) : Nat :=
  (e.zipIdx.map fun (v, s) => gfMul v (gfPow (locator s) k)).foldl (· ^^^ ·) 0
/-- The one-symbol pattern at s with these syndromes, if there is one. -/
def solve1 (s1 s2 s3 s4 s : Nat) : Option (List (Nat × Nat)) :=
  let x := locator s
  let v := gfMul s1 (gfInv x)
  if v != 0 && gfMul v (gfPow x 2) == s2 && gfMul v (gfPow x 3) == s3 && gfMul v (gfPow x 4) == s4
  then some [(s, v)] else none
/-- The two-symbol pattern at s and t with these syndromes, if there is one. -/
def solve2 (s1 s2 s3 s4 s t : Nat) : Option (List (Nat × Nat)) :=
  let x := locator s
  let y := locator t
  let w := gfMul (s2 ^^^ gfMul x s1) (gfInv (gfMul y (x ^^^ y)))
  let v := gfMul (s1 ^^^ gfMul w y) (gfInv x)
  let ok := fun (k q : Nat) => (gfMul v (gfPow x k)) ^^^ (gfMul w (gfPow y k)) == q
  if v != 0 && w != 0 && ok 3 s3 && ok 4 s4 then some [(s, v), (t, w)] else none
/-- The pattern the decoder takes out of a line with error pattern e: at most two symbols in mode 0, one in mode 1;
none when the line is uncorrectable (R299). -/
def decodeErr (mode : Bool) (e : List Nat) : Option (List (Nat × Nat)) :=
  let s1 := syndrome e 1
  let s2 := syndrome e 2
  let s3 := syndrome e 3
  let s4 := syndrome e 4
  if s1 == 0 && s2 == 0 && s3 == 0 && s4 == 0 then some []
  else
    let one := (List.range 36).findSome? (solve1 s1 s2 s3 s4)
    if one.isSome || mode then one
    else (List.range 36).findSome? fun s =>
      ((List.range 36).filter (s < ·)).findSome? (solve2 s1 s2 s3 s4 s)
/-- The error pattern left when the decoder has taken p out of e. -/
def residual (e : List Nat) (p : List (Nat × Nat)) : List Nat :=
  e.zipIdx.map fun (v, s) => v ^^^ ((p.filter (·.1 == s)).map (·.2)).foldl (· ^^^ ·) 0
/-- 64 data bytes with the first 32 symbols of pattern e added. -/
def addErr (d : Bytes) (e : List Nat) : Bytes :=
  d.zipIdx.map fun (b, k) => b ^^^ BitVec.ofNat 8 (e.getD (k / 2) 0 / 256 ^ (k % 2))

/-- The 72 bytes that a channel holds of a line: its data, then its check bytes, with the line's error pattern added
(R297, R298). Mem keeps the pattern in place of the check bytes; since the code is linear, the syndromes of these bytes are
the pattern's. -/
def stored (m : Mem) (line : Nat) : Bytes :=
  let d := run m.bytes (64 * line) 64
  addErr (d ++ checkBytes d) ((Sparse.get? m.errs line).getD [])

/-- A line's write with its check symbols: errors end, and a correction on its way is dropped (R300). -/
def writeLine (m : Mem) (line : Nat) (d : Bytes) : Mem :=
  { m with bytes := put m.bytes (64 * line) (slice d 0 64), errs := Sparse.del m.errs line,
           fixes := Sparse.del m.fixes line }

/-- One channel read of a line (R299, R300, R301): the data and the counts, none when uncorrectable. -/
def readChannel (m : Mem) (line : Nat) : Option Bytes × Mem :=
  let raw := run m.bytes (64 * line) 64
  match Sparse.get? m.errs line with
  | none => (some raw, m)
  | some e =>
    let st := stackOf (64 * line)
    match decodeErr m.eccMode e with
    | none => (none, { m with uncorr := Sparse.upd m.uncorr st 0 (satInc top64 · 1) })
    | some p =>
      let d := addErr raw (residual e p)
      if p.isEmpty then (some d, m)
      else (some d, { m with corr := Sparse.upd m.corr st 0 (satInc top64 · 1), fixes := Sparse.put m.fixes line d })

/-- The correction write-back of a line (R300). -/
def writeback (m : Mem) (line : Nat) : Mem :=
  match Sparse.get? m.fixes line with
  | none => m
  | some d => writeLine m line d

/-- d overlaid by the masked bytes of an entry (R303). -/
def overlay (e : WcEntry) (d : Bytes) : Bytes :=
  d.zipIdx.map fun (b, k) => if bit e.mask k then e.data.getD k 0#8 else b
def entryOf (m : Mem) (line : Nat) : Option WcEntry := m.wc.find? (·.line == line)
def dropEntry (m : Mem) (line : Nat) : Mem := { m with wc := m.wc.filter (·.line != line) }
def fullMask : Nat := 2 ^ 64 - 1

/-- The byte at address a as a read sees it: the byte of the line's entry where its mask has it, else memory's (R303). -/
def seen (m : Mem) (a : Nat) : Byte :=
  match entryOf m (a / 64) with
  | some e => if bit e.mask (a % 64) then e.data.getD (a % 64) blank else byteAt m.bytes a
  | none => byteAt m.bytes a
/-- The write-combining buffers are in order: no line has two entries, an entry holds 64 bytes, not all of them written,
and a channel holds at most 32 entries (R303, R304). -/
def wcOk (l : List WcEntry) : Bool :=
  decide ((l.map (·.line)).Nodup) && l.all (fun e => e.data.length == 64 && decide (e.mask < fullMask)) &&
    (List.range 256).all fun c => decide ((l.filter fun e => channelOf (64 * e.line) == c).length ≤ 32)
/-- The memory's write-combining buffers are in order. -/
def bufOk (m : Mem) : Bool := wcOk m.wc

/-- A read of a line: memory overlaid by the line's entry (R303). -/
def readLine (m : Mem) (line : Nat) : Option Bytes × Mem :=
  match readChannel m line with
  | (none, m) => (none, m)
  | (some d, m) =>
    match entryOf m line with
    | none => (some d, m)
    | some e => (some (overlay e d), m)

/-- A line whose read-modify-write met an uncorrectable read, the requester, and whose bytes are lost (R305). -/
abbrev Lost := List (Nat × Nat × List Writer)

/-- Flush one entry (R304): with a full mask the line is written; otherwise it is read, overlaid and written, and
dropped when it is uncorrectable (R305). -/
def flushEntry (m : Mem) (e : WcEntry) : Mem × Lost :=
  let m := dropEntry m e.line
  if e.mask = fullMask then (writeLine m e.line e.data, [])
  else
    let m := { m with owed := m.owed ++ [e.cls] }
    match readChannel m e.line with
    | (none, m) => (m, [(e.line, e.src, e.writers)])
    | (some d, m) => (writeLine m e.line (overlay e d), [])

/-- Flush every entry that p holds of, in order. -/
def flushWhere (m : Mem) (p : WcEntry → Bool) : Mem × Lost :=
  (m.wc.filter p).foldl (fun (m, l) e => let (m, k) := flushEntry m e; (m, l ++ k)) (m, [])

/-- Mask bits of n bytes from byte k. -/
def maskOf (k n : Nat) : Nat := (2 ^ n - 1) * 2 ^ k

/-- The entry takes its place: a full mask is written to memory at once (R304). -/
def place (m : Mem) (e : WcEntry) : Mem :=
  if e.mask = fullMask then writeLine m e.line e.data else { m with wc := m.wc ++ [e] }
/-- Room for a new entry in the buffer of the line's channel: at 32 entries the least recently written is flushed (R304). -/
def room (m : Mem) (line : Nat) : Mem × Lost :=
  let same := m.wc.filter fun e => channelOf (64 * e.line) == channelOf (64 * line)
  if 32 ≤ same.length then
    match same with
    | old :: _ => flushEntry m old
    | [] => (m, [])
  else (m, [])
/-- Entry e with the bytes b from byte k of its line. -/
def merged (e : WcEntry) (w : Writer) (cls time k : Nat) (b : Bytes) : WcEntry :=
  { e with data := splice e.data k b, mask := e.mask ||| maskOf k b.length, src := w.src,
           writers := if e.writers.contains w then e.writers else e.writers ++ [w], time := time, cls := cls }
/-- A write of bytes within one line reaches the channel (R303, R304): w says whose it is, cls its budget class. -/
def mergeLine (m : Mem) (w : Writer) (cls time line k : Nat) (b : Bytes) : Mem × Lost :=
  -- a correction on its way is dropped (R300)
  let m := { m with fixes := Sparse.del m.fixes line }
  if k = 0 ∧ b.length = 64 then (writeLine (dropEntry m line) line b, [])
  else match entryOf m line with
    | some e => (place (dropEntry m line) (merged e w cls time k b), [])
    | none =>
      let (m, lost) := room m line
      (place m (merged ⟨line, zeros 64, 0, w.src, [], time, cls⟩ w cls time k b), lost)

/-- The pieces of a run of bytes that lie in one line each: line, byte, bytes. -/
def pieces (a : Nat) (b : Bytes) : List (Nat × Nat × Bytes) :=
  let first := a / 64
  let last := (a + b.length - 1) / 64
  if b.isEmpty then [] else
  (List.range (last - first + 1)).map fun i =>
    let lo := max a (64 * (first + i))
    let hi := min (a + b.length) (64 * (first + i + 1))
    (first + i, lo % 64, slice b (lo - a) (hi - lo))

/-- A write of a run of bytes. -/
def write (m : Mem) (w : Writer) (cls time a : Nat) (b : Bytes) : Mem × Lost :=
  (pieces a b).foldl (fun (m, l) (line, k, x) => let (m, q) := mergeLine m w cls time line k x; (m, l ++ q)) (m, [])

/-- Lines that n bytes from a touch. -/
def linesOf (a n : Nat) : Nat := if n = 0 then 0 else (a + n - 1) / 64 - a / 64 + 1

def readLines (m : Mem) : List Nat → Bytes → Except Nat Bytes × Mem
  | [], acc => (.ok acc, m)
  | l :: r, acc =>
    match readLine m l with
    | (none, m) => (.error (64 * l), m)
    | (some d, m) => readLines m r (acc ++ d)
/-- A read of n bytes from a: the bytes, or the address of the first uncorrectable line (R301). -/
def read (m : Mem) (a n : Nat) : Except Nat Bytes × Mem :=
  match readLines m ((List.range (linesOf a n)).map (a / 64 + ·)) [] with
  | (.ok d, m) => (.ok (slice d (a % 64) n), m)
  | (.error e, m) => (.error e, m)

/-- The refresh row of R312 for a temperature, with hysteresis of 3 degrees on the way down: 0 x1, 1 x2, 2 x4, 3 x4
throttled. -/
def tempRow (old : Nat) (t : Int) : Nat :=
  let up := if 105 < t then 3 else if 95 < t then 2 else if 85 < t then 1 else 0
  let keep : Nat → Bool := fun r => decide ((if r = 3 then 105 else if r = 2 then 95 else 85) - 3 < t)
  if old ≤ up then up
  else if keep old && old = 3 then 3
  else if keep (max up 2) && 2 ≤ old then max up 2
  else if keep (max up 1) && 1 ≤ old then max up 1
  else up

end Memory
end Machine
end Sys2Proof
end

