-- ==== Sys2Proof/Machine/Flags.lean ====
section
/-! DEFINITION. Exact values, FP32 rounding and the saturated and flushed marks it leaves
(spec/04_number_formats.md R73 to R78, R94 to R99), and the FP32 operations built on it. -/

namespace Sys2Proof
namespace Machine

/-- An exact value: canonical NaN (R76), an infinity, or (-1)^neg x m x 2^e. -/
inductive Val where
  | nan
  | inf (neg : Bool)
  | fin (neg : Bool) (m : Nat) (e : Int)
  deriving DecidableEq, Repr

/-- Saturated and flushed elements (R99), and 1/100 pJ of energy spent (spec/20_power_thermal_measurement.md R468). -/
structure Marks where
  sat    : Nat
  flush  : Nat
  energy : Nat
  deriving DecidableEq, Repr

/-- A computation that leaves marks. -/
abbrev NumM (α : Type) := StateM Marks α

namespace Num

open Bits

def sat (n : Nat) : NumM Unit := modify fun k => { k with sat := k.sat + n }
def flush (n : Nat) : NumM Unit := modify fun k => { k with flush := k.flush + n }
def energy (n : Nat) : NumM Unit := modify fun k => { k with energy := k.energy + n }
/-- A computation of constants, whose marks do not count (R99). -/
def silent {α : Type} (x : NumM α) : NumM α := do
  let k ← get
  let v ← x
  set k
  pure v

/-- Which kinds of count an element has already had in this step: saturated, flushed. -/
abbrev Had := Bool × Bool
/-- A computation of one element that has already been counted as `had` says: an element counts at most once as saturated
and once as flushed for the descriptor of its step (R99; spec/07_exp2_log2_and_composed_functions.md R157, R168). -/
def once {α : Type} (had : Had) (x : NumM α) : NumM (α × Had) := do
  let k ← get
  let v ← x
  let q ← get
  let s := k.sat != q.sat
  let f := k.flush != q.flush
  set ({ q with sat := k.sat + ofBool (s && !had.1), flush := k.flush + ofBool (f && !had.2) } : Marks)
  pure (v, (had.1 || s, had.2 || f))

def zero (neg : Bool) : Val := .fin neg 0 0
/-- The number of significant bits of m. -/
def bits (m : Nat) : Nat := if m = 0 then 0 else Nat.log2 m + 1
def isNaN : Val → Bool
  | .nan => true
  | _ => false
def isInf : Val → Bool
  | .inf _ => true
  | _ => false
def isZero : Val → Bool
  | .fin _ 0 _ => true
  | _ => false
def isNeg : Val → Bool
  | .nan => false
  | .inf n => n
  | .fin n _ _ => n
def neg : Val → Val
  | .nan => .nan
  | .inf n => .inf !n
  | .fin n m e => .fin (!n) m e
def abs : Val → Val
  | .nan => .nan
  | .inf _ => .inf false
  | .fin _ m e => .fin false m e

/-- m x 2^e as an integer number of units 2^k, for k at most e. -/
def scaleTo (m : Nat) (e k : Int) : Nat := m * 2 ^ (e - k).toNat
/-- The exact sum of finite values, as an integer count of 2^k. -/
def exactSum (l : List Val) : Int × Int :=
  let k := l.foldl (fun k v => match v with
    | .fin _ m e => if m = 0 then k else min k e
    | _ => k) (10000 : Int)
  let s := l.foldl (fun (s : Int) v => match v with
    | .fin n m e => if m = 0 then s else if n then s - scaleTo m e k else s + scaleTo m e k
    | _ => s) 0
  (s, k)

/-- Round m x 2^e to w significant bits, to nearest even: m' and e'. -/
def roundBits (w m : Nat) (e : Int) : Nat × Int :=
  let b := bits m
  if b ≤ w then (m, e)
  else
    let sh := b - w
    let q := m / 2 ^ sh
    let r := m % 2 ^ sh
    let half := 2 ^ (sh - 1)
    let q := if half < r ∨ (r = half ∧ q % 2 = 1) then q + 1 else q
    (q, e + sh)

/-- fp32_round of the exact value (-1)^n m 2^e (R94). -/
def round (n : Bool) (m : Nat) (e : Int) : NumM Val := do
  if m = 0 then pure (zero n)
  else
    let (q, f) := roundBits 24 m e
    let top : Int := bits q + f
    if 128 < top then
      sat 1
      pure (.inf n)
    else if top < -125 then
      flush 1
      pure (zero n)
    else pure (.fin n q f)

/-- fp32_round of num / den x 2^e, den above 0: enough quotient bits and a sticky bit decide the rounding. -/
def roundQuot (n : Bool) (num den : Nat) (e : Int) : NumM Val :=
  if num = 0 then pure (zero n)
  else
    let up := 30 + bits den
    let q := num * 2 ^ up / den
    let r := num * 2 ^ up % den
    round n (2 * q + (if r = 0 then 0 else 1)) (e - up - 1)

/-- fp32_round of an exact integer count s of 2^k. -/
def roundInt (s k : Int) : NumM Val := round (s < 0) s.natAbs k

/-- fp32_add (R94) of two values that registers hold. -/
def add (a b : Val) : NumM Val :=
  match a, b with
  | .nan, _ => pure .nan
  | _, .nan => pure .nan
  | .inf x, .inf y => pure (if x = y then .inf x else .nan)
  | .inf x, _ => pure (.inf x)
  | _, .inf y => pure (.inf y)
  | .fin x m e, .fin y p f =>
    if m = 0 ∧ p = 0 then pure (zero (x && y))
    else
      let (s, k) := exactSum [.fin x m e, .fin y p f]
      if s = 0 then pure (zero false) else roundInt s k
def sub (a b : Val) : NumM Val := add a (neg b)
/-- fp32_mul (spec/06_epilogues_and_row_statistics.md R138). -/
def mul (a b : Val) : NumM Val :=
  match a, b with
  | .nan, _ => pure .nan
  | _, .nan => pure .nan
  | .inf x, .inf y => pure (.inf (x != y))
  | .inf x, .fin y p _ => pure (if p = 0 then .nan else .inf (x != y))
  | .fin x m _, .inf y => pure (if m = 0 then .nan else .inf (x != y))
  | .fin x m e, .fin y p f => round (x != y) (m * p) (e + f)
/-- Exact a x b + c, rounded once (spec/07_exp2_log2_and_composed_functions.md R160, FMA). -/
def fma (a b c : Val) : NumM Val :=
  match a, b, c with
  | .fin x m e, .fin y p f, .fin z q g =>
    let pr := Val.fin (x != y) (m * p) (e + f)
    if m * p = 0 ∧ q = 0 then pure (zero ((x != y) && z))
    else
      let (s, k) := exactSum [pr, .fin z q g]
      if s = 0 then pure (zero false) else roundInt s k
  | .fin _ _ _, .fin _ _ _, .inf z => pure (.inf z)
  | .fin _ _ _, .fin _ _ _, .nan => pure .nan
  | a, b, c => do
    let p ← mul a b
    add p c

/-- Order of two values that are not NaN; -0 lies below +0. -/
def lt (a b : Val) : Bool :=
  match a, b with
  | .nan, _ => false
  | _, .nan => false
  | .inf x, .inf y => x && !y
  | .inf x, .fin _ _ _ => x
  | .fin _ _ _, .inf y => !y
  | .fin x m e, .fin y p f =>
    if m = 0 ∧ p = 0 then x && !y
    else
      let (s, _) := exactSum [.fin x m e, .fin (!y) p f]
      s < 0
/-- Equality of numbers: the two zeros are equal. -/
def eqv (a b : Val) : Bool :=
  match a, b with
  | .nan, _ => false
  | _, .nan => false
  | a, b => (isZero a && isZero b) || (!lt a b && !lt b a)
/-- MAX and MIN of R160. -/
def max (a b : Val) : Val := if isNaN a || isNaN b then .nan else if lt a b then b else a
def min (a b : Val) : Val := if isNaN a || isNaN b then .nan else if lt b a then b else a
/-- COPYSIGN of R160. -/
def copysign (a b : Val) : Val := if isNeg b then neg (abs a) else abs a

/-! ### FP32 bits (R74, R76) -/

/-- The value of an FP32 encoding; a subnormal is its exact value (R77 is applied by `flushIn`). -/
def ofBits (v : Nat) : Val :=
  let s := bit v 31
  let e := field v 30 23
  let m := field v 22 0
  if e = 255 then (if m = 0 then .inf s else .nan)
  else if e = 0 then .fin s m (-149)
  else .fin s (m + 2 ^ 23) ((e : Int) - 150)
/-- A subnormal of FP32 or BF16 reads as zero with its sign, and counts as flushed (R77). -/
def flushIn : Val → NumM Val
  | .fin n m e =>
    if m ≠ 0 ∧ (bits m : Int) + e < -125 then do
      flush 1
      pure (zero n)
    else pure (.fin n m e)
  | v => pure v
/-- A constant of a program, read under R77 and never counted (R99). -/
def const (v : Nat) : Val :=
  match ofBits v with
  | .fin n m e => if m ≠ 0 ∧ (bits m : Int) + e < -125 then zero n else .fin n m e
  | v => v
/-- The FP32 encoding of a value that fp32_round gave. -/
def toBits : Val → Nat
  | .nan => 0x7FC00000
  | .inf n => (if n then 2 ^ 31 else 0) + 0x7F800000
  | .fin n m e =>
    let s := if n then 2 ^ 31 else 0
    if m = 0 then s
    else
      let b := bits m
      let ex : Int := b + e - 1
      let f := if b ≤ 24 then m * 2 ^ (24 - b) else m / 2 ^ (b - 24)
      if ex < -126 then s + (if 0 ≤ e + 149 then m * 2 ^ (e + 149).toNat else m / 2 ^ (-(e + 149)).toNat)
      else s + (ex + 127).toNat * 2 ^ 23 + (f - 2 ^ 23)

/-- A natural number as an exact value. -/
def ofNat (n : Nat) : Val := .fin false n 0
/-- The largest finite FP32 value, with a sign. -/
def largest (n : Bool) : Val := .fin n (2 ^ 24 - 1) 104

end Num
end Machine
end Sys2Proof
end

