-- ==== Sys2Proof/Machine/Operands.lean ====
section
/-! DEFINITION. Operand forms of the cell stations: element formats, packed images, tiles, decoding and conversion
(spec/04_number_formats.md R73 to R84, R95 to R98; spec/09_randomness_and_sampling.md R194 to R201). -/

namespace Sys2Proof
namespace Machine

/-- A coordinate vector (R200): the starts of the eight dimensions and the dimensions that the row and the column index
step; 0xFF none. -/
structure Coord where
  x    : List Nat
  rdim : Nat
  cdim : Nat
  deriving DecidableEq, Repr

/-- A tile: its shape, format, valid counts (spec/05_loop_tables_and_fusion.md R114), packed image (R83) and
coordinates. -/
structure Tile where
  fmt  : Nat
  rows : Nat
  cols : Nat
  vr   : Nat
  vc   : Nat
  /-- column-blocked (R83) -/
  colb : Bool
  data : Bytes
  co   : Coord
  deriving DecidableEq, Repr

/-- An element as R92 decodes it: sign, significand m, fraction width f and exponent e, |v| = m x 2^(e - f). -/
inductive Elt where
  | nan
  | inf (neg : Bool)
  | fin (neg : Bool) (m f : Nat) (e : Int)
  deriving DecidableEq, Repr

namespace Fmt

open Bits

def fp32 : Nat := 1
def bf16 : Nat := 2
def fp16 : Nat := 3
def e4m3 : Nat := 4
def e5m2 : Nat := 5
def e3m2 : Nat := 6
def e2m3 : Nat := 7
def e2m1 : Nat := 8
def int8 : Nat := 9
def uint8 : Nat := 10
def int4 : Nat := 11

/-- The format codes of R73. -/
def known (f : Nat) : Bool := decide (1 ≤ f) && decide (f ≤ 11)
def isFloat (f : Nat) : Bool := decide (1 ≤ f) && decide (f ≤ 8)
def width (f : Nat) : Nat :=
  if f = 1 then 32 else if f = 2 ∨ f = 3 then 16 else if f = 6 ∨ f = 7 then 6 else if f = 8 ∨ f = 11 then 4 else 8
/-- Mantissa width and bias of a float format (R74). -/
def mant (f : Nat) : Nat :=
  if f = 1 then 23 else if f = 2 then 7 else if f = 3 then 10 else if f = 4 then 3 else if f = 5 then 2
  else if f = 6 then 2 else if f = 7 then 3 else 1
def bias (f : Nat) : Nat :=
  if f = 1 then 127 else if f = 2 then 127 else if f = 3 then 15 else if f = 4 then 7 else if f = 5 then 15
  else if f = 6 then 3 else 1
/-- Infinities and all-ones NaNs as IEEE has them: FP32, BF16, FP16 and E5M2 (R74). -/
def ieee (f : Nat) : Bool := f == 1 || f == 2 || f == 3 || f == 5
def hasNaN (f : Nat) : Bool := ieee f || f == 4
/-- The format carries one E8M0 code per block (R81). -/
def scaled (f : Nat) : Bool := [4, 5, 6, 7, 8, 9, 11].contains f
/-- k of R98. -/
def kshift (f : Nat) : Nat :=
  if f = 4 then 8 else if f = 5 then 15 else if f = 6 then 4 else if f = 9 then 6 else 2

/-- Decode an element's bits (R74, R75, R76), exactly. -/
def elt (f v : Nat) : Elt :=
  if f = 9 then let x := sext 8 v; .fin (x < 0) x.natAbs 0 0
  else if f = 10 then .fin false (v % 256) 0 0
  else if f = 11 then let x := sext 4 v; .fin (x < 0) x.natAbs 0 0
  else
    let w := width f
    let mw := mant f
    let s := bit v (w - 1)
    let e := field v (w - 2) mw
    let m := v % 2 ^ mw
    let top := 2 ^ (w - 1 - mw) - 1
    if ieee f && e == top then (if m = 0 then .inf s else .nan)
    else if f = 4 ∧ e = 15 ∧ m = 7 then .nan
    else if e = 0 then .fin s m mw (1 - (bias f : Int))
    else .fin s (2 ^ mw + m) mw ((e : Int) - bias f)

/-- A subnormal of FP32 or BF16 reads as zero and counts as flushed (R77). -/
def readElt (f v : Nat) : NumM Elt :=
  match elt f v with
  | .fin s m w e =>
    if (f = 1 ∨ f = 2) ∧ m ≠ 0 ∧ m < 2 ^ w then do
      Num.flush 1
      pure (.fin s 0 w e)
    else pure (.fin s m w e)
  | x => pure x

/-- The value of an element times its block's E8M0 code (R78, R79); code 127 where the tile stores none. -/
def valueOf (x : Elt) (code : Nat) : Val :=
  if code = 255 then .nan
  else match x with
    | .nan => .nan
    | .inf s => .inf s
    | .fin s m f e => .fin s m (e - f + code - 127)

/-! ### Conversion (R95, R96, R98) -/

/-- How a conversion rounds: to nearest even, or with the 16-bit R of a draw. -/
abbrev Rnd := Option Nat

/-- Round m x 2^e to a multiple of 2^g. -/
def grid (m : Nat) (e g : Int) (r : Rnd) : Nat :=
  if g ≤ e then m * 2 ^ (e - g).toNat
  else
    let sh := (g - e).toNat
    let q := m / 2 ^ sh
    let rem := m % 2 ^ sh
    match r with
    | none =>
      let half := 2 ^ (sh - 1)
      if half < rem ∨ (rem = half ∧ q % 2 = 1) then q + 1 else q
    | some d => if 65536 ≤ rem * 65536 / 2 ^ sh + d then q + 1 else q

/-- The encoding of q x 2^g (q not 0, on the grid, within range) in float format f. -/
def encode (f q : Nat) (g : Int) : Nat :=
  let mw := mant f
  let emin : Int := 1 - (bias f : Int)
  let b := Num.bits q
  let e := g + b - 1
  if e < emin then q * 2 ^ (g - (emin - mw)).toNat
  else
    let m := if b ≤ mw + 1 then q * 2 ^ (mw + 1 - b) else q / 2 ^ (b - mw - 1)
    (e + bias f).toNat * 2 ^ mw + (m - 2 ^ mw)

/-- The encoding without sign of the largest finite value, of infinity and of NaN (R74, R76). -/
def maxCode (f : Nat) : Nat :=
  if ieee f then (2 ^ (width f - 1 - mant f) - 1) * 2 ^ mant f - 1
  else if f = 4 then 0x7E else 2 ^ (width f - 1) - 1
def infCode (f : Nat) : Nat := (2 ^ (width f - 1 - mant f) - 1) * 2 ^ mant f
def nanCode (f : Nat) : Nat :=
  if f = 1 then 0x7FC00000 else if f = 2 then 0x7FC0 else if f = 3 then 0x7E00 else if f = 4 then 0x7F else 0x7E

def intLo (f : Nat) : Int := if f = 9 then -128 else if f = 11 then -8 else 0
def intHi (f : Nat) : Int := if f = 9 then 127 else if f = 11 then 7 else 255
def intCode (f : Nat) (x : Int) : Nat := wrap (width f) x

/-- The encoding in format f of v x 2^(127 - code), rounded by r (R95, R96, R98). -/
def conv (f : Nat) (code : Nat) (r : Rnd) (v : Val) : NumM Nat := do
  let sgn := fun (n : Bool) => if n then 2 ^ (width f - 1) else 0
  match v with
  | .nan =>
    if hasNaN f then pure (nanCode f)
    else
      Num.sat 1
      pure 0
  | .inf n =>
    if ieee f then pure (infCode f + sgn n)
    else
      Num.sat 1
      if isFloat f then pure (maxCode f + sgn n) else pure (intCode f (if n then intLo f else intHi f))
  | .fin n m e0 =>
    let e : Int := e0 + 127 - code
    if isFloat f then
      if m = 0 then pure (sgn n)
      else
        let mw := mant f
        let emin : Int := 1 - (bias f : Int)
        let g := max (Num.bits m + e - 1) emin - mw
        let q := grid m e g r
        if q = 0 then
          Num.flush 1
          pure (sgn n)
        else
          let top : Int := Num.bits q + g
          let big := if ieee f then decide ((2 ^ (width f - 1 - mw) - 2 : Nat) - (bias f : Int) + 1 < top)
                     else
                       -- above the largest finite encoding
                       let x := encode f q g
                       decide (maxCode f < x)
          if big then
            Num.sat 1
            pure ((if ieee f then infCode f else maxCode f) + sgn n)
          else if (f = 1 ∨ f = 2) ∧ top < -125 then
            Num.flush 1
            pure (sgn n)
          else pure (encode f q g + sgn n)
    else
      let q := grid m e 0 r
      if q = 0 then
        if m = 0 then pure 0
        else
          Num.flush 1
          pure 0
      else
        let x : Int := if n then -(q : Int) else q
        if x < intLo f then
          Num.sat 1
          pure (intCode f (intLo f))
        else if intHi f < x then
          Num.sat 1
          pure (intCode f (intHi f))
        else pure (intCode f x)

/-- The E8M0 code of a block with these valid elements (R98). -/
def blockCode (f : Nat) (l : List Val) : Nat :=
  let top := l.foldl (fun (t : Option Int) v => match v with
    | .fin _ m e => if m = 0 then t else
        let b : Int := Num.bits m + e - 1
        some (match t with
          | some x => max x b
          | none => b)
    | _ => t) none
  match top with
  | none => 0
  | some t => (min (max (t - kshift f + 127) 0) 254).toNat

/-- Round an FP32 value to BF16 or FP16 and decode it back (spec/06_epilogues_and_row_statistics.md R139). -/
def through (f : Nat) (v : Val) : NumM Val := do
  let x ← conv f 127 none v
  pure (valueOf (elt f x) 127)

end Fmt

/-! ### Packed images (R82, R83) -/

namespace Tile

open Bits

/-- Bytes of one row of elements. -/
def rowBytes (f cols : Nat) : Nat := ceilDiv (cols * Fmt.width f) 8
/-- Number of scales of a block-scaled tile. -/
def scales (f rows cols : Nat) (colb : Bool) : Nat :=
  if Fmt.scaled f then (if colb then ceilDiv rows 32 * cols else rows * ceilDiv cols 32) else 0
/-- Bytes of the packed image; expand is EXPAND of an integer stationary operand (R81). -/
def image (f rows cols : Nat) (colb : Bool) (expand : Nat) : Nat :=
  rows * rowBytes f cols +
    (if expand = 2 then 3 * (ceilDiv rows 32 * cols) else if expand = 1 then 0 else scales f rows cols colb)
/-- The packed image moves as one unit, its scales after its elements (R84): block-scaled, or grouped with EXPAND 2. -/
def unit (f expand : Nat) : Bool := Fmt.scaled f && expand != 1
/-- Offset and length of each part of a packed image that the valid elements and their scales take (R82 to R84;
spec/05_loop_tables_and_fusion.md R114): the rows first, then the scales. -/
def parts (f rows cols : Nat) (colb : Bool) (ex vr vc : Nat) : List (Nat × Nat) :=
  if vr = 0 ∨ vc = 0 then [] else
  let rb := rowBytes f cols
  let base := rows * rb
  let body := (List.range vr).map fun r => (r * rb, ceilDiv (vc * Fmt.width f) 8)
  let g := ceilDiv rows 32 * cols
  body ++
    if ex = 2 then (List.range (ceilDiv vr 32)).flatMap fun b => [(base + 2 * (b * cols), 2 * vc), (base + 2 * g + b * cols, vc)]
    else if ex = 1 ∨ !Fmt.scaled f then []
    else if colb then (List.range (ceilDiv vr 32)).map fun b => (base + b * cols, vc)
    else (List.range vr).map fun r => (base + r * ceilDiv cols 32, ceilDiv vc 32)
/-- Bits of elements at or beyond vc in the last byte of a row part are 0 (R114). -/
def maskRow (f vc : Nat) (b : Bytes) : Bytes := toLe b.length (le b % 2 ^ (vc * Fmt.width f))
/-- Place of the scale of element (r, c) among the scales. -/
def scaleAt (cols : Nat) (colb : Bool) (r c : Nat) : Nat :=
  if colb then r / 32 * cols + c else r * ceilDiv cols 32 + c / 32

/-- The raw bits of element (r, c). -/
def raw (f cols : Nat) (d : Bytes) (r c : Nat) : Nat :=
  let w := Fmt.width f
  let o := r * rowBytes f cols
  let b := w * c / 8
  fld d (o + b) 4 / 2 ^ (w * c % 8) % 2 ^ w

/-- The tile has no valid element (spec/03_espalier_array.md R56). -/
def null (t : Tile) : Bool := t.vr == 0 || t.vc == 0
/-- The E8M0 code of element (r, c) of the tile read in orientation colb; 127 where none is stored. -/
def codeAs (t : Tile) (colb : Bool) (r c : Nat) : Nat :=
  if Fmt.scaled t.fmt then (t.data.getD (t.rows * rowBytes t.fmt t.cols + scaleAt t.cols colb r c) 0#8).toNat else 127
def codeAt (t : Tile) (r c : Nat) : Nat := t.codeAs t.colb r c
/-- The parts of the tile's packed image that its valid elements take: offset and bytes (R98: a conversion writes no
padding elements; R114). -/
def pieces (t : Tile) (ex : Nat) : List (Nat × Bytes) :=
  (parts t.fmt t.rows t.cols t.colb ex t.vr t.vc).zipIdx.map fun ((o, n), i) =>
    let b := slice t.data o n
    (o, if i < t.vr then maskRow t.fmt t.vc b else b)
def rawAt (t : Tile) (r c : Nat) : Nat := raw t.fmt t.cols t.data r c
/-- The value of element (r, c) without a count (R79). -/
def peek (t : Tile) (r c : Nat) : Val := Fmt.valueOf (Fmt.elt t.fmt (t.rawAt r c)) (t.codeAt r c)
/-- Decode element (r, c) (R80): what it reads as in an FP32 register, and its flush. A narrow element times its E8M0
scale may leave FP32's range: below 2^-126 it reads as a flushed zero, as R77 reads a subnormal, and at or above 2^128
the register holds the exact value; the spec states neither (DESIGN CHOICE, log 40). -/
def decode (t : Tile) (r c : Nat) : NumM Val := Num.flushIn (t.peek r c)
/-- Decode an element that may lie outside the valid counts: it then reads as NaN and counts nothing
(spec/05_loop_tables_and_fusion.md R500). -/
def decodeOr (t : Tile) (r c : Nat) : NumM Val := if r < t.vr ∧ c < t.vc then t.decode r c else pure .nan

/-- Pack a row of encodings. -/
def packRow (f cols : Nat) (row : List Nat) : Bytes :=
  toLe (rowBytes f cols) (row.foldr (fun v acc => v + 2 ^ Fmt.width f * acc) 0)

/-- The elements of a tile's valid part, row by row. -/
abbrev Grid := List (List Val)

/-- Convert the valid values of a tile (R95, R96, R98): `rnd r c` is the rounding of an element; blocks lie along rows,
or along columns when colb; `had` says what each element has been counted as before. What the image holds for invalid
elements is nowhere read or written (R98). -/
def build (f rows cols vr vc : Nat) (colb : Bool) (co : Coord) (g : Grid) (had : List (List Num.Had))
    (rnd : Nat → Nat → Fmt.Rnd) : NumM Tile := do
  let at_ := fun r c => (g.getD r []).getD c (Num.zero false)
  let ns := scales f rows cols colb
  let codes := (List.range ns).map fun i =>
    let members := (List.range vr).flatMap fun r =>
      ((List.range vc).filter fun c => scaleAt cols colb r c == i).map fun c => at_ r c
    Fmt.blockCode f members
  let enc ← (List.range vr).mapM fun r => (List.range vc).mapM fun c => do
    let x ← Num.once ((had.getD r []).getD c (false, false))
      (Fmt.conv f (if ns = 0 then 127 else codes.getD (scaleAt cols colb r c) 0) (rnd r c) (at_ r c))
    pure x.1
  let body := (List.range rows).flatMap fun r => packRow f cols (enc.getD r [])
  pure ⟨f, rows, cols, vr, vc, colb, body ++ codes.map (BitVec.ofNat 8), co⟩

/-- A tile with no valid element. -/
def nullTile (f rows cols vr vc : Nat) (co : Coord) : Tile := ⟨f, rows, cols, vr, vc, false, [], co⟩

/-- Statistics tile: COUNT, MEAN, M2 and four reserved bytes a row (spec/06_epilogues_and_row_statistics.md R144). -/
def buildStats (rows vr : Nat) (co : Coord) (l : List (Nat × Val × Val)) : Tile :=
  let row := fun (x : Nat × Val × Val) => toLe 4 x.1 ++ toLe 4 (Num.toBits x.2.1) ++ toLe 4 (Num.toBits x.2.2) ++ zeros 4
  ⟨Fmt.fp32, rows, 4, vr, 4, false, (List.range rows).flatMap fun r => match l[r]? with
    | some x => row x
    | none => zeros 16, co⟩
/-- COUNT of row r of a statistics tile; MEAN and M2 as FP32 inputs. -/
def statCount (t : Tile) (r : Nat) : Nat := fld t.data (16 * r) 4
def statMean (t : Tile) (r : Nat) : NumM Val := Num.flushIn (Num.ofBits (fld t.data (16 * r + 4) 4))
def statM2 (t : Tile) (r : Nat) : NumM Val := Num.flushIn (Num.ofBits (fld t.data (16 * r + 8) 4))

end Tile

/-! ### Random bits (R194 to R203) -/

namespace Rng

open Bits

def rotl (v n : Nat) : Nat := (v * 2 ^ n + v / 2 ^ (32 - n)) % 2 ^ 32
/-- One lane draw of xoshiro128++ (R194): word and next state. -/
def lane (st : BitVec 128) : Nat × BitVec 128 :=
  let s0 := field st.toNat 31 0
  let s1 := field st.toNat 63 32
  let s2 := field st.toNat 95 64
  let s3 := field st.toNat 127 96
  let out := (rotl ((s0 + s3) % 2 ^ 32) 7 + s0) % 2 ^ 32
  let t := s1 * 512 % 2 ^ 32
  let s2 := s2 ^^^ s0
  let s3 := s3 ^^^ s1
  let s1 := s1 ^^^ s2
  let s0 := s0 ^^^ s3
  let s2 := s2 ^^^ t
  let s3 := rotl s3 11
  (out, BitVec.ofNat 128 (s0 + 2 ^ 32 * s1 + 2 ^ 64 * s2 + 2 ^ 96 * s3))

def philoxRounds : Nat → Nat × Nat → Nat × Nat × Nat × Nat → Nat × Nat × Nat × Nat
  | 0, _, c => c
  | n + 1, (k0, k1), (c0, c1, c2, c3) =>
    let p0 := 0xD2511F53 * c0
    let p1 := 0xCD9E8D57 * c2
    philoxRounds n ((k0 + 0x9E3779B9) % 2 ^ 32, (k1 + 0xBB67AE85) % 2 ^ 32)
      (p1 / 2 ^ 32 ^^^ c1 ^^^ k0, p1 % 2 ^ 32, p0 / 2 ^ 32 ^^^ c3 ^^^ k1, p0 % 2 ^ 32)
/-- Philox4x32-10 with a 64-bit key and counter words c0 to c3 (R199): output words 0 to 3. -/
def philox (key c0 c1 c2 c3 : Nat) : Nat × Nat × Nat × Nat :=
  philoxRounds 10 (key % 2 ^ 32, key / 2 ^ 32 % 2 ^ 32) (c0, c1, c2, c3)
def word (w : Nat × Nat × Nat × Nat) (i : Nat) : Nat :=
  if i = 0 then w.1 else if i = 1 then w.2.1 else if i = 2 then w.2.2.1 else w.2.2.2
/-- The state of lane lam derived for generation g (R195). -/
def derive (seed lam g : Nat) : BitVec 128 :=
  let w := philox seed lam g 0x10000 0
  let v := w.1 + 2 ^ 32 * w.2.1 + 2 ^ 64 * w.2.2.1 + 2 ^ 96 * w.2.2.2
  BitVec.ofNat 128 (if v = 0 then 1 else v)
/-- The keyed draw of element index l (R201). -/
def keyed (seed stream epoch l : Nat) : Nat :=
  let q := l / 4
  word (philox seed (q % 2 ^ 32) (q / 2 ^ 32 % 2 ^ 32) stream epoch) (l % 4)
/-- The element index of row r and column c of a tile (R200). -/
def index (extents : List Nat) (co : Coord) (r c : Nat) : Nat :=
  let step := fun d => (co.x.getD d 0) + (if co.rdim = d then r else 0) + (if co.cdim = d then c else 0)
  ((List.range 8).foldl (fun (acc : Nat × Nat) d => (acc.1 + step d * acc.2, acc.2 * max (extents.getD d 0) 1)) (0, 1)).1

end Rng
end Machine
end Sys2Proof
end

