-- ==== Sys2Proof/Machine/JobState.lean ====
section
/-! DEFINITION. Jobs in execution, the scheduler, codec sessions, the prefix cache's role and the recovery area as plain
data. -/

namespace Sys2Proof
namespace Machine

/-- Where a job stands (spec/16_scheduling_and_budgets.md R372 to R380). -/
inductive JobPhase where
  /-- placed, and waiting for the jobs it displaces to adjourn -/
  | waiting
  | running
  | adjourning
  | adjourned
  /-- ending: its status is decided; what has issued completes, and JOB_COMPLETION follows -/
  | ending
  deriving DecidableEq, Repr

/-- A placement (R374): an espalier holds every cell. -/
structure Placement where
  esp  : Bool
  row0 : Nat
  col0 : Nat
  gr   : Nat
  gc   : Nat
  deriving DecidableEq, Repr

/-! ### A cell's part of a job -/

/-- A tile slot (spec/02_streams_and_stations.md R37): EMPTY 0, FILLING 1, READY 2. -/
structure Slot where
  st    : Nat
  tile  : Tile
  /-- consumer completions of this fill -/
  taken : Nat
  deriving DecidableEq, Repr

/-- Rows of column sums: none where no step has contributed to the row. -/
abbrev Sums := List (Option (List Val))

/-- A tile step that has issued and not completed. -/
structure Flight where
  d    : Nat
  /-- the step's number among the descriptor's steps of this iteration -/
  n    : Nat
  /-- what a LOAD has read: pieces of the source with their place in the tile image -/
  got  : Bytes
  /-- the seal word it read -/
  word : Nat
  /-- logical address, or plot-store offset, of a LOAD's or STORE's first byte -/
  addr : Nat
  /-- valid counts of the tile it accesses -/
  vr   : Nat
  vc   : Nat
  /-- next row of a SCAT; next row that an espalier MAT issues (spec/03_espalier_array.md R62) -/
  row  : Nat
  /-- rows that the step of an espalier MAT streams along the cell's chain -/
  rows : Nat
  /-- an espalier MAT has issued its last streamed row at the cell (R68) -/
  fed  : Bool
  /-- chain sums that have reached a tail, by row (R57) -/
  sums : Sparse (Option (List Val))
  /-- memory lines that a SCAT has written -/
  lines : List Nat
  /-- mesh requests timed out (spec/18_reliability_and_recovery.md R424) -/
  tries : Nat
  /-- counts and energy so far -/
  marks : Marks
  /-- a table write that runs again as its job resumes (spec/16_scheduling_and_budgets.md R380) -/
  again  : Bool
  deriving DecidableEq, Repr

/-- One streamed row of an espalier MAT with its column sums, none where no step has contributed: in a cell's chain queue
the cell's own sums (spec/03_espalier_array.md R53), on a sum link the chain's (R52). -/
structure RowSum where
  d    : Nat
  n    : Nat
  row  : Nat
  sums : Option (List Val)
  deriving DecidableEq, Repr

/-- A stationary block in a register (R65): the execution it serves, and its elements decoded and expanded. -/
structure Block where
  d    : Nat
  exec : Nat
  /-- rows and columns that are not gated -/
  vr   : Nat
  vc   : Nat
  elts : List (List Elt)
  /-- E8M0 code of each column's block -/
  code : List Nat
  /-- coordinates of its tile -/
  co   : Coord
  deriving DecidableEq, Repr

/-- The held tile of a PAIRED gate (spec/06_epilogues_and_row_statistics.md R141). -/
structure Held where
  vr   : Nat
  vc   : Nat
  rows : List (List Val)
  deriving DecidableEq, Repr

/-- A softmax row in progress (R150, R151). -/
structure Soft where
  /-- running maximum and sum of each row -/
  m    : List Val
  l    : List Val
  /-- per tile: step number, valid counts and stamps -/
  tiles : List (Nat × Nat × Nat × List Val)
  /-- next tile to complete once the row's last tile has arrived -/
  next : Nat
  full : Bool
  deriving DecidableEq, Repr

/-- An outstanding claim (spec/05_loop_tables_and_fusion.md R130). -/
structure Ask where
  tag   : Nat
  tries : Nat
  deriving DecidableEq, Repr

/-- The scoreboard, buffer and generators of one cell of a job. -/
structure CellRun where
  slots  : Sparse Slot
  /-- region bytes of the cell buffer that are not zero, by cell-buffer offset -/
  buf    : List (Nat × Byte)
  /-- error patterns of 64-byte units of the cell buffer (spec/13_stacked_memory.md R302) -/
  errs   : Sparse (List Nat)
  /-- steps issued and completed, by descriptor, in this iteration -/
  issued : Sparse Nat
  done   : Sparse Nat
  flights : List Flight
  lanes  : List (BitVec 128)
  /-- steps of this iteration that took lane draws, in draw order: descriptor, step, the states before
  (spec/09_randomness_and_sampling.md R207) -/
  drawLog : List (Nat × Nat × List (BitVec 128))
  /-- executions of each descriptor at this cell before the present numbering (R45: earlier iterations, and before
  resumption) -/
  prior  : Sparse Nat
  /-- expansion table entries, by 2 x table + bank -/
  banks  : Sparse (List Nat)
  /-- active bank of each table -/
  active : Sparse Nat
  /-- MAT executions whose reload has begun, by descriptor -/
  reloads : Sparse Nat
  shadow : Option Block
  reg    : Option Block
  /-- accumulators of MAT and RED, by 2^20 x descriptor + step of the execution -/
  acc    : Sparse Sums
  /-- chain queue: rows issued whose sums wait for the predecessor's (R53), oldest first -/
  queue  : List RowSum
  /-- rows on the sum link to the next cell (R52), oldest first -/
  link   : List RowSum
  /-- carry buffer of a chain's head, by descriptor and row (R59). Two accumulating MATs of a program may interleave; the
  spec gives one 4 KiB buffer a head and does not say what then happens: each descriptor has a carry of its own (DESIGN
  CHOICE, log 47) -/
  carry  : Sparse (Sparse (Option (List Val)))
  held   : Sparse Held
  soft   : Sparse Soft
  /-- completed softmax rows, by descriptor -/
  rows   : Sparse Nat
  /-- table writes that still run again before any tile step: descriptor, iteration, step
  (spec/16_scheduling_and_budgets.md R380) -/
  redo   : List (Nat × Nat × Nat)
  /-- claims made, values accepted, and whether the claimed level has ended for the cell -/
  tag    : Nat
  vals   : List Nat
  ended  : Bool
  ask    : Option Ask
  /-- tags of resent requests on their way to the atomic unit, oldest first; a request stays under way when an answer has
  already come (R130, R131) -/
  sent   : List Nat
  /-- answers under way: tag and value -/
  answers : List (Nat × Nat)
  /-- it issues no further step -/
  halt   : Bool
  /-- a first-overflow report on its way to the hub: status, descriptor, offset (R123) -/
  report : Option (Nat × Nat × Nat)
  deriving DecidableEq, Repr

/-! ### Hub executions -/

/-- Luma and chroma samples of a 4:2:0 picture, by line, as NV12 or P010 hold them without the bytes between width and
pitch (spec/11_video_encode.md R241). -/
structure Planes where
  w : Nat
  h : Nat
  /-- bytes of a sample -/
  n : Nat
  luma : Bytes
  chroma : Bytes
  deriving DecidableEq, Repr, Inhabited

/-- A reference picture of an encode session (R244, R249): its reconstruction, and of each 16 x 16 block in raster order
the reference and vector it was inter-coded with. -/
structure EncRef where
  pic    : Planes
  motion : List (Option (Nat × Int × Int))
  deriving DecidableEq, Repr, Inhabited

/-- What an encode session keeps between pictures (R244, R253 to R255): picture number, carried deviation, per picture
type (0 key, 1 inter) the base QP, budget, bits and row bits of the last picture, and the references, the most recent
first. -/
structure EncArea where
  closed : Bool
  picnum : Nat
  carry  : Int
  last   : Sparse (Int × Nat × Nat × List Nat)
  refs   : List EncRef
  deriving DecidableEq, Repr, Inhabited

/-- A picture a decode session has decoded: decode-order number, layer, CONCEALED, its buffer, size and bytes of a sample;
TS of the access unit that carried it; its place in the output order, whether its record is still to be released, and
that record, GEN to come (spec/12_decode_and_ingest.md R276, R279 to R281). -/
structure DecPic where
  num  : Nat
  layer : Nat
  concealed : Bool
  buf  : Nat
  width : Nat
  height : Nat
  n    : Nat
  ts   : Nat
  order : Int
  held : Bool
  recd : Bytes
  deriving DecidableEq, Repr, Inhabited

/-- What a decode session keeps between access units (R271, R274 to R281). -/
structure DecArea where
  closed : Bool
  /-- pictures decoded -/
  count  : Nat
  pics   : List DecPic
  /-- decode-order numbers of the pictures held as references -/
  refs   : List Nat
  /-- parameter sets and contexts of earlier access units, as the microcode keeps them -/
  ctx    : Bytes
  deriving DecidableEq, Repr, Inhabited

/-- The header of a picture as a decoder reads it (R268, R274, R276 to R281). -/
structure PicHead where
  /-- the access unit holds no further picture -/
  absent : Bool
  /-- profile code, constrained_set1_flag of AVC, level code, high tier, chroma_format_idc, bit depth -/
  profile : Nat
  constrained : Bool
  level   : Nat
  high    : Bool
  chroma  : Nat
  depth   : Nat
  /-- frame_mbs_only_flag 1, or a codec without fields -/
  frames  : Bool
  /-- decoded pictures the sequence needs held -/
  dpb     : Nat
  width   : Nat
  height  : Nat
  /-- spatial_id -/
  layer   : Nat
  grain   : Bool
  /-- every block intra coded -/
  intra   : Bool
  /-- never output -/
  hidden  : Bool
  /-- place in the output order, and pictures released once this one is decoded -/
  order   : Int
  bump    : Nat
  /-- decode-order numbers of the pictures it names, reference list 0 first, and the offset of the header that does -/
  names   : List Nat
  nameAt  : Nat
  /-- pictures held as references once it is decoded, itself included -/
  keeps   : List Nat
  /-- a header error before the first slice or tile data: its offset -/
  error   : Option Nat
  /-- where the first slice or tile data begins, and where the picture's bytes end -/
  data    : Nat
  stop    : Nat
  deriving DecidableEq, Repr, Inhabited

/-- A slice, tile group or frame as a decoder reads it (R277, R279): the 16 x 16 blocks decoded, each with its vector in
quarter samples where it is inter-coded; a syntax error's offset and block; where its bytes end. -/
structure SliceOut where
  blocks : List (Nat × Option (Int × Int))
  error  : Option (Nat × Nat)
  stop   : Nat
  deriving DecidableEq, Repr, Inhabited

/-- A session bound to an engine (R237, R269). -/
structure Session where
  addr   : Nat
  fn     : Nat
  engine : Nat
  units  : Nat
  /-- an execution of it is granted and incomplete -/
  busy   : Bool
  /-- the job that bound it, as id, and the queue for INGEST (else 0) -/
  job    : Nat
  queue  : Nat
  deriving DecidableEq, Repr

/-- A picture being coded. -/
structure EncWork where
  /-- session address, and its record -/
  addr   : Nat
  sess   : Bytes
  /-- picture record and its address -/
  paddr  : Nat
  pic    : Bytes
  area   : EncArea
  key    : Bool
  budget : Nat
  q0     : Int
  /-- offset of each 16 x 16 block in raster order (R257) -/
  offs   : List Int
  /-- vector field entry of each block, in raster order; empty for none (R252) -/
  field  : List (Option (Int × Int))
  /-- samples read so far -/
  luma   : Bytes
  chroma : Bytes
  /-- reference and vector of each block coded so far; none for intra -/
  motion : List (Option (Nat × Int × Int))
  /-- per coded row: rate-control QP and bits -/
  rows   : List (Int × Nat)
  /-- block QPs of the row coded last -/
  qps    : List Int
  spent  : Option Nat
  /-- bits coded and not yet emitted, and rows they cover -/
  hold   : List Bool
  heldRows : Nat
  slice  : Nat
  deriving DecidableEq, Repr

/-- A picture record that is still to be written: session record, its state area's memory address, record; for an
audio item the record is its queue entry. -/
structure PicOut where
  sess : Bytes
  area : Nat
  recd : Bytes
  deriving DecidableEq, Repr

/-- An access unit being decoded, by DEC or for a queue entry. -/
structure DecWork where
  /-- session address and record; empty for an audio entry -/
  addr   : Nat
  sess   : Bytes
  area   : DecArea
  key    : Nat
  /-- access unit record, or queue entry; the access unit's bytes, the byte where parsing goes on, and whether it holds
  no further picture -/
  unit   : Bytes
  data   : Bytes
  pos    : Nat
  last   : Bool
  /-- INGEST: picture records to deliver -/
  out    : List PicOut
  /-- INGEST: the entry has started, and its decoding is over -/
  started : Bool
  fin    : Bool
  deriving DecidableEq, Repr

/-- A PREFIX request in progress (spec/08_attention_and_paged_cache.md R186, R191). -/
structure PfxWork where
  req    : Bytes
  /-- address of the request, and NODE_IN with 0xFFFFFFFE resolved -/
  addr   : Nat
  nodeIn : Nat
  /-- 0 not begun, 1 a PREFIX transaction is under way, 2 pages move -/
  stage  : Nat
  /-- local page popped by a FETCH or sent, and the entry as it was -/
  page   : Nat
  old    : Nat
  /-- address of the page-table entry of a request with another module -/
  entry  : Nat
  /-- page and node that the endpoint named -/
  rpage  : Nat
  rnode  : Nat
  /-- bytes of the page moved so far -/
  moved  : Nat
  /-- answer of the transaction it waited for: REASON (0xFF timed out), RESULT, ARG -/
  ans    : Option (Nat × Nat × Bytes)
  /-- RESULT and NODE_OUT once they are decided -/
  fin    : Option (Nat × Option Nat)
  deriving DecidableEq, Repr

inductive HubWork where
  /-- nothing further: SAMPLE and FORMAT have written, or the execution is empty (R120) -/
  | plain
  | enc (w : EncWork)
  | dec (w : DecWork)
  | pfx (w : PfxWork)
  deriving DecidableEq, Repr

/-- A granted hub execution that has not completed. -/
structure HubExec where
  d    : Nat
  n    : Nat
  work : HubWork
  deriving DecidableEq, Repr

/-- An item of a live group (R286): source, time, execution, its picture record or audio entry. -/
structure Item where
  src  : Nat
  ts   : Nat
  entry : Nat
  audio : Bool
  pic  : PicOut
  deriving DecidableEq, Repr

/-- One INGEST descriptor of a job: Q0, the live group's record (empty for none), its next tick and waiting items, and
each video source's latest record. -/
structure IngRun where
  q0    : Nat
  group : Bytes
  tick  : Nat
  items : List Item
  prev  : Sparse PicOut
  deriving DecidableEq, Repr

/-! ### Jobs -/

/-- Counts of one step (spec/04_number_formats.md R99 to R101): where it stands, the descriptor charged, and the
TM_NUM_CTL.CLEAR era in which the module counts took it; none while they were held. -/
structure Tally where
  epoch : Nat
  /-- cell g, or none for a hub execution -/
  cell  : Option Nat
  step  : Nat
  n     : Nat
  d     : Nat
  sat   : Nat
  flush : Nat
  census : List Nat
  era   : Option Nat
  deriving DecidableEq, Repr

/-- A fault met by a step (spec/18_reliability_and_recovery.md R422). -/
structure FaultKey where
  status : Nat
  /-- cell g, or none for a hub execution -/
  cell  : Option Nat
  d     : Nat
  n     : Nat
  epoch : Nat
  deriving DecidableEq, Repr

/-- An admitted job. -/
structure Job where
  id      : Nat
  ring    : Nat
  pos     : Nat
  fn      : Nat
  /-- 0 blitz, 1 urgent, 2 normal, 3 bulk -/
  cls     : Nat
  desc    : Bytes
  /-- the validated copies (spec/02_streams_and_stations.md R23) -/
  prog    : List Bytes
  table   : Bytes
  /-- VEC sequences by descriptor -/
  seqs    : Sparse Bytes
  loop    : Option Bytes
  coefs   : Bytes
  cacheD  : Bytes
  phase   : JobPhase
  place   : Option Placement
  /-- rows of the latest placement (spec/16_scheduling_and_budgets.md R397) -/
  gr      : Nat
  status  : Nat
  index   : Nat
  cell    : Nat
  /-- the class of the fault that ends it; 0 none (R420) -/
  fcls    : Nat
  adjourns : Nat
  relanes : Bool
  deadline : Option Nat
  expired : Bool
  /-- order in which it adjourned -/
  adjSeq  : Nat
  /-- a replay waits (R421) -/
  replay  : Bool
  /-- faults that have caused a replay, and replays in all -/
  faults  : List FaultKey
  replays : Nat
  epoch   : Nat
  laneStep : Nat
  /-- plot-store window of each plot -/
  wins    : Sparse Nat
  cells   : Sparse CellRun
  /-- values to be handed out again (spec/16_scheduling_and_budgets.md R379), and values whose steps are complete -/
  reclaim : List Nat
  finished : List Nat
  /-- hub executions granted and completed, by descriptor, over all iterations -/
  hgrant  : Sparse Nat
  hdone   : Sparse Nat
  hexec   : List HubExec
  ingest  : Sparse IngRun
  tally   : List Tally
  deriving DecidableEq, Repr

/-- A budget class (R392 to R395). -/
structure Budget where
  limTxn : Nat
  limNj  : Nat
  newTxn : Nat
  newNj  : Nat
  usedTxn : Nat
  usedNj  : Nat
  curTxn : Nat
  /-- energy of the present period, in units of 0.01 pJ -/
  curE   : Nat
  defTxn : Nat
  defE   : Nat
  stalled : Bool
  stalls : Nat
  deriving DecidableEq, Repr

/-- The hub job scheduler. -/
structure Sched where
  /-- in order of admission -/
  jobs    : List Job
  nextId  : Nat
  nextAdj : Nat
  /-- ring last admitted from, by class -/
  rr      : Sparse Nat
  subs    : Sparse Nat
  dones   : Sparse Nat
  fails   : Sparse Nat
  budgets : Sparse Budget
  /-- plot-store bytes that are not zero, keyed 2^26 x plot + offset (spec/01_architecture.md R14) -/
  plot    : List (Nat × Byte)
  /-- error patterns of 64-byte plot-store units, keyed 2^20 x plot + unit (spec/13_stacked_memory.md R302) -/
  plotErrs : Sparse (List Nat)
  /-- hub executions in the order in which they became ready: job, descriptor, executions ready so far
  (spec/02_streams_and_stations.md R501) -/
  ready   : List (Nat × Nat × Nat)
  /-- replayed uncorrectable errors in a cell's own buffer: logical cell and time (spec/18_reliability_and_recovery.md
  R423) -/
  cellErrs : List (Nat × Nat)
  /-- the latest blitz job of each ring that left its cells: its placement and time (spec/16_scheduling_and_budgets.md R390) -/
  blitzDone : Sparse (Placement × Nat)
  deriving DecidableEq, Repr

/-- Codec sessions, and what each state area that this module has written holds, with the engine of its binding, the
latest first (R244, R273). -/
structure Codec where
  enc : List Session
  dec : List Session
  encAreas : List (Nat × EncArea)
  decAreas : List (Nat × DecArea)
  deriving DecidableEq, Repr

/-- The phase role and the cache descriptor it serves (spec/08_attention_and_paged_cache.md R190). -/
structure Cache where
  role : Nat
  desc : Bytes
  addr : Nat
  /-- the HASH that each REMOTE entry's lookup answered, by the function and logical address of the entry (R191; log 30) -/
  hits : List ((Nat × Nat) × Nat)
  deriving DecidableEq, Repr

/-- What the recovery area keeps across a warm start (spec/18_reliability_and_recovery.md R429). Its layout in memory
is not stated; the model holds it beside memory. -/
structure RecArea where
  rings : Sparse Ring
  ctx   : Sparse (List XlatEntry)
  cache : Cache
  polP  : Nat
  polT  : Nat
  polF  : Nat
  budgets : Sparse Budget
  jobs  : List Job
  fab   : Fabric
  deriving DecidableEq, Repr

end Machine
end Sys2Proof
end

