-- ==== Sys2Proof/Machine/State.lean ====
section
/-! DEFINITION. The state of the K48 as plain data, the state after reset, and the two ways a step can stop. -/

namespace Sys2Proof
namespace Machine

/-- Why a step stops with a fault. -/
inductive Fault where
  /-- MEM_ACCESS outside memory: spec/21_management_identity_debug.md R487 gives the instruction memory addresses, and
  R296 says that none lies at or above MEM_TOP. Raised by execMemAccess; safe, the model stops where the spec says
  nothing. -/
  | memAccessBeyondTop (a : Nat)
  deriving DecidableEq, Repr

/-- Why a step is refused. -/
inductive Refusal where
  /-- The command has no meaning in the model. Raised by exec's own arms only; safe. -/
  | notModelled (mnemonic : String)
  deriving DecidableEq, Repr

structure State where
  /-- commands that wait, first in first out -/
  pending : List Instr
  /-- the model's clock, ns (log 1) -/
  now   : Nat
  /-- index of the next free value (log 5) -/
  free  : Nat
  fuses : Fuses
  flash : Flash
  pwr   : Power
  bu    : BringUp
  ident : Ident
  host  : HostIf
  mem   : Mem
  fab   : Fabric
  ptp   : Ptp
  sched : Sched
  codec : Codec
  cache : Cache
  tm    : Tm
  log   : EvLog
  mgmt  : Mgmt
  /-- contents of the recovery area besides the event log (R429) -/
  recov : Option RecArea
  deriving DecidableEq, Repr

namespace State

/-- The blocks right after reset: the module unpowered, fuses and flash as the log's rows name them. -/
def resetFuses : Fuses :=
  ⟨1, 0, [], [0#384, 0#384, 0#384, 0#384], 0#384, 0, 0⟩
def resetFlash : Flash :=
  ⟨⟨0, []⟩, ⟨0, []⟩, ⟨0, false, []⟩, ⟨0, false, []⟩, [], [], 0, 0, 0, List.replicate 256 0#8⟩
def resetPower (v : Nat) : Power :=
  { phase := .off, p48v := 0, latest := ⟨0, 0, 0, [], 0⟩, latch := none, winSum := 0, winCount := 0, pAvg := 0,
    overWins := 0, polP := Config.pwrLimit v, polT := 100, polF := Config.clkMax v, pOp := Config.pwrLimit v,
    tTh := 100, fCap := Config.clkMax v, fTgt := Config.clkMax v, fc := [], cellTemp := [], hubTemp := 0,
    brakePin := false, brakeOver := false, brake := false, brakeEnd := 0, outBand := false, inSince := none,
    yieldPow := false, yieldHub := false, hot := [], trip := none, thermTrip := false, hold := false,
    deferred := false, waiting := [], eye := [] }
def resetBringUp : BringUp :=
  { auto := false, step := 0, phase := 0, code := 0, skipped := 0, override := false, overVers := none,
    reject := false, warm := false, fieldMask := [], maskDirty := false, trained := [], encOut := 0, decOut := 0, fwBase := 0, images := [], slot := 0,
    fallback := false, outMap := [], cellFw := [], kat := [], waves := 0, wavesOn := false, lastWave := 0, castling := [],
    withdrawn := [], recovering := false, downFrom := none, recent := [], warmEn := true, mpRunning := false,
    stopped := false, lostArg := none, restart := none }
def resetIdent (nonce : BitVec 256) : Ident :=
  { fails := 0, result := 0, level := 0, unlocks := 0, nonce := nonce, carrier := false, pcieMax := 0, carSlot := 0,
    txp := 0, cables := [], vcblOff := [], obsSel := [], ir := 1, bsCap := 0#23, bsUpd := 0#23, pinMode := 0,
    tdo := none }
def resetHost : HostIf :=
  { linkUp := false, linkGen := 0, linkWidth := 0, perstLow := true, d3 := [], bar2 := [], numVfs := 0, pcie := [],
    unmasked := [], msixTab := [], msixPend := [], msixSent := [], staged := [], captured := [], lastRead := none, mbox := [],
    held := [], rings := [], resetting := [], ctx := [] }
def resetMem : Mem :=
  { bytes := [], errs := [], wc := [], fixes := [], owed := [], eccMode := false, sealEn := false, sealBase := 0, temp := [],
    rate := [], throttle := [], selfRef := [], corr := [], uncorr := [], passes := 0, slot := 0, codeword := 0 }
def resetFabric : Fabric :=
  { idValid := false, group := 0, member := 0, ptpCtl := 0x80800100, grp := [], mbr := [], region := [], opq := [],
    cfg := [], port := [], txns := [], cooling := [], served := [], sent := [] }
def resetPtp : Ptp :=
  { offset := 0, rate := 0, since := 0, state := 0, measured := 0, pendSet := none, lastPps := none, masters := [], slave := none,
    lastSync := 0, sync := none, delay := [], pdReq := [], pdResp := [], seq := 0, sent := [] }
def resetSched : Sched :=
  { jobs := [], nextId := 0, nextAdj := 0, rr := [], subs := [], dones := [], fails := [], budgets := [], plot := [],
    plotErrs := [], ready := [], cellErrs := [], blitzDone := [] }

/-- s with its pending replaced. -/
def setPending (s : State) (v : List Instr) : State := { s with pending := v }
/-- s with its now replaced. -/
def setNow (s : State) (v : Nat) : State := { s with now := v }
/-- s with its free replaced. -/
def setFree (s : State) (v : Nat) : State := { s with free := v }
/-- s with its fuses replaced. -/
def setFuses (s : State) (v : Fuses) : State := { s with fuses := v }
/-- s with its flash replaced. -/
def setFlash (s : State) (v : Flash) : State := { s with flash := v }
/-- s with its pwr replaced. -/
def setPwr (s : State) (v : Power) : State := { s with pwr := v }
/-- s with its bu replaced. -/
def setBu (s : State) (v : BringUp) : State := { s with bu := v }
/-- s with its ident replaced. -/
def setIdent (s : State) (v : Ident) : State := { s with ident := v }
/-- s with its host replaced. -/
def setHost (s : State) (v : HostIf) : State := { s with host := v }
/-- s with its mem replaced. -/
def setMem (s : State) (v : Mem) : State := { s with mem := v }
/-- s with its fab replaced. -/
def setFab (s : State) (v : Fabric) : State := { s with fab := v }
/-- s with its ptp replaced. -/
def setPtp (s : State) (v : Ptp) : State := { s with ptp := v }
/-- s with its sched replaced. -/
def setSched (s : State) (v : Sched) : State := { s with sched := v }
/-- s with its codec replaced. -/
def setCodec (s : State) (v : Codec) : State := { s with codec := v }
/-- s with its cache replaced. -/
def setCache (s : State) (v : Cache) : State := { s with cache := v }
/-- s with its tm replaced. -/
def setTm (s : State) (v : Tm) : State := { s with tm := v }
/-- s with its log replaced. -/
def setLog (s : State) (v : EvLog) : State := { s with log := v }
/-- s with its mgmt replaced. -/
def setMgmt (s : State) (v : Mgmt) : State := { s with mgmt := v }
/-- s with its recov replaced. -/
def setRecov (s : State) (v : Option RecArea) : State := { s with recov := v }

/-- The machine right after reset: P48V not yet risen, the hot-swap controller off (R401 step 0, OFF). -/
def reset : State :=
  { pending := [], now := 0, free := 1, fuses := resetFuses, flash := resetFlash,
    pwr := resetPower resetFuses.variant, bu := resetBringUp, ident := resetIdent (Config.freeValue 0),
    host := resetHost, mem := resetMem, fab := resetFabric, ptp := resetPtp, sched := resetSched, codec := ⟨[], [], [], []⟩,
    cache := ⟨0, [], 0, []⟩, tm := ⟨false, 0, 0, 0, 0, 0⟩, log := ⟨[], 0, 0, 0, []⟩,
    mgmt := { eid := [], queue := [], overflow := 0, given := false, sensors := [], states := [], update := none, spdm := [],
              script := [], reply := none },
    recov := none }

end State
end Machine
end Sys2Proof
end

