-- ==== Sys2Proof/Machine/Ops.lean ====
section
/-! DEFINITION. The operations every family shares: time, the event log, interrupts, budgets, translation and access to
memory. -/

namespace Sys2Proof
namespace Machine
namespace Ops

open Bits

/-- Set the model's clock to t; it never goes back (log 1). -/
def tick (s : State) (t : Nat) : State := s.setNow (max s.now t)

/-- What the frequency correction has added to PTP time (spec/14_twisil_fabric.md R340). -/
def ptpDrift (s : State) : Int := s.ptp.rate * ((s.now : Int) - s.ptp.since) / 1000000000
/-- PTP time in ns (spec/14_twisil_fabric.md R340). -/
def ptpTime (s : State) : Nat := wrap 64 ((s.now : Int) + s.ptp.offset + ptpDrift s)

/-- MSI-X vector v of function f: sent, or pending while masked (spec/15_host_and_mailboxes.md R352); 0xFF none. -/
def sendVec (h : HostIf) (f v : Nat) : HostIf :=
  if v = 0xFF then h
  else if h.unmasked.contains (f, v) then { h with msixSent := (f, v) :: h.msixSent }
  else if h.msixPend.contains (f, v) then h else { h with msixPend := (f, v) :: h.msixPend }

/-- Put a platform event into the PLDM queue of 32; when full the oldest is discarded and counted
(spec/21_management_identity_debug.md R475). -/
def pushPldm (m : Mgmt) (e : PldmEvent) : Mgmt :=
  if m.queue.length < 32 then { m with queue := m.queue ++ [e] }
  else { m with queue := m.queue.drop 1 ++ [e], overflow := m.overflow + 1, given := false }

/-! ### Budgets (spec/16_scheduling_and_budgets.md R392 to R394) -/

def noLimit : Nat := 0xFFFFFFFF
/-- Transactions of one period that half of a stack's payload bandwidth carries: what a throttled stack leaves to all
classes but refresh together (spec/13_stacked_memory.md R312, R313). -/
def throttledTxn : Nat := 2048000000 * 8 / 9 / 2 / 64 / 1000
/-- A budget class at its reset values (R392); 16 + k stands for the traffic of stack k while it is throttled (R313). -/
def budget0 (c : Nat) : Budget :=
  let t := if c = 0 ∨ c = 1 ∨ c = 5 then 0 else if c = 6 then 64 else if c < 16 then noLimit else throttledTxn
  let e := if c = 0 ∨ c = 1 then 0 else noLimit
  ⟨t, e, t, e, 0, 0, 0, 0, 0, 0, false, 0⟩
def budgetAt (c : Sched) (k : Nat) : Budget := Sparse.getD c.budgets k (budget0 k)
/-- Charge class k with transactions and with energy in units of 0.01 pJ (R393, R468). -/
def charge (c : Sched) (k txn e : Nat) : Sched :=
  let b := budgetAt c k
  { c with budgets := Sparse.put c.budgets k { b with curTxn := b.curTxn + txn, curE := b.curE + 150000 * txn + e } }
/-- n bytes of memory from address a count for their stacks where those are throttled (R313). -/
def chargeStacks (c : Sched) (m : Mem) (a n : Nat) : Sched :=
  if m.throttle.isEmpty then c
  else (List.range (Memory.linesOf a n)).foldl (fun c i =>
    let k := Memory.stackOf (64 * (a / 64 + i))
    if m.throttle.contains k then charge c (16 + k) 1 0 else c) c
/-- A budget has transactions left in this period. -/
def under (c : Sched) (k : Nat) : Bool :=
  let b := budgetAt c k
  b.limTxn == noLimit || decide (b.curTxn + b.defTxn < b.limTxn)
/-- Class k has transactions left in this period (R393), and so has every throttled stack (R313; which stack an access
goes to is not asked before it is made: log 52). Classes 5, 6 and 10 never stall. -/
def txnLeft (c : Sched) (k : Nat) : Bool :=
  k == 5 || k == 6 || k == 10 || (under c k && (List.range 8).all fun i => under c (16 + i))
/-- Class k may make transactions now: it has some left, and the hub die is not so hot that the codec class stalls
(spec/20_power_thermal_measurement.md R465). -/
def classOpen (s : State) (k : Nat) : Bool := txnLeft s.sched k && !(k == 7 && s.pwr.yieldHub)
/-- Class k has energy left in this period (R393). -/
def energyLeft (c : Sched) (k : Nat) : Bool :=
  let b := budgetAt c k
  k == 5 || k == 6 || k == 10 || b.limNj == noLimit || b.curE + b.defE < b.limNj * 100000
/-- Mark that class k was held back in this period. -/
def markStall (c : Sched) (k : Nat) : Sched :=
  { c with budgets := Sparse.put c.budgets k { budgetAt c k with stalled := true } }

/-! ### The event log -/

/-- A record that is to be logged (spec/18_reliability_and_recovery.md R432). -/
structure Report where
  status : Nat
  source : Nat
  fn     : Nat := 0xFF
  cls    : Nat := 0
  arg0   : Nat := 0
  arg1   : Nat := 0
  /-- it removes a cell or an engine from service (R431) -/
  removes : Bool := false
  /-- it is the record of a stop (R404) -/
  stop   : Bool := false
  relanes : Bool := false

/-- Whether a report is a notification (R431). -/
def Report.notifies (r : Report) : Bool :=
  r.cls == 3 || r.cls == 4 || r.removes || r.status == 0x0502 || r.status == 0x0401

/-- Count a fault of class 2, 3 or 4 (R435). -/
def countFault (s : State) (cls : Nat) : State :=
  if cls = 2 then s.setTm { s.tm with replayed := satInc top64 s.tm.replayed 1 }
  else if cls = 3 then s.setTm { s.tm with jobLost := satInc top64 s.tm.jobLost 1 }
  else if cls = 4 then s.setFlash { s.flash with lost := satInc top64 s.flash.lost 1 }
  else s

/-- The event record of a report. -/
def eventOf (s : State) (r : Report) : Event :=
  { pos := s.log.next, time := ptpTime s, status := r.status, source := r.source,
    flags := ofBool s.bu.override + 2 * ofBool r.relanes + 4 * ofBool r.notifies,
    fn := r.fn, cls := r.cls, arg0 := r.arg0 % 2 ^ 64, arg1 := r.arg1 % 2 ^ 64 }

/-- The log with one record more: the latest 65,536 are held (R434). -/
def appendLog (l : EvLog) (e : Event) (notify toFlash : Bool) : EvLog :=
  { l with recs := (l.recs ++ [e]).drop (l.recs.length + 1 - Config.memLogRecords), next := l.next + 1,
           notify := if notify then e.pos else l.notify,
           toFlash := if toFlash then l.toFlash ++ [e] else l.toFlash }

/-- Whether the PLDM queue takes a record: notifications, 0x0801 and 0x0802 (R475). -/
def pldmTakes (r : Report) : Bool := r.notifies || r.status == 0x0801 || r.status == 0x0802

/-- Log a record without its vector (a module-lost record is notified at step 5 of R428). The record is 64 bytes of
class 10's traffic (R392). -/
def logQuiet (s : State) (r : Report) : State :=
  let e := eventOf s r
  let s := s.setSched (charge s.sched 10 1 0)
  let s := s.setLog (appendLog s.log e r.notifies (r.notifies || r.stop))
  let s := if pldmTakes r then s.setMgmt (pushPldm s.mgmt (.log e)) else s
  countFault s r.cls

/-- Log a record; a notification sends vector 1 of the PF, and for class 3 vector 1 of the job's function (R431). -/
def logEvent (s : State) (r : Report) : State :=
  let s := logQuiet s r
  if r.notifies then
    let h := sendVec s.host 0 1
    s.setHost (if r.cls = 3 ∧ r.fn ≠ 0xFF ∧ r.fn ≠ 0 then sendVec h r.fn 1 else h)
  else s

/-- The next free value (log 5). -/
def fresh (s : State) : BitVec 256 × State := (Config.freeValue s.free, s.setFree (s.free + 1))

/-! ### Rings and budget classes -/

/-- A ring at its reset values (spec/15_host_and_mailboxes.md R362). -/
def ring0 : Ring := ⟨0, 0, 0xFF, 0, 0, 0, 0, 0, 0, 0, []⟩
def ringAt (h : HostIf) (r : Nat) : Ring := Sparse.getD h.rings r ring0
def putRing (h : HostIf) (r : Nat) (x : Ring) : HostIf := { h with rings := Sparse.put h.rings r x }
/-- The blitz rings, lowest index first: blitz A and blitz B (spec/16_scheduling_and_budgets.md R385). -/
def blitzRings (h : HostIf) : List Nat :=
  (List.range Config.rings).filter fun r => let x := ringAt h r; x.state != 0 && x.cls == 0
/-- A blitz ring is ENABLED (R463, R389). -/
def blitzEnabled (h : HostIf) : Bool := (blitzRings h).any fun r => (ringAt h r).state == 3
/-- Fields of a reservation (R385). -/
def resvTxn (v : Nat) : Nat := field v 19 0
def resvEnergy (v : Nat) : Nat := field v 43 32
def resvPeriods (v : Nat) : Nat := field v 63 48
/-- Budget class of a job of ring r (R392). -/
def budgetClass (h : HostIf) (r cls : Nat) : Nat :=
  if cls = 0 then (if (blitzRings h).head? = some r then 0 else 1) else cls + 1

/-- The share of a stack's channel time that refresh takes at a row of R312, in 1/1000. -/
def refreshShare (row : Nat) : Nat := if row = 0 then 25 else if row = 1 then 50 else 100
/-- Transactions that the refresh of all stacks takes in one period: payload bandwidth of a stack times the share
(R392 class 5; rounded down, log 12). -/
def refreshTxn (m : Mem) : Nat :=
  ((List.range 8).map fun k => refreshShare (Sparse.getD m.rate k 0)).sum * 2048000000 * 8 / 9 / 64 / 1000 / 1000
/-! ### Translation (spec/19_security.md R443, R444) -/

/-- The memory address of a logical address of function f, for a write or a read; none where it is refused. -/
def xlat (h : HostIf) (f a : Nat) (w : Bool) : Option Nat :=
  if 2 ^ 40 ≤ a then none else
  match Sparse.get? h.ctx f with
  | some es =>
    match es.find? fun e => e.lpage ≤ a / 4096 && a / 4096 < e.lpage + e.pages with
    | some e => if (if w then e.w else e.r) then some ((e.mpage + (a / 4096 - e.lpage)) * 4096 + a % 4096) else none
    | none => none
  | none => if f = 0 ∧ a < Config.recoveryBase then some a else none

/-- The pieces of n bytes from a that lie in one 4 KiB page each: address, length. -/
def pagePieces (a n : Nat) : List (Nat × Nat) :=
  if n = 0 then [] else
  (List.range ((a + n - 1) / 4096 - a / 4096 + 1)).map fun i =>
    let lo := max a (4096 * (a / 4096 + i))
    let hi := min (a + n) (4096 * (a / 4096 + i + 1))
    (lo, hi - lo)

/-- Memory addresses and lengths of n logical bytes from a; none where translation refuses any of them. -/
def xlatRun (h : HostIf) (f a n : Nat) (w : Bool) : Option (List (Nat × Nat)) :=
  (pagePieces a n).mapM fun (lo, k) => (xlat h f lo w).map fun m => (m, k)

/-- What an access to memory through a context answers. -/
inductive Acc (α : Type) where
  | ok (v : α)
  | refused
  /-- address of the uncorrectable line -/
  | bad (line : Nat)
  deriving DecidableEq, Repr

/-- Read n bytes from memory address a, charged to class k. -/
def readMem (s : State) (k a n : Nat) : Acc Bytes × State :=
  let (r, m) := Memory.read s.mem a n
  let s := (s.setMem m).setSched (chargeStacks (charge s.sched k (Memory.linesOf a n) 0) s.mem a n)
  match r with
  | .ok d => (.ok d, s)
  | .error l => (.bad l, s)

def readPieces (s : State) (k : Nat) : List (Nat × Nat) → Bytes → Acc Bytes × State
  | [], acc => (.ok acc, s)
  | (a, n) :: r, acc =>
    match readMem s k a n with
    | (.ok d, s) => readPieces s k r (acc ++ d)
    | (.bad l, s) => (.bad l, s)
    | (.refused, s) => (.refused, s)

/-- Read n bytes at logical address a of function f, charged to class k. -/
def readLog (s : State) (f k a n : Nat) : Acc Bytes × State :=
  match xlatRun s.host f a n false with
  | none => (.refused, s)
  | some ps => readPieces s k ps []

/-- Log the read-modify-writes of BAR2 and hub writes that met an uncorrectable line (R305). -/
def logLost (s : State) : Memory.Lost → State
  | [] => s
  | (line, src, _) :: r =>
    logLost (logEvent s { status := 0x0302, source := 0x4000 + Memory.stackOf (64 * line), arg0 := 64 * line,
                          arg1 := src }) r

/-- Charge the read-modify-writes that flushes have made: one read and one write each (R304). -/
def drain (s : State) : State :=
  if s.mem.owed.isEmpty then s
  else (s.setSched (s.mem.owed.foldl (fun c k => charge c k 2 0) s.sched)).setMem { s.mem with owed := [] }

/-- Write bytes at memory address a for writer w in budget class k: the state and the read-modify-writes that
met an uncorrectable line. -/
def writeMem (s : State) (w : Writer) (k a : Nat) (b : Bytes) : State × Memory.Lost :=
  let (m, lost) := Memory.write s.mem w k s.now a b
  (drain ((s.setMem m).setSched (chargeStacks (charge s.sched k (Memory.linesOf a b.length) 0) s.mem a b.length)), lost)

def writePieces (s : State) (w : Writer) (k : Nat) : List (Nat × Nat) → Bytes → State × Memory.Lost
  | [], _ => (s, [])
  | (a, n) :: r, b =>
    let (s, l) := writeMem s w k a (b.take n)
    let (s, q) := writePieces s w k r (b.drop n)
    (s, l ++ q)

/-- Write bytes at logical address a of function f; none where translation refuses it, and nothing is then written. -/
def writeLog (s : State) (w : Writer) (k f a : Nat) (b : Bytes) : Option (State × Memory.Lost) :=
  (xlatRun s.host f a b.length true).map fun ps => writePieces s w k ps b

/-- A write of the hub's own (records, events, counters): lost read-modify-writes are logged. -/
def hubWrite (s : State) (k f a : Nat) (b : Bytes) : Option State :=
  (writeLog s ⟨none, 0xFFFFFFFF, 0x10000⟩ k f a b).map fun (s, l) => logLost s l

/-- Flush the write-combining entries that p holds of. -/
def flushWhere (s : State) (p : WcEntry → Bool) : State × Memory.Lost :=
  let (m, lost) := Memory.flushWhere s.mem p
  (drain (s.setMem m), lost)

/-! ### Cells, rows and columns (spec/00_scope.md R8, spec/17_bring_up.md R415) -/

/-- Logical cell of mesh row and column, and back. -/
def lidOf (mrow mcol : Nat) : Nat := mrow * 64 + mcol

end Ops
end Machine
end Sys2Proof
end

