-- ==== Sys2Proof/Machine/Starts.lean ====
section
/-! DEFINITION. What a cold start and a loss of power leave (spec/17_bring_up.md R398, R400), thermal trips and stores
under stable power (spec/20_power_thermal_measurement.md R466, R469). -/

namespace Sys2Proof
namespace Machine
namespace Starts

open Bits Ops

/-- Power and thermal state after the module's own supplies were off: what the hot-swap controller and the pins hold
stays, the rest returns to reset (R459, R460, R470). -/
def coldPower (s : State) : Power :=
  let p := s.pwr
  { State.resetPower s.fuses.variant with
    phase := p.phase, p48v := p.p48v, brakePin := p.brakePin, inSince := p.inSince, trip := p.trip,
    thermTrip := p.thermTrip }

/-- Identity and debug state after a cold start: LEVEL 0, counts 0, a new random nonce (R452, R454); the TAP and the
cables' supply switches stay. -/
def coldIdent (i : Ident) (nonce : BitVec 256) : Ident :=
  { State.resetIdent nonce with vcblOff := i.vcblOff, ir := i.ir, bsCap := i.bsCap, bsUpd := i.bsUpd,
                                pinMode := i.pinMode }

/-- Everything but the fuses, the flash, the pins and the log's positions returns to reset (R400: "A cold start keeps
only the fuses and the flash"; R434: a log position is never reused). -/
def volatileLost (s : State) : State :=
  let (n, s) := fresh s
  ((((((((((((s.setPwr (coldPower s)).setBu State.resetBringUp).setIdent (coldIdent s.ident n)).setHost
    { State.resetHost with perstLow := s.host.perstLow }).setMem State.resetMem).setFab State.resetFabric).setPtp
    { State.resetPtp with offset := -(s.now : Int), since := s.now }).setSched State.resetSched).setCodec State.reset.codec).setCache
    State.reset.cache).setTm State.reset.tm).setLog ⟨[], s.log.next, 0, 0, []⟩).setMgmt State.reset.mgmt |>.setRecov none

/-- P48V lies in the operating range (R455). -/
def operating (mv : Nat) : Bool := 40000 ≤ mv && mv ≤ 60000

/-- The step that BU_STATUS shows stops with a code, logged as R404 says. -/
def stepStop (s : State) (code source a0 a1 : Nat) : State :=
  logEvent (s.setBu { s.bu with phase := 2, code := code })
    { status := code, source := source, stop := true, arg0 := a0, arg1 := a1 }
/-- Why that step stops at its start (R467): P48V outside the operating range, or, at MEM_TRAIN, CELL_WAVES and
KNOWN_ANSWER, a stack or the hub die above 95 degrees. -/
def startStop (s : State) : Option Nat :=
  if !operating s.pwr.p48v then some 0x0801
  else if [2, 4, 7].contains s.bu.step &&
      (decide (95 < s.pwr.hubTemp) || (List.range 8).any fun k => decide (95 < Sparse.getD s.mem.temp k 0)) then
    some 0x0802
  else none
/-- Step n starts: it runs, or stops at once (R467). -/
def startStep (s : State) (n : Nat) : State :=
  let s := s.setBu { s.bu with step := n, phase := 0, code := 0 }
  match startStop s with
  | some c => stepStop s c 0x7000 0 0
  | none => s

/-- Everything as a cold start leaves it, HUB_BOOT running (R398, R401). -/
def coldState (s : State) : State :=
  let s := volatileLost s
  s.setBu { s.bu with step := 1, phase := 0 }
/-- A cold start begins: HUB_BOOT starts (R398, R401, R403). -/
def coldStart (s : State) : State := startStep (coldState s) 1

/-- Every rail off: nothing volatile is left and bring-up is OFF (R455, R401). -/
def railsOff (s : State) (ph : PowerPhase) : State :=
  let s := volatileLost s
  s.setPwr { s.pwr with phase := ph, inSince := none }

/-- A thermal trip (R466): THERM_TRIP_N low, rails off, cause latched; arg0 names the unit as R465 does. -/
def thermalTrip (s : State) (arg0 : Nat) (temp : Int) : State :=
  let s := railsOff s .tripped
  s.setPwr { s.pwr with trip := some (arg0, temp), thermTrip := true }

/-! ### Stores (R469) -/

/-- A store may begin at time t. -/
def storeOk (p : Power) (t : Nat) : Bool :=
  p.phase == .good && !p.brakePin && !p.hold &&
    match p.inSince with
    | some t0 => decide (t0 + 100000000 ≤ t)
    | none => false

/-- The service record of the identity memory (spec/21_management_identity_debug.md R478). -/
def serviceRecord (time out reduced : Nat) : Bytes :=
  let r := toLe 8 time ++ toLe 2 out ++ toLe 2 reduced
  r ++ toLe 4 (crc32c r).toNat

/-- OUT of a row: factory mask or field mask (spec/17_bring_up.md R416). -/
def outOf (s : State) (i : Nat) : Nat := Sparse.getD s.fuses.factory i 0 ||| Sparse.getD s.bu.fieldMask i 0
/-- Fields of BU_CELLS over a map (R417). -/
def cellsOut (m : Sparse Nat) : Nat := ((List.range 192).map fun i => popcount 17 (Sparse.getD m i 0)).sum
def cellsReduced (m : Sparse Nat) : Nat :=
  ((List.range 192).filter fun i => 2 ≤ popcount 17 (Sparse.getD m i 0)).length
def cellsSpare (m : Sparse Nat) : Nat :=
  ((List.range 192).filter fun i => popcount 17 (Sparse.getD m i 0) == 0).length

/-- The copy of the field mask in force in flash: the valid one with the higher sequence number (R416). -/
def newerMask (f : Flash) : Option MaskCopy :=
  if f.mask0.valid && (!f.mask1.valid || f.mask1.seq ≤ f.mask0.seq) then some f.mask0
  else if f.mask1.valid then some f.mask1 else none

/-- Do one store. -/
def runStore (s : State) : StoreKind → State
  | .flashLog =>
    let l := s.flash.log ++ s.log.toFlash
    (s.setFlash { s.flash with log := l.drop (l.length - Config.flashLogRecords) }).setLog { s.log with toFlash := [] }
  | .fieldMask =>
    let seq := match newerMask s.flash with | some c => c.seq + 1 | none => 1
    let c : MaskCopy := ⟨seq % 2 ^ 32, true, s.bu.fieldMask⟩
    let first := match newerMask s.flash with | some d => decide (d = s.flash.mask0) | none => false
    let m := s.bu.outMap
    let rec8 := serviceRecord (ptpTime s) (cellsOut m) (cellsReduced m)
    let fl := { s.flash with ident := splice s.flash.ident 0x40 rec8 }
    (s.setFlash (if first then { fl with mask1 := c } else { fl with mask0 := c })).setBu
      { s.bu with maskDirty := false }
  | .training l =>
    s.setFlash { s.flash with training := l.foldl (fun m e => Sparse.put m e.1 e.2) s.flash.training }
  | .fuseSvn n => s.setFuses { s.fuses with svn := max s.fuses.svn n }

/-- A store is wanted at time t: it runs, or waits and sets DEFERRED. -/
def wantStore (s : State) (t : Nat) (k : StoreKind) : State :=
  if storeOk s.pwr t then runStore s k
  else s.setPwr { s.pwr with deferred := true,
                             waiting := if s.pwr.waiting.contains k then s.pwr.waiting else s.pwr.waiting ++ [k] }

/-- Stores that waited run once they may. -/
def runWaiting (s : State) (t : Nat) : State :=
  if storeOk s.pwr t then
    let ks := s.pwr.waiting
    ks.foldl runStore (s.setPwr { s.pwr with waiting := [] })
  else s

/-! ### The loaded map (spec/17_bring_up.md R415) -/

/-- Physical columns in service in a row with mask out, ascending. -/
def clearCols (out : Nat) : List Nat := (List.range 17).filter fun j => !bit out j
/-- Physical column that serves logical column c (R415). -/
def serving (out c : Nat) : Option Nat := (clearCols out)[c]?
/-- Physical index of a physical cell (R410). -/
def physIdx (plot row col : Nat) : Nat := 272 * plot + 17 * row + col
/-- Row index and logical column of a logical cell. -/
def rowIdxOf (lid : Nat) : Nat :=
  let mrow := lid / 64
  let mcol := lid % 64
  16 * (4 * (mrow / 16) + mcol / 16) + mrow % 16
def colOf (lid : Nat) : Nat := lid % 64 % 16
/-- Logical cell of a row index and a logical column. -/
def lidAt (i c : Nat) : Nat :=
  let plot := i / 16
  lidOf (16 * (plot / 4) + i % 16) (16 * (plot % 4) + c)
/-- Physical cell that serves a logical cell. -/
def physOf (m : Sparse Nat) (lid : Nat) : Option Nat :=
  let i := rowIdxOf lid
  (serving (Sparse.getD m i 0) (colOf lid)).map fun j => physIdx (i / 16) (i % 16) j
/-- A physical cell serves the logical cell (R415); castling may have withdrawn the position for a time. -/
def served (b : BringUp) (lid : Nat) : Bool := (physOf b.outMap lid).isSome
/-- The logical cell may be placed on: served and not withdrawn (R415, R418). -/
def inService (b : BringUp) (lid : Nat) : Bool := served b lid && !b.withdrawn.contains lid
/-- SC_CELLS.AVAIL (R395). -/
def availCells (b : BringUp) : Nat :=
  ((List.range 192).map fun i => min 16 (17 - popcount 17 (Sparse.getD b.outMap i 0))).sum -
    (b.withdrawn.filter fun l => (physOf b.outMap l).isSome).length
/-- Some plot is in reduced configuration (R419). -/
def reduced (b : BringUp) : Bool := 0 < cellsReduced b.outMap

end Starts
end Machine
end Sys2Proof
end

