-- ==== Sys2Proof/Machine/Power.lean ====
section
/-! DEFINITION. Input, measurement, clock adaptation, brake and trips (spec/20_power_thermal_measurement.md). -/

namespace Sys2Proof
namespace Machine

open Bits Ops Starts

abbrev Out := Host.Outcome State Fault Refusal

namespace Pwr

/-- P48V lies in a band of R456. -/
def band (mv : Nat) : Bool := (36000 ≤ mv && mv < 40000) || (60000 < mv && mv ≤ 62000)
def fused (s : State) : Nat := Config.pwrLimit s.fuses.variant

def report (st a0 a1 : Nat) : Report := { status := st, source := 0x7000, arg0 := a0, arg1 := a1 }

/-- f_floor of R463 for R461 and for a cell at a temperature. -/
def floorModule (s : State) : Nat :=
  if blitzEnabled s.host && !s.pwr.yieldPow && !s.pwr.yieldHub then 1400 else 400
def floorCell (s : State) (temp : Int) : Nat :=
  if blitzEnabled s.host && decide (temp < s.pwr.tTh + 10) then 1400 else 400

/-- The step of f_tgt in one control window (R461); watts and megahertz. A floor above the cap stands: a blitz ring's floor
yields in the cases of R463 alone (R389). -/
def nextTarget (pAvg pOp fTgt floor cap : Nat) : Nat :=
  let f := if pOp < pAvg then fTgt - min 200 (50 * ceilDiv (pAvg - pOp) (pOp / 50))
           else if pAvg < pOp * 95 / 100 then fTgt + 25 else fTgt
  max floor (min cap f)

/-- The step of a cell's clock limit at a temperature sample (R462). -/
def nextLimit (fc : Nat) (temp : Int) (tTh floor fTgt : Nat) : Nat :=
  let f := if (tTh : Int) < temp then fc - 50 else if temp < (tTh : Int) - 3 then fc + 25 else fc
  min fTgt (max floor f)

/-- The map is in force: DEFECT_MAP is done (spec/17_bring_up.md R401, R405). -/
def mapped (b : BringUp) : Bool := decide (5 < b.step) || (b.step == 5 && b.phase == 1)
/-- The router of physical cell i is powered: from the wave of its row on, whether or not the cell is in service
(spec/01_architecture.md R15; spec/17_bring_up.md R405). -/
def routerOn (s : State) (i : Nat) : Bool := s.pwr.phase == .good && decide (i % 272 / 17 < s.bu.waves)
/-- The compute of physical cell i is powered: from its wave on, and once the map is in force only where the cell serves a
logical column. So castling powers a former spare as a single cell as its row takes the new map (R15, R405, R418). -/
def computeOn (s : State) (i : Nat) : Bool :=
  routerOn s i && (!mapped s.bu ||
    ((clearCols (Sparse.getD s.bu.outMap (16 * (i / 272) + i % 272 / 17) 0)).take 16).contains (i % 17))
/-- Clock of physical cell i (R462, R464, R470); a cell whose compute is gated has its clock stopped (R15). -/
def cellClock (s : State) (i : Nat) : Nat :=
  if !computeOn s i ∨ s.bu.stopped then 0
  else if s.pwr.brake then 700
  else min s.pwr.fTgt (Sparse.getD s.pwr.fc i s.pwr.fTgt)

/-- Note P48V's band and operating range after a measurement at time t (R456, R469). -/
def noteInput (s : State) (t mv : Nat) : State :=
  let p := s.pwr
  let b := band mv
  let s := s.setPwr { p with p48v := mv, outBand := b,
                             inSince := if operating mv then some (p.inSince.getD t) else none }
  if b && !p.outBand then logEvent s (report 0x0801 4 0)
  else if !b && p.outBand then logEvent s (report 0x0801 0x104 0) else s

/-- Enter the hard brake for a cause, logged on entry (R464). -/
def enterBrake (s : State) (cause : Nat) : State :=
  if s.pwr.brake then s
  else logEvent (s.setPwr { s.pwr with brake := true }) (report 0x0801 cause s.pwr.latest.mw)

/-- A cause of the brake ended at t; the 1 ms of R464 runs from the end of the last cause. -/
def causeEnds (s : State) (t : Nat) : State :=
  if s.pwr.brakePin || s.pwr.brakeOver then s else s.setPwr { s.pwr with brakeEnd := t }

end Pwr

open Pwr

/-- P48V_RISE (R455): at 38.0 V soft-start begins. -/
def execP48vRise (mv : Nat) (s : State) : Out :=
  let s := s.setPwr { s.pwr with p48v := mv }
  if s.pwr.phase = .off ∧ 38000 ≤ mv then .next (s.setPwr { s.pwr with phase := .softStart }) else .next s

/-- POWER_GOOD (R455, R398): the cold start begins. -/
def execPowerGood (t : Nat) (s : State) : Out :=
  let s := tick s t
  if s.pwr.phase = .softStart then
    .next (coldStart (s.setPwr { s.pwr with phase := .good,
                                            inSince := if operating s.pwr.p48v then some s.now else none }))
  else .next s

/-- P48V_UNDERVOLTAGE (R455): below 36.0 V every rail is off; a thermal trip's hold ends (R466). -/
def execP48vUndervoltage (mv : Nat) (s : State) : Out :=
  let s := s.setPwr { s.pwr with p48v := mv }
  if mv < 36000 then
    let s := railsOff s .off
    .next (s.setPwr { s.pwr with thermTrip := false })
  else .next s

/-- P48V_OVERVOLTAGE (R455). -/
def execP48vOvervoltage (mv : Nat) (s : State) : Out :=
  let s := s.setPwr { s.pwr with p48v := mv }
  if 62000 ≤ mv ∧ s.pwr.phase ≠ .tripped then .next (railsOff s .overvolt) else .next s

/-- P48V_OVERVOLTAGE_CLEAR (R455): below 60.0 V soft-start begins again. -/
def execP48vOvervoltageClear (mv : Nat) (s : State) : Out :=
  let s := s.setPwr { s.pwr with p48v := mv }
  if mv < 60000 ∧ s.pwr.phase = .overvolt then .next (s.setPwr { s.pwr with phase := .softStart }) else .next s

/-- POWER_SAMPLE (R458): one budget period's measurement; the over-power brake of R464, and that of
a PWR_BRAKE_N that was low before the rails came up; stores that waited (R469). -/
def execPowerSample (t mv curr : Nat) (mw : Word) (rail : List (Half × Word)) (s : State) : Out :=
  let s := tick s t
  if s.pwr.phase ≠ .good then .next s
  else
    let smp : Sample := ⟨mv % 65536, curr % 65536, mw.toNat, rail.map fun (v, c) => (v.toNat, c.toNat), ptpTime s⟩
    let s := s.setPwr { s.pwr with latest := smp, winSum := s.pwr.winSum + mw.toNat, winCount := s.pwr.winCount + 1 }
    let s := noteInput s t mv
    let high := decide (fused s * 1150 < mw.toNat)
    let was := s.pwr.brakeOver
    let s := s.setPwr { s.pwr with brakeOver := high }
    let s := if high then enterBrake s 2 else if s.pwr.brakePin then enterBrake s 3 else if was then causeEnds s t else s
    .next (runWaiting s t)

/-- PWR_BRAKE_N_FALL (R464). -/
def execPwrBrakeNFall (t : Nat) (s : State) : Out :=
  let s := tick s t
  let s := s.setPwr { s.pwr with brakePin := true }
  if s.pwr.phase = .good then .next (enterBrake s 3) else .next s

/-- PWR_BRAKE_N_RISE (R464, R469). -/
def execPwrBrakeNRise (t : Nat) (s : State) : Out :=
  let s := tick s t
  let s := s.setPwr { s.pwr with brakePin := false }
  .next (runWaiting (if s.pwr.brake then causeEnds s t else s) t)

/-- BRAKE_RELEASE (R464): 1 ms after the last cause, f_tgt restarts from 700 MHz. -/
def execBrakeRelease (t : Nat) (s : State) : Out :=
  let s := tick s t
  let p := s.pwr
  if p.brake ∧ ¬ p.brakePin ∧ ¬ p.brakeOver ∧ p.brakeEnd + 1000000 ≤ t then
    .next (s.setPwr { p with brake := false, fTgt := 700 })
  else .next s

/-- CONTROL_WINDOW (R461, R463): every 64 budget periods. -/
def execControlWindow (s : State) : Out :=
  if s.pwr.phase ≠ .good ∨ s.pwr.winCount < 64 then .next s
  else
    let p := s.pwr
    let mw := p.winSum / p.winCount
    let w := mw / 1000
    let high := if fused s < w then p.overWins + 1 else 0
    let yp := blitzEnabled s.host && decide (16 ≤ high)
    let s := s.setPwr { p with pAvg := mw, winSum := 0, winCount := 0, overWins := high, pOp := p.polP, tTh := p.polT,
                               fCap := p.polF, yieldPow := yp }
    let f := nextTarget w s.pwr.pOp s.pwr.fTgt (floorModule s) s.pwr.fCap
    let s := s.setPwr { s.pwr with fTgt := if s.pwr.yieldHub then min 1000 f else f }
    .next (if yp && !p.yieldPow then logEvent s (report 0x0801 1 0) else s)

/-- CELL_TEMP_SAMPLE (R462, R463, R465, R466): physical cell i. -/
def execCellTempSample (i : Nat) (temp : Byte) (s : State) : Out :=
  if s.pwr.phase ≠ .good then .next s
  else
    let t := temp.toInt
    let s := s.setPwr { s.pwr with cellTemp := Sparse.put s.pwr.cellTemp i t }
    if 115 ≤ t then .next (thermalTrip s (0x10000 + i) t)
    else
      let p := s.pwr
      let f := nextLimit (Sparse.getD p.fc i (Config.clkMax s.fuses.variant)) t p.tTh (floorCell s t) p.fTgt
      let hot := blitzEnabled s.host && decide ((p.tTh : Int) + 10 ≤ t)
      let was := p.hot.contains i
      let s := s.setPwr { p with fc := Sparse.put p.fc i f,
                                 hot := if hot then (if was then p.hot else i :: p.hot) else p.hot.filter (· != i) }
      .next (if hot != was then logEvent s (report 0x0802 (0x10000 + i) 0) else s)

/-- HUB_TEMP_SAMPLE (R463, R465, R466). -/
def execHubTempSample (temp : Byte) (s : State) : Out :=
  if s.pwr.phase ≠ .good then .next s
  else
    let t := temp.toInt
    let s := s.setPwr { s.pwr with hubTemp := t }
    if 115 ≤ t then .next (thermalTrip s 0x20000 t)
    else
      let hot := decide (105 < t)
      let was := s.pwr.yieldHub
      let s := s.setPwr { s.pwr with yieldHub := hot }
      .next (if hot != was then logEvent s (report 0x0802 0x20000 0) else s)

/-- STACK_TEMP_SAMPLE (spec/13_stacked_memory.md R312, R313; R465, R466). -/
def execStackTempSample (k : Nat) (temp : Byte) (s : State) : Out :=
  if s.pwr.phase ≠ .good then .next s
  else
    let t := temp.toInt
    let m := s.mem
    let was := m.throttle.contains k
    let old := if was then 3 else Sparse.getD m.rate k 0
    let row := Memory.tempRow old t
    let s := s.setMem { m with temp := Sparse.put m.temp k t, rate := Sparse.put m.rate k (min 2 row),
                               throttle := if row = 3 then (if was then m.throttle else k :: m.throttle)
                                           else m.throttle.filter (· != k) }
    if 110 ≤ t then .next (thermalTrip s k t)
    else if row = 3 ∧ ¬ was then
      .next (logEvent s { status := 0x0802, source := 0x4000 + k, arg0 := k })
    else if row ≠ 3 ∧ was then
      .next (logEvent s { status := 0x0802, source := 0x4000 + k, arg0 := 0x100 + k })
    else .next s

/-- VCBL_OVERCURRENT (spec/22_electrical_and_mechanical.md R494): the connector's supply is off until the next insertion,
and its assembly no longer answers. -/
def execVcblOvercurrent (c : Nat) (s : State) : Out :=
  .next (s.setIdent { s.ident with vcblOff := if s.ident.vcblOff.contains c then s.ident.vcblOff else c :: s.ident.vcblOff })

end Machine
end Sys2Proof
end

