-- ==== Sys2Proof/Machine/BringOps.lean ====
section
/-! DEFINITION. Bring-up: how steps start, stop and end, image authentication, the defect map and cell removal
(spec/17_bring_up.md, spec/19_security.md R437 to R439). -/

namespace Sys2Proof
namespace Machine
namespace Bring

open Bits Ops Starts

/-! ### Images -/

def imgType (b : Bytes) : Nat := fld b 4 1
def imgKeySlot (b : Bytes) : Nat := fld b 5 1
def imgSvn (b : Bytes) : Nat := fld b 6 2
def imgVersion (b : Bytes) : Word := BitVec.ofNat 32 (fld b 8 4)
def imgLength (b : Bytes) : Nat := fld b 12 4
def imgDigest (b : Bytes) : BitVec 384 := BitVec.ofNat 384 (be (slice b 0x10 48))
def imgKeyBytes (b : Bytes) : Bytes := slice b 0x40 96
def imgPayload (b : Bytes) : Bytes := slice b 0x100 (imgLength b)

/-- The checks of R438 on one image that do not concern its TYPE. -/
def imageOk (f : Fuses) (b : Bytes) : Bool :=
  let k := imgKeySlot b
  decide (k ≤ 3) && !bit f.revoked k && (f.keyHash[k]? == some (Config.sha384 (imgKeyBytes b))) &&
  decide (f.svn ≤ imgSvn b) && (imgDigest b == Config.sha384 (imgPayload b)) &&
  Config.ecdsaVerify (BitVec.ofNat 768 (be (imgKeyBytes b))) (slice b 0 0xA0)
    (BitVec.ofNat 768 (be (slice b 0xA0 96)))

/-- A slot authenticates (R438). -/
def slotOk (f : Fuses) (sl : FlashSlot) : Bool :=
  let im := sl.images.map (·.2)
  decide (im.length = 4) && [1, 2, 3, 4].all (fun t => (im.filter (imgType · == t)).length == 1) && im.all (imageOk f)

/-- The images of a slot by TYPE. -/
def byType (sl : FlashSlot) : Sparse Bytes :=
  [1, 2, 3, 4].filterMap fun t => (sl.images.map (·.2)).find? (imgType · == t) |>.map fun b => (t, b)

/-- Least SVN of a slot's images (R439). -/
def slotSvn (sl : FlashSlot) : Nat := (sl.images.map fun p => imgSvn p.2).foldl min 64

/-- The four versions in force (R411). -/
def versions (b : BringUp) : Word × Word × Word × Word :=
  let v := fun t => imgVersion (Sparse.getD b.images t [])
  (v 1, v 2, v 3, v 4)

/-- The combination is tested (R412). -/
def tested (b : BringUp) : Bool :=
  (Config.testedTable (Sparse.getD b.images 1 [])).contains (versions b)

/-! ### Steps (R403, R404, R467) -/

/-- The running step is done; with AUTO the next one starts. -/
def stepDone (s : State) : State :=
  if s.bu.auto ∧ s.bu.step < 9 then startStep s (s.bu.step + 1) else s.setBu { s.bu with phase := 1 }

/-- The running step is skipped: its SKIPPED bit is set and it is done at once. -/
def stepSkipped (s : State) : State := stepDone (s.setBu { s.bu with skipped := setBit s.bu.skipped (s.bu.step - 1) true })

/-- Step n is running. -/
def running (s : State) (n : Nat) : Bool := s.pwr.phase == .good && s.bu.step == n && s.bu.phase == 0

/-- Run the work of step n if it is running. -/
def onStep (s : State) (n : Nat) (work : State → State) : State := if running s n then work s else s

/-- A write of BU_STEP (R402, R403, R467). -/
def writeStep (s : State) (v : Nat) : State :=
  let b := s.bu
  let target := field v 3 0
  let s1 := s.setBu { b with auto := bit v 8 }
  if b.phase = 2 ∧ (b.code = 0x0801 ∨ b.code = 0x0802) ∧ target = b.step ∧ target ≠ 0 then startStep s1 b.step
  else if target = 0 then
    if bit v 8 ∧ b.phase = 1 ∧ b.step < 9 then startStep s1 (b.step + 1) else s1
  else if ¬ b.auto ∧ target = b.step + 1 ∧ b.phase = 1 ∧ target ≤ 9 then startStep s1 target
  else s.setBu { b with reject := true }

/-! ### The defect map (R410, R415, R416) -/

/-- Row and column of a physical cell. -/
def rowOfPhys (p : Nat) : Nat := 16 * (p / 272) + p % 272 / 17
def colOfPhys (p : Nat) : Nat := p % 17

/-- The map that the factory mask and the field mask give. -/
def formMap (s : State) : Sparse Nat :=
  (List.range 192).filterMap fun i => if outOf s i = 0 then none else some (i, outOf s i)

/-- Set a physical cell's field bit (R416). -/
def addField (s : State) (p : Nat) : State :=
  let i := rowOfPhys p
  let m := Sparse.put s.bu.fieldMask i (setBit (Sparse.getD s.bu.fieldMask i 0) (colOfPhys p) true)
  s.setBu { s.bu with fieldMask := m, maskDirty := true }

/-! ### Cell firmware (R406) -/

/-- Chain position of a logical cell, serpentine by mesh row (spec/03_espalier_array.md R51). -/
def chainOf (lid : Nat) : Nat :=
  let r := lid / 64
  let c := lid % 64
  64 * r + (if r % 2 = 0 then c else 63 - c)

/-- The copy of the cell firmware for logical cell n (R406). -/
def firmwareCopy (b : BringUp) (n : Nat) : Bytes :=
  let img := Sparse.getD b.images 2 []
  let body := slice (imgPayload img) 0 65472 ++ toLe 2 n ++ toLe 1 (n / 64) ++ toLe 1 (n % 64) ++ toLe 2 (chainOf n) ++
    toLe 1 (rowIdxOf n / 16) ++ toLe 1 0 ++ toLe 4 (imgVersion img).toNat ++ zeros 48
  body ++ toLe 4 (crc32c body).toNat

/-- Line l lies in copy n. -/
def inCopy (n l : Nat) : Bool := l / 1024 == Config.firmwareBase / 65536 + n
/-- Write the copies of the first n logical cells: whole lines, each correctable again (spec/13_stacked_memory.md R301). -/
def writeCopies (b : BringUp) : Nat → Mem → Mem
  | 0, m => m
  | n + 1, m =>
    let m := writeCopies b n m
    { m with bytes := Memory.put m.bytes (Config.firmwareBase + 65536 * n) (firmwareCopy b n),
             errs := m.errs.filter fun e => !inCopy n e.1, fixes := m.fixes.filter fun e => !inCopy n e.1,
             wc := m.wc.filter fun e => !inCopy n e.line }
/-- n copies are written by the management processor or fetched by cells: 1,024 lines each, of the management class
(R407; spec/16_scheduling_and_budgets.md R392). -/
def chargeFetch (s : State) (n : Nat) : State := s.setSched (charge s.sched 10 (1024 * n) 0)

/-! ### Removal during bring-up (R407, R410, R415) -/

/-- Physical cells in service under the loaded map, spares among them (R415). -/
def inServiceCells (b : BringUp) : List Nat :=
  (List.range 3264).filter fun p => !bit (Sparse.getD b.outMap (rowOfPhys p) 0) (colOfPhys p)
/-- Physical cells that serve a logical cell under the loaded map: each row's first 16 in service (R415). -/
def servingCells (b : BringUp) : List Nat :=
  (List.range 3264).filter fun p => ((clearCols (Sparse.getD b.outMap (rowOfPhys p) 0)).take 16).contains (colOfPhys p)
/-- Physical cells of row i that come to serve another logical cell as its mask becomes out. -/
def newServers (b : BringUp) (i out : Nat) : List Nat :=
  (List.range 16).filterMap fun c =>
    if serving (Sparse.getD b.outMap i 0) c = serving out c then none
    else (serving out c).map (physIdx (i / 16) (i % 16))
/-- Remove a cell before any job exists: the map in force changes (R410 step 2), and the cells of its row that come to
serve another logical cell fetch that one's copy (R407; DEDUCED, log 65). -/
def removeNow (s : State) (p : Nat) : State :=
  let s := addField s p
  let i := rowOfPhys p
  let out := setBit (Sparse.getD s.bu.outMap i 0) (colOfPhys p) true
  let ps := newServers s.bu i out
  let v := (versions s.bu).2.1
  chargeFetch (s.setBu { s.bu with outMap := Sparse.put s.bu.outMap i out,
                                   cellFw := ps.foldl (fun m q => Sparse.put m q v) s.bu.cellFw }) ps.length
/-- The physical cells that a list names, ascending: a row's spare comes after the cells whose removal gives it work. -/
def ascending (l : List Nat) : List Nat := (List.range 3264).filter l.contains
/-- A cell that serves a logical cell fetches its copy a second time, which mismatches too: it is removed (R407). A cell
that serves none fetches nothing. -/
def fetchFails (s : State) (p : Nat) : State :=
  if (servingCells s.bu).contains p then
    let s := removeNow (chargeFetch s 1) p
    s.setBu { s.bu with cellFw := s.bu.cellFw.filter (·.1 != p) }
  else s

/-! ### Carrier record (spec/21_management_identity_debug.md R479) -/

def carrierOk (c : Bytes) : Bool :=
  decide (20 ≤ c.length) && (slice c 0 4 == ascii "KCR1") && [4, 5, 6].contains (fld c 4 1) &&
  (List.range 16).all (fun n => decide (field (fld c 8 8) (4 * n + 3) (4 * n) ≤ 10)) &&
  (fld c 0x10 4 == (crc32c (slice c 0 16)).toNat)

/-- What the boot ROM takes from the carrier record; while the JTAG pins are taken the record counts as absent (R487). -/
def readCarrier (i : Ident) (c : Bytes) : Ident :=
  if i.pinMode = 0 ∧ carrierOk c then
    { i with carrier := true, pcieMax := fld c 4 1, carSlot := fld c 6 2, txp := fld c 8 8 }
  else { i with carrier := false, pcieMax := 4, carSlot := 0, txp := 0 }

/-- A cable assembly's reading (R481): present, recognised, limit, preset. -/
def readCable (b : BringUp) (a : Option Cable) : Bool × Bool × Nat × Nat :=
  match a with
  | none => (false, false, 0, 0)
  | some c =>
    match (Config.cableTable (Sparse.getD b.images 4 [])).find? fun e => c.valid && e.1 == c.oui && e.2.1 == c.part with
    | some (_, _, g, p) => (true, true, min g c.gen, p)
    | none => (true, false, 1, 0)

end Bring
end Machine
end Sys2Proof
end

