-- ==== Sys2Proof/Machine/Link.lean ====
section
/-! DEFINITION. Fabric ports: frames, sequence and replay, credits, training, violations and quarantine, routing
(spec/14_twisil_fabric.md R319 to R329, R336 to R338; spec/19_security.md R449, R450). -/

namespace Sys2Proof
namespace Machine
namespace Link

open Bits Ops

/-! ### Frames (R322, R323) -/

def kind (f : Sys2Proof.Frame) : Nat := field f.header.toNat 95 93
def vc (f : Sys2Proof.Frame) : Nat := field f.header.toNat 92 91
def hops (f : Sys2Proof.Frame) : Nat := field f.header.toNat 90 88
def len (f : Sys2Proof.Frame) : Nat := field f.header.toNat 87 81
def seqOf (f : Sys2Proof.Frame) : Nat := field f.header.toNat 80 69
def ackOf (f : Sys2Proof.Frame) : Nat := field f.header.toNat 68 57
def dst (f : Sys2Proof.Frame) : Nat := field f.header.toNat 56 41
def src (f : Sys2Proof.Frame) : Nat := field f.header.toNat 40 25
def tag (f : Sys2Proof.Frame) : Nat := field f.header.toNat 24 13
def index (f : Sys2Proof.Frame) : Nat := field f.header.toNat 12 0

/-- A header word from its fields. -/
def mkHeader (kind vc hops len seq ack dst src tag index : Nat) : BitVec 96 :=
  BitVec.ofNat 96 (index % 2 ^ 13 + 2 ^ 13 * (tag % 2 ^ 12) + 2 ^ 25 * (src % 2 ^ 16) + 2 ^ 41 * (dst % 2 ^ 16) +
    2 ^ 57 * (ack % 2 ^ 12) + 2 ^ 69 * (seq % 2 ^ 12) + 2 ^ 81 * (len % 2 ^ 7) + 2 ^ 88 * (hops % 8) +
    2 ^ 91 * (vc % 4) + 2 ^ 93 * (kind % 8))

/-- The bytes that a frame's CRC covers. -/
def crcBytes (h : BitVec 96) (pay : Bytes) (sec : Option (Dword × BitVec 128)) : Bytes :=
  toLe 12 h.toNat ++ pay ++ match sec with
    | none => []
    | some (n, t) => toLe 8 n.toNat ++ toLe 16 t.toNat
def crcOf (h : BitVec 96) (pay : Bytes) (sec : Option (Dword × BitVec 128)) : Word := crc32c (crcBytes h pay sec)
/-- The frame takes a SEQ (R323). -/
def takesSeq (f : Sys2Proof.Frame) : Bool := [1, 2, 3, 5].contains (kind f)
/-- Credit units of a frame with LEN len, encrypted or not (R326, R449). -/
def units (len : Nat) (enc : Bool) : Nat := ceilDiv ((if enc then 40 else 16) + 64 * len) 64
/-- Credits granted on a VC at entry into UP (R326). -/
def grant0 (v : Nat) : Nat := if v = 2 then 64 else 4096

/-- A frame body that has no SEQ, ACK or CRC yet. -/
def body (kind vc hops dst src tag index : Nat) (pay : Bytes) : Sys2Proof.Frame :=
  ⟨mkHeader kind vc hops (ceilDiv pay.length 64) 0 0 dst src tag index, pay, none, 0#32⟩
/-- A link block (R327). -/
def linkBlock (sub reason seq endpoint gen c0 c1 c2 : Nat) (hdr : Bytes) : Bytes :=
  toLe 1 sub ++ toLe 1 reason ++ toLe 2 seq ++ toLe 2 endpoint ++ toLe 1 gen ++ toLe 1 0 ++ toLe 4 c0 ++ toLe 4 c1 ++
    toLe 4 c2 ++ slice hdr 0 12 ++ zeros 32

/-! ### Ports -/

/-- A port at its reset values (R344). -/
def port0 : Port :=
  { state := .disabled, partner := 0, gen := 0, viol := 0, lastReason := 0, replays := 0, fecUncorr := 0, late := 0,
    stage := 0, tryGen := 1, partnerOffer := 0, violTimes := [], rxSeq := 0, txSeq := 0, replaying := false,
    unacked := [], tries := (0, 0), keySpent := false, granted := [], used := [], freed := [], received := [],
    returned := [], queue := [], downAt := 0, wasUp := false, crypt := false }
def cfg0 : PortCfg := ⟨3, true, false, false, 0, []⟩
def key0 : PortKey := ⟨0#32, 0#256, false, 0⟩
def portAt (s : State) (p : Nat) : Port := Sparse.getD s.fab.port p port0
def cfgAt (s : State) (p : Nat) : PortCfg := Sparse.getD s.fab.cfg p cfg0
def putPort (s : State) (p : Nat) (x : Port) : State := s.setFab { s.fab with port := Sparse.put s.fab.port p x }
def putCfg (s : State) (p : Nat) (x : PortCfg) : State := s.setFab { s.fab with cfg := Sparse.put s.fab.cfg p x }
def myId (s : State) : Nat := s.fab.group * 256 + s.fab.member
/-- A frame leaves on port p: the block's output. -/
def emit (s : State) (p : Nat) (f : Sys2Proof.Frame) : State := s.setFab { s.fab with sent := (p, f) :: s.fab.sent }

/-- The cable's reading of a port's connector: present, recognised, limit, preset (R482). -/
def cableOf (s : State) (p : Nat) : Bool × Bool × Nat × Nat :=
  Sparse.getD s.ident.cables (p / 4) (false, false, 0, 0)
/-- An assembly answers on the port's connector. -/
def hasCable (s : State) (p : Nat) : Bool := (cableOf s p).1 && !s.ident.vcblOff.contains (p / 4)
/-- The port's offer (R321): MAX_GEN 0 acts as 1 (R344). -/
def offer (s : State) (p : Nat) : Nat := min (max 1 (cfgAt s p).maxGen) (cableOf s p).2.2.1
/-- The last SEQ received in order. -/
def ackNow (x : Port) : Nat := (x.rxSeq + 4095) % 4096

/-- Send a frame that takes no SEQ: IDLE (kind 0) or LINK (kind 4). -/
def sendPlain (s : State) (p k : Nat) (pay : Bytes) : State :=
  let h := mkHeader k 0 0 (ceilDiv pay.length 64) 0 (ackNow (portAt s p)) 0 0 0 0
  emit s p ⟨h, pay, none, crcOf h pay none⟩
def sendIdle (s : State) (p : Nat) : State := sendPlain s p 0 []
def sendLink (s : State) (p : Nat) (blk : Bytes) : State := sendPlain s p 4 blk
def sendHello (s : State) (p : Nat) : State := sendLink s p (linkBlock 1 0 0 (myId s) (offer s p) 0 0 0 [])
/-- Send LINK REPLAY naming the expected SEQ (R324). -/
def sendReplay (s : State) (p : Nat) : State :=
  let x := portAt s p
  let s := sendLink s p (linkBlock 3 0 x.rxSeq 0 0 0 0 0 [])
  putPort s p { x with replaying := true, replays := satInc (2 ^ 24 - 1) x.replays 1 }

def linkDown (p : Nat) : Report := { status := 0x0503, source := 0x3000 + p, arg0 := p }

/-- Port p has reached UP, or ended an attempt DOWN: LINK_TRAIN waits for it no longer (spec/17_bring_up.md R401). -/
def ended (s : State) (p : Nat) : State :=
  if s.bu.trained.contains p then s else s.setBu { s.bu with trained := p :: s.bu.trained }
/-- A port in training from step 1 of R321, or DOWN where its connector has no assembly (R481). -/
def train (s : State) (p : Nat) : State :=
  let x := portAt s p
  if hasCable s p then putPort s p { x with state := .training, gen := 0, stage := 0, tryGen := 1, partner := 0 }
  else ended (putPort s p { x with state := .down, gen := 0, unacked := [], queue := [], downAt := s.now }) p
/-- A port leaves UP into training (R325): logged, its replay buffer kept. -/
def leaveUp (s : State) (p : Nat) : State :=
  if (portAt s p).state = .up then
    let s := train s p
    logEvent (putPort s p { portAt s p with wasUp := true }) (linkDown p)
  else train s p
/-- A port ends an attempt DOWN: its replay buffer is discarded, and a port that had been UP logs it (R321, R325). -/
def goDown (s : State) (p : Nat) : State :=
  let x := portAt s p
  let s := putPort s p { x with state := .down, gen := 0, unacked := [], queue := [], downAt := s.now,
                                wasUp := false }
  let s := ended s p
  if x.state == .up || x.wasUp then logEvent s (linkDown p) else s

/-- Bring-up's LINK_TRAIN is done when every enabled port has reached UP or ended one attempt DOWN (R401); a quarantined
port does not train (R338). -/
def linkTrainDone (s : State) : State :=
  if s.bu.step = 8 ∧ s.bu.phase = 0 ∧
      (List.range 24).all (fun p => !(cfgAt s p).enable || (cfgAt s p).qmark || s.bu.trained.contains p) then
    Bring.stepDone s
  else s

/-! ### Sending frames that take a SEQ -/

/-- Seal a frame body with the port's transmit key (R449): the sealed payload and trailer, and the key's next counter. -/
def sealFrame (s : State) (p : Nat) (h : BitVec 96) (pay : Bytes) : Bytes × Option (Dword × BitVec 128) × State :=
  let c := cfgAt s p
  let k := Sparse.getD c.keys c.txSlot key0
  let nonce := BitVec.ofNat 64 (k.count + 2 ^ 63 * c.txSlot)
  let (ct, t) := Config.gcmSeal k.key (BitVec.ofNat 96 (k.salt.toNat + 2 ^ 32 * nonce.toNat)) (toLe 12 h.toNat) pay
  (ct, some (nonce, t), putCfg s p { c with keys := Sparse.put c.keys c.txSlot { k with count := k.count + 1 } })

/-- Put a held frame on the wire with its SEQ: sealed on an encrypted port, unless it is PTP. -/
def wire (s : State) (p : Nat) (seq : Nat) (f : Sys2Proof.Frame) : State :=
  let x := portAt s p
  let h := mkHeader (kind f) (vc f) (hops f) (len f) seq (ackNow x) (dst f) (src f) (tag f) (index f)
  if x.crypt && kind f != 5 then
    let (ct, sec, s) := sealFrame s p h f.payload
    let s := emit s p ⟨h, ct, sec, crcOf h ct sec⟩
    let c := cfgAt s p
    if 2 ^ 48 ≤ (Sparse.getD c.keys c.txSlot key0).count then
      leaveUp (putPort s p { portAt s p with keySpent := true }) p
    else s
  else emit s p ⟨h, f.payload, none, crcOf h f.payload none⟩

/-- Bytes of a frame on the wire: header, payload, trailer, and the security trailer of an encrypted one (R322, R449). -/
def frameBytes (x : Port) (f : Sys2Proof.Frame) : Nat := (if x.crypt && kind f != 5 then 40 else 16) + 64 * len f
/-- Bytes that the port's replay buffer holds. -/
def heldBytes (x : Port) : Nat := (x.unacked.map fun e => frameBytes x e.2).sum
/-- The port has credits for the frame and room in its 256 KiB replay buffer (R325, R326). -/
def canSend (x : Port) (f : Sys2Proof.Frame) : Bool :=
  let v := vc f
  x.state == .up && decide (x.unacked.length < 2047) && decide (heldBytes x + frameBytes x f ≤ 262144) &&
    decide ((Sparse.getD x.used v 0 % 2 ^ 32 + 2 ^ 32 - Sparse.getD x.granted v 0) % 2 ^ 32 +
      units (len f) (x.crypt && kind f != 5) ≤ grant0 v)

/-- Send a frame now. -/
def sendNow (s : State) (p : Nat) (f : Sys2Proof.Frame) : State :=
  let x := portAt s p
  let u := units (len f) (x.crypt && kind f != 5)
  let q := x.txSeq
  let s := putPort s p { x with txSeq := (q + 1) % 4096, unacked := x.unacked ++ [(q, f)],
                                used := Sparse.upd x.used (vc f) 0 (· + u) }
  wire s p q f

/-- Send a frame, or hold it until it may leave. -/
def send (s : State) (p : Nat) (f : Sys2Proof.Frame) : State :=
  let x := portAt s p
  if x.queue.isEmpty && canSend x f then sendNow s p f
  else putPort s p { x with queue := x.queue ++ [(s.now, f)] }

/-- Held frames leave in order while they may. -/
def drain : List (Nat × Sys2Proof.Frame) → State → Nat → State
  | [], s, _ => s
  | (_, f) :: r, s, p =>
    if canSend (portAt s p) f then
      let s := putPort s p { portAt s p with queue := r }
      drain r (sendNow s p f) p
    else s
def drainQueue (s : State) (p : Nat) : State := drain (portAt s p).queue s p

/-! ### Routing (R328, R329) -/

/-- Where a frame goes: this module, a port, or nowhere. -/
inductive Route where
  | here | port (p : Nat) | none
  deriving DecidableEq, Repr

/-- The routing steps of R328, which a PTP frame takes whether the ID is set or not. -/
def routePtp (s : State) (d sr tg : Nat) : Route :=
  if d = myId s then .here
  else
    let e := if d / 256 = s.fab.group then Sparse.getD s.fab.mbr (d % 256) 0 else Sparse.getD s.fab.grp (d / 256) 0
    let c := (List.range 24).filter fun p => bit e p && (portAt s p).state == .up
    if c.isEmpty then .none else .port (c.getD ((d ^^^ sr ^^^ tg) % c.length) 0)
/-- The route of another frame: none while the ID is not set, when ports carry only LINK and PTP frames (R344). -/
def route (s : State) (d sr tg : Nat) : Route := if s.fab.idValid then routePtp s d sr tg else .none

/-! ### Violations and quarantine (R337, R338) -/

/-- Put a port into QUARANTINED. -/
def quarantine (s : State) (p : Nat) : State :=
  let x := portAt s p
  let s := putCfg s p { cfgAt s p with qmark := true }
  let s := putPort s p { x with state := .quarantined, gen := 0, unacked := [], queue := [] }
  let s := logEvent s { status := 0x0502, source := 0x3000 + p, arg0 := p }
  if x.state == .up then logEvent s (linkDown p) else s

/-- Count a violation of the frame with header h on port p: the 64th within 1 s quarantines the port. -/
def violate (s : State) (p reason : Nat) (h : BitVec 96) : State :=
  let x := portAt s p
  let ts := (s.now :: x.violTimes).take 64
  let s := putPort s p { x with viol := satInc (2 ^ 24 - 1) x.viol 1, lastReason := reason, violTimes := ts }
  let s := logEvent s { status := 0x0501, source := 0x3000 + p, arg0 := p * 256 + reason, arg1 := h.toNat % 2 ^ 64 }
  match ts[63]? with
  | some t0 => if s.now - t0 < 1000000000 then quarantine s p else s
  | none => s

/-- A header violation is answered with LINK NAK. -/
def violateNak (s : State) (p reason : Nat) (f : Sys2Proof.Frame) : State :=
  violate (sendLink s p (linkBlock 4 reason (seqOf f) 0 0 0 0 0 (toLe 12 f.header.toNat))) p reason f.header

/-- The reason of the first header check that a frame breaks (R323, R326, R336). -/
def headerReason (x : Port) (f : Sys2Proof.Frame) : Option Nat :=
  let k := kind f
  let v := vc f
  let l := len f
  if 6 ≤ k then some 0x01
  else if (k = 0 ∧ l ≠ 0) ∨ ((k = 1 ∨ k = 3 ∨ k = 4 ∨ k = 5) ∧ l ≠ 1) ∨ (k = 2 ∧ (l = 0 ∨ 64 < l)) ∨
      f.payload.length ≠ 64 * l then some 0x02
  else if (k = 0 ∨ k = 1 ∨ k = 4) ∧ v ≠ 0 ∨ k = 2 ∧ 1 < v ∨ k = 3 ∧ v ≠ 1 ∨ k = 5 ∧ v ≠ 2 then some 0x03
  else if (k = 0 ∨ k = 4) ∧ f.header.toNat % 2 ^ 57 ≠ 0 ∨ k ≠ 2 ∧ index f ≠ 0 then some 0x03
  else if x.state = .up ∧ takesSeq f ∧ grant0 v + Sparse.getD x.returned v 0 <
      Sparse.getD x.received v 0 + units l (x.crypt && k != 5) then some 0x04
  else none

/-- Open a frame of an encrypted port (R449, R450): its plaintext and the receive key's new counter. -/
def openFrame (s : State) (p : Nat) (f : Sys2Proof.Frame) : Option (Sys2Proof.Frame × State) :=
  match f.sec with
  | none => none
  | some (nonce, t) =>
    let c := cfgAt s p
    let slot := nonce.toNat / 2 ^ 63
    let cnt := nonce.toNat % 2 ^ 63
    let k := Sparse.getD c.keys (2 + slot) key0
    if k.loaded && decide (k.count ≤ cnt) then
      match Config.gcmOpen k.key (BitVec.ofNat 96 (k.salt.toNat + 2 ^ 32 * nonce.toNat)) (toLe 12 f.header.toNat)
          f.payload t with
      | none => none
      | some pt => some ({ f with payload := pt, sec := none },
          putCfg s p { c with keys := Sparse.put c.keys (2 + slot) { k with count := cnt + 1 } })
    else none

/-- Take what ACK covers out of the replay buffer (R325). -/
def applyAck (s : State) (p ack : Nat) : State :=
  let x := portAt s p
  let left := x.unacked.filter fun (q, _) => 2048 ≤ (ack + 4096 - q) % 4096
  putPort s p (if left.length < x.unacked.length then { x with unacked := left, tries := (0, 0) } else x)

/-- What a received frame comes to: dropped, with the state that is left, or taken. -/
inductive Rx where
  | drop (s : State)
  | take (f : Sys2Proof.Frame) (s : State)

/-- A frame with a bad CRC: the codewords it lay in that FEC could not correct are counted (R344); their number is free
(log 5). -/
def badCrc (s : State) (p : Nat) : State :=
  let (v, s) := fresh s
  let x := portAt s p
  sendReplay (putPort s p { x with fecUncorr := satInc (2 ^ 24 - 1) x.fecUncorr v.toNat }) p
/-- An UP port takes an accepted frame that passes its header checks: its ACK (R325), and its credit units (R326). -/
def accept (s : State) (p : Nat) (f : Sys2Proof.Frame) (enc : Bool) : State :=
  let s := applyAck s p (ackOf f)
  let y := portAt s p
  let u := units (len f) enc
  drainQueue (if takesSeq f then putPort s p { y with received := Sparse.upd y.received (vc f) 0 (· + u),
                                                       freed := Sparse.upd y.freed (vc f) 0 (· + u) } else s) p
/-- Receive a frame on port p (R324, R337, R449): CRC, encryption, sequence, header checks, ACK and credits. A frame that
is not accepted, or that breaks a check, has no say in its ACK. -/
def receive (s : State) (p : Nat) (f : Sys2Proof.Frame) : Rx :=
  let x := portAt s p
  if x.state = .quarantined ∨ x.state = .disabled ∨ x.state = .down then .drop s
  else if crcOf f.header f.payload f.sec ≠ f.crc then .drop (badCrc s p)
  else
    let enc := x.crypt && [1, 2, 3].contains (kind f)
    match (if enc then openFrame s p f else if f.sec.isSome then none else some (f, s)) with
    | none => .drop (sendReplay s p)
    | some (f, s) =>
      if x.state = .up ∧ takesSeq f ∧ seqOf f ≠ x.rxSeq then
        if (seqOf f + 4096 - x.rxSeq) % 4096 < 2048 then .drop (sendReplay s p) else .drop s
      else
        let y := portAt s p
        -- a violating frame in order takes its SEQ, or the link could not go on (DEDUCED, log 53)
        let s := if x.state = .up ∧ takesSeq f then putPort s p { y with rxSeq := (y.rxSeq + 1) % 4096, replaying := false } else s
        match headerReason (portAt s p) f with
        | some r => .drop (violateNak s p r f)
        | none =>
          if x.state = .up then .take f (accept s p f enc)
          else if takesSeq f then .drop s
          else .take f s

/-- A port enters UP (R321, R326): credits start afresh and the replay buffer is resent. -/
def enterUp (s : State) (p : Nat) : State :=
  let x := portAt s p
  let c := cfgAt s p
  if c.encrypt && (!(Sparse.getD c.keys c.txSlot key0).loaded || x.keySpent) then s
  else
    let s := putPort s p { x with state := .up, gen := x.tryGen, granted := [], used := [], freed := [],
                                  received := [], returned := [], crypt := c.encrypt, tries := (0, 0),
                                  wasUp := false }
    let s := x.unacked.foldl (fun s (q, f) =>
      let y := portAt s p
      wire (putPort s p { y with used := Sparse.upd y.used (vc f) 0 (· + units (len f) (y.crypt && kind f != 5)) }) p q f) s
    linkTrainDone (ended (drainQueue s p) p)

/-- Lock failed at the generation in training (R321): fall back one generation, or end DOWN at GEN 1. -/
def lockFails (s : State) (p : Nat) : State :=
  let x := portAt s p
  if x.tryGen ≤ 1 then linkTrainDone (goDown s p)
  else putPort s p { x with tryGen := x.tryGen - 1, stage := 2 }

end Link
end Machine
end Sys2Proof
end

