-- ==== Sys2Proof/Machine/Bringup.lean ====
section
/-! DEFINITION. Commands of the bring-up steps after HUB_BOOT, of stores and of the cable poll (spec/17_bring_up.md). -/

namespace Sys2Proof
namespace Machine

open Bits Ops Starts Bring

namespace Bring

/-- A stack keeps its stored training: a warm start, and its temperature lies within 10 degrees of the record's
(R401). -/
def keepsTraining (s : State) (k : Nat) : Bool :=
  s.bu.warm &&
    match Sparse.get? s.flash.training k with
    | some r => let d := r - Sparse.getD s.mem.temp k 0; decide (-10 ≤ d) && decide (d ≤ 10)
    | none => false

/-- A unit that failed its known-answer run is logged (R410 step 1). -/
def katReport (s : State) (source arg0 e c : Nat) : State :=
  logEvent s { status := 0x0301, source := source, arg0 := arg0, arg1 := e * 2 ^ 32 + c, removes := true }

/-- Milliseconds of downtime are counted (spec/18_reliability_and_recovery.md R435). -/
def countDown (s : State) (ms : Nat) : State :=
  (s.setFlash { s.flash with downMs := satInc (2 ^ 32 - 1) s.flash.downMs ms }).setBu { s.bu with downFrom := none }
/-- A cold start that a module-lost fault began counts as downtime up to 8 s (R436; that TM_DOWN counts it so is DEDUCED,
log 61). -/
def coldDowntime (s : State) : State :=
  match s.bu.downFrom with
  | none => s
  | some t => countDown s (min 8000 ((s.now - t) / 1000000))
/-- A cell whose record lies within the last 24 h is not run again at a warm start (R409). -/
def recentPass (s : State) (p : Nat) : Bool :=
  s.bu.warm &&
    match Sparse.get? s.bu.kat p with
    | some t => decide (ptpTime s < t + 86400000000000)
    | none => false

end Bring

/-- MEM_TRAIN (R401, R399, R404): stacks train or keep their stored training, and leave self refresh; a stack that
trains stores a new record (a store under R469). `failing` lists the stacks with a channel that fails at the step's bound. -/
def execMemTrain (failing : List Nat) (s : State) : Out :=
  .next (onStep s 2 fun s =>
    let ks := List.range 8
    let trains := ks.filter fun k => !keepsTraining s k
    let bad := trains.filter failing.contains
    let good := ks.filter fun k => !bad.contains k
    let news := (trains.filter fun k => !bad.contains k).map fun k => (k, Sparse.getD s.mem.temp k 0)
    let s := if news = [] then s else wantStore s s.now (.training news)
    let s := s.setMem { s.mem with selfRef := s.mem.selfRef.filter fun k => !good.contains k }
    match bad with
    | k :: _ => Starts.stepStop s 0x0302 (0x4000 + k) 0 0
    | [] => if trains.isEmpty then stepSkipped s else stepDone s)

/-- MEM_INIT (R401, R298): every line is zero data with zero checks; skipped at a warm start. -/
def execMemInit (s : State) : Out :=
  .next (onStep s 3 fun s =>
    if s.bu.warm then stepSkipped s
    else stepDone (s.setMem { s.mem with bytes := [], errs := [], wc := [], fixes := [] }))

/-- CELL_WAVES (R405): the step begins; its 16 waves follow. -/
def execCellWaves (s : State) : Out :=
  if s.bu.wavesOn then .next s
  else .next (onStep s 4 fun s => s.setBu { s.bu with waves := 0, wavesOn := true, lastWave := 0, stopped := false })

/-- CELL_WAVE (R405): the next wave powers one physical row of every plot, 40 us after the one before if the input
current has settled; the step is done after wave 15. -/
def execCellWave (t : Nat) (settled : Bool) (s : State) : Out :=
  let s := tick s t
  if running s 4 ∧ s.bu.wavesOn ∧
      (s.bu.waves = 0 ∨ (settled ∧ s.bu.lastWave + 40000 ≤ t) ∨ s.bu.lastWave + 540000 ≤ t) then
    let b : BringUp := { s.bu with waves := s.bu.waves + 1, lastWave := t }
    .next (if b.waves = 16 then stepDone (s.setBu { b with wavesOn := false }) else s.setBu b)
  else .next s

/-- DEFECT_MAP (R415, R416): the map is formed from the factory and the field mask and loaded. -/
def execDefectMap (s : State) : Out :=
  .next (onStep s 5 fun s =>
    let s := if s.bu.warm then s
      else s.setBu { s.bu with fieldMask := match newerMask s.flash with | some c => c.bits | none => [] }
    stepDone (s.setBu { s.bu with outMap := formMap s }))

/-- CELL_FIRMWARE (R412, R414, R406, R407): the combination is checked unless an override for it is in force; the
copies are written and fetched; `bad` lists physical cells whose second fetch mismatches. -/
def execCellFirmware (bad : List Nat) (s : State) : Out :=
  .next (onStep s 6 fun s =>
    let v := versions s.bu
    let keep := s.bu.override && s.bu.overVers == some v
    let s := if s.bu.override && !keep then s.setBu { s.bu with override := false, overVers := none } else s
    if !keep && !tested s.bu then
      let (r, s) := fresh s
      Starts.stepStop s 0x0401 (0x6000 + r.toNat % 4) (v.1.toNat * 2 ^ 32 + v.2.1.toNat) (v.2.2.1.toNat * 2 ^ 32 + v.2.2.2.toNat)
    else
      let s := s.setBu { s.bu with fwBase := Config.firmwareBase }
      let s := s.setMem (writeCopies s.bu Config.logicalCells s.mem)
      let cells := servingCells s.bu
      let s := chargeFetch (s.setBu { s.bu with cellFw := cells.map fun p => (p, v.2.1) }) (Config.logicalCells + cells.length)
      let s := (ascending bad).foldl fetchFails s
      stepDone s)

/-- KNOWN_ANSWER (R408 to R410): every in-service cell that did not pass within 24 h runs, and every engine; failing
units are logged and leave service. Operands: failing physical cells, and engines 0-7 encode, 8-23 decode, each with
the expected and the computed value. -/
def execKnownAnswer (cells engines : List (Nat × Word × Word)) (s : State) : Out :=
  .next (onStep s 7 fun s =>
    let run := (inServiceCells s.bu).filter fun p => !recentPass s p
    let bad := cells.filter fun e => run.contains e.1
    let passed := (run.filter fun p => !(bad.map (·.1)).contains p).foldl
      (fun m p => Sparse.put m p (ptpTime s)) s.bu.kat
    let s := s.setBu { s.bu with kat := passed }
    let s := bad.foldl (fun s (p, e, c) => removeNow (katReport s (0x1000 + p) p e.toNat c.toNat) p) s
    let s := engines.foldl (fun s (k, e, c) =>
      let s := katReport s (if k < 8 then 0x2100 + k else 0x2110 + (k - 8)) 0 e.toNat c.toNat
      if k < 8 then s.setBu { s.bu with encOut := setBit s.bu.encOut k true }
      else s.setBu { s.bu with decOut := setBit s.bu.decOut (k - 8) true }) s
    stepDone s)

/-- LINK_TRAIN (R401, R480, R481): the cables' memories are read and every enabled port begins training; the step is
done when none is left in training. -/
def execLinkTrain (assemblies : List (Option Cable)) (s : State) : Out :=
  .next (onStep s 8 fun s =>
    let rd := fun c => if s.ident.vcblOff.contains c || s.ident.pinMode != 0 then (false, false, 0, 0)
                       else readCable s.bu ((assemblies[c]?).getD none)
    let s := s.setIdent { s.ident with cables := (List.range 6).map fun c => (c, rd c) }
    let s := s.setBu { s.bu with trained := (List.range 24).filter fun p => (Link.portAt s p).state == .up }
    let s := (List.range 24).foldl (fun s p =>
      let c := Link.cfgAt s p
      if !c.enable then s
      else if c.qmark then Link.putPort s p { Link.portAt s p with state := .quarantined }
      else if (Link.portAt s p).state == .up || (Link.portAt s p).state == .training then s
      else Link.train s p) s
    Link.linkTrainDone s)

/-- READY (R401, R403, spec/19_security.md R439): after a cold start FUSE_SVN is raised to the lower slot SVN when
both slots authenticate; a warm start clears AUTO. -/
def execReady (s : State) : Out :=
  .next (onStep s 9 fun s =>
    let f := s.flash
    let n := min (slotSvn f.slot0) (slotSvn f.slot1)
    let s := if !s.bu.warm && slotOk s.fuses f.slot0 && slotOk s.fuses f.slot1 && decide (s.fuses.svn < n) then
        wantStore s s.now (.fuseSvn n)
      else s
    let s := if s.bu.warm then s else Bring.coldDowntime s
    s.setBu { s.bu with phase := 1, auto := if s.bu.warm then false else s.bu.auto })

/-- STEP_RETRY_TIMER (R467): under AUTO 1 the management processor retries a step stopped by a power or thermal limit. -/
def execStepRetryTimer (t : Nat) (s : State) : Out :=
  let s := tick s t
  if s.bu.auto ∧ s.bu.phase = 2 ∧ (s.bu.code = 0x0801 ∨ s.bu.code = 0x0802) then
    .next (Starts.startStep s s.bu.step)
  else .next s

/-- FLASH_LOG_STORE (spec/18_reliability_and_recovery.md R434, R469): waiting records reach the flash log. -/
def execFlashLogStore (t : Nat) (s : State) : Out :=
  let s := tick s t
  if s.log.toFlash.isEmpty then .next s else .next (wantStore s t .flashLog)

/-- FIELD_MASK_STORE (R416, R469, R478): a changed field mask overwrites the older copy; the service record follows. -/
def execFieldMaskStore (t : Nat) (s : State) : Out :=
  let s := tick s t
  if s.bu.maskDirty then .next (wantStore s t .fieldMask) else .next s

/-- RECENT_FAULT_AGE_OUT (R430): faults older than 3,600 s leave RECENT. -/
def execRecentFaultAgeOut (t : Nat) (s : State) : Out :=
  let s := tick s t
  .next (s.setBu { s.bu with recent := s.bu.recent.filter fun x => t < x + 3600000000000 })

/-- TAI_YEAR_CHANGE (R435): TM_DOWN restarts at 0. -/
def execTaiYearChange (year : Half) (s : State) : Out :=
  .next (s.setFlash { s.flash with downYear := year.toNat, downMs := 0 })

/-- CABLE_POLL (spec/21_management_identity_debug.md R480, R481, R494): a new assembly is read; a removed one switches
its supply on again for the next insertion. -/
def execCablePoll (t c : Nat) (a : Option Cable) (s : State) : Out :=
  let s := tick s t
  let had := (Sparse.getD s.ident.cables c (false, false, 0, 0)).1
  match a with
  | none =>
    .next (s.setIdent { s.ident with cables := Sparse.put s.ident.cables c (false, false, 0, 0),
                                     vcblOff := s.ident.vcblOff.filter (· != c) })
  | some _ =>
    if s.ident.vcblOff.contains c || s.ident.pinMode != 0 then
      .next (s.setIdent { s.ident with cables := Sparse.put s.ident.cables c (false, false, 0, 0) })
    else if had then .next s
    else .next (s.setIdent { s.ident with cables := Sparse.put s.ident.cables c (readCable s.bu a) })

end Machine
end Sys2Proof
end

