-- ==== Sys2Proof/Machine/MemM.lean ====
section
/-! DEFINITION. A run of memory accesses through one context: reads and writes that count their transactions and stop at
the first refused address or uncorrectable line. What such a run changes is the memory block alone. -/

namespace Sys2Proof
namespace Machine

/-- Memory during a run of accesses: the block, 64-byte transactions made, the runs of bytes accessed, lines written, and
read-modify-writes that met an uncorrectable line (spec/13_stacked_memory.md R305). -/
structure MemRun where
  mem   : Mem
  txn   : Nat
  runs  : List (Nat × Nat)
  wrote : List Nat
  lost  : Memory.Lost

/-- Why a run of accesses stops: a logical address that translation refuses (spec/19_security.md R446), or an
uncorrectable line (R301). -/
inductive MFail where
  | refused (a : Nat)
  | bad (line : Nat)
  deriving DecidableEq, Repr

/-- A run of memory accesses. -/
abbrev MM (α : Type) := ExceptT MFail (StateM MemRun) α

/-- Whose accesses they are: the host block's translation, function, writer, model time, class. -/
structure Via where
  host : HostIf
  fn   : Nat
  who  : Writer
  time : Nat
  /-- budget class -/
  cls  : Nat

namespace MM

open Bits

/-- Read n bytes at memory address a. -/
def readAt (a n : Nat) : MM Bytes := do
  let w ← getThe MemRun
  let (r, m) := Memory.read w.mem a n
  set { w with mem := m, txn := w.txn + Memory.linesOf a n, runs := (a, n) :: w.runs }
  match r with
  | .ok d => pure d
  | .error l => throw (.bad l)

/-- Write bytes at memory address a. -/
def writeAt (v : Via) (a : Nat) (b : Bytes) : MM Unit := do
  let w ← getThe MemRun
  let (m, l) := Memory.write w.mem v.who v.cls v.time a b
  set ({ mem := m, txn := w.txn + Memory.linesOf a b.length, runs := (a, b.length) :: w.runs,
         wrote := (List.range (Memory.linesOf a b.length)).map (a / 64 + ·) ++ w.wrote, lost := w.lost ++ l } : MemRun)
/-- The lines that the run has written so far. -/
def wrote : MM (List Nat) := do
  let w ← getThe MemRun
  pure w.wrote.eraseDups

def readAll : List (Nat × Nat) → MM Bytes
  | [] => pure []
  | (a, n) :: r => do
    let d ← readAt a n
    let e ← readAll r
    pure (d ++ e)

def writeAll (v : Via) : List (Nat × Nat) → Bytes → MM Unit
  | [], _ => pure ()
  | (a, n) :: r, b => do
    writeAt v a (b.take n)
    writeAll v r (b.drop n)

/-- Read n bytes at logical address a. -/
def read (v : Via) (a n : Nat) : MM Bytes :=
  match Ops.xlatRun v.host v.fn a n false with
  | none => throw (.refused a)
  | some ps => readAll ps

/-- Write bytes at logical address a. -/
def write (v : Via) (a : Nat) (b : Bytes) : MM Unit :=
  match Ops.xlatRun v.host v.fn a b.length true with
  | none => throw (.refused a)
  | some ps => writeAll v ps b

/-- A little-endian number of n bytes at logical address a. -/
def get (v : Via) (a n : Nat) : MM Nat := do
  let b ← read v a n
  pure (le b)
def put (v : Via) (a n x : Nat) : MM Unit := write v a (toLe n x)

/-- The hub's atomic unit addresses a line: its write-combining entry is flushed first (R304). -/
def flushLine (a : Nat) : MM Unit := do
  let w ← getThe MemRun
  let (m, l) := Memory.flushWhere w.mem fun e => e.line == a / 64
  set { w with mem := m, lost := w.lost ++ l }

/-- The same at a logical address. -/
def flush (v : Via) (a : Nat) : MM Unit :=
  match Ops.xlat v.host v.fn a true with
  | none => pure ()
  | some m => flushLine m

/-- The charges of a run of accesses: transactions to class k, and to throttled stacks. -/
def charges (c : Sched) (k : Nat) (w : MemRun) : Sched :=
  w.runs.foldl (fun c (a, n) => Ops.chargeStacks c w.mem a n) (Ops.charge c k w.txn 0)
/-- Run accesses on a state, charged to class k: the result, the state, and the lost read-modify-writes. -/
def exec {α : Type} (s : State) (k : Nat) (act : MM α) : Except MFail α × State × Memory.Lost :=
  let (r, w) := act.run.run ⟨s.mem, 0, [], [], []⟩
  (r, Ops.drain ((s.setMem w.mem).setSched (charges s.sched k w)), w.lost)

end MM
end Machine
end Sys2Proof
end

