-- ==== Sys2Proof/Machine/CacheOps.lean ====
section
/-! DEFINITION. The paged cache in memory: descriptor, page tables, free stack, prefix tree and the PREFIX operations
(spec/08_attention_and_paged_cache.md R169 to R187). -/

namespace Sys2Proof
namespace Machine
namespace CacheOps

open Bits

/-! ### The cache descriptor (R169, R170) -/

def poolBase (c : Bytes) : Nat := fld c 0 8
def seqDir (c : Bytes) : Nat := fld c 8 8
def freeStack (c : Bytes) : Nat := fld c 0x10 8
def tree (c : Bytes) : Nat := fld c 0x18 8
def codes (c : Bytes) : Nat := fld c 0x20 8
def salt (c : Bytes) : Nat := fld c 0x28 8
def poolPages (c : Bytes) : Nat := fld c 0x30 4
def pageBytes (c : Bytes) : Nat := fld c 0x34 4
def seqSlots (c : Bytes) : Nat := fld c 0x38 4
def dt (c : Bytes) : Nat := fld c 0x3C 1
def cfmt (c : Bytes) : Nat := fld c 0x3D 1
def nplanes (c : Bytes) : Nat := fld c 0x3E 2
/-- Bytes of one 32 x 32 column-blocked tile in CFMT. -/
def tileBytes (c : Bytes) : Nat := if cfmt c = 2 ∨ cfmt c = 3 then 2048 else 1056
def planeBytes (c : Bytes) : Nat := 8 * dt c * tileBytes c

/-- The descriptor satisfies R169 and R170. -/
def descOk (c : Bytes) : Bool :=
  poolBase c % 4096 == 0 && seqDir c % 64 == 0 && decide (1 ≤ poolPages c) && decide (poolPages c ≤ 0xFFFFFFFE) &&
  decide (1 ≤ seqSlots c) && decide (seqSlots c ≤ 65536) && decide (1 ≤ dt c) && decide (dt c ≤ 8) &&
  [2, 3, 4, 5].contains (cfmt c) && ((codes c == 0) == (cfmt c == 2 || cfmt c == 3)) && decide (2 ≤ nplanes c) &&
  nplanes c % 2 == 0 && pageBytes c == nplanes c * planeBytes c

/-! ### Page-table entries (R173) -/

def eValid (e : Nat) : Bool := bit e 63
def eShared (e : Nat) : Bool := bit e 62
def eRemote (e : Nat) : Bool := bit e 61
def ePending (e : Nat) : Bool := bit e 60
def eFill (e : Nat) : Nat := field e 56 48
def eRefs (e : Nat) : Nat := field e 47 32
def ePage (e : Nat) : Nat := field e 31 0
def mkEntry (valid shared remote pending : Bool) (fill refs page : Nat) : Nat :=
  2 ^ 63 * ofBool valid + 2 ^ 62 * ofBool shared + 2 ^ 61 * ofBool remote + 2 ^ 60 * ofBool pending +
    2 ^ 48 * fill + 2 ^ 32 * (refs % 65536) + page % 2 ^ 32
def setRefs (e r : Nat) : Nat := e - 2 ^ 32 * eRefs e + 2 ^ 32 * (r % 65536)
def setFill (e f : Nat) : Nat := e - 2 ^ 48 * eFill e + 2 ^ 48 * f
def none32 : Nat := 0xFFFFFFFF

/-- A sequence directory entry (R172): TABLE, TOKENS, ENTRIES, LEN. -/
structure Seq where
  table   : Nat
  tokens  : Nat
  entries : Nat
  len     : Nat

def seqAddr (c : Bytes) (q : Nat) : Nat := seqDir c + 32 * q
def readSeq (v : Via) (c : Bytes) (q : Nat) : MM Seq := do
  let b ← MM.read v (seqAddr c q) 32
  pure ⟨fld b 0 8, fld b 8 8, fld b 16 4, fld b 20 4⟩
def setLen (v : Via) (c : Bytes) (q n : Nat) : MM Unit := MM.put v (seqAddr c q + 20) 4 n
def entryAddr (q : Seq) (i : Nat) : Nat := q.table + 8 * i
def readEntry (v : Via) (q : Seq) (i : Nat) : MM Nat := MM.get v (entryAddr q i) 8
def putEntry (v : Via) (q : Seq) (i e : Nat) : MM Unit := MM.put v (entryAddr q i) 8 e

/-! ### The prefix tree (R182, R183) -/

/-- The tree header. -/
structure Tree where
  buckets  : Nat
  nodes    : Nat
  owner    : Nat
  nbuckets : Nat
  nnodes   : Nat
  freeNode : Nat
  lowWater : Nat

def readTree (v : Via) (c : Bytes) : MM Tree := do
  let b ← MM.read v (tree c) 64
  pure ⟨fld b 0 8, fld b 8 8, fld b 16 8, fld b 24 4, fld b 28 4, fld b 32 4, fld b 36 4⟩
def nodeAddr (t : Tree) (n : Nat) : Nat := t.nodes + 1088 * n
def readNode (v : Via) (t : Tree) (n : Nat) : MM Bytes := MM.read v (nodeAddr t n) 1088
def nHash (b : Bytes) : Nat := fld b 0 8
def nOwn (b : Bytes) : Nat := fld b 8 8
def nParent (b : Bytes) : Nat := fld b 0x10 4
def nNext (b : Bytes) : Nat := fld b 0x14 4
def nChildren (b : Bytes) : Nat := fld b 0x18 4
def nInUse (b : Bytes) : Bool := bit (fld b 0x1C 4) 0
def nKeyed (b : Bytes) : Bool := bit (fld b 0x1C 4) 1
def nLastHit (b : Bytes) : Nat := fld b 0x20 8
def nLeaseUntil (b : Bytes) : Nat := fld b 0x28 8
def nLeases (b : Bytes) : Nat := fld b 0x30 4
def nTokens (b : Bytes) : Bytes := slice b 0x40 1024

/-- The hash of a page's 256 token IDs on its parent's hash (R183). -/
def pageHash (hp : Nat) (toks : Bytes) : Nat :=
  let h := (List.range 256).foldl (fun h j =>
    let h := (h ^^^ fld toks (4 * j) 4) * 0x9E3779B97F4A7C15 % 2 ^ 64
    h ^^^ (h / 2 ^ 29)) hp
  h ^^^ (h / 2 ^ 32)

/-- Follow a bucket chain to a hit (R184), at most as many nodes as the array has. -/
def findHit (v : Via) (t : Tree) (h parent : Nat) (toks : Bytes) : Nat → Nat → MM (Option Nat)
  | 0, _ => pure none
  | k + 1, n => do
    if n = none32 then pure none
    else
      let b ← readNode v t n
      if nKeyed b && nHash b == h && nParent b == parent && nTokens b == toks then pure (some n)
      else findHit v t h parent toks k (nNext b)

def bucketAddr (t : Tree) (h : Nat) : Nat := t.buckets + 4 * (h % max 1 t.nbuckets)
def lookupHash (v : Via) (t : Tree) (h parent : Nat) (toks : Bytes) : MM (Option Nat) := do
  let head ← MM.get v (bucketAddr t h) 4
  findHit v t h parent toks t.nnodes head

def setRefsOf (v : Via) (t : Tree) (n r : Nat) : MM Unit := do
  MM.flush v (nodeAddr t n + 8)
  let own ← MM.get v (nodeAddr t n + 8) 8
  MM.put v (nodeAddr t n + 8) 8 (setRefs own r)
def touch (v : Via) (t : Tree) (n now : Nat) : MM Unit := MM.put v (nodeAddr t n + 0x20) 8 now
def addChildren (v : Via) (t : Tree) (n : Nat) (up : Bool) : MM Unit := do
  if n = none32 then pure ()
  else
    let c ← MM.get v (nodeAddr t n + 0x18) 4
    MM.put v (nodeAddr t n + 0x18) 4 (if up then c + 1 else c - 1)
def ownerOf (v : Via) (t : Tree) (page : Nat) : MM Nat := MM.get v (t.owner + 4 * page) 4
def putOwner (v : Via) (t : Tree) (page n : Nat) : MM Unit := MM.put v (t.owner + 4 * page) 4 n

/-! ### Free pages and nodes -/

def freeCount (v : Via) (c : Bytes) : MM Nat := MM.get v (freeStack c) 8
def pushPage (v : Via) (c : Bytes) (page : Nat) : MM Unit := do
  MM.flush v (freeStack c)
  let n ← freeCount v c
  MM.put v (freeStack c + 8 + 4 * n) 4 page
  MM.put v (freeStack c) 8 (n + 1)
def popFree (v : Via) (c : Bytes) : MM (Option Nat) := do
  MM.flush v (freeStack c)
  let n ← freeCount v c
  if n = 0 then pure none
  else
    let p ← MM.get v (freeStack c + 8 + 4 * (n - 1)) 4
    MM.put v (freeStack c) 8 (n - 1)
    pure (some p)

/-- Take a keyed node out of its bucket chain. -/
def unchain (v : Via) (t : Tree) (n next : Nat) : Nat → Nat → MM Unit
  | 0, _ => pure ()
  | k + 1, at_ => do
    let m ← MM.get v at_ 4
    if m = n then MM.put v at_ 4 next
    else if m = none32 then pure ()
    else unchain v t n next k (nodeAddr t m + 0x14)

/-- Free a node: off its chain, its parent's CHILDREN, the page's OWNER, and onto the free-node chain (R182, R186). -/
def freeNode (v : Via) (c : Bytes) (t : Tree) (n : Nat) : MM Unit := do
  let b ← readNode v t n
  if nKeyed b then
    unchain v t n (nNext b) (t.nnodes + 1) (bucketAddr t (nHash b))
    addChildren v t (nParent b) false
  putOwner v t (ePage (nOwn b)) none32
  let head ← MM.get v (tree c + 0x20) 4
  MM.put v (nodeAddr t n + 0x14) 4 head
  MM.put v (nodeAddr t n + 0x1C) 4 0
  MM.put v (tree c + 0x20) 4 n

/-- A node is idle (R187). -/
def idle (b : Bytes) (now : Nat) : Bool :=
  nInUse b && nKeyed b && eRefs (nOwn b) == 0 && nChildren b == 0 && (nLeases b == 0 || decide (nLeaseUntil b < now))

/-- The idle node with the oldest LAST_HIT, and among equal times the lowest index (R187). -/
def oldestIdle (v : Via) (t : Tree) (now : Nat) : Nat → MM (Option (Nat × Nat))
  | 0 => pure none
  | n + 1 => do
    let best ← oldestIdle v t now n
    let b ← readNode v t n
    if idle b now then
      match best with
      | some (_, h) => pure (if nLastHit b < h then some (n, nLastHit b) else best)
      | none => pure (some (n, nLastHit b))
    else pure best

/-- Free an idle node and its page. -/
def evict (v : Via) (c : Bytes) (t : Tree) (n : Nat) : MM Unit := do
  let b ← readNode v t n
  freeNode v c t n
  pushPage v c (ePage (nOwn b))

/-- While free pages are below LOW_WATER, one idle node is evicted (R187). -/
def evictIfLow (v : Via) (c : Bytes) (now : Nat) : MM Unit := do
  if tree c = 0 then pure ()
  else
    let t ← readTree v c
    let n ← freeCount v c
    if n < t.lowWater then
      match ← oldestIdle v t now t.nnodes with
      | some (k, _) => evict v c t k
      | none => pure ()
    else pure ()

/-- Pop a page, after the eviction that R187 makes before each pop. -/
def popPage (v : Via) (c : Bytes) (now : Nat) : MM (Option Nat) := do
  evictIfLow v c now
  popFree v c

/-- Take a node from the free chain. -/
def takeNode (v : Via) (c : Bytes) (t : Tree) : MM (Option Nat) := do
  let n ← MM.get v (tree c + 0x20) 4
  if n = none32 then pure none
  else
    let nx ← MM.get v (nodeAddr t n + 0x14) 4
    MM.put v (tree c + 0x20) 4 nx
    pure (some n)

/-- Write a node's record: HASH, OWN, PARENT, NEXT, CHILDREN, FLAGS, LAST_HIT, no lease, TOKENS. -/
def writeNode (v : Via) (t : Tree) (n hash own parent next flags now : Nat) (toks : Bytes) : MM Unit :=
  MM.write v (nodeAddr t n) (toLe 8 hash ++ toLe 8 own ++ toLe 4 parent ++ toLe 4 next ++ toLe 4 0 ++ toLe 4 flags ++
    toLe 8 now ++ zeros 24 ++ slice toks 0 1024)

/-- Key node n over a page in the hash table. -/
def keyNode (v : Via) (t : Tree) (n hash own parent now : Nat) (toks : Bytes) : MM Unit := do
  let head ← MM.get v (bucketAddr t hash) 4
  writeNode v t n hash own parent head 3 now toks
  MM.put v (bucketAddr t hash) 4 n
  addChildren v t parent true

/-! ### PREFIX requests (R185, R186) -/

/-- A request record. -/
structure PReq where
  remote : Bool
  op     : Nat
  seq    : Nat
  index  : Nat
  nodeIn : Nat
  endpoint : Nat
  src    : Nat
  rsvOk  : Bool

def parseReq (b : Bytes) : PReq :=
  ⟨bit (fld b 0 1) 7, fld b 0 1 % 128, fld b 2 2, fld b 4 4, fld b 8 4, fld b 0x10 2, fld b 0x12 2,
    allZero (slice b 0x14 12)⟩

/-- The parent of a request: its index and its hash; none when NODE_IN names no keyed node. -/
def parentOf (v : Via) (c : Bytes) (t : Tree) (nodeIn : Nat) : MM (Option (Nat × Nat)) := do
  if nodeIn = none32 then pure (some (none32, salt c))
  else if nodeIn < t.nnodes then
    let b ← readNode v t nodeIn
    pure (if nInUse b && nKeyed b then some (nodeIn, nHash b) else none)
  else pure none

/-- The token IDs of page i of a sequence. -/
def pageTokens (v : Via) (q : Seq) (i : Nat) : MM Bytes := MM.read v (q.tokens + 1024 * i) 1024

/-- Result of an operation: RESULT and NODE_OUT. -/
abbrev PRes := Nat × Option Nat

/-- Release what an entry holds (R186 RELEASE): private pages are pushed; a shared page's node loses a reference, and a
loose node at 0 is freed with its page. -/
def releasePage (v : Via) (c : Bytes) (e : Nat) : MM Unit := do
  if eShared e then
    let t ← readTree v c
    let n ← ownerOf v t (ePage e)
    let b ← readNode v t n
    let r := eRefs (nOwn b) - 1
    setRefsOf v t n r
    if r = 0 && !nKeyed b then evict v c t n else pure ()
  else pushPage v c (ePage e)

/-- LOOKUP, local. -/
def lookup (v : Via) (c : Bytes) (now : Nat) (r : PReq) (nodeIn : Nat) : MM PRes := do
  let q ← readSeq v c r.seq
  if q.entries ≤ r.index || tree c == 0 then pure (3, none)
  else
    let e ← readEntry v q r.index
    let t ← readTree v c
    match ← parentOf v c t nodeIn with
    | none => pure (3, none)
    | some (par, hp) =>
      -- an entry that a FETCH left PENDING holds a page (R188): it is released before it is used again
      if eValid e || ePending e then pure (3, none)
      else
        let toks ← pageTokens v q r.index
        match ← lookupHash v t (pageHash hp toks) par toks with
        | none => pure (1, none)
        | some n =>
          let b ← readNode v t n
          if eRefs (nOwn b) = 65535 then pure (3, none)
          else
            setRefsOf v t n (eRefs (nOwn b) + 1)
            touch v t n now
            putEntry v q r.index (mkEntry true true false false 256 0 (ePage (nOwn b)))
            pure (0, some n)

/-- INSERT, local. -/
def insert (v : Via) (c : Bytes) (now : Nat) (r : PReq) (nodeIn : Nat) : MM PRes := do
  let q ← readSeq v c r.seq
  if q.entries ≤ r.index || tree c == 0 then pure (3, none)
  else
    let e ← readEntry v q r.index
    let t ← readTree v c
    match ← parentOf v c t nodeIn with
    | none => pure (3, none)
    | some (par, hp) =>
      if !eValid e || eRemote e || ePending e || eFill e != 256 then pure (3, none)
      else
        let toks ← pageTokens v q r.index
        let h := pageHash hp toks
        match ← lookupHash v t h par toks with
        | some n =>
          let b ← readNode v t n
          if eRefs (nOwn b) = 65535 then pure (3, none)
          else
            setRefsOf v t n (eRefs (nOwn b) + 1)
            touch v t n now
            putEntry v q r.index (mkEntry true true false false 256 0 (ePage (nOwn b)))
            releasePage v c e
            pure (0, some n)
        | none =>
          if eShared e then
            let n ← ownerOf v t (ePage e)
            let b ← readNode v t n
            if nKeyed b then pure (3, none)
            else
              keyNode v t n h (nOwn b) par now toks
              pure (2, some n)
          else
            match ← takeNode v c t with
            | none => pure (4, none)
            | some n =>
              keyNode v t n h (mkEntry true false false false 256 1 (ePage e)) par now toks
              putOwner v t (ePage e) n
              putEntry v q r.index (mkEntry true true false false 256 0 (ePage e))
              pure (2, some n)

/-- FORK. -/
def fork (v : Via) (c : Bytes) (now : Nat) (r : PReq) : MM PRes := do
  if seqSlots c ≤ r.src || tree c == 0 then pure (3, none)
  else
    let q ← readSeq v c r.seq
    let p ← readSeq v c r.src
    if q.entries ≤ r.index || p.entries ≤ r.index then pure (3, none)
    else
      let e ← readEntry v q r.index
      let se ← readEntry v p r.index
      let t ← readTree v c
      if eValid e || ePending e || !eValid se || eRemote se || ePending se then pure (3, none)
      else
        let node ← (if eShared se then do
            let n ← ownerOf v t (ePage se)
            pure (some n)
          else do
            match ← takeNode v c t with
            | none => pure none
            | some n =>
              writeNode v t n 0 (mkEntry true false false false (eFill se) 1 (ePage se)) none32 none32 1 now []
              putOwner v t (ePage se) n
              putEntry v p r.index (mkEntry true true false false (eFill se) 0 (ePage se))
              pure (some n) : MM (Option Nat))
        match node with
        | none => pure (4, none)
        | some n =>
          let b ← readNode v t n
          if eRefs (nOwn b) = 65535 then pure (3, none)
          else
            setRefsOf v t n (eRefs (nOwn b) + 1)
            touch v t n now
            putEntry v q r.index (mkEntry true true false false (eFill se) 0 (ePage se))
            setLen v c r.seq (max q.len (min p.len (256 * (r.index + 1))))
            pure (0, some n)

/-- RELEASE, of an entry that is not remote; `fetching` tells whether a FETCH runs on it. -/
def release (v : Via) (c : Bytes) (r : PReq) (fetching : Bool) : MM PRes := do
  let q ← readSeq v c r.seq
  if q.entries ≤ r.index then pure (3, none)
  else
    let e ← readEntry v q r.index
    if ePending e && fetching then pure (3, none)
    else if !eValid e && !ePending e then pure (3, none)
    else
      if ePending e then pushPage v c (ePage e)
      else if eRemote e then pure ()
      else releasePage v c e
      putEntry v q r.index 0
      setLen v c r.seq (min q.len (256 * r.index))
      pure (0, none)

/-- EVICT. -/
def evictReq (v : Via) (c : Bytes) (now : Nat) (r : PReq) : MM PRes := do
  if tree c = 0 then pure (3, none)
  else
    let t ← readTree v c
    if r.nodeIn = none32 then
      match ← oldestIdle v t now t.nnodes with
      | none => pure (3, none)
      | some (n, _) =>
        evict v c t n
        pure (0, some n)
    else if t.nnodes ≤ r.nodeIn then pure (3, none)
    else
      let b ← readNode v t r.nodeIn
      if idle b now then
        evict v c t r.nodeIn
        pure (0, some r.nodeIn)
      else pure (3, none)

/-! ### The page walker (R174 to R176) -/

/-- The address is paged. -/
def isPaged (a : Nat) : Bool := a / 2 ^ 56 == 0xFE
/-- The address is remote (spec/14_twisil_fabric.md R335). -/
def isRemote (a : Nat) : Bool := a / 2 ^ 56 == 0xFD

/-- What the walker answers for a paged step. -/
inductive Walk where
  /-- beyond LEN: a null tile -/
  | null
  /-- logical address and valid tokens of the tile, and whether the plane holds values -/
  | at (a : Nat) (tokens : Nat) (value : Bool)
  /-- 0x0209 with V -/
  | unmapped (v : Nat)
  deriving DecidableEq, Repr

/-- Translate a paged address for a step of the given footprint. -/
def walk (v : Via) (c : Bytes) (a footprint : Nat) : MM Walk := do
  let sq := field a 55 40
  let vo := field a 39 0
  let i := vo / max 1 (pageBytes c)
  let o := vo % max 1 (pageBytes c)
  let p := o / max 1 (planeBytes c)
  let inPlane := o % max 1 (planeBytes c)
  let x := inPlane / tileBytes c
  let tt := x / max 1 (dt c)
  let s0 := 256 * i + 32 * tt
  if inPlane % tileBytes c ≠ 0 || decide (seqSlots c ≤ sq) then pure (.unmapped vo)
  else
    let q ← readSeq v c sq
    if q.len ≤ s0 then pure .null
    else if q.entries ≤ i then pure (.unmapped vo)
    else
      let e ← readEntry v q i
      if eValid e && !eRemote e && !ePending e && decide (o + footprint ≤ pageBytes c) then
        pure (.at (poolBase c + ePage e * pageBytes c + o) (min 32 (q.len - s0)) (p % 2 == 1))
      else pure (.unmapped vo)

end CacheOps
end Machine
end Sys2Proof
end

