-- ==== Sys2Proof/Machine/Fn.lean ====
section
/-! DEFINITION. exp2, log2, the words of VEC and the composed functions
(spec/07_exp2_log2_and_composed_functions.md). -/

namespace Sys2Proof
namespace Machine
namespace Fn

open Bits

/-- T[j], the FP32 value nearest to 2^(j/64) (R156). -/
def tableT : List Nat :=
  [0x3F800000, 0x3F8164D2, 0x3F82CD87, 0x3F843A29, 0x3F85AAC3, 0x3F871F62, 0x3F88980F, 0x3F8A14D5] ++
  [0x3F8B95C2, 0x3F8D1ADF, 0x3F8EA43A, 0x3F9031DC, 0x3F91C3D3, 0x3F935A2B, 0x3F94F4F0, 0x3F96942D] ++
  [0x3F9837F0, 0x3F99E046, 0x3F9B8D3A, 0x3F9D3EDA, 0x3F9EF532, 0x3FA0B051, 0x3FA27043, 0x3FA43516] ++
  [0x3FA5FED7, 0x3FA7CD94, 0x3FA9A15B, 0x3FAB7A3A, 0x3FAD583F, 0x3FAF3B79, 0x3FB123F6, 0x3FB311C4] ++
  [0x3FB504F3, 0x3FB6FD92, 0x3FB8FBAF, 0x3FBAFF5B, 0x3FBD08A4, 0x3FBF179A, 0x3FC12C4D, 0x3FC346CD] ++
  [0x3FC5672A, 0x3FC78D75, 0x3FC9B9BE, 0x3FCBEC15, 0x3FCE248C, 0x3FD06334, 0x3FD2A81E, 0x3FD4F35B] ++
  [0x3FD744FD, 0x3FD99D16, 0x3FDBFBB8, 0x3FDE60F5, 0x3FE0CCDF, 0x3FE33F89, 0x3FE5B907, 0x3FE8396A] ++
  [0x3FEAC0C7, 0x3FED4F30, 0x3FEFE4BA, 0x3FF28177, 0x3FF5257D, 0x3FF7D0DF, 0x3FFA83B3, 0x3FFD3E0C]

/-- L[j], nearest to log2(1 + j/64) (R156). -/
def tableL : List Nat :=
  [0x00000000, 0x3CB73CB4, 0x3D35D69C, 0x3D8759C5, 0x3DB31FB8, 0x3DDE4212, 0x3E0462C4, 0x3E19574F] ++
  [0x3E2E00D2, 0x3E42615F, 0x3E567AF1, 0x3E6A4F72, 0x3E7DE0B6, 0x3E88983F, 0x3E92203D, 0x3E9B8926] ++
  [0x3EA4D3C2, 0x3EAE00D2, 0x3EB7110E, 0x3EC0052B, 0x3EC8DDD4, 0x3ED19BB0, 0x3EDA3F60, 0x3EE2C97D] ++
  [0x3EEB3A9F, 0x3EF39355, 0x3EFBD42B, 0x3F01FED4, 0x3F060828, 0x3F0A0650, 0x3F0DF989, 0x3F11E20F] ++
  [0x3F15C01A, 0x3F1993E3, 0x3F1D5DA0, 0x3F211D84, 0x3F24D3C2, 0x3F28808C, 0x3F2C2411, 0x3F2FBE80] ++
  [0x3F335004, 0x3F36D8CB, 0x3F3A58FF, 0x3F3DD0C8, 0x3F41404F, 0x3F44A7BA, 0x3F480731, 0x3F4B5ED7] ++
  [0x3F4EAED0, 0x3F51F740, 0x3F553848, 0x3F587209, 0x3F5BA4A4, 0x3F5ED039, 0x3F61F4E5, 0x3F6512C7] ++
  [0x3F6829FB, 0x3F6B3A9F, 0x3F6E44CD, 0x3F7148A1, 0x3F744636, 0x3F773DA4, 0x3F7A2F04, 0x3F7D1A71]

/-- RC[j], nearest to 1/(1 + j/64) (R156). -/
def tableRC : List Nat :=
  [0x3F800000, 0x3F7C0FC1, 0x3F783E10, 0x3F74898D, 0x3F70F0F1, 0x3F6D7304, 0x3F6A0EA1, 0x3F66C2B4] ++
  [0x3F638E39, 0x3F607038, 0x3F5D67C9, 0x3F5A740E, 0x3F579436, 0x3F54C77B, 0x3F520D21, 0x3F4F6475] ++
  [0x3F4CCCCD, 0x3F4A4588, 0x3F47CE0C, 0x3F4565C8, 0x3F430C31, 0x3F40C0C1, 0x3F3E82FA, 0x3F3C5264] ++
  [0x3F3A2E8C, 0x3F381703, 0x3F360B61, 0x3F340B41, 0x3F321643, 0x3F302C0B, 0x3F2E4C41, 0x3F2C7692] ++
  [0x3F2AAAAB, 0x3F28E83F, 0x3F272F05, 0x3F257EB5, 0x3F23D70A, 0x3F2237C3, 0x3F20A0A1, 0x3F1F1166] ++
  [0x3F1D89D9, 0x3F1C09C1, 0x3F1A90E8, 0x3F191F1A, 0x3F17B426, 0x3F164FDA, 0x3F14F209, 0x3F139A86] ++
  [0x3F124925, 0x3F10FDBC, 0x3F0FB824, 0x3F0E7835, 0x3F0D3DCB, 0x3F0C08C1, 0x3F0AD8F3, 0x3F09AE41] ++
  [0x3F088889, 0x3F0767AB, 0x3F064B8A, 0x3F053408, 0x3F042108, 0x3F03126F, 0x3F020821, 0x3F010204]

def one : Val := Num.ofNat 1
/-- The result of exp2 times 2^n, rounded (R154). -/
def scale2 (v : Val) (n : Int) : NumM Val :=
  match v with
  | .fin s m e => Num.round s m (e + n)
  | v => pure v

/-- exp2 (R154). -/
def exp2 (x : Val) : NumM Val := do
  Num.energy 400
  match x with
  | .nan => pure .nan
  | .inf n => pure (if n then Num.zero false else .inf false)
  | .fin n m e =>
    if !n && Num.lt (.fin false 127 0) (.fin n m e) && !Num.lt (.fin n m e) (.fin false 128 0) then
      Num.sat 1
      pure (.inf false)
    else if Num.lt (.fin n m e) (.fin true 127 0) then
      Num.flush 1
      pure (Num.zero false)
    else
      let t := Val.fin n m (e + 6)
      -- floor of t
      let q : Nat := if 0 ≤ e + 6 then m * 2 ^ (e + 6).toNat else m / 2 ^ (-(e + 6)).toNat
      let exact := if 0 ≤ e + 6 then true else m % 2 ^ (-(e + 6)).toNat == 0
      let k : Int := if n then (if exact then -(q : Int) else -(q : Int) - 1) else q
      let j := (k % 64).toNat
      let p2 : Int := (k - j) / 64
      let kv := Val.fin (k < 0) k.natAbs 0
      let d ← Num.sub t kv
      let r ← Num.mul d (Num.ofBits 0x3C800000)
      let p ← Num.mul r (Num.ofBits 0x3D635847)
      let p ← Num.add (Num.ofBits 0x3E75FDF0) p
      let p ← Num.mul r p
      let p ← Num.add (Num.ofBits 0x3F317218) p
      let p ← Num.mul r p
      let p ← Num.add one p
      let y ← Num.mul (Num.ofBits (tableT.getD j 0)) p
      scale2 y p2

/-- log2 (R155). -/
def log2 (x : Val) : NumM Val := do
  Num.energy 400
  match x with
  | .nan => pure .nan
  | .inf n => pure (if n then .nan else .inf false)
  | .fin n m e =>
    if m = 0 then pure (.inf true)
    else if n then pure .nan
    else
      let b := Num.bits m
      let ex : Int := b + e - 1
      -- 24 significant bits of m
      let f := if b ≤ 24 then m * 2 ^ (24 - b) else m / 2 ^ (b - 24)
      let mv := Val.fin false f (-23)
      let j := field f 22 17
      let c := Val.fin false (64 + j) (-6)
      let d ← Num.sub mv c
      let s ← Num.mul d (Num.ofBits (tableRC.getD j 0))
      let q ← Num.mul s (Num.ofBits 0x3EF6384F)
      let q ← Num.add (Num.ofBits 0xBF38AA3B) q
      let q ← Num.mul s q
      let q ← Num.add (Num.ofBits 0x3FB8AA3B) q
      let q ← Num.mul s q
      let l ← Num.add (Num.ofBits (tableL.getD j 0)) q
      Num.add (Val.fin (ex < 0) ex.natAbs 0) l

/-! ### Composed functions (R165), each the words of its sequence -/

def c (b : Nat) : Val := Num.ofBits b

/-- logistic. -/
def logistic (x : Val) : NumM Val := do
  let v ← Num.mul x (c 0xBFB8AA3B)
  let v ← exp2 v
  let v ← Num.add v one
  let v ← log2 v
  exp2 (Num.neg v)
/-- tanh. -/
def tanh (x : Val) : NumM Val := do
  let v ← Num.mul (Num.abs x) (c 0x4038AA3B)
  let v ← exp2 v
  let v ← Num.add v one
  let v ← log2 v
  let v ← exp2 (Num.neg v)
  let v ← Num.mul v (c 0xC0000000)
  let v ← Num.add v one
  pure (if Num.isNaN v then .nan else Num.copysign v x)
/-- SiLU. -/
def silu (x : Val) : NumM Val := do
  let x := Num.max x (c 0xFF7FFFFF)
  let v ← logistic x
  Num.mul x v
/-- GELU. -/
def gelu (x : Val) : NumM Val := do
  let x := Num.max x (c 0xFF7FFFFF)
  let v ← Num.mul x x
  let v ← Num.mul v (c 0x3D3726FE)
  let v ← Num.add v one
  let v ← Num.mul v x
  let v ← Num.mul v (c 0xC0135761)
  let v ← exp2 v
  let v ← Num.add v one
  let v ← log2 v
  let v ← exp2 (Num.neg v)
  Num.mul x v
/-- Function codes of spec/06_epilogues_and_row_statistics.md R136. -/
def apply (code : Nat) (x : Val) : NumM Val :=
  if code = 0 then pure x
  else if code = 1 then pure (Num.max x (Num.zero false))
  else if code = 2 then tanh x
  else if code = 3 then logistic x
  else if code = 4 then gelu x
  else silu x
/-- Weights of R136, with the counts of R165. -/
def weight (code : Nat) : Nat :=
  if code = 0 then 0 else if code = 1 then 1 else if code = 2 then 31 else if code = 3 then 27 else if code = 4 then 33 else 29

/-! ### VEC words (R158 to R162) -/

/-- Fields of a sequence word (R159). -/
def imm (w : Nat) : Nat := field w 63 32
def opc (w : Nat) : Nat := field w 31 24
def dst (w : Nat) : Nat := field w 23 20
def sa (w : Nat) : Nat := field w 19 16
def sb (w : Nat) : Nat := field w 15 12
def sc (w : Nat) : Nat := field w 11 8
def aux (w : Nat) : Nat := field w 3 0
/-- How many sources an operation uses. -/
def arity (o : Nat) : Nat :=
  if o = 0 then 0 else if o = 4 then 3 else if [1, 2, 3, 5, 6, 12].contains o then 2 else 1
def isUnit (o : Nat) : Bool := o == 9 || o == 10

/-- The result of one word on its sources (R160). -/
def op (o : Nat) (a b d : Val) : NumM Val :=
  if o = 1 then Num.add a b
  else if o = 2 then Num.sub a b
  else if o = 3 then Num.mul a b
  else if o = 4 then Num.fma a b d
  else if o = 5 then pure (Num.max a b)
  else if o = 6 then pure (Num.min a b)
  else if o = 7 then pure (Num.abs a)
  else if o = 8 then pure (Num.neg a)
  else if o = 9 then exp2 a
  else if o = 10 then log2 a
  else if o = 12 then pure (if Num.isNaN a then .nan else Num.copysign a b)
  else pure a

/-- Run the words of a sequence on the eight registers of a lane; src gives the sources 0x8 to 0xE. A CVT word's source
is the result. -/
def runWords (src : Nat → Nat → Val) : List Nat → List Val → NumM Val
  | [], v => pure (v.getD 0 (Num.zero false))
  | w :: r, v => do
    Num.energy 200
    let rd := fun i => if i < 8 then v.getD i (Num.zero false) else src i w
    if opc w = 11 then pure (rd (sa w))
    else if opc w = 0 then runWords src r v
    else
      let x ← op (opc w) (rd (sa w)) (rd (sb w)) (rd (sc w))
      runWords src r (v.set (dst w) x)

end Fn
end Machine
end Sys2Proof
end

