-- ==== Sys2Proof/Machine/Prog.lean ====
section
/-! DEFINITION. Reading a job's validated copies: job descriptor, station descriptors, loop table, iteration positions
and orders (spec/02_streams_and_stations.md, spec/05_loop_tables_and_fusion.md). -/

namespace Sys2Proof
namespace Machine

/-! ### Job descriptor (spec/15_host_and_mailboxes.md R364, R365) -/

namespace JDesc

open Bits

def program (b : Bytes) : Nat := fld b 0 8
def loopTable (b : Bytes) : Nat := fld b 8 8
def events (b : Bytes) : Nat := fld b 0x10 8
def completion (b : Bytes) : Nat := fld b 0x18 8
def numeric (b : Bytes) : Nat := fld b 0x20 8
def cacheDesc (b : Bytes) : Nat := fld b 0x28 8
def loopSeq (b : Bytes) : Nat := fld b 0x30 8
def context (b : Bytes) : Nat := fld b 0x38 8
def laneSeed (b : Bytes) : Nat := fld b 0x40 8
def keySeed (b : Bytes) : Nat := fld b 0x48 8
def shape (b : Bytes) (d : Nat) : Nat := fld b (0x50 + 4 * d) 4
def placement (b : Bytes) : Nat := fld b 0x70 4
def cost (b : Bytes) : Nat := fld b 0x74 4
def user (b : Bytes) : Bytes := slice b 0x78 8
def espalier (b : Bytes) : Bool := bit (placement b) 0
def gr (b : Bytes) : Nat := field (placement b) 15 8
def gc (b : Bytes) : Nat := field (placement b) 23 16
def countFree (b : Bytes) : Bool := bit (placement b) 24
/-- PERIODS of a blitz job's COST (spec/16_scheduling_and_budgets.md R386). -/
def periods (b : Bytes) : Nat := field (cost b) 31 16

end JDesc

/-! ### Station descriptors (R27) -/

namespace Desc

open Bits

def station (d : Bytes) : Nat := fld d 0 1
def flags (d : Bytes) : Nat := fld d 1 1
def last (d : Bytes) : Bool := bit (flags d) 7
def signal (d : Bytes) : Bool := bit (flags d) 6
def wait (d : Bytes) : Bool := bit (flags d) 5
def outLevel (d : Bytes) : Nat := field (fld d 2 1) 6 4
def level (d : Bytes) : Nat := field (fld d 2 1) 2 0
def inA (d : Bytes) : Nat := fld d 4 1
def inB (d : Bytes) : Nat := fld d 5 1
def inC (d : Bytes) : Nat := fld d 6 1
def out (d : Bytes) : Nat := fld d 7 1
def evtId (d : Bytes) : Nat := field (fld d 8 2) 11 0
def evtCount (d : Bytes) : Nat := fld d 0x0C 4
def rows (d : Bytes) : Nat := field (fld d 0x10 4) 24 0
def cols (d : Bytes) : Nat := fld d 0x14 2
def fmtIn (d : Bytes) : Nat := fld d 0x16 1
def fmtOut (d : Bytes) : Nat := fld d 0x17 1
def op (d : Bytes) : Nat := fld d 0x18 2

def isSlot (r : Nat) : Bool := decide (r < 64)
def isRegion (r : Nat) : Bool := decide (0x80 ≤ r) && decide (r < 0xC0)
def none8 : Nat := 0xFF

def load : Nat := 1
def mat : Nat := 2
def vec : Nat := 3
def fn : Nat := 4
def red : Nat := 5
def store : Nat := 6
def scat : Nat := 7
def epi : Nat := 8
def isCell (d : Bytes) : Bool := decide (1 ≤ station d) && decide (station d ≤ 8)
def isHub (d : Bytes) : Bool := decide (0x10 ≤ station d)
/-- A descriptor that issues tile steps. -/
def steps (d : Bytes) : Bool := decide (1 ≤ station d) && decide (station d ≤ 7)

/-- LEVEL and OUT_LEVEL as loop depths: 7 counts as 6. -/
def lv (d : Bytes) : Nat := min 6 (level d)
def olv (d : Bytes) : Nat := min 6 (outLevel d)

/-- Operand area of LOAD and STORE (R31). -/
def base (d : Bytes) : Nat := fld d 0x20 8
def pitch (d : Bytes) : Nat := fld d 0x28 4
def space (d : Bytes) : Nat := fld d 0x2C 1
def seals (d : Bytes) : Bool := bit (fld d 0x2D 1) 0
def addrSel (d : Bytes) : Nat := field (fld d 0x2E 1) 3 0
/-- Operand area of MAT (spec/03_espalier_array.md R61). -/
def chainLen (d : Bytes) : Nat := field (fld d 0x20 2) 11 0
def wFmt (d : Bytes) : Nat := if fld d 0x22 1 = 0 then fmtIn d else fld d 0x22 1
def expand (d : Bytes) : Nat := field (fld d 0x23 1) 1 0
def tableNo (d : Bytes) : Nat := fld d 0x24 1
/-- A table write (spec/04_number_formats.md R88). -/
def tableWrite (d : Bytes) : Bool := station d == load && op d / 256 == 1
def twBank (d : Bytes) : Nat := field (op d) 4 4
def twTable (d : Bytes) : Nat := field (op d) 3 0
/-- Operand area of VEC (spec/07_exp2_log2_and_composed_functions.md R158). -/
def seqAddr (d : Bytes) : Nat := fld d 0x20 8
def seqLen (d : Bytes) : Nat := fld d 0x28 2
def stats (d : Bytes) : Bool := station d == vec && bit (op d) 0
/-- Operand area of SCAT (spec/08_attention_and_paged_cache.md R178). -/
def plane (d : Bytes) : Nat := fld d 0x20 4
def advance (d : Bytes) : Bool := bit (fld d 0x24 1) 1
def alloc (d : Bytes) : Bool := bit (fld d 0x24 1) 0

/-- Stage entry i of an epilogue descriptor (spec/06_epilogues_and_row_statistics.md R134). -/
def stage (d : Bytes) (i : Nat) : Nat := fld d (0x20 + 5 * i) 5
def nStage (d : Bytes) : Nat := fld d 0x3E 1
def stageList (d : Bytes) : List Nat := (List.range (min 6 (nStage d))).map (stage d)
def sKind (w : Nat) : Nat := field w 3 0
def sIfmt (w : Nat) : Nat := field w 7 4
def sArg (w : Nat) : Nat := field w 39 8
/-- Weight of a stage (R135); block tells whether FMT_OUT is block-scaled. -/
def sWeight (block : Bool) (w : Nat) : Nat :=
  let a := sArg w
  match sKind w with
  | 1 => 1
  | 2 => 1 + Fn.weight (field a 15 8)
  | 3 => 1
  | 4 => Fn.weight (a % 256)
  | 5 => 1
  | 6 => if block then 2 else 1
  | 7 => 3
  | 8 => 12
  | _ => 0

/-- Words of a VEC sequence. -/
def words (seq : Bytes) (n : Nat) : List Nat := (List.range n).map fun i => fld seq (8 * i) 8

end Desc

/-! ### Loop table (R106 to R111) -/

namespace Tab

open Bits

def size : Nat := 1696
def chains (t : Bytes) : Nat := fld t 2 2
def wcOffset (t : Bytes) : Nat := fld t 4 4
def psSize (t : Bytes) : Nat := fld t 8 4
def p0Dim (t : Bytes) : Nat := fld t 0x0C 1
def p1Dim (t : Bytes) : Nat := fld t 0x0D 1
def p0Stride (t : Bytes) : Nat := fld t 0x10 4
def p1Stride (t : Bytes) : Nat := fld t 0x14 4
def extent (t : Bytes) (d : Nat) : Nat := fld t (0x20 + 4 * d) 4
def extents (t : Bytes) : List Nat := (List.range 8).map (extent t)
def bound (t : Bytes) (l : Nat) : Nat := if l < 6 then fld t (0x40 + 16 * l) 4 else 1
def stride (t : Bytes) (l : Nat) : Nat := fld t (0x44 + 16 * l) 4
def dim (t : Bytes) (l : Nat) : Nat := fld t (0x48 + 16 * l) 1
def order (t : Bytes) (l : Nat) : Nat := fld t (0x49 + 16 * l) 1
def source (t : Bytes) (l : Nat) : Nat := fld t (0x4A + 16 * l) 1
def coef (t : Bytes) (x l : Nat) : Int := sext 48 (fld t (0xA0 + 64 * x + 6 * l) 6)
def coefP0 (t : Bytes) (x : Nat) : Int := sext 48 (fld t (0xC4 + 64 * x) 6)
def coefP1 (t : Bytes) (x : Nat) : Int := sext 48 (fld t (0xCA + 64 * x) 6)
def rowDim (t : Bytes) (x : Nat) : Nat := fld t (0xD0 + 64 * x) 1
def colDim (t : Bytes) (x : Nat) : Nat := fld t (0xD1 + 64 * x) 1
def region (t : Bytes) (n : Nat) : Nat := fld t (0x4A0 + 8 * n) 8
def rooted (t : Bytes) (n : Nat) : Bool := bit (region t n) 56
def regExpr (t : Bytes) (n : Nat) : Nat := field (region t n) 55 52
def regSize (t : Bytes) (n : Nat) : Nat := field (region t n) 51 32
def regOffset (t : Bytes) (n : Nat) : Nat := field (region t n) 19 0

/-- The table that LOOP_TABLE 0 stands for (R106). -/
def defaultTable : Bytes :=
  let level : Bytes := toLe 4 1 ++ toLe 4 1 ++ [0xFF#8] ++ zeros 7
  let expr : Bytes := zeros 48 ++ [0xFF#8, 0xFF#8] ++ zeros 14
  zeros 12 ++ [0xFF#8, 0xFF#8] ++ zeros 18 ++ zeros 32 ++
    level ++ level ++ level ++ level ++ level ++ level ++
    (List.range 16).flatMap (fun _ => expr) ++ zeros 512

/-- The level with SOURCE 1, if there is one (R128). -/
def claimLevel (t : Bytes) : Option Nat := (List.range 6).find? fun l => source t l == 1
/-- Product of the bounds of levels lo to hi - 1. -/
def prod (t : Bytes) (lo hi : Nat) : Nat := ((List.range hi).filter (lo ≤ ·)).foldl (fun p l => p * bound t l) 1

end Tab

/-! ### Iterations of a descriptor -/

namespace Job

open Bits

def descAt (j : Job) (d : Nat) : Bytes := j.prog.getD d []
def espalier (j : Job) : Bool := JDesc.espalier j.desc
/-- Cells of the placement. -/
def ncells (j : Job) : Nat :=
  match j.place with
  | none => 0
  | some p => if p.esp then 3072 else p.gr * p.gc
/-- Chain position to logical cell, and back (spec/03_espalier_array.md R51). -/
def lidOfChain (p : Nat) : Nat := 64 * (p / 64) + (if p / 64 % 2 = 0 then p % 64 else 63 - p % 64)
/-- Logical cell of cell g: g is the chain position in espalier, GC x grow + gcol in a group. -/
def lid (j : Job) (g : Nat) : Nat :=
  match j.place with
  | none => 0xFFFF
  | some p => if p.esp then lidOfChain g else 64 * (p.row0 + g / max 1 p.gc) + p.col0 + g % max 1 p.gc
/-- Plot of a logical cell (spec/00_scope.md R8). -/
def plotOf (lid : Nat) : Nat := 4 * (lid / 64 / 16) + lid % 64 / 16
def plot (j : Job) (g : Nat) : Nat := plotOf (j.lid g)
def lids (j : Job) : List Nat := (List.range j.ncells).map j.lid
/-- Plots that hold a cell of the job. -/
def plotsOf (j : Job) : List Nat := (List.range 12).filter fun p => j.lids.any fun l => plotOf l == p

/-- Tile steps of one execution of a descriptor: a MAT streams 32 rows a step (R33). -/
def perExec (j : Job) (d : Nat) : Nat :=
  let x := j.descAt d
  if Desc.station x = Desc.mat then ceilDiv (Desc.rows x) 32 else 1

/-- Iterations of the levels from lo to 5 (lo 6: one), for a cell that has accepted the values vals. -/
def iters (j : Job) (vals : Nat) (lo : Nat) : Nat :=
  match Tab.claimLevel j.table with
  | some c => if lo ≤ c then vals * Tab.prod j.table lo c else Tab.prod j.table lo 6
  | none => Tab.prod j.table lo 6
/-- Tile steps of descriptor d at a cell in one iteration of the job. -/
def total (j : Job) (c : CellRun) (d : Nat) : Nat := j.iters c.vals.length (Desc.lv (j.descAt d)) * j.perExec d
/-- Whether that number is final: the claimed level has ended for the cell. -/
def settled (j : Job) (c : CellRun) (d : Nat) : Bool :=
  match Tab.claimLevel j.table with
  | some k => c.ended || decide (k < Desc.lv (j.descAt d))
  | none => true

def digits (j : Job) (claim : Option Nat) : Nat → Nat → Nat → List Nat
  | 0, _, _ => []
  | k + 1, l, n =>
    let b := max 1 (Tab.bound j.table l)
    if claim = some l then n :: List.replicate k 0
    else n % b :: digits j claim k (l + 1) (n / b)
/-- Loop counters 0 to 5 of execution n of a descriptor of level lo; those below lo are 0. -/
def counters (j : Job) (lo n : Nat) : List Nat :=
  List.replicate lo 0 ++ digits j (Tab.claimLevel j.table) (6 - lo) lo n
/-- Execution number of a step and its step within the execution. -/
def execOf (j : Job) (d n : Nat) : Nat := n / max 1 (j.perExec d)
def partOf (j : Job) (d n : Nat) : Nat := n % max 1 (j.perExec d)
/-- Counters of step n of descriptor d. -/
def at_ (j : Job) (d n : Nat) : List Nat := j.counters (Desc.lv (j.descAt d)) (j.execOf d n)

/-- The value of level l (R112). -/
def valueAt (j : Job) (c : CellRun) (cs : List Nat) (l : Nat) : Nat :=
  let k := cs.getD l 0
  if Tab.source j.table l = 1 then c.vals.getD k 0
  else
    let o := Tab.order j.table l
    if o = 1 ∨ (o = 2 ∧ l < 5 ∧ cs.getD (l + 1) 0 % 2 = 1) then Tab.bound j.table l - 1 - k else k

/-- The first MAT descriptor's chain length; 1 where there is none (R55). -/
def firstChain (j : Job) : Nat :=
  match j.prog.find? fun x => Desc.station x == Desc.mat with
  | some x => max 1 (Desc.chainLen x)
  | none => 1
/-- Chain length that descriptor d uses. -/
def chainOf (j : Job) (d : Nat) : Nat :=
  let x := j.descAt d
  if Desc.station x = Desc.mat then max 1 (Desc.chainLen x) else j.firstChain
/-- Placement identity (p0, p1) that descriptor d sees at cell g (R112). -/
def ident (j : Job) (d g : Nat) : Nat × Nat :=
  if j.espalier then (g / j.chainOf d, g % j.chainOf d)
  else
    let gc := match j.place with
      | some p => max 1 p.gc
      | none => 1
    (g / gc, g % gc)

/-- off of expression x for step n of descriptor d at cell g, in int64 (R113). -/
def offset (j : Job) (c : CellRun) (g d n x : Nat) : Int :=
  let cs := j.at_ d n
  let (p0, p1) := j.ident d g
  let lo := Desc.lv (j.descAt d)
  let s := ((List.range 6).filter (lo ≤ ·)).foldl
    (fun (s : Int) l => s + Tab.coef j.table x l * (j.valueAt c cs l : Int)) 0
  sext 64 (wrap 64 (s + Tab.coefP0 j.table x * (p0 : Int) + Tab.coefP1 j.table x * (p1 : Int)))

/-- start(dim) (R114). -/
def start (j : Job) (c : CellRun) (g d n dim : Nat) : Nat :=
  if dim = 0xFF then 0 else
  let cs := j.at_ d n
  let (p0, p1) := j.ident d g
  let lo := Desc.lv (j.descAt d)
  ((List.range 6).filter fun l => decide (lo ≤ l) && Tab.dim j.table l == dim).foldl
      (fun s l => s + j.valueAt c cs l * Tab.stride j.table l) 0 +
    (if Tab.p0Dim j.table = dim then p0 * Tab.p0Stride j.table else 0) +
    (if Tab.p1Dim j.table = dim then p1 * Tab.p1Stride j.table else 0)
/-- Valid count of an axis of extent n clipped by dim, at a further start of more (R114). -/
def clip (j : Job) (c : CellRun) (g d n dim ext more : Nat) : Nat :=
  if dim = 0xFF then ext else min ext (JDesc.shape j.desc dim - (j.start c g d n dim + more))
/-- Coordinates of a tile that expression x clips (spec/09_randomness_and_sampling.md R200). -/
def coord (j : Job) (c : CellRun) (g d n x more : Nat) : Coord :=
  let rd := Tab.rowDim j.table x
  ⟨(List.range 8).map fun k => j.start c g d n k + (if rd = k then more else 0), rd, Tab.colDim j.table x⟩

/-! ### Accumulation, producers and consumers -/

/-- Step n begins, or ends, an accumulation: every level from LEVEL to OUT_LEVEL - 1 is at its first, or last, counter
(R28). -/
def begins (j : Job) (d n : Nat) : Bool :=
  let x := j.descAt d
  let cs := j.at_ d n
  ((List.range (Desc.olv x)).filter (Desc.lv x ≤ ·)).all fun l => cs.getD l 0 == 0
def ends (j : Job) (d n : Nat) : Bool :=
  let x := j.descAt d
  let cs := j.at_ d n
  ((List.range (Desc.olv x)).filter (Desc.lv x ≤ ·)).all fun l => cs.getD l 0 + 1 == Tab.bound j.table l

/-- The epilogue descriptor of MAT d (R34). -/
def epiOf (j : Job) (d : Nat) : Option Nat :=
  if Desc.station (j.descAt d) = Desc.mat ∧ Desc.station (j.descAt (d + 1)) = Desc.epi then some (d + 1) else none
/-- Operand bytes of a descriptor that are inputs. -/
def inputs (x : Bytes) : List Nat := [Desc.inA x, Desc.inB x, Desc.inC x].filter (· != 0xFF)
/-- Inputs that step n of descriptor d reads: a MAT step that ends an accumulation reads its epilogue's too (R38). -/
def stepInputs (j : Job) (d n : Nat) : List Nat :=
  let own := inputs (j.descAt d)
  match j.epiOf d with
  | some e => if j.ends d n then own ++ inputs (j.descAt e) else own
  | none => own
/-- The slots that step n of descriptor d counts a completion of: once for each descriptor that names the slot (R38). -/
def stepTakes (j : Job) (d n : Nat) : List Nat :=
  let one := fun x => ((inputs x).filter Desc.isSlot).eraseDups
  one (j.descAt d) ++ match j.epiOf d with
    | some e => if j.ends d n then one (j.descAt e) else []
    | none => []
/-- The descriptor that names r as output; an epilogue's OUT counts for its MAT's step. -/
def producer (j : Job) (r : Nat) : Option Nat :=
  (List.range j.prog.length).find? fun d => Desc.isCell (j.descAt d) && Desc.out (j.descAt d) == r
/-- Consumers of slot r and how often each reads it for one fill (R38). -/
def fillCount (j : Job) (r : Nat) : Nat :=
  match j.producer r with
  | none => 0
  | some p =>
    let top := Desc.olv (j.descAt p)
    ((List.range j.prog.length).filter fun d => Desc.isCell (j.descAt d)).foldl (fun s d =>
      let x := j.descAt d
      let lo := if Desc.station x = Desc.epi then Desc.olv x else Desc.lv x
      let k := (inputs x).countP (· == r)
      s + (if k = 0 then 0 else Tab.prod j.table lo top)) 0

/-- Softmax or row-statistics stage of a descriptor's epilogue: its ROW_LEVEL as a loop depth, and HOLD. -/
def rowStage (j : Job) (d kind : Nat) : Option (Nat × Nat) :=
  match j.epiOf d with
  | none => none
  | some e => (Desc.stageList (j.descAt e)).findSome? fun w =>
      if Desc.sKind w = kind then some (min 6 (field (Desc.sArg w) 2 0), field (Desc.sArg w) 15 8) else none
/-- Depth at which descriptor d counts as accessing region r (R40 condition 2, R125, R148, R151): its LEVEL; OUT_LEVEL for
what a MAT, RED or epilogue writes or reads once an accumulation; ROW_LEVEL for a row that stays resident. -/
def accessLevel (j : Job) (d r : Nat) (write : Bool) : Nat :=
  let x := j.descAt d
  if Desc.station x = Desc.epi then
    (if write then Desc.olv x else Desc.olv x)
  else if write && (Desc.station x == Desc.mat || Desc.station x == Desc.red) then
    match j.rowStage d 8 with
    | some (rl, _) => rl
    | none => match j.rowStage d 7 with
      | some (rl, h) => if h = r then rl else Desc.olv x
      | none => Desc.olv x
  else Desc.lv x

/-- d stands before the first descriptor of LEVEL 0 to 5 (R41). In a program that has none, every descriptor counts as
standing before the loops; the spec is silent (DESIGN CHOICE, log 45). -/
def beforeLoops (j : Job) (d : Nat) : Bool :=
  match (List.range j.prog.length).find? fun k => decide (Desc.level (j.descAt k) ≤ 5) with
  | some k => decide (d < k)
  | none => true
/-- Iteration position of step n of descriptor d, outermost counter first (R41): counters below its LEVEL are at their
last values. -/
def position (j : Job) (d n : Nat) : List Nat :=
  let lo := Desc.lv (j.descAt d)
  let cs := j.at_ d n
  let full := (List.range 6).map fun l =>
    if lo ≤ l then cs.getD l 0 else if lo = 6 ∧ j.beforeLoops d then 0 else Tab.bound j.table l - 1
  let full := if lo = 6 then (List.range 6).map fun l => if j.beforeLoops d then 0 else Tab.bound j.table l - 1 else full
  full.reverse
def lexLt : List Nat → List Nat → Bool
  | a :: r, b :: q => decide (a < b) || (a == b && lexLt r q)
  | _, _ => false
/-- Order of two steps of a cell by position, then program index, then step (R41). -/
def before (j : Job) (d n e m : Nat) : Bool :=
  let p := j.position d n
  let q := j.position e m
  lexLt p q || (p == q && (decide (d < e) || (d == e && decide (n < m))))

/-- How many steps of a descriptor must have completed. -/
inductive Need where
  | count (k : Nat)
  /-- every step of the iteration but the last `k` -/
  | allBut (k : Nat)

/-- Index of an iteration of the levels from lo up, from counters. -/
def indexAt (j : Job) (cs : List Nat) (lo : Nat) : Nat :=
  ((List.range 6).reverse.filter (lo ≤ ·)).foldl (fun s l => s * (if Tab.source j.table l = 1 then 1 else max 1 (Tab.bound j.table l)) +
    cs.getD l 0) 0

/-- Every level from lo to hi - 1 stands at its last counter. -/
def atLast (j : Job) (cs : List Nat) (lo hi : Nat) : Bool :=
  ((List.range (min 6 hi)).filter (lo ≤ ·)).all fun l => cs.getD l 0 + 1 == Tab.bound j.table l
/-- A LEVEL 7 descriptor before the loops, whose every counter counts as 0 (R41). -/
def initial (j : Job) (d : Nat) : Bool := Desc.lv (j.descAt d) == 6 && j.beforeLoops d
/-- Steps of descriptor w, whose accesses stand at depth wl, that precede step n of descriptor d, whose access stands at
depth dl, by iteration position (R41): positions are compared at the deeper of the two levels, where the counters of the
levels below count as their last values; at equal positions the earlier descriptor comes first. -/
def preceding (j : Job) (d n dl w wl : Nat) : Need :=
  let per := fun top => Tab.prod j.table (Desc.lv (j.descAt w)) top * j.perExec w
  if j.initial d then (if j.initial w && decide (w < d) then .allBut 0 else .count 0)
  else if j.initial w then .allBut 0
  else if wl ≤ dl then
    -- d comes at the end of its iteration of level dl; of that iteration only w's last access stands at the same position
    let last := if w < d then 0 else per (min 6 wl)
    if dl = 6 then (if wl = 6 ∧ ¬ w < d then .count 0 else .allBut last)
    else .count ((j.indexAt (j.at_ d n) dl + 1) * per dl - last)
  else
    -- w comes at the end of its iteration of level wl: before d only where d stands at the end too, and w earlier
    let now := w < d && j.atLast (j.at_ d n) dl wl
    if wl = 6 then (if now then .allBut 0 else .count 0)
    else .count ((j.indexAt (j.at_ d n) wl + ofBool now) * per wl)
/-- Steps of descriptor w that must have completed before step n of descriptor d may access the same bytes (R40
condition 2, R125): those that precede it by iteration position; but where the one that stands earlier in the program
writes at the higher level, its write of the current iteration comes before all the other's accesses in that iteration
(R40 condition 2: completely written by each descriptor that stands earlier, for the current iteration; log 44). -/
def need (j : Job) (d n dl : Nat) (dw : Bool) (w wl : Nat) (ww : Bool) : Need :=
  let per := fun top => Tab.prod j.table (Desc.lv (j.descAt w)) top * j.perExec w
  if ww && decide (w < d) && decide (dl < wl) then
    (if wl = 6 then .allBut 0 else .count ((j.indexAt (j.at_ d n) wl + 1) * per wl))
  else if dw && decide (d < w) && decide (wl < dl) then
    (if dl = 6 then .count 0 else .count (j.indexAt (j.at_ d n) dl * per dl))
  else j.preceding d n dl w wl
/-- Descriptor w has completed that many steps at the cell. -/
def met (j : Job) (c : CellRun) (w : Nat) : Need → Bool
  | .count k => decide (k ≤ Sparse.getD c.done w 0)
  | .allBut k => j.settled c w && decide (j.total c w - k ≤ Sparse.getD c.done w 0)

end Job
end Machine
end Sys2Proof
end

