-- ==== Sys2Proof/Machine/Checks.lean ====
section
/-! DEFINITION. The load-time checks on a job's copies (spec/05_loop_tables_and_fusion.md R121 steps 0 to 10), as
functions on the job alone. -/

namespace Sys2Proof
namespace Machine

open Bits

/-- The tile that a slot holds, as its producer fixes it (spec/02_streams_and_stations.md R31). -/
structure Shape where
  fmt    : Nat
  rows   : Nat
  cols   : Nat
  colb   : Bool
  expand : Nat
  deriving DecidableEq, Repr

namespace Check

/-! ### What other descriptors say about a descriptor's tile -/

/-- The MAT whose IN_B names r. -/
def matOf (j : Job) (r : Nat) : Option Bytes :=
  if r = 0xFF then none else j.prog.find? fun x => Desc.station x == Desc.mat && Desc.inB x == r
/-- The conversion stage of an epilogue descriptor. -/
def convStage (x : Bytes) : Option Nat := (Desc.stageList x).find? fun w => Desc.sKind w == 6
/-- BAXIS of the conversion of MAT d's chain. -/
def matColb (j : Job) (d : Nat) : Bool :=
  match j.epiOf d with
  | none => false
  | some e => match convStage (j.descAt e) with
    | some w => bit (Desc.sArg w) 3
    | none => false
/-- The last word of a VEC sequence when it is a CVT. -/
def cvtWord (seq : Bytes) (x : Bytes) : Option Nat :=
  match (Desc.words seq (Desc.seqLen x)).getLast? with
  | some w => if Fn.opc w = 11 then some w else none
  | none => none
def seqOf (j : Job) (d : Nat) : Bytes := Sparse.getD j.seqs d []
def vecColb (j : Job) (d : Nat) : Bool :=
  match cvtWord (seqOf j d) (j.descAt d) with
  | some w => bit (Fn.aux w) 3
  | none => false
/-- EXPAND that applies to a LOAD's tile. -/
def loadExpand (j : Job) (x : Bytes) : Nat :=
  match matOf j (Desc.out x) with
  | some m => Desc.expand m
  | none => 0
/-- A RED whose output is a statistics tile (spec/06_epilogues_and_row_statistics.md R144). -/
def redStats (x : Bytes) : Bool := Desc.op x == 0x10 || Desc.op x == 0x11
/-- The tile that descriptor d delivers. -/
def shapeOf (j : Job) (d : Nat) : Option Shape :=
  let x := j.descAt d
  let st := Desc.station x
  if st = Desc.load then
    some ⟨Desc.fmtIn x, Desc.rows x, Desc.cols x, (matOf j (Desc.out x)).isSome, loadExpand j x⟩
  else if st = Desc.vec then some ⟨Desc.fmtOut x, Desc.rows x, Desc.cols x, vecColb j d, 0⟩
  else if st = Desc.fn then some ⟨Desc.fmtOut x, Desc.rows x, Desc.cols x, false, 0⟩
  else if st = Desc.mat then some ⟨Desc.fmtOut x, min (Desc.rows x) 32, Desc.cols x, matColb j d, 0⟩
  else if st = Desc.red then
    some (if redStats x then ⟨1, Desc.rows x, 4, false, 0⟩ else ⟨Desc.fmtOut x, Desc.rows x, 1, false, 0⟩)
  else if st = Desc.epi then some ⟨1, Desc.rows x, 4, false, 0⟩
  else none
/-- The tile of slot r. -/
def madeBy (j : Job) (r : Nat) : Option Shape :=
  if Desc.isSlot r then (j.producer r).bind (shapeOf j) else none
/-- Orientation and EXPAND in which the tile of slot or region r is packed (spec/04_number_formats.md R83, R84): as its
producer made it; row-blocked where no descriptor produces it. -/
def packing (j : Job) (r : Nat) : Bool × Nat :=
  if Desc.isSlot r || Desc.isRegion r then
    match (j.producer r).bind (shapeOf j) with
    | some m => (m.colb, m.expand)
    | none => (false, 0)
  else (false, 0)

/-! ### Step 0: the job descriptor (spec/15_host_and_mailboxes.md R364, R365; R48) -/

def jobDesc (b : Bytes) (cls : Nat) : Bool :=
  let p := JDesc.placement b
  JDesc.program b % 64 == 0 && JDesc.loopTable b % 64 == 0 && JDesc.events b % 8 == 0 &&
  JDesc.completion b % 32 == 0 && JDesc.completion b != 0 && JDesc.loopSeq b % 64 == 0 &&
  JDesc.context b % 4096 == 0 && JDesc.context b != 0 &&
  field p 31 25 == 0 && field p 7 1 == 0 &&
  (if JDesc.espalier b then JDesc.gr b == 0 && JDesc.gc b == 0 && decide (cls ≤ 1)
   else decide (1 ≤ JDesc.gr b) && decide (JDesc.gr b ≤ 48) && decide (1 ≤ JDesc.gc b) && decide (JDesc.gc b ≤ 64)) &&
  (if cls = 0 then field (JDesc.cost b) 15 0 == 0 else JDesc.cost b == 0)
/-- EVENTS is 0 only when no descriptor sets SIGNAL or WAIT. -/
def events (j : Job) : Bool :=
  JDesc.events j.desc != 0 || j.prog.all fun x => !Desc.signal x && !Desc.wait x
/-- Bytes of the numeric record (spec/04_number_formats.md R100). -/
def numericBytes (prog : List Bytes) : Nat :=
  16 + 16 * prog.length + 32 * prog.countP fun x => Desc.station x == Desc.store && bit (Desc.op x) 0

/-! ### Step 2: each descriptor's own fields -/

def refOk (r : Nat) : Bool := Desc.isSlot r || Desc.isRegion r || r == 0xFF
def zero (x : Bytes) (o n : Nat) : Bool := allZero (slice x o n)

/-- The common header (R27 to R29). -/
def header (x : Bytes) : Bool :=
  (Desc.isCell x || (decide (0x10 ≤ Desc.station x) && decide (Desc.station x ≤ 0x15))) &&
  field (Desc.flags x) 4 0 == 0 && !bit (fld x 2 1) 7 && !bit (fld x 2 1) 3 && Desc.level x != 6 &&
  Desc.outLevel x != 6 && fld x 3 1 == 0 && refOk (Desc.inA x) && refOk (Desc.inB x) && refOk (Desc.inC x) &&
  refOk (Desc.out x) && field (fld x 8 2) 15 12 == 0 && fld x 0x0A 2 == 0 &&
  (Desc.wait x || Desc.evtCount x == 0) && field (fld x 0x10 4) 31 25 == 0 && zero x 0x1A 6

/-- ROWS, COLS and the format codes of a cell descriptor (R27, R73). -/
def sizes (x : Bytes) : Bool :=
  let mat := Desc.station x == Desc.mat
  decide (1 ≤ Desc.rows x) && decide (Desc.rows x ≤ if mat then 2 ^ 24 else 32) && decide (1 ≤ Desc.cols x) &&
  (!mat || decide (Desc.cols x ≤ 32)) && Fmt.known (Desc.fmtIn x) && Fmt.known (Desc.fmtOut x) && Desc.fmtOut x != Fmt.int4

/-- Operand references of a cell descriptor (R33). -/
def operands (j : Job) (d : Nat) : Bool :=
  let x := j.descAt d
  let a := Desc.inA x != 0xFF
  let b := Desc.inB x != 0xFF
  let c := Desc.inC x != 0xFF
  let o := Desc.out x != 0xFF
  let st := Desc.station x
  if st = Desc.load then !a && !b && !c && (Desc.tableWrite x != o)
  else if st = Desc.mat then a && b && !c && o
  else if st = Desc.vec then a && o
  else if st = Desc.fn then a && !b && !c && o
  else if st = Desc.red then a && (b == (Desc.op x == 0x12)) && !c && o
  else if st = Desc.store then a && !b && !c && !o
  else if st = Desc.scat then a && b && !c && !o
  else true

def fits (f rows cols : Nat) (colb : Bool) (expand : Nat) : Bool := decide (Tile.image f rows cols colb expand ≤ 4096)
/-- The largest tile of the station (R33): inputs and outputs in the orientation that R83 gives them. MAT's tiles always
fit. -/
def largest (j : Job) (d : Nat) : Bool :=
  let x := j.descAt d
  let st := Desc.station x
  if st = Desc.mat ∨ st = Desc.epi then true
  else if st = Desc.load then
    fits (Desc.fmtIn x) (Desc.rows x) (Desc.cols x) (matOf j (Desc.out x)).isSome (loadExpand j x)
  else
    fits (Desc.fmtIn x) (Desc.rows x) (Desc.cols x) (packing j (Desc.inA x)).1
      (if st = Desc.store then (packing j (Desc.inA x)).2 else 0) &&
    (st == Desc.red || st == Desc.scat || st == Desc.store ||
      fits (Desc.fmtOut x) (Desc.rows x) (Desc.cols x) (st == Desc.vec && vecColb j d) 0)

/-- Operand area of LOAD and STORE (R31, R32, R88, R311; spec/14_twisil_fabric.md R335). -/
def loadStore (j : Job) (x : Bytes) : Bool :=
  let load := Desc.station x == Desc.load
  let f := Desc.fmtIn x
  let (colb, ex) := if load then ((matOf j (Desc.out x)).isSome, loadExpand j x) else packing j (Desc.inA x)
  let img := Tile.image f (Desc.rows x) (Desc.cols x) colb ex
  decide (Desc.space x ≤ 1) && field (fld x 0x2D 1) 7 1 == 0 && field (fld x 0x2E 1) 7 4 == 0 && zero x 0x2F 17 &&
  (load || Desc.pitch x != 0) &&
  (if load then
    Desc.op x == 0 || (Desc.tableWrite x && field (Desc.op x) 7 5 == 0 && Desc.rows x == 1 && Desc.cols x == 16 &&
      f == Fmt.fp16 && Desc.out x == 0xFF && !Desc.seals x)
   else field (Desc.op x) 15 1 == 0) &&
  (!Desc.seals x || (Desc.space x == 0 && !CacheOps.isRemote (Desc.base x) && Desc.base x % 4096 == 0 && img == 4096 &&
    Desc.pitch x == (if Tile.unit f ex then img else Tile.rowBytes f (Desc.cols x))))

/-- Product classes of R85: 1 narrow float, 2 integer, 3 half, 4 single; 0 none. -/
def pairClass (a w e : Nat) : Nat :=
  let nf := fun f => f == 4 || f == 5 || f == 6 || f == 7
  let hf := fun f => f == 2 || f == 3
  if nf a && nf w && e == 0 then 1
  else if a == 8 && w == 8 && e == 0 then 1
  else if (a == 9 || a == 10) && w == 9 && e == 0 then 2
  else if a == 11 && w == 11 && e == 0 then 2
  else if hf a && hf w && e == 0 then 3
  else if hf a && w == 11 && (e == 1 || e == 2) then 3
  else if hf a && w == 9 && e == 2 then 3
  else if a == 1 && w == 1 && e == 0 then 4
  else 0
/-- Twice q of R35 for a streamed format. -/
def twoQ (f : Nat) : Nat :=
  if f = 8 ∨ f = 11 then 1 else if f = 2 ∨ f = 3 then 4 else if f = 1 then 16 else 2

/-- Operand area of MAT (R61, R85, R86). -/
def matArea (j : Job) (x : Bytes) : Bool :=
  field (fld x 0x20 2) 15 12 == 0 && field (fld x 0x23 1) 7 2 == 0 && zero x 0x25 27 &&
  (if JDesc.espalier j.desc then decide (1 ≤ Desc.chainLen x) && decide (Desc.chainLen x ≤ 3072) &&
    decide (Tab.chains j.table ≤ 3072 / max 1 (Desc.chainLen x)) else Desc.chainLen x == 0) &&
  (fld x 0x22 1 == 0 || Fmt.known (fld x 0x22 1)) && Desc.expand x != 3 &&
  (if Desc.expand x = 1 then decide (Desc.tableNo x ≤ 15) else Desc.tableNo x == 0) &&
  pairClass (Desc.fmtIn x) (Desc.wFmt x) (Desc.expand x) != 0

/-- GRAD and RMODE of a conversion to format f (R97). -/
def gradOk (f rmode : Nat) (grad : Bool) : Bool := rmode != 3 && !(grad && rmode == 0 && f != Fmt.fp32)

/-- A VEC word, the i-th of n (spec/07_exp2_log2_and_composed_functions.md R159, R160, R201). -/
def word (x : Bytes) (i n w : Nat) : Bool :=
  let o := Fn.opc w
  let k := Fn.arity o
  let srcOk := fun (s : Nat) (used : Bool) =>
    if used then s != 15 && (!(s == 9 || (decide (12 ≤ s) && decide (s ≤ 14))) || Desc.inB x != 0xFF) &&
      (s != 10 || Desc.inC x != 0xFF)
    else s == 15
  decide (o ≤ 12) && decide (Fn.dst w < 8) && field w 7 4 == 0 && srcOk (Fn.sa w) (decide (1 ≤ k)) &&
  srcOk (Fn.sb w) (decide (2 ≤ k)) && srcOk (Fn.sc w) (decide (3 ≤ k)) &&
  (if o = 11 then i + 1 == n && Fn.dst w == 0
   else Fn.aux w == 0) &&
  (o != 11 || (gradOk (Desc.fmtOut x) (field (Fn.aux w) 1 0) (bit (Fn.aux w) 2) && field (Fn.imm w) 31 16 == 0))

/-- Registers that a word reads. -/
def reads (w : Nat) : List Nat := ([Fn.sa w, Fn.sb w, Fn.sc w].take (Fn.arity (Fn.opc w))).filter (· < 8)
/-- Register that a word writes. -/
def writes (w : Nat) : List Nat := if Fn.opc w = 0 ∨ Fn.opc w = 11 then [] else [Fn.dst w]
/-- No EXP2 or LOG2 word's shadow breaks R162. -/
def shadows (ws : List Nat) : Bool :=
  (List.range ws.length).all fun i =>
    let w := ws.getD i 0
    !Fn.isUnit (Fn.opc w) ||
      (decide (i + 7 < ws.length) && ((ws.drop (i + 1)).take 7).all fun v =>
        !Fn.isUnit (Fn.opc v) && !(reads v).contains (Fn.dst w) && !(writes v).contains (Fn.dst w))

/-- Operand area of VEC (R158). -/
def vecArea (x : Bytes) : Bool :=
  Desc.seqAddr x % 8 == 0 && decide (1 ≤ Desc.seqLen x) && decide (Desc.seqLen x ≤ 256) && zero x 0x2A 22 &&
  field (Desc.op x) 15 1 == 0 && (!Desc.stats x || Desc.inB x != 0xFF)
/-- The sequence of VEC descriptor x. -/
def vecSeq (x seq : Bytes) : Bool :=
  let ws := Desc.words seq (Desc.seqLen x)
  (ws.zipIdx.all fun (w, i) => word x i ws.length w) && shadows ws

def redArea (x : Bytes) : Bool :=
  let o := Desc.op x
  [1, 2, 3, 4, 0x10, 0x11, 0x12].contains o && zero x 0x20 32 &&
  (o != 0x11 || (Desc.cols x == 4 && Desc.fmtIn x == Fmt.fp32)) && (!redStats x || Desc.fmtOut x == Fmt.fp32) &&
  (!(o == 0x10 || o == 0x12) || decide (Desc.cols x ≤ 32))

/-- A stage entry on its own (spec/06_epilogues_and_row_statistics.md R134 to R137). -/
def stageOk (x : Bytes) (w : Nat) : Bool :=
  let a := Desc.sArg w
  let src := field a 1 0
  let ref := if src = 0 then Desc.inA x else if src = 1 then Desc.inB x else Desc.inC x
  decide (Desc.sIfmt w ≤ 2) &&
  match Desc.sKind w with
  | 1 => field a 31 3 == 0 && src != 3 && ref != 0xFF
  | 2 => field a 7 2 == 0 && field a 31 16 == 0 && decide (field a 15 8 ≤ 5) && (src == 3 || ref != 0xFF) &&
      (src != 3 || Desc.outLevel x != 7)
  | 3 => field a 31 2 == 0 && src != 3 && ref != 0xFF
  | 4 => field a 31 8 == 0 && decide (1 ≤ a % 256) && decide (a % 256 ≤ 5)
  | 5 => true
  | 6 => field a 15 4 == 0 && Desc.sIfmt w == 0 && gradOk (Desc.fmtOut x) (field a 1 0) (bit a 2)
  | 7 => field a 7 3 == 0 && field a 31 16 == 0 && Desc.sIfmt w == 0 && field a 2 0 != 6 &&
      (Desc.isRegion (field a 15 8) || field a 15 8 == 0xFE || field a 15 8 == 0xFF)
  | 8 => field a 31 3 == 0 && Desc.sIfmt w == 0 && field a 2 0 != 6 && Desc.fmtOut x == Fmt.fp32
  | _ => false

/-- Operand bytes that a stage names. -/
def stageRef (w : Nat) : Option Nat :=
  if [1, 2, 3].contains (Desc.sKind w) ∧ field (Desc.sArg w) 1 0 ≠ 3 then some (field (Desc.sArg w) 1 0) else none
/-- The chain's composition (R137). -/
def chain (x : Bytes) : Bool :=
  let l := Desc.stageList x
  let n := fun k => l.countP fun w => Desc.sKind w == k
  let idx := fun k => l.findIdx fun w => Desc.sKind w == k
  let len := l.length
  let named := l.filterMap stageRef
  decide (n 6 ≤ 1) && decide (n 7 ≤ 1) && decide (n 8 ≤ 1) &&
  decide (l.countP (fun w => Desc.sKind w == 2 && field (Desc.sArg w) 1 0 == 3) ≤ 1) &&
  (n 7 == 0 || idx 7 + 1 == len) && (n 8 == 0 || (idx 8 + 1 == len && n 6 == 0 && n 7 == 0)) &&
  (n 6 == 0 || idx 6 + 1 == len || (n 7 == 1 && idx 6 + 2 == len)) &&
  (Desc.inA x == 0xFF || named.contains 0) && (Desc.inB x == 0xFF || named.contains 1) &&
  (Desc.inC x == 0xFF || named.contains 2)

/-- An epilogue descriptor (R34, R133, R134, R137). -/
def epilogue (j : Job) (d : Nat) : Bool :=
  let x := j.descAt d
  let m := j.descAt (d - 1)
  decide (1 ≤ d) && Desc.station m == Desc.mat && Desc.level x == Desc.level m && Desc.outLevel x == Desc.outLevel m &&
  !Desc.signal x && !Desc.wait x && Desc.fmtIn x == Fmt.fp32 && Desc.fmtOut x == Desc.fmtOut m &&
  Desc.rows x == min (Desc.rows m) 32 && Desc.cols x == Desc.cols m && Desc.op x == 0 &&
  decide (1 ≤ Desc.nStage x) && decide (Desc.nStage x ≤ 6) && fld x 0x3F 1 == 0 &&
  (List.range 6).all (fun i => decide (i < Desc.nStage x) || Desc.stage x i == 0) &&
  (Desc.stageList x).all (stageOk x) && chain x &&
  (if (Desc.stageList x).any (fun w => Desc.sKind w == 7) then Desc.isSlot (Desc.out x) else Desc.out x == 0xFF)

/-- SAMPLE's operand area (spec/09_randomness_and_sampling.md R210, R211). -/
def sampleArea (x : Bytes) : Bool :=
  let n := fld x 0x30 4
  let t := fld x 0x34 4
  let p := fld x 0x38 4
  let k := fld x 0x3C 2
  fld x 0x28 8 % 16 == 0 && decide (n ≤ 262144) && decide (k ≤ 1024) &&
  (t == 0 || (decide (0x00800000 ≤ t) && decide (t < 0x7F800000))) &&
  decide (0x00800000 ≤ p) && decide (p ≤ 0x3F800000) && (k != 0 || p == 0x3F800000)
/-- FORMAT's operand area (spec/12_decode_and_ingest.md R289). -/
def formatArea (x : Bytes) : Bool :=
  let c := fld x 0x36 1
  field c 7 4 == 0 && fld x 0x37 1 == 0 && field c 2 1 != 3 && !(bit c 3 && bit c 0) &&
  fld x 0x38 2 % 2 == 0 && fld x 0x3A 2 % 2 == 0 && fld x 0x3C 2 % 2 == 0 && fld x 0x3E 2 % 2 == 0

/-- A hub descriptor (R47, spec/11_video_encode.md R242, R272, R282, spec/08_attention_and_paged_cache.md R185). -/
def hub (x : Bytes) : Bool :=
  let sample := Desc.station x == 0x12
  Desc.inA x == 0xFF && Desc.inB x == 0xFF && Desc.inC x == 0xFF && Desc.out x == 0xFF &&
  Desc.rows x == 0 && Desc.cols x == 0 && Desc.fmtOut x == 0 && Desc.op x == 0 &&
  (if sample then [1, 2, 3].contains (Desc.fmtIn x) else Desc.fmtIn x == 0) &&
  match Desc.station x with
  | 0x10 => zero x 0x38 8
  | 0x11 => formatArea x
  | 0x12 => sampleArea x
  | 0x13 => fld x 0x20 8 % 64 == 0 && zero x 0x34 12
  | 0x14 => fld x 0x20 8 % 64 == 0 && zero x 0x34 12
  | 0x15 => zero x 0x2C 20
  | _ => false

/-- OUT_LEVEL against LEVEL (R28). -/
def levels (x : Bytes) : Bool :=
  let st := Desc.station x
  if st = Desc.mat ∨ st = Desc.red then decide (Desc.level x ≤ Desc.outLevel x)
  else st == Desc.epi || Desc.outLevel x == Desc.level x

/-- Descriptor d's own fields (step 2), its VEC sequence aside. -/
def fields (j : Job) (d : Nat) : Bool :=
  let x := j.descAt d
  let st := Desc.station x
  header x && levels x &&
  if Desc.isHub x then hub x
  else sizes x && operands j d && largest j d &&
    (if st = Desc.load ∨ st = Desc.store then loadStore j x
     else if st = Desc.mat then matArea j x
     else if st = Desc.vec then vecArea x
     else if st = Desc.fn then (Desc.op x == 1 || Desc.op x == 2) && Fmt.isFloat (Desc.fmtIn x) && zero x 0x20 32
     else if st = Desc.red then redArea x
     else if st = Desc.scat then
      Fmt.isFloat (Desc.fmtIn x) && field (fld x 0x24 1) 7 2 == 0 && zero x 0x25 27
     else epilogue j d)

/-! ### Step 3: table, loop block and cache descriptor -/

def dimOk (v : Nat) : Bool := decide (v ≤ 7) || v == 0xFF
/-- Fields of the loop table (R107 to R111). -/
def table (j : Job) : Bool :=
  let t := j.table
  let claims := (Tab.claimLevel t).isSome
  fld t 0 2 == 0 && fld t 0x0E 2 == 0 && zero t 0x18 8 &&
  (if JDesc.espalier j.desc then decide (1 ≤ Tab.chains t) && decide (Tab.chains t ≤ 3072 / j.firstChain) else Tab.chains t == 0) &&
  Tab.wcOffset t % 64 == 0 && (claims || Tab.wcOffset t == 0) && Tab.psSize t % 4096 == 0 &&
  decide (Tab.psSize t ≤ Config.plotStoreBytes) && dimOk (Tab.p0Dim t) && dimOk (Tab.p1Dim t) &&
  (List.range 6).all (fun l =>
    decide (1 ≤ Tab.bound t l) && decide (Tab.bound t l ≤ 2 ^ 24) && decide (1 ≤ Tab.stride t l) &&
    decide (Tab.stride t l ≤ 2 ^ 31) && dimOk (Tab.dim t l) && decide (Tab.order t l ≤ 2) &&
    decide (Tab.source t l ≤ 1) && zero t (0x4B + 16 * l) 5) &&
  (List.range 16).all (fun x => dimOk (Tab.rowDim t x) && dimOk (Tab.colDim t x) && zero t (0xD2 + 64 * x) 14) &&
  (List.range 64).all (fun n =>
    let r := Tab.region t n
    field r 63 57 == 0 && field r 31 20 == 0 && Tab.regSize t n % 64 == 0 && Tab.regOffset t n % 64 == 0)

/-- Fields of a loop block (spec/10_convolution_and_latent_loops.md R228). -/
def stepTable (b : Bytes) : Nat := fld b 0 8
def rootSrc (b : Bytes) : Nat := fld b 8 8
def rootPitch (b : Bytes) : Nat := fld b 0x10 4
def rootBytes (b : Bytes) : Nat := fld b 0x14 4
def niter (b : Bytes) : Nat := fld b 0x18 2
def coefRegion (b : Bytes) : Nat := fld b 0x1A 1
def rootSeal (b : Bytes) : Bool := bit (fld b 0x1B 1) 0
def loopBlock (b : Bytes) : Bool :=
  stepTable b % 16 == 0 && rootSrc b % 4096 == 0 && (rootBytes b != 0 || rootSrc b == 0) && rootPitch b % 4096 == 0 &&
  rootBytes b % 4096 == 0 && decide (rootBytes b ≤ 786432) && decide (1 ≤ niter b) && decide (niter b ≤ 256) &&
  (Desc.isRegion (coefRegion b) || coefRegion b == 0xFF) && field (fld b 0x1B 1) 7 1 == 0 && zero b 0x1C 36
/-- The reserved words of a step-coefficient table (R231). -/
def coefTable (c : Bytes) (n : Nat) : Bool := (List.range n).all fun i => fld c (16 * i + 12) 4 == 0
/-- A SCAT's plane and row length against the cache descriptor (R178, R179). -/
def scatPlane (j : Job) (x : Bytes) : Bool :=
  Desc.station x != Desc.scat || j.cacheD.isEmpty || !CacheOps.descOk j.cacheD ||
    (decide (Desc.plane x < CacheOps.nplanes j.cacheD) && Desc.cols x == 32 * CacheOps.dt j.cacheD)

/-! ### Step 4: rules that join descriptors, table and job descriptor -/

/-- Operand references of a descriptor, HOLD included. -/
def refs (x : Bytes) : List Nat :=
  [Desc.inA x, Desc.inB x, Desc.inC x, Desc.out x] ++
    (if Desc.station x = Desc.epi then
      (Desc.stageList x).filterMap fun w => if Desc.sKind w = 7 then some (field (Desc.sArg w) 15 8) else none
     else [])
/-- Expressions that a cell descriptor uses (R113). -/
def exprsOf (j : Job) (x : Bytes) : List Nat :=
  (if Desc.station x = Desc.load ∨ Desc.station x = Desc.store then [Desc.addrSel x] else []) ++
    (refs x).filterMap fun r =>
      if Desc.isRegion r ∧ Tab.regSize j.table (r - 0x80) ≠ 0 then some (Tab.regExpr j.table (r - 0x80)) else none

/-- What `trace` answers for an operand whose clip cannot be traced: the statistics tile of an epilogue. -/
def untraced : Nat := 0x100
/-- The clip of one axis of an operand, traced back (spec/03_espalier_array.md R70): dimension and LEVEL. -/
def trace (j : Job) : Nat → Nat → Nat → Bool → Option (Nat × Nat)
  | 0, _, _, _ => none
  | k + 1, lv, r, row =>
    if Desc.isRegion r then
      let x := Tab.regExpr j.table (r - 0x80)
      some (if row then Tab.rowDim j.table x else Tab.colDim j.table x, lv)
    else
      match j.producer r with
      | none => none
      | some p =>
        let q := j.descAt p
        if Desc.station q = Desc.load then
          some (if row then Tab.rowDim j.table (Desc.addrSel q) else Tab.colDim j.table (Desc.addrSel q), Desc.level q)
        else if Desc.station q = Desc.mat then trace j k (Desc.level q) (if row then Desc.inA q else Desc.inB q) row
        else if Desc.station q = Desc.epi then some (untraced, Desc.level q)
        else trace j k (Desc.level q) (Desc.inA q) row

/-- The K counts of a MAT's operands come from one clip (R70). Two operands that no dimension clips (0xFF) always count
the same, so their LEVELs need not agree (DESIGN CHOICE, log 46). An operand without a producer is left to step 6. -/
def sameK (j : Job) (x : Bytes) : Bool :=
  let n := j.prog.length + 1
  let a := trace j n (Desc.level x) (Desc.inA x) false
  let b := trace j n (Desc.level x) (Desc.inB x) true
  let ka := if Desc.isRegion (Desc.inA x) then some (Desc.cols x) else (madeBy j (Desc.inA x)).map (·.cols)
  let kb := if Desc.isRegion (Desc.inB x) then some 32 else (madeBy j (Desc.inB x)).map (·.rows)
  match a, b with
  | some a, some b => a.1 == b.1 && a.1 != untraced && (a.1 == 0xFF || a.2 == b.2) && (ka == kb || ka.isNone || kb.isNone)
  | _, _ => true

/-- A STORE's fields are those of its input tile (R31). -/
def storeTile (j : Job) (x : Bytes) : Bool :=
  Desc.fmtIn x == Desc.fmtOut x &&
  match madeBy j (Desc.inA x) with
  | some m => m.fmt == Desc.fmtOut x && m.rows == Desc.rows x && m.cols == Desc.cols x
  | none => true
/-- ROW_PITCH of a block-scaled or grouped LOAD or STORE (spec/04_number_formats.md R84). -/
def pitchOk (j : Job) (x : Bytes) : Bool :=
  let load := Desc.station x == Desc.load
  let f := Desc.fmtIn x
  let (colb, ex) := if load then ((matOf j (Desc.out x)).isSome, loadExpand j x) else packing j (Desc.inA x)
  !Tile.unit f ex || Desc.tableWrite x || (load && Desc.pitch x == 0) ||
    Desc.pitch x == Tile.image f (Desc.rows x) (Desc.cols x) colb ex

def span (lo hi : Nat) : List Nat := (List.range (min 6 hi)).filter (lo ≤ ·)
/-- RMODEs with which a descriptor draws. -/
def rmodes (j : Job) (d : Nat) : List Nat :=
  let x := j.descAt d
  if Desc.station x = Desc.epi then
    match convStage x with
    | some w => [field (Desc.sArg w) 1 0]
    | none => []
  else if Desc.station x = Desc.vec then
    match cvtWord (seqOf j d) x with
    | some w => [field (Fn.aux w) 1 0]
    | none => []
  else []

/-- T of a row stage whose chain has OUT_LEVEL ol and whose row has ROW_LEVEL rl (R148). -/
def rowTiles (t : Bytes) (ol rl : Nat) : Nat := Tab.prod t (min 6 ol) (min 6 rl)
/-- Conditions of R141, R148 and R149 on a stage that need the table. -/
def stageTable (j : Job) (d : Nat) (w : Nat) : Bool :=
  let x := j.descAt d
  let a := Desc.sArg w
  let t := j.table
  let ol := Desc.outLevel x
  let rl := field a 2 0
  let rows := decide (ol ≤ rl) && (span ol rl).all fun l => Tab.order t l == 0 && Tab.source t l == 0
  match Desc.sKind w with
  | 2 => field a 1 0 != 3 || Tab.bound t ol % 2 == 0
  | 7 => rows
  | 8 =>
    let o := Desc.out (j.descAt (d - 1))
    let c := Tab.colDim t (Tab.regExpr t (o - 0x80))
    rows && Desc.isRegion o && !JDesc.espalier j.desc && (c == 0xFF || (Tab.p0Dim t != c && Tab.p1Dim t != c))
  | _ => true

/-- Step 4 for descriptor d. -/
def joined (j : Job) (d : Nat) : Bool :=
  let x := j.descAt d
  let t := j.table
  let st := Desc.station x
  let paged := st == Desc.load && Desc.space x == 0 && CacheOps.isPaged (Desc.base x)
  (!j.cacheD.isEmpty || !(st == Desc.scat || st == 0x15 || paged)) &&
  (!Desc.isCell x ||
    ((st != Desc.store || storeTile j x) && (!(st == Desc.load || st == Desc.store) || pitchOk j x) &&
    (exprsOf j x).all (fun e => (List.range (Desc.lv x)).all fun l => Tab.coef t e l == 0) &&
    (!((st == Desc.load || st == Desc.store) && Desc.seals x) ||
      ((span (Desc.level x) 6).all (fun l => Tab.coef t (Desc.addrSel x) l % 4096 == 0) &&
        Tab.coefP0 t (Desc.addrSel x) % 4096 == 0 && Tab.coefP1 t (Desc.addrSel x) % 4096 == 0)) &&
    (!(st == Desc.mat || st == Desc.red) ||
      (span (Desc.level x) (Desc.outLevel x)).all fun l => Tab.order t l == 0 && Tab.source t l == 0) &&
    (match Tab.claimLevel t with
      | none => true
      | some c => (decide (Desc.level x ≤ c) || Desc.level x == 7) && (decide (Desc.outLevel x ≤ c) || Desc.outLevel x == 7) &&
          !(decide (Desc.level x ≤ c) && (rmodes j d).contains 1)) &&
    (!(rmodes j d).contains 2 || decide ((Tab.extents t).foldl (fun p e => p * max e 1) 1 ≤ 2 ^ 64)) &&
    (st != Desc.mat ||
      ((Desc.expand x != 1 || (j.prog.take d).any fun y => Desc.tableWrite y && Desc.twTable y == Desc.tableNo x) &&
      sameK j x &&
      (!(JDesc.espalier j.desc && decide (Desc.level x < Desc.outLevel x)) ||
        (decide (Desc.rows x ≤ 32) &&
          match trace j (j.prog.length + 1) (Desc.level x) (Desc.inB x) false with
          | some (k, _) => k == 0xFF || (span (Desc.level x) (Desc.outLevel x)).all fun l => Tab.dim t l != k
          | none => true)))) &&
    (st != Desc.epi || (Desc.stageList x).all (stageTable j d))))
/-- Step 4 for the table: the claimed level (R128). -/
def claims (j : Job) : Bool :=
  let ls := (List.range 6).filter fun l => Tab.source j.table l == 1
  decide (ls.length ≤ 1) && ls.all (fun l => Tab.order j.table l == 0) && (ls.isEmpty || !JDesc.espalier j.desc)

/-! ### Step 5: layout (R124, R126, R129, R229) -/

def declared (j : Job) (r : Nat) : Bool := Tab.regSize j.table (r - 0x80) != 0
def isCoef (j : Job) (r : Nat) : Bool :=
  match j.loop with
  | some b => coefRegion b == r
  | none => false
def layoutDesc (j : Job) (d : Nat) : Bool :=
  let x := j.descAt d
  let reg := (refs x).filter Desc.isRegion
  !Desc.isCell x ||
    (reg.all (declared j) &&
    ((Job.inputs x).filter Desc.isRegion).all (fun r => Tab.rooted j.table (r - 0x80) || isCoef j r ||
      (j.prog.take d).any fun y => Desc.isCell y && Desc.out y == r) &&
    !(Desc.isRegion (Desc.out x) && (Tab.rooted j.table (Desc.out x - 0x80) || isCoef j (Desc.out x))) &&
    !((Desc.station x == Desc.load || Desc.station x == Desc.store) && Desc.space x == 1 && Tab.psSize j.table == 0))
/-- Bytes of the work counter block (R129). -/
def wcBytes (j : Job) : Nat := 64 + 8 * (JDesc.gr j.desc * JDesc.gc j.desc)
def layoutTable (j : Job) : Bool :=
  let t := j.table
  let rb := match j.loop with
    | some b => rootBytes b
    | none => 0
  let ns := (List.range 64).filter fun n => Tab.regSize t n != 0
  let lo := Tab.regOffset t
  let hi := fun n => Tab.regOffset t n + Tab.regSize t n
  ns.all (fun n => decide (hi n ≤ 0xC0000) &&
    (if Tab.rooted t n then decide (hi n ≤ rb) && j.loop.isSome && !isCoef j (0x80 + n) else !decide (hi n ≤ rb)) &&
    (!isCoef j (0x80 + n) || decide (512 ≤ Tab.regSize t n)) &&
    ns.all fun m => m == n || decide (hi n ≤ lo m) || decide (hi m ≤ lo n)) &&
  (match j.loop with
    | some b => coefRegion b == 0xFF || declared j (coefRegion b)
    | none => true) &&
  ((Tab.claimLevel t).isNone || decide (Tab.wcOffset t + wcBytes j ≤ Tab.psSize t))

/-! ### Step 6: slot balance (R39) -/

/-- The descriptor whose tile step reads the operands of d. -/
def stepOf (j : Job) (d : Nat) : Nat := if Desc.station (j.descAt d) = Desc.epi then d - 1 else d
def balance (j : Job) (d : Nat) : Bool :=
  let x := j.descAt d
  let o := Desc.out x
  !Desc.isCell x ||
    ((!Desc.isSlot o ||
      (!(j.prog.take d).any (fun y => Desc.isCell y && Desc.out y == o) &&
        j.prog.any fun y => Desc.isCell y && (Job.inputs y).contains o)) &&
    ((Job.inputs x).filter Desc.isSlot).all fun r =>
      match j.producer r with
      | none => false
      | some p => decide (stepOf j p < stepOf j d) &&
          decide ((if Desc.station x = Desc.epi then Desc.olv x else Desc.lv x) ≤ Desc.olv (j.descAt p)))

/-! ### Steps 7 to 9 -/

/-- Epilogue buffer demand (R143). -/
def demand (j : Job) (x : Bytes) : Nat :=
  let l := Desc.stageList x
  let b := 4 * Desc.rows x * Desc.cols x
  b * (4 + 3 * (l.length + (Job.inputs x).length)) +
    (if l.any fun w => Desc.sKind w == 7 then 512 else 0) +
    match l.find? fun w => Desc.sKind w == 8 with
    | some w => 4 * Desc.rows x * (rowTiles j.table (Desc.outLevel x) (field (Desc.sArg w) 2 0) + 2)
    | none => 0
/-- Row residency of a statistics stage (R148). -/
def resident (j : Job) (d : Nat) : Bool :=
  let x := j.descAt d
  let m := j.descAt (d - 1)
  match (Desc.stageList x).find? fun w => Desc.sKind w == 7 with
  | none => true
  | some w =>
    let n := rowTiles j.table (Desc.outLevel x) (field (Desc.sArg w) 2 0)
    let hold := field (Desc.sArg w) 15 8
    let need := n * Tile.image (Desc.fmtOut m) (min (Desc.rows m) 32) (Desc.cols m) (matColb j (d - 1)) 0
    decide (n ≤ 1) || (Desc.isRegion hold && hold == Desc.out m && decide (need ≤ Tab.regSize j.table (hold - 0x80))) ||
      (hold == 0xFE && decide (need ≤ Tab.psSize j.table) &&
        j.prog.any fun y => Desc.station y == Desc.store && Desc.space y == 1 && Desc.inA y == Desc.out m)

/-- Cost of the costliest tile step of descriptor d (R35, R142). -/
def cost (j : Job) (d : Nat) : Nat :=
  let x := j.descAt d
  let st := Desc.station x
  let e := Desc.rows x * Desc.cols x
  if st = Desc.load then
    16 + ceilDiv (Tile.image (Desc.fmtIn x) (Desc.rows x) (Desc.cols x) (matOf j (Desc.out x)).isSome (loadExpand j x)) 64
  else if st = Desc.store then
    24 + ceilDiv (Tile.image (Desc.fmtOut x) (Desc.rows x) (Desc.cols x) (packing j (Desc.inA x)).1 (packing j (Desc.inA x)).2) 64
  else if st = Desc.scat then 24 + ceilDiv (Tile.image (Desc.fmtIn x) (Desc.rows x) (Desc.cols x) (packing j (Desc.inA x)).1 0) 64
  else if st = Desc.mat then
    let r := min (Desc.rows x) 32
    let base := ceilDiv (r * twoQ (Desc.fmtIn x)) 2 + 8
    match j.epiOf d with
    | none => base
    | some k =>
      let s := ((Desc.stageList (j.descAt k)).map (Desc.sWeight (Fmt.scaled (Desc.fmtOut x)))).sum
      base + s * (ceilDiv (r * Desc.cols x) 32 + 4)
  else if st = Desc.vec then Desc.seqLen x * ceilDiv e 32 + 4
  else if st = Desc.fn then ceilDiv e 4 + 8
  else if st = Desc.red then ceilDiv (if Desc.op x = 0x11 then 4 * Desc.rows x else e) 32 + 16
  else 0

/-! ### The order of R121 -/

abbrev Ck := Except (Nat × Nat) Unit
def ck (ok : Bool) (st ix : Nat) : Ck := if ok then .ok () else .error (st, ix)
def none32 : Nat := 0xFFFFFFFF
/-- A check of every descriptor in turn. -/
def each (j : Job) (st : Nat) (f : Nat → Bool) : Ck := (List.range j.prog.length).forM fun d => ck (f d) st d

/-- Steps 4 to 10 of R121. -/
def later (j : Job) : Ck := do
  each j 0x0101 (joined j)
  ck (claims j) 0x0101 none32
  each j 0x0206 (layoutDesc j)
  ck (layoutTable j) 0x0206 none32
  each j 0x0205 (balance j)
  each j 0x0208 fun d => Desc.station (j.descAt d) != Desc.epi || decide (demand j (j.descAt d) ≤ 98304)
  each j 0x0203 fun d => Desc.station (j.descAt d) != Desc.epi || resident j d
  each j 0x0204 fun d => decide (cost j d ≤ 4096)
  (List.range 8).forM fun k => ck (decide (JDesc.shape j.desc k ≤ Tab.extent j.table k)) 0x0202 k

/-- Checks after R121, in the order of R502: blitz (spec/16_scheduling_and_budgets.md R386), count independence (R396). -/
def blitz (j : Job) (resv : Nat) : Ck :=
  if j.cls ≠ 0 then .ok ()
  else do
    ck (decide (1 ≤ JDesc.periods j.desc) && decide (JDesc.periods j.desc ≤ Ops.resvPeriods resv)) 0x0601 none32
    ck (decide (j.prog.length ≤ 256)) 0x0601 none32
    each j 0x0601 fun d => !Desc.isHub (j.descAt d) || Desc.station (j.descAt d) == 0x11 || Desc.station (j.descAt d) == 0x12
def countFree (j : Job) : Ck :=
  ck (!JDesc.countFree j.desc || (!JDesc.espalier j.desc && (Tab.claimLevel j.table).isSome &&
    match j.loop with
    | some b => rootPitch b == 0 || rootBytes b == 0
    | none => true)) 0x0101 none32

/-- The resume level (R378). -/
def resumeLevel (j : Job) : Nat :=
  let cell := (List.range j.prog.length).filter fun d => Desc.isCell (j.descAt d)
  let lvl := fun (l : List Nat) => l.foldl max 0
  let outs := cell.map fun d => Desc.olv (j.descAt d)
  let rows := cell.flatMap fun d =>
    if Desc.station (j.descAt d) = Desc.epi then
      (Desc.stageList (j.descAt d)).filterMap fun w =>
        if Desc.sKind w = 7 ∨ Desc.sKind w = 8 then some (min 6 (field (Desc.sArg w) 2 0)) else none
    else []
  let regs := (List.range 64).filterMap fun n =>
    let acc := cell.filter fun d => (refs (j.descAt d)).contains (0x80 + n)
    if Tab.rooted j.table n ∨ acc.isEmpty then none else some (1 + lvl (acc.map fun d => Desc.olv (j.descAt d)))
  let ps := cell.filter fun d =>
    (Desc.station (j.descAt d) == Desc.load || Desc.station (j.descAt d) == Desc.store) && Desc.space (j.descAt d) == 1
  let plot := if ps.isEmpty then [] else [1 + lvl (ps.map fun d => Desc.olv (j.descAt d))]
  min 6 (lvl (outs ++ rows ++ regs ++ plot))

end Check
end Machine
end Sys2Proof
end

