-- ==== Sys2Proof/Machine/Calc.lean ====
section
/-! DEFINITION. What the cell stations compute: column sums (spec/04_number_formats.md R86, R87, R92, R93), epilogue
stages, row reductions and softmax (spec/06_epilogues_and_row_statistics.md), VEC and FN
(spec/07_exp2_log2_and_composed_functions.md), as functions on tiles. -/

namespace Sys2Proof
namespace Machine
namespace Calc

open Bits

/-- An image of zeros with the parts given written into it. -/
def assemble (n : Nat) (parts : List (Nat × Bytes)) : Bytes := parts.foldl (fun d (o, b) => splice d o b) (zeros n)

/-! ### MAT -/

/-- How many mantissa bits each element keeps and what it is; marks are a decoding's (R77, R80). -/
def eltAt (t : Tile) (r c : Nat) : NumM Elt := Fmt.readElt t.fmt (t.rawAt r c)

/-- The stationary block of a tile with its EXPAND (R65, R86, R87): `table` is the bank that EXPAND 1 reads. Its scales
are read column-blocked, as R83 reads an IN_B whatever its producer's axis (DEDUCED, log 41). Where q = z the product is a
zero with the sign of the group scale, of which R87 says nothing (DESIGN CHOICE, log 42). -/
def block (t : Tile) (ex : Nat) (table : List Nat) (d exec : Nat) : NumM Block := do
  let img := t.data
  let base := t.rows * Tile.rowBytes t.fmt t.cols
  let g := ceilDiv t.rows 32 * t.cols
  let elts ← (List.range t.vr).mapM fun r => (List.range t.vc).mapM fun c => do
    let raw := t.rawAt r c
    if ex = 1 then Fmt.readElt Fmt.fp16 (table.getD raw 0)
    else if ex = 2 then
      let i := r / 32 * t.cols + c
      let s := Fmt.valueOf (Fmt.elt Fmt.fp16 (fld img (base + 2 * i) 2)) 127
      let z := sext 8 (fld img (base + 2 * g + i) 1)
      let q : Int := match Fmt.elt t.fmt raw with
        | .fin n m _ _ => if n then -(m : Int) else m
        | _ => 0
      if t.fmt = Fmt.int4 ∧ (z < -8 ∨ 7 < z) then pure Elt.nan
      else
        let df : Int := q - z
        let prod := match s with
          | .nan => Val.nan
          | .inf n => if df = 0 then .nan else .inf (n != decide (df < 0))
          | .fin n m e => .fin (n != decide (df < 0)) (m * df.natAbs) e
        let x ← Fmt.conv Fmt.fp16 127 none prod
        pure (Fmt.elt Fmt.fp16 x)
    else eltAt t r c
  let code := (List.range t.vc).map fun c => if ex = 0 then t.codeAs true 0 c else 127
  pure ⟨d, exec, t.vr, t.vc, elts, code, t.co⟩

/-- What R92 gathers over the valid lanes. -/
structure Gather where
  nan  : Bool
  pinf : Bool
  ninf : Bool
  negzero : Bool
  prods : List (Bool × Nat × Nat × Int)

def isZeroElt : Elt → Bool
  | .fin _ 0 _ _ => true
  | _ => false
def isNegElt : Elt → Bool
  | .nan => false
  | .inf n => n
  | .fin n _ _ _ => n
/-- One lane of R92: xsum is xa + xw - 254. -/
def lane (xsum : Int) (bad : Bool) (g : Gather) (p : Elt × Elt) : Gather :=
  let (a, w) := p
  let s := isNegElt a != isNegElt w
  if bad then { g with nan := true }
  else match a, w with
    | .nan, _ => { g with nan := true }
    | _, .nan => { g with nan := true }
    | .fin _ ma fa ea, .fin _ mw fw ew =>
      if ma = 0 ∨ mw = 0 then { g with negzero := g.negzero && s }
      else { g with negzero := false, prods := g.prods ++ [(s, ma * mw, fa + fw, ea + ew + xsum)] }
    | a, w =>
      if isZeroElt a || isZeroElt w then { g with nan := true }
      else if s then { g with ninf := true } else { g with pinf := true }
/-- colsum of the float and single classes (R92) over the valid lanes' pairs. -/
def colsumFloat (xa xw : Nat) (l : List (Elt × Elt)) : NumM Val :=
  let g := l.foldl (lane ((xa : Int) + xw - 254) (xa == 255 || xw == 255)) ⟨false, false, false, true, []⟩
  if g.nan || (g.pinf && g.ninf) then pure .nan
  else if g.pinf then pure (.inf false)
  else if g.ninf then pure (.inf true)
  else
    let emax := g.prods.foldl (fun (m : Option Int) p => some (match m with
      | some x => max x p.2.2.2
      | none => p.2.2.2)) none
    match emax with
    | none => pure (Num.zero g.negzero)
    | some em =>
      let s := g.prods.foldl (fun (s : Int) (n, p, f, e) =>
        let sh : Int := em - e + f - 26
        let a : Nat := if 0 ≤ sh then p / 2 ^ sh.toNat else p * 2 ^ (-sh).toNat
        if n then s - a else s + a) 0
      if s = 0 then pure (Num.zero g.negzero) else Num.roundInt s (em - 26)
/-- colsum of the integer class (R93). -/
def colsumInt (xa xw : Nat) (l : List (Elt × Elt)) : NumM Val :=
  if !l.isEmpty && (xa == 255 || xw == 255) then pure .nan
  else
    let num := fun (x : Elt) => match x with
      | .fin n m _ _ => if n then -(m : Int) else (m : Int)
      | _ => 0
    let s := l.foldl (fun (s : Int) (a, w) => s + num a * num w) 0
    if s = 0 then pure (Num.zero false) else Num.roundInt s ((xa : Int) + xw - 254)
/-- One streamed row against a block: a value for each column of the block; none when no lane is valid. -/
def rowSums (t : Tile) (b : Block) (r : Nat) (integer : Bool) (twoQ : Nat) : NumM (Option (List Val)) := do
  let k := min t.vc b.vr
  if k = 0 then pure none
  else
    let a ← (List.range k).mapM fun c => eltAt t r c
    Num.energy (9 * twoQ * k * b.vc)
    let sums ← (List.range b.vc).mapM fun c =>
      let l := (List.range k).map fun i => (a.getD i .nan, (b.elts.getD i []).getD c .nan)
      let xw := b.code.getD c 127
      if integer then colsumInt (t.codeAs false r 0) xw l else colsumFloat (t.codeAs false r 0) xw l
    pure (some sums)
/-- Fold a row of sums onto what is accumulated (R57, R58). -/
def addRow (a b : Option (List Val)) : NumM (Option (List Val)) :=
  match a, b with
  | none, b => pure b
  | a, none => pure a
  | some x, some y => do
    let z ← (List.range (max x.length y.length)).mapM fun i =>
      match x[i]?, y[i]? with
      | some u, some v => Num.add u v
      | some u, none => pure u
      | none, some v => pure v
      | none, none => pure (Num.zero false)
    pure (some z)
/-- Coordinates of a MAT's output (spec/09_randomness_and_sampling.md R200). -/
def matCoord (a b : Coord) : Coord :=
  let x := (List.range 8).map fun k =>
    if b.cdim = k then b.x.getD k 0 else if a.cdim = k then 0 else a.x.getD k 0
  ⟨x, a.rdim, b.cdim⟩
/-- Coordinates of a tile whose columns are dropped. -/
def dropCols (a : Coord) : Coord := ⟨(List.range 8).map fun k => if a.cdim = k then 0 else a.x.getD k 0, a.rdim, 0xFF⟩

/-! ### Draws (R196, R201) -/

/-- Lane draws of the valid elements, in ascending e, and the lanes after them. -/
def laneDraws (vr vc cols : Nat) (st : List (BitVec 128)) : List (List Nat) × List (BitVec 128) :=
  (List.range vr).foldl (fun (acc : List (List Nat) × List (BitVec 128)) r =>
    let (row, st) := (List.range vc).foldl (fun (q : List Nat × List (BitVec 128)) c =>
      let i := (r * cols + c) % 32
      let (w, x) := Rng.lane (q.2.getD i 0#128)
      (q.1 ++ [w], q.2.set i x)) ([], acc.2)
    (acc.1 ++ [row], st)) ([], st)
/-- What a step draws with: the lanes' states, KEY_SEED, EPOCH and the plan extents. -/
structure Src where
  lanes : List (BitVec 128)
  key   : Nat
  epoch : Nat
  exts  : List Nat
/-- A grid whose elements carry what they have been counted as (R99). -/
abbrev Marked := List (List (Val × Num.Had))
def values (g : Marked) : Tile.Grid := g.map fun row => row.map (·.1)
def hads (g : Marked) : List (List Num.Had) := g.map fun row => row.map (·.2)
/-- A grid of which nothing has been counted. -/
def unmarked (g : Tile.Grid) : Marked := g.map fun row => row.map fun v => (v, (false, false))
/-- Convert a grid with RMODE rm; the lanes after it. -/
def convert (src : Src) (rm stream f rows cols vr vc : Nat) (colb : Bool) (co : Coord) (m : Marked) :
    NumM (Tile × List (BitVec 128)) := do
  let g := values m
  let had := hads m
  if rm = 1 then
    let (d, st) := laneDraws vr vc cols src.lanes
    Num.energy (25 * vr * vc)
    let t ← Tile.build f rows cols vr vc colb co g had fun r c => some ((d.getD r []).getD c 0 / 65536)
    pure (t, st)
  else if rm = 2 then
    Num.energy (137 * vr * vc)
    let t ← Tile.build f rows cols vr vc colb co g had fun r c =>
      some (Rng.keyed src.key stream src.epoch (Rng.index src.exts co r c) / 65536)
    pure (t, src.lanes)
  else
    let t ← Tile.build f rows cols vr vc colb co g had fun _ _ => none
    pure (t, src.lanes)

/-! ### Rows: exact sums, records and merges (R144 to R146) -/

/-- The exact sum of a row, rounded once; an exact zero is -0 only when every element is -0. -/
def rowSum (l : List Val) : NumM Val :=
  if l.any Num.isNaN || (l.any (fun v => Num.isInf v && Num.isNeg v) && l.any fun v => Num.isInf v && !Num.isNeg v) then pure .nan
  else match l.find? Num.isInf with
    | some v => pure v
    | none =>
      let (s, k) := Num.exactSum l
      if s = 0 then pure (Num.zero (l.all fun v => Num.isZero v && Num.isNeg v)) else Num.roundInt s k
def rowMax (l : List Val) : Val := l.foldl Num.max (.inf true)
def rowMin (l : List Val) : Val := l.foldl Num.min (.inf false)
/-- a / n rounded once. -/
def divNat (a : Val) (n : Nat) : NumM Val :=
  match a with
  | .fin s m e => Num.roundQuot s m n e
  | v => pure v
/-- The exact sum of a row divided by its count, rounded once. -/
def rowMean (l : List Val) : NumM Val :=
  if l.any Num.isNaN || (l.any (fun v => Num.isInf v && Num.isNeg v) && l.any fun v => Num.isInf v && !Num.isNeg v) then pure .nan
  else match l.find? Num.isInf with
    | some v => pure v
    | none =>
      let (s, k) := Num.exactSum l
      if s = 0 then pure (Num.zero (l.all fun v => Num.isZero v && Num.isNeg v))
      else Num.roundQuot (s < 0) s.natAbs l.length k
/-- M2 of a row about a mean. -/
def rowM2 (mean : Val) (l : List Val) : NumM Val := do
  let d ← l.mapM fun x => do
    let d ← Num.sub x mean
    Num.mul d d
  rowSum d
/-- A statistics record: count, mean, M2. -/
abbrev Rec := Nat × Val × Val
/-- The partial record of a row (R145). -/
def rowRec (l : List Val) : NumM Rec := do
  if l.isEmpty then pure (0, Num.zero false, Num.zero false)
  else
    let m ← rowMean l
    let q ← rowM2 m l
    pure (l.length, m, q)
/-- a x b / n as an exact quotient rounded once. -/
def quot (num den : Nat) : NumM Val := Num.roundQuot false num den 0
/-- Merge record b onto a (R146). -/
def merge (a b : Rec) : NumM Rec := do
  if a.1 = 0 then pure b
  else if b.1 = 0 then pure a
  else
    let n := a.1 + b.1
    let delta ← Num.sub b.2.1 a.2.1
    let q1 ← quot b.1 n
    let p ← Num.mul delta q1
    let mean ← Num.add a.2.1 p
    let q2 ← quot (a.1 * b.1) n
    let dd ← Num.mul delta delta
    let pp ← Num.mul dd q2
    let ss ← Num.add a.2.2 b.2.2
    let m2 ← Num.add ss pp
    let m2 ← if Num.isNeg m2 && !Num.isZero m2 then do
        Num.sat 1
        pure (Num.zero false)
      else pure (if Num.isZero m2 then Num.zero false else m2)
    if 2 ^ 32 - 1 < n then
      Num.sat 1
      pure (2 ^ 32 - 1, mean, m2)
    else pure (n, mean, m2)

/-! ### Epilogue (R134 to R141) -/

/-- Valid elements of an operand that a stage reads, decoded once; elements outside its valid counts read NaN. -/
def operandGrid (t : Tile) (vr vc : Nat) : NumM Tile.Grid :=
  (List.range vr).mapM fun r => (List.range vc).mapM fun c => t.decodeOr r c
def gridAt (g : Tile.Grid) (r c : Nat) : Val := (g.getD r []).getD c .nan
def throughIfmt (w : Nat) (v : Val) : NumM Val :=
  if Desc.sIfmt w = 1 then Fmt.through Fmt.bf16 v else if Desc.sIfmt w = 2 then Fmt.through Fmt.fp16 v else pure v
/-- An elementwise stage (KIND 1 to 5) on the element at row r and column c: ops are the operands' grids, held the held
tile of a PAIRED gate (R138, R139, R141). -/
def stage (ops : List Tile.Grid) (held : Tile.Grid) (w r c : Nat) (v : Val) : NumM Val := do
  let a := Desc.sArg w
  let k := Desc.sKind w
  let src := field a 1 0
  let o := fun r c => if src = 3 then gridAt held r c else gridAt (ops.getD src []) r c
  let x ← if k = 1 then Num.add v (o (if bit a 2 then 0 else r) c)
    else if k = 2 then do
      let y ← Fn.apply (field a 15 8) (o r c)
      Num.mul v y
    else if k = 3 then Num.add v (o r c)
    else if k = 4 then Fn.apply (a % 256) v
    else if k = 5 then Num.mul v (Num.const a)
    else pure v
  if 1 ≤ k ∧ k ≤ 5 then throughIfmt w x else pure x
/-- Stages on one element, in order. -/
def stages (ops : List Tile.Grid) (held : Tile.Grid) : List Nat → Nat → Nat → Val → NumM Val
  | [], _, _, v => pure v
  | w :: l, r, c, v => do
    let v ← stage ops held w r c v
    stages ops held l r c v
def isPaired (w : Nat) : Bool := Desc.sKind w == 2 && field (Desc.sArg w) 1 0 == 3
/-- The stages before a PAIRED gate, and whether there is one. -/
def beforePair (l : List Nat) : List Nat × Bool := (l.takeWhile (fun w => !isPaired w), l.any isPaired)
/-- Rows of operand i that the stages given read: all of them, row 0 alone, or none. -/
def rowsUsed (l : List Nat) (i vr : Nat) : Nat :=
  let uses := l.filter fun w => [1, 2, 3].contains (Desc.sKind w) && field (Desc.sArg w) 1 0 == i
  if uses.any fun w => !(Desc.sKind w == 1 && bit (Desc.sArg w) 2) then vr else if uses.isEmpty then 0 else min 1 vr
/-- Grids of the three operands as the stages given read them. -/
def operands (l : List Nat) (ts : List (Option Tile)) (vr vc : Nat) : NumM (List Tile.Grid) :=
  (List.range 3).mapM fun i => match ts.getD i none with
    | some t => operandGrid t (rowsUsed l i vr) vc
    | none => pure []
/-- Stages on every valid element; an element counts once through all of them (R99). -/
def runStages (ops : List Tile.Grid) (held : Tile.Grid) (l : List Nat) (g : Tile.Grid) : NumM Marked :=
  g.zipIdx.mapM fun (row, r) => row.zipIdx.mapM fun (v, c) => Num.once (false, false) (stages ops held l r c v)
/-- Records of the rows of a converted tile (R140, R145). -/
def tileRecs (t : Tile) : NumM (List Rec) :=
  (List.range t.vr).mapM fun r => do
    let l ← (List.range t.vc).mapM fun c => t.decode r c
    rowRec l

/-! ### Softmax in the chain (R150, R151) -/

/-- Tile t of a row: the values written, the row state and its stamps. m and l are the running maxima and sums of the
rows that an earlier tile had valid; a row that this tile has not keeps its own (R150: for each valid row). -/
def softTile (g : Marked) (m l : List Val) : NumM (Marked × List Val × List Val × List Val) := do
  let rows ← g.zipIdx.mapM fun (y, r) => do
    let mt := rowMax (y.map (·.1))
    let flat := match mt with
      | .inf true => true
      | _ => false
    let e ← if flat then pure (y.map fun v => (Num.zero false, v.2))
      else y.mapM fun v => Num.once v.2 do
        let d ← Num.sub v.1 mt
        Fn.exp2 d
    let st ← if flat then pure (Num.zero false) else rowSum (e.map (·.1))
    let (mn, ln) ← match m[r]?, l[r]? with
      | some m0, some l0 => do
        let mn := Num.max m0 mt
        let d1 ← Num.sub m0 mn
        let f1 ← Fn.exp2 d1
        let a ← Num.mul l0 f1
        let d2 ← Num.sub mt mn
        let f2 ← Fn.exp2 d2
        let b ← Num.mul st f2
        let ln ← Num.add a b
        pure (mn, ln)
      | _, _ => pure (mt, st)
    pure (e, mn, ln, mt)
  pure (rows.map (·.1), rows.map (·.2.1) ++ m.drop rows.length, rows.map (·.2.2.1) ++ l.drop rows.length,
    rows.map (·.2.2.2))
/-- The completion step of one tile: e are its values, ms and ls the row's M and l; rinv is formed once per row, and its
marks count at the row's first tile (R151). -/
def softDone (first : Bool) (e : Tile.Grid) (stamps ms ls : List Val) : NumM Marked :=
  e.zipIdx.mapM fun (row, r) => do
    let m := ms.getD r .nan
    match m with
    | .inf true => pure (row.map fun _ => (Num.zero false, (false, false)))
    | _ => do
      let inv : NumM Val := do
        let lg ← Fn.log2 (ls.getD r .nan)
        Fn.exp2 (Num.neg lg)
      let rinv ← if first then inv else Num.silent inv
      let d ← Num.sub (stamps.getD r .nan) m
      let f ← Fn.exp2 d
      let g ← Num.mul f rinv
      row.mapM fun v => Num.once (false, false) (Num.mul v g)

/-! ### VEC and FN -/

/-- The source codes that the words of a sequence use. -/
def sources (ws : List Nat) : List Nat :=
  ws.flatMap fun w => [Fn.sa w, Fn.sb w, Fn.sc w].take (Fn.arity (Fn.opc w))
/-- Row values of IN_B with STATS set: COUNT rounded to FP32, MEAN, M2 (R159); NaN beyond its rows (R500). -/
def statRow (used : List Nat) (b : Tile) (r : Nat) : NumM (List Val) := do
  if b.vr ≤ r || b.vc = 0 then pure [.nan, .nan, .nan]
  else
    let n ← Num.round false (b.statCount r) 0
    let m ← if used.contains 0xD then b.statMean r else pure .nan
    let q ← if used.contains 0xE then b.statM2 r else pure .nan
    pure [n, m, q]
/-- Elements of IN_B that a row's words read: by column, none where unused. -/
def vecRowB (used : List Nat) (b : Tile) (r vc : Nat) : NumM (List Val) :=
  (List.range (max vc 3)).mapM fun c =>
    if (used.contains 9 && decide (c < vc)) || (decide (c < 3) && used.contains (0xC + c)) then b.decodeOr r c else pure .nan
/-- The values of a VEC step before conversion. -/
def vecGrid (ws : List Nat) (statsSet : Bool) (a : Tile) (b c : Option Tile) : NumM Marked := do
  let used := sources ws
  (List.range a.vr).mapM fun r => do
    let rowB ← match b with
      | none => pure []
      | some b => if statsSet then pure [] else vecRowB used b r a.vc
    let st ← match b with
      | some b => if statsSet then statRow used b r else pure []
      | none => pure []
    (List.range a.vc).mapM fun k => do
      let x ← a.decode r k
      let eb ← match b with
        | some b => if statsSet && used.contains 9 then b.decodeOr r k else pure (rowB.getD k .nan)
        | none => pure .nan
      let ec ← match c with
        | some c => if used.contains 0xA then c.decodeOr r k else pure .nan
        | none => pure .nan
      let src := fun (i w : Nat) =>
        if i = 8 then x else if i = 9 then eb else if i = 0xA then ec else if i = 0xB then Num.const (Fn.imm w)
        else if statsSet then st.getD (i - 0xC) .nan else rowB.getD (i - 0xC) .nan
      Num.once (false, false) (Fn.runWords src ws (x :: List.replicate 7 (Num.zero false)))
/-- The tile of an FN step; an element that saturates in exp2 and in its conversion counts once (R157). -/
def fnTile (op f rows cols : Nat) (a : Tile) : NumM Tile := do
  let g ← (List.range a.vr).mapM fun r => (List.range a.vc).mapM fun c => do
    let x ← a.decode r c
    Num.once (false, false) (if op = 1 then Fn.exp2 x else Fn.log2 x)
  Tile.build f rows cols a.vr a.vc false a.co (values g) (hads g) fun _ _ => none

/-! ### RED (R144) -/

/-- One row's contribution: none where the row has no valid element. -/
def redRow (op : Nat) (a : Tile) (b : Option Tile) (r : Nat) : NumM (Option (List Val)) := do
  let recVals := fun (x : Rec) => [Num.ofNat x.1, x.2.1, x.2.2]
  if op = 0x11 then
    if a.vc = 0 then pure none
    else
      let m ← a.statMean r
      let q ← a.statM2 r
      pure (some (recVals (a.statCount r, m, q)))
  else if a.vc = 0 then pure none
  else
    let l ← if op = 4 then pure [] else (List.range a.vc).mapM fun c => a.decode r c
    if op = 1 then some <$> (do let v ← rowSum l; pure [v])
    else if op = 2 then pure (some [rowMax l])
    else if op = 3 then pure (some [rowMin l])
    else if op = 4 then pure (some [Num.ofNat a.vc])
    else if op = 0x10 then do
      let x ← rowRec l
      pure (some (recVals x))
    else do
      let mean ← match b with
        | some b => if r < b.vr ∧ b.vc ≠ 0 then b.statMean r else pure .nan
        | none => pure .nan
      let q ← rowM2 mean l
      pure (some [q])
def recOf (l : List Val) : Rec :=
  let n := match l.getD 0 (Num.zero false) with
    | .fin _ m e => m * 2 ^ e.toNat
    | _ => 0
  (n, l.getD 1 .nan, l.getD 2 .nan)
/-- Fold a row's contribution onto what is accumulated. -/
def redFold (op : Nat) (a b : Option (List Val)) : NumM (Option (List Val)) :=
  match a, b with
  | none, b => pure b
  | a, none => pure a
  | some x, some y =>
    if op = 0x10 ∨ op = 0x11 then do
      let m ← merge (recOf x) (recOf y)
      pure (some [Num.ofNat m.1, m.2.1, m.2.2])
    else
      let u := x.getD 0 .nan
      let v := y.getD 0 .nan
      if op = 2 then pure (some [Num.max u v])
      else if op = 3 then pure (some [Num.min u v])
      else if op = 4 then
        match u, v with
        | .fin _ m _, .fin _ n _ => pure (some [Num.ofNat (m + n)])
        | _, _ => pure (some [u])
      else do
        let w ← Num.add u v
        pure (some [w])
/-- The identity of R119. -/
def redIdentity (op : Nat) : List Val :=
  if op = 2 then [.inf true] else if op = 3 then [.inf false]
  else if op = 0x10 ∨ op = 0x11 then [Num.ofNat 0, Num.zero false, Num.zero false] else [Num.zero false]
/-- The tile an accumulation delivers, with the counts of the step that ends it. -/
def redTile (op f rows vr vc : Nat) (co : Coord) (acc : Sums) : NumM Tile := do
  if vr = 0 ∨ vc = 0 then pure (Tile.nullTile f rows (if op = 0x10 ∨ op = 0x11 then 4 else 1) vr (min vc 1) co)
  else
    let row := fun r => ((acc.getD r none).getD (redIdentity op))
    if op = 0x10 ∨ op = 0x11 then pure (Tile.buildStats rows vr co ((List.range vr).map fun r => recOf (row r)))
    else Tile.build f rows 1 vr 1 false co ((List.range vr).map row) [] fun _ _ => none

end Calc
end Machine
end Sys2Proof
end

