-- ==== Sys2Proof/Machine/Loader.lean ====
section
/-! DEFINITION. The loader: it copies what a job descriptor names and applies the checks of
spec/05_loop_tables_and_fusion.md R121 and spec/16_scheduling_and_budgets.md R502 to the copies. -/

namespace Sys2Proof
namespace Machine
namespace Load

open Bits

/-- Why a job does not load: a refusal with its status and INDEX, or an uncorrectable line (spec/13_stacked_memory.md
R301). -/
inductive LFail where
  | refuse (status index : Nat)
  | bad (line : Nat)
  deriving DecidableEq, Repr

/-- The loader's reads and checks. -/
abbrev LM (α : Type) := ExceptT LFail (StateM MemRun) α

/-- Read n bytes at a; a refused address is a refusal with the status and index given
(spec/19_security.md R446). -/
def fetch (v : Via) (a n st ix : Nat) : LM Bytes := do
  let w ← getThe MemRun
  let (r, w) := (MM.read v a n).run.run w
  set w
  match r with
  | .ok d => pure d
  | .error (.refused _) => throw (.refuse st ix)
  | .error (.bad l) => throw (.bad l)

def must (ok : Bool) (st ix : Nat) : LM Unit := if ok then pure () else throw (.refuse st ix)
def pass (c : Check.Ck) : LM Unit :=
  match c with
  | .ok _ => pure ()
  | .error (st, ix) => throw (.refuse st ix)
/-- n bytes at a have the permission w. -/
def allowed (v : Via) (a n : Nat) (w : Bool) : Bool := (Ops.xlatRun v.host v.fn a n w).isSome

/-- Descriptors up to the first that carries LAST, of at most so many; and whether one carries it
(spec/02_streams_and_stations.md R24). -/
def program (v : Via) (a : Nat) : Nat → Nat → LM (List Bytes × Bool)
  | 0, _ => pure ([], false)
  | k + 1, i => do
    let d ← fetch v (a + 64 * i) 64 0x0101 Check.none32
    if Desc.last d then pure ([d], true)
    else
      let (r, ok) ← program v a k (i + 1)
      pure (d :: r, ok)

/-- Step 0: the job descriptor and the structures it names. -/
def step0 (v : Via) (j : Job) : LM Job := do
  let b := j.desc
  let no := Check.none32
  must (Check.jobDesc b j.cls) 0x0101 no
  must (JDesc.events b == 0 || (allowed v (JDesc.events b) 32768 false && allowed v (JDesc.events b) 32768 true)) 0x0101 no
  let table ← if JDesc.loopTable b = 0 then pure Tab.defaultTable else fetch v (JDesc.loopTable b) Tab.size 0x0101 no
  let loop ← if JDesc.loopSeq b = 0 then pure none else some <$> fetch v (JDesc.loopSeq b) 64 0x0101 no
  let cacheD ← if JDesc.cacheDesc b = 0 then pure [] else fetch v (JDesc.cacheDesc b) 64 0x0101 no
  let (prog, ok) ← program v (JDesc.program b) 1024 0
  let j := { j with table := table, loop := loop, cacheD := cacheD, prog := prog }
  must (JDesc.numeric b == 0 || allowed v (JDesc.numeric b) (Check.numericBytes prog) true) 0x0101 no
  must (Check.events j) 0x0101 no
  must ok 0x0101 1023
  pure j

/-- Step 2, descriptor by descriptor, with the copies of the VEC sequences. -/
def step2 (v : Via) (j : Job) : List Nat → LM Job
  | [] => pure j
  | d :: r => do
    let x := j.descAt d
    let vec := Desc.station x == Desc.vec
    let j ← if vec && Check.vecArea x then do
        let q ← fetch v (Desc.seqAddr x) (8 * Desc.seqLen x) 0x0101 d
        pure { j with seqs := Sparse.put j.seqs d q }
      else pure j
    must (Check.fields j d && (!vec || Check.vecSeq x (Check.seqOf j d))) 0x0101 d
    step2 v j r

/-- Step 3: loop table, loop block, step-coefficient table and cache descriptor. -/
def step3 (v : Via) (j : Job) : LM Job := do
  let no := Check.none32
  pass (Check.each j 0x0101 fun d => Check.scatPlane j (j.descAt d))
  must (Check.table j) 0x0101 no
  let j ← match j.loop with
    | none => pure j
    | some b => do
      must (Check.loopBlock b) 0x0101 no
      let c ← fetch v (Check.stepTable b) (16 * Check.niter b) 0x0101 no
      must (Check.coefTable c (Check.niter b)) 0x0101 no
      pure { j with coefs := c }
  must (j.cacheD.isEmpty || CacheOps.descOk j.cacheD) 0x0101 no
  pure j

/-- Cells that a job descriptor asks for. -/
def wants (b : Bytes) : Nat := if JDesc.espalier b then 3072 else JDesc.gr b * JDesc.gc b
/-- Bytes of the context area (spec/16_scheduling_and_budgets.md R381). -/
def contextBytes (n : Nat) : Nat := 32768 + 64 + 512 * n

/-- The whole loader for a job whose descriptor has been copied; resv is its ring's reservation. -/
def load (v : Via) (resv : Nat) (j : Job) : LM Job := do
  let j ← step0 v j
  let j ← step2 v j (List.range j.prog.length)
  let j ← step3 v j
  pass (Check.later j)
  pass (Check.blitz j resv)
  let n := contextBytes (wants j.desc)
  must (allowed v (JDesc.context j.desc) n false && allowed v (JDesc.context j.desc) n true) 0x0101 Check.none32
  pass (Check.countFree j)
  pure j

/-- Run the loader on a state, charged to class k. -/
def run (s : State) (k : Nat) (v : Via) (resv : Nat) (j : Job) : Except LFail Job × State :=
  let (r, w) := (load v resv j).run.run ⟨s.mem, 0, [], [], []⟩
  (r, (s.setMem w.mem).setSched (MM.charges s.sched k w))

end Load
end Machine
end Sys2Proof
end

