-- ==== Sys2Proof/Machine/JobOps.lean ====
section
/-! DEFINITION. Operations on admitted jobs that every family shares: whose class they run in, faults and ends, hub
events, counts, plot-store windows and work counters (spec/16_scheduling_and_budgets.md,
spec/18_reliability_and_recovery.md R422, spec/02_streams_and_stations.md R43 to R45). -/

namespace Sys2Proof
namespace Machine
namespace JobOps

open Bits Ops

def find (c : Sched) (id : Nat) : Option Job := c.jobs.find? (·.id == id)
/-- The scheduler with job j in place of the job of its id. -/
def put (c : Sched) (j : Job) : Sched := { c with jobs := c.jobs.map fun x => if x.id = j.id then j else x }
def set (s : State) (j : Job) : State := s.setSched (put s.sched j)
def drop (s : State) (id : Nat) : State := s.setSched { s.sched with jobs := s.sched.jobs.filter (·.id != id) }
/-- s with job id changed by f. -/
def upd (s : State) (id : Nat) (f : Job → Job) : State :=
  match find s.sched id with
  | none => s
  | some j => set s (f j)

/-- Budget class of a job; an expired blitz job runs under the urgent class (R391, R392). -/
def budget (s : State) (j : Job) : Nat := if j.expired then 2 else budgetClass s.host j.ring j.cls
/-- Class that a job adjourns with, and as which it is adjourned (R371, R391). -/
def rank (j : Job) : Nat := if j.expired then 1 else j.cls
/-- Whose memory accesses they are, for requester code src of spec/13_stacked_memory.md R301. -/
def via (s : State) (j : Job) (src : Nat) : Via := ⟨s.host, j.fn, ⟨some j.id, Check.none32, src⟩, s.now, budget s j⟩
/-- The same for a step or execution of descriptor d. -/
def viaAt (s : State) (j : Job) (src d : Nat) : Via := { via s j src with who := ⟨some j.id, d, src⟩ }
/-- Requester code of cell g. -/
def cellSrc (j : Job) (g : Nat) : Nat := j.lid g
/-- Requester code of a hub station. -/
def hubSrc (station : Nat) : Nat := 0x10000 + station
/-- SOURCE of an event record (spec/18_reliability_and_recovery.md R433): scheduler and hub stations. -/
def srcSched : Nat := 0x2000
def srcHub (station : Nat) : Nat := 0x2000 + station

/-- The job issues steps and takes grants. -/
def live (j : Job) : Bool := j.phase == .running && !j.replay
/-- A granted INGEST execution that has not started, because its queue entry is not written yet
(spec/12_decode_and_ingest.md R282); such executions count as not granted when their job stops (log 32). -/
def unstarted (x : HubExec) : Bool := match x.work with
  | .dec w => !w.started
  | _ => false
/-- No tile step is in flight and no hub execution is granted and incomplete. -/
def still (j : Job) : Bool := j.hexec.all unstarted && j.cells.all fun (_, c) => c.flights.isEmpty

/-- Log an event about a job. -/
def log (s : State) (j : Job) (status source cls a0 a1 : Nat) (removes : Bool := false) : State :=
  logEvent s { status := status, source := source, fn := j.fn, cls := cls, arg0 := a0, arg1 := a1, removes := removes,
               relanes := j.relanes }

/-- Decide a job's end: it issues nothing more, and what has issued completes. The first decision stands. -/
def endJob (j : Job) (status index cell cls : Nat) : Job :=
  if j.phase = .ending then j
  else { j with phase := .ending, status := status, index := index, cell := cell, fcls := cls, replay := false }
/-- Log a fault of class 3 and end its job. -/
def lose (s : State) (id status index cell source a0 a1 : Nat) : State :=
  match find s.sched id with
  | none => s
  | some j => set (log s j status source 3 a0 a1) (endJob j status index cell 3)

/-- A fault at a tile step or hub execution that R422 answers with a replay the first time, and as job-lost when it
recurs or is the job's sixteenth. -/
def fault (s : State) (id : Nat) (k : FaultKey) (cell source a0 a1 : Nat) (removes : Bool := false) : State :=
  match find s.sched id with
  | none => s
  | some j =>
    if j.faults.contains k ∨ 15 ≤ j.replays then lose s id k.status k.d cell source a0 a1
    else
      let s := log s j k.status source 2 a0 a1 removes
      let wait := j.phase == .running
      set s { j with faults := j.faults ++ [k], replay := j.replay || wait,
                     replays := if j.replay || !wait then j.replays else j.replays + 1 }

/-- A step is discarded: it never completes, and its transactions belong to nobody any more. -/
def abandon (s : State) (id g d : Nat) : State :=
  let s := upd s id fun j => match Sparse.get? j.cells g with
    | none => j
    | some c => { j with cells := Sparse.put j.cells g { c with flights := c.flights.filter (·.d != d) } }
  s.setFab { s.fab with txns := s.fab.txns.map fun t => match t.owner with
    | .cell k h e _ => if (k == id && h == g && e == d) = true then { t with owner := .gone } else t
    | _ => t }

/-- Read-modify-writes that met an uncorrectable line (spec/13_stacked_memory.md R305): the steps of their jobs are
replayed under R422, and the host's writes are dropped with the event alone. -/
def settle (s : State) : Memory.Lost → State
  | [] => s
  | (line, src, ws) :: r =>
    let stack := 0x4000 + Memory.stackOf (64 * line)
    let mine := ws.filterMap fun w => (w.job.bind (find s.sched)).map fun j => (j, w)
    let s := if mine.isEmpty then logEvent s { status := 0x0302, source := stack, arg0 := 64 * line, arg1 := src }
      else mine.foldl (fun s (j, w) =>
        let isCell := decide (w.src < 3072)
        let source := if isCell then w.src else if w.src / 0x10000 = 1 then 0x2000 + w.src % 256 else stack
        fault s j.id ⟨0x0302, if isCell then some w.src else none, w.desc, line, j.epoch⟩
          (if isCell then w.src else 0xFFFF) source (64 * line) w.src) s
    settle s r

/-- Run memory accesses, charged to class k; lost read-modify-writes are settled. -/
def run {α : Type} (s : State) (k : Nat) (act : MM α) : Except MFail α × State :=
  let (r, s, lost) := MM.exec s k act
  (r, settle s lost)

/-- The fault procedure of R123: the cell stops issuing, and its report is on its way to the hub. -/
def overflow (j : Job) (g status d off : Nat) : Job :=
  match Sparse.get? j.cells g with
  | none => j
  | some c => { j with cells := Sparse.put j.cells g { c with halt := true, report := some (status, d, off) } }

/-! ### Hub events (R43 to R45) -/

def eventAddr (j : Job) (e : Nat) : Nat := JDesc.events j.desc + 8 * e
/-- The counter of event e as it stands in memory; none where its line is uncorrectable. -/
def eventValue (s : State) (j : Job) (e : Nat) : Option Nat :=
  match xlatRun s.host j.fn (eventAddr j e) 8 false with
  | some [(a, n)] => match Memory.read s.mem a n with
    | (.ok b, _) => some (le b)
    | (.error _, _) => none
  | _ => none

/-- The hub looks at the event that an execution of descriptor d waits for (R45): an uncorrectable line there ends the job
(R301; spec/18_reliability_and_recovery.md R422). -/
def pollEvent (s : State) (j : Job) (e : Nat) : State :=
  match xlatRun s.host j.fn (eventAddr j e) 8 false with
  | some [(a, n)] =>
    match readMem s (budget s j) a n with
    | (.bad l, t) => if live j && !s.bu.stopped then lose t j.id 0x0302 Check.none32 0xFFFF srcSched l 0x10000 else s
    | _ => s
  | _ => s

/-- Executions of a hub descriptor in one iteration of the job (R47). -/
def hubTotal (j : Job) (d : Nat) : Nat :=
  let lo := Desc.lv (j.descAt d)
  match Tab.claimLevel j.table with
  | some c => j.iters (Tab.bound j.table c) lo
  | none => j.iters 0 lo
/-- Hub descriptors. -/
def hubDescs (j : Job) : List Nat := (List.range j.prog.length).filter fun d => Desc.isHub (j.descAt d)
/-- Executions of hub descriptor d that are ready: their iteration is reached and, with WAIT, the event stands at their
threshold. -/
def readyUpTo (s : State) (j : Job) (d : Nat) : Nat :=
  let x := j.descAt d
  let top := (j.epoch + 1) * hubTotal j d
  if !Desc.wait x then top
  else if Desc.evtCount x = 0 then top
  else match eventValue s j (Desc.evtId x) with
    | some v => min top (v / Desc.evtCount x)
    | none => 0
/-- Executions of descriptor d of job id recorded as ready. -/
def knownReady (c : Sched) (id d : Nat) : Nat :=
  (c.ready.filter fun e => e.1 == id && e.2.1 == d).foldl (fun m e => max m e.2.2) 0
/-- Record the hub executions that have become ready (R501). Which of two that become ready at one moment is granted
first is not stated: it is the earlier admitted job's, then that of the lower descriptor index (DESIGN CHOICE, log 57). -/
def refreshReady (s : State) : State :=
  let news := (s.sched.jobs.filter fun j => j.phase == .running).flatMap fun j =>
    (hubDescs j).filterMap fun d =>
      let n := readyUpTo s j d
      if knownReady s.sched j.id d < n then some (j.id, d, n) else none
  s.setSched { s.sched with ready := s.sched.ready ++ news }

/-- The increment of R44 for one completed step or execution of descriptor d; `wrote` are the memory lines that a STORE or
SCAT step wrote, whose write-combining entries are flushed first (spec/13_stacked_memory.md R304). -/
def signal (s : State) (id d : Nat) (wrote : List Nat) : State :=
  match find s.sched id with
  | none => s
  | some j =>
    let x := j.descAt d
    if !Desc.signal x then s
    else
      let v := via s j 0x10000
      let a := eventAddr j (Desc.evtId x)
      let (s, lost) := flushWhere s fun e => wrote.contains e.line
      let s := settle s lost
      let act : MM Unit := do
        let n ← MM.get v a 8
        MM.put v a 8 (n + 1)
      match run s (budget s j) act with
      | (.ok _, s) => refreshReady s
      | (.error (.bad l), s) => lose s id 0x0302 Check.none32 0xFFFF srcSched l 0x10000
      | (.error (.refused _), s) => s

/-! ### Counts (spec/04_number_formats.md R99 to R102) -/

/-- Add a step's counts to its job and, unless HOLD is set, to the module's. -/
def tally (s : State) (id : Nat) (cell : Option Nat) (step n d : Nat) (k : Marks) (census : List Nat) : State :=
  match find s.sched id with
  | none => s
  | some j =>
    if k.sat = 0 ∧ k.flush = 0 ∧ census.isEmpty then s
    else
      let era := if s.tm.hold then none else some s.tm.era
      let s := set s { j with tally := j.tally ++ [⟨j.epoch, cell, step, n, d, k.sat, k.flush, census, era⟩] }
      if s.tm.hold then s
      else s.setTm { s.tm with sat := satInc top64 s.tm.sat k.sat, flush := satInc top64 s.tm.flush k.flush }
/-- Take counts of discarded work out of the module's counts. -/
def untally (s : State) (l : List Tally) : State :=
  l.foldl (fun s t =>
    if t.era = some s.tm.era then s.setTm { s.tm with sat := s.tm.sat - t.sat, flush := s.tm.flush - t.flush } else s) s
/-- Charge energy, in units of 0.01 pJ, to a job's class. -/
def spend (s : State) (j : Job) (e : Nat) : State := s.setSched (charge s.sched (budget s j) 0 e)

/-! ### Plot store (spec/05_loop_tables_and_fusion.md R126, R129) -/

/-- Key of a plot-store byte. -/
def plotKey (p o : Nat) : Nat := Config.plotStoreBytes * p + o
/-- Key of a 64-byte plot-store unit. -/
def unitKey (p o : Nat) : Nat := 2 ^ 20 * p + o / 64
def winOf (j : Job) (p : Nat) : Nat := Sparse.getD j.wins p 0
/-- n bytes at offset o of the job's window on plot p. -/
def plotRead (c : Sched) (j : Job) (p o n : Nat) : Bytes := Memory.run c.plot (plotKey p (winOf j p + o)) n
def plotWrite (c : Sched) (j : Job) (p o : Nat) (b : Bytes) : Sched :=
  { c with plot := Memory.put c.plot (plotKey p (winOf j p + o)) b }
/-- Zeros over every window of the job; errors in them end (R126; spec/13_stacked_memory.md R302). -/
def zeroWindows (c : Sched) (j : Job) : Sched :=
  let n := Tab.psSize j.table
  j.wins.foldl (fun c (p, o) =>
    { c with plot := c.plot.filter (fun e => !(decide (plotKey p o ≤ e.1) && decide (e.1 < plotKey p o + n))),
             plotErrs := c.plotErrs.filter fun e => !(decide (unitKey p o ≤ e.1) && decide (e.1 < unitKey p o + n / 64)) }) c

/-- Plot that holds the work counter: that of the group's first cell (R129). -/
def wcPlot (j : Job) : Nat := j.plot 0
def wcValue (c : Sched) (j : Job) : Nat := le (plotRead c j (wcPlot j) (Tab.wcOffset j.table) 8)
def wcSetValue (c : Sched) (j : Job) (v : Nat) : Sched := plotWrite c j (wcPlot j) (Tab.wcOffset j.table) (toLe 8 v)
def ownerAt (j : Job) (g : Nat) : Nat := Tab.wcOffset j.table + 0x40 + 8 * g
/-- Tag and value of OWNER[g]. -/
def wcOwner (c : Sched) (j : Job) (g : Nat) : Nat × Nat :=
  let v := le (plotRead c j (wcPlot j) (ownerAt j g) 8)
  (v / 2 ^ 48, v % 2 ^ 48)
def wcSetOwner (c : Sched) (j : Job) (g tag v : Nat) : Sched :=
  plotWrite c j (wcPlot j) (ownerAt j g) (toLe 8 (tag % 2 ^ 16 * 2 ^ 48 + v % 2 ^ 48))
/-- The work counter block with VALUE v and no owner. -/
def wcFresh (c : Sched) (j : Job) (v : Nat) : Sched :=
  if (Tab.claimLevel j.table).isNone then c
  else (List.range j.ncells).foldl (fun c g => plotWrite c j (wcPlot j) (ownerAt j g) (List.replicate 8 0xFF#8))
    (wcSetValue c j v)

/-! ### Steps and iterations -/

/-- Descriptors that issue tile steps. -/
def stepDescs (j : Job) : List Nat := (List.range j.prog.length).filter fun d => Desc.steps (j.descAt d)
/-- Steps of descriptor d in one iteration of level l (l at or above its level). -/
def stepsPer (j : Job) (d l : Nat) : Nat := Tab.prod j.table (Desc.lv (j.descAt d)) l * j.perExec d
/-- Steps of descriptor d for one claimed value (R128). -/
def stepsPerValue (j : Job) (d : Nat) : Nat :=
  match Tab.claimLevel j.table with
  | some c => if Desc.lv (j.descAt d) ≤ c then stepsPer j d c else 0
  | none => 0
/-- Every step of the cell's iteration is complete, softmax rows included. -/
def cellDone (j : Job) (c : CellRun) : Bool :=
  c.flights.isEmpty && (stepDescs j).all fun d => j.settled c d && decide (j.total c d ≤ Sparse.getD c.done d 0) &&
    match j.rowStage d 8 with
    | none => true
    | some (rl, _) => decide (j.total c d / max 1 (stepsPer j d rl) ≤ Sparse.getD c.rows d 0)
/-- Every cell step of the iteration is complete. -/
def cellsDone (j : Job) : Bool := j.cells.all fun (_, c) => cellDone j c
def niter (j : Job) : Nat :=
  match j.loop with
  | some b => Check.niter b
  | none => 1
/-- Every hub execution of the iterations so far is complete. -/
def hubDone (j : Job) : Bool := (hubDescs j).all fun d => decide ((j.epoch + 1) * hubTotal j d ≤ Sparse.getD j.hdone d 0)
/-- All work of the job is complete. -/
def allDone (j : Job) : Bool := j.epoch + 1 == niter j && cellsDone j && hubDone j && j.hexec.isEmpty

end JobOps
end Machine
end Sys2Proof
end

