-- ==== Sys2Proof/Machine/Placing.lean ====
section
/-! DEFINITION. Placement of jobs on cells and plot-store windows (spec/16_scheduling_and_budgets.md R374, R375, R397). -/

namespace Sys2Proof
namespace Machine
namespace Placing

open Bits Ops JobOps

/-- Logical cell lid lies in a placement. -/
def covers (p : Placement) (lid : Nat) : Bool :=
  p.esp || (decide (p.row0 ≤ lid / 64) && decide (lid / 64 < p.row0 + p.gr) && decide (p.col0 ≤ lid % 64) &&
    decide (lid % 64 < p.col0 + p.gc))
/-- Logical cells of a placement, in cell order. -/
def lids (p : Placement) : List Nat :=
  if p.esp then List.range 3072
  else (List.range p.gr).flatMap fun r => (List.range p.gc).map fun c => 64 * (p.row0 + r) + p.col0 + c
def overlap (p q : Placement) : Bool := (lids p).any (covers q)
/-- The placement that job j holds: an adjourned job holds none. -/
def holds (j : Job) : Option Placement := if j.phase = .adjourned then none else j.place
/-- Jobs that hold logical cell lid. -/
def holders (c : Sched) (lid : Nat) : List Job :=
  c.jobs.filter fun j => match holds j with
    | some p => covers p lid
    | none => false
/-- Cell lid is available to a candidate of class k: in service, and free or held by a job that k adjourns (R374). -/
def available (s : State) (k lid : Nat) : Bool :=
  Starts.inService s.bu lid && (holders s.sched lid).all fun j => decide (k < rank j)

/-- Positions of a cell group, in ascending logical cell ID. -/
def positions (gr gc : Nat) : List Placement :=
  (List.range (49 - gr)).flatMap fun r => (List.range (65 - gc)).map fun c => ⟨false, r, c, gr, gc⟩
/-- Some position of in-service cells can hold the shape: one that castling has withdrawn for a time counts, since it is
unavailable and not out of service (spec/17_bring_up.md R418, R419). -/
def shapeFits (s : State) (gr gc : Nat) : Bool :=
  (positions gr gc).any fun p => (lids p).all (Starts.served s.bu)
/-- The first position of available cells. -/
def scan (s : State) (k gr gc : Nat) : Option Placement :=
  (positions gr gc).find? fun p => (lids p).all (available s k)
/-- Where a candidate of class k goes: the whole lattice, or a group. -/
def locate (s : State) (k : Nat) (esp : Bool) (gr gc : Nat) : Option Placement :=
  if esp then (if (List.range 3072).all (available s k) then some ⟨true, 0, 0, 0, 0⟩ else none)
  else scan s k gr gc

/-- Jobs that a placement by class k adjourns. -/
def displaced (c : Sched) (k : Nat) (p : Placement) : List Job :=
  c.jobs.filter fun j => decide (k < rank j) && match holds j with
    | some q => overlap q p
    | none => false

/-- Windows in use on plot p, by jobs that stay. -/
def inUse (c : Sched) (gone : List Nat) (p : Nat) : List (Nat × Nat) :=
  (c.jobs.filter fun j => (holds j).isSome && !gone.contains j.id && Tab.psSize j.table != 0).filterMap fun j =>
    (Sparse.get? j.wins p).map fun o => (o, Tab.psSize j.table)
/-- The lowest 4,096-byte-aligned offset at which n bytes are free: 0, or the end of a window. -/
def lowest (used : List (Nat × Nat)) (n : Nat) : Option Nat :=
  let cand := 0 :: used.map fun (o, k) => o + k
  (cand.filter fun o => decide (o + n ≤ Config.plotStoreBytes) &&
    used.all fun (q, k) => decide (o + n ≤ q) || decide (q + k ≤ o)).foldl
      (fun (m : Option Nat) o => some (match m with
        | some x => min x o
        | none => o)) none
/-- Plots that hold a cell of a placement. -/
def plots (p : Placement) : List Nat := (List.range 12).filter fun k => (lids p).any fun l => Job.plotOf l == k
/-- Windows for PS_SIZE n on every plot of placement p; none when a plot lacks room (R375). -/
def windows (c : Sched) (gone : List Nat) (p : Placement) (n : Nat) : Option (Sparse Nat) :=
  if n = 0 then some [] else (plots p).mapM fun k => (lowest (inUse c gone k) n).map fun o => (k, o)

/-- Job j makes way (R377 step 1): a running job drains; a waiting one loses its placement at once. -/
def giveWay (c : Sched) (j : Job) : Sched :=
  if j.phase = .running then put c { j with phase := .adjourning }
  else if j.phase = .waiting then
    put { c with nextAdj := c.nextAdj + 1 }
      { j with phase := .adjourned, place := none, wins := [], cells := [], adjSeq := c.nextAdj }
  else c

/-- Place job j of class k at p: windows, and the jobs it displaces make way; none when a plot lacks room. The job is
returned waiting. -/
def place (c : Sched) (k : Nat) (j : Job) (p : Placement) : Option (Sched × Job) :=
  let out := displaced c k p
  (windows c (out.map (·.id)) p (Tab.psSize j.table)).map fun w =>
    (out.foldl giveWay c, { j with place := some p, gr := p.gr, wins := w, phase := .waiting })

/-- The jobs that hold cells of a waiting job besides it. -/
def blockers (c : Sched) (j : Job) : List Job :=
  match j.place with
  | none => []
  | some p => c.jobs.filter fun q => q.id != j.id && match holds q with
    | some r => overlap p r
    | none => false

end Placing
end Machine
end Sys2Proof
end

