-- ==== Sys2Proof/Machine/Castling.lean ====
section
/-! DEFINITION. Removing a cell after READY: steps 1 and 2 of castling (spec/17_bring_up.md R418). -/

namespace Sys2Proof
namespace Machine
namespace Castle

open Bits Ops Starts JobOps

/-- Logical cells of row i whose serving column changes when physical column k goes out. -/
def moved (b : BringUp) (i k : Nat) : List Nat :=
  let out := Sparse.getD b.outMap i 0
  (List.range 16).filterMap fun c =>
    if serving out c = serving (setBit out k true) c then none else some (lidAt i c)
/-- Jobs that hold one of the logical cells listed make way. -/
def clear (c : Sched) (ls : List Nat) : Sched :=
  (c.jobs.filter fun j => match Placing.holds j with
    | some p => ls.any (Placing.covers p)
    | none => false).foldl Placing.giveWay c
/-- OUT of row i gains column k. -/
def setOut (b : BringUp) (i k : Nat) : BringUp :=
  { b with outMap := Sparse.put b.outMap i (setBit (Sparse.getD b.outMap i 0) k true) }
/-- Physical cell p is removed after READY: its field bit, the positions withdrawn, and their jobs adjourn; a spare only
gains its OUT bit. -/
def remove (s : State) (p : Nat) : State :=
  let s := Bring.addField s p
  let i := Bring.rowOfPhys p
  let k := Bring.colOfPhys p
  let ls := moved s.bu i k
  if ls.isEmpty then s.setBu (setOut s.bu i k)
  else
    let s := s.setBu { s.bu with withdrawn := s.bu.withdrawn ++ ls.filter (!s.bu.withdrawn.contains ·),
                                 castling := s.bu.castling ++ [⟨i, k, false, ls⟩] }
    s.setSched (clear s.sched ls)
/-- The cell that serves logical cell lid is declared failed (spec/18_reliability_and_recovery.md R423). -/
def declare (s : State) (lid : Nat) : State :=
  match physOf s.bu.outMap lid with
  | none => s
  | some p => remove s p

end Castle
end Machine
end Sys2Proof
end

