-- ==== Sys2Proof/Machine/CellOps.lean ====
section
/-! DEFINITION. A cell's operands, its scoreboard and the conditions under which a tile step issues
(spec/02_streams_and_stations.md R37 to R41; spec/05_loop_tables_and_fusion.md R113, R114, R123, R125;
spec/09_randomness_and_sampling.md R197). -/

namespace Sys2Proof
namespace Machine
namespace Cells

open Bits Ops JobOps

/-- Key of an execution's part of a descriptor. -/
def key (d part : Nat) : Nat := 2 ^ 20 * d + part
def cellOf (j : Job) (g : Nat) : Option CellRun := Sparse.get? j.cells g
def putCell (j : Job) (g : Nat) (c : CellRun) : Job := { j with cells := Sparse.put j.cells g c }
/-- The oldest step of d in flight: an espalier MAT may have several, as their sums drain (R68). -/
def flightOf (c : CellRun) (d : Nat) : Option Flight := c.flights.find? (·.d == d)
def putFlight (c : CellRun) (f : Flight) : CellRun :=
  { c with flights := c.flights.map fun x => if x.d = f.d ∧ x.n = f.n then f else x }
def dropFlight (c : CellRun) (d n : Nat) : CellRun :=
  { c with flights := c.flights.filter fun x => !(x.d == d && x.n == n) }
def noMarks : Marks := ⟨0, 0, 0⟩
/-- Run a computation: its value and marks. -/
def runNum {α : Type} (x : NumM α) : α × Marks := x.run noMarks
def addMarks (a b : Marks) : Marks := ⟨a.sat + b.sat, a.flush + b.flush, a.energy + b.energy⟩

/-! ### Regions (R113, R114) -/

/-- Where a region access of a step lies and what it is. -/
structure Spot where
  shape : Shape
  vr : Nat
  vc : Nat
  /-- offset in the region -/
  off : Int
  bytes : Nat
  size : Nat
  base : Nat
  co : Coord

def shapeBytes (x : Shape) : Nat := Tile.image x.fmt x.rows x.cols x.colb x.expand
/-- The access of step n of descriptor d at cell g to region r as a tile of shape sh; `step` and `row0` place the steps of
a MAT of more than 32 rows (R33). -/
def spot (j : Job) (c : CellRun) (g d n r : Nat) (sh : Shape) (step row0 : Nat) : Spot :=
  let x := Tab.regExpr j.table (r - 0x80)
  { shape := sh, vr := j.clip c g d n (Tab.rowDim j.table x) sh.rows row0,
    vc := j.clip c g d n (Tab.colDim j.table x) sh.cols 0, off := j.offset c g d n x + step, bytes := shapeBytes sh,
    size := Tab.regSize j.table (r - 0x80), base := Tab.regOffset j.table (r - 0x80), co := j.coord c g d n x row0 }
def Spot.null (p : Spot) : Bool := p.vr == 0 || p.vc == 0
/-- The footprint lies in the region (R123). -/
def Spot.fits (p : Spot) : Bool := decide (0 ≤ p.off) && decide (p.off + p.bytes ≤ p.size)
/-- The failing offset of R123 as 64 bits. -/
def Spot.fail (p : Spot) : Nat := wrap 64 p.off
def Spot.addr (p : Spot) : Nat := p.base + p.off.toNat
/-- The tile that a read delivers. -/
def Spot.tile (p : Spot) (c : CellRun) : Tile :=
  ⟨p.shape.fmt, p.shape.rows, p.shape.cols, p.vr, p.vc, p.shape.colb,
    if p.null then [] else Memory.run c.buf p.addr p.bytes, p.co⟩

/-- Rows of part s of an execution of MAT d (R33). -/
def partRows (j : Job) (d s : Nat) : Nat := min 32 (Desc.rows (j.descAt d) - 32 * s)
/-- Format in which a region's writer packs it; a rooted region is read in f, a coefficient region in FP32 (R113). -/
def writerFmt (j : Job) (r f : Nat) : Nat :=
  if Check.isCoef j r then Fmt.fp32
  else if Tab.rooted j.table (r - 0x80) then f
  else match (j.producer r).bind (Check.shapeOf j) with
    | some s => s.fmt
    | none => f
/-- The tile that operand i (0 IN_A, 1 IN_B, 2 IN_C) of descriptor d describes when it is region r (R113); s is the part of
a MAT's execution. A MAT reads its operands in the orientation of their roles; every other station reads a tile in the
orientation in which the region's writer packed it (spec/04_number_formats.md R83, R84). -/
def readShape (j : Job) (d i r s : Nat) : Shape :=
  let x := j.descAt d
  let st := Desc.station x
  let f := writerFmt j r (Desc.fmtIn x)
  let (cb, ex) := Check.packing j r
  if st = Desc.mat ∧ i = 0 then ⟨Desc.fmtIn x, partRows j d s, Desc.cols x, false, 0⟩
  else if st = Desc.mat then ⟨Desc.wFmt x, 32, Desc.cols x, true, Desc.expand x⟩
  else if i = 0 ∧ st ≠ Desc.epi then ⟨Desc.fmtIn x, Desc.rows x, Desc.cols x, cb, if st = Desc.store then ex else 0⟩
  -- the coefficient region holds rows of the four words of a table entry (spec/10_convolution_and_latent_loops.md R231)
  else if Check.isCoef j r then ⟨Fmt.fp32, Desc.rows x, 4, false, 0⟩
  else if i = 1 ∧ (Desc.stats x ∨ (st = Desc.red ∧ Desc.op x = 0x12)) then ⟨Fmt.fp32, Desc.rows x, 4, false, 0⟩
  else if i = 1 ∧ st = Desc.scat then ⟨Fmt.uint8, Desc.rows x, 8, false, 0⟩
  else ⟨f, Desc.rows x, Desc.cols x, cb, 0⟩
/-- Operand i of step n of descriptor d as a region access. IN_A of a MAT steps through its region by its part. -/
def readSpot (j : Job) (c : CellRun) (g d n i r s : Nat) : Spot :=
  let x := j.descAt d
  let sh := readShape j d i r s
  if Desc.station x = Desc.mat ∧ i = 0 then
    spot j c g d n r sh (s * Tile.image (Desc.fmtIn x) 32 (Desc.cols x) false 0) (32 * s)
  else spot j c g d n r sh 0 0
/-- The output tile of descriptor d, part s. -/
def outShape (j : Job) (d s : Nat) : Shape :=
  match Check.shapeOf j d with
  | some x => if Desc.station (j.descAt d) = Desc.mat then { x with rows := partRows j d s } else x
  | none => ⟨Fmt.fp32, 1, 1, false, 0⟩
/-- The output of step n of descriptor d as a region access. -/
def writeSpot (j : Job) (c : CellRun) (g d n r s : Nat) : Spot :=
  let x := j.descAt d
  let sh := outShape j d s
  if Desc.station x = Desc.mat then
    spot j c g d n r sh (s * Tile.image (Desc.fmtOut x) 32 (Desc.cols x) sh.colb 0) (32 * s)
  else spot j c g d n r sh 0 0
def operandRef (x : Bytes) (i : Nat) : Nat := if i = 0 then Desc.inA x else if i = 1 then Desc.inB x else Desc.inC x
def nullOf (x : Bytes) : Tile := Tile.nullTile (Desc.fmtIn x) (Desc.rows x) (Desc.cols x) 0 0 ⟨[], 0xFF, 0xFF⟩
/-- A slot's tile as the first input of descriptor x: FMT_IN, and for VEC, FN and RED ROWS and COLS too, describe it
(spec/07_exp2_log2_and_composed_functions.md R157, R158; spec/06_epilogues_and_row_statistics.md R144). -/
def asRead (x : Bytes) (i : Nat) (t : Tile) : Tile :=
  let st := Desc.station x
  if i ≠ 0 then t
  else if st = Desc.vec ∨ st = Desc.fn ∨ st = Desc.red then
    { t with fmt := Desc.fmtIn x, rows := Desc.rows x, cols := Desc.cols x, vr := min t.vr (Desc.rows x),
             vc := min t.vc (Desc.cols x) }
  else if st = Desc.mat then { t with fmt := Desc.fmtIn x }
  else t
/-- The tile of operand i of step n of descriptor d at cell g; none where the descriptor has no such operand. A slot is
read whole at every step of an execution: for a MAT of more than 32 rows whose IN_A is a slot the spec places no further
tiles (R33 does so for regions alone; DESIGN CHOICE, log 48). -/
def operand (j : Job) (c : CellRun) (g d n i s : Nat) : Option Tile :=
  let r := operandRef (j.descAt d) i
  if r = 0xFF then none
  else if Desc.isSlot r then some (match Sparse.get? c.slots r with
    | some q => asRead (j.descAt d) i q.tile
    | none => nullOf (j.descAt d))
  else some ((readSpot j c g d n i r s).tile c)

/-! ### Espalier chains (spec/03_espalier_array.md R54, R55, R59; spec/05_loop_tables_and_fusion.md R116) -/

def chainLen (j : Job) (d : Nat) : Nat := max 1 (Desc.chainLen (j.descAt d))
def offsetIn (j : Job) (d g : Nat) : Nat := g % chainLen j d
def isTail (j : Job) (d g : Nat) : Bool := offsetIn j d g + 1 == chainLen j d
def isHead (j : Job) (d g : Nat) : Bool := offsetIn j d g == 0
/-- The position forms no chain: beyond ESP_CHAINS, past the last whole chain, or with no valid N column. -/
def beyond (j : Job) (c : CellRun) (g d n : Nat) : Bool :=
  let l := chainLen j d
  decide (Tab.chains j.table ≤ g / l) || decide (3072 < (g / l + 1) * l) ||
    match operand j c g d n 1 0 with
    | some t => t.vc == 0
    | none => true
/-- An espalier MAT at a cell that delivers null tiles whatever it computes. -/
def silent (j : Job) (c : CellRun) (g d n : Nat) : Bool :=
  j.espalier && Desc.station (j.descAt d) == Desc.mat && (!isTail j d g || beyond j c g d n)
/-- Step n of d consumes a null tile (R56). -/
def consumesNull (j : Job) (c : CellRun) (g d n : Nat) : Bool :=
  (List.range 3).any fun i => match operand j c g d n i (j.partOf d n) with
    | some t => t.null
    | none => false
/-- The output of step n of d at the cell is a null tile, as its operands' counts tell (R118); a VEC or RED that consumes
a null tile as any operand gives one (R56; spec/08_attention_and_paged_cache.md: tiles beyond LEN change no state). -/
def outNull (j : Job) (c : CellRun) (g d n : Nat) : Bool :=
  let st := Desc.station (j.descAt d)
  let a := operand j c g d n 0 (j.partOf d n)
  if st = Desc.load then
    let x := j.descAt d
    let e := Desc.addrSel x
    j.clip c g d n (Tab.rowDim j.table e) (Desc.rows x) 0 == 0 || j.clip c g d n (Tab.colDim j.table e) (Desc.cols x) 0 == 0
  else if st = Desc.mat then silent j c g d n || match a, operand j c g d n 1 0 with
    | some a, some b => a.vr == 0 || b.vc == 0
    | _, _ => true
  else consumesNull j c g d n

/-- Region accesses that a step makes: reads, and the write at an accumulation's end. -/
def stepSpots (j : Job) (c : CellRun) (g d n : Nat) : List Spot :=
  let s := j.partOf d n
  let x := j.descAt d
  let rd := fun (q m p : Nat) => (List.range 3).filterMap fun i =>
    let r := operandRef (j.descAt q) i
    if Desc.isRegion r then some (readSpot j c g q m i r p) else none
  let fin := j.ends d n
  -- a consumer of a null tile makes no access (R56)
  let idle := Desc.station x != Desc.mat && consumesNull j c g d n
  (if idle then [] else rd d n s) ++
    (match j.epiOf d with
     | some e => if fin && !outNull j c g d n then rd e (j.execOf d n) 0 else []
     | none => []) ++
    (if Desc.isRegion (Desc.out x) && fin && !outNull j c g d n then [writeSpot j c g d n (Desc.out x) s] else [])

/-! ### Errors in cell buffers and plot stores (spec/13_stacked_memory.md R302) -/

/-- 64-byte units of n bytes from offset o. -/
def units (o n : Nat) : List Nat := if n = 0 then [] else (List.range ((o + n - 1) / 64 - o / 64 + 1)).map (o / 64 + ·)
/-- The first of the units listed that is uncorrectable, in mode 0. -/
def badIn (errs : Sparse (List Nat)) (l : List Nat) : Option Nat :=
  l.find? fun u => match Sparse.get? errs u with
    | none => false
    | some e => (Memory.decodeErr false e).isNone
/-- What the decoder leaves of the pattern of unit u: nothing, but where it corrects to a wrong codeword or sees no error
(spec/13_stacked_memory.md R299). -/
def leftOf (errs : Sparse (List Nat)) (u : Nat) : List Nat :=
  match Sparse.get? errs u with
  | none => []
  | some e => match Memory.decodeErr false e with
    | none => []
    | some p => Memory.residual e p
/-- Unit u of the cell buffer is read and, corrected, written back (R302): its pattern ends, and its bytes, in a slot or
in a region, take what the decoder left of it. -/
def fixUnit (c : CellRun) (u : Nat) : CellRun :=
  let left := leftOf c.errs u
  let c := { c with errs := Sparse.del c.errs u }
  if left.all (· == 0) then c
  else if 0xC0000 ≤ 64 * u then
    let r := (64 * u - 0xC0000) / 4096
    let o := (64 * u - 0xC0000) % 4096
    match Sparse.get? c.slots r with
    | none => c
    | some q =>
      let d := splice q.tile.data o (Memory.addErr (slice q.tile.data o (min 64 (q.tile.data.length - o))) left)
      { c with slots := Sparse.put c.slots r { q with tile := { q.tile with data := d } } }
  else { c with buf := Memory.put c.buf (64 * u) (Memory.addErr (Memory.run c.buf (64 * u) 64) left) }
/-- The same for a plot-store unit, by its key. -/
def fixPlot (c : Sched) (u : Nat) : Sched :=
  let left := leftOf c.plotErrs u
  let c := { c with plotErrs := Sparse.del c.plotErrs u }
  if left.all (· == 0) then c
  else { c with plot := Memory.put c.plot (64 * u) (Memory.addErr (Memory.run c.plot (64 * u) 64) left) }
/-- A whole unit that is written has new check symbols. -/
def clearErrs (errs : Sparse (List Nat)) (o n : Nat) : Sparse (List Nat) :=
  errs.filter fun e => !(decide (o ≤ 64 * e.1) && decide (64 * e.1 + 64 ≤ o + n))

/-! ### Slots (R37, R38) -/

def slotState (c : CellRun) (r : Nat) : Nat :=
  match Sparse.get? c.slots r with
  | some q => q.st
  | none => 0
/-- The output slots of descriptor d: its OUT, and the statistics slot of its epilogue. -/
def outSlots (j : Job) (d : Nat) : List Nat :=
  ([Desc.out (j.descAt d)] ++ match j.epiOf d with
    | some e => [Desc.out (j.descAt e)]
    | none => []).filter Desc.isSlot
/-- A producer issues into its slots. -/
def fillSlots (j : Job) (c : CellRun) (d : Nat) : CellRun :=
  { c with slots := (outSlots j d).foldl (fun m r =>
      if slotState c r = 0 then Sparse.put m r ⟨1, nullOf (j.descAt d), 0⟩ else m) c.slots }
/-- A slot becomes READY with a tile; the units that the tile is written to have new check symbols. -/
def readySlot (c : CellRun) (r : Nat) (t : Tile) : CellRun :=
  if Desc.isSlot r then
    { c with slots := Sparse.put c.slots r ⟨2, t, 0⟩,
             errs := clearErrs c.errs (0xC0000 + 4096 * r) (64 * ceilDiv t.data.length 64) }
  else c
/-- One consumer completion of slot r. -/
def takeSlot (j : Job) (c : CellRun) (r : Nat) : CellRun :=
  match Sparse.get? c.slots r with
  | none => c
  | some q =>
    if j.fillCount r ≤ q.taken + 1 then { c with slots := Sparse.del c.slots r }
    else { c with slots := Sparse.put c.slots r { q with taken := q.taken + 1 } }
/-- The consumer completions of step n of descriptor d, at the last part of an execution: one for each descriptor that
names the slot (R38). -/
def takeInputs (j : Job) (c : CellRun) (d n : Nat) : CellRun :=
  if j.partOf d n + 1 = max 1 (j.perExec d) then (j.stepTakes d n).foldl (fun c r => takeSlot j c r) c else c

/-! ### Conditions of R40 -/

def nextStep (c : CellRun) (d : Nat) : Nat := Sparse.getD c.issued d 0
/-- The cell has a step of d left to issue. -/
def hasNext (j : Job) (c : CellRun) (d : Nat) : Bool := decide (nextStep c d < j.total c d)

/-- Condition 1: slot inputs are READY. -/
def inputsReady (j : Job) (c : CellRun) (d n : Nat) : Bool :=
  ((j.stepInputs d n).filter Desc.isSlot).all fun r => slotState c r == 2
/-- Condition 3: output slots are EMPTY, or held FILLING by this accumulation. -/
def outputsFree (j : Job) (c : CellRun) (d n : Nat) : Bool :=
  (outSlots j d).all fun r => slotState c r == 0 ||
    (slotState c r == 1 && (!j.begins d n || j.partOf d n != 0))

/-- Region accesses of a step: region, write, depth. -/
def accesses (j : Job) (d : Nat) : List (Nat × Bool × Nat) :=
  let x := j.descAt d
  let rd := fun q => (Job.inputs (j.descAt q)).filter Desc.isRegion
  (rd d).map (fun r => (r, false, Desc.lv x)) ++
    (match j.epiOf d with
     | some e => (rd e).map fun r => (r, false, Desc.olv x)
     | none => []) ++
    (if Desc.isRegion (Desc.out x) then [(Desc.out x, true, j.accessLevel d (Desc.out x) true)] else [])
/-- Descriptor w has done what `need` asks, its softmax rows included (R151). -/
def metAll (j : Job) (c : CellRun) (w : Nat) (need : Job.Need) : Bool :=
  j.met c w need &&
    match j.rowStage w 8 with
    | none => true
    | some (rl, _) =>
      let per := max 1 (stepsPer j w rl)
      match need with
      | .count k => decide (ceilDiv k per ≤ Sparse.getD c.rows w 0)
      | .allBut k => decide (ceilDiv (j.total c w - k) per ≤ Sparse.getD c.rows w 0)
/-- Condition 2 of R40 and R125: of two accesses to a region of which one writes, the earlier has completed. -/
def regionsReady (j : Job) (c : CellRun) (d n : Nat) : Bool :=
  let fin := j.ends d n
  (accesses j d).all fun (r, wr, dl) =>
    (wr && !fin) || (stepDescs j).all fun w =>
      w == d || (accesses j w).all fun (q, ww, wl) =>
        q != r || (!wr && !ww) || metAll j c w (j.need d n dl wr w wl ww)
/-- A MAT's next row waits for the softmax completion of the row before (R151). -/
def rowDone (j : Job) (c : CellRun) (d n : Nat) : Bool :=
  match j.rowStage d 8 with
  | none => true
  | some (rl, _) => !j.ends d n || decide (n / max 1 (stepsPer j d rl) ≤ Sparse.getD c.rows d 0)

/-- The step uses the cell's special-function units (R164). -/
def usesUnits (j : Job) (d n : Nat) : Bool :=
  let x := j.descAt d
  let st := Desc.station x
  if st = Desc.fn then true
  else if st = Desc.vec then (Desc.words (Check.seqOf j d) (Desc.seqLen x)).any fun w => Fn.isUnit (Fn.opc w)
  else match j.epiOf d with
    | some e => j.ends d n && (Desc.stageList (j.descAt e)).any fun w =>
        Desc.sKind w == 4 || (Desc.sKind w == 2 && decide (1 < field (Desc.sArg w) 15 8)) || Desc.sKind w == 8
    | none => false
/-- Two steps count as steps of one station. -/
def shares (j : Job) (d n e m : Nat) : Bool :=
  Desc.station (j.descAt d) == Desc.station (j.descAt e) || (usesUnits j d n && usesUnits j e m)
/-- Condition 4: the station is not busy. An espalier MAT runs until its last row has issued at every cell; the next may
issue while its sums drain (spec/03_espalier_array.md R49, R68). -/
def stationFree (j : Job) (c : CellRun) (d n : Nat) : Bool :=
  c.flights.all fun f => !shares j d n f.d f.n || (Desc.station (j.descAt d) == Desc.mat && f.fed)

/-- Condition 5: the threshold of R45. -/
def granted (s : State) (j : Job) (c : CellRun) (d n : Nat) : Bool :=
  let x := j.descAt d
  !Desc.wait x || match eventValue s j (Desc.evtId x) with
    | some v => decide (Desc.evtCount x * (Sparse.getD c.prior d 0 + j.execOf d n + 1) ≤ v)
    | none => false

/-! ### Draw order (spec/09_randomness_and_sampling.md R197) -/

/-- Descriptor d takes lane draws. -/
def draws (j : Job) (d : Nat) : Bool :=
  (Check.rmodes j d).contains 1 || match j.epiOf d with
    | some e => (Check.rmodes j e).contains 1
    | none => false
/-- Step n of d takes lane draws. -/
def drawsAt (j : Job) (d n : Nat) : Bool := draws j d && j.ends d n
/-- The first drawing step of w at or after step m. -/
def nextDraw (j : Job) (w m : Nat) : Nat :=
  let a := max 1 (stepsPer j w (Desc.olv (j.descAt w)))
  max m (a * (m / a + 1) - max 1 (j.perExec w))
/-- Every drawing step before step n of d has taken its draws. -/
def drawTurn (j : Job) (c : CellRun) (d n : Nat) : Bool :=
  !drawsAt j d n || ((stepDescs j).filter (draws j)).all fun w =>
    let m := nextDraw j w (Sparse.getD c.done w 0)
    decide (j.total c w ≤ m) || (w == d && m == n) || !j.before w m d n

/-! ### Expansion tables (spec/04_number_formats.md R89) -/

/-- Steps of w that precede step n of d in iteration order (R41, R89). -/
def stepsBefore (j : Job) (c : CellRun) (d n w : Nat) : Nat :=
  match j.preceding d n (Desc.lv (j.descAt d)) w (Desc.lv (j.descAt w)) with
  | .count k => k
  | .allBut k => j.total c w - k
def expands (x : Bytes) (t : Nat) : Bool := Desc.station x == Desc.mat && Desc.expand x == 1 && Desc.tableNo x == t
/-- A table write does not begin until every earlier execution that names its table has begun its reload. -/
def tableFree (j : Job) (c : CellRun) (d n : Nat) : Bool :=
  let x := j.descAt d
  !Desc.tableWrite x || (List.range j.prog.length).all fun w =>
    !expands (j.descAt w) (Desc.twTable x) ||
      decide (stepsBefore j c d n w / max 1 (j.perExec w) ≤ Sparse.getD c.reloads w 0)

/-! ### Readiness and order -/

/-- Every condition of cell g for the next step of d, but for budgets and the order of R41. -/
def cellReady (s : State) (j : Job) (g d : Nat) : Bool :=
  match cellOf j g with
  | none => false
  | some c =>
    let n := nextStep c d
    !c.halt && hasNext j c d && inputsReady j c d n && regionsReady j c d n && rowDone j c d n && outputsFree j c d n &&
      stationFree j c d n && granted s j c d n && drawTurn j c d n && tableFree j c d n
/-- Cells at which a step of d issues together: all of them for an espalier MAT (R49). -/
def together (j : Job) (g d : Nat) : List Nat :=
  if j.espalier ∧ Desc.station (j.descAt d) = Desc.mat then List.range 3072 else [g]
def ready (s : State) (j : Job) (g d : Nat) : Bool := (together j g d).all fun k => cellReady s j k d
/-- The softmax row of MAT w that waits for completion at the cell: its key (R151). -/
def softKey (j : Job) (c : CellRun) (w : Nat) : Option Nat :=
  ((List.range (max 1 (j.perExec w))).map (key w)).find? fun k => match Sparse.get? c.soft k with
    | some q => q.full
    | none => false
/-- A completion step of MAT w waits at the cell; it carries the position of the row's last tile, step m. -/
def softReady (j : Job) (c : CellRun) (w : Nat) : Option Nat :=
  match softKey j c w, j.rowStage w 8 with
  | some _, some (rl, _) => some ((Sparse.getD c.rows w 0 + 1) * stepsPer j w rl - 1)
  | _, _ => none
/-- No step of the same station that is ready comes first (R41, R164). -/
def firstOf (s : State) (j : Job) (g d : Nat) : Bool :=
  match cellOf j g with
  | none => false
  | some c =>
    let n := nextStep c d
    (stepDescs j).all fun w =>
      (w == d || !shares j d n w (nextStep c w) || !hasNext j c w || !j.before w (nextStep c w) d n || !ready s j g w) &&
      match softReady j c w with
      | some m => !(Desc.station (j.descAt d) == Desc.vec || usesUnits j d n) || !j.before w m d n
      | none => true
/-- No VEC or unit step that is ready, and no other MAT's completion step, comes before the completion step of MAT w. -/
def softFirst (s : State) (j : Job) (g w m : Nat) : Bool :=
  match cellOf j g with
  | none => false
  | some c =>
    (c.flights.all fun f => !(Desc.station (j.descAt f.d) == Desc.vec || usesUnits j f.d f.n)) &&
    (stepDescs j).all fun d =>
      let n := nextStep c d
      (!(Desc.station (j.descAt d) == Desc.vec || usesUnits j d n) || !hasNext j c d || !j.before d n w m || !ready s j g d) &&
      match softReady j c d with
      | some k => d == w || !j.before d k w m
      | none => true

/-- The class of the job has what the step draws on (spec/16_scheduling_and_budgets.md R393). -/
def funded (s : State) (j : Job) (d : Nat) : Bool :=
  let k := budget s j
  let x := j.descAt d
  let mem := (Desc.station x == Desc.load || Desc.station x == Desc.store) && Desc.space x == 0 ||
    Desc.station x == Desc.scat
  energyLeft s.sched k && (!mem || txnLeft s.sched k)

end Cells
end Machine
end Sys2Proof
end

