-- ==== Sys2Proof/Machine/Time.lean ====
section
/-! DEFINITION. PTP time: sources, best master, PPS edges (spec/14_twisil_fabric.md R340 to R343). -/

namespace Sys2Proof
namespace Machine

open Bits Ops

namespace Time

/-- SOURCE in force: 3 acts as 0 (R344). -/
def source (s : State) : Nat := let v := field s.fab.ptpCtl 9 8; if v = 3 then 0 else v
def domain (s : State) : Nat := field s.fab.ptpCtl 6 0

/-- Set PTP time now to v ns. -/
def setTime (s : State) (v : Int) : State := s.setPtp { s.ptp with offset := v - s.now, since := s.now }

/-- This clock's own dataset: the priorities are FAB_PTP_CTL's, the rest the standard's defaults (log 13). -/
def own (s : State) : Master :=
  ⟨field s.fab.ptpCtl 31 24, 248, 0xFE, 0xFFFF, field s.fab.ptpCtl 23 16, s.fuses.device, 0, s.fuses.device * 2 ^ 16⟩

/-- The order of the default best master clock algorithm on datasets. -/
def key (m : Master) : List Nat := [m.prio1, m.cls, m.acc, m.var, m.prio2, m.gm, m.steps, m.sender]
def lexLt : List Nat → List Nat → Bool
  | a :: r, b :: q => decide (a < b) || (a == b && lexLt r q)
  | _, _ => false

/-- The port whose master is best, if it is better than this clock (R340). -/
def best (s : State) : Option Nat :=
  let c := s.ptp.masters.filter fun e => (Link.portAt s e.1).state == .up
  let b := c.foldl (fun (a : Option (Nat × Master)) e =>
    match a with
    | none => some e
    | some x => if lexLt (key e.2) (key x.2) then some e else a) none
  match b with
  | some (p, m) => if lexLt (key m) (key (own s)) then some p else none
  | none => none

/-- The frequency correction is what the source in force makes it: the spec states no value, so it is free (log 5, log
13); the time goes on from what it is now. -/
def discipline (s : State) : State :=
  let (v, s) := fresh s
  s.setPtp { s.ptp with offset := s.ptp.offset + ptpDrift s, since := s.now, rate := v.toInt }

def upPorts (s : State) : List Nat := (List.range 24).filter fun p => (Link.portAt s p).state == .up

end Time

open Time

/-- PPS_IN_EDGE (R340, R341; spec/22_electrical_and_mechanical.md R491): an accepted edge marks a second boundary. -/
def execPpsInEdge (t high rise : Nat) (s : State) : Out :=
  let s := tick s t
  let late : Bool := match s.ptp.lastPps with
    | some t0 => decide (t0 + 900000000 ≤ t)
    | none => true
  if high < 100 ∨ 10 < rise ∨ late = false then .next s
  else
    let s := s.setPtp { s.ptp with lastPps := some t }
    if source s = 2 then
      let now := ptpTime s
      let v := match s.ptp.pendSet with
        | some n => n * 1000000000
        | none => (now + 500000000) / 1000000000 * 1000000000
      let s := setTime s v
      .next (discipline (s.setPtp { s.ptp with pendSet := none, measured := (now : Int) - v, state := 2 }))
    else .next s

/-- PTP_SOURCE_LOSS (R340): three Sync intervals without Sync, or 1.5 s without an edge. -/
def execPtpSourceLoss (t : Nat) (s : State) : Out :=
  let s := tick s t
  let lost : Bool :=
    if source s = 1 then s.ptp.slave.isSome && decide (s.ptp.lastSync + 375000000 ≤ t)
    else if source s = 2 then
      match s.ptp.lastPps with
      | some t0 => decide (t0 + 1500000000 ≤ t)
      | none => false
    else false
  .next (if lost && (s.ptp.state == 1 || s.ptp.state == 2) then s.setPtp { s.ptp with state := 3 } else s)

end Machine
end Sys2Proof
end

