-- ==== Sys2Proof/Machine/Regs.lean ====
section
/-! DEFINITION. The registers of BAR0 (spec/15_host_and_mailboxes.md R348 to R350): which register an offset names, its
value, and the effect of a write of the whole register, mailboxes apart. -/

namespace Sys2Proof
namespace Machine

/-- A register of BAR0. -/
inductive Reg where
  | idVariant | idDevice | idBoot | idDebug | idNonce (i : Nat) | idUnlock | idCarrier | idCable (c : Nat)
  | buStep | buStatus | buCells | buEngines | buFw | buRecBase | buRecCtl | buRowmap (i : Nat)
  | jrBase (r : Nat) | jrCtl (r : Nat) | jrTail (r : Nat) | jrHead (r : Nat) | jrDone (r : Nat)
  | scSub (f : Nat) | scDone (f : Nat) | scFail (f : Nat)
  | scBudgetTxn (c : Nat) | scBudgetNj (c : Nat) | scUsedTxn (c : Nat) | scUsedNj (c : Nat) | scStalls (c : Nat)
  | scCells
  | pwrIn | pwrAvg | pwrLimit | pwrState | pwrStore | tmSampleTime | tmHubTemp | pwrRail (k : Nat) | tmEye (l : Nat)
  | tmCell (i : Nat) | tmNumCtl | tmNumSat | tmNumFlush | tmFaults (k : Nat) | tmDown
  | fabId | fabPtpCtl | fabPtpState | fabPtpSet
  | fabPortCtl (p : Nat) | fabPortStatus (p : Nat) | fabPortViol (p : Nat) | fabPortErr (p : Nat)
  | fabPortCrypt (p : Nat) | fabRouteGrp (g : Nat) | fabRouteMbr (m : Nat) | fabRegion (r : Nat)
  | fabOpqBase (q : Nat) | fabOpqCtl (q : Nat) | fabOpqTail (q : Nat) | fabOpqHead (q : Nat)
  | fabPortKey (p d k : Nat)
  | cdcEncLoad (e : Nat) | cdcDecLoad (d : Nat)
  | memCtl | memSealBase | memTop | memStack (k : Nat) | memCorr (k : Nat) | memUncorr (k : Nat) | memScrub
  | tmObsSel (k : Nat)
  deriving DecidableEq, Repr

/-- Level that a JTAG opcode needs; none where it is not listed (spec/21_management_identity_debug.md R485). -/
def Tap.opLevel (op : Nat) : Option Nat :=
  if op ≤ 3 ∨ op = 0xFF then some 0 else if op = 4 ∨ op = 5 ∨ op = 0x40 ∨ op = 0x41 then some 2 else none

namespace Regs

open Bits Ops Starts

/-- One register of a group: base offset, count, stride, size in bytes, constructor. -/
def inGroup (a base count stride size : Nat) (mk : Nat → Reg) : Option (Reg × Nat × Nat) :=
  let i := (a - base) / stride
  if base ≤ a ∧ i < count ∧ a - base - stride * i < size then some (mk i, base + stride * i, size) else none

/-- The register that holds offset a, its own offset and its size in bytes. -/
def regAt (a : Nat) : Option (Reg × Nat × Nat) :=
  let one := fun base size r => inGroup a base 1 8 size fun _ => r
  if a < 0x10000 then
    one 0x8 4 .idVariant <|> one 0x200 8 .idDevice <|> one 0x208 4 .idBoot <|> one 0x210 4 .idDebug <|>
    inGroup a 0x220 4 8 8 .idNonce <|> one 0x240 8 .idUnlock <|> one 0x300 4 .idCarrier <|>
    inGroup a 0x310 6 8 4 .idCable <|> one 0x100 4 .buStep <|> one 0x108 8 .buStatus <|> one 0x110 4 .buCells <|>
    one 0x118 4 .buEngines <|> one 0x120 8 .buFw <|> one 0x128 8 .buRecBase <|> one 0x130 4 .buRecCtl <|>
    inGroup a 0x1000 192 4 4 .buRowmap
  else if a < 0x40000 then
    inGroup a 0x20000 64 0x40 8 .jrBase <|> inGroup a 0x20008 64 0x40 4 .jrCtl <|>
    inGroup a 0x20010 64 0x40 4 .jrTail <|> inGroup a 0x20018 64 0x40 4 .jrHead <|>
    inGroup a 0x20020 64 0x40 4 .jrDone
  else if a < 0x80000 then
    inGroup a 0x40000 16 0x20 8 .scSub <|> inGroup a 0x40008 16 0x20 8 .scDone <|>
    inGroup a 0x40010 16 0x20 8 .scFail <|> inGroup a 0x40400 11 0x20 4 .scBudgetTxn <|>
    inGroup a 0x40404 11 0x20 4 .scBudgetNj <|> inGroup a 0x40408 11 0x20 4 .scUsedTxn <|>
    inGroup a 0x4040C 11 0x20 4 .scUsedNj <|> inGroup a 0x40410 11 0x20 8 .scStalls <|> one 0x40800 4 .scCells
  else if a < 0x100000 then
    one 0x80000 8 .pwrIn <|> one 0x80008 4 .pwrAvg <|> one 0x80010 4 .pwrLimit <|> one 0x80018 4 .pwrState <|>
    one 0x80020 4 .pwrStore <|> one 0x80028 8 .tmSampleTime <|> one 0x80030 4 .tmHubTemp <|>
    inGroup a 0x80040 19 8 8 .pwrRail <|> one 0x80100 4 .tmNumCtl <|> one 0x80108 8 .tmNumSat <|>
    one 0x80110 8 .tmNumFlush <|> inGroup a 0x80200 3 8 8 .tmFaults <|> one 0x80220 8 .tmDown <|>
    inGroup a 0x80400 96 8 4 .tmEye <|> inGroup a 0x81000 3264 4 4 .tmCell
  else if a < 0x200000 then
    one 0x100000 4 .fabId <|> one 0x100010 4 .fabPtpCtl <|> one 0x100018 8 .fabPtpState <|>
    one 0x100020 8 .fabPtpSet <|> inGroup a 0x100100 24 0x20 4 .fabPortCtl <|>
    inGroup a 0x100104 24 0x20 4 .fabPortStatus <|> inGroup a 0x100108 24 0x20 4 .fabPortViol <|>
    inGroup a 0x100110 24 0x20 8 .fabPortErr <|> inGroup a 0x100118 24 0x20 4 .fabPortCrypt <|>
    inGroup a 0x101000 256 4 4 .fabRouteGrp <|> inGroup a 0x101400 256 4 4 .fabRouteMbr <|>
    inGroup a 0x102000 256 32 32 .fabRegion <|> inGroup a 0x104000 16 0x20 8 .fabOpqBase <|>
    inGroup a 0x104008 16 0x20 4 .fabOpqCtl <|> inGroup a 0x104010 16 0x20 4 .fabOpqTail <|>
    inGroup a 0x104018 16 0x20 4 .fabOpqHead <|>
    inGroup a 0x108000 96 0x40 64 fun i => .fabPortKey (i / 4) (i / 2 % 2) (i % 2)
  else if a < 0x300000 then
    inGroup a 0x200000 8 8 4 .cdcEncLoad <|> inGroup a 0x200040 16 8 4 .cdcDecLoad
  else if a < 0x400000 then
    one 0x300000 4 .memCtl <|> one 0x300008 8 .memSealBase <|> one 0x300010 8 .memTop <|>
    inGroup a 0x300040 8 8 4 .memStack <|> inGroup a 0x300080 8 8 8 .memCorr <|>
    inGroup a 0x3000C0 8 8 8 .memUncorr <|> one 0x300100 8 .memScrub
  else inGroup a 0x400000 4 8 4 .tmObsSel

def portCode : PortState → Nat
  | .disabled => 0 | .down => 1 | .training => 2 | .up => 3 | .quarantined => 4

/-- What a codec load register shows (spec/11_video_encode.md R237, spec/12_decode_and_ingest.md R269). -/
def loadOf (l : List Session) (e : Nat) : Nat :=
  let b := l.filter (·.engine == e)
  b.length * 2 ^ 16 + (b.map (·.units)).sum

/-- Rails and sample time and P_avg as a read sees them (R459). -/
def latched (s : State) : List (Nat × Nat) × Nat × Nat :=
  s.pwr.latch.getD (s.pwr.latest.rails, s.pwr.latest.time, s.pwr.pAvg)

def opq0 : Opq := ⟨0, 0, 0, 0, 0, []⟩
def opqAt (s : State) (q : Nat) : Opq := Sparse.getD s.fab.opq q opq0

/-- The value of a register; write-only fields read 0 (spec/00_scope.md, access codes). -/
def value (s : State) : Reg → Nat
  | .idVariant => Config.pwrLimit s.fuses.variant * 2 ^ 16 + Config.clkMax s.fuses.variant * 16 + s.fuses.variant
  | .idDevice => s.fuses.device
  | .idBoot => s.fuses.svn * 2 ^ 16 + s.fuses.revoked * 2 ^ 8 + 2 * ofBool s.bu.fallback + s.bu.slot
  | .idDebug => s.ident.fails * 2 ^ 12 + s.ident.result * 2 ^ 8 + s.ident.level
  | .idNonce i => field s.ident.nonce.toNat (64 * i + 63) (64 * i)
  | .idUnlock => 0
  | .idCarrier => s.ident.carSlot * 16 + s.ident.pcieMax * 2 + ofBool s.ident.carrier
  | .idCable c =>
    let (pr, re, l, ps) := Sparse.getD s.ident.cables c (false, false, 0, 0)
    ps * 2 ^ 8 + l * 4 + 2 * ofBool re + ofBool pr
  | .buStep => 2 ^ 8 * ofBool s.bu.auto
  | .buStatus =>
    let b := s.bu
    b.code * 2 ^ 48 + b.skipped * 2 ^ 32 + 2 ^ 15 * ofBool b.override + 2 ^ 14 * ofBool b.reject +
      2 ^ 13 * ofBool b.warm + b.phase * 2 ^ 8 + b.step
  | .buCells => cellsOut s.bu.outMap * 2 ^ 20 + cellsSpare s.bu.outMap * 2 ^ 12 + cellsReduced s.bu.outMap * 16
  | .buEngines => s.bu.decOut * 2 ^ 8 + s.bu.encOut
  | .buFw => s.bu.fwBase
  | .buRecBase => Config.recoveryBase
  | .buRecCtl => min 255 s.bu.recent.length * 2 ^ 16 + ofBool s.bu.warmEn
  | .buRowmap i =>
    let o := Sparse.getD s.bu.outMap i 0
    2 ^ 17 * ofBool (decide (2 ≤ popcount 17 o)) + o
  | .jrBase r => (ringAt s.host r).base
  | .jrCtl r =>
    let x := ringAt s.host r
    x.vector * 2 ^ 24 + x.owner * 2 ^ 20 + x.cls * 2 ^ 18 + x.state * 2 ^ 15 + x.log2
  | .jrTail r => (ringAt s.host r).tail
  | .jrHead r => (ringAt s.host r).head
  | .jrDone r => (ringAt s.host r).done
  | .scSub f => Sparse.getD s.sched.subs f 0
  | .scDone f => Sparse.getD s.sched.dones f 0
  | .scFail f => Sparse.getD s.sched.fails f 0
  | .scBudgetTxn c => if c = 5 then refreshTxn s.mem else (budgetAt s.sched c).limTxn
  | .scBudgetNj c => (budgetAt s.sched c).limNj
  | .scUsedTxn c => (budgetAt s.sched c).usedTxn
  | .scUsedNj c => (budgetAt s.sched c).usedNj
  | .scStalls c => (budgetAt s.sched c).stalls
  | .scCells => 2 ^ 16 * ofBool (reduced s.bu) + availCells s.bu
  | .pwrIn => s.pwr.latest.volt * 2 ^ 48 + s.pwr.latest.curr * 2 ^ 32 + s.pwr.latest.mw
  | .pwrAvg => (latched s).2.2
  | .pwrLimit => s.pwr.polP * 2 ^ 16 + Config.pwrLimit s.fuses.variant
  | .pwrState =>
    let p := s.pwr
    p.fTgt * 2 ^ 16 + 16 * ofBool p.brakePin + 8 * ofBool p.brake +
      4 * ofBool (blitzEnabled s.host && (p.yieldPow || p.yieldHub || !p.hot.isEmpty)) +
      2 * ofBool (p.fc.any fun e => decide (e.2 < p.fTgt)) + ofBool p.outBand
  | .pwrStore => 4 * ofBool s.pwr.deferred + 2 * ofBool s.pwr.hold
  | .tmSampleTime => (latched s).2.1
  | .tmHubTemp => wrap 8 s.pwr.hubTemp
  | .pwrRail k => let (v, c) := (latched s).1.getD k (0, 0); v * 2 ^ 32 + c
  | .tmEye l =>
    if (Link.portAt s (l / 4)).state = .up then
      let (h, w) := Sparse.getD s.pwr.eye l (0, 0)
      h * 2 ^ 8 + w
    else 0
  | .tmCell i => Pwr.cellClock s i * 2 ^ 16 + wrap 8 (Sparse.getD s.pwr.cellTemp i 0)
  | .tmNumCtl => 2 * ofBool s.tm.hold
  | .tmNumSat => s.tm.sat
  | .tmNumFlush => s.tm.flush
  | .tmFaults k => if k = 0 then s.tm.replayed else if k = 1 then s.tm.jobLost else s.flash.lost
  | .tmDown => s.flash.downYear * 2 ^ 48 + s.flash.downMs
  | .fabId => 2 ^ 16 * ofBool s.fab.idValid + s.fab.group * 2 ^ 8 + s.fab.member
  | .fabPtpCtl => s.fab.ptpCtl
  | .fabPtpState => s.ptp.state * 2 ^ 32 + wrap 32 s.ptp.measured
  | .fabPtpSet => 0
  | .fabPortCtl p => let c := Link.cfgAt s p; c.maxGen * 4 + ofBool c.enable
  | .fabPortStatus p =>
    let x := Link.portAt s p
    x.partner * 2 ^ 16 + (if x.state = .up then x.gen else 0) * 16 + 8 * ofBool (Link.cfgAt s p).qmark + portCode x.state
  | .fabPortViol p => let x := Link.portAt s p; x.lastReason * 2 ^ 24 + x.viol
  | .fabPortErr p => let x := Link.portAt s p; x.replays * 2 ^ 40 + x.fecUncorr * 2 ^ 16 + x.late
  | .fabPortCrypt p => let c := Link.cfgAt s p; 4 * c.txSlot + ofBool c.encrypt
  | .fabRouteGrp g => Sparse.getD s.fab.grp g 0
  | .fabRouteMbr m => Sparse.getD s.fab.mbr m 0
  | .fabRegion r => (Sparse.getD s.fab.region r 0#256).toNat
  | .fabOpqBase q => (opqAt s q).base
  | .fabOpqCtl q => (opqAt s q).log2
  | .fabOpqTail q => (opqAt s q).tail
  | .fabOpqHead q => (opqAt s q).head
  | .fabPortKey _ _ _ => 0
  | .cdcEncLoad e => loadOf s.codec.enc e
  | .cdcDecLoad d => loadOf s.codec.dec d
  | .memCtl => 2 * ofBool s.mem.sealEn + ofBool s.mem.eccMode
  | .memSealBase => s.mem.sealBase
  | .memTop => Config.memTop
  | .memStack k =>
    wrap 8 (Sparse.getD s.mem.temp k 0) * 2 ^ 16 + Sparse.getD s.mem.rate k 0 * 4 +
      2 * ofBool (s.mem.throttle.contains k) + ofBool (s.mem.selfRef.contains k)
  | .memCorr k => Sparse.getD s.mem.corr k 0
  | .memUncorr k => Sparse.getD s.mem.uncorr k 0
  | .memScrub => s.mem.passes * 2 ^ 32 + s.mem.slot * 64 + s.mem.codeword
  | .tmObsSel k => Sparse.getD s.ident.obsSel k 0

/-- A write-only register: parts not staged count as 0 (R350). -/
def writeOnly : Reg → Bool
  | .idUnlock | .fabPtpSet | .fabPortKey _ _ _ => true
  | _ => false

/-- ID_ registers, which every VF may read (R349). -/
def isId : Reg → Bool
  | .idVariant | .idDevice | .idBoot | .idDebug | .idNonce _ | .idUnlock | .idCarrier | .idCable _ => true
  | _ => false
/-- The ring of a ring register. -/
def ringOf : Reg → Option Nat
  | .jrBase r | .jrCtl r | .jrTail r | .jrHead r | .jrDone r => some r
  | _ => none

/-! ### Effects of writes -/

/-- MEM_CTL (spec/13_stacked_memory.md R317, R308; spec/19_security.md R445). -/
def sealAllowed (s : State) : Bool :=
  let lo := s.mem.sealBase
  let hi := lo + Config.sealTableBytes
  decide (hi ≤ Config.recoveryBase) &&
  !(s.host.ctx.any fun (f, es) => f != 0 && es.any fun e =>
      decide (e.mpage * 4096 < hi) && decide (lo < (e.mpage + e.pages) * 4096))
def writeMemCtl (s : State) (v : Nat) : State :=
  if !s.sched.jobs.isEmpty then s
  else
    let en := if bit v 1 then s.mem.sealEn || sealAllowed s else false
    s.setMem { s.mem with eccMode := bit v 0, sealEn := en }
def writeSealBase (s : State) (v : Nat) : State :=
  if s.mem.sealEn then s else s.setMem { s.mem with sealBase := v / 4096 * 4096 }

def anyUp (s : State) : Bool := (List.range 24).any fun p => (Link.portAt s p).state == .up
def writeFabId (s : State) (v : Nat) : State :=
  if anyUp s then s
  else s.setFab { s.fab with idValid := bit v 16, group := field v 15 8, member := field v 7 0 }
/-- FAB_PTP_CTL: a new SOURCE starts locking, or free-runs (R340). -/
def writePtpCtl (s : State) (v : Nat) : State :=
  let old := Time.source s
  let s := s.setFab { s.fab with ptpCtl := field v 31 16 * 2 ^ 16 + field v 9 8 * 2 ^ 8 + field v 6 0 }
  let new := Time.source s
  if new = old then s
  else s.setPtp { s.ptp with state := if new = 2 ∨ new = 1 ∧ s.ptp.slave.isSome then 1 else 0, sync := none,
                             lastSync := s.now }
/-- FAB_PTP_SET (R341). -/
def writePtpSet (s : State) (v : Nat) : State :=
  let src := Time.source s
  if src = 2 then s.setPtp { s.ptp with pendSet := some v }
  else if src = 0 ∨ s.ptp.slave.isNone then Time.setTime s (v * 1000000000 : Nat)
  else s
/-- FAB_PORT_CTL (R338, R344). -/
def writePortCtl (s : State) (p v : Nat) : State :=
  let c := Link.cfgAt s p
  let x := Link.portAt s p
  let release := bit v 1
  let en := bit v 0
  let mark := c.qmark && !release
  let s := Link.putCfg s p { c with maxGen := field v 3 2, enable := en, qmark := mark }
  let s := if release then Link.putPort s p { Link.portAt s p with violTimes := [] } else s
  if !en then
    Link.linkTrainDone (Link.putPort s p { Link.portAt s p with state := .disabled, gen := 0, wasUp := false })
  else if mark then
    (if x.state = .disabled then Link.putPort s p { Link.portAt s p with state := .quarantined } else s)
  else if x.state = .quarantined ∨ (x.state = .disabled ∧ 8 ≤ s.bu.step) ∨ (release ∧ c.qmark) then Link.train s p
  else s
def writePortKey (s : State) (p d k v : Nat) : State :=
  let c := Link.cfgAt s p
  let x := Link.portAt s p
  if d = 0 ∧ k = c.txSlot ∧ x.state = .up then s
  else
    let key : PortKey := ⟨BitVec.ofNat 32 (field v 287 256), BitVec.ofNat 256 v, true, 0⟩
    let s := Link.putCfg s p { c with keys := Sparse.put c.keys (2 * d + k) key }
    if d = 0 ∧ k = c.txSlot then Link.putPort s p { x with keySpent := false } else s
def writeOpqBase (s : State) (q v : Nat) : State :=
  let x := opqAt s q
  if x.head ≠ x.tail then s else s.setFab { s.fab with opq := Sparse.put s.fab.opq q { x with base := v / 64 * 64 } }
def writeOpqCtl (s : State) (q v : Nat) : State :=
  let x := opqAt s q
  if x.head ≠ x.tail then s else s.setFab { s.fab with opq := Sparse.put s.fab.opq q { x with log2 := field v 3 0 } }
def writeOpqTail (s : State) (q v : Nat) : State :=
  s.setFab { s.fab with opq := Sparse.put s.fab.opq q { opqAt s q with tail := v % 2 ^ 32 } }

/-- Level that a test-multiplexer signal needs (spec/21_management_identity_debug.md R484); none where not listed. -/
def signalLevel (sig : Nat) : Option Nat :=
  if sig = 0 then some 0 else if sig ≤ 0x0A then some 1 else if 0x10 ≤ sig ∧ sig ≤ 0x12 then some 2 else none
/-- Selections that need a level above l become 0 (R483). -/
def dropSelections (m : Sparse Nat) (l : Nat) : Sparse Nat :=
  m.filter fun e => match signalLevel (field e.2 7 0) with
    | some n => decide (n ≤ l)
    | none => false
def writeObsSel (s : State) (k v : Nat) : State :=
  match signalLevel (field v 7 0) with
  | some n => if n ≤ s.ident.level then
      s.setIdent { s.ident with obsSel := Sparse.put s.ident.obsSel k (field v 27 0) } else s
  | none => s
/-- What a LEVEL of l leaves: selections that need more become 0, and a JTAG instruction that needs more acts as BYPASS
(R483, R485). -/
def atLevel (i : Ident) (l : Nat) : Ident :=
  let i := { i with level := l, obsSel := dropSelections i.obsSel l }
  match Tap.opLevel i.ir with
  | some k => if k ≤ l then i else { i with ir := 0xFF, pinMode := 0, tdo := none }
  | none => i
def lockDebug (s : State) (v : Nat) : State := if bit v 31 then s.setIdent (atLevel s.ident 0) else s

/-- RESULT of a token's checks (spec/19_security.md R453, R454), and the level it grants. -/
def checkToken (s : State) (tok : Bytes) : Nat × Nat :=
  let lvl := fld tok 4 1
  if slice tok 0 4 ≠ ascii "KUT1" ∨ (lvl ≠ 1 ∧ lvl ≠ 2) ∨ fld tok 5 3 ≠ 0 then (2, 0)
  else if fld tok 8 8 ≠ s.fuses.device ∨ fld tok 0x10 32 ≠ s.ident.nonce.toNat then (3, 0)
  else
    let key := slice tok 0x30 96
    if Config.sha384 key ≠ s.fuses.dbgHash ∨
        !Config.ecdsaVerify (BitVec.ofNat 768 (Bits.be key)) (slice tok 0 0x90)
          (BitVec.ofNat 768 (Bits.be (slice tok 0x90 96))) then (4, 0)
    else (1, lvl)
/-- ID_UNLOCK: a token is presented (R454); an uncorrectable line in it is logged (spec/13_stacked_memory.md R301; requester
code as log 55). -/
def unlock (s : State) (a : Nat) : State :=
  if 8 ≤ s.ident.fails then s
  else
    let (r, s) := if a % 8 = 0 then readLog s 0 10 a 240 else (.refused, s)
    let s := match r with
      | .bad l => logEvent s { status := 0x0302, source := 0x5000, arg0 := l, arg1 := 0x10000 }
      | _ => s
    let (res, lvl) := match r with
      | .ok tok => checkToken s tok
      | _ => (2, 0)
    let (n, s) := fresh s
    let i := { s.ident with nonce := n, result := res }
    if res = 1 then
      s.setIdent (atLevel { i with unlocks := (i.unlocks + 1) % 65536 } lvl)
    else s.setIdent { i with fails := i.fails + 1 }

/-- JR_TAIL: the ring's doorbell (spec/15_host_and_mailboxes.md R363), which flushes the BAR2 writes made before it
(R304). -/
def doorbell (s : State) (f r v : Nat) : State :=
  let x := ringAt s.host r
  if x.owner = f ∧ (x.state = 2 ∨ x.state = 3 ∨ x.state = 4) ∧
      (v % 2 ^ 32 + 2 ^ 32 - x.head) % 2 ^ 32 ≤ 2 ^ x.log2 then
    let (s, lost) := flushWhere s fun e => e.writers.any (·.src / 0x10000 == 2)
    let s := logLost s lost
    s.setHost (putRing s.host r { x with tail := v % 2 ^ 32, bells := x.bells ++ [(v % 2 ^ 32, s.now)] })
  else s

/-- The effect of a write of a whole register by function f. -/
def write (s : State) (f : Nat) (v : Nat) : Reg → State
  | .idUnlock => unlock s v
  | .idDebug => lockDebug s v
  | .buStep => Bring.writeStep s v
  | .buStatus => if bit v 14 then s.setBu { s.bu with reject := false } else s
  | .buRecCtl => s.setBu { s.bu with warmEn := bit v 0 }
  | .jrTail r => doorbell s f r v
  | .pwrStore =>
    let s := s.setPwr { s.pwr with hold := bit v 1, deferred := s.pwr.deferred && !bit v 2 }
    runWaiting s s.now
  | .tmNumCtl =>
    s.setTm { s.tm with hold := bit v 1, era := if bit v 0 then s.tm.era + 1 else s.tm.era, sat := if bit v 0 then 0 else s.tm.sat,
                        flush := if bit v 0 then 0 else s.tm.flush }
  | .fabId => writeFabId s v
  | .fabPtpCtl => writePtpCtl s v
  | .fabPtpSet => writePtpSet s v
  | .fabPortCtl p => writePortCtl s p v
  | .fabPortCrypt p => Link.putCfg s p { Link.cfgAt s p with encrypt := bit v 0, txSlot := field v 2 2 }
  | .fabPortKey p d k => writePortKey s p d k v
  | .fabRouteGrp g => s.setFab { s.fab with grp := Sparse.put s.fab.grp g (field v 23 0) }
  | .fabRouteMbr m => s.setFab { s.fab with mbr := Sparse.put s.fab.mbr m (field v 23 0) }
  | .fabRegion r =>
    s.setFab { s.fab with region := Sparse.put s.fab.region r (BitVec.ofNat 256 (field v 130 12 * 2 ^ 12)) }
  | .fabOpqBase q => writeOpqBase s q v
  | .fabOpqCtl q => writeOpqCtl s q v
  | .fabOpqTail q => writeOpqTail s q v
  | .memCtl => writeMemCtl s v
  | .memSealBase => writeSealBase s v
  | .tmObsSel k => writeObsSel s k v
  | .idVariant | .idDevice | .idBoot | .idNonce _ | .idCarrier | .idCable _ | .buCells | .buEngines | .buFw
  | .buRecBase | .buRowmap _ | .jrBase _ | .jrCtl _ | .jrHead _ | .jrDone _ | .scSub _ | .scDone _ | .scFail _
  | .scBudgetTxn _ | .scBudgetNj _ | .scUsedTxn _ | .scUsedNj _ | .scStalls _ | .scCells | .pwrIn | .pwrAvg
  | .pwrLimit | .pwrState | .tmSampleTime | .tmHubTemp | .pwrRail _ | .tmEye _ | .tmCell _ | .tmNumSat | .tmNumFlush
  | .tmFaults _ | .tmDown | .fabPtpState | .fabPortStatus _ | .fabPortViol _ | .fabPortErr _ | .fabOpqHead _
  | .cdcEncLoad _ | .cdcDecLoad _ | .memTop | .memStack _ | .memCorr _ | .memUncorr _ | .memScrub => s

/-- Function f may reach the register (R349): the PF all of them, a VF its ID_ registers and the rings it owns. -/
def responds (h : HostIf) (f : Nat) (r : Reg) : Bool :=
  f == 0 || isId r || match ringOf r with
    | some k => (ringAt h k).state != 0 && (ringAt h k).owner == f
    | none => false
/-- Function f may write the register. -/
def mayWrite (h : HostIf) (f : Nat) (r : Reg) : Bool := responds h f r && (f == 0 || !isId r)

/-! ### Parts of wide registers (R350) -/

def stagedPart (h : HostIf) (f o : Nat) : Option Nat :=
  (h.staged.find? fun e => e.1 == f && e.2.1 == o).map (·.2.2)
def stage (h : HostIf) (f o v : Nat) : HostIf :=
  { h with staged := (f, o, v) :: h.staged.filter fun e => !(e.1 == f && e.2.1 == o) }
def unstage (h : HostIf) (f base size : Nat) : HostIf :=
  { h with staged := h.staged.filter fun e => !(e.1 == f && decide (base ≤ e.2.1) && decide (e.2.1 < base + size)) }

/-- The whole value that a write of w bytes at offset o makes of a register, with what function f has staged. -/
def whole (s : State) (f : Nat) (r : Reg) (base size o w v : Nat) : Nat :=
  let cur := if writeOnly r then 0 else value s r
  ((List.range (size / 4)).map fun i =>
    let p := base + 4 * i
    let x := if o ≤ p ∧ p < o + w then v / 2 ^ (8 * (p - o)) % 2 ^ 32
             else (stagedPart s.host f p).getD (cur / 2 ^ (32 * i) % 2 ^ 32)
    x * 2 ^ (32 * i)).sum

/-- A write of w bytes at BAR0 offset o of a register that takes 4 bytes, or of a part of a wider one. -/
def access (s : State) (f o w v : Nat) : State :=
  match regAt o with
  | none => s
  | some (r, base, size) =>
    if !mayWrite s.host f r then s
    else if size = 4 then (if o = base then write s f (v % 2 ^ 32) r else s)
    else if o + w < base + size then
      s.setHost ((List.range (w / 4)).foldl (fun h i => stage h f (o + 4 * i) (v / 2 ^ (32 * i) % 2 ^ 32)) s.host)
    else
      let x := whole s f r base size o w v
      write (s.setHost (unstage s.host f base size)) f x r

/-- An aligned access of 4 or 8 bytes (R349). -/
def aligned (o w : Nat) : Bool := (w == 4 || w == 8) && o % w == 0 && decide (o < 0x4000000)

/-- Take the latch of R459: rails, sample time and P_avg of the latest period. -/
def takeLatch (s : State) : State :=
  s.setPwr { s.pwr with latch := some (s.pwr.latest.rails, s.pwr.latest.time, s.pwr.pAvg) }

/-- A read of w bytes at offset o by function f: the value returned, and what the read changes (R350, R459). -/
def readReg (s : State) (f o w : Nat) : Nat × State :=
  match regAt o with
  | none => (0, s)
  | some (r, base, size) =>
    if !responds s.host f r then (0, s)
    else if size = 4 then (if o = base then (value s r, s) else (0, s))
    else if o = base then
      let v := value s r
      let s := if r = .pwrIn then takeLatch s else s
      let h := s.host
      (v % 2 ^ (8 * w), s.setHost { h with captured := (f, base, v) :: h.captured.filter fun e => !(e.1 == f && e.2.1 == base) })
    else
      let v := ((s.host.captured.find? fun e => e.1 == f && e.2.1 == base).map (·.2.2)).getD (value s r)
      (v / 2 ^ (8 * (o - base)) % 2 ^ (8 * w), s)

end Regs
end Machine
end Sys2Proof
end

