-- ==== Sys2Proof/Machine/FabOps.lean ====
section
/-! DEFINITION. Fabric transactions of this module as requester and as target: blocks, TAGs, arrival of DATA and RESP,
operation-queue records (spec/14_twisil_fabric.md R328 to R337, R339). -/

namespace Sys2Proof
namespace Machine
namespace Fab

open Bits Ops Link JobOps

/-! ### Request and response blocks (R331, R332) -/

def bOp (b : Bytes) : Nat := fld b 0 1
def bRegion (b : Bytes) : Nat := fld b 1 1
def bLength (b : Bytes) : Nat := fld b 4 4
def bOffset (b : Bytes) : Nat := fld b 8 8
def bOperand1 (b : Bytes) : Nat := fld b 0x10 8
def bOperand2 (b : Bytes) : Nat := fld b 0x18 8
def bArg (b : Bytes) : Bytes := slice b 0x20 32
def reqBlock (op region len off o1 o2 : Nat) (arg : Bytes) : Bytes :=
  toLe 1 op ++ toLe 1 region ++ zeros 2 ++ toLe 4 len ++ toLe 8 off ++ toLe 8 o1 ++ toLe 8 o2 ++ slice arg 0 32
def rReason (b : Bytes) : Nat := fld b 0 1
def rResult (b : Bytes) : Nat := fld b 8 8
def rArg (b : Bytes) : Bytes := slice b 0x10 48
def respBlock (reason result : Nat) (arg : Bytes) : Bytes :=
  toLe 1 reason ++ zeros 7 ++ toLe 8 result ++ slice arg 0 48

def opRead : Nat := 1
def opWrite : Nat := 2
def opFetchAdd : Nat := 3
def opCmpSwap : Nat := 4
def opSwap : Nat := 5
def opPageRead : Nat := 6
def opPageWrite : Nat := 7
def opPrefix : Nat := 8
def maxLength : Nat := 33554432
def isAtomic (op : Nat) : Bool := decide (3 ≤ op) && decide (op ≤ 5)
/-- Data flows to the requester, or to the target. -/
def reads (op : Nat) : Bool := op == opRead || op == opPageRead
def writes (op : Nat) : Bool := op == opWrite || op == opPageWrite || op == opPrefix
/-- 4 KiB units of a transaction, and bytes of unit i (R323). -/
def unitsOf (len : Nat) : Nat := ceilDiv len 4096
def unitBytes (len i : Nat) : Nat := min 4096 (len - 4096 * i)
/-- A payload padded to 64-byte units. -/
def pad (b : Bytes) : Bytes := b ++ zeros (64 * ceilDiv b.length 64 - b.length)

/-- PAGE and PAGE_BYTES of a page transfer, which OPERAND1 carries (log 30). -/
def pPage (b : Bytes) : Nat := bOperand1 b % 2 ^ 32
def pBytes (b : Bytes) : Nat := bOperand1 b / 2 ^ 32
/-- The violation of a request block (R331, R332, R336), if it has one. -/
def blockBad (b : Bytes) : Option Nat :=
  let op := bOp b
  if op = 0 ∨ 8 < op ∨ fld b 2 2 ≠ 0 then some 3
  else if bLength b = 0 ∨ maxLength < bLength b ∨ (isAtomic op ∧ bLength b ≠ 8) ∨ (op = opPrefix ∧ bLength b ≠ 1024) ∨
      ((op = opPageRead ∨ op = opPageWrite) ∧ pBytes b < bOffset b + bLength b) then some 2
  else if isAtomic op ∧ bOffset b % 8 ≠ 0 then some 3
  else none

/-! ### Regions (R333, R344; spec/19_security.md R447) -/

def regionAt (s : State) (r : Nat) : Nat := (Sparse.getD s.fab.region r 0#256).toNat
def regBase (v : Nat) : Nat := field v 63 12 * 4096
def regSize (v : Nat) : Nat := field v 95 64 * 4096
/-- The run overlaps the reserve, or the seal table while SEAL_EN is 1. -/
def barred (s : State) (v : Nat) : Bool :=
  let a := regBase v
  let e := a + regSize v
  decide (Config.recoveryBase < e) ||
    (s.mem.sealEn && decide (s.mem.sealBase < e) && decide (a < s.mem.sealBase + Config.sealTableBytes))
/-- Permission bit of an operation. -/
def permBit (op : Nat) : Nat := if op = opRead then 128 else if op = opWrite then 129 else 130
/-- Reason of step 1 of R333 for a memory operation: 0 or REGION_DENIED. -/
def regionReason (s : State) (src : Nat) (b : Bytes) : Nat :=
  let v := regionAt s (bRegion b)
  if field v 130 128 ≠ 0 && bit v (permBit (bOp b)) && src &&& field v 127 112 == field v 111 96 && !barred s v &&
      decide (bOffset b + bLength b ≤ regSize v) then 0 else 7
/-- Memory address of a request's first byte. -/
def target (s : State) (b : Bytes) : Nat := regBase (regionAt s (bRegion b)) + bOffset b

/-! ### Operation queues (R339) -/

def opqSize (o : Opq) : Nat := 2 ^ min 12 o.log2
def recAddr (o : Opq) (n : Nat) : Nat := o.base + 64 * (n % opqSize o)
def putOpq (s : State) (q : Nat) (o : Opq) : State := s.setFab { s.fab with opq := Sparse.put s.fab.opq q o }
/-- Records complete from n on, in order. -/
def headAfter (done : List Nat) : Nat → Nat → Nat
  | 0, n => n
  | k + 1, n => if done.contains n then headAfter done k ((n + 1) % 2 ^ 32) else n
/-- Record n of queue q completes: RESULT, STATUS and REASON, then DONE, and HEAD advances. -/
def opqDone (s : State) (q n status reason result : Nat) : State :=
  let o := Regs.opqAt s q
  let a := recAddr o n
  let s := (hubWrite s 8 q (a + 0x30) (toLe 8 result ++ toLe 2 status ++ toLe 1 reason)).getD s
  let s := (hubWrite s 8 q (a + 0x3B) [1#8]).getD s
  let done := if o.done.contains n then o.done else o.done ++ [n]
  let h := headAfter done done.length o.head
  putOpq s q { o with head := h, done := done.filter fun m => decide ((m + 2 ^ 32 - h) % 2 ^ 32 < 2 ^ 31) }

/-! ### Requester (R334, R335) -/

/-- The class that a requester's transactions count against. -/
def classOf (s : State) : Requester → Nat
  | .cell j _ _ _ => match find s.sched j with
    | some j => budget s j
    | none => 8
  | .pfx j _ => match find s.sched j with
    | some j => budget s j
    | none => 8
  | _ => 8
/-- The lowest TAG that is neither outstanding nor cooling. -/
def freeTag (s : State) : Option Nat :=
  (List.range 4096).find? fun k => !(s.fab.txns.any (·.tag == k)) && !(s.fab.cooling.any fun c => c.1 == k && decide (s.now < c.2))
/-- Energy of a frame that leaves (spec/20_power_thermal_measurement.md R468). -/
def spendFrame (s : State) (k : Nat) (f : Sys2Proof.Frame) : State :=
  s.setSched (charge s.sched k 0 (256000 * Link.units (len f) false))
/-- Count a frame that R334 drops. -/
def late (s : State) (p : Nat) : State :=
  if p < 24 then let x := portAt s p; putPort s p { x with late := satInc 65535 x.late 1 } else s
/-- A violation of a request block, or of a frame for this module, on ingress port p; none for a frame of its own. -/
def offend (s : State) (p reason : Nat) (f : Sys2Proof.Frame) : State := if p < 24 then violate s p reason f.header else s

/-- The memory pieces of bytes off to off + n of a run of pieces. -/
def piecesAt : List (Nat × Nat) → Nat → Nat → List (Nat × Nat)
  | [], _, _ => []
  | (a, k) :: r, off, n =>
    if n = 0 then []
    else if k ≤ off then piecesAt r (off - k) n
    else
      let m := min n (k - off)
      (a + off, m) :: piecesAt r 0 (n - m)
/-- Read data reaches the memory it is for. -/
def store (s : State) (t : Txn) (off : Nat) (b : Bytes) : State :=
  let src := match t.owner with
    | .pfx _ _ => hubSrc 0x15
    | _ => 0x20000
  let w : Writer := match t.owner with
    | .pfx j _ => ⟨some j, Check.none32, src⟩
    | _ => ⟨none, Check.none32, src⟩
  let (s, lost) := writePieces s w (classOf s t.owner) (piecesAt t.addr off b.length) b
  settle s lost
def putTxn (s : State) (t : Txn) : State :=
  s.setFab { s.fab with txns := s.fab.txns.map fun x => if x.tag = t.tag then t else x }
def dropTxn (s : State) (tag : Nat) : State := s.setFab { s.fab with txns := s.fab.txns.filter (·.tag != tag) }
/-- The PREFIX execution of descriptor d of job id takes the answer of its transaction. -/
def answerPfx (s : State) (id d : Nat) (a : Nat × Nat × Bytes) : State :=
  upd s id fun j => { j with hexec := j.hexec.map fun x =>
    if x.d = d then match x.work with
      | .pfx w => { x with work := .pfx { w with ans := some a } }
      | _ => x
    else x }
/-- Bytes of the units of a finished read. -/
def readBytes (t : Txn) : Bytes := (List.range (unitsOf t.length)).flatMap fun i => Sparse.getD t.units i (zeros (unitBytes t.length i))
/-- The tile step of a remote transaction takes what it read. -/
def answerCell (s : State) (t : Txn) (id g d n : Nat) : State :=
  if t.op ≠ opRead then s
  else match t.addr with
    | (o, _) :: _ => upd s id fun j => match Sparse.get? j.cells g with
      | none => j
      | some c => { j with cells := Sparse.put j.cells g { c with flights := c.flights.map fun f =>
          if (f.d == d && f.n == n) = true then { f with got := splice f.got o (readBytes t) } else f } }
    | [] => s

/-- A transaction ends with a status, reason, result and argument (R334; spec/18_reliability_and_recovery.md R422). -/
def finish (s : State) (t : Txn) (status reason result : Nat) (arg : Bytes) : State :=
  let s := dropTxn s t.tag
  match t.owner with
  | .gone => s
  | .opq q n => opqDone s q n status reason result
  | .pfx j d => answerPfx s j d (if status = 0x0505 then 0xFF else reason, result, arg)
  | .cell id g d n =>
    if status = 0 then answerCell s t id g d n
    else match find s.sched id with
      | none => s
      | some j =>
        let lid := j.lid g
        let s := abandon s id g d
        if status = 0x0504 then lose s id 0x0504 d lid lid reason t.dst
        else fault s id ⟨0x0505, some g, d, n, j.epoch⟩ lid lid t.tag t.dst
/-- The transaction of this TAG ends if its RESP and, for a read that was served, all its data have arrived. -/
def settleTxn (s : State) (tag : Nat) : State :=
  match s.fab.txns.find? (·.tag == tag) with
  | none => s
  | some t =>
    match t.resp with
    | none => s
    | some b =>
      if rReason b ≠ 0 then finish s t 0x0504 (rReason b) (rResult b) (rArg b)
      -- a PAGE_READ that is not served carries its RESULT and no data (R191)
      else if (t.op = opRead ∨ reads t.op ∧ rResult b = 0) ∧ t.units.length < unitsOf t.length then s
      else finish s t 0 0 (rResult b) (rArg b)

/-- A RESP for this module arrives on port p; 24 is the module itself. -/
def arriveResp (s : State) (p : Nat) (f : Sys2Proof.Frame) : State :=
  match s.fab.txns.find? (·.tag == tag f) with
  | none => late s p
  | some t => settleTxn (putTxn s { t with resp := some f.payload }) t.tag
/-- The DATA frame fits a transaction of len bytes: INDEX within it, and every frame but the last full (R323, R336). -/
def dataFits (len : Nat) (f : Sys2Proof.Frame) : Bool :=
  decide (index f < unitsOf len) && Link.len f == ceilDiv (unitBytes len (index f)) 64
/-- A DATA frame that does not fit is a violation of its header. -/
def badData (s : State) (p : Nat) (f : Sys2Proof.Frame) : State := if p < 24 then violateNak s p 2 f else s
/-- Read data for this module (R330, R334). -/
def arriveRead (s : State) (p : Nat) (f : Sys2Proof.Frame) : State :=
  match s.fab.txns.find? fun t => t.tag == tag f && reads t.op with
  | none => late s p
  | some t =>
    if !dataFits t.length f then badData s p f
    else
      let b := slice f.payload 0 (unitBytes t.length (index f))
      let keep := match t.owner with
        | .cell _ _ _ _ => b
        | _ => []
      let s := match t.owner with
        | .opq _ _ => store s t (4096 * index f) b
        | .pfx _ _ => store s t (4096 * index f) b
        | _ => s
      settleTxn (putTxn s { t with units := Sparse.put t.units (index f) keep }) t.tag
def servedAt (s : State) (src tag : Nat) : Option Served := s.fab.served.find? fun x => x.src == src && x.tag == tag
def putServed (s : State) (x : Served) : State :=
  s.setFab { s.fab with served := s.fab.served.map fun y => if (y.src == x.src && y.tag == x.tag) = true then x else y }
def dropServed (s : State) (x : Served) : State :=
  s.setFab { s.fab with served := s.fab.served.filter fun y => !(y.src == x.src && y.tag == x.tag) }
/-- Requester code of a served peer (spec/13_stacked_memory.md R301). -/
def peerCode (p : Nat) : Nat := if p < 24 then 0x30000 + p else 0x20000
/-- Store unit i of a served WRITE. -/
def storeUnit (s : State) (x : Served) (i : Nat) (b : Bytes) : State :=
  let (s, lost) := writeMem s ⟨none, Check.none32, peerCode x.port⟩ 8 (x.addr + 4096 * i) b
  settle s lost
/-- Write data for this module: a WRITE's is stored as it arrives (R333), unless the class of peers has no transaction left
(spec/16_scheduling_and_budgets.md R393): the unit is then held until it has. -/
def arriveWrite (s : State) (p : Nat) (f : Sys2Proof.Frame) : State :=
  match servedAt s (src f) (tag f) with
  | none => late s p
  | some x =>
    let n := bLength x.blk
    if !writes (bOp x.blk) then late s p
    else if !dataFits n f then badData s p f
    else
      let b := slice f.payload 0 (unitBytes n (index f))
      let w := bOp x.blk == opWrite && x.deny == 0
      let now := w && txnLeft s.sched 8
      let s := if now then storeUnit s x (index f) b else if w then s.setSched (markStall s.sched 8) else s
      putServed s { x with units := Sparse.put x.units (index f) (if now then [] else b) }
def arriveData (s : State) (p : Nat) (f : Sys2Proof.Frame) : State := if vc f = 1 then arriveRead s p f else arriveWrite s p f

/-- An answer of this module, RESP or read data, leaves. -/
def answer (s : State) (f : Sys2Proof.Frame) : State :=
  let s := spendFrame s 8 f
  match route s (dst f) (src f) (tag f) with
  | .here => if kind f = 3 then arriveResp s 24 f else arriveData s 24 f
  | .port p => send s p f
  | .none => s
def respond (s : State) (src tag reason result : Nat) (arg : Bytes) : State :=
  answer s (body 3 1 0 src (myId s) tag 0 (respBlock reason result arg))
/-- Data of unit i for a served read. -/
def sendUnit (s : State) (x : Served) (i : Nat) (b : Bytes) : State :=
  answer s (body 2 1 0 x.src (myId s) x.tag i (pad b))
/-- A served request ends with a RESP. -/
def close (s : State) (x : Served) (reason result : Nat) (arg : Bytes) : State :=
  respond (dropServed s x) x.src x.tag reason result arg

/-- A REQ for this module arrives on port p: its block is checked (R337), and it waits for its execution. -/
def arriveReq (s : State) (p : Nat) (f : Sys2Proof.Frame) : State :=
  match blockBad f.payload with
  | some r => respond (offend s p r f) (src f) (tag f) r 0 []
  | none =>
    let deny := if bOp f.payload ≤ 5 then regionReason s (src f) f.payload else 0
    let x : Served := ⟨src f, tag f, p, f.payload, s.now, deny, target s f.payload, []⟩
    let s := dropServed s x
    s.setFab { s.fab with served := s.fab.served ++ [x] }

/-- A request frame, or write data, of this module leaves; class k pays its energy. -/
def launch (s : State) (k : Nat) (f : Sys2Proof.Frame) : State :=
  let s := spendFrame s k f
  match route s (dst f) (src f) (tag f) with
  | .here => if kind f = 1 then arriveReq s 24 f else arriveData s 24 f
  | .port p => send s p f
  | .none =>
    if kind f = 1 then arriveResp s 24 (body 3 1 0 (myId s) (myId s) (tag f) 0 (respBlock 5 0 [])) else s

/-- What a transaction asks for. -/
structure Ask where
  op  : Nat
  dst : Nat
  region : Nat := 0
  off : Nat := 0
  len : Nat
  o1  : Nat := 0
  o2  : Nat := 0
  arg : Bytes := []
  /-- where read data goes -/
  addr : List (Nat × Nat) := []
  /-- write data -/
  data : Bytes := []

/-- Issue a transaction: REQ, and its write data after it; none when every TAG is in use. -/
def issue (s : State) (own : Requester) (a : Ask) : Option State :=
  (freeTag s).map fun tg =>
    let k := classOf s own
    let t : Txn := ⟨tg, a.dst, a.op, a.region, a.off, a.len, a.addr, own, s.now, [], none⟩
    let s := s.setFab { s.fab with txns := s.fab.txns ++ [t], cooling := s.fab.cooling.filter (s.now < ·.2) }
    let s := launch s k (body 1 0 0 a.dst (myId s) tg 0 (reqBlock a.op a.region a.len a.off a.o1 a.o2 a.arg))
    if a.data.isEmpty then s
    else (List.range (unitsOf a.len)).foldl (fun s i =>
      launch s k (body 2 0 0 a.dst (myId s) tg i (pad (slice a.data (4096 * i) (unitBytes a.len i))))) s

/-! ### Receiving and forwarding (R328, R329) -/

/-- Answer a REQ that cannot go on. -/
def bounce (s : State) (f : Sys2Proof.Frame) (reason : Nat) : State :=
  if kind f = 1 then respond s (src f) (tag f) reason 0 [] else s
/-- A frame taken on a port goes its route: delivered here, forwarded, or dropped. -/
def passOn (r : Route) (s : State) (f : Sys2Proof.Frame) (here : State → State) : State :=
  match r with
  | .here => here s
  | .none => bounce s f 5
  | .port q =>
    if 7 ≤ hops f then bounce s f 6
    else send s q (body (kind f) (vc f) (hops f + 1) (dst f) (src f) (tag f) (index f) f.payload)
/-- A REQ, DATA or RESP frame taken on a port. -/
def pass (s : State) (f : Sys2Proof.Frame) (here : State → State) : State :=
  passOn (route s (dst f) (src f) (tag f)) s f here

end Fab
end Machine
end Sys2Proof
end

