-- ==== Sys2Proof/Machine/Starting.lean ====
section
/-! DEFINITION. What a job starts with, and its context across an adjournment: windows, work counters, events, rooted
areas, lane states, expansion tables (spec/16_scheduling_and_budgets.md R377 to R382,
spec/09_randomness_and_sampling.md R195, R206 to R209, spec/10_convolution_and_latent_loops.md R230, R231). -/

namespace Sys2Proof
namespace Machine
namespace Starting

open Bits Ops JobOps

/-- A cell with every slot EMPTY and the lane states given. -/
def blankCell (lanes : List (BitVec 128)) : CellRun :=
  { slots := [], buf := [], errs := [], issued := [], done := [], flights := [], lanes := lanes, drawLog := [], prior := [],
    banks := [], active := [], reloads := [], shadow := none, reg := none, acc := [], queue := [], link := [], carry := [], held := [], soft := [],
    rows := [], redo := [], tag := 0, vals := [], ended := false, ask := none, sent := [], answers := [], halt := false, report := none }
/-- The 32 lane states of cell g derived for generation gen (R195). -/
def derived (j : Job) (g gen : Nat) : List (BitVec 128) :=
  (List.range 32).map fun i => Rng.derive (JDesc.laneSeed j.desc) (32 * g + i) gen

/-! ### Seals (spec/13_stacked_memory.md R307 to R311) -/

/-- The seal of a block. -/
def sealOf (data : Bytes) (la : Nat) : Nat := (crc32c (data ++ toLe 8 la)).toNat
/-- Memory address of the seal word of the block at memory address a. -/
def wordAddr (m : Mem) (a : Nat) : Nat := m.sealBase + 4 * (a / 4096)
/-- The block at memory address a has a seal: seals are in use, and it lies outside the seal table (R311). -/
def sealable (m : Mem) (a : Nat) : Bool :=
  m.sealEn && !(decide (m.sealBase ≤ a / 4096 * 4096) && decide (a / 4096 * 4096 < m.sealBase + Config.sealTableBytes))
/-- A sealed block at logical address la and its seal word, as one read delivers them. -/
def readSealed (v : Via) (m : Mem) (la : Nat) : MM (Bytes × Nat) := do
  let d ← MM.read v la 4096
  match xlat v.host v.fn la false with
  | none => throw (.refused la)
  | some a => do
    let w ← MM.readAt (wordAddr m a) 4
    pure (d, le w)

/-! ### Rooted areas and coefficients -/

/-- What goes wrong in a rooted load: nothing, a mismatch with its arguments, or no seal there. -/
inductive Root where
  | ok (b : Bytes)
  | mismatch (la arg1 : Nat)
  | unavailable (la : Nat)

/-- Read a rooted block with its seal, and once more on a mismatch (R310). -/
def rootBlock (v : Via) (m : Mem) (la : Nat) : MM Root := do
  match xlat v.host v.fn la false with
  | none => throw (.refused la)
  | some a =>
    if !sealable m a then pure (.unavailable la)
    else
      let (d, w) ← readSealed v m la
      if sealOf d la = w then pure (.ok d)
      else
        let (d, w) ← readSealed v m la
        if sealOf d la = w then pure (.ok d) else pure (.mismatch la (w * 2 ^ 32 + sealOf d la))
def rootBlocks (v : Via) (m : Mem) (la : Nat) : Nat → MM Root
  | 0 => pure (.ok [])
  | k + 1 => do
    match ← rootBlock v m la with
    | .ok d => do
      match ← rootBlocks v m (la + 4096) k with
      | .ok e => pure (.ok (d ++ e))
      | r => pure r
    | r => pure r
/-- Cell g's rooted image (R230). -/
def rootImage (v : Via) (m : Mem) (b : Bytes) (g : Nat) : MM Root := do
  let la := Check.rootSrc b + Check.rootPitch b * g
  if Check.rootSeal b then rootBlocks v m la (Check.rootBytes b / 4096)
  else
    let d ← MM.read v la (Check.rootBytes b)
    pure (.ok d)

/-- Load the rooted areas of the cells listed; the first failure ends the job (R230, R310, R311). -/
def loadRoots (s : State) (id : Nat) (b : Bytes) : List Nat → State
  | [] => s
  | g :: r =>
    match find s.sched id with
    | none => s
    | some j =>
      let lid := j.lid g
      let no := Check.none32
      match run s (budget s j) (rootImage (via s j (cellSrc j g)) s.mem b g) with
      | (.ok (.ok d), s) =>
        let s := upd s id fun j => match Sparse.get? j.cells g with
          | some c => { j with cells := Sparse.put j.cells g { c with buf := Memory.put c.buf 0 d } }
          | none => j
        loadRoots s id b r
      | (.ok (.mismatch la x), s) => lose s id 0x0301 no lid lid la x
      | (.ok (.unavailable la), s) =>
        let s := log s j 0x0304 lid 0 no la
        upd s id fun j => endJob j 0x0304 no lid 0
      | (.error (.bad l), s) => lose s id 0x0302 no lid lid l lid
      | (.error (.refused la), s) =>
        let s := log s j 0x0209 lid 0 no la
        upd s id fun j => endJob j 0x0209 no lid 0
/-- Cell c with entry EPOCH in its coefficient region (R231). -/
def withCoefs (j : Job) (c : CellRun) : CellRun :=
  match j.loop with
  | none => c
  | some b =>
    if Check.coefRegion b = 0xFF then c
    else
      let e := slice j.coefs (16 * j.epoch) 16
      { c with buf := Memory.put c.buf (Tab.regOffset j.table (Check.coefRegion b - 0x80))
                        ((List.range 32).flatMap fun _ => e) }
/-- Rooted areas and coefficient regions of every cell. -/
def root (s : State) (id : Nat) : State :=
  match find s.sched id with
  | none => s
  | some j =>
    match j.loop with
    | none => s
    | some b =>
      let s := if Check.rootSeal b && !s.mem.sealEn then
          upd (log s j 0x0304 (j.lid 0) 0 Check.none32 (Check.rootSrc b)) id fun j => endJob j 0x0304 Check.none32 (j.lid 0) 0
        else if Check.rootBytes b = 0 then s else loadRoots s id b (List.range j.ncells)
      upd s id fun j => { j with cells := j.cells.map fun (g, c) => (g, withCoefs j c) }

/-! ### Start -/

/-- A placed job whose cells are free starts from its descriptor (R43, R126, R129, R195, R230). -/
def fresh (s : State) (id : Nat) : State :=
  match find s.sched id with
  | none => s
  | some j =>
    let cells := (List.range j.ncells).map fun g => (g, blankCell (derived j g 0))
    let j := { j with cells := cells, laneStep := 1, epoch := 0, phase := .running }
    let s := s.setSched (put (wcFresh (zeroWindows s.sched j) j 0) j)
    let ev : MM Unit := if JDesc.events j.desc = 0 then pure ()
      else MM.write (via s j 0x10000) (JDesc.events j.desc) (zeros 32768)
    let (_, s) := run s (budget s j) ev
    root s id

/-! ### Resume position (R379) -/

/-- An epilogue with a PAIRED gate has OUT_LEVEL l. -/
def pairedAt (j : Job) (l : Nat) : Bool :=
  j.prog.any fun x => Desc.station x == Desc.epi && Desc.olv x == l &&
    (Desc.stageList x).any fun w => Desc.sKind w == 2 && field (Desc.sArg w) 1 0 == 3
/-- Iterations of level l that a cell has completed. -/
def cellIters (j : Job) (c : CellRun) (l : Nat) : Nat :=
  let top := Tab.prod j.table l 6
  (stepDescs j).foldl (fun k d =>
    let n := Sparse.getD c.done d 0 / max 1 (stepsPer j d l)
    let n := match j.rowStage d 8 with
      | none => n
      | some (rl, _) => min n (Sparse.getD c.rows d 0 / max 1 (Tab.prod j.table rl l))
    min k n) top
/-- Iterations of the resume level that every cell has completed, as the resume position counts them: the latest start
of an iteration; an even one for a PAIRED gate. -/
def resumeAt (j : Job) : Nat :=
  let l := Check.resumeLevel j
  if l = 6 ∨ (Tab.claimLevel j.table).isSome then 0
  else
    let k := j.cells.foldl (fun k (_, c) => min k (cellIters j c l)) (Tab.prod j.table l 6 - 1)
    if pairedAt j l then k - k % 2 else k
/-- With claims and a resume level at or below the claimed level, values survive (R379). -/
def keepsValues (j : Job) : Bool :=
  match Tab.claimLevel j.table with
  | some c => decide (Check.resumeLevel j ≤ c)
  | none => false
/-- Every step of the values of claimed level l that a cell holds is complete, softmax rows included. -/
def valuesDone (j : Job) (c : CellRun) (l : Nat) : Bool :=
  (stepDescs j).all fun d => !decide (Desc.lv (j.descAt d) ≤ l) ||
    (decide (j.total c d ≤ Sparse.getD c.done d 0) && match j.rowStage d 8 with
      | none => true
      | some (rl, _) => decide (j.total c d / max 1 (stepsPer j d rl) ≤ Sparse.getD c.rows d 0))
/-- Values of a cell whose steps are all complete: every value but the last, since a cell claims the next only then. -/
def doneValues (j : Job) (c : CellRun) : List Nat :=
  match Tab.claimLevel j.table with
  | none => []
  | some l => if valuesDone j c l then c.vals else c.vals.dropLast
/-- Steps of descriptor d that stand before the resume position in this iteration. -/
def stepsAt (j : Job) (d : Nat) : Nat :=
  let l := Check.resumeLevel j
  if l = 6 ∨ (Tab.claimLevel j.table).isSome then 0 else resumeAt j * stepsPer j d l
/-- Step n of descriptor d at cell c stands before the resume position, or belongs to a finished value. -/
def kept (j : Job) (c : CellRun) (d n : Nat) : Bool :=
  if keepsValues j then decide (n < (doneValues j c).length * stepsPerValue j d) else decide (n < stepsAt j d)
/-- Lane states at the resume position (R207). -/
def lanesAt (j : Job) (c : CellRun) : List (BitVec 128) :=
  match c.drawLog.find? fun (d, n, _) => !kept j c d n with
  | some (_, _, st) => st
  | none => c.lanes
/-- COUNTER[0..5] of the resume position. -/
def counterList (j : Job) : List Nat :=
  let l := Check.resumeLevel j
  if l = 6 ∨ (Tab.claimLevel j.table).isSome then List.replicate 6 0
  else
    ((List.range 6).foldl (fun (acc : List Nat × Nat) k =>
      if k < l then (acc.1 ++ [0], acc.2)
      else let b := max 1 (Tab.bound j.table k); (acc.1 ++ [acc.2 % b], acc.2 / b)) ([], resumeAt j)).1

/-! ### Context (R381) -/

/-- The sealed move; `handle` is the hub handle of the validated copies. -/
def sealedMove (s : State) (j : Job) (handle : Nat) : Bytes :=
  let p := match j.place with
    | some p => p
    | none => ⟨false, 0, 0, 0, 0⟩
  let k := counterList j
  let flags := ofBool j.loop.isSome + 2 * ofBool (Tab.claimLevel j.table).isSome + 4 * ofBool j.espalier +
    8 * ofBool (JDesc.countFree j.desc) + 16 * ofBool (k.all (· == 0))
  let b := ascii "KSM1" ++ toLe 2 flags ++ toLe 1 (Check.resumeLevel j) ++ toLe 1 j.ring ++ toLe 4 j.pos ++ toLe 4 j.epoch ++
    k.flatMap (toLe 4) ++ toLe 1 p.gr ++ toLe 1 p.gc ++ toLe 2 (j.lid 0) ++ toLe 4 j.ncells ++ toLe 8 handle ++
    toLe 8 (JDesc.context j.desc + 0x8000) ++ toLe 8 (ptpTime s) ++ toLe 4 (j.adjourns + 1) ++ zeros 432
  b ++ toLe 4 (crc32c b).toNat
/-- The lane save area (R206). -/
def laneArea (j : Job) : Bytes :=
  let st := (j.cells.flatMap fun (_, c) => lanesAt j c).flatMap fun x => toLe 16 x.toNat
  ascii "KLS1" ++ toLe 4 j.ncells ++ toLe 8 (JDesc.laneSeed j.desc) ++ toLe 4 j.laneStep ++ toLe 4 (crc32c st).toNat ++
    zeros 40 ++ st
/-- The copy of the work counter block, 24,640 bytes. -/
def wcCopy (c : Sched) (j : Job) : Bytes :=
  if (Tab.claimLevel j.table).isNone then zeros 24640
  else slice (plotRead c j (wcPlot j) (Tab.wcOffset j.table) (64 + 8 * j.ncells)) 0 24640
/-- The whole context area. -/
def contextArea (s : State) (j : Job) (handle : Nat) : Bytes :=
  sealedMove s j handle ++ (List.range 1024).flatMap (fun d => toLe 4 (Sparse.getD j.hdone d 0)) ++ wcCopy s.sched j ++
    zeros 3520 ++ laneArea j

/-- Values to hand out again: claimed and not finished; none where the job resumes from its start (R379). -/
def reclaimed (c : Sched) (j : Job) (finished : List Nat) : List Nat :=
  match Tab.claimLevel j.table with
  | some l => if keepsValues j then
      (List.range (min (wcValue c j) (Tab.bound j.table l))).filter fun v => !finished.contains v
    else []
  | none => []

/-- Step 3 of R377: the context is written and the cells' partial state discarded (R72, R152). The job is left
adjourned, on its placement. -/
def writeContext (s : State) (id : Nat) : State :=
  match find s.sched id with
  | none => s
  | some j =>
    let (h, s) := Ops.fresh s
    let area := contextArea s j (h.toNat % 2 ^ 64)
    let finished := if keepsValues j then j.finished ++ j.cells.flatMap fun (_, c) => doneValues j c else []
    let keep := fun (t : Tally) => match t.cell with
      | none => true
      | some g => decide (t.epoch < j.epoch) || match Sparse.get? j.cells g with
        | some c => kept j c t.step t.n
        | none => true
    let gone := j.tally.filter fun t => !keep t
    let tally := (j.tally.filter keep).map fun t => if t.epoch = j.epoch ∧ keepsValues j then { t with cell := none } else t
    let cells := j.cells.map fun (g, c) =>
      (g, { blankCell [] with prior := if keepsValues j then
              (stepDescs j).foldl (fun m d =>
                Sparse.upd m d 0 (· + (doneValues j c).length * stepsPerValue j d / max 1 (j.perExec d))) c.prior
            else c.prior })
    let hit := j.cells.filterMap fun (g, c) => if c.flights.isEmpty then none else some g
    let j' := { j with phase := .adjourned, adjourns := j.adjourns + 1, reclaim := reclaimed s.sched j finished,
                       finished := finished, tally := tally, cells := cells, replay := false }
    let s := set (untally s gone) j'
    let s := if hit.isEmpty then s else s.setFab { s.fab with txns := s.fab.txns.map fun t => match t.owner with
      | .cell k _ _ _ => if k = id then { t with owner := .gone } else t
      | _ => t }
    (run s 10 (MM.write { via s j 0x10000 with cls := 10 } (JDesc.context j.desc) area)).2

/-! ### Expansion tables across a resumption (R380 step 4) -/

/-- The latest step of descriptor d before the resume position, as iteration, step: in this iteration, or the last of
the one before. Steps of claimed values have no place in the order of another placement: none is before it. -/
def latest (j : Job) (d : Nat) : Option (Nat × Nat) :=
  let n := stepsAt j d
  if 0 < n then some (j.epoch, n - 1)
  else if 0 < j.epoch ∧ ((Tab.claimLevel j.table).isNone ∨ Desc.lv (j.descAt d) = 7) then
    let t := j.iters 0 (Desc.lv (j.descAt d)) * j.perExec d
    if 0 < t then some (j.epoch - 1, t - 1) else none
  else none
/-- Step (e, n) of d stands before step (f, m) of q. -/
def earlier (j : Job) (d e n q f m : Nat) : Bool := decide (e < f) || (e == f && j.before d n q m)
/-- The latest of some steps. -/
def maxStep (j : Job) (l : List (Nat × Nat × Nat)) : Option (Nat × Nat × Nat) :=
  l.foldl (fun (m : Option (Nat × Nat × Nat)) x => match m with
    | none => some x
    | some y => if earlier j y.1 y.2.1 y.2.2 x.1 x.2.1 x.2.2 then some x else m) none
def tableWrites (j : Job) (t : Nat) : List Nat :=
  (List.range j.prog.length).filter fun d => Desc.tableWrite (j.descAt d) && Desc.twTable (j.descAt d) == t
/-- The last steps of table writes d that precede step (f, m) of q: within q's iteration, or the last of the iteration
before. -/
def lastWrite (j : Job) (d q f m : Nat) : Option (Nat × Nat × Nat) :=
  let t := j.iters 0 (Desc.lv (j.descAt d))
  match ((List.range t).filter fun n => j.before d n q m).getLast? with
  | some n => some (d, f, n)
  | none => if 0 < f ∧ 0 < t then some (d, f - 1, t - 1) else none
/-- The bank of table t that the latest reload before the resume position read. -/
def activeBank (j : Job) (t : Nat) : Option Nat :=
  let mats := (List.range j.prog.length).filter fun d =>
    Desc.station (j.descAt d) == Desc.mat && Desc.expand (j.descAt d) == 1 && Desc.tableNo (j.descAt d) == t
  match maxStep j (mats.filterMap fun d => (latest j d).map fun (e, n) => (d, e, n)) with
  | none => none
  | some (q, f, m) =>
    (maxStep j ((tableWrites j t).filterMap fun d => lastWrite j d q f m)).map fun (d, _, _) => Desc.twBank (j.descAt d)

/-- The 16 FP16 codes of a table write's source row. -/
def tableRow (b : Bytes) : List Nat := (List.range 16).map fun i => fld b (2 * i) 2
/-- Hub event counts at the resume position (R380 step 3). -/
def events (j : Job) : List (Nat × Nat) :=
  (List.range j.prog.length).filterMap fun d =>
    let x := j.descAt d
    if !Desc.signal x then none
    else if Desc.isHub x then some (Desc.evtId x, Sparse.getD j.hdone d 0)
    else
      let n := match (Tab.claimLevel j.table).filter (Desc.lv x ≤ ·) with
        | some c => (j.epoch * Tab.bound j.table c + j.finished.length) * stepsPerValue j d
        | none => j.ncells * (j.epoch * (j.iters 0 (Desc.lv x) * j.perExec d) + stepsAt j d)
      some (Desc.evtId x, n)
def putEvents (v : Via) (j : Job) : MM Unit := do
  MM.write v (JDesc.events j.desc) (zeros 32768)
  (List.range 4096).forM fun e =>
    let n := ((events j).filter (·.1 == e)).foldl (fun k x => k + x.2) 0
    if n = 0 then pure () else MM.put v (eventAddr j e) 8 n

/-- What resumption reads of the context area. -/
structure Ctx where
  move  : Bytes
  hub   : Bytes
  wc    : Bytes
  lane  : Bytes
  state : Bytes

def readCtx (v : Via) (a : Nat) : MM Ctx := do
  let move ← MM.read v a 512
  let hub ← MM.read v (a + 0x200) 4096
  let wc ← MM.read v (a + 0x1200) 24640
  let lane ← MM.read v (a + 0x8000) 64
  let n := min 3072 (fld move 0x2C 4)
  let st ← MM.read v (a + 0x8040) (512 * n)
  pure ⟨move, hub, wc, lane, st⟩
/-- MAGIC and CRC of the sealed move and of the lane save area, whose NCELLS is the sealed move's (R208, R380). -/
def ctxOk (x : Ctx) : Bool :=
  slice x.move 0 4 == ascii "KSM1" && fld x.move 0x1FC 4 == (crc32c (slice x.move 0 0x1FC)).toNat &&
  slice x.lane 0 4 == ascii "KLS1" && fld x.lane 4 4 == fld x.move 0x2C 4 && fld x.lane 0x14 4 == (crc32c x.state).toNat
/-- A reserved field of the sealed move is not zero (spec/00_scope.md R10): FLAGS[15:5] or bytes 0x04C to 0x1FB. -/
def ctxReserved (x : Ctx) : Bool := fld x.move 4 2 / 32 != 0 || !allZero (slice x.move 0x4C 432)
/-- The 32 saved states of cell g. -/
def savedLanes (x : Ctx) (g : Nat) : List (BitVec 128) :=
  (List.range 32).map fun i => BitVec.ofNat 128 (fld x.state (16 * (32 * g + i)) 16)

/-- The job as it stands at its resume position, before tables and roots (R380 steps 2, 3 and 6). -/
def restored (j : Job) (x : Ctx) : Job :=
  let same := fld x.move 0x2C 4 == j.ncells
  let step := fld x.lane 0x10 4
  let l := Check.resumeLevel j
  let k := ((List.range 6).reverse.filter (l ≤ ·)).foldl (fun n i => n * max 1 (Tab.bound j.table i) + fld x.move (0x10 + 4 * i) 4) 0
  let hub := (List.range j.prog.length).map fun d => (d, fld x.hub (4 * d) 4)
  let cells := (List.range j.ncells).map fun g =>
    let c := blankCell (if same then savedLanes x g else derived j g step)
    let steps := (stepDescs j).map fun d => (d, if l = 6 ∨ (Tab.claimLevel j.table).isSome then 0 else k * stepsPer j d l)
    let prior := match Sparse.get? j.cells g with
      | some q => q.prior
      | none => []
    let rows := (stepDescs j).filterMap fun d => (j.rowStage d 8).map fun (rl, _) =>
      (d, if l = 6 then 0 else k * Tab.prod j.table rl l)
    (g, { c with issued := steps, done := steps, rows := rows, prior := prior,
                 reloads := steps.map fun (d, n) => (d, n / max 1 (j.perExec d)) })
  { j with epoch := fld x.move 0xC 4, cells := cells, laneStep := if same then step else step + 1,
           relanes := j.relanes || !same, hgrant := hub, hdone := hub, hexec := [], phase := .running }

end Starting
end Machine
end Sys2Proof
end

