-- ==== Sys2Proof/Machine/CellMem.lean ====
section
/-! DEFINITION. LOAD and STORE at the memory or plot-store side: addresses, pages, remote runs, seals
(spec/02_streams_and_stations.md R31, R32; spec/04_number_formats.md R84; spec/05_loop_tables_and_fusion.md R113, R114,
R123; spec/08_attention_and_paged_cache.md R174 to R176; spec/13_stacked_memory.md R302, R307 to R311;
spec/14_twisil_fabric.md R335). -/

namespace Sys2Proof
namespace Machine
namespace Cells

open Bits Ops JobOps

/-! ### Faults of a step -/

/-- The first-overflow fault of R123 with the status and failing offset given. -/
def refuse (s : State) (id g d status off : Nat) : State :=
  upd (abandon s id g d) id fun j => overflow j g status d off
/-- An uncorrectable memory line met by a cell step (R301; spec/18_reliability_and_recovery.md R422). -/
def badLine (s : State) (j : Job) (g d n l : Nat) : State :=
  fault (abandon s j.id g d) j.id ⟨0x0302, some g, d, n, j.epoch⟩ (j.lid g) (j.lid g) l (cellSrc j g)
/-- What stops a run of accesses of a step. -/
def stopOn (s : State) (j : Job) (g d n : Nat) : MFail → State
  | .bad l => badLine s j g d n l
  | .refused a => refuse s j.id g d 0x0209 a
/-- A job ends with 0x0304 (R311): a sealed step while SEAL_EN is 0, which makes no access, or on a block inside the seal
table. -/
def unsealed (s : State) (j : Job) (g d a : Nat) : State :=
  let s := log (abandon s j.id g d) j 0x0304 (j.lid g) 0 d a
  upd s j.id fun j => endJob j 0x0304 d (j.lid g) 0

/-! ### Parts of a tile at the memory side -/

/-- Bytes of the one row that ROW_PITCH 0 replicates (R84). -/
def oneRow (x : Shape) : Nat :=
  let n := ceilDiv x.cols 32
  Tile.rowBytes x.fmt x.cols + (if x.expand = 2 then 3 * n else if x.expand = 1 ∨ !Fmt.scaled x.fmt then 0 else n)
/-- Bytes from the first to the last that the whole tile spans. -/
def span (x : Shape) (pitch : Nat) : Nat :=
  if pitch = 0 then oneRow x else if Tile.unit x.fmt x.expand then shapeBytes x
  else (x.rows - 1) * pitch + Tile.rowBytes x.fmt x.cols
/-- Offset and length of each part that a LOAD of the valid elements reads. -/
def loadParts (x : Shape) (pitch vr vc : Nat) : List (Nat × Nat) :=
  if vr = 0 ∨ vc = 0 then []
  else if pitch = 0 then
    let b := Tile.rowBytes x.fmt x.cols
    let n := ceilDiv x.cols 32
    let k := ceilDiv vc 32
    (0, ceilDiv (vc * Fmt.width x.fmt) 8) ::
      if x.expand = 2 then [(b, 2 * k), (b + 2 * n, k)] else if x.expand = 1 ∨ !Fmt.scaled x.fmt then [] else [(b, k)]
  else
    let l := Tile.parts x.fmt x.rows x.cols x.colb x.expand vr vc
    if Tile.unit x.fmt x.expand then l else l.zipIdx.map fun ((_, n), r) => (r * pitch, n)
/-- Neighbouring pieces of bytes as contiguous runs. -/
def mergePieces (l : List (Nat × Bytes)) : List (Nat × Bytes) :=
  (l.foldl (fun (acc : List (Nat × Bytes)) (a, x) => match acc with
    | (b, y) :: r => if b + y.length = a then (b, y ++ x) :: r else (a, x) :: acc
    | [] => [(a, x)]) []).reverse
/-- Neighbouring parts as contiguous runs. -/
def mergeRuns (l : List (Nat × Nat)) : List (Nat × Nat) :=
  (l.foldl (fun (acc : List (Nat × Nat)) (a, n) => match acc with
    | (b, m) :: r => if b + m = a then (b, m + n) :: r else (a, n) :: acc
    | [] => [(a, n)]) []).reverse
/-- Cut bytes read in order into parts of the lengths given. -/
def cut : List Nat → Bytes → List Bytes
  | [], _ => []
  | n :: r, b => b.take n :: cut r (b.drop n)
/-- n bytes repeated by element: byte c of the result is byte c div 32 of b, w bytes each. -/
def spread (w cols : Nat) (b : Bytes) : Bytes := (List.range cols).flatMap fun c => slice b (w * (c / 32)) w
/-- The packed image that the parts read give (R84, R114). -/
def loadImage (x : Shape) (pitch vr vc : Nat) (got : Bytes) : Bytes :=
  let parts := loadParts x pitch vr vc
  let bs := cut (parts.map (·.2)) got
  if pitch = 0 then
    let row := Tile.maskRow x.fmt vc (bs.getD 0 [])
    let rb := Tile.rowBytes x.fmt x.cols
    let base := x.rows * rb
    let body := (List.range vr).map fun r => (r * rb, row)
    let sc := bs.getD 1 []
    let zp := bs.getD 2 []
    let nb := ceilDiv vr 32
    let extra := if x.expand = 2 then
        let g := ceilDiv x.rows 32 * x.cols
        (List.range nb).flatMap fun b => [(base + 2 * b * x.cols, spread 2 vc sc), (base + 2 * g + b * x.cols, spread 1 vc zp)]
      else if x.expand = 1 ∨ !Fmt.scaled x.fmt then []
      else if x.colb then (List.range nb).map fun b => (base + b * x.cols, spread 1 vc sc)
      else (List.range vr).map fun r => (base + r * ceilDiv x.cols 32, sc)
    Calc.assemble (shapeBytes x) (body ++ extra)
  else
    let places := (Tile.parts x.fmt x.rows x.cols x.colb x.expand vr vc).map (·.1)
    Calc.assemble (shapeBytes x) ((places.zip bs).zipIdx.map fun ((o, b), i) =>
      (o, if i < vr then Tile.maskRow x.fmt vc b else b))
/-- What a STORE of the first vr rows and vc columns writes: offset from its address and bytes (R114). -/
def storePieces (t : Tile) (ex pitch vr vc : Nat) : List (Nat × Bytes) :=
  (Tile.parts t.fmt t.rows t.cols t.colb ex vr vc).zipIdx.map fun ((o, n), i) =>
    let b := slice t.data o n
    (if Tile.unit t.fmt ex then o else i * pitch, if i < vr then Tile.maskRow t.fmt vc b else b)

/-! ### Census (spec/04_number_formats.md R101) -/

def censusOf (f : Nat) (raw : Nat) : Nat :=
  if Fmt.isFloat f then match Fmt.elt f raw with
    | .nan => 3
    | .inf _ => 3
    | .fin _ m _ _ => if m = 0 then 1 else if raw % 2 ^ (Fmt.width f - 1) = Fmt.maxCode f then 2 else 0
  else if raw = 0 then 1
  else if f = Fmt.uint8 then (if raw = 255 then 2 else 0)
  else if f = Fmt.int8 then (if raw = 0x80 ∨ raw = 0x7F then 2 else 0)
  else if raw = 8 ∨ raw = 7 then 2 else 0
/-- TOTAL, ZERO, LIMIT and NONFINITE of the elements written. -/
def census (t : Tile) (vr vc : Nat) : List Nat :=
  let k := (List.range vr).flatMap fun r => (List.range vc).map fun c => censusOf t.fmt (t.rawAt r c)
  [k.length, k.count 1, k.count 2, k.count 3]

/-! ### The side of a LOAD or STORE -/

/-- What a step of LOAD or STORE d addresses: tile, valid counts of its own expression, and BASE + off. -/
structure Side where
  shape : Shape
  vr    : Nat
  vc    : Nat
  pos   : Int
  co    : Coord

/-- The tile that a STORE writes: its input's format and orientation (R31, R84). -/
def storeShape (j : Job) (x : Bytes) : Shape :=
  let (colb, ex) := Check.packing j (Desc.inA x)
  ⟨Desc.fmtOut x, Desc.rows x, Desc.cols x, colb, ex⟩
def side (j : Job) (c : CellRun) (g d n : Nat) : Side :=
  let x := j.descAt d
  let e := Desc.addrSel x
  let sh := if Desc.station x = Desc.store then storeShape j x
    else (Check.shapeOf j d).getD ⟨Desc.fmtIn x, Desc.rows x, Desc.cols x, false, 0⟩
  ⟨sh, j.clip c g d n (Tab.rowDim j.table e) sh.rows 0, j.clip c g d n (Tab.colDim j.table e) sh.cols 0,
    (Desc.base x : Int) + j.offset c g d n e, j.coord c g d n e 0⟩
/-- The side lies in the plot-store window (R123). -/
def Side.inWindow (p : Side) (j : Job) (pitch : Nat) : Bool :=
  decide (0 ≤ p.pos) && decide (p.pos + span p.shape pitch ≤ Tab.psSize j.table)
def Side.addr (p : Side) : Nat := wrap 64 p.pos

/-- What the side of a step comes to at ISSUE. -/
inductive Reach where
  /-- null: no access -/
  | null (vr vc : Nat)
  /-- logical address of its first byte and its valid counts -/
  | memory (a vr vc : Nat)
  /-- plot-store offset in the job's window -/
  | plot (o vr vc : Nat)
  /-- endpoint, region, offset -/
  | remote (dst region off vr vc : Nat)
  /-- the fault procedure of R123 -/
  | over (status off : Nat)

/-- The plane of a paged offset holds values (spec/08_attention_and_paged_cache.md R171, R175). -/
def valuePlane (c : Bytes) (vo : Nat) : Bool := vo % max 1 (CacheOps.pageBytes c) / max 1 (CacheOps.planeBytes c) % 2 == 1
/-- Valid counts of a paged LOAD with k valid tokens (R176); a STORE keeps its own. -/
def tokenClip (load value : Bool) (vr vc k : Nat) : Nat × Nat :=
  if !load then (vr, vc) else if value then (min vr k, vc) else (vr, min vc k)
/-- Resolve the side of a step that is not null: plot store, remote, paged or plain memory. -/
def reach (v : Via) (j : Job) (x : Bytes) (p : Side) : MM Reach :=
  let fp := span p.shape (Desc.pitch x)
  if p.vr = 0 ∨ p.vc = 0 then pure (.null p.vr p.vc)
  else if Desc.space x = 1 then
    pure (if p.inWindow j (Desc.pitch x) then .plot p.pos.toNat p.vr p.vc else .over 0x0201 (wrap 64 p.pos))
  else if CacheOps.isRemote (Desc.base x) then
    let off := p.pos - (Desc.base x : Int)
    let low := (Desc.base x % 2 ^ 32 : Nat) + off
    pure (if 0 ≤ low ∧ low + fp ≤ 2 ^ 32 then .remote (field (Desc.base x) 55 40) (field (Desc.base x) 39 32) low.toNat p.vr p.vc
          else .over 0x0201 (wrap 64 off))
  else if CacheOps.isPaged p.addr then
    if j.cacheD.isEmpty then pure (.over 0x0209 p.addr)
    else do
      let load := Desc.station x == Desc.load
      let value := valuePlane j.cacheD (field p.addr 39 0)
      match ← CacheOps.walk v j.cacheD p.addr fp with
      | .null =>
        let (r, c) := tokenClip true value p.vr p.vc 0
        pure (.null r c)
      | .at a k val =>
        let (r, c) := tokenClip load val p.vr p.vc k
        pure (.memory a r c)
      | .unmapped o => pure (.over 0x0209 o)
  else pure (.memory p.addr p.vr p.vc)

/-- Units of the plot store that parts of a window touch. -/
def plotUnits (j : Job) (g o : Nat) (parts : List (Nat × Nat)) : List Nat :=
  let p := j.plot g
  parts.flatMap fun (k, n) => (units (winOf j p + o + k) n).map fun u => 2 ^ 20 * p + u
/-- Read parts of a job's window on cell g's plot; the first uncorrectable unit otherwise (R302). -/
def readPlot (s : State) (j : Job) (g o : Nat) (parts : List (Nat × Nat)) : Except Nat Bytes × State :=
  match badIn s.sched.plotErrs (plotUnits j g o parts) with
  | some u => (.error u, s)
  | none =>
    let c := (plotUnits j g o parts).foldl fixPlot s.sched
    (.ok (parts.flatMap fun (k, n) => plotRead c j (j.plot g) (o + k) n), s.setSched c)
/-- Write pieces to the window; whole units written lose their errors. Where the STOREs of two cells write the same bytes
and no event orders them, R127 leaves open which of the two a 64-byte unit ends up with: the model writes a tile whole as
its step completes, so the later completion has every unit (DESIGN CHOICE, log 51). -/
def writePlot (s : State) (j : Job) (g o : Nat) (l : List (Nat × Bytes)) : State :=
  let p := j.plot g
  s.setSched (l.foldl (fun c (k, b) =>
    let c := plotWrite c j p (o + k) b
    let lo := winOf j p + o + k
    { c with plotErrs := c.plotErrs.filter fun e =>
        !(decide (2 ^ 20 * p + ceilDiv lo 64 ≤ e.1) && decide (e.1 < 2 ^ 20 * p + (lo + b.length) / 64)) }) s.sched)
/-- An uncorrectable unit of the cell's plot store (R302, R422). -/
def badPlot (s : State) (j : Job) (g d n u : Nat) : State :=
  let p := j.plot g
  fault (abandon s j.id g d) j.id ⟨0x0302, some g, d, n, j.epoch⟩ (j.lid g) (0x4100 + p) (64 * (u % 2 ^ 20)) (0x40000 + p)
/-- A cell has reported an uncorrectable unit of its own buffer; a second replay within 1 s declares it failed
(R302, R422, R423). -/
def badUnit (s : State) (j : Job) (g d n u : Nat) : State :=
  let lid := j.lid g
  let again := s.sched.cellErrs.any fun e => e.1 == lid && decide (s.now ≤ e.2 + 1000000000)
  let s := fault (abandon s j.id g d) j.id ⟨0x0302, some g, d, n, j.epoch⟩ lid lid (64 * u) lid again
  let s := s.setSched { s.sched with cellErrs := if again then s.sched.cellErrs.filter (·.1 != lid)
                                                 else s.sched.cellErrs ++ [(lid, s.now)] }
  if again then Castle.declare s lid else s

/-! ### LOAD at ISSUE -/

/-- A step that may issue, with what it has read, or the state that a fault leaves. -/
inductive Begun where
  | go (s : State) (f : Flight)
  | stop (s : State)
  /-- no TAG is free: nothing happens -/
  | hold

def flight0 (d n vr vc : Nat) : Flight := ⟨d, n, [], 0, 0, vr, vc, 0, 0, false, [], [], 0, noMarks, false⟩
def readParts (v : Via) (a : Nat) : List (Nat × Nat) → MM Bytes
  | [] => pure []
  | (o, n) :: r => do
    let d ← MM.read v (a + o) n
    let e ← readParts v a r
    pure (d ++ e)
/-- One READ for each contiguous run; what arrives is spliced into the step's bytes in order. -/
def readRuns (s : State) (own : Requester) (dst region off : Nat) : Nat → List (Nat × Nat) → Option State
  | _, [] => some s
  | k, (o, n) :: r =>
    (Fab.issue s own { op := Fab.opRead, dst := dst, region := region, off := off + o, len := n, addr := [(k, n)] }).bind
      fun s => readRuns s own dst region off (k + n) r
def writeRuns (s : State) (own : Requester) (dst region off : Nat) : List (Nat × Bytes) → Option State
  | [] => some s
  | (o, b) :: r =>
    (Fab.issue s own { op := Fab.opWrite, dst := dst, region := region, off := off + o, len := b.length, data := b }).bind
      fun s => writeRuns s own dst region off r

/-- Step n of LOAD d at cell g issues; the flight of a remote step is put in place before its transactions. A table write
reads and writes its 16 entries whatever the clip leaves valid of its tile, unless that is null (spec/04_number_formats.md
R88; DESIGN CHOICE, log 58: the spec is silent on a clipped table write). -/
def loadBegin (s : State) (j : Job) (c : CellRun) (g d n : Nat) : Begun :=
  let x := j.descAt d
  let p := side j c g d n
  let v := viaAt s j (cellSrc j g) d
  if Desc.tableWrite x ∧ Sparse.get? c.active (Desc.twTable x) = some (Desc.twBank x) then
    .stop (upd s j.id fun j => endJob j 0x0207 d (j.lid g) 0)
  else if Desc.seals x && !s.mem.sealEn then .stop (unsealed s j g d p.addr)
  else match run s (budget s j) (reach v j x p) with
    | (.error e, s) => .stop (stopOn s j g d n e)
    | (.ok (.null r k), s) => .go s (flight0 d n r k)
    | (.ok (.over st off), s) => .stop (refuse s j.id g d st off)
    | (.ok (.plot o r k), s) =>
      match readPlot s j g o (loadParts p.shape (Desc.pitch x) r (if Desc.tableWrite x then 16 else k)) with
      | (.error u, s) => .stop (badPlot s j g d n u)
      | (.ok b, s) => .go s { flight0 d n r k with got := b }
    | (.ok (.remote dst reg off r k), s) =>
      let parts := loadParts p.shape (Desc.pitch x) r (if Desc.tableWrite x then 16 else k)
      match readRuns s (.cell j.id g d n) dst reg off 0 (mergeRuns parts) with
      | none => .hold
      | some s => .go s { flight0 d n r k with got := zeros (parts.map (·.2)).sum }
    | (.ok (.memory a r k), s) =>
      if Desc.seals x then
        match xlat s.host j.fn a false with
        | none => .stop (refuse s j.id g d 0x0209 a)
        | some m =>
          if !Starting.sealable s.mem m then .stop (unsealed s j g d a)
          else match run s (budget s j) (Starting.readSealed v s.mem a) with
            | (.error e, s) => .stop (stopOn s j g d n e)
            | (.ok (b, w), s) => .go s { flight0 d n r k with got := b, word := w, addr := a }
      else match run s (budget s j) (readParts v a (loadParts p.shape (Desc.pitch x) r (if Desc.tableWrite x then 16 else k))) with
        | (.error e, s) => .stop (stopOn s j g d n e)
        | (.ok b, s) => .go s { flight0 d n r k with got := b }

/-! ### LOAD at COMPLETE -/

/-- The tile of a LOAD step with what it has read. -/
def loadTile (p : Side) (x : Bytes) (f : Flight) : Tile :=
  let img := if f.vr = 0 ∨ f.vc = 0 then [] else if Desc.seals x then f.got
    else loadImage p.shape (Desc.pitch x) f.vr f.vc f.got
  ⟨p.shape.fmt, p.shape.rows, p.shape.cols, f.vr, f.vc, p.shape.colb, img, p.co⟩
/-- Verify the seal of what a LOAD has read, reading once more on a mismatch (R310): the bytes, or the state that the
fault leaves. -/
def verify (s : State) (j : Job) (g d n : Nat) (f : Flight) : Except State (Bytes × State) :=
  let a := f.addr
  if !Desc.seals (j.descAt d) || f.vr == 0 || f.vc == 0 || Starting.sealOf f.got a == f.word then .ok (f.got, s)
  else match run s (budget s j) (Starting.readSealed (viaAt s j (cellSrc j g) d) s.mem a) with
    | (.error e, s) => .error (stopOn s j g d n e)
    | (.ok (b, w), s) =>
      if Starting.sealOf b a = w then .ok (b, s)
      else .error (fault (abandon s j.id g d) j.id ⟨0x0301, some g, d, n, j.epoch⟩ (j.lid g) (j.lid g) a
                    (w * 2 ^ 32 + Starting.sealOf b a))

/-! ### STORE -/

/-- Counts that a STORE writes: those of its input and of its own expression (R114). -/
def storeCounts (t : Tile) (r k : Nat) : Nat × Nat := (min t.vr r, min t.vc k)
/-- Step n of STORE d at cell g issues: its address is checked, and a remote step's WRITEs leave. `addr` keeps the
address. -/
def storeBegin (s : State) (j : Job) (c : CellRun) (g d n : Nat) : Begun :=
  let x := j.descAt d
  let p := side j c g d n
  let t := (operand j c g d n 0 0).getD (nullOf x)
  let p := { p with vr := min t.vr p.vr, vc := min t.vc p.vc }
  let v := viaAt s j (cellSrc j g) d
  if Desc.seals x && !s.mem.sealEn then .stop (unsealed s j g d p.addr)
  else match run s (budget s j) (reach v j x p) with
  | (.error e, s) => .stop (stopOn s j g d n e)
  | (.ok (.null _ _), s) => .go s (flight0 d n 0 0)
  | (.ok (.over st off), s) => .stop (refuse s j.id g d st off)
  | (.ok (.plot o r k), s) => .go s { flight0 d n r k with addr := o }
  | (.ok (.remote dst reg off r k), s) =>
    let l := storePieces t p.shape.expand (Desc.pitch x) r k
    match writeRuns s (.cell j.id g d n) dst reg off (mergePieces l) with
    | none => .hold
    | some s => .go s (flight0 d n r k)
  | (.ok (.memory a r k), s) =>
    let l := storePieces t p.shape.expand (Desc.pitch x) r k
    match l.find? fun (o, b) => (xlatRun s.host j.fn (a + o) b.length true).isNone with
    | some (o, _) => .stop (refuse s j.id g d 0x0209 (a + o))
    | none =>
      if Desc.seals x then match xlat s.host j.fn a true with
        | none => .stop (refuse s j.id g d 0x0209 a)
        | some m => if !Starting.sealable s.mem m then .stop (unsealed s j g d a)
          else .go s { flight0 d n r k with addr := a }
      else .go s { flight0 d n r k with addr := a }

def writeAll (v : Via) (a : Nat) : List (Nat × Bytes) → MM Unit
  | [] => pure ()
  | (o, b) :: r => do
    MM.write v (a + o) b
    writeAll v a r
/-- The seal word of the block at a, whose whole contents are `whole`, or are read back where the store wrote only a part
(R309). -/
def putSeal (v : Via) (m : Mem) (a : Nat) (whole : Option Bytes) : MM Unit := do
  match xlat v.host v.fn a true with
  | none => throw (.refused a)
  | some x => do
    let b ← match whole with
      | some b => pure b
      | none => MM.readAt x 4096
    MM.writeAt v (Starting.wordAddr m x) (toLe 4 (Starting.sealOf b a))
/-- Memory lines that pieces written at logical address a touch. -/
def linesWritten (s : State) (j : Job) (a : Nat) (l : List (Nat × Bytes)) : List Nat :=
  l.flatMap fun (o, b) => match xlatRun s.host j.fn (a + o) b.length true with
    | some ps => ps.flatMap fun (m, n) => (List.range (Memory.linesOf m n)).map (m / 64 + ·)
    | none => []
/-- The writes of a STORE step of tile t: lines written in memory, or the state that a fault leaves. -/
def storeEnd (s : State) (j : Job) (g d n : Nat) (t : Tile) (f : Flight) : Except State (List Nat × State) :=
  let x := j.descAt d
  let l := storePieces t (storeShape j x).expand (Desc.pitch x) f.vr f.vc
  if f.vr = 0 ∨ f.vc = 0 then .ok ([], s)
  else if Desc.space x = 1 then .ok ([], writePlot s j g f.addr l)
  else if CacheOps.isRemote (Desc.base x) then .ok ([], s)
  else
    let v := viaAt s j (cellSrc j g) d
    let whole := if f.vr = t.rows ∧ f.vc = t.cols then some (slice t.data 0 4096) else none
    let act : MM Unit := do
      writeAll v f.addr l
      if Desc.seals x then putSeal v s.mem f.addr whole else pure ()
    match run s (budget s j) act with
    | (.error e, s) => .error (stopOn s j g d n e)
    | (.ok _, s) =>
      let sl := if Desc.seals x then match xlat s.host j.fn f.addr true with
          | some m => [Starting.wordAddr s.mem m / 64]
          | none => []
        else []
      .ok (linesWritten s j f.addr l ++ sl, s)

end Cells
end Machine
end Sys2Proof
end

