-- ==== Sys2Proof/Machine/CellSteps.lean ====
section
/-! DEFINITION. Tile steps: issue and completion (spec/02_streams_and_stations.md R33 to R44;
spec/03_espalier_array.md R54 to R72; spec/05_loop_tables_and_fusion.md R113 to R119, R123;
spec/06_epilogues_and_row_statistics.md R133 to R153). -/

namespace Sys2Proof
namespace Machine
namespace Cells

open Bits Ops JobOps

/-! ### Issue -/

/-- 64-byte units of the cell buffer that the operands of a step take: slots at R30's places, regions at theirs. -/
def operandUnits (j : Job) (c : CellRun) (g d n : Nat) : List Nat :=
  let of := fun (q m p : Nat) => (List.range 3).flatMap fun i =>
    let r := operandRef (j.descAt q) i
    match operand j c g q m i p with
    | none => []
    | some t => if t.null then [] else
        if Desc.isSlot r then units (0xC0000 + 4096 * r) t.data.length
        else let p := readSpot j c g q m i r p; units p.addr p.bytes
  (if Desc.station (j.descAt d) != Desc.mat && consumesNull j c g d n then [] else of d n (j.partOf d n)) ++ match j.epiOf d with
    | some e => if j.ends d n && !outNull j c g d n then of e (j.execOf d n) 0 else []
    | none => []

/-- The first cell of those listed at which the step's footprint fails, or meets an uncorrectable unit. -/
inductive Check1 where
  | ok
  | over (g off : Nat)
  | unit (g u : Nat)
def checkCells (j : Job) (d : Nat) : List Nat → Check1
  | [] => .ok
  | g :: r =>
    match cellOf j g with
    | none => checkCells j d r
    | some c =>
      let n := nextStep c d
      match (stepSpots j c g d n).find? fun p => !p.null && !p.fits with
      | some p => .over g p.fail
      | none => match badIn c.errs (operandUnits j c g d n) with
        | some u => .unit g u
        | none => checkCells j d r

/-! ### Rows of an espalier MAT (spec/03_espalier_array.md R53, R57, R62, R67, R68) -/

/-- Rows of its IN_A that a step has valid at a cell; none at a position that forms no chain. -/
def ownRows (j : Job) (c : CellRun) (g d n : Nat) : Nat :=
  if beyond j c g d n then 0
  else min ((operand j c g d n 0 (j.partOf d n)).getD (nullOf (j.descAt d))).vr (partRows j d (j.partOf d n))
/-- Rows that the step streams along the chain of cell g: as many as one of its cells has. A cell that has fewer adds
nothing to the others, and the arriving sums pass it unchanged (R116, R118). -/
def chainLenRows (j : Job) (c : CellRun) (g d n : Nat) : Nat :=
  if beyond j c g d n then 0
  else (List.range (chainLen j d)).foldl (fun m k => match cellOf j (g - offsetIn j d g + k) with
    | some q => max m (ownRows j q (g - offsetIn j d g + k) d n)
    | none => m) 0
def isInt (j : Job) (d : Nat) : Bool :=
  Check.pairClass (Desc.fmtIn (j.descAt d)) (Desc.wFmt (j.descAt d)) (Desc.expand (j.descAt d)) == 2
/-- The block that the array holds for step n of MAT d. -/
def blockFor (j : Job) (c : CellRun) (d n : Nat) : Option Block :=
  c.reg.filter fun b => b.d == d && b.exec == j.execOf d n
/-- The MAT step of a cell that still streams: in a cell group the one in flight, in espalier the one that has rows left
to issue. -/
def matFlight (j : Job) (c : CellRun) : Option Flight :=
  c.flights.find? fun f => Desc.station (j.descAt f.d) == Desc.mat && !f.fed
/-- Rows that a cell's chain queue holds: 32 entries, each of one row, or of two for FP4 and INT4 (R53). -/
def queueRows (j : Job) (d : Nat) : Nat := if Check.twoQ (Desc.fmtIn (j.descAt d)) = 1 then 64 else 32
/-- The next row of the step of flight f issues at cell g: its sums stand in the chain queue. -/
def issueRow (j : Job) (c : CellRun) (g : Nat) (f : Flight) (b : Block) : CellRun :=
  let a := (operand j c g f.d f.n 0 (j.partOf f.d f.n)).getD (nullOf (j.descAt f.d))
  let (own, m) := if f.row < ownRows j c g f.d f.n then
      runNum (Calc.rowSums a b f.row (isInt j f.d) (Check.twoQ (Desc.fmtIn (j.descAt f.d))))
    else (none, noMarks)
  let c := putFlight c { f with row := f.row + 1, fed := decide (f.rows ≤ f.row + 1), marks := addMarks f.marks m }
  { c with queue := c.queue ++ [⟨f.d, f.n, f.row, own⟩] }
/-- A cell issues rows ahead of its predecessor's sums while its block stands in the array and its queue has room (R53);
k bounds how many. The model issues them as soon as they can issue (log 49). -/
def feed (j : Job) (g : Nat) : Nat → CellRun → CellRun
  | 0, c => c
  | k + 1, c => match matFlight j c with
    | none => c
    | some f =>
      if !j.espalier then c
      else match blockFor j c f.d f.n with
        | none => c
        | some b =>
          if f.rows ≤ f.row then putFlight c { f with fed := true }
          else if c.queue.length < queueRows j f.d then feed j g k (issueRow j c g f b) else c

/-- Cell c with the step of flight f issued and the errors its operands showed corrected. -/
def issued (j : Job) (c : CellRun) (g d : Nat) (f : Flight) : CellRun :=
  let c := fillSlots j ((operandUnits j c g d f.n).foldl fixUnit c) d
  { c with issued := Sparse.put c.issued d (f.n + 1), flights := (dropFlight c d f.n).flights ++ [f] }
/-- The flight of a step at its issue: an espalier MAT streams the rows of its chain, and none beyond it. -/
def matFlight0 (j : Job) (c : CellRun) (g d n : Nat) : Flight :=
  let rows := if j.espalier && Desc.station (j.descAt d) == Desc.mat then chainLenRows j c g d n else 0
  { flight0 d n 0 0 with
    rows := rows,
    fed := j.espalier && Desc.station (j.descAt d) == Desc.mat && beyond j c g d n }
/-- The step of d issues at cell g. -/
def issueAt (s : State) (id d g : Nat) : State :=
  match find s.sched id with
  | none => s
  | some j =>
    match cellOf j g with
    | none => s
    | some c =>
      let n := nextStep c d
      let st := Desc.station (j.descAt d)
      -- a step stands in flight while its first transactions leave, so that their answers find it
      let s0 := set s (putCell j g { c with flights := c.flights ++ [flight0 d n 0 0] })
      let b := if st = Desc.load then loadBegin s0 j c g d n else if st = Desc.store then storeBegin s0 j c g d n
        else .go s0 (matFlight0 j c g d n)
      match b with
      | .hold => s
      | .stop s => abandon s id g d
      | .go s f => upd s id fun j => match cellOf j g with
        | none => j
        | some c => if (flightOf c d).isNone then j else putCell j g (feed j g 64 (issued j c g d f))

/-- A table write still runs again at some cell of the job, before any tile step (spec/16_scheduling_and_budgets.md
R380). -/
def restoring (j : Job) : Bool := j.cells.any fun (_, c) => !c.redo.isEmpty || c.flights.any (·.again)
/-- Table write d runs again at cell g, as step n of iteration e: its source is read anew. -/
def redoAt (s : State) (j : Job) (c : CellRun) (g d e n : Nat) : State :=
  let c := { c with redo := c.redo.drop 1 }
  let s0 := set s (putCell j g { c with flights := c.flights ++ [{ flight0 d n 0 0 with again := true }] })
  match loadBegin s0 { j with epoch := e } { c with active := [] } g d n with
  | .hold => s
  | .stop s => abandon s j.id g d
  | .go s f => upd s j.id fun j => match cellOf j g with
    | none => j
    | some c => putCell j g (putFlight c { f with again := true })
/-- Descriptor d is the table write that runs again next at cell g, and may. -/
def redoes (s : State) (j : Job) (g d : Nat) : Bool :=
  live j && !s.bu.stopped && match cellOf j g with
    | some c => !c.halt && (c.redo.head?.map (·.1)) == some d
    | none => false
/-- The next table write of cell g that is to run again does so. -/
def redoNext (s : State) (j : Job) (g : Nat) : State :=
  match cellOf j g with
  | none => s
  | some c => match c.redo with
    | (d, e, n) :: _ => redoAt s j c g d e n
    | [] => s
/-- Every condition for the step of d at cell g but the class's budget. -/
def mayIssue (s : State) (j : Job) (g d : Nat) : Bool :=
  live j && !s.bu.stopped && !restoring j && Desc.steps (j.descAt d) && (together j g d).all fun k => ready s j k d && firstOf s j k d

/-! ### Epilogue chains -/

/-- How a chain converts: RMODE, STREAM and whether along columns. -/
structure Conv where
  rm     : Nat
  stream : Nat
  colb   : Bool
def convOf (x : Bytes) : Conv :=
  match Check.convStage x with
  | some w => let a := Desc.sArg w; ⟨field a 1 0, field a 31 16, bit a 3⟩
  | none => ⟨0, 0, false⟩
/-- What a cell's steps draw with. -/
def srcOf (j : Job) (c : CellRun) : Calc.Src := ⟨c.lanes, JDesc.keySeed j.desc, j.epoch, Tab.extents j.table⟩
/-- Number, within its row, of the accumulation that step n of MAT d ends, and whether it is the row's last. -/
def rowPlace (j : Job) (d n rl : Nat) : Nat × Bool :=
  let per := max 1 (Tab.prod j.table (Desc.lv (j.descAt d)) (Desc.olv (j.descAt d)))
  let tiles := max 1 (Tab.prod j.table (Desc.olv (j.descAt d)) rl)
  let k := j.execOf d n / per % tiles
  (k, k + 1 == tiles)

/-- What the end of an accumulation leaves at a cell: the cell, the tile delivered and the statistics tile. -/
structure Ended where
  cell  : CellRun
  tile  : Tile
  stats : Option Tile

def nullOut (j : Job) (d s : Nat) : Tile :=
  let x := outShape j d s
  ⟨x.fmt, x.rows, x.cols, 0, 0, x.colb, [], ⟨[], 0xFF, 0xFF⟩⟩
/-- The null statistics tile that a null output goes with: the epilogue's slot becomes READY as usual (R37, R56). -/
def nullStats (j : Job) (d : Nat) : Option Tile :=
  match j.epiOf d with
  | some e => if Desc.isSlot (Desc.out (j.descAt e)) then
      some (Tile.nullTile Fmt.fp32 (Desc.rows (j.descAt e)) 4 0 0 ⟨[], 0xFF, 0xFF⟩) else none
  | none => none
/-- Step n of MAT d ends the even iteration of a PAIRED gate's pair, or the odd one; none without such a gate (R141). -/
def pairPart (j : Job) (d n : Nat) : Option Bool :=
  match j.epiOf d with
  | some e => if (Calc.beforePair (Desc.stageList (j.descAt e))).2 then
      some ((j.at_ d n).getD (Desc.olv (j.descAt e)) 0 % 2 == 0) else none
  | none => none
/-- The chain of epilogue e runs on the sums of MAT d, step n, part s (R134 to R141, R150). -/
def runChain (j : Job) (c : CellRun) (g d e n s : Nat) (grid : Tile.Grid) (vr vc : Nat) (co : Coord) : NumM Ended := do
  let x := j.descAt e
  let l := Desc.stageList x
  let sh := outShape j d s
  let k := key d s
  let ops := (List.range 3).map fun i => operand j c g e (j.execOf d n) i 0
  let pre := (Calc.beforePair l).1
  if pairPart j d n = some true then
    let og ← Calc.operands pre ops vr vc
    let y ← Calc.runStages og [] pre grid
    pure ⟨{ c with held := Sparse.put c.held k ⟨vr, vc, Calc.values y⟩ }, nullOut j d s, nullStats j d⟩
  else
    let og ← Calc.operands l ops vr vc
    let held := match Sparse.get? c.held k with
      | some h => h.rows
      | none => []
    let y ← Calc.runStages og held l grid
    let c := { c with held := Sparse.del c.held k }
    match j.rowStage d 8 with
    | some (rl, _) =>
      let (_, lastTile) := rowPlace j d n rl
      let q := Sparse.getD c.soft k ⟨[], [], [], 0, false⟩
      let (w, m, z, stamps) ← Calc.softTile y q.m q.l
      let t ← Tile.build Fmt.fp32 sh.rows sh.cols vr vc false co (Calc.values w) (Calc.hads w) fun _ _ => none
      pure ⟨{ c with soft := Sparse.put c.soft k ⟨m, z, q.tiles ++ [(n, vr, vc, stamps)], 0, lastTile⟩ }, t, none⟩
    | none =>
      let cv := convOf x
      let (t, lanes) ← Calc.convert (srcOf j c) cv.rm cv.stream sh.fmt sh.rows sh.cols vr vc cv.colb co y
      let stats ← match j.rowStage d 7 with
        | some _ => do
          let r ← Calc.tileRecs t
          pure (some (Tile.buildStats (Desc.rows x) vr co r))
        | none => pure none
      pure ⟨{ c with lanes := lanes }, t, stats⟩
/-- A null tile ends an accumulation: a softmax row counts it; at a PAIRED gate's even iteration it is the held tile, with
no valid element, so that the odd iteration reads NaN (R141; spec/05_loop_tables_and_fusion.md R500); at the odd one the
pair is over. -/
def nullEnd (j : Job) (c : CellRun) (d n s : Nat) (t : Tile) : Ended :=
  let k := key d s
  let c := match pairPart j d n with
    | some true => { c with held := Sparse.put c.held k ⟨0, 0, []⟩ }
    | some false => { c with held := Sparse.del c.held k }
    | none => c
  let c := match j.rowStage d 8 with
    | some (rl, _) =>
      let q := Sparse.getD c.soft k ⟨[], [], [], 0, false⟩
      { c with soft := Sparse.put c.soft k { q with tiles := q.tiles ++ [(n, 0, 0, [])], full := (rowPlace j d n rl).2 } }
    | none => c
  ⟨c, t, nullStats j d⟩

/-! ### Completion -/

/-- What a step comes to: the cell, marks by descriptor, and the census of a STORE. -/
structure Outcome where
  cell   : CellRun
  marks  : List (Nat × Marks)
  census : List Nat
  /-- 64-byte accesses of the cell buffer that its output makes -/
  wrote  : Nat

/-- The parts of a tile's image that are valid are written to a region: a conversion writes no padding elements
(spec/04_number_formats.md R98). -/
def putParts (c : CellRun) (a : Nat) (l : List (Nat × Bytes)) : CellRun :=
  l.foldl (fun c (o, b) => { c with buf := Memory.put c.buf (a + o) b, errs := clearErrs c.errs (a + o) b.length }) c
/-- A tile reaches the operand r of descriptor d: a slot is READY at an execution's last part, with that part's tile (log
48); a region takes the valid parts of the image, and nothing of a null tile (R37, R56, R113). -/
def deliver (j : Job) (c : CellRun) (g d n r : Nat) (t : Tile) : CellRun :=
  let s := j.partOf d n
  if Desc.isSlot r then (if s + 1 = max 1 (j.perExec d) then readySlot c r t else c)
  else if Desc.isRegion r && !t.null then
    let p := writeSpot j c g d n r s
    putParts c p.addr (t.pieces p.shape.expand)
  else c
def imageUnits (t : Tile) : Nat := if t.null then 0 else ceilDiv t.data.length 64

/-- The sums of accumulation d, part s, end: chain and output (R119, R134 to R141). -/
def matEnd (j : Job) (c : CellRun) (g d n : Nat) (sums : Sums) (vr vc : Nat) (co : Coord) : Outcome :=
  let s := j.partOf d n
  let sh := outShape j d s
  let c := { c with acc := Sparse.del c.acc (key d s) }
  let put := fun (e : Ended) (m : List (Nat × Marks)) =>
    let c := deliver j e.cell g d n (Desc.out (j.descAt d)) e.tile
    let c := match j.epiOf d, e.stats with
      | some q, some t => deliver j c g d n (Desc.out (j.descAt q)) t
      | _, _ => c
    (⟨c, m, [], imageUnits e.tile⟩ : Outcome)
  if vr = 0 ∨ vc = 0 then put (nullEnd j c d n s ⟨sh.fmt, sh.rows, sh.cols, vr, vc, sh.colb, [], co⟩) []
  else
    let grid := (List.range vr).map fun r =>
      let row := (sums.getD r none).getD []
      (List.range vc).map fun k => row.getD k (Num.zero false)
    match j.epiOf d with
    | some e =>
      let (x, m) := runNum (runChain j c g d e n s grid vr vc co)
      put x [(e, m)]
    | none =>
      let ((t, _), m) := runNum (Calc.convert (srcOf j c) 0 0 sh.fmt sh.rows sh.cols vr vc false co (Calc.unmarked grid))
      put ⟨c, t, none⟩ [(d, m)]

/-- Fold the rows of a step onto an accumulation, row by row. -/
def addSums (a b : Sums) : NumM Sums :=
  (List.range (max a.length b.length)).mapM fun r => Calc.addRow (a.getD r none) (b.getD r none)
/-- Completion of a MAT step in a cell group (R58, R118). -/
def matStep (j : Job) (c : CellRun) (g d n : Nat) (b : Block) : Outcome :=
  let s := j.partOf d n
  let x := j.descAt d
  let a := (operand j c g d n 0 s).getD (nullOf x)
  let rows := min a.vr (partRows j d s)
  let old := if j.begins d n then [] else Sparse.getD c.acc (key d s) []
  let (sums, m) := runNum do
    let new ← (List.range rows).mapM fun r => Calc.rowSums a b r (isInt j d) (Check.twoQ (Desc.fmtIn x))
    addSums old new
  if j.ends d n then
    let o := matEnd j c g d n sums rows b.vc (Calc.matCoord a.co b.co)
    { o with marks := (d, m) :: o.marks }
  else ⟨{ c with acc := Sparse.put c.acc (key d s) sums }, [(d, m)], [], 0⟩

/-- The flight's chain sums as rows. -/
def chainRows (f : Flight) : Sums := (List.range f.rows).map fun r => Sparse.getD f.sums r none
/-- Completion of an espalier MAT step at a cell (R54 to R59, R116). -/
def espStep (j : Job) (c : CellRun) (g d n : Nat) (f : Flight) : Outcome :=
  let s := j.partOf d n
  if !j.ends d n then ⟨c, [(d, f.marks)], [], 0⟩
  else if silent j c g d n then
    let o := matEnd j c g d n [] 0 0 ⟨[], 0xFF, 0xFF⟩
    { o with marks := [(d, f.marks)] }
  else
    let a := (operand j c g d n 0 s).getD (nullOf (j.descAt d))
    let bt := (operand j c g d n 1 0).getD (nullOf (j.descAt d))
    let o := matEnd j c g d n (chainRows f) (min a.vr (partRows j d s)) bt.vc (Calc.matCoord a.co bt.co)
    { o with marks := (d, f.marks) :: o.marks }

/-- Completion of a VEC step (spec/07_exp2_log2_and_composed_functions.md R158 to R160). -/
def vecStep (j : Job) (c : CellRun) (g d n : Nat) : Outcome :=
  let x := j.descAt d
  let sh := outShape j d 0
  let a := (operand j c g d n 0 0).getD (nullOf x)
  let ws := Desc.words (Check.seqOf j d) (Desc.seqLen x)
  if consumesNull j c g d n then
    let (r, k) := if a.null then (a.vr, a.vc) else (0, 0)
    ⟨deliver j c g d n (Desc.out x) ⟨sh.fmt, sh.rows, sh.cols, r, k, sh.colb, [], a.co⟩, [], [], 0⟩
  else
    let cv : Conv := match Check.cvtWord (Check.seqOf j d) x with
      | some w => ⟨field (Fn.aux w) 1 0, field (Fn.imm w) 15 0, bit (Fn.aux w) 3⟩
      | none => ⟨0, 0, false⟩
    let ((t, lanes), m) := runNum do
      let y ← Calc.vecGrid ws (Desc.stats x) a (operand j c g d n 1 0) (operand j c g d n 2 0)
      Num.energy (200 * ws.length * a.vr * a.vc)
      Calc.convert (srcOf j c) cv.rm cv.stream sh.fmt sh.rows sh.cols a.vr a.vc cv.colb a.co y
    ⟨deliver j { c with lanes := lanes } g d n (Desc.out x) t, [(d, m)], [], imageUnits t⟩
/-- Completion of an FN step. -/
def fnStep (j : Job) (c : CellRun) (g d n : Nat) : Outcome :=
  let x := j.descAt d
  let a := (operand j c g d n 0 0).getD (nullOf x)
  if a.null then
    ⟨deliver j c g d n (Desc.out x) (Tile.nullTile (Desc.fmtOut x) (Desc.rows x) (Desc.cols x) a.vr a.vc a.co), [], [], 0⟩
  else
    let (t, m) := runNum (Calc.fnTile (Desc.op x) (Desc.fmtOut x) (Desc.rows x) (Desc.cols x) a)
    ⟨deliver j c g d n (Desc.out x) t, [(d, m)], [], imageUnits t⟩
/-- Completion of a RED step (spec/06_epilogues_and_row_statistics.md R144 to R146). -/
def redStep (j : Job) (c : CellRun) (g d n : Nat) : Outcome :=
  let x := j.descAt d
  let op := Desc.op x
  let a := (operand j c g d n 0 0).getD (nullOf x)
  let b := operand j c g d n 1 0
  -- a null statistics tile makes the step's tile null as a null IN_A does (R56)
  let a := if (match b with
    | some b => b.null
    | none => false) then { a with vr := 0, vc := 0 } else a
  let old := if j.begins d n then [] else Sparse.getD c.acc (key d 0) []
  let (acc, m) := runNum do
    let new ← (List.range a.vr).mapM fun r => Calc.redRow op a b r
    (List.range (max old.length new.length)).mapM fun r => Calc.redFold op (old.getD r none) (new.getD r none)
  if j.ends d n then
    let (t, m') := runNum (Calc.redTile op (Desc.fmtOut x) (Desc.rows x) a.vr a.vc (Calc.dropCols a.co) acc)
    let c := { c with acc := Sparse.del c.acc (key d 0) }
    ⟨deliver j c g d n (Desc.out x) t, [(d, addMarks m m')], [], imageUnits t⟩
  else ⟨{ c with acc := Sparse.put c.acc (key d 0) acc }, [(d, m)], [], 0⟩

/-! ### Energy (spec/20_power_thermal_measurement.md R468) -/

/-- 64-byte accesses that a step's operands make. -/
def readUnits (j : Job) (c : CellRun) (g d n : Nat) : Nat := (operandUnits j c g d n).length
/-- Cell cycles of step n of d: a consumer of a null tile costs 0 (R56). -/
def stepCycles (j : Job) (c : CellRun) (g d n : Nat) : Nat :=
  let x := j.descAt d
  let st := Desc.station x
  if st = Desc.mat then
    if (j.espalier && beyond j c g d n) || consumesNull j c g d n then 0
    else if j.ends d n then Check.cost j d
    else ceilDiv (partRows j d (j.partOf d n) * Check.twoQ (Desc.fmtIn x)) 2 + 8
  else if outNull j c g d n then 0 else Check.cost j d

/-! ### TILE_STEP_COMPLETE -/

/-- No transaction of the step is outstanding. -/
def quiet (s : State) (id g d n : Nat) : Bool :=
  s.fab.txns.all fun t => match t.owner with
    | .cell k h e m => !(k == id && h == g && e == d && m == n)
    | _ => true
/-- Rows of its target words that a SCAT step writes. -/
def scatRows (j : Job) (c : CellRun) (g d n : Nat) : Nat :=
  match operand j c g d n 0 0, operand j c g d n 1 0 with
  | some a, some b => if a.null ∨ b.null then 0 else min a.vr b.vr
  | _, _ => 0
/-- The step of d in flight at cell g may complete: an espalier MAT at a tail when the sum of its last row has arrived, at
the other cells, which deliver null tiles, when its last row has issued. -/
def mayComplete (s : State) (j : Job) (g d : Nat) (c : CellRun) (f : Flight) : Bool :=
  let st := Desc.station (j.descAt d)
  if st = Desc.mat then
    if j.espalier then
      f.fed && (beyond j c g d f.n || !isTail j d g || (List.range f.rows).all fun r => (Sparse.get? f.sums r).isSome)
    else (blockFor j c d f.n).isSome
  else if st = Desc.scat then decide (scatRows j c g d f.n ≤ f.row)
  else if st = Desc.load ∨ st = Desc.store then quiet s j.id g d f.n
  else true

/-- A LOAD's completion: its tile, or its table entries. A table write that its clip makes null writes no entry, and
counts all the same as the latest write of its table (R89 names none; DESIGN CHOICE, log 50). -/
def loadStep (j : Job) (c : CellRun) (g d n : Nat) (f : Flight) : Outcome :=
  let x := j.descAt d
  let p := side j c g d n
  if Desc.tableWrite x then
    if f.vr = 0 ∨ f.vc = 0 then ⟨c, [], [], 0⟩
    else ⟨{ c with banks := Sparse.put c.banks (2 * Desc.twTable x + Desc.twBank x) (Starting.tableRow f.got) }, [], [], 0⟩
  else
    let t := loadTile p x f
    ⟨deliver j c g d n (Desc.out x) t, [], [], imageUnits t⟩
/-- The accesses the step makes as it ends: the flight with what it loaded, the lines it wrote and the census of a store
(R37). -/
def gather (s : State) (j : Job) (c : CellRun) (g d : Nat) (f : Flight) :
    Except State ((Flight × List Nat × List Nat) × State) :=
  let n := f.n
  let st := Desc.station (j.descAt d)
  if st = Desc.load then
    match verify s j g d n f with
    | .error s => .error s
    | .ok (b, s) => .ok (({ f with got := b }, [], []), s)
  else if st = Desc.store then
    let t := (operand j c g d n 0 0).getD (nullOf (j.descAt d))
    match storeEnd s j g d n t f with
    | .error s => .error s
    | .ok (l, s) =>
      .ok ((f, l, if bit (Desc.op (j.descAt d)) 0 ∧ f.vr ≠ 0 ∧ f.vc ≠ 0 then census t f.vr f.vc else []), s)
  else .ok ((f, f.lines, []), s)

/-- What the step computes from the operands its cell holds. -/
def outcomeOf (j : Job) (c : CellRun) (g d : Nat) (f : Flight) : Outcome :=
  let n := f.n
  let st := Desc.station (j.descAt d)
  if st = Desc.load then loadStep j c g d n f
  else if st = Desc.mat then
    (if j.espalier then espStep j c g d n f
     else match blockFor j c d n with
      | some b => matStep j c g d n b
      | none => ⟨c, [], [], 0⟩)
  else if st = Desc.vec then vecStep j c g d n
  else if st = Desc.fn then fnStep j c g d n
  else if st = Desc.red then redStep j c g d n
  else ⟨c, [(d, f.marks)], [], 0⟩

/-- The cell after the step: its operands taken, its step counted, its draw noted. -/
def stepped (j : Job) (before : List (BitVec 128)) (q : CellRun) (d n : Nat) : CellRun :=
  let q := takeInputs j (dropFlight q d n) d n
  { q with done := Sparse.put q.done d (n + 1),
           drawLog := if drawsAt j d n then q.drawLog ++ [(d, n, before)] else q.drawLog,
           reloads := if Desc.station (j.descAt d) = Desc.mat then
               Sparse.put q.reloads d (max (Sparse.getD q.reloads d 0) (j.execOf d n + 1))
             else q.reloads }

/-- Complete step f of d: what it read, computed and wrote; the state, or what a fault leaves. A table write that runs
again fills its bank and counts for nothing else. -/
def completeStep (s : State) (j : Job) (c : CellRun) (g d : Nat) (f : Flight) : State :=
  match gather s j c g d f with
  | .error s => s
  | .ok ((f, wrote, cen), s) =>
    let n := f.n
    if f.again then upd s j.id fun j' => putCell j' g (dropFlight (outcomeOf j c g d f).cell d n)
    else
      let o := outcomeOf j c g d f
      let e := 2000 * stepCycles j c g d n + 600 * (readUnits j c g d n + o.wrote) + (o.marks.map (·.2.energy)).sum
      let q := stepped j c.lanes o.cell d n
      -- JobOps.run may have changed the job (a lost read-modify-write): only its cell is replaced
      let s := upd s j.id fun j' => putCell j' g q
      let s := spend s j e
      let s := o.marks.foldl (fun s (k, m) => tally s j.id (some g) d n k m []) s
      let s := if cen.isEmpty then s else tally s j.id (some g) d n d noMarks cen
      signal s j.id d wrote

end Cells

/-- TILE_STEP_ISSUE (R40): the step of descriptor d that is next at cell g issues; as a job resumes, a table write of the
cell that is to run again (spec/16_scheduling_and_budgets.md R380). -/
def execTileStepIssue (j g d : Nat) (s : State) : Out :=
  match JobOps.find s.sched j with
  | none => .next s
  | some x =>
    if Cells.redoes s x g d then
      if !Cells.funded s x d then .next (s.setSched (Ops.markStall s.sched (JobOps.budget s x)))
      else .next (Cells.redoNext s x g)
    else if !Cells.mayIssue s x g d then
      .next (if Desc.wait (x.descAt d) then JobOps.pollEvent s x (Desc.evtId (x.descAt d)) else s)
    else if !Cells.funded s x d then .next (s.setSched (Ops.markStall s.sched (JobOps.budget s x)))
    else
      let l := Cells.together x g d
      match Cells.checkCells x d l with
      | .over k off => .next (Cells.refuse s j k d 0x0201 off)
      | .unit k u =>
        let n := match Cells.cellOf x k with
          | some c => Cells.nextStep c d
          | none => 0
        .next (Cells.badUnit s x k d n u)
      | .ok => .next (l.foldl (fun s k => Cells.issueAt s j d k) s)

/-- TILE_STEP_COMPLETE (R37): the step of descriptor d in flight at cell g completes. -/
def execTileStepComplete (j g d : Nat) (s : State) : Out :=
  match JobOps.find s.sched j with
  | none => .next s
  | some x =>
    match Cells.cellOf x g with
    | none => .next s
    | some c => match Cells.flightOf c d with
      | none => .next s
      | some f =>
        if !s.bu.stopped && Cells.mayComplete s x g d c f then .next (Cells.completeStep s x c g d f) else .next s

end Machine
end Sys2Proof
end

