-- ==== Sys2Proof/Machine/RecovOps.lean ====
section
/-! DEFINITION. Detection of a module-lost fault: step 1 of a warm recovery, or the cold start it begins
(spec/18_reliability_and_recovery.md R427, R428, R430). -/

namespace Sys2Proof
namespace Machine
namespace Recov

open Bits Ops

/-- SOURCE of a module-lost record, by its ARG1 (R427, R433): the scheduler, a core, or a logical cell. -/
def source (arg1 : Nat) : Nat :=
  if arg1 / 65536 = 6 then 0x6000 + arg1 % 65536 else if arg1 < 3072 then arg1 else 0x2000
/-- A module-lost fault is detected and logged. With WARM_EN 0, or as the fourth within 3,600 s, a cold start begins;
otherwise the warm recovery's step 1 is done and WARM_START follows (R428). Downtime runs from here in either case (R435,
R436). -/
def moduleLost (s : State) (arg1 : Nat) : State :=
  let s := logQuiet s { status := 0x0302, source := source arg1, cls := 4, arg1 := arg1 }
  let recent := (s.bu.recent.filter fun x => decide (s.now < x + 3600000000000)) ++ [s.now]
  let since := s.bu.downFrom.getD s.now
  if !s.bu.warmEn || decide (4 ≤ recent.length) then
    let s := Starts.coldStart s
    s.setBu { s.bu with downFrom := some since }
  else
    s.setBu { s.bu with recent := recent, lostArg := some arg1, recovering := true,
                        downFrom := some since }

end Recov
end Machine
end Sys2Proof
end

