-- ==== Sys2Proof/Machine/CellEvents.lean ====
section
/-! DEFINITION. What happens to a cell between issue and completion, and beside its steps: chain sums, reloads and swaps,
faults, claims, softmax completion, loop iterations (spec/03_espalier_array.md R51 to R69;
spec/05_loop_tables_and_fusion.md R123, R128 to R132; spec/06_epilogues_and_row_statistics.md R151;
spec/10_convolution_and_latent_loops.md R231 to R233; spec/18_reliability_and_recovery.md R424). -/

namespace Sys2Proof
namespace Machine
namespace Cells

open Bits Ops JobOps

/-! ### The chain sum -/

/-- What the row in front of the chain queue at position p is added to: at a head the carry of the execution before, in
the first execution of an accumulation nothing; elsewhere the row in front of the predecessor's sum link. none while it
has not come. -/
def arriving (j : Job) (c : CellRun) (p : Nat) (e : RowSum) : Option (Option (List Val)) :=
  if isHead j e.d p then
    (if j.begins e.d e.n then some none else Sparse.get? (Sparse.getD c.carry e.d []) e.row)
  else match cellOf j (p - 1) with
    | none => none
    | some q => match q.link with
      | x :: _ => if x.d = e.d ∧ x.n = e.n ∧ x.row = e.row then some x.sums else none
      | [] => none
/-- The cell at p - 1, or the head's carry, without what has arrived at p. -/
def takeArrived (j : Job) (p : Nat) (e : RowSum) : Job :=
  if isHead j e.d p then
    match cellOf j p with
    | none => j
    | some c => putCell j p { c with carry := Sparse.put c.carry e.d (Sparse.del (Sparse.getD c.carry e.d []) e.row) }
  else match cellOf j (p - 1) with
    | none => j
    | some q => putCell j (p - 1) { q with link := q.link.drop 1 }
/-- The sum v of a row leaves position p: to the next cell; or at a tail into the output tile or, while the accumulation
goes on, to the head's carry buffer (R57, R59). -/
def sendRow (j : Job) (p : Nat) (e : RowSum) (v : Option (List Val)) : Job :=
  match cellOf j p with
  | none => j
  | some c =>
    if !isTail j e.d p then putCell j p { c with link := c.link ++ [{ e with sums := v }] }
    else
      let c := { c with flights := c.flights.map fun f =>
        if f.d = e.d ∧ f.n = e.n then { f with sums := Sparse.put f.sums e.row v } else f }
      let j := putCell j p c
      if j.ends e.d e.n then j
      else
        let h := p + 1 - chainLen j e.d
        match cellOf j h with
        | none => j
        | some q => putCell j h { q with carry := Sparse.put q.carry e.d (Sparse.put (Sparse.getD q.carry e.d []) e.row v) }
/-- The row e in front of the chain queue at position p meets the sums arr: the queue moves on, the sum is sent, and rows
that waited for room issue (R53, R57, R59). -/
def sumRow (s : State) (j : Job) (p : Nat) (e : RowSum) (arr : Option (List Val)) : State :=
  let (v, m) := runNum (Calc.addRow arr e.sums)
  let j := takeArrived j p e
  let j := match cellOf j p with
    | none => j
    | some c => putCell j p { c with queue := c.queue.drop 1 }
  let j := sendRow j p e v
  let j := match cellOf j p with
    | none => j
    | some c => putCell j p (feed j p 64 c)
  tally (set s j) j.id (some p) e.d e.n e.d m []

/-! ### Reloads (R65, R66; spec/04_number_formats.md R86, R89) -/

/-- The table write whose bank the reload of the step of d reads: the latest that precedes it. -/
def tableBank (j : Job) (c : CellRun) (d n : Nat) : Option Nat :=
  let ws := Starting.tableWrites j (Desc.tableNo (j.descAt d))
  let here := ws.filterMap fun w =>
    ((List.range (Sparse.getD c.done w 0)).filter fun k => j.before w k d n).getLast?.map fun k => (w, j.epoch, k)
  let l := if here.isEmpty then ws.filterMap fun w => Starting.lastWrite j w d j.epoch n else here
  (Starting.maxStep j l).map fun x => Desc.twBank (j.descAt x.1)
/-- The table writes that precede the step have completed (R89). -/
def tableReady (j : Job) (c : CellRun) (d n : Nat) : Bool :=
  let x := j.descAt d
  Desc.expand x != 1 || (Starting.tableWrites j (Desc.tableNo x)).all fun w =>
    decide (stepsBefore j c d n w ≤ Sparse.getD c.done w 0)
/-- A reload for the step in flight at cell g may begin. -/
def mayReload (j : Job) (c : CellRun) (f : Flight) : Bool :=
  c.shadow.isNone && (blockFor j c f.d f.n).isNone && tableReady j c f.d f.n
/-- The reload: IN_B's block is decoded and expanded into the shadow register. Entries that no write precedes are free
values (R89 names no bank then; log 8). -/
def reload (s : State) (j : Job) (c : CellRun) (g : Nat) (f : Flight) : State :=
  let d := f.d
  let x := j.descAt d
  let t := (operand j c g d f.n 1 0).getD (nullOf x)
  let bank := if Desc.expand x = 1 then tableBank j c d f.n else none
  let blank := (List.range 16).map fun k => (Config.unwrittenEntry (Desc.tableNo x) k).toNat
  let tab := match bank with
    | some b => Sparse.getD c.banks (2 * Desc.tableNo x + b) blank
    | none => blank
  let (b, m) := runNum (Calc.block t (Desc.expand x) tab d (j.execOf d f.n))
  let c := { c with shadow := some b, reloads := Sparse.put c.reloads d (j.execOf d f.n + 1),
                    active := match bank with
                      | some k => Sparse.put c.active (Desc.tableNo x) k
                      | none => c.active }
  tally (spend (set s (putCell j g c)) j m.energy) j.id (some g) d f.n d m []
/-- The shadow register holds the block of the step in flight. -/
def maySwap (j : Job) (c : CellRun) (f : Flight) : Bool := match c.shadow with
  | some b => b.d == f.d && b.exec == j.execOf f.d f.n
  | none => false

/-! ### Claims (R128 to R132; spec/16_scheduling_and_budgets.md R379) -/

/-- Bound of the claimed level. -/
def claimBound (j : Job) : Nat := match Tab.claimLevel j.table with
  | some l => Tab.bound j.table l
  | none => 0
/-- A cell claims one value at a time: it asks for the next when every step of the values it holds is complete (R130;
spec/16_scheduling_and_budgets.md R379). -/
def wantsValue (j : Job) (c : CellRun) : Bool :=
  match Tab.claimLevel j.table with
  | none => false
  | some l => !c.ended && !c.halt && c.ask.isNone && Starting.valuesDone j c l
/-- A request of cell g with the tag given reaches the atomic unit: the answer, and whether it is a REPEAT. -/
def atomicClaim (s : State) (j : Job) (g tag : Nat) : State × Nat × Bool :=
  let (t, v) := wcOwner s.sched j g
  if t = tag then (s, v, true)
  else match j.reclaim with
    | v :: r =>
      let s := s.setSched (wcSetOwner s.sched j g tag v)
      (set s { j with reclaim := r }, v, false)
    | [] =>
      let v := wcValue s.sched j
      (s.setSched (wcSetValue (wcSetOwner s.sched j g tag v) j (v + 1)), v, false)
/-- The request arrives; its answer is on its way (R130 steps 1 to 3; R131). -/
def claimArrives (s : State) (j : Job) (g : Nat) (tag : Nat) (f : CellRun → CellRun) : State :=
  let (s, v, again) := atomicClaim s j g tag
  let s := if again then log s j 0x0303 (j.lid g) 0 v (j.lid g) else s
  upd s j.id fun j => match cellOf j g with
    | none => j
    | some c => let c := f c; putCell j g { c with answers := c.answers ++ [(tag, v)] }

/-! ### Mesh timeouts (R424) -/

/-- The step of cell g whose mesh request is unanswered: a LOAD, STORE or SCAT in flight. -/
def meshFlight (j : Job) (c : CellRun) : Option Flight :=
  c.flights.find? fun f => let st := Desc.station (j.descAt f.d); st == Desc.load || st == Desc.store || st == Desc.scat
/-- The eighth attempt timed out: a replay, or module-lost where the same step meets it again (R422). -/
def meshLost (s : State) (j : Job) (g d n : Nat) : State :=
  let k : FaultKey := ⟨0x0302, some g, d, n, j.epoch⟩
  let lid := j.lid g
  if j.faults.contains k then Recov.moduleLost s lid
  else fault (if d = Check.none32 then s else abandon s j.id g d) j.id k lid lid 0 lid

/-! ### Softmax completion (R151) -/

/-- One completion step of MAT d at cell g, on the next tile of the row whose key is k. -/
def softStep (s : State) (j : Job) (c : CellRun) (g d k m : Nat) : State :=
  let q := Sparse.getD c.soft k ⟨[], [], [], 0, false⟩
  let e := match j.epiOf d with
    | some e => e
    | none => d
  match q.tiles[q.next]? with
  | none => s
  | some (n, vr, vc, stamps) =>
    let p := writeSpot j c g d n (Desc.out (j.descAt d)) (j.partOf d n)
    let nul := vr == 0 || vc == 0
    let first := (q.tiles.take q.next).all fun t => t.2.1 == 0 || t.2.2.1 == 0
    let img := Memory.run c.buf p.addr p.bytes
    let t : Tile := ⟨p.shape.fmt, p.shape.rows, p.shape.cols, vr, vc, false, img, p.co⟩
    let (t, marks) := if nul then (t, noMarks) else runNum do
      let w := (List.range vr).map fun r => (List.range vc).map fun i => t.peek r i
      let w ← Calc.softDone first w stamps q.m q.l
      Tile.build t.fmt t.rows t.cols vr vc false t.co (Calc.values w) (Calc.hads w) fun _ _ => none
    let c := if nul then c else putParts c p.addr (t.pieces 0)
    let row := q.next + 1 == q.tiles.length
    let c := { c with soft := if row then Sparse.del c.soft k else Sparse.put c.soft k { q with next := q.next + 1 } }
    let per := match j.rowStage d 8 with
      | some (rl, _) => stepsPer j d rl
      | none => 1
    let ended := row && c.soft.all (fun x => x.1 / 2 ^ 20 != d) &&
      decide ((Sparse.getD c.rows d 0 + 1) * per ≤ Sparse.getD c.done d 0)
    let c := if ended then { c with rows := Sparse.upd c.rows d 0 (· + 1) } else c
    let cost := if nul then 0
      else 2000 * (ceilDiv (p.shape.rows * p.shape.cols) 32 + 16) + 1200 * ceilDiv p.bytes 64 + marks.energy
    tally (spend (set s (putCell j g c)) j cost) j.id (some g) d m e marks []

/-! ### Loop iterations -/

/-- A cell at the start of the next iteration (R231, R232). -/
def nextIteration (j : Job) (c : CellRun) : CellRun :=
  let prior := (stepDescs j).foldl (fun m d => Sparse.upd m d 0 (· + Sparse.getD c.done d 0 / max 1 (j.perExec d))) c.prior
  Starting.withCoefs j
    { c with slots := [], issued := [], done := [], drawLog := [], prior := prior, reloads := [], shadow := none, reg := none,
             acc := [], queue := [], link := [], carry := [], held := [], soft := [], rows := [], vals := [], ended := false, ask := none }

end Cells

open JobOps in
/-- SUM_LINK_TRANSFER (R52, R57): streamed row m of the execution, in front of the chain queue of position p, meets the
sums that have come for it and goes one hop on. -/
def execSumLinkTransfer (j p m : Nat) (s : State) : Out :=
  match find s.sched j with
  | none => .next s
  | some x =>
    match Cells.cellOf x p with
    | none => .next s
    | some c => match c.queue with
      | [] => .next s
      | e :: _ =>
        if x.espalier && !s.bu.stopped && x.partOf e.d e.n == m / 32 && e.row == m % 32 then
          match Cells.arriving x c p e with
          | none => .next s
          | some a => .next (Cells.sumRow s x p e a)
        else .next s

open JobOps in
/-- STATIONARY_RELOAD (R66): the next execution's block enters the shadow register. -/
def execStationaryReload (j g : Nat) (s : State) : Out :=
  match find s.sched j with
  | none => .next s
  | some x =>
    match Cells.cellOf x g with
    | none => .next s
    | some c => match Cells.matFlight x c with
      | none => .next s
      | some f => if !s.bu.stopped && Cells.mayReload x c f then .next (Cells.reload s x c g f) else .next s

open JobOps in
/-- SHADOW_SWAP (R67): at the operation boundary the shadow register becomes the active one. -/
def execShadowSwap (j g : Nat) (s : State) : Out :=
  match find s.sched j with
  | none => .next s
  | some x =>
    match Cells.cellOf x g with
    | none => .next s
    | some c => match Cells.matFlight x c with
      | none => .next s
      | some f =>
        if !s.bu.stopped && Cells.maySwap x c f then
          .next (set s (Cells.putCell x g (Cells.feed x g 64 { c with reg := c.shadow, shadow := none })))
        else .next s

open JobOps in
/-- FIRST_OVERFLOW_FAULT (R123 steps 2 to 4): the report of cell g reaches the hub; the first of a job ends it. -/
def execFirstOverflowFault (j g : Nat) (s : State) : Out :=
  match find s.sched j with
  | none => .next s
  | some x =>
    match Cells.cellOf x g with
    | none => .next s
    | some c => match c.report with
      | none => .next s
      | some (st, d, off) =>
        let s := set s (Cells.putCell x g { c with report := none })
        if x.phase = .ending then .next s
        else
          let s := log s x st (x.lid g) 0 d off
          .next (upd s j fun y => endJob y st d (x.lid g) 0)

open JobOps in
/-- CLAIM_REQUEST (R130): a request of cell g reaches the atomic unit: the first of those resent, whether or not an answer
has already come (R20, R131), else a new one. -/
def execClaimRequest (j g : Nat) (s : State) : Out :=
  match find s.sched j with
  | none => .next s
  | some x =>
    match Cells.cellOf x g with
    | none => .next s
    | some c =>
      match c.sent with
      | tag :: r =>
        if s.bu.stopped then .next s else .next (Cells.claimArrives s x g tag fun c => { c with sent := r })
      | [] =>
        if live x && !s.bu.stopped && Cells.wantsValue x c then
          .next (Cells.claimArrives s x g c.tag fun c =>
            { c with tag := (c.tag + 1) % 65536, ask := some ⟨c.tag, 0⟩ })
        else .next s

open JobOps in
/-- CLAIM_ANSWER (R130 steps 5 and 6): the first answer for the current tag is accepted, any other discarded. -/
def execClaimAnswer (j g : Nat) (s : State) : Out :=
  match find s.sched j with
  | none => .next s
  | some x =>
    match Cells.cellOf x g with
    | none => .next s
    | some c =>
      match c.answers with
      | [] => .next s
      | (tag, v) :: r =>
        let c := { c with answers := r }
        let c := match c.ask with
          | some a =>
            if a.tag = tag then
              (if Cells.claimBound x ≤ v then { c with ask := none, ended := true }
               else { c with ask := none, vals := c.vals ++ [v] })
            else c
          | none => c
        .next (set s (Cells.putCell x g c))

open JobOps in
/-- MESH_TIMEOUT (R424): a request of cell g had no answer for 2,048 mesh cycles; it is resent up to seven times. -/
def execMeshTimeout (j g : Nat) (s : State) : Out :=
  match find s.sched j with
  | none => .next s
  | some x =>
    match Cells.cellOf x g with
    | none => .next s
    | some c =>
      match c.ask with
      | some a =>
        if a.tries < 7 then
          .next (set s (Cells.putCell x g { c with ask := some { a with tries := a.tries + 1 }, sent := c.sent ++ [a.tag] }))
        else .next (Cells.meshLost (set s (Cells.putCell x g { c with ask := none })) x g Check.none32 c.vals.length)
      | none => match Cells.meshFlight x c with
        | none => .next s
        | some f =>
          if f.tries < 7 then .next (set s (Cells.putCell x g (Cells.putFlight c { f with tries := f.tries + 1 })))
          else .next (Cells.meshLost s x g f.d f.n)

open JobOps in
/-- SOFTMAX_COMPLETION_STEP (R151): one tile of a complete softmax row of MAT d is rescaled in place. -/
def execSoftmaxCompletionStep (j g d : Nat) (s : State) : Out :=
  match find s.sched j with
  | none => .next s
  | some x =>
    match Cells.cellOf x g with
    | none => .next s
    | some c => match Cells.softReady x c d, Cells.softKey x c d with
      | some m, some k =>
        if live x && !s.bu.stopped && !c.halt && Cells.softFirst s x g d m then
          if Ops.energyLeft s.sched (budget s x) then .next (Cells.softStep s x c g d k m)
          else .next (s.setSched (Ops.markStall s.sched (budget s x)))
        else .next s
      | _, _ => .next s

open JobOps in
/-- LOOP_ITERATION_ADVANCE (R232, R233): the iteration is complete and the next begins. -/
def execLoopIterationAdvance (j : Nat) (s : State) : Out :=
  match find s.sched j with
  | none => .next s
  | some x =>
    if live x && !s.bu.stopped && decide (x.epoch + 1 < niter x) && cellsDone x && hubDone x && x.hexec.isEmpty then
      let y := { x with epoch := x.epoch + 1, reclaim := [], finished := [] }
      let y := { y with cells := y.cells.map fun (g, c) => (g, Cells.nextIteration y c) }
      let c := if (Tab.claimLevel y.table).isNone then s.sched else wcSetValue s.sched y 0
      .next (refreshReady (s.setSched (put c y)))
    else .next s

end Machine
end Sys2Proof
end

