-- ==== Sys2Proof/Machine/HubOps.lean ====
section
/-! DEFINITION. Hub executions: grant order, faults and ends (spec/02_streams_and_stations.md R45 to R47, R501), and what
SAMPLE (spec/09_randomness_and_sampling.md R210 to R214) and FORMAT (spec/12_decode_and_ingest.md R289 to R292)
compute. -/

namespace Sys2Proof
namespace Machine
namespace Hub

open Bits Ops JobOps

def ingest : Nat := 0x10
def format : Nat := 0x11
def sample : Nat := 0x12
def enc : Nat := 0x13
def dec : Nat := 0x14
def pfx : Nat := 0x15
/-- The station that descriptor d names. -/
def stationOf (j : Job) (d : Nat) : Nat := Desc.station (j.descAt d)
/-- The station's work runs on codec engines, and its traffic counts against class 7
(spec/16_scheduling_and_budgets.md R392). -/
def isCodec (st : Nat) : Bool := st == ingest || st == enc || st == dec
/-- A unit that runs one execution at a time is running one (R501). -/
def unitBusy (c : Sched) (st : Nat) : Bool :=
  !isCodec st && c.jobs.any fun j => j.hexec.any fun x => stationOf j x.d == st
/-- Budget class that a station's executions of job j draw on. -/
def classOf (s : State) (j : Job) (st : Nat) : Nat := if isCodec st then 7 else budget s j
/-- Accesses of a station for job j. -/
def viaOf (s : State) (j : Job) (st d : Nat) : Via := { viaAt s j (hubSrc st) d with cls := classOf s j st }

/-- The session that an ENC or DEC execution names is busy with an earlier one. -/
def sessionBusy (s : State) (j : Job) (d : Nat) : Bool :=
  let st := stationOf j d
  let l := if st = enc then s.codec.enc else if st = dec then s.codec.dec else []
  l.any fun x => x.addr == fld (j.descAt d) 0x20 8 && x.fn == j.fn && x.busy
/-- Executions of a station that are ready and not granted, in the order in which they became ready: job and
descriptor. -/
def waiting (s : State) (st : Nat) : List (Nat × Nat) :=
  s.sched.ready.filterMap fun (id, d, n) => match find s.sched id with
    | none => none
    | some j => if live j && stationOf j d == st && decide (Sparse.getD j.hgrant d 0 < n) && !sessionBusy s j d then
        some (id, d) else none
/-- The execution that the station's next grant is for: blitz executions before all others (R387, R501). -/
def nextGrant (s : State) (st : Nat) : Option (Nat × Nat) :=
  let w := waiting s st
  match w.find? fun e => match find s.sched e.1 with
      | some j => rank j == 0
      | none => false with
  | some e => some e
  | none => w.head?

/-- The granted execution of descriptor d of lowest number. -/
def first (j : Job) (d : Nat) : Option HubExec := j.hexec.find? (·.d == d)
def exec? (j : Job) (d n : Nat) : Option HubExec := j.hexec.find? fun x => x.d == d && x.n == n
def putExec (j : Job) (x : HubExec) : Job :=
  { j with hexec := j.hexec.map fun y => if (y.d == x.d && y.n == x.n) = true then x else y }
def setExec (s : State) (id : Nat) (x : HubExec) : State := upd s id fun j => putExec j x
def dropExec (s : State) (id d n : Nat) : State :=
  upd s id fun j => { j with hexec := j.hexec.filter fun y => !(y.d == d && y.n == n) }
/-- Execution n of descriptor d is granted, with its work. -/
def grant (s : State) (id d n : Nat) (w : HubWork) : State :=
  upd s id fun j => { j with hexec := j.hexec ++ [⟨d, n, w⟩], hgrant := Sparse.put j.hgrant d (n + 1) }
/-- The job ends with a status, for descriptor d. -/
def endWith (s : State) (id d status : Nat) : State := upd s id fun j => endJob j status d 0xFFFF 0
/-- An access of SAMPLE or FORMAT fails: a refused address ends the job (spec/19_security.md R446), an uncorrectable
line replays it (spec/18_reliability_and_recovery.md R422); the execution stays ungranted. -/
def unitFails (s : State) (j : Job) (d n : Nat) : MFail → State
  | .refused _ => endWith s j.id d 0x0209
  | .bad l => fault s j.id ⟨0x0302, none, d, n, j.epoch⟩ 0xFFFF (srcHub (stationOf j d)) l (hubSrc (stationOf j d))
/-- An access of ENC, DEC, INGEST or PREFIX fails: an uncorrectable line loses the job (R422). -/
def workFails (s : State) (j : Job) (d : Nat) : MFail → State
  | .refused _ => endWith s j.id d 0x0209
  | .bad l => lose s j.id 0x0302 d 0xFFFF (srcHub (stationOf j d)) l (hubSrc (stationOf j d))
/-- The execution completes: it leaves, counts, and signals. -/
def completed (s : State) (id d n : Nat) : State :=
  let s := upd (dropExec s id d n) id fun j => { j with hdone := Sparse.upd j.hdone d 0 (· + 1) }
  signal s id d []

/-! ### SAMPLE -/

namespace Sample

def logits (x : Bytes) : Nat := fld x 0x20 8
def result (x : Bytes) : Nat := fld x 0x28 8
def len (x : Bytes) : Nat := field (fld x 0x30 4) 18 0
def temp (x : Bytes) : Nat := fld x 0x34 4
def topP (x : Bytes) : Nat := fld x 0x38 4
def topK (x : Bytes) : Nat := field (fld x 0x3C 2) 10 0
def stream (x : Bytes) : Nat := fld x 0x3E 2

/-- z: the row decoded; a NaN reads as -infinity. -/
def row (f : Nat) (b : Bytes) (n : Nat) : NumM (List Val) :=
  (List.range n).mapM fun i => do
    let v ← Num.flushIn (Fmt.valueOf (Fmt.elt f (fld b (i * (Fmt.width f / 8)) (Fmt.width f / 8))) 127)
    pure (if Num.isNaN v then .inf true else v)
/-- Index and value, the largest first, ties by ascending index: insertion into a list so ordered. -/
def insert (e : Nat × Val) : List (Nat × Val) → List (Nat × Val)
  | [] => [e]
  | h :: r => if Num.lt h.2 e.2 && !Num.eqv h.2 e.2 then e :: h :: r else h :: insert e r
def sorted (l : List (Nat × Val)) : List (Nat × Val) := l.foldl (fun acc e => insert e acc) []
/-- The largest entry, and the lowest index that holds it. -/
def best (l : List (Nat × Val)) : Nat × Val :=
  l.foldl (fun m e => if Num.lt m.2 e.2 && !Num.eqv m.2 e.2 then e else m) (0, .inf true)
/-- Prefix sums, each rounded once: `acc` counts units of 2^-149. -/
def sums : List Val → Nat → NumM (List Val)
  | [], _ => pure []
  | v :: r, acc => do
    let acc := match v with
      | .fin _ m e => acc + Num.scaleTo m e (-149)
      | _ => acc
    let c ← Num.round false acc (-149)
    let cs ← sums r acc
    pure (c :: cs)
/-- u x a < b for u = k x 2^-24, exactly. -/
def below (k : Nat) (a b : Val) : Bool :=
  match a with
  | .fin _ m e => Num.lt (.fin false (k * m) (e - 24)) b
  | _ => false
/-- Lowest index of a list that p holds of. -/
def findAt {α : Type} (p : Nat → α → Bool) (l : List α) : Nat :=
  match l.zipIdx.find? fun (v, i) => p i v with
  | some (_, i) => i
  | none => 0

/-- TOKEN and KEPT of a row (R213); `draw` is word 0 of the keyed draw, and the last component tells whether it was
taken. Every rounding counts, as spec/04_number_formats.md R99 has it for hub executions, that of fp32_sub(y, m) too,
which R213's list of those that can saturate or flush leaves out (DEDUCED, log 56). -/
def choose (x : Bytes) (z : List Val) (draw : Nat) : NumM (Nat × Nat × Bool) := do
  let zi := z.zipIdx.map fun (v, i) => (i, v)
  if temp x = 0 then
    let m := best zi
    if m.2 = .inf true then pure (0xFFFFFFFF, 0, false) else pure (m.1, 1, false)
  else
    let c ← match Num.ofBits 0x3FB8AA3B, Num.ofBits (temp x) with
      | .fin _ a e, .fin _ b f => Num.roundQuot false a b (e - f)
      | _, _ => pure .nan
    let y ← zi.mapM fun (i, v) => do
      let w ← Num.mul v c
      pure (i, if Num.isNaN w then Val.inf true else w)
    let top := y.any fun e => e.2 == .inf false
    let y := if top then y.map fun e => (e.1, if e.2 == .inf false then Num.zero false else .inf true) else y
    let cand := if topK x = 0 ∨ z.length ≤ topK x then y else (sorted y).take (topK x)
    let m := (best cand).2
    -- with TOP_K 0, cand[0] may be -infinity although the row is not (R213)
    if (cand.headD (0, .inf true)).2 = .inf true then pure (0xFFFFFFFF, 0, false)
    else
      let e ← cand.mapM fun p => do
        let d ← Num.sub p.2 m
        Fn.exp2 d
      let cs ← sums e 0
      let t ← Num.mul (Num.ofBits (topP x)) (cs.getLastD .nan)
      let j := findAt (fun _ v => !Num.lt v t) cs
      let u := draw / 256
      let cj := cs.getD j .nan
      let k := findAt (fun i v => decide (i ≤ j) && below u cj v) cs
      pure ((cand.getD k (0, .nan)).1, j + 1, true)

/-- Execution n: reads its row and COORD and writes TOKEN and KEPT. -/
def act (v : Via) (x : Bytes) (key epoch n : Nat) : MM (Marks) := do
  let f := Desc.fmtIn x
  let w := Fmt.width f / 8
  let b ← MM.read v (logits x + n * len x * w) (len x * w)
  let co ← MM.get v (result x + 16 * n) 8
  let z := row f b (len x)
  let draw := (Rng.philox key (co % 2 ^ 32) (co / 2 ^ 32) (stream x) epoch).1
  let work : NumM (Nat × Nat) := do
    let r ← choose x (← z) draw
    if r.2.2 then Num.energy 137 else pure ()
    pure (r.1, r.2.1)
  let (r, k) := work.run ⟨0, 0, 0⟩
  MM.write v (result x + 16 * n + 8) (toLe 4 r.1 ++ toLe 4 r.2)
  pure k

end Sample

/-! ### FORMAT -/

namespace Format

def pics (x : Bytes) : Nat := fld x 0x20 8
def ten (x : Bytes) : Nat := fld x 0x28 8
def tenStride (x : Bytes) : Nat := fld x 0x30 4
def lineW (x : Bytes) : Nat := fld x 0x34 2
def outFmt (x : Bytes) : Bool := bit (fld x 0x36 1) 3
def matrix (x : Bytes) : Nat := field (fld x 0x36 1) 2 1
def toPixels (x : Bytes) : Bool := bit (fld x 0x36 1) 0
def x0 (x : Bytes) : Nat := fld x 0x38 2
def y0 (x : Bytes) : Nat := fld x 0x3A 2
def ow (x : Bytes) : Nat := fld x 0x3C 2
def oh (x : Bytes) : Nat := fld x 0x3E 2
/-- Tiles per line, and tiles of one picture (R290). -/
def tw (x : Bytes) : Nat := ceilDiv (ow x) 128
def perPic (x : Bytes) : Nat := (if toPixels x then oh x / 2 else oh x) * tw x

/-- Fields of a picture record (R276). -/
def pY (r : Bytes) : Nat := fld r 0 8
def pUV (r : Bytes) : Nat := fld r 8 8
def pPitch (r : Bytes) : Nat := fld r 0x10 4
def pWidth (r : Bytes) : Nat := fld r 0x14 2
def pHeight (r : Bytes) : Nat := fld r 0x16 2
def pDepth (r : Bytes) : Nat := fld r 0x18 1
/-- Bytes of a sample, and the value of sample i of a run (R241). -/
def bps (r : Bytes) : Nat := if pDepth r = 10 then 2 else 1
def sampleAt (r b : Bytes) (i : Nat) : Nat := if pDepth r = 10 then fld b (2 * i) 2 / 64 else fld b i 1

def clampTo (hi : Int) (v : Int) : Nat := (min hi (max 0 v)).toNat
/-- Coefficients of MATRIX 1 and 2: c_y, c_rv, c_gu, c_gv, c_bu, then the rows of Y, Cb and Cr (R291). -/
def coefs (m : Nat) : List Int :=
  if m = 1 then [19077, 29372, -3494, -8731, 34610, 2991, 10064, 1016, -1649, -5547, 7196, 7196, -6537, -659]
  else [19077, 26149, -6419, -13320, 33050, 4207, 8260, 1604, -2428, -4768, 7196, 7196, -6026, -1170]
def coef (m k : Nat) : Int := (coefs m).getD k 0
/-- The rounding shift of R291: floor((v + 8,192) / 2^14). -/
def shift (v : Int) : Int := (v + 8192) / 16384

/-- The three values of a pixel (R291, DIR 0). -/
def toRgb (m d : Nat) (y cb cr : Nat) : List Nat :=
  if m = 0 then [y, cb, cr]
  else
    let k : Nat := 2 ^ (d - 8)
    let yy : Int := (y : Int) - (16 * k : Nat)
    let u : Int := (cb : Int) - (128 * k : Nat)
    let v : Int := (cr : Int) - (128 * k : Nat)
    let top : Int := (2 ^ d : Nat) - 1
    [clampTo top (shift (coef m 0 * yy + coef m 1 * v)),
     clampTo top (shift (coef m 0 * yy + coef m 2 * u + coef m 3 * v)),
     clampTo top (shift (coef m 0 * yy + coef m 4 * u))]
/-- One channel of a tensor position. -/
def element (bf : Bool) (d v : Nat) : NumM Bytes := do
  if bf then
    let q ← Num.roundQuot false v (2 ^ d - 1) 0
    let c ← Fmt.conv Fmt.bf16 127 none q
    pure (toLe 2 c)
  else pure (toLe 1 (if d = 8 then v else min ((v + 2) / 4) 255))
/-- The 32 bytes of a tensor position. -/
def position (bf : Bool) (d : Nat) (vs : List Nat) : NumM Bytes := do
  let l ← vs.mapM (element bf d)
  pure (slice l.flatten 0 32)

/-- The pixels of a run of positions, read from the picture (R290). -/
def pixels (v : Via) (r : Bytes) (px py n : Nat) : MM (List (Nat × Nat × Nat)) := do
  let wl := pWidth r - 1
  let y := min py (pHeight r - 1)
  let lo := min px wl
  let hi := min (px + n - 1) wl
  let b := bps r
  let lum ← MM.read v (pY r + y * pPitch r + lo * b) ((hi - lo + 1) * b)
  let chr ← MM.read v (pUV r + y / 2 * pPitch r + lo / 2 * 2 * b) ((hi / 2 - lo / 2 + 1) * 2 * b)
  pure ((List.range n).map fun i =>
    let q := min (px + i) wl
    let c := 2 * (q / 2 - lo / 2)
    (sampleAt r lum (q - lo), sampleAt r chr c, sampleAt r chr (c + 1)))

/-- Positions of tile t of a line. -/
def count (x : Bytes) (t : Nat) : Nat := min 128 (ow x - 128 * t)
def posAddr (x : Bytes) (p h w : Nat) : Nat := ten x + p * tenStride x + (h * lineW x + w) * 32

/-- DIR 0: one line's tile from the picture (R290, R291). -/
def toTensor (v : Via) (x : Bytes) (n : Nat) : MM Marks := do
  let p := n / perPic x
  let h := n % perPic x / tw x
  let t := n % tw x
  let k := count x t
  let r ← MM.read v (pics x + 64 * p) 64
  let ps ← (if pY r = 0 then pure [] else pixels v r (x0 x + 128 * t) (y0 x + h) k : MM _)
  let d := if pDepth r = 10 then 10 else 8
  let work : NumM (List Bytes) := ps.mapM fun q => position (outFmt x) d (toRgb (matrix x) d q.1 q.2.1 q.2.2)
  let (bs, m) := work.run ⟨0, 0, 0⟩
  MM.write v (posAddr x p h (128 * t)) (slice bs.flatten 0 (32 * k))
  pure m

/-- Luma value of a position, and a chroma value of 2 x 2 means (R291, DIR 1). -/
def lumaOf (m : Nat) (c : List Nat) : Nat :=
  if m = 0 then c.getD 0 0
  else clampTo 255 (16 + shift (coef m 5 * c.getD 0 0 + coef m 6 * c.getD 1 0 + coef m 7 * c.getD 2 0))
def chromaOf (m k : Nat) (c : List Nat) : Nat :=
  if m = 0 then c.getD (k + 1) 0
  else clampTo 255 (128 + shift (coef m (8 + 3 * k) * c.getD 0 0 + coef m (9 + 3 * k) * c.getD 1 0 +
    coef m (10 + 3 * k) * c.getD 2 0))
/-- An 8-bit value as the picture stores it (R292). -/
def stored (r : Bytes) (v : Nat) : Bytes := if pDepth r = 10 then toLe 2 (v * 256) else toLe 1 v
/-- Channels 0 to 2 of position i of a run. -/
def channels (b : Bytes) (i : Nat) : List Nat := (List.range 3).map fun k => fld b (32 * i + k) 1
/-- The 2 x 2 means of positions 2i and 2i + 1 of two lines. -/
def means (a b : Bytes) (i : Nat) : List Nat :=
  (List.range 3).map fun k =>
    (fld a (64 * i + k) 1 + fld a (64 * i + 32 + k) 1 + fld b (64 * i + k) 1 + fld b (64 * i + 32 + k) 1 + 2) / 4

/-- DIR 1: two lines' tile into the picture (R290 to R292). -/
def toPicture (v : Via) (x : Bytes) (n : Nat) : MM Marks := do
  let p := n / perPic x
  let h := n % perPic x / tw x
  let t := n % tw x
  let k := count x t
  let r ← MM.read v (pics x + 64 * p) 64
  if pY r = 0 then pure ⟨0, 0, 0⟩
  else
    let a ← MM.read v (posAddr x p (2 * h) (128 * t)) (32 * k)
    let b ← MM.read v (posAddr x p (2 * h + 1) (128 * t)) (32 * k)
    let px := x0 x + 128 * t
    let py := y0 x + 2 * h
    let m := matrix x
    -- positions inside the picture
    let kw := min k (pWidth r - px)
    let line := fun (src : Bytes) (y : Nat) => (if y < pHeight r ∧ 0 < kw then
        MM.write v (pY r + y * pPitch r + px * bps r) ((List.range kw).flatMap fun i => stored r (lumaOf m (channels src i)))
      else pure () : MM Unit)
    line a py
    line b (py + 1)
    if py < pHeight r ∧ 0 < kw then
      MM.write v (pUV r + py / 2 * pPitch r + px / 2 * 2 * bps r) ((List.range (ceilDiv kw 2)).flatMap fun i =>
        stored r (chromaOf m 0 (means a b i)) ++ stored r (chromaOf m 1 (means a b i)))
    else pure ()
    pure ⟨0, 0, 0⟩

end Format

/-- A SAMPLE or FORMAT execution: empty (R120), or its work at once. -/
def unitWork (j : Job) (v : Via) (d n : Nat) : MM Marks :=
  let x := j.descAt d
  if Desc.station x = sample then
    (if Sample.len x = 0 then pure ⟨0, 0, 0⟩ else Sample.act v x (JDesc.keySeed j.desc) j.epoch n)
  else if Format.perPic x = 0 then pure ⟨0, 0, 0⟩
  else if Format.toPixels x then Format.toPicture v x n else Format.toTensor v x n
/-- Grant execution n of SAMPLE or FORMAT. -/
def startUnit (s : State) (j : Job) (d n : Nat) : State :=
  match run s (budget s j) (unitWork j (viaOf s j (stationOf j d) d) d n) with
  | (.ok m, s) => grant (spend (tally s j.id none d n d m []) j m.energy) j.id d n .plain
  | (.error e, s) => unitFails s j d n e

end Hub
end Machine
end Sys2Proof
end

