-- ==== Sys2Proof/Machine/Codec.lean ====
section
/-! DEFINITION. Codec sessions: records, capacity and binding, state areas, output rings
(spec/11_video_encode.md R236 to R246; spec/12_decode_and_ingest.md R269, R273). -/

namespace Sys2Proof
namespace Machine
namespace Codecs

open Bits Ops JobOps

/-! ### Load and binding (R236, R237, R269) -/

def up (n k : Nat) : Nat := ceilDiv n k * k
/-- Load units of a session. -/
def units (w h num den : Nat) : Nat := ceilDiv (16 * up w 16 * up h 16 * num) (den * 125337600)
/-- The lowest engine in service whose free units and free session count admit a session of u units. -/
def engineFor (l : List Session) (n out u : Nat) : Option Nat :=
  (List.range n).find? fun e =>
    let mine := l.filter (·.engine == e)
    !bit out e && decide ((mine.map (·.units)).sum + u ≤ 256) && decide (mine.length < 64)
def sessions (s : State) (isEnc : Bool) : List Session := if isEnc then s.codec.enc else s.codec.dec
def putSessions (s : State) (isEnc : Bool) (l : List Session) : State :=
  s.setCodec (if isEnc then { s.codec with enc := l } else { s.codec with dec := l })
def find? (s : State) (isEnc : Bool) (addr fn : Nat) : Option Session :=
  (sessions s isEnc).find? fun x => x.addr == addr && x.fn == fn
/-- What comes of naming a session: bound elsewhere, no engine, or bound and busy. -/
inductive Bound where
  | other
  | full
  | ok (s : State) (engine : Nat)
/-- Bind the session at addr for job j and queue q, and mark it busy. -/
def bind (s : State) (isEnc : Bool) (j : Job) (addr q u : Nat) : Bound :=
  let l := sessions s isEnc
  match find? s isEnc addr j.fn with
  | some x =>
    if (x.job == j.id && x.queue == q) = true then
      .ok (putSessions s isEnc (l.map fun y => if (y.addr == addr && y.fn == j.fn) = true then { y with busy := true } else y))
        x.engine
    else .other
  | none => match engineFor l (if isEnc then 8 else 16) (if isEnc then s.bu.encOut else s.bu.decOut) u with
    | none => .full
    | some e => .ok (putSessions s isEnc (l ++ [⟨addr, j.fn, e, u, true, j.id, q⟩])) e
/-- The session is no longer busy; with `close` it is unbound. -/
def release (s : State) (isEnc : Bool) (addr fn : Nat) (close : Bool) : State :=
  let l := sessions s isEnc
  putSessions s isEnc (if close then l.filter fun x => !(x.addr == addr && x.fn == fn)
    else l.map fun x => if (x.addr == addr && x.fn == fn) = true then { x with busy := false } else x)
/-- SOURCE of an event of the session's engine (spec/18_reliability_and_recovery.md R433). -/
def sourceOf (s : State) (isEnc : Bool) (addr fn : Nat) : Nat :=
  match find? s isEnc addr fn with
  | some x => (if isEnc then 0x2100 else 0x2110) + x.engine
  | none => if isEnc then 0x2013 else 0x2014

/-! ### State areas (R244, R273; log 31) -/

def microcode (s : State) : Word := (Bring.versions s.bu).2.2.1
/-- The n bytes of a state area that holds a: never all zero, since a used area is told from a zeroed one. -/
def image {α : Type} (ver : Word) (a : α) (n : Nat) : Bytes := 1#8 :: slice (Config.stateImage ver a) 0 (n - 1)
/-- Memory address of a state area. -/
def keyOf (v : Via) (a : Nat) : Nat := (xlat v.host v.fn a true).getD 0
/-- What a state area with this head holds: its initial state when its first 4,096 bytes are zero; what this module
wrote, wherever a copy of that lies; else what the microcode makes of the bytes. -/
def areaOf {α : Type} [Inhabited α] (ver : Word) (known : List (Nat × α)) (init : α) (head : Bytes) : α :=
  if allZero head then init
  else match known.find? fun a => image ver a 4096 == head with
    | some a => a.2
    | none => Config.stateOf ver head
def encAreaOf (s : State) (head : Bytes) : EncArea :=
  areaOf (microcode s) s.codec.encAreas ⟨false, 0, 0, [], []⟩ head
def decInit : DecArea := ⟨false, 0, [], [], []⟩
def decAreaOf (s : State) (head : Bytes) : DecArea := areaOf (microcode s) s.codec.decAreas decInit head
/-- The engine of a session. -/
def engineOf (s : State) (isEnc : Bool) (addr fn : Nat) : Nat :=
  match find? s isEnc addr fn with
  | some x => x.engine
  | none => 0

/-! ### Output rings (R246) -/

structure OutRing where
  addr  : Nat
  base  : Nat
  size  : Nat
  write : Nat
  read  : Nat

def readRing (v : Via) (a : Nat) : MM OutRing := do
  let b ← MM.read v a 64
  pure ⟨a, fld b 0 8, fld b 8 4, fld b 0xC 4, fld b 0x10 4⟩
/-- n bytes fit without reaching READ: a ring is never filled to its last byte (log 33). -/
def hasRoom (r : OutRing) (n : Nat) : Bool :=
  decide (r.write < r.size) && decide (r.read < r.size) && decide ((r.write + r.size - r.read) % r.size + n < r.size)
/-- Bytes at WRITE, wrapping, then WRITE itself. -/
def putRing (v : Via) (r : OutRing) (b : Bytes) : MM Unit := do
  let n := min b.length (r.size - r.write)
  MM.write v (r.base + r.write) (b.take n)
  if n < b.length then MM.write v r.base (b.drop n) else pure ()
  MM.put v (r.addr + 0xC) 4 ((r.write + b.length) % r.size)

/-- A started execution of a codec station cannot go on: it is discarded, its session is free, its job ends. -/
def fails (s : State) (j : Job) (isEnc : Bool) (addr d n : Nat) (e : MFail) : State :=
  Hub.workFails (release (Hub.dropExec s j.id d n) isEnc addr j.fn false) j d e

/-- Job event e is incremented by 1 (spec/02_streams_and_stations.md R44). -/
def bump (s : State) (j : Job) (e : Nat) : State :=
  let v := via s j 0x10000
  let a := eventAddr j e
  let act : MM Unit := do
    let n ← MM.get v a 8
    MM.put v a 8 (n + 1)
  match run s (budget s j) act with
  | (.ok _, s) => refreshReady s
  | (.error (.bad l), s) => lose s j.id 0x0302 Check.none32 0xFFFF srcSched l 0x10000
  | (.error (.refused _), s) => s

end Codecs
end Machine
end Sys2Proof
end

