-- ==== Sys2Proof/Machine/Levels.lean ====
section
/-! DEFINITION. Limits that the levels of the AV1, HEVC and AVC standards set (spec/11_video_encode.md R239, R263, which
name the standards and repeat none of their numbers): PRESUMED, from the standards (log 59). -/

namespace Sys2Proof
namespace Machine
namespace Levels

open Bits

/-- Limits of a level: luma samples of a picture, luma samples per second, kilobits per second, slice segments of a
picture, squares of the largest width and height. -/
structure Limit where
  size   : Nat
  rate   : Nat
  kbps   : Nat
  slices : Nat
  width  : Nat
  height : Nat

def pick (l : List (Nat × Limit)) (k : Nat) : Option Limit := (l.find? (·.1 == k)).map (·.2)
/-- AV1, by seq_level_idx: MaxPicSize, MaxDisplayRate, MainMbps, MaxHSize, MaxVSize. -/
def av1 : List (Nat × Limit) :=
  [(0, ⟨147456, 4423680, 1500, 64, 2048 ^ 2, 1152 ^ 2⟩), (1, ⟨278784, 8363520, 3000, 64, 2816 ^ 2, 1584 ^ 2⟩),
   (4, ⟨665856, 19975680, 6000, 64, 4352 ^ 2, 2448 ^ 2⟩), (5, ⟨1065024, 31950720, 10000, 64, 5504 ^ 2, 3096 ^ 2⟩),
   (8, ⟨2359296, 70778880, 12000, 64, 6144 ^ 2, 3456 ^ 2⟩), (9, ⟨2359296, 141557760, 20000, 64, 6144 ^ 2, 3456 ^ 2⟩),
   (12, ⟨8912896, 267386880, 30000, 64, 8192 ^ 2, 4352 ^ 2⟩), (13, ⟨8912896, 534773760, 40000, 64, 8192 ^ 2, 4352 ^ 2⟩)] ++
  [(14, ⟨8912896, 1069547520, 60000, 64, 8192 ^ 2, 4352 ^ 2⟩), (15, ⟨8912896, 1069547520, 60000, 64, 8192 ^ 2, 4352 ^ 2⟩),
   (16, ⟨35651584, 1069547520, 60000, 64, 16384 ^ 2, 8704 ^ 2⟩), (17, ⟨35651584, 2139095040, 100000, 64, 16384 ^ 2, 8704 ^ 2⟩)]
/-- A limit whose width and height may each reach the root of 8 times the size. -/
def square (size rate kbps slices : Nat) : Limit := ⟨size, rate, kbps, slices, 8 * size, 8 * size⟩
/-- HEVC, by general_level_idc: MaxLumaPs, MaxLumaSr, MaxBR of the Main tier, MaxSliceSegmentsPerPicture. -/
def hevc : List (Nat × Limit) :=
  [(30, square 36864 552960 128 16), (60, square 122880 3686400 1500 16), (63, square 245760 7372800 3000 20),
   (90, square 552960 16588800 6000 30), (93, square 983040 33177600 10000 40), (120, square 2228224 66846720 12000 75)] ++
  [(123, square 2228224 133693440 20000 75), (150, square 8912896 267386880 25000 200),
   (153, square 8912896 534773760 40000 200), (156, square 8912896 1069547520 60000 200),
   (180, square 35651584 1069547520 60000 600), (183, square 35651584 2139095040 120000 600)]
/-- AVC, in macroblocks of 256 samples: MaxFS, MaxMBPS, MaxBR in units of 1,250 bits for High. -/
def mbs (fs mbps br : Nat) : Limit :=
  ⟨256 * fs, 256 * mbps, 1250 * br / 1000, 0, 256 * 8 * fs, 256 * 8 * fs⟩
def avc : List (Nat × Limit) :=
  [(10, mbs 99 1485 64), (11, mbs 396 3000 192), (12, mbs 396 6000 384), (13, mbs 396 11880 768),
   (20, mbs 396 11880 2000), (21, mbs 792 19800 4000), (22, mbs 1620 20250 4000), (30, mbs 1620 40500 10000)] ++
  [(31, mbs 3600 108000 14000), (32, mbs 5120 216000 20000), (40, mbs 8192 245760 20000), (41, mbs 8192 245760 50000),
   (42, mbs 8704 522240 50000), (50, mbs 22080 589824 135000), (51, mbs 36864 983040 240000),
   (52, mbs 36864 2073600 240000)] ++
  [(60, mbs 139264 4177920 240000), (61, mbs 139264 8355840 480000), (62, mbs 139264 16711680 800000)]
def limit (codec level : Nat) : Option Limit :=
  if codec = 1 then pick av1 level else if codec = 2 then pick hevc level else pick avc level
/-- Width or height of the coded picture: a multiple of the smallest coding block in HEVC (8) and of a macroblock in AVC. -/
def coded (codec n : Nat) : Nat :=
  if codec = 1 then n else if codec = 2 then ceilDiv n 8 * 8 else ceilDiv n 16 * 16
/-- A level of the codec exists and allows the picture size, luma sample rate and bit rate (R239). -/
def allows (codec level w h num den bps : Nat) : Bool :=
  match limit codec level with
  | none => false
  | some l =>
    let w := coded codec w
    let h := coded codec h
    decide (w * h ≤ l.size) && decide (w * w ≤ l.width) && decide (h * h ≤ l.height) && decide (w * h * num ≤ l.rate * den) &&
      decide (bps ≤ 1000 * l.kbps)
/-- Slice segments that an HEVC level allows a picture (R263). -/
def slices (level : Nat) : Nat :=
  match pick hevc level with
  | some l => l.slices
  | none => 0

end Levels
end Machine
end Sys2Proof
end

