-- ==== Sys2Proof/Machine/Motion.lean ====
section
/-! DEFINITION. Motion search of the encode engines (spec/11_video_encode.md R249 to R251). A vector's unit is a quarter of
a luma sample, or an eighth in an AV1 session with HPMV (log 60). -/

namespace Sys2Proof
namespace Machine
namespace Motion

open Bits

/-- What the search of a picture's blocks reads. -/
structure Ctx where
  codec  : Nat
  depth  : Nat
  /-- vector units per sample: 4, or 8 with HPMV -/
  unit   : Nat
  ncand  : Nat
  /-- 16 x 16 blocks across and down -/
  bw     : Nat
  bh     : Nat
  src    : Planes
  refs   : List EncRef
  field  : List (Option (Int × Int))
  gmv    : Int × Int
  /-- reference and vector of each block decided so far -/
  motion : List (Option (Nat × Int × Int))

/-- Luma sample at a position, the edge sample where it lies outside: all three codecs extend a picture so (PRESUMED, log
60). A P010 sample is bits [15:6] of its word (R241). -/
def sample (p : Planes) (x y : Int) : Nat :=
  let cx := (max 0 (min ((p.w : Int) - 1) x)).toNat
  let cy := (max 0 (min ((p.h : Int) - 1) y)).toNat
  let v := fld p.luma ((cy * p.w + cx) * p.n) p.n
  if p.n = 2 then v / 64 else v

/-! ### Candidates (R249) -/

/-- Raster index of the block at (x, y), where it lies in the picture. -/
def blockAt (c : Ctx) (x y : Int) : Option Nat :=
  if 0 ≤ x ∧ x < (c.bw : Int) ∧ 0 ≤ y ∧ y < (c.bh : Int) then some (y.toNat * c.bw + x.toNat) else none
/-- Entry of a per-block list at (x, y). -/
def entryAt {α : Type} (c : Ctx) (l : List (Option α)) (x y : Int) : Option α :=
  (blockAt c x y).bind fun i => (l.getD i none)
/-- The vectors of orders 6 to 9: final reference-0 vectors of the left, above, above-right and above-left blocks. -/
def near (c : Ctx) (x y : Int) : List (Int × Int) :=
  [(x - 1, y), (x, y - 1), (x + 1, y - 1), (x - 1, y - 1)].filterMap fun (i, j) =>
    (entryAt c c.motion i j).bind fun (r, v) => if r = 0 then some v else none
/-- p of R250. -/
def predictor (c : Ctx) (x y : Int) : Int × Int := (near c x y).headD (0, 0)
/-- The candidate list of the block at (x, y), cut to NCAND. -/
def candidates (c : Ctx) (x y : Int) : List (Int × Int) :=
  let k : Int := (c.unit / 4 : Nat)
  let quarter := fun (v : Int × Int) => (v.1 * k, v.2 * k)
  let own := [(x, y), (x - 1, y), (x, y - 1), (x + 1, y), (x, y + 1)].filterMap fun (i, j) => entryAt c c.field i j
  let before := match c.refs with
    | r :: _ => [(x, y), (x - 1, y), (x + 1, y), (x, y - 1), (x, y + 1)].filterMap fun (i, j) =>
        (entryAt c r.motion i j).map (·.2)
    | [] => []
  (own.map quarter ++ near c x y ++ before ++ [quarter c.gmv, (0, 0)]).take c.ncand
/-- A vector as an integer position, clipped so that its window stays in the vector range. -/
def whole (c : Ctx) (v : Int × Int) : Int × Int :=
  let u : Int := c.unit
  let f := fun (lo hi w : Int) => max lo (min hi ((w + u / 2) / u))
  (f (-2040) 2039 v.1, f (-504) 503 v.2)

/-! ### Cost (R250) -/

/-- Length in bits of the signed exp-Golomb code of v. -/
def codeLength (v : Int) : Nat :=
  let k := if 0 < v then 2 * v.natAbs - 1 else 2 * v.natAbs
  2 * Nat.log2 (k + 1) + 1
/-- lambda of a block QP. -/
def lambda (q : Nat) : Nat := [36, 40, 45, 51, 57, 64].getD (q % 6) 0 * 2 ^ (q / 6) / 16
/-- lambda x b of a vector. -/
def rate (q : Nat) (p v : Int × Int) : Nat := lambda q * (codeLength (v.1 - p.1) + codeLength (v.2 - p.2))
/-- A vector lies in the vector range. -/
def inRange (c : Ctx) (v : Int × Int) : Bool :=
  let u : Int := c.unit
  decide (-2048 * u ≤ v.1) && decide (v.1 ≤ 2047 * u + 3 * u / 4) && decide (-512 * u ≤ v.2) && decide (v.2 ≤ 511 * u + 3 * u / 4)
/-- Positions of a block's samples. -/
def spots : List (Nat × Nat) := (List.range 16).flatMap fun y => (List.range 16).map fun x => (x, y)
/-- SAD of block (bx, by) of the source against the samples at integer displacement v. -/
def sad (c : Ctx) (r : Planes) (bx by_ : Nat) (v : Int × Int) : Nat :=
  (spots.map fun (x, y) =>
    let px : Int := (16 * bx + x : Nat)
    let py : Int := (16 * by_ + y : Nat)
    ((sample c.src px py : Int) - sample r (px + v.1) (py + v.2)).natAbs).sum
/-- Predicted luma sample of position (px, py) under vector v. -/
def predict (c : Ctx) (r : Planes) (px py : Int) (v : Int × Int) : Nat :=
  let u : Int := c.unit
  let x := px * u + v.1
  let y := py * u + v.2
  let fx := (x % u).toNat * (8 / c.unit)
  let fy := (y % u).toNat * (8 / c.unit)
  if fx = 0 ∧ fy = 0 then sample r (x / u) (y / u)
  else Config.interpolated c.codec c.depth ((List.range 8).flatMap fun j => (List.range 8).map fun i =>
    sample r (x / u + i - 3) (y / u + j - 3)) fx fy
/-- 4-point Hadamard transform. -/
def hadamard : List Int → List Int
  | [a, b, c, d] => [a + b + c + d, a + b - c - d, a - b - c + d, a - b + c - d]
  | l => l
def transpose4 (m : List (List Int)) : List (List Int) := (List.range 4).map fun i => m.map fun r => r.getD i 0
/-- Sum of the Hadamard magnitudes of a 4 x 4 block of differences, by row. -/
def hadamardSum (m : List (List Int)) : Nat :=
  ((transpose4 (m.map hadamard)).map fun r => ((hadamard r).map Int.natAbs).sum).sum
/-- SATD of block (bx, by) under vector v: the 4 x 4 Hadamard magnitudes, unscaled (PRESUMED, log 60). -/
def satd (c : Ctx) (r : Planes) (bx by_ : Nat) (v : Int × Int) : Nat :=
  ((List.range 4).flatMap fun j => (List.range 4).map fun i =>
    hadamardSum ((List.range 4).map fun y => (List.range 4).map fun x =>
      let px : Int := (16 * bx + 4 * i + x : Nat)
      let py : Int := (16 * by_ + 4 * j + y : Nat)
      (sample c.src px py : Int) - predict c r px py v)).sum

/-! ### Search (R250, R251) -/

/-- The first of the vectors of lowest cost. -/
def lowest (cost : Int × Int → Nat) : List (Int × Int) → Option (Nat × Int × Int)
  | [] => none
  | v :: l => some (l.foldl (fun m w => let k := cost w; if k < m.1 then (k, w) else m) (cost v, v))
/-- Integer search: every candidate's window of 17 x 17 positions, in raster order. -/
def integer (c : Ctx) (r : Planes) (bx by_ q : Nat) (cands : List (Int × Int)) : Option (Nat × Int × Int) :=
  let u : Int := c.unit
  let p := predictor c bx by_
  lowest (fun v => sad c r bx by_ v + rate q p (v.1 * u, v.2 * u)) (cands.flatMap fun k =>
    (List.range 17).flatMap fun j => (List.range 17).map fun i => (k.1 + i - 8, k.2 + j - 8))
/-- One stage of sub-sample refinement: the position itself, then the eight around it in raster order. -/
def stage (c : Ctx) (r : Planes) (bx by_ q : Nat) (step : Int) (v : Int × Int) : Nat × Int × Int :=
  let p := predictor c bx by_
  let around := [(-1, -1), (0, -1), (1, -1), (-1, 0), (1, 0), (-1, 1), (0, 1), (1, 1)].map fun (i, j) =>
    (v.1 + step * i, v.2 + step * j)
  let cost := fun w => satd c r bx by_ w + rate q p w
  (lowest cost (v :: around.filter (inRange c))).getD (cost v, v)
/-- The best vector of candidates in one reference, with its final cost. -/
def refine (c : Ctx) (r : Planes) (bx by_ q : Nat) (cands : List (Int × Int)) : Option (Nat × Int × Int) :=
  let u : Int := c.unit
  (integer c r bx by_ q (cands.map (whole c)).eraseDups).map fun (_, v) =>
    let h := stage c r bx by_ q (u / 2) (v.1 * u, v.2 * u)
    let f := stage c r bx by_ q (u / 4) h.2
    if c.unit = 8 then stage c r bx by_ q 1 f.2 else f
/-- The reference and vector that the block at (bx, by) takes: reference 0 by its candidates, reference k by the best
reference-0 vector times k + 1; the lowest final cost, a tie to the lower reference. -/
def search (c : Ctx) (bx by_ q : Nat) : Option (Nat × Int × Int) :=
  match c.refs with
  | [] => none
  | r0 :: rest => (refine c r0.pic bx by_ q (candidates c bx by_)).map fun (k0, v0) =>
    let others := rest.zipIdx.filterMap fun (r, i) =>
      let m : Int := (i + 2 : Nat)
      (refine c r.pic bx by_ q [(v0.1 * m, v0.2 * m)]).map fun (k, v) => (k, i + 1, v)
    (others.foldl (fun (m : Nat × Nat × Int × Int) e => if e.1 < m.1 then e else m) (k0, 0, v0)).2

end Motion
end Machine
end Sys2Proof
end

