-- ==== Sys2Proof/Machine/Encode.lean ====
section
/-! DEFINITION. Video encode: session and picture records, regions of interest, vector fields, rate control per block row,
the coding of rows, sub-frame emission (spec/11_video_encode.md R239 to R265). The bits that a row is coded as, which the
standards and the codec microcode fix, are a function with no body of what R247 lets them depend on (log 31). -/

namespace Sys2Proof
namespace Machine
namespace Enc

open Bits Ops JobOps Codecs

/-! ### The session record (R243) -/

def codec (b : Bytes) : Nat := fld b 0 1
def profile (b : Bytes) : Nat := fld b 1 1
def level (b : Bytes) : Nat := fld b 2 1
def depth (b : Bytes) : Nat := fld b 3 1
def width (b : Bytes) : Nat := fld b 4 2
def height (b : Bytes) : Nat := fld b 6 2
def fpsNum (b : Bytes) : Nat := fld b 8 4
def fpsDen (b : Bytes) : Nat := fld b 0xC 4
def rate (b : Bytes) : Nat := fld b 0x10 4
def constRate (b : Bytes) : Bool := fld b 0x14 1 == 1
def qpInit (b : Bytes) : Nat := fld b 0x15 1
def qpMin (b : Bytes) : Nat := fld b 0x16 1
def qpMax (b : Bytes) : Nat := fld b 0x17 1
def wi (b : Bytes) : Nat := fld b 0x18 1
def kspan (b : Bytes) : Nat := fld b 0x19 1
def ncand (b : Bytes) : Nat := fld b 0x1A 1
def nref (b : Bytes) : Nat := fld b 0x1B 1
def hpmv (b : Bytes) : Bool := codec b == 1 && bit (fld b 0x1F 1) 0
def intraPeriod (b : Bytes) : Nat := fld b 0x1C 2
def sliceRows (b : Bytes) : Nat := fld b 0x1E 1
def state (b : Bytes) : Nat := fld b 0x20 8
def stateBytes (b : Bytes) : Nat := fld b 0x28 4
def out (b : Bytes) : Nat := fld b 0x30 8
/-- Block row height, and block rows of a picture (R240). -/
def br (b : Bytes) : Nat := if codec b = 3 then 16 else 64
def nrows (b : Bytes) : Nat := ceilDiv (height b) (br b)
/-- 16 x 16 blocks per line and per column. -/
def bw (b : Bytes) : Nat := ceilDiv (width b) 16
def bh (b : Bytes) : Nat := ceilDiv (height b) 16
def bps (b : Bytes) : Nat := if depth b = 10 then 2 else 1
/-- Bytes the state area needs (R244). -/
def areaBytes (b : Bytes) : Nat :=
  4096 + (nref b + 1) * up (up (width b) 64 * up (height b) 64 * 3 / 2 * bps b) 4096

/-- Profile, level range and depth of a codec (R239). -/
def profileOk (b : Bytes) : Bool :=
  let d := depth b
  let l := level b
  if codec b = 1 then profile b == 0 && (d == 8 || d == 10) && decide (l ≤ 17)
  else if codec b = 2 then ((profile b == 1 && d == 8) || (profile b == 2 && (d == 8 || d == 10))) &&
    decide (30 ≤ l) && decide (l ≤ 183)
  else codec b == 3 && profile b == 100 && d == 8 && decide (10 ≤ l) && decide (l ≤ 62)
/-- Slices of a picture (R263). -/
def slices (b : Bytes) : Nat := if sliceRows b = 0 then 1 else ceilDiv (nrows b) (sliceRows b)
/-- A session record that R239, R243, R244 and R263 admit. -/
def sessionOk (b : Bytes) : Bool :=
  profileOk b && width b % 2 == 0 && height b % 2 == 0 && decide (64 ≤ width b) && decide (64 ≤ height b) &&
  decide (width b ≤ 7680) && decide (height b ≤ 4320) &&
  decide (1 ≤ fpsNum b) && decide (fpsNum b ≤ 240000) && decide (1 ≤ fpsDen b) && decide (fpsDen b ≤ 1001000) &&
  decide (fpsNum b ≤ 240 * fpsDen b) && decide (fld b 0x14 1 ≤ 1) && (constRate b || rate b == 0) &&
  decide (qpInit b ≤ 51) && decide (qpMin b ≤ qpInit b) && decide (qpInit b ≤ qpMax b) && decide (qpMax b ≤ 51) &&
  decide (16 ≤ wi b) && decide (1 ≤ kspan b) && decide (kspan b ≤ 64) && decide (1 ≤ ncand b) && decide (ncand b ≤ 16) &&
  decide (1 ≤ nref b) && decide (nref b ≤ 4) && decide (fld b 0x1F 1 ≤ 1) && state b % 4096 == 0 &&
  decide (areaBytes b ≤ stateBytes b) && fld b 0x2C 4 == 0 && out b % 64 == 0 && fld b 0x38 8 == 0 &&
  Levels.allows (codec b) (level b) (width b) (height b) (fpsNum b) (fpsDen b) (rate b) &&
  (codec b != 1 || decide (slices b ≤ 64)) && (codec b != 2 || decide (slices b ≤ Levels.slices (level b)))

/-! ### The picture record (R245) -/

def pY (p : Bytes) : Nat := fld p 0 8
def pUV (p : Bytes) : Nat := fld p 8 8
def pPitch (p : Bytes) : Nat := fld p 0x10 4
def forceKey (p : Bytes) : Bool := bit (fld p 0x14 4) 0
def endSet (p : Bytes) : Bool := bit (fld p 0x14 4) 1
def subframeIn (p : Bytes) : Bool := bit (fld p 0x14 4) 2
def topiary (p : Bytes) : Nat := fld p 0x18 8
def tmPitch (p : Bytes) : Nat := fld p 0x20 4
def roiCount (p : Bytes) : Nat := fld p 0x24 1
def roi (p : Bytes) : Nat := fld p 0x28 8
def fieldAddr (p : Bytes) : Nat := fld p 0x30 8
def fieldPitch (p : Bytes) : Nat := fld p 0x38 4
/-- The global vector, in quarter samples. -/
def gmv (p : Bytes) : Int × Int := (sext 16 (fld p 0x3C 2), sext 16 (fld p 0x3E 2))
def inEvt (p : Bytes) : Nat := fld p 0x40 2
def outEvt (p : Bytes) : Nat := fld p 0x42 2
def inBase (p : Bytes) : Nat := fld p 0x44 4
def pictureOk (p : Bytes) : Bool :=
  decide (fld p 0x14 4 < 8) && decide (roiCount p ≤ 64) && fld p 0x25 3 == 0 && (roiCount p != 0 || roi p == 0) &&
  decide (inEvt p < 4096) && (decide (outEvt p < 4096) || outEvt p == 0xFFFF) && allZero (slice p 0x5A 38)

/-! ### Regions of interest (R257, R260, R261) -/

/-- A rectangle: X0, Y0, X1, Y1, OFFSET, and whether its ranges hold. -/
def rect (b r : Bytes) : Nat × Nat × Nat × Nat × Int × Bool :=
  let x0 := fld r 0 2
  let y0 := fld r 2 2
  let x1 := fld r 4 2
  let y1 := fld r 6 2
  let o := sext 8 (fld r 8 1)
  (x0, y0, x1, y1, o, decide (x0 < x1) && decide (x1 ≤ bw b) && decide (y0 < y1) && decide (y1 ≤ bh b) &&
    decide (-24 ≤ o) && decide (o ≤ 24))
/-- The rectangle offset of a block. -/
def rectOffset (rs : List (Nat × Nat × Nat × Nat × Int × Bool)) (x y : Nat) : Int :=
  match rs.find? fun (x0, y0, x1, y1, _) => decide (x0 ≤ x) && decide (x < x1) && decide (y0 ≤ y) && decide (y < y1) with
  | some (_, _, _, _, o, _) => o
  | none => 0
def clamp (lo hi v : Int) : Int := min hi (max lo v)
/-- The offset of every block in raster order, the map's clamped before the rectangle's is added (R257, R261); none when a
rectangle breaks its ranges. -/
def offsets (v : Via) (b p : Bytes) : MM (Option (List Int)) := do
  let rb ← MM.read v (roi p) (16 * roiCount p)
  let rs := (List.range (roiCount p)).map fun i => rect b (slice rb (16 * i) 16)
  let map ← (List.range (bh b)).mapM fun y =>
    (if topiary p = 0 then pure (List.replicate (bw b) 128#8) else MM.read v (topiary p + y * tmPitch p) (bw b) : MM Bytes)
  if rs.all fun (_, _, _, _, _, ok) => ok then
    pure (some ((List.range (bh b)).flatMap fun y => (List.range (bw b)).map fun x =>
      clamp (-24) 24 (clamp (-24) 24 (((fld (map.getD y []) x 1 : Nat) : Int) - 128) + rectOffset rs x y)))
  else pure none

/-! ### The vector field (R252) -/

/-- A component rounded to the nearest integer (spec/04_number_formats.md R95); an infinity lies beyond every vector
range. -/
def nearest : Val → Option Int
  | .nan => none
  | .inf n => some (if n then -(2 ^ 40) else 2 ^ 40)
  | .fin n m e =>
    let k : Int := if 0 ≤ e then m * 2 ^ e.toNat
      else
        let d := 2 ^ (-e).toNat
        let q := m / d
        let r := m % d
        if 2 * r < d ∨ (2 * r = d ∧ q % 2 = 0) then q else q + 1
    some (if n then -k else k)
/-- The entry of every block in raster order, none where it is unavailable; empty without a field. -/
def field (v : Via) (b p : Bytes) : MM (List (Option (Int × Int))) := do
  if fieldAddr p = 0 then pure []
  else
    let l ← (List.range (bh b)).mapM fun y => MM.read v (fieldAddr p + y * fieldPitch p) (8 * bw b)
    pure (l.flatMap fun r => (List.range (bw b)).map fun x => do
      let i ← nearest (Num.ofBits (fld r (8 * x) 4))
      let j ← nearest (Num.ofBits (fld r (8 * x + 4) 4))
      pure (i, j))

/-! ### Rate control (R253 to R259) -/

/-- Rf, and the nominal budget of a picture type (R253). -/
def rf (b : Bytes) : Nat := rate b * fpsDen b / fpsNum b
def nominal (b : Bytes) (key : Bool) : Nat := if key then rf b * wi b / 16 else rf b
/-- The picture budget T. -/
def budgetOf (b : Bytes) (key : Bool) (carry : Int) : Nat :=
  let tn := nominal b key
  (clamp (tn / 4 : Nat) (2 * tn : Nat) ((tn : Int) - carry / (kspan b : Int))).toNat
/-- C after a picture of a bits. -/
def carryAfter (b : Bytes) (carry : Int) (a : Nat) : Int :=
  clamp (-64 * (rf b : Int)) (64 * (rf b : Int)) (carry + a - rf b)
/-- The change of base QP for the quotient rho (R254). -/
def delta (rho : Int) : Int :=
  if 7732 ≤ rho then 6 else if 6888 ≤ rho then 5 else if 6137 ≤ rho then 4 else if 5467 ≤ rho then 3
  else if 4870 ≤ rho then 2 else if 4339 ≤ rho then 1 else if 3866 ≤ rho then 0 else if 3444 ≤ rho then -1
  else if 3068 ≤ rho then -2 else if 2733 ≤ rho then -3 else if 2435 ≤ rho then -4 else if 2169 ≤ rho then -5 else -6
/-- floor(n / t); no value is stated for a budget of 0. -/
def ratio (n : Int) (t : Nat) : Int := if t = 0 then Config.rateOverZero n else n / (t : Int)
/-- The base QP of a picture (R254). -/
def baseQp (b : Bytes) (last : Option (Int × Nat × Nat × List Nat)) : Int :=
  match last with
  | none => qpInit b
  | some (q, t, a, _) => clamp (qpMin b) (qpMax b) (q + delta (ratio (4096 * a : Nat) t))
/-- Weights of the rows (R255). -/
def weights (n : Nat) (last : Option (Int × Nat × Nat × List Nat)) : List Nat :=
  (List.range n).map fun r => match last with
    | none => 1
    | some (_, _, _, a) => max 1 (a.getD r 0)
/-- Row budgets (R255). -/
def rowBudgets (t : Nat) (ws : List Nat) : List Nat :=
  let w := ws.sum
  let lead := ws.dropLast.map fun x => t * x / w
  lead ++ [t - lead.sum]
/-- Rate-control QP of the next row (R256, R259). -/
def rowQp (b : Bytes) (w : EncWork) : Int :=
  let r := w.rows.length
  if !constRate b then qpInit b
  else if w.spent.isSome then qpMax b
  else match w.rows.getLast? with
    | none => w.q0
    | some (qp, _) =>
      let ws := weights (nrows b) (Sparse.get? w.area.last (if w.key then 0 else 1))
      let a := (w.rows.map (·.2)).sum
      let e : Int := (a : Int) - ((rowBudgets w.budget ws).take r).sum
      let d := clamp (-6) 6 (ratio (16 * e) w.budget)
      clamp (max (qpMin b : Int) (qp - 2)) (min (qpMax b : Int) (qp + 2)) (w.q0 + d)
/-- Rows of 16 x 16 blocks that block row r covers. -/
def blockRows (b : Bytes) (r : Nat) : List Nat :=
  (List.range (br b / 16)).filterMap fun i => let y := r * (br b / 16) + i; if y < bh b then some y else none
/-- Floor of the mean offset of a superblock's blocks (R261). -/
def meanOffset (b : Bytes) (offs : List Int) (r sx : Nat) : Int :=
  let l := (blockRows b r).flatMap fun y => ((List.range 4).filter fun i => 4 * sx + i < bw b).map fun i =>
    offs.getD (y * bw b + 4 * sx + i) 0
  if l.isEmpty then 0 else l.sum / (l.length : Int)
/-- Block QPs of row r at its QP (R257, R259, R261): by superblock in AV1, else by 16 x 16 block. -/
def blockQps (b : Bytes) (w : EncWork) (r : Nat) (q : Int) : List Int :=
  let lim := fun (m : Int) => clamp (qpMin b) (qpMax b) (q + m)
  let offs := if w.spent.isSome then [] else w.offs
  if codec b = 1 then (List.range (ceilDiv (bw b) 4)).map fun sx => lim (meanOffset b offs r sx)
  else (blockRows b r).flatMap fun y => (List.range (bw b)).map fun x => lim (offs.getD (y * bw b + x) 0)
/-- The QP of block (x, y) of row r among the row's block QPs. -/
def qpOf (b : Bytes) (qps : List Int) (r x y : Nat) : Nat :=
  (qps.getD (if codec b = 1 then x / 4 else (y - r * (br b / 16)) * bw b + x) 0).toNat

/-! ### Coding (R239, R240, R245, R247, R257, R259) -/

/-- Everything that R247 lets a coded row depend on: the microcode version, the session record, the state area at the
execution's start, the picture record's input fields, the map and rectangles, the vector field, the samples read, and
the vectors decided so far. -/
structure View where
  version : Word
  sess    : Bytes
  area    : EncArea
  pic     : Bytes
  offs    : List Int
  field   : List (Option (Int × Int))
  src     : Planes
  motion  : List (Option (Nat × Int × Int))
def view (ver : Word) (w : EncWork) (luma chroma : Bytes) : View :=
  let b := w.sess
  { version := ver, sess := b, area := w.area, pic := w.pic.take 0x48, offs := w.offs, field := w.field,
    src := ⟨width b, luma.length / (width b * bps b), bps b, luma, chroma⟩, motion := w.motion }
/-- What a 16 x 16 block is coded as. -/
inductive BlockCode where
  /-- motion-compensated from a reference with a vector -/
  | inter (ref : Nat) (v : Int × Int)
  /-- intra, the microcode choosing partition and mode -/
  | intra
  /-- no residual on the codec's first predicted vector: cu_skip_flag 1 with merge_idx 0, P_Skip, or skip_txfm 1 with
  NEARESTMV from LAST_FRAME (R259) -/
  | skip
  /-- the largest intra size with DC prediction (R259) -/
  | dc
/-- What a row codes: the QP written for each block or superblock, as cu_qp_delta, mb_qp_delta or, on the qindex scale,
delta_q (R243, R257), and its blocks in raster order. -/
structure RowCode where
  row    : Nat
  qps    : List Int
  blocks : List BlockCode
/-- A QP as the codec writes it: AV1's qindex is 5 times it (R243). -/
def written (b : Bytes) (q : Int) : Int := if codec b = 1 then 5 * q else q
def searchOf (v : View) : Motion.Ctx :=
  let b := v.sess
  { codec := codec b, depth := depth b, unit := if hpmv b then 8 else 4, ncand := ncand b, bw := bw b, bh := bh b,
    src := v.src, refs := v.area.refs, field := v.field, gmv := gmv v.pic, motion := v.motion }
/-- What block k is coded as and the motion it leaves: spent rows by R259, an inter picture's other blocks by motion
search and the microcode's choice of intra coding, which R247 leaves to its version. -/
def blockCode (v : View) (key spent : Bool) (k q : Nat) : BlockCode × Option (Nat × Int × Int) :=
  if key then (if spent then .dc else .intra, none)
  else if spent then (.skip, some (Config.predicted v k))
  else match Motion.search (searchOf v) (k % bw v.sess) (k / bw v.sess) q with
    | none => (.intra, none)
    | some m => if Config.codedIntra v k m then (.intra, none) else (.inter m.1 m.2, some m)
/-- The blocks of row r in raster order, and every block's motion with them. -/
def codeBlocks (v : View) (key spent : Bool) (r : Nat) (qps : List Int) : List BlockCode × List (Option (Nat × Int × Int)) :=
  ((blockRows v.sess r).flatMap fun y => (List.range (bw v.sess)).map fun x => (x, y)).foldl
    (fun (l, m) (x, y) =>
      let (c, n) := blockCode { v with motion := m } key spent (y * bw v.sess + x) (qpOf v.sess qps r x y)
      (l ++ [c], m ++ [n])) ([], v.motion)
/-- What a key picture's sequence header or parameter sets say: profile, level, size, depth and frame rate of the session,
slices, and of the tools only those of R240. -/
def headerFields (b : Bytes) : List Nat :=
  [profile b, level b, width b, height b, depth b, fpsNum b, fpsDen b, slices b, nref b]
def header (b : Bytes) : List Bool := Config.codedHeader (codec b) (headerFields b)
/-- Zero bits up to a whole byte: a slice ends on a byte (PRESUMED: in all three codecs, log 31). -/
def pad (n : Nat) : List Bool := List.replicate ((8 - n % 8) % 8) false
/-- Bytes of bits, the first the most significant: the order of all three standards (R241; PRESUMED, log 31). -/
def pack : List Bool → Bytes
  | a :: b :: c :: d :: e :: f :: g :: h :: l =>
    BitVec.ofNat 8 ([a, b, c, d, e, f, g, h].foldl (fun n x => 2 * n + ofBool x) 0) :: pack l
  | _ => []

/-! ### The execution -/

/-- STATUS of a refused picture record (R245), and the end of its job. -/
def refuse (s : State) (j : Job) (v : Via) (d paddr status : Nat) : State :=
  match run s 7 (MM.put v (paddr + 0x50) 2 status) with
  | (.ok _, s) => Hub.endWith s j.id d status
  | (.error e, s) => Hub.workFails s j d e
/-- Every record and map of a picture, read at the grant (R243, R245, R262). -/
structure Got where
  sess : Bytes
  pic  : Bytes
  head : Bytes
  offs : Option (List Int)
  field : List (Option (Int × Int))

def fetch (v : Via) (x : Bytes) (n : Nat) : MM Got := do
  let b ← MM.read v (fld x 0x20 8) 64
  let p ← MM.read v (fld x 0x28 8 + 128 * n) 128
  if sessionOk b && pictureOk p then
    let h ← MM.read v (state b) 4096
    let o ← offsets v b p
    let f ← field v b p
    pure ⟨b, p, h, o, f⟩
  else pure ⟨b, p, [], none, []⟩
/-- The work of a picture. A key picture clears every reference (R245). -/
def work (b p : Bytes) (addr paddr : Nat) (a : EncArea) (offs : List Int) (fld : List (Option (Int × Int))) : EncWork :=
  let key := a.picnum == 0 || forceKey p || (intraPeriod b != 0 && a.picnum % intraPeriod b == 0)
  { addr := addr, sess := b, paddr := paddr, pic := p, key := key,
    area := { a with refs := if key then [] else a.refs.take (nref b) },
    budget := if constRate b then budgetOf b key a.carry else 0,
    q0 := if constRate b then baseQp b (Sparse.get? a.last (if key then 0 else 1)) else qpInit b,
    offs := offs, field := fld, luma := [], chroma := [], motion := [], rows := [], qps := [], spent := none, hold := [], heldRows := 0, slice := 0 }
/-- Grant execution n of ENC. -/
def start (s : State) (j : Job) (d n : Nat) : State :=
  let x := j.descAt d
  if fld x 0x30 4 ≤ n then Hub.grant s j.id d n .plain
  else
    let v := Hub.viaOf s j Hub.enc d
    let addr := fld x 0x20 8
    let paddr := fld x 0x28 8 + 128 * n
    match run s 7 (fetch v x n) with
    | (.error e, s) => Hub.workFails s j d e
    | (.ok g, s) =>
      match g.offs with
      | none => refuse s j v d paddr 0x0705
      | some offs =>
        let b := g.sess
        let a := encAreaOf s g.head
        if a.closed then refuse s j v d paddr 0x0705
        else match Codecs.bind s true j addr 0 (units (width b) (height b) (fpsNum b) (fpsDen b)) with
          | .other => refuse s j v d paddr 0x0705
          | .full => refuse s j v d paddr 0x0704
          | .ok s _ => Hub.grant s j.id d n (.enc (work b g.pic addr paddr a offs g.field))

/-- The input of row r has arrived (R264). -/
def inputReady (s : State) (j : Job) (w : EncWork) (r : Nat) : Bool :=
  !subframeIn w.pic ||
    match eventValue s j (inEvt w.pic) with
    | some v => decide (inBase w.pic + ceilDiv (min (height w.sess) ((r + 1) * br w.sess)) 16 ≤ v)
    | none => false
/-- Rows of the slice that row r belongs to are all coded. -/
def sliceFull (w : EncWork) : Bool :=
  let n := nrows w.sess
  w.heldRows != 0 && (w.rows.length == n || (sliceRows w.sess != 0 && w.heldRows == sliceRows w.sess))
/-- The samples of block row r: luma and chroma lines. -/
def pixels (v : Via) (w : EncWork) (r : Nat) : MM (Bytes × Bytes) := do
  let b := w.sess
  let h := min (height b) ((r + 1) * br b)
  let l ← (List.range (h - r * br b)).mapM fun i =>
    MM.read v (pY w.pic + (r * br b + i) * pPitch w.pic) (width b * bps b)
  let c ← (List.range (h / 2 - r * br b / 2)).mapM fun i =>
    MM.read v (pUV w.pic + (r * br b / 2 + i) * pPitch w.pic) (width b * bps b)
  pure (l.flatten, c.flatten)
/-- The work after its next row is coded from the samples read (R247, R249 to R259): headers count in row 0, and a slice's
last row is padded to a byte. -/
def rowCoded (ver : Word) (w : EncWork) (px : Bytes × Bytes) : EncWork :=
  let b := w.sess
  let r := w.rows.length
  let q := rowQp b w
  let qps := blockQps b w r q
  let v := view ver w (w.luma ++ px.1) (w.chroma ++ px.2)
  let (code, motion) := codeBlocks v w.key w.spent.isSome r qps
  let head := if w.key && r == 0 then header b else []
  let body := head ++ Config.codedRow v (⟨r, qps.map (written b), code⟩ : RowCode)
  let w := { w with luma := v.src.luma, chroma := v.src.chroma, motion := motion, qps := qps, heldRows := w.heldRows + 1 }
  let ends := r + 1 == nrows b || (sliceRows b != 0 && w.heldRows == sliceRows b)
  let body := if ends then body ++ pad (w.hold.length + body.length) else body
  let rows := w.rows ++ [(q, body.length)]
  let spent := if w.spent.isNone && constRate b && decide (r + 1 < nrows b) &&
      decide (w.budget ≤ (rows.map (·.2)).sum) then some (r + 1) else w.spent
  { w with rows := rows, spent := spent, hold := w.hold ++ body }

/-- A chunk (R246): header, payload, zeros to a multiple of 16. -/
def chunk (w : EncWork) : Bytes :=
  let p := pack w.hold
  let n := p.length
  let flags := ofBool (w.rows.length == nrows w.sess) + 2 * ofBool w.key + 4 * ofBool w.spent.isSome
  toLe 4 n ++ toLe 4 w.area.picnum ++ toLe 2 w.slice ++ toLe 2 flags ++ zeros 4 ++ slice p 0 (up n 16)

/-- Bits of the picture. -/
def actual (w : EncWork) : Nat := (w.rows.map (·.2)).sum
/-- The output fields of a picture record, from 0x48 (R245). -/
def outputs (w : EncWork) : Bytes :=
  toLe 4 w.budget ++ toLe 4 (min 0xFFFFFFFF (actual w)) ++ toLe 2 (if w.spent.isSome then 0x0703 else 0) ++
    toLe 1 (ofBool (!w.key)) ++ toLe 1 (wrap 8 w.q0) ++ toLe 4 w.area.picnum ++ toLe 2 (w.spent.getD 0xFFFF)
/-- The picture as a reference: its planes at the coded size. -/
def reference (ver : Word) (w : EncWork) : EncRef :=
  let b := w.sess
  let cw := Levels.coded (codec b) (width b)
  let ch := Levels.coded (codec b) (height b)
  let n := cw * ch * bps b
  let p := Config.reconstructed (view ver w w.luma w.chroma)
  ⟨⟨cw, ch, bps b, slice p.1 0 n, slice p.2 0 (n / 2)⟩, w.motion⟩
/-- The state after a picture (R245, R253 to R255). -/
def areaAfter (ver : Word) (w : EncWork) : EncArea :=
  let a := w.area
  let b := w.sess
  let t := if w.key then 0 else 1
  let old := match Sparse.get? a.last t with
    | some (_, _, _, l) => l
    | none => []
  let bits := w.rows.zipIdx.map fun ((_, n), r) => match w.spent with
    | some k => if k ≤ r then old.getD r 0 else n
    | none => n
  { closed := endSet w.pic, picnum := a.picnum + 1, refs := (reference ver w :: a.refs).take (nref b),
    carry := if constRate b then carryAfter b a.carry (actual w) else a.carry,
    last := if constRate b then Sparse.put a.last t (w.q0, w.budget, actual w, bits) else a.last }
/-- The execution completes: outputs, state area, report of an overshoot (R245, R259). -/
def finish (s : State) (j : Job) (d n : Nat) (w : EncWork) : State :=
  let v := Hub.viaOf s j Hub.enc d
  let a := areaAfter (microcode s) w
  let e := engineOf s true w.addr j.fn
  let act : MM Unit := do
    MM.write v (w.paddr + 0x48) (outputs w)
    MM.write v (state w.sess) (image (microcode s) (e, a) (areaBytes w.sess))
  match run s 7 act with
  | (.error e, s) => fails s j true w.addr d n e
  | (.ok _, s) =>
    let s := s.setCodec { s.codec with encAreas := (e, a) :: s.codec.encAreas }
    let s := if w.spent.isSome then
        logEvent s { status := 0x0703, source := sourceOf s true w.addr j.fn, fn := j.fn, relanes := j.relanes, arg0 := w.addr,
                     arg1 := w.area.picnum * 2 ^ 32 + min (actual w - w.budget) 0xFFFFFFFF }
      else s
    Hub.completed (release s true w.addr j.fn (endSet w.pic)) j.id d n

end Enc

open Bits Ops JobOps Codecs Enc

/-- ENC_BLOCK_ROW (R249 to R259, R264): the next block row of the picture is coded. -/
def execEncBlockRow (j d : Nat) (s : State) : Out :=
  match find s.sched j with
  | none => .next s
  | some x => match Hub.first x d with
    | some ⟨_, n, .enc w⟩ =>
      let r := w.rows.length
      if s.bu.stopped || decide (nrows w.sess ≤ r) || sliceFull w then .next s
      else if !inputReady s x w r then .next (pollEvent s x (inEvt w.pic))
      else if !classOpen s 7 then .next (s.setSched (markStall s.sched 7))
      else match run s 7 (pixels (Hub.viaOf s x Hub.enc d) w r) with
        | (.error e, s) => .next (fails s x true w.addr d n e)
        | (.ok px, s) =>
          let s := s.setSched (charge s.sched 7 0 (60000000 * (blockRows w.sess r).length * bw w.sess))
          .next (Hub.setExec s j ⟨d, n, .enc (rowCoded (microcode s) w px)⟩)
    | _ => .next s

/-- ENC_CHUNK_EMIT (R246, R263, R265): a coded slice goes to the output ring when it has room. -/
def execEncChunkEmit (j d : Nat) (s : State) : Out :=
  match find s.sched j with
  | none => .next s
  | some x => match Hub.first x d with
    | some ⟨_, n, .enc w⟩ =>
      if s.bu.stopped || !sliceFull w then .next s
      else if !classOpen s 7 then .next (s.setSched (markStall s.sched 7))
      else
        let v := Hub.viaOf s x Hub.enc d
        let c := chunk w
        let act : MM Bool := do
          let r ← readRing v (out w.sess)
          if hasRoom r c.length then do
            putRing v r c
            pure true
          else pure false
        match run s 7 act with
        | (.error e, s) => .next (fails s x true w.addr d n e)
        | (.ok false, s) => .next s
        | (.ok true, s) =>
          let s := Hub.setExec s j ⟨d, n, .enc { w with hold := [], heldRows := 0, slice := w.slice + 1 }⟩
          .next (if outEvt w.pic = 0xFFFF then s else bump s x (outEvt w.pic))
    | _ => .next s

end Machine
end Sys2Proof
end

