-- ==== Sys2Proof/Machine/Mailbox.lean ====
section
/-! DEFINITION. Mailbox commands: checks in the order of spec/15_host_and_mailboxes.md R356, effects, responses
(R353 to R360). -/

namespace Sys2Proof
namespace Machine
namespace Mbox

open Bits Ops Starts

/-- A mailbox at its reset values (R353). -/
def mbox0 : Mailbox := ⟨[], [], 0, false, false, false, false⟩
def mboxAt (h : HostIf) (f : Nat) : Mailbox := Sparse.getD h.mbox f mbox0
def putMbox (h : HostIf) (f : Nat) (m : Mailbox) : HostIf := { h with mbox := Sparse.put h.mbox f m }

/-- What a command answers: STATUS, OBJECT, RESULT words, and the state with its effect. -/
structure Answer where
  status : Nat
  object : Nat
  results : List Nat
  state  : State

/-- A refusal: no side effect, RESULT words 0 (R356). -/
def refuse (s : State) (st obj : Nat) : Answer := ⟨st, obj, [], s⟩
/-- Success without results. -/
def done (obj : Nat) (s : State) : Answer := ⟨0, obj, [], s⟩

def badField : Nat := 0x0101
def wrongState : Nat := 0x0102
def noResource : Nat := 0x0103
def notPermitted : Nat := 0x0104

/-- Bring-up has reached READY (STEP 9). -/
def ready (s : State) : Bool := s.bu.step == 9 && s.bu.phase == 1
/-- Bring-up has stopped at CELL_FIRMWARE with 0x0401. -/
def halted (s : State) : Bool := s.bu.step == 6 && s.bu.phase == 2 && s.bu.code == 0x0401
/-- Admitted jobs of function f, of ring r. -/
def jobsOf (s : State) (f : Nat) : List Job := s.sched.jobs.filter (·.fn == f)
def jobsOfRing (s : State) (r : Nat) : List Job := s.sched.jobs.filter (·.ring == r)
/-- Some port is UP to another module (spec/01_architecture.md R22; spec/08_attention_and_paged_cache.md R192). How another
module is told from this one is not stated: a partner that reports this module's own endpoint ID counts as this module
itself (DESIGN CHOICE, log 54). -/
def linked (s : State) : Bool :=
  (List.range 24).any fun p => (Link.portAt s p).state == .up && (Link.portAt s p).partner != Link.myId s
/-- The role is dormant (R192). -/
def dormant (s : State) : Bool := s.cache.role != 0 && !linked s

/-- An uncorrectable line at memory address l, met by the management processor for function f (spec/13_stacked_memory.md
R301: the hub's own code, DEDUCED, log 55). -/
def badRead (s : State) (f l : Nat) : State :=
  logEvent s { status := 0x0302, source := 0x5000 + f, arg0 := l, arg1 := 0x10000 }

/-- STATE of a response (R357). -/
def stateWord (s : State) (f obj : Nat) : Nat :=
  (jobsOf s f).length % 65536 * 2 ^ 32 + obj * 2 ^ 16 + 2 ^ 12 * ofBool (dormant s) + s.cache.role * 2 ^ 9 +
    2 ^ 8 * ofBool s.bu.recovering + s.bu.step

/-! ### The objects that commands name (R358) -/

/-- The ring of ARG0. -/
def ringOf (a0 : Nat) : Nat := field a0 5 0
def ringObj (s : State) (a0 : Nat) : Nat := (ringAt s.host (ringOf a0)).state
/-- Rings of function fn that are ENABLED or DRAINING. -/
def activeRings (s : State) (fn : Nat) : Nat :=
  ((List.range 64).filter fun r => let x := ringAt s.host r; x.owner == fn && (x.state == 3 || x.state == 4)).length
/-- The session that SESSION_CLOSE of function f names: its own, or another function's of that address. -/
def sessionOf (s : State) (f a0 a1 : Nat) : Option Session :=
  let l := (if a0 % 2 = 0 then s.codec.enc else s.codec.dec).filter (·.addr == a1)
  match l.find? (·.fn == f) with
  | some x => some x
  | none => l.head?
def sessionObj (s : State) (f a0 a1 : Nat) : Nat :=
  match sessionOf s f a0 a1 with
  | none => 0
  | some x => if x.busy then 2 else 1

/-! ### The commands (R358 to R360) -/

def getState (s : State) : Answer := ⟨0, 0xFF, [s.log.notify, s.log.acked], s⟩

def getInfo (s : State) (f : Nat) : Answer :=
  let v := Bring.versions s.bu
  let rings := ((List.range 64).filter fun r => (ringAt s.host r).state != 0 && (ringAt s.host r).owner == f)
  ⟨0, 0xFF, [Regs.value s .idVariant, v.1.toNat, v.2.1.toNat, v.2.2.1.toNat, v.2.2.2.toNat, f,
    (rings.map (2 ^ ·)).sum], s⟩

/-- A blitz reservation is in its ranges (spec/16_scheduling_and_budgets.md R385). -/
def resvOk (v : Nat) : Bool :=
  field v 47 44 == 0 && field v 31 20 == 0 && decide (1 ≤ resvPeriods v) && decide (1 ≤ resvEnergy v) &&
  decide (1 ≤ resvTxn v) && decide (resvTxn v ≤ 100000) && decide (v < 2 ^ 64)

/-- Budgets of the blitz classes follow the blitz rings' reservations (R392). -/
def blitzBudgets (s : State) : State :=
  let rs := (blitzRings s.host).map fun r => (ringAt s.host r).resv
  let upd := fun (c : Sched) k v =>
    let b := budgetAt c k
    { c with budgets := Sparse.put c.budgets k { b with limTxn := resvTxn v, limNj := resvEnergy v * 1000,
                                                        newTxn := resvTxn v, newNj := resvEnergy v * 1000 } }
  s.setSched (upd (upd s.sched 0 (rs.getD 0 0)) 1 (rs.getD 1 0))

def ringAssign (s : State) (f a0 a1 : Nat) : Answer :=
  let r := field a0 5 0
  let fn := field a0 15 8
  let cl := field a0 17 16
  let x := ringAt s.host r
  if a0 % 2 ^ 18 ≠ a0 ∨ field a0 7 6 ≠ 0 ∨ (15 < fn ∧ fn ≠ 0xFF) ∨
      (if cl = 0 ∧ fn ≠ 0xFF then !resvOk a1 else a1 != 0) then refuse s badField x.state
  else if f ≠ 0 then refuse s notPermitted x.state
  else if !ready s ∨ 2 < x.state then refuse s wrongState x.state
  else
    let other := (blitzRings s.host).filter (· != r)
    let txn := (other.map fun k => resvTxn (ringAt s.host k).resv).sum
    let nrg := (other.map fun k => resvEnergy (ringAt s.host k).resv).sum
    if fn ≠ 0xFF ∧ cl = 0 ∧ (2 ≤ other.length ∨ 100000 < txn + resvTxn a1 ∨ s.pwr.polP < 2 * (nrg + resvEnergy a1)) then
      refuse s noResource x.state
    else
      let y := if fn = 0xFF then { x with base := 0, log2 := 0, owner := 0, cls := 0, state := 0, tail := x.head, resv := 0, bells := [] }
               else { x with base := 0, log2 := 0, owner := fn, cls := cl, state := 1, tail := x.head, resv := a1, bells := [] }
      done y.state (blitzBudgets (s.setHost (putRing s.host r y)))

/-- Check 2 for a command of the ring's owner. -/
def ownsRing (s : State) (f r : Nat) : Bool := let x := ringAt s.host r; x.state != 0 && x.owner == f

def ringSetup (s : State) (f a0 a1 a2 : Nat) : Answer :=
  let r := ringOf a0
  let x := ringAt s.host r
  let vec := field a2 15 8
  let top := if f = 0 then 64 else 16
  if 64 ≤ a0 ∨ a1 % 4096 ≠ 0 ∨ a2 % 65536 ≠ a2 ∨ field a2 7 5 ≠ 0 ∨ 16 < field a2 4 0 ∨
      (vec ≠ 0xFF ∧ (vec < 2 ∨ top ≤ vec)) then refuse s badField x.state
  else if !ownsRing s f r then refuse s notPermitted x.state
  else if !ready s ∨ (x.state ≠ 1 ∧ x.state ≠ 2) then refuse s wrongState x.state
  else
    done 2 (s.setHost (putRing s.host r { x with base := a1, log2 := field a2 4 0, vector := vec, tail := 0, head := 0,
                                                 done := 0, state := 2, bells := [] }))

def ringEnable (s : State) (f a0 : Nat) : Answer :=
  let x := ringAt s.host (ringOf a0)
  if 64 ≤ a0 then refuse s badField x.state
  else if !ownsRing s f a0 then refuse s notPermitted x.state
  else if !ready s ∨ s.bu.recovering ∨ x.state ≠ 2 then refuse s wrongState x.state
  else done 3 (s.setHost (putRing s.host a0 { x with state := 3 }))

def ringDisable (s : State) (f a0 : Nat) : Answer :=
  let x := ringAt s.host (ringOf a0)
  if 64 ≤ a0 then refuse s badField x.state
  else if !ownsRing s f a0 && f != 0 then refuse s notPermitted x.state
  else if x.state ≠ 3 then refuse s wrongState x.state
  else
    let st := if (jobsOfRing s a0).isEmpty then 2 else 4
    done st (s.setHost (putRing s.host a0 { x with state := st }))

/-- Entry e of a translation table (spec/19_security.md R444). -/
def tableEntry (b : Bytes) (e : Nat) : XlatEntry :=
  let a := fld b (16 * e) 8
  let attr := fld b (16 * e + 12) 4
  ⟨a / 4096, field attr 27 0, fld b (16 * e + 8) 4, bit attr 31, bit attr 30⟩
def entryOk (b : Bytes) (e : Nat) : Bool :=
  let a := fld b (16 * e) 8
  let attr := fld b (16 * e + 12) 4
  decide (a < 2 ^ 40) && a % 4096 == 0 && field attr 29 28 == 0 && decide (1 ≤ field attr 27 0)
/-- Entries ascend without overlap in logical pages. -/
def ascending : List XlatEntry → Bool
  | a :: b :: r => decide (a.lpage + a.pages ≤ b.lpage) && ascending (b :: r)
  | _ => true
/-- The runs of a table satisfy R445 for function fn. -/
def runsOk (s : State) (fn : Nat) (es : List XlatEntry) : Bool :=
  ascending es && es.all (fun e => decide (e.lpage + e.pages ≤ 2 ^ 28) &&
    decide ((e.mpage + e.pages) * 4096 ≤ Config.recoveryBase)) &&
  (fn == 0 || !s.mem.sealEn || !es.any fun e =>
    decide (e.mpage * 4096 < s.mem.sealBase + Config.sealTableBytes) &&
    decide (s.mem.sealBase < (e.mpage + e.pages) * 4096))

/-- Read and check a translation table at logical address a of the PF, for function fn, at the command of f (R445). -/
def readTable (s : State) (f fn a : Nat) : Option (List XlatEntry) × State :=
  match readLog s 0 10 a 16 with
  | (.ok h, s) =>
    let n := fld h 4 4
    if slice h 0 4 ≠ ascii "KXT1" ∨ 1024 < n ∨ fld h 12 4 ≠ 0 then (none, s)
    else
      match readLog s 0 10 (a + 16) (16 * n) with
      | (.ok b, s) =>
        let es := (List.range n).map (tableEntry b)
        if (crc32c b).toNat = fld h 8 4 ∧ (List.range n).all (entryOk b) ∧ runsOk s fn es then (some es, s) else (none, s)
      | (.bad l, s) => (none, badRead s f l)
      | (.refused, s) => (none, s)
  | (.bad l, s) => (none, badRead s f l)
  | (.refused, s) => (none, s)

def contextBind (s : State) (f a0 a1 : Nat) : Answer :=
  let obj := activeRings s (a0 % 16)
  if 16 ≤ a0 then refuse s badField obj
  else
    match readTable s f a0 a1 with
    | (none, s) => refuse s badField obj
    | (some es, s) =>
      if f ≠ 0 then refuse s notPermitted obj
      else if !ready s ∨ obj ≠ 0 ∨ !(jobsOf s a0).isEmpty then refuse s wrongState obj
      else done obj (s.setHost { s.host with ctx := Sparse.put s.host.ctx a0 es })

def sessionClose (s : State) (f a0 a1 : Nat) : Answer :=
  let obj := sessionObj s f a0 a1
  if 2 ≤ a0 then refuse s badField obj
  else
    match sessionOf s f a0 a1 with
    | none => refuse s wrongState obj
    | some x =>
      if x.fn ≠ f then refuse s notPermitted obj
      else if !ready s ∨ x.busy then refuse s wrongState obj
      else
        let l := (if a0 = 0 then s.codec.enc else s.codec.dec).filter fun y => !(y.addr == a1 && y.fn == f)
        ⟨0, 0, [x.engine], s.setCodec (if a0 = 0 then { s.codec with enc := l } else { s.codec with dec := l })⟩

/-- The accesses of the management processor in the PF's context. -/
def mpVia (s : State) : Via := ⟨s.host, 0, ⟨none, CacheOps.none32, 0x10000⟩, s.now, 10⟩

/-- Some node of the serving tree holds a live lease (spec/08_attention_and_paged_cache.md R191). -/
def liveLease (v : Via) (c : Bytes) (now : Nat) : MM Bool := do
  if CacheOps.tree c = 0 then pure false
  else
    let t ← CacheOps.readTree v c
    let rec go : Nat → MM Bool
      | 0 => pure false
      | n + 1 => do
        let b ← CacheOps.readNode v t n
        if 0 < CacheOps.nLeases b ∧ now ≤ CacheOps.nLeaseUntil b then pure true else go n
    go t.nnodes

/-- The object of ROLE_SET: 1 while an admitted job names a cache descriptor, 2 while the serving tree holds a live
lease. -/
def roleObj (s : State) (f : Nat) : Nat × State :=
  if s.sched.jobs.any fun j => fld j.desc 0x28 8 != 0 then (1, s)
  else if s.cache.role = 0 then (0, s)
  else
    let (r, s, l) := MM.exec s 10 (liveLease (mpVia s) s.cache.desc (ptpTime s))
    match r with
    | .ok b => (if b then 2 else 0, logLost s l)
    | .error (.bad l') => (0, badRead (logLost s l) f l')
    | .error (.refused _) => (0, logLost s l)
def roleSet (s : State) (f a0 a1 : Nat) : Answer :=
  let (obj, s) := roleObj s f
  if 4 ≤ a0 ∨ (a0 = 0) ≠ (a1 = 0) then refuse s badField obj
  else
    let (d, s) := if a0 = 0 then (Acc.ok [], s) else readLog s f 10 a1 64
    match d with
    | .ok d =>
      if a0 ≠ 0 ∧ !CacheOps.descOk d then refuse s badField obj
      else if f ≠ 0 then refuse s notPermitted obj
      else if !ready s ∨ obj ≠ 0 then refuse s wrongState obj
      else done 0 (s.setCache ⟨a0, d, a1, []⟩)
    | .bad l => refuse (badRead s f l) badField obj
    | .refused => refuse s badField obj

/-- The present value of a policy, and its range (R394, spec/20_power_thermal_measurement.md R460). -/
def policy (s : State) (i : Nat) : Option (Nat × Nat × Nat) :=
  let c := i % 256
  let free := [2, 3, 4, 7, 8, 9].contains c
  if i / 256 = 1 ∧ free then some ((budgetAt s.sched c).newTxn, 0, noLimit)
  else if i / 256 = 2 ∧ free then some ((budgetAt s.sched c).newNj, 0, noLimit)
  else if i = 0x0300 then some (s.pwr.polP, 600, Pwr.fused s)
  else if i = 0x0301 then some (s.pwr.polT, 90, 105)
  else if i = 0x0302 then some (s.pwr.polF, 400, Config.clkMax s.fuses.variant)
  else none
def setPolicy (s : State) (i v : Nat) : State :=
  let c := i % 256
  let b := budgetAt s.sched c
  if i / 256 = 1 then s.setSched { s.sched with budgets := Sparse.put s.sched.budgets c { b with newTxn := v } }
  else if i / 256 = 2 then s.setSched { s.sched with budgets := Sparse.put s.sched.budgets c { b with newNj := v } }
  else if i = 0x0300 then s.setPwr { s.pwr with polP := v }
  else if i = 0x0301 then s.setPwr { s.pwr with polT := v }
  else s.setPwr { s.pwr with polF := v }
/-- A lower operating limit would fall below twice the blitz reservations' ENERGY (R385). -/
def belowReserved (s : State) (v : Nat) : Bool :=
  decide (v < 2 * ((blitzRings s.host).map fun k => resvEnergy (ringAt s.host k).resv).sum)

def policySet (s : State) (f a0 a1 : Nat) : Answer :=
  match (if a0 < 65536 then policy s a0 else none) with
  | none => refuse s badField 0xFF
  | some (old, lo, hi) =>
    if a1 < lo ∨ hi < a1 then refuse s badField 0xFF
    else if f ≠ 0 then refuse s notPermitted 0xFF
    else if !ready s then refuse s wrongState 0xFF
    else if a0 = 0x0300 ∧ belowReserved s a1 then refuse s noResource 0xFF
    else ⟨0, 0xFF, [old], setPolicy s a0 a1⟩

/-- The 32 bytes of an event record (spec/18_reliability_and_recovery.md R432). -/
def eventBytes (e : Event) : Bytes :=
  toLe 8 e.time ++ toLe 2 e.status ++ toLe 2 e.source ++ toLe 2 e.flags ++ toLe 1 e.fn ++ toLe 1 e.cls ++
    toLe 8 e.arg0 ++ toLe 8 e.arg1
/-- Records held, oldest first: the flash log for positions older than the memory log (R434). -/
def heldEvents (s : State) : List Event :=
  let old := match s.log.recs with
    | e :: _ => e.pos
    | [] => s.log.next
  (s.flash.log.filter fun e => e.pos < old) ++ s.log.recs

def eventRead (s : State) (f a0 a1 a2 : Nat) : Answer :=
  if a0 % 32 ≠ 0 ∨ a2 = 0 ∨ 4096 < a2 then refuse s badField 0xFF
  else
    let ev := ((heldEvents s).filter fun e => decide (a1 ≤ e.pos) && (f == 0 || e.fn == f)).take a2
    let next := if ev.length = a2 then (match ev.getLast? with | some e => e.pos + 1 | none => s.log.next) else s.log.next
    match hubWrite s 10 f a0 (ev.flatMap eventBytes) with
    | none => refuse s badField 0xFF
    | some s => ⟨0, 0xFF, [ev.length, next], s⟩

def eventAck (s : State) (f a0 : Nat) : Answer :=
  if f ≠ 0 then refuse s notPermitted 0xFF else done 0xFF (s.setLog { s.log with acked := a0 })

def overrideCmd (s : State) (f a0 : Nat) : Answer :=
  if a0 ≠ 1 then refuse s badField 0xFF
  else if f ≠ 0 then refuse s notPermitted 0xFF
  else if !halted s then refuse s wrongState 0xFF
  else done 0xFF (startStep (s.setBu { s.bu with override := true, overVers := some (Bring.versions s.bu) }) 6)

/-- RESTART: the restart itself follows the response (R360). -/
def restartCmd (s : State) (f a0 : Nat) : Answer :=
  if 2 ≤ a0 then refuse s badField 0xFF
  else if f ≠ 0 then refuse s notPermitted 0xFF
  else if s.bu.recovering ∨ !(ready s || halted s) then refuse s wrongState 0xFF
  else done 0xFF (s.setBu { s.bu with restart := some (a0 == 0), recovering := a0 == 0 })

/-- The object that a command names (R357, R358), with the state after the reads that this takes. -/
def objectOf (s : State) (f cmd : Nat) (arg : Nat → Nat) : Nat × State :=
  if 0x0010 ≤ cmd ∧ cmd ≤ 0x0013 then (ringObj s (arg 0), s)
  else if cmd = 0x0020 then (activeRings s (arg 0 % 16), s)
  else if cmd = 0x0030 then (sessionObj s f (arg 0) (arg 1), s)
  else if cmd = 0x0040 then roleObj s f
  else (0xFF, s)
/-- Run one command on its copied request (R355, R356). -/
def run (s : State) (f cmd rsv : Nat) (arg : Nat → Nat) : Answer :=
  if rsv ≠ 0 then
    let (obj, s) := objectOf s f cmd arg
    refuse s badField obj
  else match cmd with
  | 0x0001 => getState s
  | 0x0002 => getInfo s f
  | 0x0010 => ringAssign s f (arg 0) (arg 1)
  | 0x0011 => ringSetup s f (arg 0) (arg 1) (arg 2)
  | 0x0012 => ringEnable s f (arg 0)
  | 0x0013 => ringDisable s f (arg 0)
  | 0x0020 => contextBind s f (arg 0) (arg 1)
  | 0x0030 => sessionClose s f (arg 0) (arg 1)
  | 0x0040 => roleSet s f (arg 0) (arg 1)
  | 0x0050 => policySet s f (arg 0) (arg 1)
  | 0x0060 => eventRead s f (arg 0) (arg 1) (arg 2)
  | 0x0061 => eventAck s f (arg 0)
  | 0x0070 => overrideCmd s f (arg 0)
  | 0x0080 => restartCmd s f (arg 0)
  | _ => refuse s badField 0xFF

/-- Write a response: the whole area, then SEQ, DONE and BUSY, then vector 0 (R354 step 4). -/
def respond (s : State) (f status cmd tag state : Nat) (results : List Nat) : State :=
  let m := mboxAt s.host f
  let area := toLe 2 status ++ toLe 2 cmd ++ toLe 4 tag ++ toLe 8 state ++ results.flatMap (toLe 8)
  let h := putMbox s.host f { m with resp := slice area 0 2048, seq := (m.seq + 1) % 65536, done := true, busy := false }
  s.setHost (if m.irqEn then sendVec h f 0 else h)

/-- Execute the command of a copied request and answer it; a cold RESTART then begins. -/
def execute (s : State) (f : Nat) (req : Bytes) : State :=
  let cmd := fld req 0 2
  let tag := fld req 4 4
  let a := run s f cmd (fld req 2 2) fun i => fld req (8 + 8 * i) 8
  let s := respond a.state f a.status cmd tag (stateWord a.state f a.object) a.results
  if cmd = 0x0080 ∧ a.status = 0 ∧ s.bu.restart = some false then coldStart s else s

/-- GO (R354): BUSY 1 sets OVERRUN; before the management processor runs, the command is held. -/
def go (s : State) (f : Nat) : State :=
  let m := mboxAt s.host f
  if m.busy then s.setHost (putMbox s.host f { m with overrun := true })
  else
    let s := s.setHost (putMbox s.host f { m with busy := true })
    if s.bu.mpRunning then execute s f m.req
    else s.setHost { s.host with held := s.host.held ++ [(f, m.req)] }

/-- The held commands run in the order of their GO when the management processor starts (R354 step 3). -/
def runHeld (s : State) : State :=
  s.host.held.foldl (fun s e => execute s e.1 e.2) (s.setHost { s.host with held := [] })

/-- Function f can reach its BARs: it is the PF or a VF that NumVFs presents, and is not in D3hot (R346), and the hub has its
clock (spec/21_management_identity_debug.md R487). -/
def reachable (s : State) (f : Nat) : Bool :=
  decide (f ≤ s.host.numVfs) && !s.host.d3.contains f && s.pwr.phase != .scanned

/-- Function f writes a command into its mailbox and writes GO. -/
def submit (s : State) (f cmd tag : Nat) (args : List Nat) : State :=
  if reachable s f then
    let m := mboxAt s.host f
    let req := slice (toLe 2 cmd ++ toLe 2 0 ++ toLe 4 tag ++ args.flatMap (toLe 8)) 0 1984
    go (s.setHost (putMbox s.host f { m with req := req })) f
  else s

end Mbox

open Mbox

/-- GET_STATE (R358, R359). -/
def execGetState (f : Nat) (tag : Word) (s : State) : Out := .next (submit s f 0x0001 tag.toNat [])
/-- GET_INFO (R358, R359). -/
def execGetInfo (f : Nat) (tag : Word) (s : State) : Out := .next (submit s f 0x0002 tag.toNat [])
/-- RING_ASSIGN (R358 to R361, R385). -/
def execRingAssign (f : Nat) (tag : Word) (a0 a1 : Dword) (s : State) : Out :=
  .next (submit s f 0x0010 tag.toNat [a0.toNat, a1.toNat])
/-- RING_SETUP (R358 to R362). -/
def execRingSetup (f : Nat) (tag : Word) (a0 a1 a2 : Dword) (s : State) : Out :=
  .next (submit s f 0x0011 tag.toNat [a0.toNat, a1.toNat, a2.toNat])
/-- RING_ENABLE (R358, R361). -/
def execRingEnable (f : Nat) (tag : Word) (a0 : Dword) (s : State) : Out :=
  .next (submit s f 0x0012 tag.toNat [a0.toNat])
/-- RING_DISABLE (R358, R361). -/
def execRingDisable (f : Nat) (tag : Word) (a0 : Dword) (s : State) : Out :=
  .next (submit s f 0x0013 tag.toNat [a0.toNat])
/-- CONTEXT_BIND (R358, R445). -/
def execContextBind (f : Nat) (tag : Word) (a0 a1 : Dword) (s : State) : Out :=
  .next (submit s f 0x0020 tag.toNat [a0.toNat, a1.toNat])
/-- SESSION_CLOSE (R358, R360). -/
def execSessionClose (f : Nat) (tag : Word) (a0 a1 : Dword) (s : State) : Out :=
  .next (submit s f 0x0030 tag.toNat [a0.toNat, a1.toNat])
/-- ROLE_SET (R358, R360, spec/08_attention_and_paged_cache.md R190). -/
def execRoleSet (f : Nat) (tag : Word) (a0 a1 : Dword) (s : State) : Out :=
  .next (submit s f 0x0040 tag.toNat [a0.toNat, a1.toNat])
/-- POLICY_SET (R358, R394, R460). -/
def execPolicySet (f : Nat) (tag : Word) (a0 a1 : Dword) (s : State) : Out :=
  .next (submit s f 0x0050 tag.toNat [a0.toNat, a1.toNat])
/-- EVENT_READ (R358, R360). -/
def execEventRead (f : Nat) (tag : Word) (a0 a1 a2 : Dword) (s : State) : Out :=
  .next (submit s f 0x0060 tag.toNat [a0.toNat, a1.toNat, a2.toNat])
/-- EVENT_ACK (R358, R431). -/
def execEventAck (f : Nat) (tag : Word) (a0 : Dword) (s : State) : Out :=
  .next (submit s f 0x0061 tag.toNat [a0.toNat])
/-- OVERRIDE (R358, R413). -/
def execOverride (f : Nat) (tag : Word) (a0 : Dword) (s : State) : Out :=
  .next (submit s f 0x0070 tag.toNat [a0.toNat])
/-- RESTART (R358, R398). -/
def execRestart (f : Nat) (tag : Word) (a0 : Dword) (s : State) : Out :=
  .next (submit s f 0x0080 tag.toNat [a0.toNat])

end Machine
end Sys2Proof
end

