-- ==== Sys2Proof/Machine/FabServe.lean ====
section
/-! DEFINITION. What this module does for requests of its peers: memory operations and atomics
(spec/14_twisil_fabric.md R333), pages and prefix operations under its phase role (spec/08_attention_and_paged_cache.md
R190, R191). -/

namespace Sys2Proof
namespace Machine
namespace FabServe

open Bits Ops Fab JobOps

/-- The served request of endpoint src with that TAG and operation is executed by f; the fabric DMA class may hold it
back (spec/16_scheduling_and_budgets.md R393). -/
def onServed (s : State) (src tag op : Nat) (f : State → Served → State) : State :=
  match servedAt s src tag with
  | none => s
  | some x =>
    if bOp x.blk ≠ op then s
    else if !(txnLeft s.sched 8 && energyLeft s.sched 8) then s.setSched (markStall s.sched 8)
    else f s x
/-- Log an uncorrectable line that a served request met (spec/13_stacked_memory.md R301). -/
def logBad (s : State) (x : Served) (l : Nat) : State :=
  logEvent s { status := 0x0302, source := if x.port < 24 then 0x3000 + x.port else 0x5000, arg0 := l,
               arg1 := peerCode x.port }
/-- Every unit of its data has arrived. -/
def complete (x : Served) : Bool := x.units.length == unitsOf (bLength x.blk)

/-! ### Memory operations -/

/-- READ: its DATA frames, then the RESP; an uncorrectable line ends it (R333). -/
def readUnits (s : State) (x : Served) : List Nat → State
  | [] => close s x 0 0 []
  | i :: r =>
    match readMem s 8 (x.addr + 4096 * i) (unitBytes (bLength x.blk) i) with
    | (.ok b, s) => readUnits (sendUnit s x i b) x r
    | (.bad l, s) => close (logBad s x l) x 8 0 []
    | (.refused, s) => close s x 7 0 []
def read (s : State) (x : Served) : State :=
  if x.deny ≠ 0 then close s x x.deny 0 [] else readUnits s x (List.range (unitsOf (bLength x.blk)))
/-- Store the units that wait for budget. -/
def storeHeld (s : State) (x : Served) : State :=
  putServed (x.units.foldl (fun s (i, b) => if b.isEmpty then s else storeUnit s x i b) s)
    { x with units := x.units.map fun (i, _) => (i, []) }
/-- WRITE: the RESP follows once every byte is stored. -/
def write (s : State) (x : Served) : State :=
  if x.deny ≠ 0 then close s x x.deny 0 []
  else if complete x then close (storeHeld s x) x 0 0 [] else storeHeld s x
/-- The value an atomic writes, from the old one (R332). -/
def newValue (b : Bytes) (old : Nat) : Option Nat :=
  if bOp b = opFetchAdd then some ((old + bOperand1 b) % 2 ^ 64)
  else if bOp b = opCmpSwap then (if old = bOperand1 b then some (bOperand2 b) else none)
  else some (bOperand1 b)
/-- An atomic on the hub's atomic unit: its line's write-combining entry is flushed, then 8 bytes are read and written
(R333; spec/13_stacked_memory.md R304). -/
def atomicAct (v : Via) (a : Nat) (b : Bytes) : MM Nat := do
  MM.flushLine a
  let d ← MM.readAt a 8
  match newValue b (le d) with
  | some n => MM.writeAt v a (toLe 8 n)
  | none => pure ()
  pure (le d)
/-- An atomic runs in arrival order among those that wait. -/
def atomic (s : State) (x : Served) : State :=
  if s.fab.served.find? (fun y => isAtomic (bOp y.blk)) ≠ some x then s
  else if x.deny ≠ 0 then close s x x.deny 0 []
  else
    match run s 8 (atomicAct ⟨s.host, 0, ⟨none, CacheOps.none32, peerCode x.port⟩, s.now, 8⟩ x.addr x.blk) with
    | (.ok old, s) => close s x 0 old []
    | (.error (.bad l), s) => close (logBad s x l) x 8 0 []
    | (.error (.refused _), s) => close s x 7 0 []

/-! ### Pages and the prefix tree (spec/08_attention_and_paged_cache.md R190, R191) -/

/-- The role in force: none while it is dormant (R192). -/
def role (s : State) : Nat := if Mbox.dormant s then 0 else s.cache.role
/-- The served cache is the PF's. -/
def via (s : State) (x : Served) : Via := ⟨s.host, 0, ⟨none, CacheOps.none32, peerCode x.port⟩, s.now, 8⟩
/-- A served transfer moves the last bytes of its page; its HASH or FILL is in OPERAND2 (log 30). -/
def lastPart (b : Bytes) : Bool := bOffset b + bLength b == pBytes b

/-- How an operation answers: REASON, RESULT, ARG. -/
abbrev Ans := Nat × Nat × Bytes
/-- ARG of a prefix answer: PAGE, node, HASH (log 30). -/
def ansArg (page node hash : Nat) : Bytes := toLe 4 page ++ toLe 4 node ++ toLe 8 hash
/-- Run an operation on the served cache and answer; a line or an address that fails refuses it. -/
def answering (s : State) (x : Served) (act : MM Ans) : State :=
  match run s 8 act with
  | (.ok (r, v, a), s) => close s x r v a
  | (.error (.bad l), s) => close (logBad s x l) x 8 0 []
  | (.error (.refused _), s) => close s x 7 0 []

/-- Node n is keyed, or loose, and owns the page. -/
def ownsPage (v : Via) (t : CacheOps.Tree) (n page : Nat) (keyed : Bool) : MM (Option Bytes) := do
  if t.nnodes ≤ n then pure none
  else
    let b ← CacheOps.readNode v t n
    pure (if CacheOps.nInUse b && CacheOps.nKeyed b == keyed && CacheOps.ePage (CacheOps.nOwn b) == page then some b else none)
/-- One lease of node n is returned. -/
def dropLease (v : Via) (t : CacheOps.Tree) (n : Nat) (b : Bytes) : MM Unit :=
  MM.put v (CacheOps.nodeAddr t n + 0x30) 4 (CacheOps.nLeases b - 1)

/-- Send units of a page that lie at logical address a. -/
def pageUnits (s : State) (x : Served) (a : Nat) : List Nat → State × Bool
  | [] => (s, true)
  | i :: r =>
    match readLog s 0 8 (a + 4096 * i) (unitBytes (bLength x.blk) i) with
    | (.ok b, s) => pageUnits (sendUnit s x i b) x a r
    | (.bad l, s) => (close (logBad s x l) x 8 0 [], false)
    | (.refused, s) => (close s x 7 0 [], false)
/-- The tree and the keyed node n, while it owns the page of request block b under the HASH of b. -/
def pageLook (v : Via) (c : Bytes) (n : Nat) (b : Bytes) : MM (Option (CacheOps.Tree × Bytes)) := do
  let t ← CacheOps.readTree v c
  let q ← ownsPage v t n (pPage b) true
  pure (q.bind fun q => if CacheOps.nHash q = bOperand2 b then some (t, q) else none)
/-- PAGE_READ: the leased page, only while its node still owns it under the same HASH; the last part returns the lease. -/
def pageRead (s : State) (x : Served) : State :=
  let c := s.cache.desc
  let b := x.blk
  let n := (CacheOps.parseReq (bArg b)).nodeIn
  let v := via s x
  if role s ≠ 2 then close s x 9 0 []
  else if pBytes b ≠ CacheOps.pageBytes c then close s x 0xA 0 []
  else if CacheOps.tree c = 0 then close s x 0 1 []
  else
    match run s 8 (pageLook v c n b) with
    | (.ok none, s) => close s x 0 1 []
    | (.ok (some (t, q)), s) =>
      let a := CacheOps.poolBase c + pPage b * CacheOps.pageBytes c + bOffset b
      match pageUnits s x a (List.range (unitsOf (bLength b))) with
      | (s, false) => s
      | (s, true) =>
        let s := if lastPart b then (run s 8 (dropLease v t n q)).2 else s
        close s x 0 0 []
    | (.error (.bad l), s) => close (logBad s x l) x 8 0 []
    | (.error (.refused _), s) => close s x 7 0 []

/-- The data of a served write. -/
def dataOf (x : Served) : Bytes :=
  (List.range (unitsOf (bLength x.blk))).flatMap fun i =>
    Sparse.getD x.units i (zeros (unitBytes (bLength x.blk) i))
/-- A SEND arrives: a private page of the destination slot with the sender's FILL; a page longer than one transfer stays
PENDING until its last part. -/
def recvSend (v : Via) (c : Bytes) (now : Nat) (b d : Bytes) : MM Ans := do
  let r := CacheOps.parseReq (bArg b)
  if CacheOps.seqSlots c ≤ r.src then pure (0, 3, [])
  else
    let q ← CacheOps.readSeq v c r.src
    if q.entries ≤ r.index then pure (0, 3, [])
    else
      let e ← CacheOps.readEntry v q r.index
      let page ← (if bOffset b = 0 then
          if CacheOps.eValid e || CacheOps.ePending e then pure (Except.error (0, 3, ([] : Bytes)))
          else do
            match ← CacheOps.popPage v c now with
            | none => pure (.error (0xB, 0, []))
            | some p => pure (.ok p)
        else pure (if CacheOps.ePending e then .ok (CacheOps.ePage e) else .error (0, 3, [])) : MM (Except Ans Nat))
      match page with
      | .error a => pure a
      | .ok p => do
        MM.write v (CacheOps.poolBase c + p * CacheOps.pageBytes c + bOffset b) d
        CacheOps.putEntry v q r.index
          (if lastPart b then CacheOps.mkEntry true false false false (bOperand2 b % 512) 1 p
           else CacheOps.mkEntry false false false true 0 1 p)
        pure (0, 0, [])
/-- The parent of a request is still a keyed node whose hash ok accepts. -/
def parentIs (v : Via) (c : Bytes) (nodeIn : Nat) (ok : Nat → Bool) : MM Bool := do
  let t ← CacheOps.readTree v c
  let q ← CacheOps.parentOf v c t nodeIn
  pure (q.any fun (_, hp) => ok hp)
/-- The page of a remote INSERT arrives for the loose node that its PREFIX request took; its last part keys the node with
REFS 0, or frees it when another node now holds the page's tokens or its parent is gone. -/
def recvInsert (v : Via) (c : Bytes) (now : Nat) (b d : Bytes) : MM Ans := do
  let n := (CacheOps.parseReq (bArg b)).nodeIn
  if CacheOps.tree c = 0 then pure (0, 3, [])
  else
    let t ← CacheOps.readTree v c
    match ← ownsPage v t n (pPage b) false with
    | none => pure (0, 3, [])
    | some node => do
      MM.write v (CacheOps.poolBase c + pPage b * CacheOps.pageBytes c + bOffset b) d
      if lastPart b then do
        let par := CacheOps.nParent node
        let h := CacheOps.nHash node
        match ← parentIs v c par (fun hp => CacheOps.pageHash hp (CacheOps.nTokens node) == h) with
        | false => do
          CacheOps.evict v c t n
          pure (0, 3, [])
        | true => match ← CacheOps.lookupHash v t h par (CacheOps.nTokens node) with
        | some m => do
          CacheOps.evict v c t n
          pure (0, 0, ansArg (pPage b) m h)
        | none => do
          CacheOps.keyNode v t n h (CacheOps.mkEntry true false false false 256 0 (pPage b)) par now (CacheOps.nTokens node)
          pure (0, 2, ansArg (pPage b) n h)
      else pure (0, 2, [])
/-- PAGE_WRITE, once its data have arrived. -/
def pageWrite (s : State) (x : Served) : State :=
  let c := s.cache.desc
  let b := x.blk
  let send := (CacheOps.parseReq (bArg b)).op == 7
  if role s ≠ (if send then 3 else 2) then close s x 9 0 []
  else if pBytes b ≠ CacheOps.pageBytes c then close s x 0xA 0 []
  else if !complete x then s
  else
    let v := via s x
    let now := ptpTime s
    answering s x (if send then recvSend v c now b (dataOf x) else recvInsert v c now b (dataOf x))

/-- A remote LOOKUP: a hit takes a lease of 100 ms (R191). -/
def remoteLookup (v : Via) (c : Bytes) (now nodeIn : Nat) (toks : Bytes) : MM Ans := do
  if CacheOps.tree c = 0 then pure (0, 3, [])
  else
    let t ← CacheOps.readTree v c
    match ← CacheOps.parentOf v c t nodeIn with
    | none => pure (0, 3, [])
    | some (par, hp) => do
      let h := CacheOps.pageHash hp toks
      match ← CacheOps.lookupHash v t h par toks with
      | none => pure (0, 1, [])
      | some n => do
        let b ← CacheOps.readNode v t n
        MM.put v (CacheOps.nodeAddr t n + 0x30) 4 (CacheOps.nLeases b + 1)
        MM.put v (CacheOps.nodeAddr t n + 0x28) 8 (now + 100000000)
        CacheOps.touch v t n now
        pure (0, 0, ansArg (CacheOps.ePage (CacheOps.nOwn b)) n h)
/-- A remote INSERT begins: a hit ends it; a miss takes a page and a node, loose until the page has arrived (log 30). -/
def remoteInsert (v : Via) (c : Bytes) (now nodeIn : Nat) (toks : Bytes) : MM Ans := do
  if CacheOps.tree c = 0 then pure (0, 3, [])
  else
    let t ← CacheOps.readTree v c
    match ← CacheOps.parentOf v c t nodeIn with
    | none => pure (0, 3, [])
    | some (par, hp) => do
      let h := CacheOps.pageHash hp toks
      match ← CacheOps.lookupHash v t h par toks with
      | some n => do
        let b ← CacheOps.readNode v t n
        CacheOps.touch v t n now
        pure (0, 0, ansArg (CacheOps.ePage (CacheOps.nOwn b)) n h)
      | none => do
        match ← CacheOps.popPage v c now with
        | none => pure (0xB, 0, [])
        | some p => do
          -- the eviction before the pop (R187) may have taken the parent
          match ← parentIs v c nodeIn (· == hp) with
          | false => do
            CacheOps.pushPage v c p
            pure (0, 3, [])
          | true => match ← CacheOps.takeNode v c t with
          | none => do
            CacheOps.pushPage v c p
            pure (0xB, 0, [])
          | some n => do
            CacheOps.writeNode v t n h (CacheOps.mkEntry true false false false 256 0 p) par CacheOps.none32 1 now toks
            CacheOps.putOwner v t p n
            pure (0, 2, ansArg p n h)
/-- A lease comes back for the page in OPERAND1 (log 30). -/
def remoteRelease (v : Via) (c : Bytes) (page : Nat) : MM Ans := do
  if CacheOps.tree c = 0 ∨ CacheOps.poolPages c ≤ page then pure (0, 3, [])
  else
    let t ← CacheOps.readTree v c
    let n ← CacheOps.ownerOf v t page
    match ← ownsPage v t n page true with
    | none => pure (0, 3, [])
    | some b => do
      dropLease v t n b
      pure (0, 0, [])
/-- PREFIX, once its 1,024 bytes of token IDs have arrived. -/
def prefixOp (s : State) (x : Served) : State :=
  let c := s.cache.desc
  let r := CacheOps.parseReq (bArg x.blk)
  if role s ≠ 2 then close s x 9 0 []
  else if !complete x then s
  else
    let v := via s x
    let now := ptpTime s
    let toks := dataOf x
    answering s x (if r.op = 1 then remoteLookup v c now r.nodeIn toks
      else if r.op = 2 then remoteInsert v c now r.nodeIn toks
      else if r.op = 4 then remoteRelease v c (pPage x.blk)
      else pure (0, 3, []))

/-- A served page write that ends without its last part gives back what it took (log 30). -/
def abandon (s : State) (x : Served) : State :=
  let c := s.cache.desc
  let b := x.blk
  let v := via s x
  if bOp b ≠ opPageWrite ∨ c.isEmpty then s
  else
    let r := CacheOps.parseReq (bArg b)
    let act : MM Unit := do
      if r.op = 7 then
        if bOffset b = 0 ∨ CacheOps.seqSlots c ≤ r.src then pure ()
        else
          let q ← CacheOps.readSeq v c r.src
          let e ← CacheOps.readEntry v q r.index
          if r.index < q.entries ∧ CacheOps.ePending e then do
            CacheOps.pushPage v c (CacheOps.ePage e)
            CacheOps.putEntry v q r.index 0
          else pure ()
      else if CacheOps.tree c = 0 then pure ()
      else
        let t ← CacheOps.readTree v c
        match ← ownsPage v t r.nodeIn (pPage b) false with
        | none => pure ()
        | some _ => CacheOps.evict v c t r.nodeIn
    match run s 8 act with
    | (.error (.bad l), s) => logBad s x l
    | (_, s) => s

/-- The lease of node n lapses at LEASE_UNTIL. -/
def lapse (v : Via) (c : Bytes) (now n : Nat) : MM Unit := do
  if CacheOps.tree c = 0 then pure ()
  else
    let t ← CacheOps.readTree v c
    if t.nnodes ≤ n then pure ()
    else
      let b ← CacheOps.readNode v t n
      if CacheOps.nInUse b ∧ CacheOps.nLeases b ≠ 0 ∧ CacheOps.nLeaseUntil b < now then
        MM.put v (CacheOps.nodeAddr t n + 0x30) 4 0
      else pure ()

/-! ### Operation queues (R339) -/

/-- Records of queue q that are issued and not complete. -/
def outstanding (s : State) (q : Nat) : Nat :=
  (s.fab.txns.filter fun t => match t.owner with
    | .opq p _ => p == q
    | _ => false).length
/-- Reserved bits, operation and lengths of a record. -/
def recordOk (b : Bytes) : Bool :=
  let op := fld b 0 1
  let n := fld b 0x18 4
  decide (1 ≤ op) && decide (op ≤ 5) && decide (fld b 1 1 < 2) && fld b 5 3 == 0 && fld b 0x1C 4 == 0 &&
    fld b 0x3C 4 == 0 && decide (1 ≤ n) && decide (n ≤ maxLength) && (!isAtomic op || n == 8)
/-- Issue the next record of queue q. -/
def issueRecord (s : State) (q : Nat) : State :=
  let o := Regs.opqAt s q
  let n := o.next
  if n = o.tail ∨ 64 ≤ outstanding s q ∨ s.bu.stopped then s
  else if !(txnLeft s.sched 8 && energyLeft s.sched 8) then s.setSched (markStall s.sched 8)
  else
    match readLog s q 8 (recAddr o n) 64 with
    | (.refused, s) => opqDone (putOpq s q { o with next := (n + 1) % 2 ^ 32 }) q n 0x0101 0 0
    | (.bad l, s) =>
      opqDone (logEvent (putOpq s q { o with next := (n + 1) % 2 ^ 32 })
        { status := 0x0302, source := 0x5000 + q, arg0 := l, arg1 := 0x20000 }) q n 0x0505 0 0
    | (.ok b, s) =>
      if bit (fld b 1 1) 0 ∧ o.head ≠ n then s
      else
        let s1 := putOpq s q { o with next := (n + 1) % 2 ^ 32 }
        let op := fld b 0 1
        let len := fld b 0x18 4
        let la := fld b 0x10 8
        if !recordOk b then opqDone s1 q n 0x0101 0 0
        else
          let ask : Fab.Ask := { op := op, dst := fld b 2 2, region := fld b 4 1, off := fld b 8 8, len := len,
                                 o1 := fld b 0x20 8, o2 := fld b 0x28 8 }
          if op = opRead then
            match xlatRun s.host q la len true with
            | none => opqDone s1 q n 0x0101 0 0
            | some ps => (Fab.issue s1 (.opq q n) { ask with addr := ps }).getD s
          else if op = opWrite then
            match readLog s1 q 8 la len with
            | (.refused, s1) => opqDone s1 q n 0x0101 0 0
            | (.bad l, s1) =>
              opqDone (logEvent s1 { status := 0x0302, source := 0x5000 + q, arg0 := l, arg1 := 0x20000 }) q n 0x0505 0 0
            | (.ok d, s1) => (Fab.issue s1 (.opq q n) { ask with data := d }).getD s
          else (Fab.issue s1 (.opq q n) ask).getD s

end FabServe

open Bits Ops Link Fab FabServe

/-- REQ (R331, R333, R337): received, then checked here, forwarded, or answered UNREACHABLE or HOP_LIMIT. -/
def execReq (t p : Nat) (fr : Sys2Proof.Frame) (s : State) : Out :=
  match receive (tick s t) p fr with
  | .drop s => .next s
  | .take f s => if kind f ≠ 1 then .next s else .next (pass s f fun s => arriveReq s p f)
/-- DATA (R330, R333, R334): placed by INDEX, or forwarded. -/
def execData (t p : Nat) (fr : Sys2Proof.Frame) (s : State) : Out :=
  match receive (tick s t) p fr with
  | .drop s => .next s
  | .take f s => if kind f ≠ 2 then .next s else .next (pass s f fun s => arriveData s p f)
/-- RESP (R334): completes or fails its transaction, or is forwarded. -/
def execResp (t p : Nat) (fr : Sys2Proof.Frame) (s : State) : Out :=
  match receive (tick s t) p fr with
  | .drop s => .next s
  | .take f s => if kind f ≠ 3 then .next s else .next (pass s f fun s => arriveResp s p f)
/-- READ (R333). -/
def execRead (src tag : Nat) (s : State) : Out := .next (onServed s src tag opRead FabServe.read)
/-- WRITE (R333). -/
def execWrite (src tag : Nat) (s : State) : Out := .next (onServed s src tag opWrite FabServe.write)
/-- FETCH_ADD (R332, R333). -/
def execFetchAdd (src tag : Nat) (s : State) : Out := .next (onServed s src tag opFetchAdd FabServe.atomic)
/-- CMP_SWAP (R332, R333). -/
def execCmpSwap (src tag : Nat) (s : State) : Out := .next (onServed s src tag opCmpSwap FabServe.atomic)
/-- SWAP (R332, R333). -/
def execSwap (src tag : Nat) (s : State) : Out := .next (onServed s src tag opSwap FabServe.atomic)
/-- PAGE_READ (R333, spec/08_attention_and_paged_cache.md R191). -/
def execPageRead (src tag : Nat) (s : State) : Out := .next (onServed s src tag opPageRead FabServe.pageRead)
/-- PAGE_WRITE (R333, spec/08_attention_and_paged_cache.md R191). -/
def execPageWrite (src tag : Nat) (s : State) : Out := .next (onServed s src tag opPageWrite FabServe.pageWrite)
/-- PREFIX (spec/08_attention_and_paged_cache.md R191). -/
def execPrefixRequest (src tag : Nat) (s : State) : Out := .next (onServed s src tag opPrefix FabServe.prefixOp)

/-- TRANSACTION_TIMEOUT (R334): no completion 10 ms after the REQ; the TAG rests for 20 ms. -/
def execTransactionTimeout (t tag : Nat) (s : State) : Out :=
  let s := tick s t
  match s.fab.txns.find? (·.tag == tag) with
  | none => .next s
  | some x =>
    if t < x.issued + 10000000 then .next s
    else
      let s := s.setFab { s.fab with cooling := s.fab.cooling ++ [(tag, t + 20000000)] }
      .next (Fab.finish s x 0x0505 0 0 [])
/-- TARGET_WRITE_TIMEOUT (R333): an incomplete write is discarded with no RESP 10 ms after its REQ. -/
def execTargetWriteTimeout (t src tag : Nat) (s : State) : Out :=
  let s := tick s t
  match servedAt s src tag with
  | none => .next s
  | some x =>
    if writes (bOp x.blk) && !FabServe.complete x && decide (x.time + 10000000 ≤ t) then
      .next (abandon (dropServed s x) x)
    else .next s
/-- OPQ_RECORD_ISSUE (R339, R335): the next record of queue q. -/
def execOpqRecordIssue (q : Nat) (s : State) : Out := if q < 16 then .next (issueRecord s q) else .next s
/-- LEASE_LAPSE (spec/08_attention_and_paged_cache.md R191): the leases of node n of the serving tree. -/
def execLeaseLapse (t n : Nat) (s : State) : Out :=
  let s := tick s t
  if s.cache.role = 0 then .next s
  else match JobOps.run s 10 (lapse (Mbox.mpVia s) s.cache.desc (ptpTime s) n) with
    | (.error (.bad l), s) => .next (logEvent s { status := 0x0302, source := 0x2015, arg0 := l, arg1 := 0x10015 })
    | (_, s) => .next s

end Machine
end Sys2Proof
end

