-- ==== Sys2Proof/Machine/FabricPorts.lean ====
section
/-! DEFINITION. Commands of the fabric ports: training, IDLE and LINK frames, and the ports' timers
(spec/14_twisil_fabric.md R320 to R327, R338). -/

namespace Sys2Proof
namespace Machine

open Bits Ops Link

namespace Link

/-- Every byte of a link block outside the given ranges is 0 (R327). -/
def zeroOutside (b : Bytes) (used : List (Nat × Nat)) : Bool :=
  b.zipIdx.all fun (x, i) => x == 0#8 || used.any fun (o, n) => decide (o ≤ i) && decide (i < o + n)
/-- The link block breaks R327. -/
def linkBad (b : Bytes) : Bool :=
  match fld b 0 1 with
  | 1 => !zeroOutside b [(0, 1), (4, 3)]
  | 2 => !zeroOutside b [(0, 1), (8, 12)]
  | 3 => !zeroOutside b [(0, 1), (2, 2)]
  | 4 => !zeroOutside b [(0, 4), (0x14, 12)]
  | 5 => !zeroOutside b [(0, 2)]
  | _ => true

/-- Receive a LINK frame and act on it if its block is sound and has the given SUB. -/
def onLink (s : State) (t p sub : Nat) (fr : Sys2Proof.Frame) (act : Bytes → State → State) : State :=
  match receive (tick s t) p fr with
  | .drop s => s
  | .take f s =>
    if kind f ≠ 4 then s
    else if linkBad f.payload then violateNak s p 0x03 f
    else if fld f.payload 0 1 = sub then act f.payload s else s

end Link

/-- PORT_TRAINING (R319, R321): an attempt to reach lock at the generation in training ends. -/
def execPortTraining (t p : Nat) (locked : Bool) (s : State) : Out :=
  let s := tick s t
  let x := portAt s p
  if x.state ≠ .training ∨ x.stage % 2 = 1 then .next s
  else if locked then
    .next (sendHello (putPort s p { x with stage := x.stage + 1 }) p)
  else .next (lockFails s p)

/-- TRAINING_LOCK_TIMEOUT (R321): no lock within 250 ms. -/
def execTrainingLockTimeout (t p : Nat) (s : State) : Out :=
  let s := tick s t
  let x := portAt s p
  if x.state ≠ .training ∨ x.stage % 2 = 1 then .next s else .next (lockFails s p)

/-- PORT_RETRY_TIMER (R321): a DOWN port starts again at step 1 after 1 s. -/
def execPortRetryTimer (t p : Nat) (s : State) : Out :=
  let s := tick s t
  let x := portAt s p
  let c := cfgAt s p
  if x.state = .down ∧ c.enable ∧ ¬ c.qmark ∧ x.downAt + 1000000000 ≤ t then .next (train s p) else .next s

/-- SYNDROME_LOCK_LOSS (R320, R325): codeword alignment is lost; the port leaves UP and trains again. -/
def execSyndromeLockLoss (t p : Nat) (s : State) : Out :=
  let s := tick s t
  if (portAt s p).state = .up then .next (leaveUp s p) else .next s

/-- IDLE (R324): its ACK counts. -/
def execIdle (t p : Nat) (fr : Sys2Proof.Frame) (s : State) : Out :=
  match receive (tick s t) p fr with
  | .drop s => .next s
  | .take _ s => .next s

/-- LINK_HELLO (R321): the offers give the final generation; at it, the exchange brings the port UP. -/
def execLinkHello (t p : Nat) (fr : Sys2Proof.Frame) (s : State) : Out :=
  .next (onLink s t p 1 fr fun b s =>
    let x := portAt s p
    let x := { x with partner := fld b 4 2, partnerOffer := fld b 6 1 }
    if x.state = .training ∧ x.stage = 1 then
      putPort s p { x with stage := 2, tryGen := max 1 (min (offer s p) x.partnerOffer) }
    else if x.state = .training ∧ x.stage = 3 then enterUp (putPort s p x) p
    else putPort s p x)

/-- LINK_CREDIT (R326): cumulative totals of the partner. -/
def execLinkCredit (t p : Nat) (fr : Sys2Proof.Frame) (s : State) : Out :=
  .next (onLink s t p 2 fr fun b s =>
    let x := portAt s p
    if x.state = .up then
      let g := fun v => fld b (8 + 4 * v) 4
      drainQueue (putPort s p { x with granted := [(0, g 0), (1, g 1), (2, g 2)] }) p
    else s)

/-- LINK_REPLAY (R325): resend in order from the named SEQ; after 8 replays of one SEQ without progress, retrain. -/
def execLinkReplay (t p : Nat) (fr : Sys2Proof.Frame) (s : State) : Out :=
  .next (onLink s t p 3 fr fun b s =>
    let x := portAt s p
    let q := fld b 2 2
    if x.state ≠ .up then s
    else if x.tries = (q, 8) then leaveUp (putPort s p { x with tries := (0, 0) }) p
    else
      let n := if x.tries.1 = q then x.tries.2 + 1 else 1
      let s := putPort s p { x with tries := (q, n) }
      (x.unacked.dropWhile fun e => e.1 != q).foldl (fun s e => wire s p e.1 e.2) s)

/-- LINK_NAK (R337): the partner refused a frame; the spec states no effect on the sender. -/
def execLinkNak (t p : Nat) (fr : Sys2Proof.Frame) (s : State) : Out :=
  .next (onLink s t p 4 fr fun _ s => s)

/-- LINK_QUARANTINE (R338): this end goes DOWN. -/
def execLinkQuarantine (t p : Nat) (fr : Sys2Proof.Frame) (s : State) : Out :=
  .next (onLink s t p 5 fr fun _ s => linkTrainDone (goDown s p))

/-- REPLAY_REQUEST_REPEAT (R324): every 2 us until the expected frame arrives. -/
def execReplayRequestRepeat (t p : Nat) (s : State) : Out :=
  let s := tick s t
  let x := portAt s p
  if x.state = .up ∧ x.replaying then .next (sendReplay s p) else .next s

/-- IDLE_SEND_TIMER (R324, R338). -/
def execIdleSendTimer (t p : Nat) (s : State) : Out :=
  let s := tick s t
  let st := (portAt s p).state
  if st = .up ∨ st = .quarantined then .next (sendIdle s p) else .next s

/-- CREDIT_RETURN_TIMER (R326): cumulative totals modulo 2^32, while they change. -/
def execCreditReturnTimer (t p : Nat) (s : State) : Out :=
  let s := tick s t
  let x := portAt s p
  if x.state = .up ∧ x.freed ≠ x.returned then
    let g := fun v => Sparse.getD x.freed v 0 % 2 ^ 32
    .next (sendLink (putPort s p { x with returned := x.freed }) p (linkBlock 2 0 0 0 0 (g 0) (g 1) (g 2) []))
  else .next s

/-- QUARANTINE_BEACON (R338): one LINK QUARANTINE every 1 ms. -/
def execQuarantineBeacon (t p : Nat) (s : State) : Out :=
  let s := tick s t
  if (portAt s p).state = .quarantined then .next (sendLink s p (linkBlock 5 0x0C 0 0 0 0 0 0 [])) else .next s

/-- FORWARD_QUEUE_TIMEOUT (R329): frames held for forwarding for more than 10 ms are dropped; a frame of this module has
HOPS 0, a forwarded one more. -/
def execForwardQueueTimeout (t p : Nat) (s : State) : Out :=
  let s := tick s t
  let x := portAt s p
  .next (putPort s p { x with queue := x.queue.filter fun e => hops e.2 == 0 || decide (t ≤ e.1 + 10000000) })

end Machine
end Sys2Proof
end

