-- ==== Sys2Proof/Machine/Decoding.lean ====
section
/-! DEFINITION. Video decode: session records, picture buffers, resynchronisation, concealment, picture records
(spec/12_decode_and_ingest.md R268 to R281). What a standard's syntax says at a byte of an access unit, and the samples it
stands for, are functions with no body of what R271 lets them depend on (log 31). -/

namespace Sys2Proof
namespace Machine
namespace Dec

open Bits Ops JobOps Codecs

/-! ### The session record (R273) -/

def codec (b : Bytes) : Nat := fld b 0 1
def depth (b : Bytes) : Nat := fld b 1 1
def maxW (b : Bytes) : Nat := fld b 2 2
def maxH (b : Bytes) : Nat := fld b 4 2
def nbuf (b : Bytes) : Nat := fld b 6 1
def fpsNum (b : Bytes) : Nat := fld b 8 4
def fpsDen (b : Bytes) : Nat := fld b 0xC 4
def pool (b : Bytes) : Nat := fld b 0x10 8
def bufBytes (b : Bytes) : Nat := fld b 0x18 4
def pitch (b : Bytes) : Nat := fld b 0x1C 4
def gen (b : Bytes) : Nat := fld b 0x20 8
def state (b : Bytes) : Nat := fld b 0x28 8
def out (b : Bytes) : Nat := fld b 0x30 8
def stateBytes : Nat := 65536
/-- Bytes of the luma plane of a buffer, and planes of buffer i. -/
def lumaBytes (b : Bytes) : Nat := pitch b * up (maxH b) 16
def bufY (b : Bytes) (i : Nat) : Nat := pool b + i * bufBytes b
def bufUV (b : Bytes) (i : Nat) : Nat := bufY b i + lumaBytes b
def sessionOk (b : Bytes) : Bool :=
  decide (1 ≤ codec b) && decide (codec b ≤ 4) && (depth b == 8 || depth b == 10) &&
  maxW b % 2 == 0 && decide (64 ≤ maxW b) && decide (maxW b ≤ 7680) && maxH b % 2 == 0 && decide (64 ≤ maxH b) &&
  decide (maxH b ≤ 4320) && decide (2 ≤ nbuf b) && decide (nbuf b ≤ 64) && fld b 7 1 == 0 &&
  decide (1 ≤ fpsNum b) && decide (fpsNum b ≤ 240000) && decide (1 ≤ fpsDen b) && decide (fpsDen b ≤ 1001000) &&
  decide (fpsNum b ≤ 240 * fpsDen b) && pool b % 4096 == 0 && bufBytes b % 4096 == 0 && pitch b % 64 == 0 &&
  decide (maxW b * (if depth b = 10 then 2 else 1) ≤ pitch b) &&
  decide (lumaBytes b + pitch b * (up (maxH b) 16 / 2) ≤ bufBytes b) && state b % 4096 == 0 && out b % 64 == 0 &&
  fld b 0x38 8 == 0

/-! ### Picture buffers (R274) -/

/-- Buffers that a decoded picture of the job holds until its record is written. -/
def reserved (j : Job) (key : Nat) : List Nat :=
  let of := fun (p : PicOut) => if p.area = key ∧ !p.sess.isEmpty ∧ fld p.recd 0 8 ≠ 0 then some (fld p.recd 0x19 1) else none
  (j.hexec.flatMap fun x => match x.work with
    | .dec w => w.out.filterMap of
    | _ => []) ++ j.ingest.flatMap fun (_, r) => r.items.filterMap fun i => of i.pic
/-- Pictures of an area that keep their buffer: references, and those whose record is still to be released. -/
def keeping (a : DecArea) : List DecPic := a.pics.filter fun p => p.held || a.refs.contains p.num
/-- Buffers that the decoder may write. -/
def freeBufs (v : Via) (b : Bytes) (a : DecArea) (held : List Nat) : MM (List Nat) := do
  let g ← MM.read v (gen b) (8 * nbuf b)
  let used := (keeping a).map (·.buf) ++ held
  pure ((List.range (nbuf b)).filter fun i => !used.contains i && fld g (4 * i) 4 == fld g (4 * (nbuf b + i)) 4)

/-! ### What a decoder reads (R268, R271, R277, R278) -/

/-- Everything that R271 lets a decoded picture depend on. -/
structure View where
  version : Word
  sess    : Bytes
  area    : DecArea
  data    : Bytes
def view (ver : Word) (w : DecWork) : View := ⟨ver, w.sess, w.area, w.data⟩
/-- The header of the next picture of an access unit. -/
def headAt (v : View) (pos : Nat) : PicHead := Config.decodedHead v pos
/-- The sequence of a picture is one the session accepts (R268, R274). Codes of levels are R239's, VP9's 10 times the level
(PRESUMED, log 31). -/
def accepts (b : Bytes) (h : PicHead) : Bool :=
  decide (h.width ≤ maxW b) && decide (h.height ≤ maxH b) && (h.depth == 8 || h.depth == 10) && decide (h.depth ≤ depth b) &&
  h.chroma == 1 && !h.high && h.frames && decide (h.dpb ≤ nbuf b - 1) &&
  (if codec b = 1 then h.profile == 0 && decide (h.level ≤ 17)
   else if codec b = 2 then ((h.profile == 1 && h.depth == 8) || h.profile == 2) && decide (h.level ≤ 183)
   else if codec b = 3 then (h.profile == 100 || (h.profile == 66 && h.constrained)) && h.depth == 8 && decide (h.level ≤ 62)
   else ((h.profile == 0 && h.depth == 8) || (h.profile == 2 && h.depth == 10)) && decide (h.level ≤ 61))

/-- A NAL unit header byte is that of a slice: nal_unit_type 1 or 5 in AVC, a VCL type in HEVC (PRESUMED: the standards'
codes, log 31). -/
def isSlice (codec : Nat) (h : Byte) : Bool :=
  if codec = 3 then h.toNat % 32 == 1 || h.toNat % 32 == 5 else decide (h.toNat / 2 % 64 ≤ 31)
/-- Offset of the first start code of a slice NAL unit among bytes that begin at offset i. -/
def nextNal (codec : Nat) : Nat → Bytes → Option Nat
  | _, [] => none
  | i, a :: l => match l with
    | b :: c :: h :: _ =>
      if a = 0#8 ∧ b = 0#8 ∧ c = 1#8 ∧ isSlice codec h then some i else nextNal codec (i + 1) l
    | _ => none
/-- Value and length of a leb128 number of at most k bytes. -/
def leb128 : Nat → Bytes → Nat × Nat
  | 0, _ => (0, 0)
  | _, [] => (0, 0)
  | k + 1, b :: l =>
    if b.toNat < 128 then (b.toNat, 1)
    else
      let (v, n) := leb128 k l
      (b.toNat % 128 + 128 * v, n + 1)
/-- Offset and type of each OBU from offset i on, at most k of them (PRESUMED: the standard's header, log 31). -/
def obus (data : Bytes) : Nat → Nat → List (Nat × Nat)
  | 0, _ => []
  | k + 1, i =>
    if data.length ≤ i then []
    else
      let h := fld data i 1
      let e := i + 1 + ofBool (bit h 2)
      let (v, n) := leb128 8 (data.drop e)
      (i, field h 6 3) :: obus data k (e + n + v)
/-- The resynchronisation point after offset p: where the next slice, tile group or frame of the same picture begins, whose
bytes end at `stop`; none where the next access unit or frame is the point (R278). -/
def resync (codec : Nat) (data : Bytes) (p stop : Nat) : Option Nat :=
  let q := if codec = 1 then ((obus data data.length 0).find? fun (i, t) => decide (p ≤ i) && (t == 4 || t == 6)).map (·.1)
    else if codec = 4 then none
    else nextNal codec p (data.drop p)
  q.filter fun i => decide (i < stop)
/-- The slices, tile groups or frames of a picture from offset p on: after a syntax error parsing resumes at the
resynchronisation point (R277, R278). -/
def slicesFrom (v : View) (h : PicHead) : Nat → Nat → List SliceOut
  | 0, _ => []
  | k + 1, p =>
    let s : SliceOut := Config.decodedSlice v h p
    let after := match s.error with
      | some (e, _) => e + 1
      | none => max s.stop (p + 1)
    s :: match resync (codec v.sess) v.data after h.stop with
      | some q => slicesFrom v h k q
      | none => []
/-- What decoding finds of a picture. -/
structure Found where
  /-- the first syntax error: offset, and the block being decoded when it was found (R277) -/
  error   : Option (Nat × Nat)
  /-- damaged 16 x 16 blocks in raster order: those that no slice decoded before an error covers, and all of them after a
  header error (R278, R279) -/
  damaged : List Nat
  /-- vectors of the decoded inter-coded blocks -/
  vectors : List (Nat × Int × Int)
def found (v : View) (h : PicHead) : Found :=
  let n := ceilDiv h.width 16 * ceilDiv h.height 16
  match h.error with
  | some e => ⟨some (e, 0), List.range n, []⟩
  | none =>
    let l := slicesFrom v h v.data.length h.data
    let done := l.flatMap (·.blocks)
    ⟨l.findSome? (·.error), (List.range n).filter fun k => !done.any (·.1 == k),
      done.filterMap fun (k, m) => m.map fun x => (k, x)⟩

/-! ### Concealment (R279, R280) -/

def lumaAt (p : Planes) (x y : Int) : Bytes :=
  let cx := (max 0 (min ((p.w : Int) - 1) x)).toNat
  let cy := (max 0 (min ((p.h : Int) - 1) y)).toNat
  slice p.luma ((cy * p.w + cx) * p.n) p.n
def chromaAt (p : Planes) (k : Nat) (x y : Int) : Bytes :=
  let cw := ceilDiv p.w 2
  let cx := (max 0 (min ((cw : Int) - 1) x)).toNat
  let cy := (max 0 (min ((ceilDiv p.h 2 : Nat) - 1 : Int) y)).toNat
  slice p.chroma ((2 * (cy * cw + cx) + k) * p.n) p.n
def median (a b c : Int) : Int := max (min a b) (min (max a b) c)
/-- The vector of a damaged block, from its undamaged inter-coded neighbours: left, above, above-right. -/
def vectorOf (bw : Nat) (vecs : List (Nat × Int × Int)) (bad : List Nat) (k : Nat) : Int × Int :=
  let x := k % bw
  let y := k / bw
  let at_ := fun (ok : Bool) (i : Nat) => if ok && !bad.contains i then vecs.find? (·.1 == i) else none
  let nb := [at_ (decide (1 ≤ x)) (k - 1), at_ (decide (1 ≤ y)) (k - bw),
    at_ (decide (1 ≤ y) && decide (x + 1 < bw)) (k - bw + 1)].filterMap id
  match nb with
  | [a, b, c] => (median a.2.1 b.2.1 c.2.1, median a.2.2 b.2.2 c.2.2)
  | a :: _ => (a.2.1, a.2.2)
  | [] => (0, 0)
/-- Sample bytes of mid grey. -/
def grey (n : Nat) : Bytes := if n = 2 then toLe 2 (512 * 64) else [128#8]
/-- p with 16 x 16 block k filled from ref displaced by vi, or with grey. -/
def fill (p : Planes) (ref : Option Planes) (k : Nat) (v : Int × Int) : Planes :=
  let bw := ceilDiv p.w 16
  let bx := 16 * (k % bw)
  let by_ := 16 * (k / bw)
  let vx := (v.1 + 2) / 4
  let vy := (v.2 + 2) / 4
  let pick := fun (f : Planes → Bytes) => match ref with
    | some r => f r
    | none => grey p.n
  let w := min 16 (p.w - bx)
  let h := min 16 (p.h - by_)
  let luma := (List.range h).foldl (fun (l : Bytes) y =>
    splice l (((by_ + y) * p.w + bx) * p.n) ((List.range w).flatMap fun x =>
      pick fun r => lumaAt r ((bx + x : Nat) + vx) ((by_ + y : Nat) + vy))) p.luma
  let chroma := (List.range (ceilDiv h 2)).foldl (fun (l : Bytes) y =>
    splice l (((by_ / 2 + y) * (2 * ceilDiv p.w 2) + bx) * p.n) ((List.range (ceilDiv w 2)).flatMap fun x =>
      (pick fun r => chromaAt r 0 ((bx / 2 + x : Nat) + vx / 2) ((by_ / 2 + y : Nat) + vy / 2)) ++
      (pick fun r => chromaAt r 1 ((bx / 2 + x : Nat) + vx / 2) ((by_ / 2 + y : Nat) + vy / 2)))) p.chroma
  { p with luma := luma, chroma := chroma }
/-- Every damaged block filled in raster order from ref; a picture with no reference list copies with vector 0. -/
def conceal (p : Planes) (ref : Option Planes) (own : Bool) (f : Found) : Planes :=
  f.damaged.foldl (fun p k => fill p ref k (if own then vectorOf (ceilDiv p.w 16) f.vectors f.damaged k else (0, 0))) p

/-- The layer of a picture (R280). -/
def layerOf (b : Bytes) (h : PicHead) : Nat := if codec b = 1 then h.layer else 0
/-- The substitute of a missing reference: the picture of the layer decoded most recently (R280). -/
def substitute (a : DecArea) (layer : Nat) : Option DecPic :=
  (a.pics.filter (·.layer == layer)).foldl (fun (m : Option DecPic) p => match m with
    | some q => if q.num < p.num then some p else m
    | none => some p) none
/-- A picture that the decoder holds as a reference. -/
def held? (a : DecArea) (n : Nat) : Option DecPic := if a.refs.contains n then a.pics.find? (·.num == n) else none
/-- A reference that the picture names is missing (R280). -/
def missing (a : DecArea) (h : PicHead) : Bool := h.names.any fun n => (held? a n).isNone
/-- What the picture decodes from for each picture it names, in their order; none for a picture of mid grey. -/
def sources (a : DecArea) (b : Bytes) (h : PicHead) : List (Option DecPic) :=
  h.names.map fun n => match held? a n with
    | some p => some p
    | none => substitute a (layerOf b h)
/-- What concealment copies from: the first picture of reference list 0, or the substitute where the picture has no list.
A missing first reference is its substitute (DEDUCED, log 31). -/
def concealFrom (a : DecArea) (b : Bytes) (h : PicHead) : Option DecPic :=
  match sources a b h with
  | p :: _ => p
  | [] => substitute a (layerOf b h)
/-- Lines of a plane in memory, without the bytes between width and pitch. -/
def readPlane (v : Via) (a pitch w h : Nat) : MM Bytes := do
  let l ← (List.range h).mapM fun y => MM.read v (a + y * pitch) w
  pure l.flatten
def writePlane (v : Via) (a pitch w h : Nat) (b : Bytes) : MM Unit := do
  let _ ← (List.range h).mapM fun y => MM.write v (a + y * pitch) (slice b (y * w) w)
  pure ()

/-- The planes of a decoded picture, as its buffer holds them. -/
def planesOf (v : Via) (b : Bytes) (p : DecPic) : MM Planes := do
  let l ← readPlane v (bufY b p.buf) (pitch b) (p.width * p.n) p.height
  let c ← readPlane v (bufUV b p.buf) (pitch b) (2 * ceilDiv p.width 2 * p.n) (ceilDiv p.height 2)
  pure ⟨p.width, p.height, p.n, l, c⟩
def planesOf? (v : Via) (b : Bytes) : Option DecPic → MM (Option Planes)
  | some p => do
    let q ← planesOf v b p
    pure (some q)
  | none => pure none

/-! ### Picture records (R276, R277, R281) -/

def damaged (f : Found) : Bool := f.error.isSome || !f.damaged.isEmpty
/-- CONCEALED (R281): damaged, substituted, or decoded from a CONCEALED picture. -/
def concealed (a : DecArea) (b : Bytes) (h : PicHead) (f : Found) : Bool :=
  damaged f || missing a h || (!h.intra && (sources a b h).any fun p => match p with
    | some p => p.concealed
    | none => false)
/-- ERR_BYTE and ERR_BLOCK. -/
def errorAt (f : Found) : Nat × Nat :=
  match f.error with
  | some (x, k) => (x, f.damaged.headD k)
  | none => (0, f.damaged.headD 0)
/-- The record of a decoded picture in buffer i, its GEN to come. -/
def record (b : Bytes) (a : DecArea) (h : PicHead) (f : Found) (ts i : Nat) : Bytes :=
  let d := damaged f
  let sub := missing a h
  let con := concealed a b h f
  toLe 8 (bufY b i) ++ toLe 8 (bufUV b i) ++ toLe 4 (pitch b) ++ toLe 2 h.width ++ toLe 2 h.height ++
    toLe 1 h.depth ++ toLe 1 i ++ toLe 1 0 ++ toLe 1 0 ++ toLe 4 0 ++ toLe 8 ts ++ toLe 4 a.count ++
    toLe 2 (if d then 0x0701 else if sub then 0x0702 else 0) ++
    toLe 2 (ofBool d + 2 * ofBool sub + 4 * ofBool con + 8 * ofBool h.grain) ++ toLe 4 (errorAt f).1 ++ toLe 4 (errorAt f).2 ++
    toLe 4 f.damaged.length ++ zeros 4
/-- The record of an unsupported sequence. -/
def noPicture (ts : Nat) : Bytes := zeros 0x20 ++ toLe 8 ts ++ zeros 4 ++ toLe 2 0x0707 ++ zeros 18
/-- Events of picture number num, damaged or substituted (R277, R280). -/
def report (s : State) (j : Job) (addr num : Nat) (h : PicHead) (f : Found) (sub : Bool) : State :=
  let src := sourceOf s false addr j.fn
  let s := if damaged f then
      logEvent s { status := 0x0701, source := src, fn := j.fn, relanes := j.relanes, arg0 := addr,
                   arg1 := num * 2 ^ 32 + (errorAt f).1 }
    else s
  if sub then
    logEvent s { status := 0x0702, source := src, fn := j.fn, relanes := j.relanes, arg0 := addr,
                 arg1 := num * 2 ^ 32 + h.nameAt }
  else s

/-- The pictures of an area after one with header h joined them: those that are references, still to be released, or the
latest of their layer. -/
def prune (a : DecArea) : DecArea :=
  { a with pics := a.pics.filter fun p => p.held || a.refs.contains p.num || substitute a p.layer == some p }
/-- The picture with header h is decoded into a free buffer, as free value number fr chooses among them; none when no
buffer is free. -/
def decode (v : Via) (ver : Word) (w : DecWork) (held : List Nat) (fr ts : Nat) (h : PicHead) : MM (Option DecArea) := do
  let b := w.sess
  let a := w.area
  let fs ← freeBufs v b a held
  if fs.isEmpty then pure none
  else
    let i := fs.getD ((Config.freeValue fr).toNat % fs.length) 0
    let n := if h.depth = 10 then 2 else 1
    let f := found (view ver w) h
    let refs ← (sources a b h).mapM (planesOf? v b)
    let from_ ← (if f.damaged.isEmpty then pure none else planesOf? v b (concealFrom a b h) : MM (Option Planes))
    let raw := Config.decodedPlanes (view ver w, h) refs
    let y := h.width * h.height * n
    let cw := 2 * ceilDiv h.width 2 * n
    let ch := ceilDiv h.height 2
    let p := conceal ⟨h.width, h.height, n, slice raw.1 0 y, slice raw.2 0 (cw * ch)⟩ from_ (!h.names.isEmpty) f
    writePlane v (bufY b i) (pitch b) (h.width * n) h.height p.luma
    writePlane v (bufUV b i) (pitch b) cw ch p.chroma
    let pic : DecPic := ⟨a.count, layerOf b h, concealed a b h f, i, h.width, h.height, n, ts, h.order, !h.hidden,
      record b a h f ts i⟩
    pure (some (prune { a with count := a.count + 1, pics := a.pics ++ [pic], refs := h.keeps }))

/-! ### Output order (R275, R276) -/

/-- A picture inserted in output order, after those of equal place. -/
def insert (p : DecPic) : List DecPic → List DecPic
  | [] => [p]
  | q :: l => if p.order < q.order then p :: q :: l else q :: insert p l
/-- Pictures to be released, in output order. -/
def queued (a : DecArea) : List DecPic := (a.pics.filter (·.held)).foldl (fun l p => insert p l) []
/-- The first k of them are released. -/
def release (a : DecArea) (k : Nat) : List DecPic × DecArea :=
  let l := (queued a).take k
  (l, { a with pics := a.pics.map fun p => if l.contains p then { p with held := false } else p })

/-- A record is about to be written: OUT_GEN of its buffer is incremented and copied into GEN (R274). -/
def stamp (v : Via) (p : PicOut) : MM Bytes := do
  if fld p.recd 0 8 = 0 ∨ p.sess.isEmpty then pure p.recd
  else
    let a := gen p.sess + 4 * fld p.recd 0x19 1
    let g ← MM.get v a 4
    let g := (g + 1) % 2 ^ 32
    MM.put v a 4 g
    pure (splice p.recd 0x1C (toLe 4 g))
/-- Write a record to the ring at address a; false where it lacks room. -/
def deliver (v : Via) (a : Nat) (p : PicOut) : MM Bool := do
  let r ← readRing v a
  if hasRoom r 64 then do
    let b ← stamp v p
    putRing v r b
    pure true
  else pure false

/-! ### The DEC execution (R272, R275) -/

/-- END of an access unit record, and its time. -/
def endSet (u : Bytes) : Bool := bit (fld u 0xC 4) 0
def tsOf (u : Bytes) : Nat := fld u 0x10 8
/-- What execution n reads at its grant: its session, its access unit record and, in a well-formed session, the head of the
state area and the access unit. -/
def fetch (v : Via) (x : Bytes) (n : Nat) : MM (Bytes × Bytes × Option (Bytes × Bytes)) := do
  let b ← MM.read v (fld x 0x20 8) 64
  let u ← MM.read v (fld x 0x28 8 + 32 * n) 32
  if sessionOk b then do
    let h ← MM.read v (state b) 4096
    let d ← MM.read v (fld u 0 8) (fld u 8 4)
    pure (b, u, some (h, d))
  else pure (b, u, none)
/-- The work of an access unit. -/
def work (addr : Nat) (b : Bytes) (a : DecArea) (key : Nat) (unit data : Bytes) : DecWork :=
  { addr := addr, sess := b, area := a, key := key, unit := unit, data := data, pos := 0, last := false, out := [],
    started := true, fin := false }
def start (s : State) (j : Job) (d n : Nat) : State :=
  let x := j.descAt d
  if fld x 0x30 4 ≤ n then Hub.grant s j.id d n .plain
  else
    let v := Hub.viaOf s j Hub.dec d
    let addr := fld x 0x20 8
    match run s 7 (fetch v x n) with
    | (.error e, s) => Hub.workFails s j d e
    | (.ok (_, _, none), s) => Hub.endWith s j.id d 0x0707
    | (.ok (b, u, some (h, data)), s) =>
      let a := decAreaOf s h
      if a.closed then Hub.endWith s j.id d 0x0707
      else match Codecs.bind s false j addr 0 (units (maxW b) (maxH b) (fpsNum b) (fpsDen b)) with
        | .other => Hub.endWith s j.id d 0x0707
        | .full => Hub.endWith s j.id d 0x0706
        | .ok s _ => Hub.grant s j.id d n (.dec (work addr b a (keyOf v (state b)) u data))

/-- The access unit is decoded: the session's state area is written, and END closes the session. -/
def decoded (s : State) (j : Job) (st d n : Nat) (w : DecWork) (close : Bool) : Option State :=
  let v := Hub.viaOf s j st d
  let a := { w.area with closed := close, ctx := Config.decodedContext (view (microcode s) w) }
  let e := engineOf s false w.addr j.fn
  match run s 7 (MM.write v (state w.sess) (image (microcode s) (e, a) stateBytes)) with
  | (.error _, _) => none
  | (.ok _, s) =>
    let s := s.setCodec { s.codec with decAreas := (e, a) :: s.codec.decAreas }
    let s := Codecs.release s false w.addr j.fn close
    some (Hub.setExec s j.id ⟨d, n, .dec { w with area := a, fin := true }⟩)
/-- The access unit holds no further picture, and every record it released is written. -/
def ended (w : DecWork) : Bool := w.last && w.out.isEmpty
/-- The DEC execution completes. -/
def finish (s : State) (j : Job) (d n : Nat) (w : DecWork) : State :=
  if !ended w then s
  else match decoded s j Hub.dec d n w (endSet w.unit) with
    | none => Hub.endWith (Codecs.release (Hub.dropExec s j.id d n) false w.addr j.fn false) j.id d 0x0209
    | some s => Hub.completed s j.id d n

end Dec
end Machine
end Sys2Proof
end

