-- ==== Sys2Proof/Machine/Ingesting.lean ====
section
/-! DEFINITION. Ingest queues and live groups (spec/12_decode_and_ingest.md R282 to R288), and the commands of DEC and
INGEST executions. -/

namespace Sys2Proof
namespace Machine
namespace Ing

open Bits Ops JobOps Codecs

/-! ### Queue header and entries (R283) -/

structure Queue where
  addr  : Nat
  base  : Nat
  size  : Nat
  write : Nat
  read  : Nat
  late  : Nat
  dropped : Nat
  /-- the reserved bytes are 0 -/
  clear : Bool

def readQueue (v : Via) (a : Nat) : MM Queue := do
  let b ← MM.read v a 64
  pure ⟨a, fld b 0 8, fld b 8 4, fld b 0xC 4, fld b 0x10 4, fld b 0x14 4, fld b 0x18 4, allZero (slice b 0x1C 36)⟩
def queueOk (q : Queue) : Bool :=
  q.base % 64 == 0 && decide (1 ≤ q.size) && decide (q.size ≤ 65536) && popcount 32 q.size == 1 && q.clear
/-- Entry n has been written. -/
def written (q : Queue) (n : Nat) : Bool :=
  let k := (q.write + 2 ^ 32 - n % 2 ^ 32) % 2 ^ 32
  decide (1 ≤ k) && decide (k ≤ q.size)
def readEntry (v : Via) (q : Queue) (n : Nat) : MM Bytes := MM.read v (q.base + 64 * (n % max 1 q.size)) 64
def eSession (b : Bytes) : Nat := fld b 0 8
def eData (b : Bytes) : Nat := fld b 8 8
def eLength (b : Bytes) : Nat := fld b 0x10 4
def eKind (b : Bytes) : Nat := fld b 0x14 1
def eSource (b : Bytes) : Nat := fld b 0x15 1
def eEnd (b : Bytes) : Bool := bit (fld b 0x16 2) 0
def eTs (b : Bytes) : Nat := fld b 0x18 8
def eSamples (b : Bytes) : Nat := fld b 0x20 4
def eChannels (b : Bytes) : Nat := fld b 0x24 1

/-! ### Group record (R285) -/

def nsrc (g : Bytes) : Nat := fld g 0 1
def isAudio (g : Bytes) (s : Nat) : Bool := bit (fld g 2 2) s
def period (g : Bytes) : Nat := fld g 4 4
def window (g : Bytes) : Nat := fld g 8 4
def audBytes (g : Bytes) : Nat := fld g 0xC 4
def t0 (g : Bytes) : Nat := fld g 0x10 8
def audDst (g : Bytes) : Nat := fld g 0x18 8
def groupOk (g : Bytes) : Bool :=
  decide (1 ≤ nsrc g) && decide (nsrc g ≤ 16) && fld g 1 1 == 0 && decide (1000000 ≤ period g) &&
  decide (period g ≤ 1000000000) && decide (window g ≤ 40000000) && allZero (slice g 0x20 32)
/-- Tick whose range holds a time (R286). -/
def tickOf (g : Bytes) (ts : Nat) : Int := ((ts : Int) - t0 g + (period g / 2 : Nat)) / (period g : Int)
def timeOf (g : Bytes) (k : Nat) : Nat := t0 g + k * period g
/-- The first tick that is emitted (R287). -/
def firstTick (g : Bytes) (now : Nat) : Nat :=
  let d : Int := (now : Int) - window g - t0 g
  if d < 0 then 0 else (d / (period g : Int) + 1).toNat
/-- A queue entry that R283 and its group admit: kind, source, flags and channels in range, and audio only in a live
group, from a source of its kind. -/
def entryOk (g : Bytes) (b : Bytes) : Bool :=
  decide (eKind b ≤ 3) && decide (eSource b ≤ 15) && decide (fld b 0x16 2 ≤ 1) && allZero (slice b 0x25 27) &&
  (if eKind b = 0 then eSession b % 64 == 0
   else eSession b == 0 && decide (1 ≤ eChannels b) && decide (eChannels b ≤ 16) && !g.isEmpty) &&
  (g.isEmpty || (decide (eSource b < nsrc g) && isAudio g (eSource b) == (eKind b != 0)))

/-! ### Counters of the header -/

def deliv (x : Bytes) : Nat := fld x 0x28 8
def queueAddr (x : Bytes) : Nat := fld x 0x20 8
def groupAddr (x : Bytes) : Nat := fld x 0x30 8
/-- Add 1 to LATE (0x14) or DROPPED (0x18) of the queue header. -/
def count (v : Via) (x : Bytes) (off : Nat) : MM Unit := do
  let n ← MM.get v (queueAddr x + off) 4
  MM.put v (queueAddr x + off) 4 ((n + 1) % 2 ^ 32)

/-- An item arrives: dropped and counted LATE when its tick is over, else kept; of two pictures of one source and tick
the later one stays, and the other counts as DROPPED (R286, R287). -/
def arrive (v : Via) (x : Bytes) (r : IngRun) (i : Item) : MM IngRun := do
  if tickOf r.group i.ts < (r.tick : Int) then do
    count v x 0x14
    pure r
  else if i.audio then pure { r with items := r.items ++ [i] }
  else match r.items.find? fun o => o.src == i.src && tickOf r.group o.ts == tickOf r.group i.ts with
    | none => pure { r with items := r.items ++ [i] }
    | some o => do
      count v x 0x18
      pure (if o.ts < i.ts then { r with items := (r.items.filter fun y => y != o) ++ [i] } else r)

/-! ### Starting an entry (R282, R284) -/

def putRun (s : State) (id d : Nat) (r : IngRun) : State := upd s id fun j => { j with ingest := Sparse.put j.ingest d r }
/-- The earliest granted execution of d that has not started. -/
def pending (j : Job) (d : Nat) : Option HubExec := j.hexec.find? fun x => x.d == d && unstarted x
/-- An execution of d whose decoding runs on the session at addr. -/
def decodingOn (j : Job) (d addr : Nat) : Option (Nat × DecWork) :=
  j.hexec.findSome? fun x => match x.work with
    | .dec w => if x.d == d && w.started && !w.fin && w.addr == addr then some (x.n, w) else none
    | _ => none
/-- Every execution of d whose decoding runs: number and work. -/
def decoding (j : Job) (d n : Nat) : Option DecWork :=
  match Hub.exec? j d n with
  | some ⟨_, _, .dec w⟩ => if w.started && !w.fin then some w else none
  | _ => none
/-- The decoding of a queue entry is over. -/
def entryOver (s : State) (j : Job) (d n : Nat) (w : DecWork) : Option State :=
  if w.sess.isEmpty then some (Hub.setExec s j.id ⟨d, n, .dec { w with fin := true }⟩)
  else Dec.decoded s j Hub.ingest d n w (eEnd w.unit)
def stop (s : State) (j : Job) (d n status : Nat) : State := Hub.endWith (Hub.dropExec s j.id d n) j.id d status

/-- What starting an entry reads. -/
structure Seen where
  q     : Queue
  run   : IngRun
  entry : Bytes
  sess  : Bytes
  head  : Bytes
  data  : Bytes
  /-- nothing is out of its range -/
  ok    : Bool
  ready : Bool

/-- The run of descriptor d of a job, begun at its first execution. -/
def runOf (v : Via) (j : Job) (d now : Nat) (q : Queue) : MM IngRun := do
  let x := j.descAt d
  match Sparse.get? j.ingest d with
  | some r => pure r
  | none =>
    if groupAddr x = 0 then pure ⟨q.read, [], 0, [], []⟩
    else
      let g ← MM.read v (groupAddr x) 64
      pure ⟨q.read, g, firstTick g now, [], []⟩
def look (v : Via) (j : Job) (d n now : Nat) : MM Seen := do
  let x := j.descAt d
  let q ← readQueue v (queueAddr x)
  let r ← runOf v j d now q
  if !queueOk q || !(r.group.isEmpty || groupOk r.group) then pure ⟨q, r, [], [], [], [], false, true⟩
  else if !written q (r.q0 + n) then pure ⟨q, r, [], [], [], [], true, false⟩
  else
    let e ← readEntry v q (r.q0 + n)
    if !entryOk r.group e then pure ⟨q, r, e, [], [], [], false, true⟩
    else if eKind e = 0 then do
      let b ← MM.read v (eSession e) 64
      if Dec.sessionOk b then do
        let h ← MM.read v (Dec.state b) 4096
        let d ← MM.read v (eData e) (eLength e)
        pure ⟨q, r, e, b, h, d, true, true⟩
      else pure ⟨q, r, e, b, [], [], false, true⟩
    else pure ⟨q, r, e, [], [], [], true, true⟩

/-- A video entry starts on its session's engine. -/
def startVideo (s : State) (j : Job) (d n : Nat) (g : Seen) : State :=
  let x := j.descAt d
  let v := Hub.viaOf s j Hub.ingest d
  let key := keyOf v (Dec.state g.sess)
  let a := decAreaOf s g.head
  if a.closed then stop s j d n 0x0707
  else match Codecs.bind s false j (eSession g.entry) (queueAddr x)
      (units (Dec.maxW g.sess) (Dec.maxH g.sess) (Dec.fpsNum g.sess) (Dec.fpsDen g.sess)) with
    | .other => stop s j d n 0x0707
    | .full => stop s j d n 0x0706
    | .ok s _ => Hub.setExec (putRun s j.id d g.run) j.id
        ⟨d, n, .dec (Dec.work (eSession g.entry) g.sess a key g.entry g.data)⟩
/-- An audio entry becomes an item. -/
def startAudio (s : State) (j : Job) (d n : Nat) (g : Seen) : State :=
  let v := Hub.viaOf s j Hub.ingest d
  let i : Item := ⟨eSource g.entry, eTs g.entry, n, true, ⟨[], 0, g.entry⟩⟩
  match run s 7 (arrive v (j.descAt d) g.run i) with
  | (.error e, s) => Hub.workFails (Hub.dropExec s j.id d n) j d e
  | (.ok r, s) => Hub.setExec (putRun s j.id d r) j.id ⟨d, n, .dec { Dec.work 0 [] decInit 0 g.entry [] with last := true, fin := true }⟩
/-- The next entry of descriptor d starts, if it has been written; Q0 and tick k0 are fixed as the first one starts. An
entry whose session still decodes the entry before it starts once that one is over. -/
def entry (s : State) (id d : Nat) : State :=
  match find s.sched id with
  | none => s
  | some j => match pending j d with
    | none => s
    | some h =>
      let v := Hub.viaOf s j Hub.ingest d
      match run s 7 (look v j d h.n (ptpTime s)) with
      | (.error e, s) => Hub.workFails (Hub.dropExec s id d h.n) j d e
      | (.ok g, s) =>
        if !g.ready then s
        else if !g.ok then stop s j d h.n 0x0707
        else if eKind g.entry ≠ 0 then startAudio s j d h.n g
        else match decodingOn j d (eSession g.entry) with
          | none => startVideo s j d h.n g
          | some (n, w) =>
            if !w.last then s
            else match entryOver s j d n w with
            | none => stop s j d h.n 0x0209
            | some s => match find s.sched id with
              | none => s
              | some j => match run s 7 (look v j d h.n (ptpTime s)) with
                | (.error e, s) => Hub.workFails (Hub.dropExec s id d h.n) j d e
                | (.ok g, s) => startVideo s j d h.n g

/-! ### Pictures -/

/-- TS of the access unit or entry being decoded, and whether its END is set. -/
def unitTs (j : Job) (d : Nat) (w : DecWork) : Nat := if Hub.stationOf j d = Hub.dec then Dec.tsOf w.unit else eTs w.unit
def unitEnd (j : Job) (d : Nat) (w : DecWork) : Bool := if Hub.stationOf j d = Hub.dec then Dec.endSet w.unit else eEnd w.unit
/-- Records released by execution n, with their times: they wait for their ring, or go to the live group. -/
def place (v : Via) (j : Job) (d n : Nat) : List (Nat × PicOut) → DecWork → Option IngRun → MM (DecWork × Option IngRun)
  | [], w, r => pure (w, r)
  | (ts, p) :: l, w, r => match r with
    | none => place v j d n l { w with out := w.out ++ [p] } none
    | some g =>
      if g.group.isEmpty then place v j d n l { w with out := w.out ++ [p] } r
      else do
        let g ← arrive v (j.descAt d) g ⟨eSource w.unit, ts, n, false, p⟩
        place v j d n l w (some g)
/-- The pictures that end their wait: k of them or, where the access unit holds no further picture and END is set, all. -/
def released (j : Job) (d : Nat) (w : DecWork) (k : Nat) : List (Nat × PicOut) × DecWork :=
  let all := w.last && unitEnd j d w
  let (l, a) := Dec.release w.area (if all then w.area.pics.length else k)
  (l.map fun p => (p.ts, ⟨w.sess, w.key, p.recd⟩), { w with area := a })
/-- What the next step of an access unit comes to. -/
structure Turn where
  work : DecWork
  run  : Option IngRun
  /-- header of the picture decoded, what was found of it, its number and whether it is substituted -/
  pic  : Option (PicHead × Dec.Found × Nat × Bool)
/-- The next picture of an access unit is decoded and the records that follow are released; or the access unit turns out
to hold no further picture, or to be of an unsupported sequence, which releases one record (R276). None when no buffer is
free. -/
def turn (v : Via) (ver : Word) (j : Job) (d n fr : Nat) (w : DecWork) : MM (Option Turn) := do
  let r := Sparse.get? j.ingest d
  let ts := unitTs j d w
  let h := Dec.headAt (Dec.view ver w) w.pos
  if h.absent then do
    let (l, w) := released j d { w with last := true } 0
    let (w, r) ← place v j d n l w r
    pure (some ⟨w, r, none⟩)
  else if !Dec.accepts w.sess h then do
    let (l, w) := released j d { w with last := true } 0
    let (w, r) ← place v j d n (l ++ [(ts, ⟨w.sess, w.key, Dec.noPicture ts⟩)]) w r
    pure (some ⟨w, r, none⟩)
  else match ← Dec.decode v ver w (Dec.reserved j w.key) fr ts h with
    | none => pure none
    | some a => do
      let f := Dec.found (Dec.view ver w) h
      let pos := max h.stop (w.pos + 1)
      let w2 := { w with area := a, pos := pos }
      let w2 := { w2 with last := (Dec.headAt (Dec.view ver w2) pos).absent }
      let (l, w2) := released j d w2 h.bump
      let (w2, r) ← place v j d n l w2 r
      pure (some ⟨w2, r, some (h, f, w.area.count, Dec.missing w.area h)⟩)
/-- DEC: the first released record goes to the picture ring when that has room. -/
def deliverFirst (v : Via) (w : DecWork) : MM DecWork := do
  match w.out with
  | [] => pure w
  | p :: l => do
    let ok ← Dec.deliver v (Dec.out w.sess) p
    pure (if ok then { w with out := l } else w)
/-- DEC_PICTURE_OUTPUT's work: a record that waits for DEC's ring goes first; else the next picture is decoded, and DEC's
first record with it delivered. -/
def output (v : Via) (ver : Word) (j : Job) (d n fr : Nat) (w : DecWork) : MM (Option Turn) := do
  let isDec := Hub.stationOf j d == Hub.dec
  if isDec && !w.out.isEmpty then do
    let w ← deliverFirst v w
    pure (some ⟨w, Sparse.get? j.ingest d, none⟩)
  else if w.last then pure none
  else match ← turn v ver j d n fr w with
    | none => pure none
    | some t =>
      if isDec then do
        let w ← deliverFirst v t.work
        pure (some { t with work := w })
      else pure (some t)

/-! ### Emission (R286, R288) -/

/-- Entries written and not started yet that end the wait for an audio source: one of the source at or after time t. -/
def scan (v : Via) (q : Queue) (src t : Nat) : Nat → Nat → MM Bool
  | 0, _ => pure false
  | k + 1, n => do
    if !written q n then pure false
    else
      let e ← readEntry v q n
      if eKind e ≠ 0 ∧ eSource e = src ∧ t ≤ eTs e then pure true else scan v q src t k (n + 1)
/-- End of tick k's range. -/
def rangeEnd (g : Bytes) (k : Nat) : Nat := timeOf g k + ceilDiv (period g) 2
def itemsOf (r : IngRun) (src : Nat) : List Item :=
  r.items.filter fun i => i.src == src && tickOf r.group i.ts == (r.tick : Int)
/-- Source src has its item for the next tick (R286, R287). -/
def hasItem (v : Via) (q : Queue) (r : IngRun) (nstart src : Nat) : MM Bool := do
  if isAudio r.group src then
    let t := rangeEnd r.group r.tick
    if r.items.any fun i => i.src == src && decide (t ≤ i.ts) then pure true
    else scan v q src t q.size (r.q0 + nstart)
  else pure (!(itemsOf r src).isEmpty)
def allHave (v : Via) (q : Queue) (r : IngRun) (nstart : Nat) : Nat → MM Bool
  | 0 => pure true
  | k + 1 => do
    let a ← hasItem v q r nstart k
    if a then allHave v q r nstart k else pure false

/-- The FP32 samples of channel c of an audio entry: PCM samples interleaved by channel (log 35). -/
def channel (b data : Bytes) (c : Nat) : Bytes :=
  let w := if eKind b = 2 then 2 else 4
  if eChannels b ≤ c then []
  else (List.range (eSamples b)).flatMap fun i =>
    let x := fld data ((i * eChannels b + c) * w) w
    toLe 4 (if eKind b = 2 then
        let k := sext 16 x
        Num.toBits (.fin (k < 0) k.natAbs (-15))
      else x)
/-- The tensor of an audio source's entries: channel by channel, in entry order, AUD_BYTES long. -/
def tensor (v : Via) (g : Bytes) (es : List Bytes) : MM Bytes := do
  let ds ← es.mapM fun e => MM.read v (eData e) (min (eLength e) (eSamples e * eChannels e * (if eKind e = 2 then 2 else 4)))
  let n := (es.map eChannels).foldl max 0
  pure (slice ((List.range n).flatMap fun c => (es.zip ds).flatMap fun (e, d) => channel e d c) 0 (audBytes g))
/-- The record of an audio source (R288). -/
def audio (v : Via) (r : IngRun) (src : Nat) (is : List Item) : MM Bytes := do
  match is with
  | [] => pure (zeros 0x1A ++ toLe 1 src ++ zeros 0x13 ++ toLe 2 32 ++ zeros 16)
  | i :: _ =>
    let e := i.pic.recd
    let copy := eKind e != 1 && audDst r.group != 0
    let a := audDst r.group + (r.tick * nsrc r.group + src) * audBytes r.group
    if copy then do
      let t ← tensor v r.group (is.map (·.pic.recd))
      MM.write v a t
    else pure ()
    pure (toLe 8 ((r.q0 + i.entry) % 2 ^ 32) ++ toLe 8 (if copy then a else 0) ++ zeros 4 ++ toLe 2 is.length ++ zeros 4 ++
      toLe 1 src ++ zeros 5 ++ toLe 8 i.ts ++ zeros 24)
/-- The record of a video source: its picture, a repeat of its latest, or ABSENT; and whether it was repeated or
absent. -/
def video (r : IngRun) (src : Nat) : PicOut × Bool :=
  let own := fun (b : Bytes) => splice b 0x1A (toLe 1 src)
  match itemsOf r src with
  | i :: _ => ({ i.pic with recd := own i.pic.recd }, false)
  | [] => match Sparse.get? r.prev src with
    | some p => ({ p with recd := own (splice p.recd 0x2E (toLe 2 (fld p.recd 0x2E 2 ||| 16))) }, true)
    | none => (⟨[], 0, zeros 0x1A ++ toLe 1 src ++ zeros 0x13 ++ toLe 2 32 ++ zeros 16⟩, true)
/-- The records of the sources from src on: run, mask of repeated and absent sources. -/
def emitAll (v : Via) (ring : Nat) : List Nat → IngRun → Nat → MM (IngRun × Nat)
  | [], r, m => pure (r, m)
  | src :: rest, r, m => do
    if isAudio r.group src then do
      let is := itemsOf r src
      let b ← audio v r src is
      let q ← readRing v ring
      putRing v q b
      emitAll v ring rest r (if is.isEmpty then m + 2 ^ src else m)
    else do
      let (p, miss) := video r src
      let b ← Dec.stamp v p
      let q ← readRing v ring
      putRing v q b
      let prev := if p.sess.isEmpty then r.prev else Sparse.put r.prev src { p with recd := b }
      emitAll v ring rest { r with prev := prev } (if miss then m + 2 ^ src else m)
/-- Emit the next tick if its moment has come and the ring has room for its records. -/
def emitTick (v : Via) (j : Job) (d now : Nat) (r : IngRun) : MM (Option (IngRun × Nat)) := do
  let x := j.descAt d
  let q ← readQueue v (queueAddr x)
  let nstart := match pending j d with
    | some h => h.n
    | none => Sparse.getD j.hgrant d 0
  let due := decide (timeOf r.group r.tick + window r.group ≤ now)
  let full ← (if due then pure true else allHave v q r nstart (nsrc r.group) : MM Bool)
  let ring ← readRing v (deliv x)
  if full && hasRoom ring (64 * nsrc r.group) then do
    let (r2, m) ← emitAll v (deliv x) (List.range (nsrc r.group)) r 0
    pure (some ({ r2 with items := r2.items.filter fun i => !(tickOf r.group i.ts == (r.tick : Int)), tick := r.tick + 1 }, m))
  else pure none

/-! ### The end of an INGEST execution -/

/-- Records of execution n are all visible. -/
def shown (j : Job) (d n : Nat) (w : DecWork) : Bool :=
  w.out.isEmpty && match Sparse.get? j.ingest d with
    | some r => r.items.all fun i => i.entry != n
    | none => true
/-- READ reaches n + 1, and the execution completes. -/
def complete (s : State) (j : Job) (d n : Nat) : State :=
  let v := Hub.viaOf s j Hub.ingest d
  let q0 := match Sparse.get? j.ingest d with
    | some r => r.q0
    | none => 0
  match run s 7 (MM.put v (queueAddr (j.descAt d) + 0x10) 4 ((q0 + n + 1) % 2 ^ 32)) with
  | (.error e, s) => Hub.workFails (Hub.dropExec s j.id d n) j d e
  | (.ok _, s) => Hub.completed s j.id d n
/-- HUB_EXECUTION_COMPLETE of INGEST: the earliest execution's decoding is over, and it completes once its records are
visible. -/
def finish (s : State) (j : Job) (d n : Nat) (w : DecWork) : State :=
  if !w.started || !w.last then s
  else match (if w.fin then some s else entryOver s j d n w) with
    | none => stop (release s false w.addr j.fn false) j d n 0x0209
    | some s => match find s.sched j.id with
      | none => s
      | some j => if shown j d n w then complete s j d n else s

end Ing

open Bits Ops JobOps Codecs Ing

/-- DEC_PICTURE_OUTPUT (R271 to R281): the next picture of execution n of descriptor d is decoded into a free buffer, and
its record, or the records it releases, delivered or kept for delivery. -/
def execDecPictureOutput (j d n : Nat) (s : State) : Out :=
  match find s.sched j with
  | none => .next s
  | some x => match decoding x d n with
    | none => .next s
    | some w =>
      if s.bu.stopped || w.sess.isEmpty then .next s
      else if !classOpen s 7 then .next (s.setSched (markStall s.sched 7))
      else
        let v := Hub.viaOf s x (Hub.stationOf x d) d
        match run s 7 (output v (microcode s) x d n s.free w) with
        | (.error e, s) => .next (fails s x false w.addr d n e)
        | (.ok none, s) => .next s
        | (.ok (some t), s) =>
          let s := match t.pic with
            | none => s
            | some (h, f, num, sub) =>
              let s := (s.setFree (s.free + 1)).setSched
                (charge s.sched 7 0 (20000000 * ceilDiv h.width 16 * ceilDiv h.height 16))
              Dec.report s x w.addr num h f sub
          let s := Hub.setExec s j ⟨d, n, .dec t.work⟩
          .next (match t.run with
            | some r => putRun s j d r
            | none => s)

/-- INGEST_ENTRY (R282, R284): the next queue entry of descriptor d starts. -/
def execIngestEntry (j d : Nat) (s : State) : Out :=
  if s.bu.stopped then .next s
  else if !classOpen s 7 then .next (s.setSched (markStall s.sched 7))
  else .next (entry s j d)

/-- INGEST_DELIVERY (R284): the next record of the earliest execution reaches DELIV. -/
def execIngestDelivery (j d : Nat) (s : State) : Out :=
  match find s.sched j with
  | none => .next s
  | some x => match Hub.exec? x d (Sparse.getD x.hdone d 0) with
    | some ⟨_, n, .dec w⟩ => match w.out with
      | [] => .next s
      | p :: rest =>
        if s.bu.stopped || Hub.stationOf x d != Hub.ingest then .next s
        else if !classOpen s 7 then .next (s.setSched (markStall s.sched 7))
        else match run s 7 (Dec.deliver (Hub.viaOf s x Hub.ingest d) (deliv (x.descAt d)) p) with
          | (.error e, s) => .next (fails s x false w.addr d n e)
          | (.ok false, s) => .next s
          | (.ok true, s) => .next (Hub.setExec s j ⟨d, n, .dec { w with out := rest }⟩)
    | _ => .next s

/-- LIVE_TICK_EMIT (R286 to R288): the next tick of descriptor d's live group is emitted at its moment. -/
def execLiveTickEmit (t j d : Nat) (s : State) : Out :=
  let s := tick s t
  match find s.sched j with
  | none => .next s
  | some x => match Sparse.get? x.ingest d with
    | none => .next s
    | some r =>
      if s.bu.stopped || r.group.isEmpty || !(x.hexec.any (·.d == d)) then .next s
      else if !classOpen s 7 then .next (s.setSched (markStall s.sched 7))
      else match run s 7 (emitTick (Hub.viaOf s x Hub.ingest d) x d (ptpTime s) r) with
        | (.error e, s) => .next (Hub.workFails s x d e)
        | (.ok none, s) => .next s
        | (.ok (some (r2, m)), s) =>
          let s := putRun s j d r2
          if m = 0 then .next s
          else
            let (f, s) := fresh s
            .next (logEvent s { status := 0x0708, source := srcHub Hub.ingest, fn := x.fn, relanes := x.relanes, arg0 := f.toNat,
                                arg1 := r.tick * 2 ^ 16 + m })

end Machine
end Sys2Proof
end

