-- ==== Sys2Proof/Machine/PrefixOps.lean ====
section
/-! DEFINITION. PREFIX executions: requests, local operations, and what runs between modules
(spec/08_attention_and_paged_cache.md R185 to R192). -/

namespace Sys2Proof
namespace Machine
namespace Pfx

open Bits Ops JobOps

abbrev lookup : Nat := 1
abbrev insert : Nat := 2
abbrev fork : Nat := 3
abbrev release : Nat := 4
abbrev fetch : Nat := 5
abbrev evict : Nat := 6
abbrev send : Nat := 7

/-- The request is well formed (R185, R186): a known operation, reserved bytes 0, REMOTE on LOOKUP and INSERT alone, a
sequence slot that exists. -/
def wellFormed (c : Bytes) (r : CacheOps.PReq) : Bool :=
  decide (1 ≤ r.op) && decide (r.op ≤ 7) && r.rsvOk && (!r.remote || r.op == lookup || r.op == insert) &&
    decide (r.seq < CacheOps.seqSlots c)
/-- The operation is permitted in a role (R190): 1 prompt, 2 cache, 3 generation. -/
def permitted (role : Nat) (r : CacheOps.PReq) : Bool :=
  if r.op = lookup ∧ r.remote then role == 3
  else if r.op = insert ∧ r.remote then role == 1
  else if r.op = send then role == 1
  else if r.op = fetch then role == 3
  else true

/-- What execution n reads at its grant: its request and its NODE_IN; an eviction precedes it when pages are low (R187). -/
def fetchReq (v : Via) (x c : Bytes) (now n : Nat) : MM (Bytes × Nat) := do
  let a := fld x 0x20 8 + 32 * n
  let b ← MM.read v a 32
  let k := (CacheOps.parseReq b).nodeIn
  -- the first request has none before it
  let k ← (if k = 0xFFFFFFFE ∧ n ≠ 0 then MM.get v (a - 32 + 0xC) 4 else pure k : MM Nat)
  CacheOps.evictIfLow v c now
  pure (b, k)
/-- The work of a request: malformed (R185) and unpermitted (R190) ones are decided at once. -/
def newWork (s : State) (j : Job) (a : Nat) (b : Bytes) (k : Nat) : PfxWork :=
  let r := CacheOps.parseReq b
  ⟨b, a, k, 0, 0, 0, 0, 0, 0, 0, none, if !wellFormed j.cacheD r then some (3, none)
    else if !permitted (FabServe.role s) r then some (7, none) else none⟩
/-- Grant execution n of PREFIX. -/
def start (s : State) (j : Job) (d n : Nat) : State :=
  let x := j.descAt d
  if fld x 0x28 4 ≤ n then Hub.grant s j.id d n .plain
  else match run s (budget s j) (fetchReq (Hub.viaOf s j Hub.pfx d) x j.cacheD (ptpTime s) n) with
    | (.error e, s) => Hub.workFails s j d e
    | (.ok (b, k), s) => Hub.grant s j.id d n (.pfx (newWork s j (fld x 0x20 8 + 32 * n) b k))

/-- A request as it goes to another module, with its NODE_IN. -/
def wireReq (w : PfxWork) (node : Nat) : Bytes := splice w.req 8 (toLe 4 node)
def setWork (s : State) (j : Job) (d n : Nat) (w : PfxWork) : State := Hub.setExec s j.id ⟨d, n, .pfx w⟩
def decided (s : State) (j : Job) (d n : Nat) (w : PfxWork) (res : Nat) (node : Option Nat) : State :=
  setWork s j d n { w with ans := none, fin := some (res, node) }
def fails (s : State) (j : Job) (d n : Nat) (e : MFail) : State := Hub.workFails (Hub.dropExec s j.id d n) j d e
/-- RESULT of a transaction that did not serve the request (R188, R190). -/
def refusal (reason : Nat) : Nat := if reason = 9 then 7 else 6

/-- The entry of a request; none when INDEX lies outside the table. -/
def entryOf (v : Via) (c : Bytes) (r : CacheOps.PReq) : MM (Option (CacheOps.Seq × Nat)) := do
  let q ← CacheOps.readSeq v c r.seq
  if q.entries ≤ r.index then pure none
  else
    let e ← CacheOps.readEntry v q r.index
    pure (some (q, e))
def pageAt (c : Bytes) (p off : Nat) : Nat := CacheOps.poolBase c + p * CacheOps.pageBytes c + off
/-- Length of the next part of a page (R188). -/
def partLen (c : Bytes) (moved : Nat) : Nat := min Fab.maxLength (CacheOps.pageBytes c - moved)

/-- Issue the next part of a page that goes out: for a remote INSERT the page it was given, for SEND a new one. -/
def pushPart (s : State) (j : Job) (d n : Nat) (w : PfxWork) : State :=
  let c := j.cacheD
  let r := CacheOps.parseReq w.req
  let v := Hub.viaOf s j Hub.pfx d
  let k := partLen c w.moved
  match run s (budget s j) (MM.read v (pageAt c w.page w.moved) k) with
  | (.error e, s) => fails s j d n e
  | (.ok b, s) =>
    let s := setWork s j d n { w with stage := 2, moved := w.moved + k, ans := none }
    let ask : Fab.Ask := { op := Fab.opPageWrite, dst := r.endpoint, off := w.moved, len := k,
                           o1 := w.rpage + 2 ^ 32 * CacheOps.pageBytes c, o2 := CacheOps.eFill w.old,
                           arg := wireReq w (if r.op = send then w.nodeIn else w.rnode), data := b }
    (Fab.issue s (.pfx j.id d) ask).getD s
/-- The HASH that the lookup of the REMOTE entry at k answered; 0 where none is known (log 30). -/
def hitOf (s : State) (k : Nat × Nat) : Nat := ((s.cache.hits.find? (·.1 == k)).map (·.2)).getD 0
/-- The entry at k is REMOTE under that HASH, or no longer REMOTE. -/
def setHit (s : State) (k : Nat × Nat) (h : Option Nat) : State :=
  let rest := s.cache.hits.filter (·.1 != k)
  s.setCache { s.cache with hits := match h with
    | some h => (k, h) :: rest
    | none => rest }
/-- Issue the next part of a page that a FETCH brings. -/
def pullPart (s : State) (j : Job) (d n : Nat) (w : PfxWork) : State :=
  let c := j.cacheD
  let r := CacheOps.parseReq w.req
  let k := partLen c w.moved
  match xlatRun s.host j.fn (pageAt c w.page w.moved) k true with
  | none => fails s j d n (.refused (pageAt c w.page w.moved))
  | some ps =>
    let hash := hitOf s (j.fn, w.entry)
    let s := setWork s j d n { w with stage := 2, moved := w.moved + k, ans := none }
    let ask : Fab.Ask := { op := Fab.opPageRead, dst := r.endpoint, off := w.moved, len := k,
                           o1 := w.rpage + 2 ^ 32 * CacheOps.pageBytes c, o2 := hash, arg := wireReq w w.nodeIn, addr := ps }
    (Fab.issue s (.pfx j.id d) ask).getD s
/-- Return the lease of a REMOTE entry that is released: nobody waits for the answer. -/
def returnLease (s : State) (w : PfxWork) (e : Nat) : State :=
  let ask : Fab.Ask := { op := Fab.opPrefix, dst := CacheOps.eRefs e, len := 1024, o1 := CacheOps.ePage e,
                         arg := wireReq w w.nodeIn, data := zeros 1024 }
  (Fab.issue s .gone ask).getD s

/-- A local operation, whole. -/
def localOp (v : Via) (c : Bytes) (now : Nat) (w : PfxWork) : MM CacheOps.PRes :=
  let r := CacheOps.parseReq w.req
  if r.op = lookup then CacheOps.lookup v c now r w.nodeIn
  else if r.op = insert then CacheOps.insert v c now r w.nodeIn
  else if r.op = fork then CacheOps.fork v c now r
  else if r.op = release then CacheOps.release v c r false
  else CacheOps.evictReq v c now { r with nodeIn := w.nodeIn }
/-- A request of this module alone, with the address and value of the REMOTE entry that it releases. Returning that
entry's lease takes a TAG: the request waits where none is free. -/
def ownOp (v : Via) (c : Bytes) (now : Nat) (w : PfxWork) (tagged : Bool) :
    MM (Option (CacheOps.PRes × Option (Nat × Nat))) := do
  let r := CacheOps.parseReq w.req
  let e ← (if r.op = release then do
      let e ← entryOf v c r
      pure (e.bind fun (q, e) =>
        if CacheOps.eValid e && CacheOps.eRemote e then some (CacheOps.entryAddr q r.index, e) else none)
    else pure none : MM (Option (Nat × Nat)))
  if e.isSome && !tagged then pure none
  else
    let res ← localOp v c now w
    pure (some (res, e))
/-- What begins a request that another module takes part in: its RESULT at once, or the entry's address and value, the
local page, and what is sent with a PREFIX transaction. -/
def opening (v : Via) (c : Bytes) (now : Nat) (w : PfxWork) : MM (Except Nat (Nat × Nat × Nat × Bytes)) := do
  let r := CacheOps.parseReq w.req
  match ← entryOf v c r with
  | none => pure (.error 3)
  | some (q, e) =>
    let a := CacheOps.entryAddr q r.index
    let v1 := CacheOps.eValid e
    let far := CacheOps.eRemote e
    let pend := CacheOps.ePending e
    if r.op = lookup then
      if v1 || pend then pure (.error 3)
      else do
        let t ← CacheOps.pageTokens v q r.index
        pure (.ok (a, e, 0, t))
    else if r.op = insert then
      if !v1 || far || pend || CacheOps.eFill e != 256 then pure (.error 3)
      else do
        let t ← CacheOps.pageTokens v q r.index
        pure (.ok (a, e, CacheOps.ePage e, t))
    else if r.op = send then
      if !v1 || far || pend then pure (.error 3) else pure (.ok (a, e, CacheOps.ePage e, []))
    else
      if !v1 || !far then pure (.error 3)
      else match ← CacheOps.popPage v c now with
        | none => pure (.error 5)
        | some p => do
          CacheOps.putEntry v q r.index (CacheOps.mkEntry false false false true 0 0 p)
          pure (.ok (a, e, p, []))
/-- The request takes its first step. -/
def begin (s : State) (j : Job) (d n : Nat) (w : PfxWork) : State :=
  let c := j.cacheD
  let r := CacheOps.parseReq w.req
  let v := Hub.viaOf s j Hub.pfx d
  let now := ptpTime s
  if r.remote || r.op == send || r.op == fetch then
    -- a transaction needs a TAG
    if (Fab.freeTag s).isNone then s
    else match run s (budget s j) (opening v c now w) with
      | (.error e, s) => fails s j d n e
      | (.ok (.error k), s) => decided s j d n w k none
      | (.ok (.ok (a, e, p, toks)), s) =>
        let w := { w with old := e, page := p, entry := a }
        if r.op = send then pushPart s j d n w
        else if r.op = fetch then pullPart s j d n { w with rpage := CacheOps.ePage e }
        else
          let s := setWork s j d n { w with stage := 1 }
          let ask : Fab.Ask := { op := Fab.opPrefix, dst := r.endpoint, len := 1024, arg := wireReq w w.nodeIn, data := toks }
          (Fab.issue s (.pfx j.id d) ask).getD s
  else
    let tagged := (Fab.freeTag s).isSome
    match run s (budget s j) (ownOp v c now w tagged) with
    | (.error e, s) => fails s j d n e
    | (.ok none, s) => s
    | (.ok (some ((res, node), e)), s) =>
      let s := decided s j d n w res node
      match e with
      | some (a, e) => if res = 0 then returnLease (setHit s (j.fn, a) none) w e else s
      | none => s

/-- A FETCH that failed: its page goes back, and the entry becomes e. -/
def undo (s : State) (j : Job) (d n : Nat) (w : PfxWork) (e res : Nat) : State :=
  let c := j.cacheD
  let v := Hub.viaOf s j Hub.pfx d
  let r := CacheOps.parseReq w.req
  let act : MM Unit := do
    CacheOps.pushPage v c w.page
    let q ← CacheOps.readSeq v c r.seq
    CacheOps.putEntry v q r.index e
  match run s (budget s j) act with
  | (.error e, s) => fails s j d n e
  | (.ok _, s) => decided s j d n w res none
/-- The entry of the request becomes e, and the request is done. -/
def settleEntry (s : State) (j : Job) (d n : Nat) (w : PfxWork) (e : Nat) (node : Option Nat) : State :=
  let c := j.cacheD
  let v := Hub.viaOf s j Hub.pfx d
  let r := CacheOps.parseReq w.req
  let act : MM Unit := do
    let q ← CacheOps.readSeq v c r.seq
    CacheOps.putEntry v q r.index e
  match run s (budget s j) act with
  | (.error e, s) => fails s j d n e
  | (.ok _, s) => decided s j d n w 0 node
/-- The request takes the answer of its transaction. -/
def react (s : State) (j : Job) (d n : Nat) (w : PfxWork) (reason result : Nat) (arg : Bytes) : State :=
  let c := j.cacheD
  let r := CacheOps.parseReq w.req
  let page := fld arg 0 4
  let node := fld arg 4 4
  let more := decide (w.moved < CacheOps.pageBytes c)
  if r.op = lookup then
    if reason ≠ 0 then decided s j d n w (refusal reason) none
    else if result ≠ 0 then decided s j d n w result none
    else
      settleEntry (setHit s (j.fn, w.entry) (some (fld arg 8 8))) j d n w (CacheOps.mkEntry true false true false 256 r.endpoint page) (some node)
  else if r.op = insert then
    if reason ≠ 0 then decided s j d n w (refusal reason) none
    else if w.stage = 1 then
      if result = 2 then pushPart s j d n { w with rpage := page, rnode := node }
      else decided s j d n w result (if result = 0 then some node else none)
    else if result = 3 then decided s j d n w 3 none
    else if more then pushPart s j d n w
    else decided s j d n w result (some node)
  else if r.op = send then
    if reason ≠ 0 then decided s j d n w (refusal reason) none
    else if result ≠ 0 then decided s j d n w result none
    else if more then pushPart s j d n w
    else decided s j d n w 0 none
  else
    if reason ≠ 0 then undo s j d n w w.old (refusal reason)
    else if result ≠ 0 then undo (setHit s (j.fn, w.entry) none) j d n w 0 1
    else if more then pullPart s j d n w
    else
      settleEntry (setHit s (j.fn, w.entry) none) j d n w (CacheOps.mkEntry true false false false 256 1 w.page) none
/-- The request goes on: it begins, or takes a pending answer. -/
def advance (s : State) (j : Job) (d n : Nat) (w : PfxWork) : State :=
  if w.fin.isSome then s
  else if w.stage = 0 then begin s j d n w
  else match w.ans with
    | none => s
    | some (reason, result, arg) =>
      -- the next part of a page needs a TAG
      if (Fab.freeTag s).isNone then s else react s j d n w reason result arg
/-- HUB_EXECUTION_COMPLETE of PREFIX: RESULT and NODE_OUT are written (R185, R188). -/
def finish (s : State) (j : Job) (d n : Nat) (w : PfxWork) : State :=
  match w.fin with
  | none => s
  | some (res, node) =>
    let v := Hub.viaOf s j Hub.pfx d
    let act : MM Unit := do
      MM.put v (w.addr + 1) 1 res
      match node with
      | some k => MM.put v (w.addr + 0xC) 4 k
      | none => pure ()
    match run s (budget s j) act with
    | (.error e, s) => fails s j d n e
    | (.ok _, s) => Hub.completed s j.id d n
/-- The granted PREFIX execution of descriptor d runs, if its request names operation o. -/
def step (s : State) (id d o : Nat) : State :=
  match find s.sched id with
  | none => s
  | some j => match Hub.first j d with
    | some ⟨_, n, .pfx w⟩ =>
      if s.bu.stopped || (CacheOps.parseReq w.req).op != o then s
      else if !txnLeft s.sched (budget s j) then s.setSched (markStall s.sched (budget s j))
      else advance s j d n w
    | _ => s

end Pfx

/-- PREFIX_LOOKUP (spec/08_attention_and_paged_cache.md R184, R186, R191). -/
def execPrefixLookup (j d : Nat) (s : State) : Out := .next (Pfx.step s j d Pfx.lookup)
/-- PREFIX_INSERT (R186, R191). -/
def execPrefixInsert (j d : Nat) (s : State) : Out := .next (Pfx.step s j d Pfx.insert)
/-- PREFIX_FORK (R186). -/
def execPrefixFork (j d : Nat) (s : State) : Out := .next (Pfx.step s j d Pfx.fork)
/-- PREFIX_RELEASE (R186, R191). -/
def execPrefixRelease (j d : Nat) (s : State) : Out := .next (Pfx.step s j d Pfx.release)
/-- PREFIX_FETCH (R186, R188, R191). -/
def execPrefixFetch (j d : Nat) (s : State) : Out := .next (Pfx.step s j d Pfx.fetch)
/-- PREFIX_EVICT (R186, R187). -/
def execPrefixEvict (j d : Nat) (s : State) : Out := .next (Pfx.step s j d Pfx.evict)
/-- PREFIX_SEND (R186, R191). -/
def execPrefixSend (j d : Nat) (s : State) : Out := .next (Pfx.step s j d Pfx.send)

end Machine
end Sys2Proof
end

