-- ==== Sys2Proof/Machine/HubStations.lean ====
section
/-! DEFINITION. Grant and completion of hub executions (spec/02_streams_and_stations.md R46, R47, R501). -/

namespace Sys2Proof
namespace Machine
namespace Hub

open Bits Ops JobOps

/-- An INGEST execution that has taken no queue entry yet. -/
def unentered : DecWork := { Dec.work 0 [] Codecs.decInit 0 [] [] with started := false }
/-- Execution n of descriptor d is granted: the station's start. -/
def begin (s : State) (j : Job) (d n : Nat) : State :=
  let st := stationOf j d
  if st = enc then Enc.start s j d n
  else if st = dec then Dec.start s j d n
  else if st = pfx then Pfx.start s j d n
  else if st = ingest then grant s j.id d n (.dec unentered)
  else startUnit s j d n
/-- Descriptor d of job j is the next that its station grants. -/
def isNext (s : State) (j : Job) (d : Nat) : Bool :=
  let st := stationOf j d
  decide (d < j.prog.length) && Desc.isHub (j.descAt d) && nextGrant s st == some (j.id, d) && !unitBusy s.sched st
/-- The execution x of job j has done its work and completes. -/
def conclude (s : State) (j : Job) (x : HubExec) : State :=
  match x.work with
  | .plain => completed s j.id x.d x.n
  | .enc w =>
    if w.rows.length = Enc.nrows w.sess ∧ w.heldRows = 0 then Enc.finish s j x.d x.n w else s
  | .dec w =>
    if stationOf j x.d = dec then Dec.finish s j x.d x.n w
    else if x.n = Sparse.getD j.hdone x.d 0 then Ing.finish s j x.d x.n w else s
  | .pfx w => Pfx.finish s j x.d x.n w

end Hub

open Bits Ops JobOps

/-- HUB_EXECUTION_GRANT (R46, R501, R387, R393): the execution that comes next at its station is granted, unless its
class has nothing left in this period. -/
def execHubExecutionGrant (j d : Nat) (s : State) : Out :=
  if s.bu.stopped then .next s
  else
    let s := refreshReady s
    match find s.sched j with
    | none => .next s
    | some x =>
      let k := Hub.classOf s x (Hub.stationOf x d)
      if !Hub.isNext s x d then .next s
      else if classOpen s k && energyLeft s.sched k then .next (Hub.begin s x d (Sparse.getD x.hgrant d 0))
      else .next (s.setSched (markStall s.sched k))

/-- HUB_EXECUTION_COMPLETE (R44 to R46): the earliest granted execution of the descriptor completes once its work is
done. -/
def execHubExecutionComplete (j d : Nat) (s : State) : Out :=
  if s.bu.stopped then .next s
  else match find s.sched j with
    | none => .next s
    | some x => match Hub.first x d with
      | none => .next s
      | some e => .next (Hub.conclude s x e)

end Machine
end Sys2Proof
end

