-- ==== Sys2Proof/Machine/Jtag.lean ====
section
/-! DEFINITION. The JTAG instructions (spec/21_management_identity_debug.md R485 to R487, spec/19_security.md R452). -/

namespace Sys2Proof
namespace Machine

open Bits Ops

namespace Tap

/-- The opcode acts as itself at the present LEVEL. -/
def allowed (s : State) (op : Nat) : Bool :=
  match opLevel op with
  | some l => decide (l ≤ s.ident.level)
  | none => false
/-- Load an instruction: what it drives, and what shifts out; an opcode that is not allowed acts as BYPASS. -/
def load (s : State) (op mode : Nat) (tdo : Option Bytes) : State :=
  if allowed s op then s.setIdent { s.ident with ir := op, pinMode := mode, tdo := tdo }
  else s.setIdent { s.ident with ir := 0xFF, pinMode := 0, tdo := none }

end Tap

open Tap

/-- TAP_RESET (R485): Test-Logic-Reset, or TRST_N low, selects IDCODE. -/
def execTapReset (s : State) : Out :=
  .next (s.setIdent { s.ident with ir := 0x01, pinMode := 0, tdo := none })
/-- EXTEST (R487): the boundary-scan cells drive the pins. -/
def execExtest (v : BitVec 23) (s : State) : Out :=
  .next (load (s.setIdent { s.ident with bsUpd := v }) 0x00 1 none)
/-- IDCODE (R485). -/
def execIdcode (s : State) : Out := .next (load s 0x01 0 (some (toLe 4 Config.idcode.toNat)))
/-- SAMPLE (R485, R486): the pins' values are captured. -/
def execJtagSample (pins : BitVec 23) (s : State) : Out :=
  .next (load (s.setIdent { s.ident with bsCap := pins }) 0x02 0 (some (toLe 3 pins.toNat)))
/-- PRELOAD (R485, R486): the update cells are set. -/
def execPreload (v : BitVec 23) (s : State) : Out :=
  .next (load (s.setIdent { s.ident with bsUpd := v }) 0x03 0 none)
/-- HIGHZ (R485, R487). -/
def execHighz (s : State) : Out := .next (load s 0x04 3 none)
/-- CLAMP (R485, R487). -/
def execClamp (s : State) : Out := .next (load s 0x05 2 none)
/-- INT_SCAN (R487): every clock island stops until a cold start: no command that needs a clock has an effect. -/
def execIntScan (s : State) : Out :=
  let ok := allowed s 0x40 && s.pwr.phase == .good
  let s := load s 0x40 0 none
  .next (if ok then (s.setPwr { s.pwr with phase := .scanned }).setBu { s.bu with stopped := true } else s)
/-- MEM_ACCESS (R487): reads or writes the 16-byte unit of a memory address, without translation or seals;
the memory island must have its clock. -/
def execMemAccess (a : Nat) (wr : Option Bytes) (s : State) : Out :=
  if !allowed s 0x41 ∨ s.pwr.phase = .scanned then .next (load s 0x41 0 none)
  else if Config.memTop ≤ a then .fault (.memAccessBeyondTop a)
  else
    let u := a / 16 * 16
    match wr with
    | some d =>
      let (s, lost) := writeMem s ⟨none, 0xFFFFFFFF, 0x10000⟩ 10 u (slice d 0 16)
      .next (load (logLost s lost) 0x41 0 none)
    | none =>
      match readMem s 10 u 16 with
      | (.ok d, s) => .next (load s 0x41 0 (some d))
      | (.bad l, s) =>
        .next (load (logEvent s { status := 0x0302, source := 0x4000 + Memory.stackOf l, arg0 := l, arg1 := 0x10000 })
          0x41 0 none)
      | (.refused, s) => .next (load s 0x41 0 none)
/-- BYPASS (R485): an opcode not listed, or one whose level exceeds LEVEL, acts as BYPASS. -/
def execBypass (op : Byte) (s : State) : Out :=
  if op.toNat = 0xFF ∨ !allowed s op.toNat then
    .next (s.setIdent { s.ident with ir := 0xFF, pinMode := 0, tdo := none })
  else .next s

end Machine
end Sys2Proof
end

