-- ==== Sys2Proof/Machine/Management.lean ====
section
/-! DEFINITION. MCTP, PLDM and SPDM (spec/21_management_identity_debug.md R471 to R477, spec/19_security.md R440 to R442).
The messages' bytes are their standards'; the model keeps what each request does and what it answers. -/

namespace Sys2Proof
namespace Machine

open Bits Ops Starts

namespace Man

/-- MCTP on a binding reaches the K48: 0 SMBus, which JTAG can take away (R487), 1 PCIe VDM. -/
def mctp (s : State) (b : Nat) : Bool := s.pwr.phase == .good && !(b == 0 && s.ident.pinMode != 0)
/-- Answer a request. -/
def reply (s : State) (b code : Nat) (d : Bytes) : State := s.setMgmt { s.mgmt with reply := some ⟨b, code, d⟩ }
/-- Answer a request if it reaches the K48. -/
def onMctp (s : State) (b : Nat) (act : State → State) : State := if mctp s b then act s else s

def success : Nat := 0
def invalidData : Nat := 2

/-- SMB_ALERT_N is driven low while the PLDM queue is not empty (R475). -/
def alertLow (m : Mgmt) : Bool := !m.queue.isEmpty

/-! ### Sensors (R473) -/

/-- Reading of a sensor; voltages in mV and currents in units of 10 mA. -/
def reading (s : State) (k : Nat) : Int :=
  if k = 1 then (s.pwr.pAvg / 1000 : Nat)
  else if k = 2 then (s.pwr.latest.volt : Nat)
  else if k = 3 then (s.pwr.latest.curr : Nat)
  else if k = 4 then s.pwr.hubTemp
  else if k = 5 then (s.pwr.cellTemp.map (·.2)).foldl max (((s.pwr.cellTemp.map (·.2)).head?).getD 0)
  else if k ≤ 13 then Sparse.getD s.mem.temp (k - 6) 0
  else (availCells s.bu : Nat)
/-- Upper critical and upper fatal thresholds. -/
def thresholds (s : State) (k : Nat) : Option (Int × Int) :=
  if k = 1 then some (s.pwr.pOp, Pwr.fused s)
  else if k = 2 then some (60000, 62000)
  else if k = 4 then some (105, 115)
  else if k = 5 then some (s.pwr.tTh + 10, 115)
  else if 6 ≤ k ∧ k ≤ 13 then some (105, 110)
  else none
/-- 0 normal, 1 upper critical, 2 upper fatal. -/
def sensorState (s : State) (k : Nat) : Nat :=
  match thresholds s k with
  | none => 0
  | some (c, f) => if f ≤ reading s k then 2 else if c ≤ reading s k then 1 else 0

/-- Update one sensor; a crossing queues an event (R475). -/
def updateSensor (s : State) (k : Nat) : State :=
  let st := sensorState s k
  let old := Sparse.getD s.mgmt.states k 0
  let m := { s.mgmt with sensors := Sparse.put s.mgmt.sensors k (reading s k), states := Sparse.put s.mgmt.states k st }
  s.setMgmt (if st = old then m else pushPldm m (.sensor k st))

/-- Bytes of a platform event message. -/
def pldmBytes : PldmEvent → Bytes
  | .log e => toLe 8 e.pos ++ Mbox.eventBytes e
  | .sensor k st => toLe 2 k ++ toLe 1 st

/-! ### Measurements (spec/19_security.md R440) -/

def digestOf (s : State) (t : Nat) : Bytes := slice (Sparse.getD s.bu.images t []) 0x10 48
/-- Content of a measurement block; digests and signatures of SPDM are runs of bytes, most significant first (R441). -/
def block (s : State) (i : Nat) : Bytes :=
  let v := Bring.versions s.bu
  if i = 1 then toBe 48 Config.bootRomDigest.toNat
  else if i ≤ 5 then digestOf s (i - 1)
  else if i = 6 then
    toBe 48 (Config.sha384 (toLe 4 v.1.toNat ++ toLe 4 v.2.1.toNat ++ toLe 4 v.2.2.1.toNat ++ toLe 4 v.2.2.2.toNat ++
      toLe 1 (ofBool s.bu.override))).toNat
  else if i = 7 then toLe 4 (Regs.value s .idVariant) ++ toLe 4 (Regs.value s .idBoot)
  else if i = 8 then toLe 1 s.ident.level ++ toLe 2 s.ident.unlocks
  else toLe 8 s.fuses.device

/-- Connection state of a transport: 0 MCTP over SMBus, 1 MCTP over VDM, 2 DOE. -/
def spdmState (s : State) (b : Nat) : Nat := Sparse.getD s.mgmt.spdm b 0
def spdmUp (s : State) (b : Nat) : Bool := if b = 2 then s.pwr.phase == .good else mctp s b
def unexpected : Nat := 4
def invalidRequest : Nat := 1
/-- Serve an SPDM request that is legal in connection state n or later. -/
def onSpdm (s : State) (b n : Nat) (act : State → State) : State :=
  if !spdmUp s b then s else if spdmState s b < n then reply s b unexpected [] else act s
/-- Move a transport's connection state, its transcript extended. -/
def setSpdm (s : State) (b n : Nat) (x : Bytes) : State :=
  s.setMgmt { s.mgmt with spdm := Sparse.put s.mgmt.spdm b n,
                          script := Sparse.put s.mgmt.script b (if n = 1 then x else Sparse.getD s.mgmt.script b [] ++ x) }
def nonceOf (s : State) : Bytes × State := let (n, s) := fresh s; (toLe 32 n.toNat, s)
/-- The device key's signature over a transport's transcript (R442). -/
def sign (s : State) (b : Nat) : Bytes := toBe 96 (Config.deviceSign (Sparse.getD s.mgmt.script b [])).toNat

/-! ### Firmware update (R476, R477) -/

/-- The slot not in force. -/
def spare (s : State) : FlashSlot := if s.bu.slot = 0 then s.flash.slot1 else s.flash.slot0
def putSpare (s : State) (x : FlashSlot) : State :=
  s.setFlash (if s.bu.slot = 0 then { s.flash with slot1 := x } else { s.flash with slot0 := x })
def inForce (s : State) : FlashSlot := if s.bu.slot = 0 then s.flash.slot0 else s.flash.slot1
def slotBytes : Nat := 12582912
/-- A store that an update wants begins now, or waits (R469). -/
def deferStore (s : State) : State := s.setPwr { s.pwr with deferred := true }
/-- Act on the update of a binding. -/
def onUpdate (s : State) (b : Nat) (act : State → Update → State) : State :=
  onMctp s b fun s =>
    match s.mgmt.update with
    | some u => if u.binding = b then act s u else reply s b 0x80 []
    | none => reply s b 0x80 []
def setUpdate (s : State) (u : Option Update) : State := s.setMgmt { s.mgmt with update := u }

end Man

open Man

/-- SET_ENDPOINT_ID (R471): one endpoint ID for each binding. -/
def execSetEndpointId (b : Nat) (eid : Byte) (s : State) : Out :=
  .next (onMctp s b fun s =>
    if eid.toNat = 0 ∨ eid.toNat = 255 then reply s b invalidData []
    else reply (s.setMgmt { s.mgmt with eid := Sparse.put s.mgmt.eid b eid.toNat }) b success [eid])
/-- GET_ENDPOINT_ID (R471). -/
def execGetEndpointId (b : Nat) (s : State) : Out :=
  .next (onMctp s b fun s => reply s b success (toLe 1 (Sparse.getD s.mgmt.eid b 0)))
/-- GET_MCTP_VERSION_SUPPORT (R471): for the message types supported. -/
def execGetMctpVersionSupport (b : Nat) (typ : Byte) (s : State) : Out :=
  .next (onMctp s b fun s => reply s b (if [0, 1, 5, 255].contains typ.toNat then success else 0x80) [])
/-- GET_MESSAGE_TYPE_SUPPORT (R471): control, PLDM and SPDM. -/
def execGetMessageTypeSupport (b : Nat) (s : State) : Out :=
  .next (onMctp s b fun s => reply s b success [0x00#8, 0x01#8, 0x05#8])

/-- PLDM_SENSOR_UPDATE (R473, R475): every 100 ms. -/
def execPldmSensorUpdate (t : Nat) (s : State) : Out :=
  let s := tick s t
  if s.pwr.phase ≠ .good then .next s else .next (((List.range 14).map (· + 1)).foldl updateSensor s)

/-- POLL_FOR_PLATFORM_EVENT_MESSAGE (R475): the oldest message, with the overflow count when some were discarded; with
`ack` the message delivered before is acknowledged and leaves the queue. -/
def execPollForPlatformEventMessage (b : Nat) (ack : Bool) (s : State) : Out :=
  .next (onMctp s b fun s =>
    if ack then
      reply (s.setMgmt { s.mgmt with queue := if s.mgmt.given then s.mgmt.queue.drop 1 else s.mgmt.queue, given := false }) b
        success []
    else match s.mgmt.queue with
      | [] => reply s b success []
      | e :: _ =>
        let d := toLe 4 s.mgmt.overflow ++ pldmBytes e
        reply (s.setMgmt { s.mgmt with overflow := 0, given := true }) b success d)

/-- SET_NUMERIC_EFFECTER (R474): effecter 0x0100 sets P_op as POLICY_SET index 0x0300 does. -/
def execSetNumericEffecter (b : Nat) (eff : Half) (v : Word) (s : State) : Out :=
  .next (onMctp s b fun s =>
    if eff.toNat ≠ 0x0100 then reply s b 0x80 []
    else
      let a := Mbox.policySet s 0 0x0300 v.toNat
      reply a.state b (if a.status = 0 then success else invalidData) [])

/-- REQUEST_UPDATE (R476): four components; one update agent at a time. -/
def execRequestUpdate (b comps size : Nat) (s : State) : Out :=
  .next (onMctp s b fun s =>
    if s.mgmt.update.isSome then reply s b 0x81 []
    else if comps ≠ 4 ∨ size = 0 then reply s b invalidData []
    else reply (setUpdate s (some ⟨b, false, false, [], false, false⟩)) b success [])

/-- PASS_COMPONENT_TABLE (R476): components 1 to 4, at most one flash slot in all. -/
def execPassComponentTable (b : Nat) (comps : List (Nat × Nat)) (s : State) : Out :=
  .next (onUpdate s b fun s u =>
    let sizes := comps.foldl (fun m e => Sparse.put m e.1 e.2) u.sizes
    if comps.any (fun e => e.1 < 1 || 4 < e.1) || slotBytes < (sizes.map (·.2)).sum then reply s b invalidData []
    else reply (setUpdate s (some { u with sizes := sizes, passed := decide (sizes.length = 4) })) b success [])

/-- FIRMWARE_COMPONENT_TRANSFER (R477 step 1): at most 512 bytes of a component are stored in the slot not in force,
which is erased first; a store that may not begin waits (R469). -/
def execFirmwareComponentTransfer (t b comp off : Nat) (part : Bytes) (s : State) : Out :=
  .next (onUpdate (tick s t) b fun s u =>
    let size := Sparse.getD u.sizes comp 0
    if !u.passed ∨ 512 < part.length ∨ size < off + part.length then reply s b invalidData []
    else if !storeOk s.pwr t then deferStore s
    else
      let sl := if u.erased then spare s else ⟨0, []⟩
      let img := splice (Sparse.getD sl.images comp []) off part
      let s := putSpare s { sl with images := Sparse.put sl.images comp img }
      reply (setUpdate s (some { u with erased := true, verified := false, applied := false })) b success [])

/-- VERIFY_COMPLETE (R477 step 2): the written slot authenticates and its versions are a tested combination of its own
hub image. -/
def execVerifyComplete (b : Nat) (s : State) : Out :=
  .next (onUpdate s b fun s u =>
    let b' := { s.bu with images := Bring.byType (spare s) }
    if u.erased && Bring.slotOk s.fuses (spare s) && Bring.tested b' then
      reply (setUpdate s (some { u with verified := true })) b success []
    else reply (setUpdate s (some { u with verified := false })) b 1 [])

/-- APPLY_COMPLETE (R477 step 3). -/
def execApplyComplete (b : Nat) (s : State) : Out :=
  .next (onUpdate s b fun s u =>
    if u.verified then reply (setUpdate s (some { u with applied := true })) b success [] else reply s b 1 [])

/-- ACTIVATE_FIRMWARE (R477 step 4): the written slot's sequence number becomes one above the slot in force. -/
def execActivateFirmware (t b : Nat) (s : State) : Out :=
  .next (onUpdate (tick s t) b fun s u =>
    if !u.applied then reply s b 1 []
    else if !storeOk s.pwr t then deferStore s
    else reply (setUpdate (putSpare s { spare s with seq := (inForce s).seq + 1 }) none) b success [])

/-- CANCEL_UPDATE (R477): the slot in force is unchanged. -/
def execCancelUpdate (b : Nat) (s : State) : Out :=
  .next (onUpdate s b fun s _ => reply (setUpdate s none) b success [])

/-- GET_VERSION (spec/19_security.md R441): SPDM 1.2; the transport's connection starts afresh. -/
def execGetVersion (b : Nat) (s : State) : Out :=
  .next (if spdmUp s b then reply (setSpdm s b 1 [0x84#8]) b success [0x12#8] else s)
/-- GET_CAPABILITIES (R441): CERT_CAP, CHAL_CAP, MEAS_CAP with signature. -/
def execGetCapabilities (b : Nat) (s : State) : Out :=
  .next (onSpdm s b 1 fun s => reply (setSpdm s b (max 2 (spdmState s b)) [0xE1#8]) b success (toLe 4 0x16))
/-- NEGOTIATE_ALGORITHMS (R441): ECDSA P-384 and SHA-384 only. -/
def execNegotiateAlgorithms (b : Nat) (asym hash : Word) (s : State) : Out :=
  .next (onSpdm s b 2 fun s =>
    if bit asym.toNat 7 && bit hash.toNat 1 then
      reply (setSpdm s b 3 (0xE3#8 :: toLe 4 asym.toNat ++ toLe 4 hash.toNat)) b success (toLe 4 0x80 ++ toLe 4 2)
    else reply s b invalidRequest [])
/-- GET_DIGESTS (R441): slot 0 only. -/
def execGetDigests (b : Nat) (s : State) : Out :=
  .next (onSpdm s b 3 fun s =>
    reply (setSpdm s b 3 [0x81#8]) b success (toBe 48 (Config.sha384 Config.certChain).toNat))
/-- GET_CERTIFICATE (R441, R442): a portion of slot 0's chain. -/
def execGetCertificate (b slot off len : Nat) (s : State) : Out :=
  .next (onSpdm s b 3 fun s =>
    if slot ≠ 0 then reply s b invalidRequest []
    else reply (setSpdm s b 3 (0x82#8 :: toLe 2 off ++ toLe 2 len)) b success ((Config.certChain.drop off).take len))
/-- CHALLENGE (R441, R442): signed by the device key. -/
def execChallenge (b slot : Nat) (nonce : BitVec 256) (s : State) : Out :=
  .next (onSpdm s b 3 fun s =>
    if slot ≠ 0 then reply s b invalidRequest []
    else
      let (n, s) := nonceOf s
      let s := setSpdm s b 3 (0x83#8 :: toLe 32 nonce.toNat ++ n)
      reply s b success (n ++ sign s b))
/-- GET_MEASUREMENTS (R440, R441): index 0 the count, 0xFF every block, or one block; signed on request. -/
def execGetMeasurements (b idx : Nat) (sg : Bool) (nonce : BitVec 256) (s : State) : Out :=
  .next (onSpdm s b 3 fun s =>
    let d := if idx = 0 then toLe 1 9
      else if idx = 0xFF then ((List.range 9).map fun i => block s (i + 1)).flatten else block s idx
    if idx ≠ 0 ∧ idx ≠ 0xFF ∧ 9 < idx then reply s b invalidRequest []
    else if sg then
      let (n, s) := nonceOf s
      let s := setSpdm s b 3 (0xE0#8 :: toLe 1 idx ++ toLe 32 nonce.toNat ++ d ++ n)
      reply s b success (d ++ n ++ sign s b)
    else reply (setSpdm s b 3 (0xE0#8 :: toLe 1 idx ++ d)) b success d)

end Machine
end Sys2Proof
end

