-- ==== Sys2Proof/Machine/MemRows.lean ====
section
/-! DEFINITION. The commands of the stacked memory: merging writes, idle flushes, corrections and the patrol scrub
(spec/13_stacked_memory.md R300, R301, R303 to R306, R314). -/

namespace Sys2Proof
namespace Machine
namespace MemRows

open Bits Ops JobOps

/-- The job that holds logical cell lid and runs. -/
def jobOf (s : State) (lid : Nat) : Option Job :=
  s.sched.jobs.find? fun j => (j.phase == .running || j.phase == .adjourning || j.phase == .ending) && j.lids.contains lid
/-- Writer and budget class of a requester of R301 (spec/16_scheduling_and_budgets.md R392). -/
def writer (s : State) (src : Nat) : Writer × Nat :=
  let other : Writer := ⟨none, Check.none32, src⟩
  if src / 65536 = 2 then (other, 9)
  else if src / 65536 = 3 then (other, 8)
  else if src < 3072 then match jobOf s src with
    | some j => (⟨some j.id, Check.none32, src⟩, budget s j)
    | none => (other, 10)
  else (other, 10)
/-- Memory is initialised and out of self refresh. -/
def up (s : State) : Bool := s.pwr.phase == .good && s.mem.selfRef.isEmpty && decide (4 ≤ s.bu.step)

/-- 256 hub cycles, in ns: an entry that no write has reached for as long is flushed (R304 item 3). -/
def idleNs : Nat := 214

/-- A correction that the scrub has put on its way, between m and n, is marked as the scrub's. -/
def markScrub (m n : Mem) (line : Nat) : Mem :=
  match Sparse.get? m.fixes line, Sparse.get? n.fixes line with
  | none, some d => { n with fixes := Sparse.put n.fixes line (d ++ [1#8]) }
  | _, _ => n
/-- Read one codeword on every channel from ch on; lines found uncorrectable are logged (R314). -/
def scrubFrom (s : State) : List Nat → State
  | [] => s
  | ch :: r =>
    let a := Memory.lineAddr ch s.mem.slot s.mem.codeword
    match Memory.readChannel s.mem (a / 64) with
    | (some _, n) => scrubFrom (s.setMem (markScrub s.mem n (a / 64))) r
    | (none, m) =>
      scrubFrom (logEvent (s.setMem m)
        { status := 0x0302, source := 0x4000 + Memory.stackOf a, arg0 := a, arg1 := 0x50000 }) r
/-- The next position: codeword, slot, pass (R314, R315). -/
def advance (m : Mem) : Mem :=
  if m.codeword < 63 then { m with codeword := m.codeword + 1 }
  else if m.slot + 1 < Config.slotsPerChannel then { m with codeword := 0, slot := m.slot + 1 }
  else { m with codeword := 0, slot := 0, passes := m.passes + 1 }

end MemRows

open Ops JobOps in
/-- WC_WRITE_MERGE (R303): bytes of requester src reach their channels. -/
def execWcWriteMerge (src a : Nat) (b : Bytes) (s : State) : Out :=
  if decide (Config.memTop < a + b.length) || !MemRows.up s then .next s
  else
    let (w, k) := MemRows.writer s src
    let (s, lost) := writeMem s w k a b
    .next (settle s lost)

open Ops JobOps in
/-- WC_IDLE_FLUSH (R304): the entry of a line that no write has reached for 256 hub cycles is flushed. -/
def execWcIdleFlush (t line : Nat) (s : State) : Out :=
  let s := tick s t
  let (s, lost) := flushWhere s fun e => e.line == line && decide (e.time + MemRows.idleNs ≤ s.now)
  .next (settle s lost)

/-- CORRECTION_WRITEBACK (R300, R314): a corrected codeword is written back, unless a write reached the line first; the
scrub's own belongs to the scrub class. -/
def execCorrectionWriteback (line : Nat) (s : State) : Out :=
  let own := match Sparse.get? s.mem.fixes line with
    | some d => decide (64 < d.length)
    | none => false
  let t := s.setMem (Memory.writeback s.mem line)
  .next (if own then t.setSched (Ops.charge t.sched 6 1 0) else t)

open Ops in
/-- SCRUB_READ (R314): the patrol scrub reads one codeword on every channel. -/
def execScrubRead (s : State) : Out :=
  if !MemRows.up s then .next s
  else
    let s := MemRows.scrubFrom s (List.range Config.channels)
    .next ((s.setMem (MemRows.advance s.mem)).setSched (charge s.sched 6 Config.channels 0))

end Machine
end Sys2Proof
end

