-- ==== Sys2Proof/Machine/PtpMsgs.lean ====
section
/-! DEFINITION. IEEE 1588 messages in PTP frames: their fields, reception, and the timers that send them
(spec/14_twisil_fabric.md R323, R340 to R342). The spec gives the messages of IEEE 1588-2019 by name; where their fields
lie is that standard's (PRESUMED, log 13). -/

namespace Sys2Proof
namespace Machine
namespace Time

open Bits Ops Link

/-! ### Fields of a message, in the standard's byte order -/

def mType (b : Bytes) : Nat := fld b 0 1 % 16
def mVersion (b : Bytes) : Nat := fld b 1 1 % 16
def mDomain (b : Bytes) : Nat := fld b 4 1
def mTwoStep (b : Bytes) : Bool := bit (fld b 6 1) 1
/-- The correction field, in whole ns. -/
def mCorrection (b : Bytes) : Int := sext 64 (be (slice b 8 8)) / 65536
def mSender (b : Bytes) : Nat := be (slice b 20 10)
def mSeq (b : Bytes) : Nat := be (slice b 30 2)
/-- The timestamp after the header, in ns. -/
def mStamp (b : Bytes) : Nat := be (slice b 34 6) * 1000000000 + be (slice b 40 4)
/-- The port whose Pdelay_Req is answered. -/
def mAsker (b : Bytes) : Nat := be (slice b 44 10)
/-- The dataset of an Announce. -/
def mDataset (b : Bytes) : Master :=
  ⟨fld b 47 1, fld b 48 1, fld b 49 1, be (slice b 50 2), fld b 52 1, be (slice b 53 8), be (slice b 61 2), mSender b⟩

/-- Message types of the standard. -/
def tSync : Nat := 0
def tPdelayReq : Nat := 2
def tPdelayResp : Nat := 3
def tFollowUp : Nat := 8
def tPdelayRespFollowUp : Nat := 0xA
def tAnnounce : Nat := 0xB

/-! ### Messages of this clock -/

/-- This clock's port identity at port p: clock identity, here the device number, and port number p + 1. -/
def portId (s : State) (p : Nat) : Nat := s.fuses.device * 2 ^ 16 + (p + 1)
def stampBytes (ns : Nat) : Bytes := toBe 6 (ns / 1000000000) ++ toBe 4 (ns % 1000000000)
/-- A message of type t and sequence q on port p: length, flags, control, interval and what follows the header. -/
def message (s : State) (t len flags ctl interval p q : Nat) (rest : Bytes) : Bytes :=
  slice (toBe 1 t ++ toBe 1 0x12 ++ toBe 2 len ++ toBe 1 (domain s) ++ toBe 1 0 ++ toBe 2 flags ++ zeros 12 ++
    toBe 10 (portId s p) ++ toBe 2 q ++ toBe 1 ctl ++ toBe 1 interval ++ rest) 0 64
/-- What this clock announces: its slave port's master one step further, else its own dataset. -/
def announced (s : State) : Master :=
  match s.ptp.slave.bind (Sparse.get? s.ptp.masters) with
  | some m => { m with steps := m.steps + 1 }
  | none => own s
def announceMsg (s : State) (p q : Nat) : Bytes :=
  let m := announced s
  message s tAnnounce 64 0x0008 5 0 p q (zeros 10 ++ toBe 2 37 ++ zeros 1 ++ toBe 1 m.prio1 ++ toBe 1 m.cls ++
    toBe 1 m.acc ++ toBe 2 m.var ++ toBe 1 m.prio2 ++ toBe 8 m.gm ++ toBe 2 m.steps ++ toBe 1 0xA0)
def syncMsg (s : State) (p q : Nat) : Bytes := message s tSync 44 0x0208 0 0xFD p q (zeros 10)
def followUpMsg (s : State) (p q : Nat) : Bytes := message s tFollowUp 44 0x0008 2 0xFD p q (stampBytes (ptpTime s))
def pdelayReqMsg (s : State) (p q : Nat) : Bytes := message s tPdelayReq 54 0x0008 5 0 p q (zeros 20)
def pdelayRespMsg (s : State) (p q asker : Nat) : Bytes :=
  message s tPdelayResp 54 0x0208 5 0x7F p q (stampBytes (ptpTime s) ++ toBe 10 asker)
def pdelayRespFollowUpMsg (s : State) (p q asker : Nat) : Bytes :=
  message s tPdelayRespFollowUp 54 0x0008 5 0x7F p q (stampBytes (ptpTime s) ++ toBe 10 asker)

/-- Send a message of type k and sequence q on port p, to the port's partner. -/
def sendMsg (s : State) (k p q : Nat) (m : Bytes) : State :=
  let s := send s p ⟨mkHeader 5 2 0 1 0 0 (portAt s p).partner (myId s) 0 0, m, none, 0#32⟩
  s.setPtp { s.ptp with sent := ⟨k, p, q, ptpTime s⟩ :: s.ptp.sent }

/-- A PTP frame arrives on port p at time t: received, then routed (R328); a message of type k of the clock's domain
for this module is acted on. -/
def arrive (s : State) (t p k : Nat) (fr : Sys2Proof.Frame) (act : State → Bytes → State) : State :=
  match receive (tick s t) p fr with
  | .drop s => s
  | .take f s =>
    if kind f ≠ 5 then s
    else Fab.passOn (routePtp s (dst f) (src f) (tag f)) s f fun s =>
      let b := f.payload
      if mType b = k ∧ mVersion b = 2 ∧ mDomain b = domain s then act s b else s

/-- An Announce on port p: the best master clock algorithm runs; a new slave port starts locking under SOURCE 1. -/
def onAnnounce (s : State) (p : Nat) (b : Bytes) : State :=
  let s := s.setPtp { s.ptp with masters := Sparse.put s.ptp.masters p (mDataset b) }
  let m := best s
  if m = s.ptp.slave then s
  else
    let st := if source s = 1 then (if m.isSome then 1 else 0) else s.ptp.state
    s.setPtp { s.ptp with slave := m, state := st, sync := none, lastSync := s.now }
/-- A two-step Sync of the master on the slave port: its receive time waits for the Follow_Up. -/
def onSync (s : State) (p : Nat) (b : Bytes) : State :=
  if s.ptp.slave = some p ∧ source s = 1 ∧ mTwoStep b ∧
      (Sparse.get? s.ptp.masters p).map (·.sender) = some (mSender b) then
    s.setPtp { s.ptp with sync := some (p, mSeq b, (ptpTime s : Int) - mCorrection b), lastSync := s.now }
  else s
/-- The Follow_Up of that Sync: the offset from the master is measured. A clock that was not locked steps to the master's
time, and is locked; a locked one is only disciplined (R341). -/
def onFollowUp (s : State) (p : Nat) (b : Bytes) : State :=
  match s.ptp.sync with
  | some (q, n, rx) =>
    if q = p ∧ n = mSeq b ∧ source s = 1 then
      let off : Int := rx - ((mStamp b : Int) + mCorrection b + Sparse.getD s.ptp.delay p 0)
      let step : Int := if s.ptp.state = 2 then 0 else off
      discipline (s.setPtp { s.ptp with offset := s.ptp.offset - step, measured := off, state := 2, sync := none })
    else s
  | none => s
/-- A Pdelay_Req is answered. -/
def onPdelayReq (s : State) (p : Nat) (b : Bytes) : State :=
  let s := sendMsg s tPdelayResp p (mSeq b) (pdelayRespMsg s p (mSeq b) (mSender b))
  sendMsg s tPdelayRespFollowUp p (mSeq b) (pdelayRespFollowUpMsg s p (mSeq b) (mSender b))
/-- A Pdelay_Resp to the outstanding Pdelay_Req of port p. -/
def onPdelayResp (s : State) (p : Nat) (b : Bytes) : State :=
  match Sparse.get? s.ptp.pdReq p with
  | some (n, _) =>
    if n = mSeq b ∧ mAsker b = portId s p then
      s.setPtp { s.ptp with pdResp := Sparse.put s.ptp.pdResp p (n, mStamp b, (ptpTime s : Int) - mCorrection b) }
    else s
  | none => s
/-- The Pdelay_Resp_Follow_Up to it: the link's delay, half of what the round trip took beyond the peer's turnaround. -/
def onPdelayRespFollowUp (s : State) (p : Nat) (b : Bytes) : State :=
  match Sparse.get? s.ptp.pdReq p, Sparse.get? s.ptp.pdResp p with
  | some (n, t1), some (m, t2, t4) =>
    if n = mSeq b ∧ m = mSeq b ∧ mAsker b = portId s p then
      let d : Int := ((t4 - t1) - ((mStamp b : Int) + mCorrection b - t2)) / 2
      s.setPtp { s.ptp with delay := Sparse.put s.ptp.delay p d }
    else s
  | _, _ => s

/-- UP ports that this clock is master on: all but the slave port. -/
def masterPorts (s : State) : List Nat := (upPorts s).filter fun p => s.ptp.slave != some p
/-- The sequence of the messages that a timer sends moves on. -/
def nextSeq (s : State) : State := s.setPtp { s.ptp with seq := (s.ptp.seq + 1) % 65536 }

end Time

open Ops Time

/-- ANNOUNCE (R340, R342). -/
def execAnnounce (t p : Nat) (fr : Sys2Proof.Frame) (s : State) : Out := .next (arrive s t p tAnnounce fr fun s b => onAnnounce s p b)
/-- SYNC (R342). -/
def execSync (t p : Nat) (fr : Sys2Proof.Frame) (s : State) : Out := .next (arrive s t p tSync fr fun s b => onSync s p b)
/-- FOLLOW_UP (R340, R341). -/
def execFollowUp (t p : Nat) (fr : Sys2Proof.Frame) (s : State) : Out := .next (arrive s t p tFollowUp fr fun s b => onFollowUp s p b)
/-- PDELAY_REQ (R342). -/
def execPdelayReq (t p : Nat) (fr : Sys2Proof.Frame) (s : State) : Out := .next (arrive s t p tPdelayReq fr fun s b => onPdelayReq s p b)
/-- PDELAY_RESP (R342). -/
def execPdelayResp (t p : Nat) (fr : Sys2Proof.Frame) (s : State) : Out :=
  .next (arrive s t p tPdelayResp fr fun s b => onPdelayResp s p b)
/-- PDELAY_RESP_FOLLOW_UP (R342). -/
def execPdelayRespFollowUp (t p : Nat) (fr : Sys2Proof.Frame) (s : State) : Out :=
  .next (arrive s t p tPdelayRespFollowUp fr fun s b => onPdelayRespFollowUp s p b)

/-- PTP_SYNC_TIMER (R342): Sync and Follow_Up on every master port. -/
def execPtpSyncTimer (t : Nat) (s : State) : Out :=
  let s := tick s t
  let q := s.ptp.seq
  .next ((masterPorts s).foldl (fun s p =>
    sendMsg (sendMsg s tSync p q (syncMsg s p q)) tFollowUp p q (followUpMsg s p q)) (nextSeq s))
/-- PTP_ANNOUNCE_TIMER (R342). -/
def execPtpAnnounceTimer (t : Nat) (s : State) : Out :=
  let s := tick s t
  let q := s.ptp.seq
  .next ((masterPorts s).foldl (fun s p => sendMsg s tAnnounce p q (announceMsg s p q)) (nextSeq s))
/-- PTP_PDELAY_TIMER (R342): Pdelay_Req on every UP port. -/
def execPtpPdelayTimer (t : Nat) (s : State) : Out :=
  let s := tick s t
  let q := s.ptp.seq
  .next ((upPorts s).foldl (fun s p =>
    let s := s.setPtp { s.ptp with pdReq := Sparse.put s.ptp.pdReq p (q, ptpTime s) }
    sendMsg s tPdelayReq p q (pdelayReqMsg s p q)) (nextSeq s))

end Machine
end Sys2Proof
end

