-- ==== Sys2Proof/Machine/Registers.lean ====
section
/-! DEFINITION. Commands that reach BAR0 and BAR2, resets of functions and the PCIe link
(spec/15_host_and_mailboxes.md R346 to R352, R368). -/

namespace Sys2Proof
namespace Machine

open Bits Ops Mbox

namespace Bar

/-- A write of w bytes into function f's own mailbox at offset o of BAR0 (R353): doorbell, W1C bits, MB_IRQ, request. -/
def writeMailbox (s : State) (f o w v : Nat) : State :=
  let m := mboxAt s.host f
  let k := o % 4096
  if k = 0 then (if bit v 0 then go s f else s)
  else if k = 4 then
    s.setHost (putMbox s.host f { m with overrun := m.overrun && !bit v 2, done := m.done && !bit v 1 })
  else if k = 8 then s.setHost (putMbox s.host f { m with irqEn := bit v 0 })
  else if 0x40 ≤ k ∧ k + w ≤ 0x800 then
    s.setHost (putMbox s.host f { m with req := splice (slice m.req 0 1984) (k - 0x40) (toLe w v) })
  else s

def msixCount (f : Nat) : Nat := if f = 0 then 64 else 16

/-- A write to one word of a function's MSI-X table: bit 0 of a vector's last word is its mask; unmasking sends a
pending vector (R352). -/
def writeMsixWord (s : State) (f o v : Nat) : State :=
  let i := (o - 0x8000) / 4
  let vec := i / 4
  let h := { s.host with msixTab := Sparse.put s.host.msixTab (1024 * f + i) v }
  if i % 4 ≠ 3 then s.setHost h
  else if bit v 0 then s.setHost { h with unmasked := h.unmasked.filter (· != (f, vec)) }
  else
    let h := if h.unmasked.contains (f, vec) then h else { h with unmasked := (f, vec) :: h.unmasked }
    if h.msixPend.contains (f, vec) then
      s.setHost (sendVec { h with msixPend := h.msixPend.filter (· != (f, vec)) } f vec)
    else s.setHost h

/-- A write of w bytes at BAR0 offset o by function f (R349, R350). -/
def write (s : State) (f o w v : Nat) : State :=
  if !reachable s f || !Regs.aligned o w then s
  else if 0x8000 ≤ o ∧ o < 0x8000 + 16 * msixCount f then
    let s := writeMsixWord s f o (v % 2 ^ 32)
    if w = 8 then writeMsixWord s f (o + 4) (v / 2 ^ 32 % 2 ^ 32) else s
  else if 0x10000 ≤ o ∧ o < 0x20000 then
    (if (o - 0x10000) / 4096 = f then writeMailbox s f o w (v % 2 ^ (8 * w)) else s)
  else Regs.access s f o w (v % 2 ^ (8 * w))

/-- The bytes of a mailbox as its owner, or the PF, reads them (R353). -/
def mailboxBytes (m : Mailbox) : Bytes :=
  zeros 4 ++ toLe 4 (m.seq * 65536 + 4 * ofBool m.overrun + 2 * ofBool m.done + ofBool m.busy) ++
    toLe 4 (ofBool m.irqEn) ++ zeros 52 ++ slice m.req 0 1984 ++ slice m.resp 0 2048

/-- A read of w bytes at BAR0 offset o by function f. -/
def read (s : State) (f o w : Nat) : State :=
  if !reachable s f then s
  else
    let ans := fun (s : State) (v : Nat) => s.setHost { s.host with lastRead := some ⟨f, .ok, toLe w v⟩ }
    if !Regs.aligned o w then ans s 0
    else if 0x8000 ≤ o ∧ o < 0x8000 + 16 * msixCount f then
      let i := (o - 0x8000) / 4
      let word := fun k => Sparse.getD s.host.msixTab (1024 * f + k) (if k % 4 = 3 then 1 else 0)
      ans s (word i + (if w = 8 then 2 ^ 32 * word (i + 1) else 0))
    else if 0xC000 ≤ o ∧ o < 0xC008 then
      let p := ((s.host.msixPend.filter (·.1 == f)).map fun e => 2 ^ e.2).sum
      ans s (p / 2 ^ (8 * (o - 0xC000)) % 2 ^ (8 * w))
    else if 0x10000 ≤ o ∧ o < 0x20000 then
      let k := (o - 0x10000) / 4096
      -- MB_DOORBELL reads 0, and so do the upper bytes of an 8-byte read of it (R350)
      ans s (if (f = 0 ∨ f = k) ∧ o % 4096 ≠ 0 then fld (mailboxBytes (mboxAt s.host k)) (o % 4096) w else 0)
    else
      let (v, s) := Regs.readReg s f o w
      ans s v

/-- A write of a whole register by function f, as one write of its full width. -/
def whole (s : State) (f o v : Nat) : State :=
  if !reachable s f then s
  else match Regs.regAt o with
  | some (r, base, size) =>
    if Regs.mayWrite s.host f r then Regs.write (s.setHost (Regs.unstage s.host f base size)) f v r else s
  | none => s

/-- The ring's registers and functions' parts after a function-level reset (R368 steps 1 and 4). -/
def resetRings (h : HostIf) (f : Nat) : HostIf :=
  (List.range 64).foldl (fun h r =>
    let x := ringAt h r
    if x.state != 0 && x.owner == f then
      putRing h r { x with base := 0, log2 := 0, vector := 0xFF, tail := 0, head := 0, done := 0, state := 1, bells := [] }
    else h) h

/-- f's rings stop admitting and lose the entries not yet admitted (R368 step 1). -/
def stopRings (h : HostIf) (f : Nat) : HostIf :=
  (List.range 64).foldl (fun h r =>
    let x := ringAt h r
    if x.state != 0 && x.owner == f then putRing h r { x with tail := x.head, bells := [], state := if x.state = 3 then 4 else x.state }
    else h) h

end Bar

/-- REGISTER_WRITE (R349, R350). -/
def execRegisterWrite (f off w : Nat) (v : Dword) (s : State) : Out := .next (Bar.write s f off w v.toNat)
/-- PWR_IN_READ (R459): a read of PWR_IN. -/
def execPwrInRead (f off w : Nat) (s : State) : Out :=
  if off = 0x80000 ∨ off = 0x80004 then .next (Bar.read s f off w) else .next s
/-- JOB_RING_DOORBELL (R363, R304). -/
def execJobRingDoorbell (f r : Nat) (tail : Word) (s : State) : Out :=
  if r < 64 then .next (Bar.write s f (0x20010 + 0x40 * r) 4 tail.toNat) else .next s
/-- TM_NUM_CLEAR (R102): a write of TM_NUM_CTL. -/
def execTmNumClear (f : Nat) (v : Word) (s : State) : Out := .next (Bar.write s f 0x80100 4 v.toNat)
/-- SEAL_EN_WRITE (R317): a write of MEM_CTL. -/
def execSealEnWrite (f : Nat) (v : Word) (s : State) : Out := .next (Bar.write s f 0x300000 4 v.toNat)
/-- ECC_MODE_WRITE (R317): a write of MEM_CTL. -/
def execEccModeWrite (f : Nat) (v : Word) (s : State) : Out := .next (Bar.write s f 0x300000 4 v.toNat)
/-- MEM_SEAL_BASE_WRITE (R317). -/
def execMemSealBaseWrite (f : Nat) (v : Dword) (s : State) : Out := .next (Bar.write s f 0x300008 8 v.toNat)
/-- FAB_ID_WRITE (R344). -/
def execFabIdWrite (f : Nat) (v : Word) (s : State) : Out := .next (Bar.write s f 0x100000 4 v.toNat)
/-- FAB_PTP_SET_WRITE (R341). -/
def execFabPtpSetWrite (f : Nat) (v : Dword) (s : State) : Out := .next (Bar.write s f 0x100020 8 v.toNat)
/-- PORT_RELEASE (R338): a write of FAB_PORT_CTL. -/
def execPortRelease (f p : Nat) (v : Word) (s : State) : Out :=
  if p < 24 then .next (Bar.write s f (0x100100 + 0x20 * p) 4 v.toNat) else .next s
/-- PORT_ENABLE (R338): a write of FAB_PORT_CTL. -/
def execPortEnable (f p : Nat) (v : Word) (s : State) : Out :=
  if p < 24 then .next (Bar.write s f (0x100100 + 0x20 * p) 4 v.toNat) else .next s
/-- FAB_OPQ_TAIL_WRITE (R339, R344). -/
def execFabOpqTailWrite (f q : Nat) (v : Word) (s : State) : Out :=
  if q < 16 then .next (Bar.write s f (0x104010 + 0x20 * q) 4 v.toNat) else .next s
/-- BU_STEP_WRITE (R403). -/
def execBuStepWrite (f : Nat) (v : Word) (s : State) : Out := .next (Bar.write s f 0x100 4 v.toNat)
/-- ID_UNLOCK_WRITE (R453, R454). -/
def execIdUnlockWrite (f : Nat) (v : Dword) (s : State) : Out := .next (Bar.write s f 0x240 8 v.toNat)
/-- ID_DEBUG_LOCK (R452, R454). -/
def execIdDebugLock (f : Nat) (v : Word) (s : State) : Out := .next (Bar.write s f 0x210 4 v.toNat)
/-- FAB_PORT_KEY_WRITE (R451): the whole 512-bit entry, as its last part's write makes it take effect (R350). -/
def execFabPortKeyWrite (f p d k : Nat) (v : BitVec 512) (s : State) : Out :=
  if p < 24 ∧ d < 2 ∧ k < 2 then .next (Bar.whole s f (0x108000 + 0x100 * p + 0x80 * d + 0x40 * k) v.toNat) else .next s
/-- TM_OBS_SEL_WRITE (R483). -/
def execTmObsSelWrite (f k : Nat) (v : Word) (s : State) : Out :=
  if k < 4 then .next (Bar.write s f (0x400000 + 8 * k) 4 v.toNat) else .next s

namespace Bar

/-- A function's PCIe settings at reset, the standard's: payloads of 128 B, read requests of 512 B (PRESUMED, log 6). -/
def pcie0 : PcieFn := ⟨7, 9, 0, 0⟩
def pcieAt (h : HostIf) (f : Nat) : PcieFn := Sparse.getD h.pcie f pcie0
def putPcie (h : HostIf) (f : Nat) (x : PcieFn) : HostIf := { h with pcie := Sparse.put h.pcie f x }
/-- Bytes a to a + n lie in function f's BAR2 (R346). -/
def inBar2 (h : HostIf) (f a n : Nat) : Bool := decide (a + n ≤ 2 ^ Sparse.getD h.bar2 f 30)
/-- The host reaches n bytes at a through function f's BAR2 now: an access outside it is not for this module, and one that
finds the host DMA class exhausted waits (spec/16_scheduling_and_budgets.md R393). -/
def opens (s : State) (f a n : Nat) : Bool := reachable s f && inBar2 s.host f a n
/-- The completion of a BAR2 read; Unsupported Request is reported in the function's AER status. -/
def reply (s : State) (f : Nat) (st : ReadStatus) (d : Bytes) : State :=
  let h := { s.host with lastRead := some ⟨f, st, d⟩ }
  let x := pcieAt h f
  s.setHost (if st = .unsupported then putPcie h f { x with aer := setBit x.aer 20 true } else h)

end Bar

/-- BAR2_READ (R351, R301): data, Unsupported Request, or a poisoned completion. -/
def execBar2Read (f : Nat) (a : Dword) (n : Nat) (s : State) : Out :=
  if !Bar.opens s f a.toNat n then .next s
  else if !txnLeft s.sched 9 then .next (s.setSched (markStall s.sched 9))
  else
    match readLog s f 9 a.toNat n with
    | (.ok d, s) => .next (Bar.reply s f .ok d)
    | (.refused, s) => .next (Bar.reply s f .unsupported [])
    | (.bad l, s) =>
      let s := logEvent s { status := 0x0302, source := 0x5000 + f, arg0 := l, arg1 := 0x20000 }
      .next (Bar.reply s f .poisoned [])

/-- BAR2_WRITE (R351, R303): a refused write is dropped. -/
def execBar2Write (f : Nat) (a : Dword) (b : Bytes) (s : State) : Out :=
  if !Bar.opens s f a.toNat b.length then .next s
  else if !txnLeft s.sched 9 then .next (s.setSched (markStall s.sched 9))
  else match writeLog s ⟨none, 0xFFFFFFFF, 0x20000⟩ 9 f a.toNat b with
    | none => .next s
    | some (s, lost) => .next (logLost s lost)

/-- PCIE_LINK_TRAINING (R346, R479): the link comes up at the highest rate both ends and the carrier allow; widths are
16, 8, 4 and 1 lanes. -/
def execPcieLinkTraining (gen width : Nat) (s : State) : Out :=
  let g := min gen (max 4 s.ident.pcieMax)
  let w := if 16 ≤ width then 16 else if 8 ≤ width then 8 else if 4 ≤ width then 4 else if 1 ≤ width then 1 else 0
  if s.pwr.phase ≠ .good ∨ w = 0 ∨ s.bu.step = 0 then .next s
  else .next (s.setHost { s.host with linkUp := true, perstLow := false, linkGen := g, linkWidth := w })

/-- CONFIGURATION_REQUEST (R346): before the management processor runs the answer is Request Retry Status
(spec/22_electrical_and_mechanical.md, power-up at the pins). After that kind 0 is the power state, of which D0 and D3hot
exist (a write of another state does nothing), 1 the BAR2 size as log2 of bytes, 2 NumVFs, which presents VFs 1 to NumVFs,
3 a DOE mailbox, whose SPDM requests are commands of their own, 4 and 5 log2 of the maximum payload and read request
sizes, 6 the ECRC enables, 7 AER status bits to clear. -/
def execConfigurationRequest (f kind : Nat) (v : Word) (s : State) : Out :=
  let x := v.toNat
  let c := Bar.pcieAt s.host f
  let set := fun c => Host.Outcome.next (s.setHost (Bar.putPcie s.host f c))
  if !s.bu.mpRunning then .next (s.setHost { s.host with lastRead := some ⟨f, .retry, []⟩ })
  else match kind with
  | 0 =>
    let d := s.host.d3.filter (· != f)
    if x = 3 then .next (s.setHost { s.host with d3 := f :: d })
    else if x = 0 then .next (s.setHost { s.host with d3 := d })
    else .next s
  | 1 =>
    let top := if f = 0 then 39 else 36
    if 30 ≤ x ∧ x ≤ top then .next (s.setHost { s.host with bar2 := Sparse.put s.host.bar2 f x }) else .next s
  | 2 => if f = 0 ∧ x ≤ 15 then .next (s.setHost { s.host with numVfs := x }) else .next s
  | 4 => if 7 ≤ x ∧ x ≤ 9 then set { c with payload := x } else .next s
  | 5 => if 7 ≤ x ∧ x ≤ 12 then set { c with request := x } else .next s
  | 6 => set { c with ecrc := x % 4 }
  | 7 => set { c with aer := c.aer - (c.aer &&& x) }
  | _ => .next s

end Machine
end Sys2Proof
end

