-- ==== Sys2Proof/Machine/Resuming.lean ====
section
/-! DEFINITION. Resumption of an adjourned job: its context read and checked, its position, table writes that run again,
and the start of every job whose cells are free (spec/16_scheduling_and_budgets.md R374, R380, R382). -/

namespace Sys2Proof
namespace Machine
namespace Starting

open Bits Ops JobOps

/-! ### Expansion tables (R380 step 4) -/

/-- Step n of table write d, in iteration e, is null by its clip at cell g: it writes no entry (log 50). -/
def blankWrite (j : Job) (c : CellRun) (g d e n : Nat) : Bool :=
  let p := Cells.side { j with epoch := e } c g d n
  p.vr == 0 || p.vc == 0
/-- The latest step of table write d before the resume position that writes entries, as iteration, step. -/
def latestWrite (j : Job) (c : CellRun) (g d : Nat) : Option (Nat × Nat) :=
  match latest j d with
  | none => none
  | some (e, n) =>
    match (List.range (n + 1)).reverse.find? fun k => !blankWrite j c g d e k with
    | some k => some (e, k)
    | none =>
      if e = j.epoch ∧ 0 < j.epoch ∧ ((Tab.claimLevel j.table).isNone ∨ Desc.lv (j.descAt d) = 7) then
        ((List.range (j.iters 0 (Desc.lv (j.descAt d)) * j.perExec d)).reverse.find? fun k =>
          !blankWrite j c g d (e - 1) k).map fun k => (e - 1, k)
      else none
/-- Table writes to run again at cell g: descriptor, iteration and step, the latest of each bank of a table. -/
def rerun (j : Job) (c : CellRun) (g : Nat) : List (Nat × Nat × Nat) :=
  (List.range 32).filterMap fun k =>
    maxStep j (((tableWrites j (k / 2)).filter fun d => Desc.twBank (j.descAt d) == k % 2).filterMap fun d =>
      (latestWrite j c g d).map fun (e, n) => (d, e, n))
/-- Every cell with the table writes it is to run again, and with the banks that the latest reloads read. -/
def withTables (j : Job) : Job :=
  let act := (List.range 16).filterMap fun t => (activeBank j t).map fun b => (t, b)
  { j with cells := j.cells.map fun (g, c) => (g, { c with redo := rerun j c g, active := act }) }

/-! ### Resumption -/

/-- The job ends with status 0x0101 before any tile step: its context has a reserved field that is not 0
(spec/00_scope.md R10). -/
def badContext (s : State) (id : Nat) : State := upd s id fun j => endJob j 0x0101 Check.none32 0xFFFF 0

/-- A placed adjourned job whose cells are free resumes (R380). -/
def resume (s : State) (id : Nat) : State :=
  match find s.sched id with
  | none => s
  | some j =>
    let v := { via s j 0x10000 with cls := 10 }
    match run s 10 (readCtx v (JDesc.context j.desc)) with
    | (.error (.bad l), s) => lose s id 0x0302 Check.none32 0xFFFF srcSched l 0x10000
    | (.error (.refused _), s) => lose s id 0x0301 Check.none32 0xFFFF srcSched (JDesc.context j.desc) 0
    | (.ok x, s) =>
      if !ctxOk x then lose s id 0x0301 Check.none32 0xFFFF srcSched (JDesc.context j.desc) 0
      else if ctxReserved x then badContext s id
      else
        let j := withTables (restored j x)
        let value := if keepsValues j then fld x.wc 0 8 else 0
        let s := s.setSched (put (wcFresh (zeroWindows s.sched j) j value) j)
        -- the events are written in class 10 (R392)
        let (_, s) := run s 10 (if JDesc.events j.desc = 0 then pure ()
          else putEvents { via s j 0x10000 with cls := 10 } j)
        root s id

/-- A waiting job whose cells are free starts, or resumes from its context. -/
def begin (s : State) (id : Nat) : State :=
  match find s.sched id with
  | none => s
  | some j => if j.adjourns = 0 then fresh s id else resume s id

/-- Every waiting job whose cells have become free begins. -/
def startReady (s : State) : State :=
  let go := s.sched.jobs.filter fun j => j.phase == .waiting && (Placing.blockers s.sched j).isEmpty
  refreshReady (go.foldl (fun s j => begin s j.id) s)

end Starting
end Machine
end Sys2Proof
end

