-- ==== Sys2Proof/Machine/Finish.lean ====
section
/-! DEFINITION. How a job completes: numeric record, completion record, DONE, vector (spec/15_host_and_mailboxes.md R366,
R367; spec/04_number_formats.md R100, R101). -/

namespace Sys2Proof
namespace Machine
namespace Finish

open Bits Ops JobOps

/-- STORE descriptors with CENSUS set. -/
def censusDescs (j : Job) : List Nat :=
  (List.range j.prog.length).filter fun d => Desc.station (j.descAt d) == Desc.store && bit (Desc.op (j.descAt d)) 0
/-- The numeric record (R100). -/
def numericRecord (j : Job) : Bytes :=
  let of := fun d => j.tally.filter (·.d == d)
  let cs := censusDescs j
  toLe 2 j.prog.length ++ toLe 2 cs.length ++ zeros 12 ++
    (List.range j.prog.length).flatMap (fun d => toLe 8 ((of d).map (·.sat)).sum ++ toLe 8 ((of d).map (·.flush)).sum) ++
    cs.flatMap fun d => (List.range 4).flatMap fun i => toLe 8 ((of d).map fun t => t.census.getD i 0).sum
/-- The completion record (R366). -/
def record (s : State) (j : Job) : Bytes :=
  JDesc.user j.desc ++ toLe 2 j.status ++
    toLe 2 (ofBool j.relanes + 2 * ofBool s.bu.override + 4 * ofBool (j.adjourns != 0)) ++ toLe 4 j.index ++
    toLe 2 j.cell ++ toLe 1 j.ring ++ toLe 1 0 ++ toLe 4 j.pos ++ toLe 8 (ptpTime s)

/-- Steps 2 to 5 of R367 for a job whose stores are visible; `numeric` unless its program was refused. -/
def report (s : State) (j : Job) (numeric : Bool) : State :=
  let k := budget s j
  let na := JDesc.numeric j.desc
  let s := if numeric ∧ na ≠ 0 then
      match hubWrite s k j.fn na (numericRecord j) with
      | some s => s
      | none => s
    else s
  let ca := JDesc.completion j.desc
  let sent := if ca = 0 then none else hubWrite s k j.fn ca (record s j)
  let s := match sent with
    | some s =>
      if j.status = 0 then s.setSched { s.sched with dones := Sparse.upd s.sched.dones j.fn 0 (satInc top64 · 1) }
      else s.setSched { s.sched with fails := Sparse.upd s.sched.fails j.fn 0 (satInc top64 · 1) }
    | none => logEvent s { status := 0x0101, source := srcSched, fn := j.fn, relanes := j.relanes, arg0 := j.ring, arg1 := j.pos }
  let r := ringAt s.host j.ring
  let h := putRing s.host j.ring { r with done := (r.done + 1) % 2 ^ 32 }
  s.setHost (sendVec h j.fn r.vector)

/-- PERST_N or a hot reset, marked by 0xFF, is over when every function's reset is: every ring becomes UNASSIGNED and
every context binding is cleared (R368). -/
def linkReset (s : State) : State :=
  if s.host.resetting = [0xFF] then
    Mbox.blitzBudgets (s.setHost { s.host with rings := [], ctx := [], resetting := [] })
  else s
/-- The function-level resets whose jobs have all gone finish with step 4 of R368; jobs that a recovery has yet to end
are not gone (spec/18_reliability_and_recovery.md R429). -/
def resetsDone (s : State) : State :=
  if s.recov.isSome then s else
  let fs := s.host.resetting.filter fun f => f != 0xFF && !(s.sched.jobs.any (·.fn == f))
  let h := fs.foldl Bar.resetRings s.host
  linkReset (s.setHost { h with resetting := h.resetting.filter fun f => !fs.contains f })
/-- A ring that drains becomes STOPPED with its last admitted job (R361). -/
def drained (s : State) (ring fn : Nat) : State :=
  let r := ringAt s.host ring
  if r.state = 4 ∧ !(s.sched.jobs.any (·.ring == ring)) ∧ !s.host.resetting.contains fn then
    s.setHost (putRing s.host ring { r with state := 2 }) else s

/-- Completion of job id (R367): its stores become visible, its records are written, and it leaves. -/
def complete (s : State) (id : Nat) : State :=
  match find s.sched id with
  | none => s
  | some j =>
    let (s, lost) := flushWhere s fun e => e.writers.any (·.job == some id)
    let s := settle s lost
    match find s.sched id with
    | none => s
    | some j' =>
      -- a store that never became visible replays the job instead
      if j'.replay && !j.replay then s
      else
        let s := match j'.place with
          | some p => if j'.cls = 0 then
              s.setSched { s.sched with blitzDone := Sparse.put s.sched.blitzDone j'.ring (p, s.now) } else s
          | none => s
        let s := report s j' true
        let s := drop s id
        let s := s.setSched { s.sched with ready := s.sched.ready.filter (·.1 != id) }
        Starting.startReady (resetsDone (drained s j'.ring j'.fn))

end Finish
end Machine
end Sys2Proof
end

