-- ==== Sys2Proof/Machine/Scheduler.lean ====
section
/-! DEFINITION. The hub job scheduler: admission decisions, adjourning, completion, replay, budget periods and blitz
deadlines (spec/16_scheduling_and_budgets.md). -/

namespace Sys2Proof
namespace Machine

open Bits Ops JobOps

namespace Sch

/-- A job as it is admitted from position pos of ring r. -/
def newJob (id r pos : Nat) (x : Ring) (desc : Bytes) : Job :=
  { id := id, ring := r, pos := pos, fn := x.owner, cls := x.cls, desc := desc, prog := [], table := [], seqs := [],
    loop := none, coefs := [], cacheD := [], phase := .waiting, place := none, gr := JDesc.gr desc, status := 0,
    index := Check.none32, cell := 0xFFFF, fcls := 0, adjourns := 0, relanes := false, deadline := none, expired := false,
    adjSeq := 0, replay := false, faults := [], replays := 0, epoch := 0, laneStep := 0, wins := [], cells := [],
    reclaim := [], finished := [], hgrant := [], hdone := [], hexec := [], ingest := [], tally := [] }

/-- Arrival of the doorbell that brought entry n: the first whose TAIL lies past n (R390). -/
def bellOf (x : Ring) (n now : Nat) : Nat :=
  match x.bells.find? fun (t, _) => let k := (t + 2 ^ 32 - n) % 2 ^ 32; decide (1 ≤ k) && decide (k ≤ 2 ^ 31) with
  | some (_, t) => t
  | none => now
/-- S of R388 in ns. -/
def startBound (variant : Nat) : Nat := if variant = 1 then 4798 else if variant = 2 then 5159 else 5676
/-- Periods of the other blitz ring whose job, admitted first, was in the way of placement p after time t: one of its jobs
holds cells of p, or one that completed or adjourned held some until later than t. -/
def otherBlitz (s : State) (r t : Nat) (p : Placement) : Nat :=
  let hit := (blitzRings s.host).filter fun q => q != r &&
    ((s.sched.jobs.any fun j => j.ring == q && match Placing.holds j with
      | some pl => Placing.overlap pl p
      | none => false) ||
    match Sparse.get? s.sched.blitzDone q with
    | some (pl, done) => decide (t ≤ done) && Placing.overlap pl p
    | none => false)
  (hit.map fun q => resvPeriods (ringAt s.host q).resv * 1000 + 1000).sum
/-- Deadline of a blitz job whose doorbell arrived at t (R390). -/
def deadlineOf (s : State) (j : Job) (t : Nat) (p : Placement) : Nat :=
  let count := fun st => ((hubDescs j).filter fun d => Desc.station (j.descAt d) == st).foldl
    (fun n d => n + niter j * hubTotal j d) 0
  t + startBound s.fuses.variant + JDesc.periods j.desc * 1000 + 3000 * count 0x12 + 250 * count 0x11 + 1000 +
    otherBlitz s j.ring t p

/-- The HEAD entry of ring r leaves the ring (R363, R376). -/
def leaveRing (s : State) (r : Nat) (x : Ring) : State :=
  let head := (x.head + 1) % 2 ^ 32
  let bells := x.bells.filter fun (t, _) => let k := (t + 2 ^ 32 - head) % 2 ^ 32; decide (1 ≤ k) && decide (k ≤ 2 ^ 31)
  let s := s.setHost (putRing s.host r { x with head := head, bells := bells })
  s.setSched { s.sched with subs := Sparse.upd s.sched.subs x.owner 0 (satInc top64 · 1),
                            rr := Sparse.put s.sched.rr x.cls r, nextId := s.sched.nextId + 1 }

/-- The entry leaves with a refusal, or with a job-lost error of its structures: its record and DONE follow at once. -/
def refuseEntry (s : State) (r : Nat) (x : Ring) (j : Job) (st ix : Nat) : State :=
  Finish.report (leaveRing s r x) { j with status := st, index := ix } false
/-- An entry that cannot be read is not admitted: the ring moves to STOPPED (R363). -/
def badEntry (s : State) (r : Nat) (x : Ring) (st a0 a1 : Nat) : State :=
  let s := s.setHost (putRing s.host r { x with state := 2 })
  logEvent s { status := st, source := srcSched, fn := x.owner, arg0 := a0, arg1 := a1 }

/-- The HEAD entry of ring r as a candidate: none when it cannot be placed now. -/
def tryRing (s : State) (r : Nat) : Option State :=
  let x := ringAt s.host r
  let k := if x.cls = 0 then budgetClass s.host r 0 else x.cls + 1
  if x.state ≠ 3 ∨ x.head = x.tail ∨ Config.maxJobs ≤ s.sched.jobs.length ∨
      (x.cls = 0 ∧ s.sched.jobs.any (·.ring == r)) then none
  else
    match readLog s x.owner k (x.base + 128 * (x.head % 2 ^ x.log2)) 128 with
    | (.refused, s) => some (badEntry s r x 0x0101 r x.head)
    | (.bad l, s) => some (badEntry s r x 0x0302 l 0x10000)
    | (.ok desc, s) =>
      let id := s.sched.nextId
      let j := newJob id r x.head x desc
      match Load.run s k (via s j 0x10000) x.resv j with
      | (.error (.refuse st ix), s) => some (refuseEntry s r x j st ix)
      | (.error (.bad l), s) =>
        let s := log s j 0x0302 srcSched 3 l 0x10000
        some (refuseEntry s r x j 0x0302 Check.none32)
      | (.ok j, s) =>
        let esp := j.espalier
        if (if esp then Starts.reduced s.bu else !Placing.shapeFits s (JDesc.gr desc) (JDesc.gc desc)) then
          some (refuseEntry s r x j 0x0603 Check.none32)
        else
          match Placing.locate s x.cls esp (JDesc.gr desc) (JDesc.gc desc) with
          | none => none
          | some p =>
            (Placing.place s.sched x.cls j p).map fun (c, j) =>
              let j := if x.cls = 0 then { j with deadline := some (deadlineOf s j (bellOf x x.head s.now) p) } else j
              let s := leaveRing (s.setSched { c with jobs := c.jobs ++ [j] }) r x
              Starting.startReady s

/-- The shapes an adjourned job may resume in, in order of preference (R397). -/
def resumeShapes (s : State) (j : Job) : List Nat :=
  if j.espalier then [0]
  else if Placing.shapeFits s j.gr (JDesc.gc j.desc) then [j.gr]
  else if JDesc.countFree j.desc then (List.range j.gr).reverse.filter (0 < ·)
  else []
/-- An adjourned job as a candidate: it resumes, or ends with 0x0603 (R374, R397); none when it waits. -/
def tryJob (s : State) (j : Job) : Option State :=
  if (if j.espalier then Starts.reduced s.bu else (resumeShapes s j).isEmpty && !JDesc.countFree j.desc) then
    some (set s (endJob j 0x0603 Check.none32 0xFFFF 0))
  else
    ((resumeShapes s j).findSome? fun gr => Placing.locate s (rank j) j.espalier gr (JDesc.gc j.desc)).bind fun p =>
      (Placing.place s.sched (rank j) j p).map fun (c, j) => Starting.startReady (s.setSched (put c j))

/-- Rings of class k, round-robin from the one after the last admitted from (R372). -/
def ringsOf (s : State) (k : Nat) : List Nat :=
  let rs := (List.range 64).filter fun r => let x := ringAt s.host r; x.state == 3 && x.cls == k
  match Sparse.get? s.sched.rr k with
  | some l => rs.filter (l < ·) ++ rs.filter (· ≤ l)
  | none => rs
/-- Adjourned jobs of class k in the order in which they adjourned. -/
def adjournedOf (s : State) (k : Nat) : List Job :=
  (List.range s.sched.nextAdj).filterMap fun n =>
    s.sched.jobs.find? fun j => j.phase == .adjourned && rank j == k && j.adjSeq == n
/-- One admission decision: the first candidate in the order of R372 that does something. -/
def decide1 (s : State) : Option State :=
  (List.range 4).findSome? fun k =>
    match (adjournedOf s k).findSome? (tryJob s) with
    | some t => some t
    | none => (ringsOf s k).findSome? (tryRing s)

/-- Steps in flight that R36 counts as not started, or none at all. -/
def drainedCell (j : Job) (c : CellRun) : Bool :=
  c.flights.all fun f => let st := Desc.station (j.descAt f.d); st == Desc.load || st == Desc.store || st == Desc.scat
/-- Step 2 of R377 is over. -/
def mayAdjourn (j : Job) : Bool := j.hexec.all unstarted && j.cells.all fun (_, c) => drainedCell j c

/-- A blitz job that leaves its cells is remembered with its placement and the time (R390). -/
def leftCells (s : State) (j : Job) : Sparse (Placement × Nat) :=
  match j.place with
  | some p => if j.cls = 0 then Sparse.put s.sched.blitzDone j.ring (p, s.now) else s.sched.blitzDone
  | none => s.sched.blitzDone
/-- Steps 3 and 4 of R377: the job is adjourned and holds nothing. -/
def adjourn (s : State) (id : Nat) : State :=
  let s := Starting.writeContext s id
  match find s.sched id with
  | none => s
  | some j =>
    let n := s.sched.nextAdj
    let s := set s { j with place := none, wins := [], adjSeq := n, hexec := [] }
    Starting.startReady (s.setSched { s.sched with nextAdj := n + 1, blitzDone := leftCells s j })

/-- The job may complete: all its work is done, or its end is decided and what had issued is complete. -/
def mayComplete (j : Job) : Bool :=
  match j.phase with
  | .running => !j.replay && allDone j && still j
  | .ending => still j
  | _ => false

/-- A budget class at the end of a period (R393 to R395). -/
def endPeriod (b : Budget) : Budget :=
  let excess := fun cur lim df => if lim = noLimit then 0 else cur - (lim - df)
  { b with usedTxn := min noLimit b.curTxn, usedNj := min noLimit (b.curE / 100000), curTxn := 0, curE := 0,
           defTxn := excess b.curTxn b.limTxn b.defTxn,
           defE := if b.limNj = noLimit then 0 else b.curE - (b.limNj * 100000 - b.defE),
           limTxn := b.newTxn, limNj := b.newNj, stalled := false,
           stalls := if b.stalled then satInc top64 b.stalls 1 else b.stalls }

end Sch

/-- ADMISSION_DECISION (R372): one decision takes one candidate (log 20). -/
def execAdmissionDecision (s : State) : Out :=
  if s.bu.stopped then .next s
  else match Sch.decide1 s with
    | some t => .next t
    | none => .next s

/-- ADJOURN_CONTEXT_WRITE (R377 step 3). -/
def execAdjournContextWrite (j : Nat) (s : State) : Out :=
  match find s.sched j with
  | none => .next s
  | some x => if x.phase = .adjourning && Sch.mayAdjourn x && !s.bu.stopped then .next (Sch.adjourn s j) else .next s

/-- JOB_COMPLETION (R367). -/
def execJobCompletion (j : Nat) (s : State) : Out :=
  match find s.sched j with
  | none => .next s
  | some x => if Sch.mayComplete x && !s.bu.stopped then .next (Finish.complete s j) else .next s

/-- JOB_REPLAY (R421): the job adjourns and resumes at once on its placement. -/
def execJobReplay (j : Nat) (s : State) : Out :=
  match find s.sched j with
  | none => .next s
  | some x =>
    if x.phase = .running && x.replay && Sch.mayAdjourn x && !s.bu.stopped then
      .next (refreshReady (Starting.resume (Starting.writeContext s j) j))
    else .next s

/-- BUDGET_PERIOD (R393): every class's period ends, and new limits take effect (R394); so does that of the throttled
stacks' traffic (spec/13_stacked_memory.md R313). -/
def execBudgetPeriod (s : State) : Out :=
  let c := charge s.sched 5 (refreshTxn s.mem) 0
  .next (s.setSched { c with budgets :=
    (List.range Config.budgetClasses ++ (List.range 8).map (16 + ·)).foldl (fun m k => Sparse.put m k (Sch.endPeriod (budgetAt c k))) c.budgets })

/-- BLITZ_DEADLINE_EXPIRY (R391): the job runs on under the urgent class. -/
def execBlitzDeadlineExpiry (t j : Nat) (s : State) : Out :=
  let s := tick s t
  match find s.sched j with
  | none => .next s
  | some x => match x.deadline with
    | some d => if decide (d ≤ s.now) && !x.expired then .next (set s { x with expired := true }) else .next s
    | none => .next s

end Machine
end Sys2Proof
end

