-- ==== Sys2Proof/Machine/Resets.lean ====
section
/-! DEFINITION. Resets of functions and of the PCIe link (spec/15_host_and_mailboxes.md R368). -/

namespace Sys2Proof
namespace Machine

open Bits Ops JobOps

namespace Rst

/-- The PCIe side of function f after its reset: mailbox and staged accesses at reset, D0, MSI-X masked; a reset of the
PF presents no VF until NumVFs is written again, and payload size and AER status stay (log 6). Captured registers stay
(R350). -/
def functionState (h : HostIf) (f : Nat) : HostIf :=
  { h with mbox := Sparse.del h.mbox f, held := h.held.filter (·.1 != f), d3 := h.d3.filter (· != f),
           unmasked := h.unmasked.filter (·.1 != f), msixPend := h.msixPend.filter (·.1 != f),
           msixTab := h.msixTab.filter (fun e => e.1 / 1024 != f), staged := h.staged.filter (·.1 != f),
           numVfs := if f = 0 then 0 else h.numVfs }
/-- Steps 1 to 3 of R368 for function f. -/
def start (s : State) (f : Nat) : State :=
  let h := functionState (Bar.stopRings s.host f) f
  let s := s.setHost { h with resetting := if h.resetting.contains f then h.resetting else f :: h.resetting }
  s.setSched { s.sched with jobs := s.sched.jobs.map fun j =>
    if j.fn == f then (endJob j 0x0105 Check.none32 0xFFFF 0) else j }
/-- A function-level reset of every function, then the link's part. -/
def all (s : State) : State :=
  let s := (List.range Config.functions).foldl start s
  Finish.resetsDone (s.setHost { s.host with resetting := (s.host.resetting.filter (· != 0xFF)) ++ [0xFF], linkUp := false, linkGen := 0,
                                             linkWidth := 0 })

end Rst

/-- FUNCTION_LEVEL_RESET (R368). -/
def execFunctionLevelReset (f : Nat) (s : State) : Out :=
  if f < Config.functions then .next (Finish.resetsDone (Rst.start s f)) else .next s
/-- FUNCTION_RESET_JOB_END (R368 step 2): a job of a function in reset has reached its tile-step boundary. -/
def execFunctionResetJobEnd (j : Nat) (s : State) : Out :=
  match find s.sched j with
  | none => .next s
  | some x =>
    if s.host.resetting.contains x.fn && x.phase == .ending && still x && !s.bu.stopped then .next (Finish.complete s j)
    else .next s
/-- PERST_N_ASSERT (R368). -/
def execPerstNAssert (s : State) : Out :=
  let s := Rst.all s
  .next (s.setHost { s.host with perstLow := true })
/-- LINK_HOT_RESET (R368). -/
def execLinkHotReset (s : State) : Out := .next (Rst.all s)

end Machine
end Sys2Proof
end

