-- ==== Sys2Proof/Machine/Recovery.lean ====
section
/-! DEFINITION. HUB_BOOT, warm starts, recovery from module-lost faults, overlong steps and the later steps of castling
(spec/17_bring_up.md R398 to R400, R418; spec/18_reliability_and_recovery.md; spec/19_security.md R438). -/

namespace Sys2Proof
namespace Machine
namespace Recov

open Bits Ops JobOps

/-! ### Warm start (spec/17_bring_up.md R399) -/

/-- A warm start has been ordered, by RESTART or by a module-lost fault (R398). -/
def ordered (b : BringUp) : Bool := b.lostArg.isSome || b.restart == some true
/-- A granted codec execution or PREFIX request that must complete, or be cut, before the stop (R248, R428 step 2). -/
def mustEnd (x : HubExec) : Bool :=
  match x.work with
  | .plain => false
  | _ => !unstarted x
def hubsDone (c : Sched) : Bool := c.jobs.all fun j => j.hexec.all fun x => !mustEnd x

/-- R316: write-combining entries are flushed and the correction write-backs complete. -/
def settleMemory (s : State) : State :=
  let (s, lost) := flushWhere s fun _ => true
  let s := settle s lost
  s.setMem (s.mem.fixes.foldl (fun m e => Memory.writeback m e.1) s.mem)
/-- What the recovery area holds of a state (R429). -/
def area (s : State) : RecArea :=
  ⟨s.host.rings, s.host.ctx, s.cache, s.pwr.polP, s.pwr.polT, s.pwr.polF, s.sched.budgets, s.sched.jobs, s.fab⟩
/-- The area at a warm start. One that an unfinished recovery has left still counts; only the fabric settings, which a
management processor that runs has restored, may have changed since. -/
def keptArea (s : State) : RecArea :=
  match s.recov with
  | none => area s
  | some r => if s.bu.mpRunning then { r with fab := s.fab } else r

/-- A port after the hub's reset: FAB_PORT_VIOL and FAB_PORT_ERR keep their counts (R400). -/
def blankPort (x : Port) : Port :=
  { Link.port0 with viol := x.viol, lastReason := x.lastReason, replays := x.replays, fecUncorr := x.fecUncorr,
                    late := x.late }
/-- The fabric block after the hub's reset. -/
def resetFabric (f : Fabric) : Fabric :=
  { State.resetFabric with
    port := f.port.map fun (p, x) => (p, blankPort x),
    sent := f.sent }
/-- Budgets at reset; the stall counts stay. -/
def resetBudgets (c : Sched) : Sparse Budget :=
  c.budgets.map fun (k, b) => (k, { budget0 k with stalls := b.stalls })
/-- The hub's reset of a warm start: bring-up restarts with AUTO 1 at HUB_BOOT (R399, R403). The defect map, the
known-answer passes, the override and the engines out of service (R410) stay. -/
def resetHub (s : State) : State :=
  let f := s.fuses.variant
  let s := s.setHost { s.host with rings := [], ctx := [] }
  let s := s.setCache State.reset.cache
  let s := s.setPwr { s.pwr with polP := Config.pwrLimit f, polT := 100, polF := Config.clkMax f }
  let s := s.setSched { State.resetSched with nextId := s.sched.nextId, subs := s.sched.subs, dones := s.sched.dones,
                                              fails := s.sched.fails, budgets := resetBudgets s.sched }
  let s := s.setCodec { s.codec with enc := [], dec := [] }
  let s := s.setFab (resetFabric s.fab)
  let s := s.setMgmt { s.mgmt with update := none }
  let s := s.setMem { s.mem with selfRef := List.range 8, eccMode := false, sealEn := false, sealBase := 0 }
  s.setBu { s.bu with auto := true, step := 1, phase := 0, code := 0, skipped := 0, reject := false, warm := true,
                      fwBase := 0, images := [], cellFw := [], waves := 0, wavesOn := false,
                      lastWave := 0, castling := [], withdrawn := [], recovering := true, mpRunning := false,
                      stopped := true, lostArg := none, restart := none }

/-- Steps 1 to 3 of R399: memory settled, the recovery area kept, the hub reset. -/
def warmStart (s : State) : State :=
  let s := settleMemory s
  let r := keptArea s
  Starts.startStep ((resetHub s).setRecov (some r)) 1

/-! ### HUB_BOOT (spec/19_security.md R438) -/

/-- The slot taken: index, images, and whether the other came first and did not authenticate. -/
def bootSlot (s : State) : Option (Nat × FlashSlot × Bool) :=
  let a := (0, s.flash.slot0)
  let b := (1, s.flash.slot1)
  let (p, q) := if a.2.seq < b.2.seq then (b, a) else (a, b)
  if Bring.slotOk s.fuses p.2 then some (p.1, p.2, false)
  else if Bring.slotOk s.fuses q.2 then some (q.1, q.2, true)
  else none
/-- A thermal trip latched in the hot-swap controller is logged (spec/20_power_thermal_measurement.md R466). -/
def logTrip (s : State) : State :=
  match s.pwr.trip with
  | none => s
  | some (a0, t) =>
    logEvent (s.setPwr { s.pwr with trip := none })
      { status := 0x0802, source := 0x7000, cls := 4, arg0 := a0, arg1 := wrap 64 t }
/-- The fabric settings come back from the recovery area (R400). -/
def restoreFabric (s : State) : State :=
  match s.recov with
  | none => s
  | some r =>
    s.setFab { s.fab with idValid := r.fab.idValid, group := r.fab.group, member := r.fab.member, ptpCtl := r.fab.ptpCtl,
                          grp := r.fab.grp, mbr := r.fab.mbr, region := r.fab.region, opq := r.fab.opq, cfg := r.fab.cfg }
/-- A stack left self refresh before MEM_TRAIN: the warm start becomes a cold start (R398). -/
def losesMemory (s : State) : Bool := s.bu.warm && !(List.range 8).all s.mem.selfRef.contains
def hubBoot (c : Bytes) (s : State) : State :=
  let s := if losesMemory s then Starts.coldState s else s
  let s := logTrip s
  match bootSlot s with
  | none => Starts.stepStop s 0x0402 0x6000 0 0
  | some (k, sl, second) =>
    let s := s.setIdent (Bring.readCarrier s.ident c)
    let s := s.setBu { s.bu with images := Bring.byType sl, slot := k, fallback := second, mpRunning := true }
    let s := restoreFabric s
    Mbox.runHeld (Bring.stepDone s)

/-! ### Restoration (R429) -/

/-- Limits of the saved budgets. -/
def restoreBudgets (saved : Sparse Budget) (c : Sched) : Sched :=
  saved.foldl (fun c (k, b) =>
    { c with budgets := Sparse.put c.budgets k { budgetAt c k with limTxn := b.limTxn, limNj := b.limNj,
                                                                   newTxn := b.newTxn, newNj := b.newNj } }) c
/-- A ring as it was before the fault; a DRAINING ring has become STOPPED. -/
def restoreRing (x : Ring) : Ring := { x with state := if x.state = 4 then 2 else x.state, bells := [] }
/-- Every job ends with 0x0105, in admission order. -/
def endJobs (s : State) (js : List Job) : State :=
  js.foldl (fun s j => Finish.report s { j with status := 0x0105, index := Check.none32, cell := 0xFFFF } true) s
/-- Positions of queue q that were issued and are not complete. -/
def openRecords (s : State) (q : Nat) : List Nat :=
  let o := Regs.opqAt s q
  ((List.range ((o.next + 2 ^ 32 - o.head) % 2 ^ 32)).map fun i => (o.head + i) % 2 ^ 32).filter fun n =>
    !o.done.contains n && !s.fab.txns.any fun t => t.owner == .opq q n
/-- Such records are written complete with 0x0505 (R400). -/
def endRecords (s : State) : State :=
  (List.range Config.functions).foldl (fun s q =>
    (openRecords s q).foldl (fun s n => Fab.opqDone s q n 0x0505 0 0) s) s
/-- A mailbox whose command had not committed is answered with 0x0102 (R429 step 5). -/
def endCommands (s : State) : State :=
  (s.host.mbox.filter fun (f, m) => m.busy && !s.host.held.any (·.1 == f)).foldl (fun s (f, m) =>
    Mbox.respond s f 0x0102 (fld m.req 0 2) (fld m.req 4 4) (Mbox.stateWord s f 0xFF) []) s
/-- Downtime is counted, and the module-lost notification sent (R431, R435). -/
def notifyBack (s : State) : State :=
  match s.bu.downFrom with
  | none => s
  | some t =>
    let s := Bring.countDown s ((s.now - t) / 1000000)
    s.setHost (sendVec s.host 0 1)
def restore (s : State) (r : RecArea) : State :=
  let s := s.setHost { s.host with rings := r.rings.map fun (k, x) => (k, restoreRing x), ctx := r.ctx }
  let s := (s.setCache r.cache).setPwr { s.pwr with polP := r.polP, polT := r.polT, polF := r.polF }
  let s := Mbox.blitzBudgets (s.setSched (restoreBudgets r.budgets s.sched))
  let s := endRecords (endJobs (s.setRecov none) r.jobs)
  let s := notifyBack (Finish.resetsDone (endCommands s))
  s.setBu { s.bu with recovering := false, downFrom := none }

/-! ### The cut at the bound (R428 step 2) -/

/-- The state area of a cut session is not defined (R429 step 4): its bytes become free values. -/
def undefine (s : State) (j : Job) (st a n : Nat) : State :=
  let k := s.free
  let s := s.setFree (k + 1)
  (run s 7 (MM.write (Hub.viaOf s j st Check.none32) a (slice (Config.stateImage (Codecs.microcode s) k) 0 n))).2
/-- A started codec execution or PREFIX request of job j is cut. -/
def cut (s : State) (j : Job) (x : HubExec) : State :=
  let s := Hub.dropExec s j.id x.d x.n
  match x.work with
  | .enc w => undefine (Codecs.release s true w.addr j.fn false) j Hub.enc (Enc.state w.sess) (Enc.areaBytes w.sess)
  | .dec w =>
    if w.fin || w.sess.isEmpty then s
    else undefine (Codecs.release s false w.addr j.fn false) j (Hub.stationOf j x.d) (Dec.state w.sess) Dec.stateBytes
  | _ => s
def cutAll (s : State) : State :=
  s.sched.jobs.foldl (fun s j => (j.hexec.filter mustEnd).foldl (fun s x => cut s j x) s) s

/-- When the module-lost fault that waits for its warm start was detected. -/
def detected (b : BringUp) : Nat := b.recent.getLastD 0

end Recov

namespace Castle

open Bits Ops JobOps

/-- Castlings of row i whose map change is due, and whether no job holds their positions any more. -/
def due (b : BringUp) (i : Nat) : List Castling := b.castling.filter fun e => e.row == i && !e.mapped
def vacated (s : State) (ls : List Nat) : Bool := ls.all fun l => (Placing.holders s.sched l).isEmpty
/-- A moved cell that fails is removed, with a record when it is its known-answer run that fails (R410). -/
def fails (s : State) (i : Nat) (e : Nat × Option (Word × Word)) : State :=
  let p := Starts.physIdx (i / 16) (i % 16) e.1
  let s := match e.2 with
    | some (x, c) => Bring.katReport s (0x1000 + p) p x.toNat c.toNat
    | none => s
  remove s p
/-- Steps 3 and 4 of R418: row i takes its new map, and the cells that moved fetch their copies and run their streams. -/
def change (s : State) (i : Nat) (bad : List (Nat × Option (Word × Word))) : State :=
  let es := due s.bu i
  let b := es.foldl (fun b e => setOut b i e.col) s.bu
  let b := { b with castling := b.castling.map fun e => if e.row = i then { e with mapped := true } else e }
  let ps := ((es.flatMap (·.lids)).eraseDups).filterMap (Starts.physOf b.outMap)
  let failing := bad.filter fun e => ps.contains (Starts.physIdx (i / 16) (i % 16) e.1)
  let good := ps.filter fun p => !failing.any fun e => Starts.physIdx (i / 16) (i % 16) e.1 == p
  let v := (Bring.versions b).2.1
  let b := good.foldl (fun b p => { b with cellFw := Sparse.put b.cellFw p v, kat := Sparse.put b.kat p (ptpTime s) }) b
  let s := Bring.chargeFetch (s.setBu b) (ps.length + (failing.filter fun e => e.2.isNone).length)
  failing.foldl (fun s e => fails s i e) s
/-- Step 5: positions of row i that no other castling holds are available again. -/
def giveBack (b : BringUp) (i : Nat) : BringUp :=
  let back := (b.castling.filter fun e => e.row == i && e.mapped).flatMap (·.lids)
  let rest := b.castling.filter fun e => !(e.row == i && e.mapped)
  { b with castling := rest,
           withdrawn := b.withdrawn.filter fun l => !back.contains l || rest.any (·.lids.contains l) }

end Castle

open Bits Ops JobOps

/-- HUB_BOOT (spec/19_security.md R438, spec/17_bring_up.md R398, R400): the operand is the carrier record as read. -/
def execHubBoot (carrier : Bytes) (s : State) : Out := .next (Bring.onStep s 1 (Recov.hubBoot carrier))

/-- WARM_START (R399): it waits for the codec executions and PREFIX requests that have been granted. -/
def execWarmStart (t : Nat) (s : State) : Out :=
  let s := tick s t
  if Recov.ordered s.bu && Recov.hubsDone s.sched then .next (Recov.warmStart s) else .next s

/-- OVERLONG_STEP_TIMEOUT (R422, R423): the step in flight is replayed; where it recurs its cell is declared failed. -/
def execOverlongStepTimeout (j g d : Nat) (s : State) : Out :=
  match find s.sched j with
  | none => .next s
  | some x => match (Sparse.get? x.cells g).bind fun c => c.flights.find? (·.d == d) with
    | none => .next s
    | some f =>
      let k : FaultKey := ⟨0x0302, some g, d, f.n, x.epoch⟩
      let lid := x.lid g
      if x.faults.contains k then
        .next (Castle.declare (log (abandon s j g d) x 0x0302 lid 2 0 lid (removes := true)) lid)
      else .next (fault (abandon s j g d) j k lid lid 0 lid)

/-- CASTLING_MAP_CHANGE (R418 steps 3 and 4), once no job holds the positions concerned. -/
def execCastlingMapChange (i : Nat) (bad : List (Nat × Option (Word × Word))) (s : State) : Out :=
  let es := Castle.due s.bu i
  if es.isEmpty || !Castle.vacated s (es.flatMap (·.lids)) then .next s else .next (Castle.change s i bad)

/-- CASTLING_RETURN (R418 step 5). -/
def execCastlingReturn (i : Nat) (s : State) : Out := .next (s.setBu (Castle.giveBack s.bu i))

/-- MODULE_LOST_FAULT (R427, R428). -/
def execModuleLostFault (t : Nat) (arg1 : Dword) (s : State) : Out := .next (Recov.moduleLost (tick s t) arg1.toNat)
/-- MP_WATCHDOG_TIMEOUT (R427): no heartbeat of a management processor core for 50 ms. -/
def execMpWatchdogTimeout (t core : Nat) (s : State) : Out := .next (Recov.moduleLost (tick s t) (0x60000 + core))
/-- LOCKSTEP_MISMATCH (R427): a core and its checker differ. -/
def execLockstepMismatch (t core : Nat) (s : State) : Out := .next (Recov.moduleLost (tick s t) (0x60000 + core))

/-- RECOVERY_RESTORE (R429), after READY. -/
def execRecoveryRestore (t : Nat) (s : State) : Out :=
  let s := tick s t
  match s.recov with
  | none => .next s
  | some r => if Mbox.ready s then .next (Recov.restore s r) else .next s

/-- RECOVERY_CUT_BOUND (R428 step 2, R248): 50 ms after the fault, what still runs is cut. -/
def execRecoveryCutBound (t : Nat) (s : State) : Out :=
  let s := tick s t
  if s.bu.lostArg.isSome && decide (Recov.detected s.bu + 50000000 ≤ s.now) then .next (Recov.cutAll s) else .next s

end Machine
end Sys2Proof
end

