-- ==== Sys2Proof/Machine/Scat.lean ====
section
/-! DEFINITION. SCAT: one row through the hub's atomic unit (spec/08_attention_and_paged_cache.md R170, R171, R178 to
R181). -/

namespace Sys2Proof
namespace Machine
namespace Scat

open Bits Ops JobOps CacheOps

/-- Target word: POS, SEQ, and whether its reserved bits are 0 (R178). -/
def wPos (w : Nat) : Nat := field w 31 0
def wSeq (w : Nat) : Nat := field w 47 32
def wOk (w : Nat) : Bool := field w 63 48 == 0

/-- What a row comes to: nothing to report, or the status of the fault of R123. -/
inductive Row where
  | ok
  | fails (status : Nat)
  deriving DecidableEq, Repr

/-- Copy on write of a SHARED entry (R180): the entry to write, or none where the pool is exhausted. -/
def copyOnWrite (v : Via) (c : Bytes) (now e : Nat) : MM (Option Nat) := do
  let t ← readTree v c
  let n ← ownerOf v t (ePage e)
  let b ← readNode v t n
  let r := eRefs (nOwn b)
  if r = 1 then
    freeNode v c t n
    pure (some (mkEntry true false false false (eFill e) 1 (ePage e)))
  else
    match ← popPage v c now with
    | none => pure none
    | some p => do
      let d ← MM.read v (poolBase c + ePage e * pageBytes c) (pageBytes c)
      MM.write v (poolBase c + p * pageBytes c) d
      setRefsOf v t n (r - 1)
      pure (some (mkEntry true false false false (eFill e) 1 p))
/-- The entry that row POS of a sequence writes through, allocated or copied first (R179 steps 1 to 3). -/
def mapEntry (v : Via) (c : Bytes) (now : Nat) (alloc : Bool) (w : Nat) : MM (Except Nat (Seq × Nat)) := do
  let i := wPos w / 256
  let t := wPos w % 256
  if !wOk w || decide (seqSlots c ≤ wSeq w) then pure (.error 0x0209)
  else
    let q ← readSeq v c (wSeq w)
    if q.entries ≤ i then pure (.error 0x0209)
    else
      MM.flush v (entryAddr q i)
      let e ← readEntry v q i
      if eRemote e || ePending e then pure (.error 0x0209)
      else if !eValid e then
        if !alloc then pure (.error 0x0209)
        else match ← popPage v c now with
          | none => pure (.error 0x020A)
          | some p => do
            let e := mkEntry true false false false 0 1 p
            putEntry v q i e
            pure (.ok (q, e))
      else if eShared e then
        if t < eFill e then pure (.error 0x0209)
        else match ← copyOnWrite v c now e with
          | none => pure (.error 0x020A)
          | some e => do
            putEntry v q i e
            pure (.ok (q, e))
      else pure (.ok (q, e))

/-- Bytes of an element of the cache. -/
def eltBytes (c : Bytes) : Nat := if cfmt c = 2 ∨ cfmt c = 3 then 2 else 1
def hasCodes (c : Bytes) : Bool := !(cfmt c == 2 || cfmt c == 3)
/-- Where element e of position t goes in its plane: its byte, and its scale byte (R170, R179 step 4). -/
def place (c : Bytes) (value : Bool) (t e : Nat) : Nat × Nat :=
  let tile := (dt c * (t / 32) + e / 32) * tileBytes c
  let w := eltBytes c
  if value then (tile + (t % 32 * 32 + e % 32) * w, tile + 1024 + e % 32)
  else (tile + (e % 32 * 32 + t % 32) * w, tile + 1024 + t % 32)
/-- Write the codes of a row at POS t of the page whose plane begins at a. -/
def putRow (v : Via) (c : Bytes) (value : Bool) (a t code : Nat) : List (Nat × Nat) → MM Unit
  | [] => pure ()
  | (e, x) :: r => do
    let (o, k) := place c value t e
    MM.write v (a + o) (toLe (eltBytes c) x)
    if hasCodes c then MM.write v (a + k) [BitVec.ofNat 8 code] else pure ()
    putRow v c value a t code r
/-- The row's committed position (R179 step 5). -/
def advanceTo (v : Via) (c : Bytes) (q : Seq) (w e : Nat) : MM Unit := do
  let i := wPos w / 256
  MM.flush v (entryAddr q i)
  putEntry v q i (setFill e (max (eFill e) (wPos w % 256 + 1)))
  MM.flush v (seqAddr c (wSeq w))
  let q ← readSeq v c (wSeq w)
  setLen v c (wSeq w) (max q.len (wPos w + 1))

/-- One row: the marks of its conversion, and the memory lines it wrote: elements, scales, page-table entry, LEN, free
stack and nodes (spec/13_stacked_memory.md R304). -/
def row (v : Via) (c : Bytes) (now : Nat) (x : Bytes) (w : Nat) (vals : List Val) : MM (Row × Marks × List Nat) := do
  match ← mapEntry v c now (Desc.alloc x) w with
  | .error st => pure (.fails st, Cells.noMarks, [])
  | .ok (q, e) => do
    let p := Desc.plane x
    let code ← if hasCodes c then MM.get v (codes c + p) 1 else pure 127
    let (cs, m) := Cells.runNum (vals.mapM fun y => Fmt.conv (cfmt c) code none y)
    let a := poolBase c + ePage e * pageBytes c + p * planeBytes c
    let t := wPos w % 256
    let value := p % 2 == 1
    putRow v c value a t code (cs.zipIdx.map fun (y, i) => (i, y))
    if Desc.advance x then advanceTo v c q w e else pure ()
    let ls ← MM.wrote
    pure (.ok, m, ls)

end Scat

open Ops JobOps in
/-- ATOMIC_UNIT_REQUEST (R179, R181): the next row of the SCAT step in flight at cell g. -/
def execAtomicUnitRequest (j g : Nat) (s : State) : Out :=
  match find s.sched j with
  | none => .next s
  | some x =>
    match Cells.cellOf x g with
    | none => .next s
    | some c => match c.flights.find? fun f => Desc.station (x.descAt f.d) == Desc.scat with
      | none => .next s
      | some f =>
        if s.bu.stopped || decide (Cells.scatRows x c g f.d f.n ≤ f.row) then .next s
        else
          let d := x.descAt f.d
          let a := (Cells.operand x c g f.d f.n 0 0).getD (Cells.nullOf d)
          let b := (Cells.operand x c g f.d f.n 1 0).getD (Cells.nullOf d)
          let w := Bits.fld b.data (8 * f.row) 8
          let (vals, m) := Cells.runNum ((List.range a.vc).mapM fun k => a.decode f.row k)
          -- an exhausted class issues nothing (spec/16_scheduling_and_budgets.md R393)
          if !txnLeft s.sched (budget s x) then .next (s.setSched (markStall s.sched (budget s x)))
          else match run s (budget s x) (Scat.row (viaAt s x (cellSrc x g) f.d) x.cacheD (ptpTime s) d w vals) with
          | (.error e, s) => .next (Cells.stopOn (tally s j (some g) f.d f.n f.d f.marks []) x g f.d f.n e)
          | (.ok (.fails st, _, _), s) => .next (Cells.refuse (tally s j (some g) f.d f.n f.d f.marks []) j g f.d st w)
          | (.ok (.ok, m', ls), s) =>
            let f := { f with row := f.row + 1, marks := Cells.addMarks f.marks (Cells.addMarks m m'),
                              lines := f.lines ++ ls.filter fun l => !f.lines.contains l }
            .next (upd s j fun y => match Cells.cellOf y g with
              | none => y
              | some c => Cells.putCell y g (Cells.putFlight c f))

end Machine
end Sys2Proof
end

