-- ==== Sys2Proof/Machine/Dispatch.lean ====
section
/-! DEFINITION. One arm for each command. -/

namespace Sys2Proof
namespace Machine

def exec (i : Instr) (s : State) : Host.Outcome State Fault Refusal :=
  match i with
  | .registerWrite f off w v => Sys2Proof.Machine.execRegisterWrite f off w v s
  | .pwrInRead f off w => Sys2Proof.Machine.execPwrInRead f off w s
  | .jobRingDoorbell f r tail => Sys2Proof.Machine.execJobRingDoorbell f r tail s
  | .tmNumClear f v => Sys2Proof.Machine.execTmNumClear f v s
  | .sealEnWrite f v => Sys2Proof.Machine.execSealEnWrite f v s
  | .eccModeWrite f v => Sys2Proof.Machine.execEccModeWrite f v s
  | .memSealBaseWrite f v => Sys2Proof.Machine.execMemSealBaseWrite f v s
  | .fabIdWrite f v => Sys2Proof.Machine.execFabIdWrite f v s
  | .fabPtpSetWrite f v => Sys2Proof.Machine.execFabPtpSetWrite f v s
  | .portRelease f p v => Sys2Proof.Machine.execPortRelease f p v s
  | .portEnable f p v => Sys2Proof.Machine.execPortEnable f p v s
  | .fabOpqTailWrite f q v => Sys2Proof.Machine.execFabOpqTailWrite f q v s
  | .buStepWrite f v => Sys2Proof.Machine.execBuStepWrite f v s
  | .idUnlockWrite f v => Sys2Proof.Machine.execIdUnlockWrite f v s
  | .idDebugLock f v => Sys2Proof.Machine.execIdDebugLock f v s
  | .fabPortKeyWrite f p d k v => Sys2Proof.Machine.execFabPortKeyWrite f p d k v s
  | .tmObsSelWrite f k v => Sys2Proof.Machine.execTmObsSelWrite f k v s
  | .getState f tag => Sys2Proof.Machine.execGetState f tag s
  | .getInfo f tag => Sys2Proof.Machine.execGetInfo f tag s
  | .ringAssign f tag a0 a1 => Sys2Proof.Machine.execRingAssign f tag a0 a1 s
  | .ringSetup f tag a0 a1 a2 => Sys2Proof.Machine.execRingSetup f tag a0 a1 a2 s
  | .ringEnable f tag a0 => Sys2Proof.Machine.execRingEnable f tag a0 s
  | .ringDisable f tag a0 => Sys2Proof.Machine.execRingDisable f tag a0 s
  | .contextBind f tag a0 a1 => Sys2Proof.Machine.execContextBind f tag a0 a1 s
  | .sessionClose f tag a0 a1 => Sys2Proof.Machine.execSessionClose f tag a0 a1 s
  | .roleSet f tag a0 a1 => Sys2Proof.Machine.execRoleSet f tag a0 a1 s
  | .policySet f tag a0 a1 => Sys2Proof.Machine.execPolicySet f tag a0 a1 s
  | .eventRead f tag a0 a1 a2 => Sys2Proof.Machine.execEventRead f tag a0 a1 a2 s
  | .eventAck f tag a0 => Sys2Proof.Machine.execEventAck f tag a0 s
  | .override f tag a0 => Sys2Proof.Machine.execOverride f tag a0 s
  | .restart f tag a0 => Sys2Proof.Machine.execRestart f tag a0 s
  | .functionLevelReset f => Sys2Proof.Machine.execFunctionLevelReset f s
  | .functionResetJobEnd j => Sys2Proof.Machine.execFunctionResetJobEnd j s
  | .perstNAssert => Sys2Proof.Machine.execPerstNAssert s
  | .linkHotReset => Sys2Proof.Machine.execLinkHotReset s
  | .pcieLinkTraining gen width => Sys2Proof.Machine.execPcieLinkTraining gen width s
  | .bar2Read f a n => Sys2Proof.Machine.execBar2Read f a n s
  | .bar2Write f a b => Sys2Proof.Machine.execBar2Write f a b s
  | .admissionDecision => Sys2Proof.Machine.execAdmissionDecision s
  | .adjournContextWrite j => Sys2Proof.Machine.execAdjournContextWrite j s
  | .jobCompletion j => Sys2Proof.Machine.execJobCompletion j s
  | .budgetPeriod => Sys2Proof.Machine.execBudgetPeriod s
  | .blitzDeadlineExpiry t j => Sys2Proof.Machine.execBlitzDeadlineExpiry t j s
  | .tileStepIssue j g d => Sys2Proof.Machine.execTileStepIssue j g d s
  | .tileStepComplete j g d => Sys2Proof.Machine.execTileStepComplete j g d s
  | .sumLinkTransfer j p m => Sys2Proof.Machine.execSumLinkTransfer j p m s
  | .stationaryReload j g => Sys2Proof.Machine.execStationaryReload j g s
  | .shadowSwap j g => Sys2Proof.Machine.execShadowSwap j g s
  | .firstOverflowFault j g => Sys2Proof.Machine.execFirstOverflowFault j g s
  | .claimRequest j g => Sys2Proof.Machine.execClaimRequest j g s
  | .claimAnswer j g => Sys2Proof.Machine.execClaimAnswer j g s
  | .meshTimeout j g => Sys2Proof.Machine.execMeshTimeout j g s
  | .softmaxCompletionStep j g d => Sys2Proof.Machine.execSoftmaxCompletionStep j g d s
  | .loopIterationAdvance j => Sys2Proof.Machine.execLoopIterationAdvance j s
  | .hubExecutionGrant j d => Sys2Proof.Machine.execHubExecutionGrant j d s
  | .hubExecutionComplete j d => Sys2Proof.Machine.execHubExecutionComplete j d s
  | .encBlockRow j d => Sys2Proof.Machine.execEncBlockRow j d s
  | .encChunkEmit j d => Sys2Proof.Machine.execEncChunkEmit j d s
  | .decPictureOutput j d n => Sys2Proof.Machine.execDecPictureOutput j d n s
  | .ingestEntry j d => Sys2Proof.Machine.execIngestEntry j d s
  | .ingestDelivery j d => Sys2Proof.Machine.execIngestDelivery j d s
  | .liveTickEmit t j d => Sys2Proof.Machine.execLiveTickEmit t j d s
  | .prefixLookup j d => Sys2Proof.Machine.execPrefixLookup j d s
  | .prefixInsert j d => Sys2Proof.Machine.execPrefixInsert j d s
  | .prefixFork j d => Sys2Proof.Machine.execPrefixFork j d s
  | .prefixRelease j d => Sys2Proof.Machine.execPrefixRelease j d s
  | .prefixFetch j d => Sys2Proof.Machine.execPrefixFetch j d s
  | .prefixEvict j d => Sys2Proof.Machine.execPrefixEvict j d s
  | .prefixSend j d => Sys2Proof.Machine.execPrefixSend j d s
  | .leaseLapse t n => Sys2Proof.Machine.execLeaseLapse t n s
  | .atomicUnitRequest j g => Sys2Proof.Machine.execAtomicUnitRequest j g s
  | .wcWriteMerge src a b => Sys2Proof.Machine.execWcWriteMerge src a b s
  | .wcIdleFlush t line => Sys2Proof.Machine.execWcIdleFlush t line s
  | .correctionWriteback line => Sys2Proof.Machine.execCorrectionWriteback line s
  | .scrubRead => Sys2Proof.Machine.execScrubRead s
  | .stackTempSample k temp => Sys2Proof.Machine.execStackTempSample k temp s
  | .portTraining t p locked => Sys2Proof.Machine.execPortTraining t p locked s
  | .trainingLockTimeout t p => Sys2Proof.Machine.execTrainingLockTimeout t p s
  | .portRetryTimer t p => Sys2Proof.Machine.execPortRetryTimer t p s
  | .idle t p fr => Sys2Proof.Machine.execIdle t p fr s
  | .req t p fr => Sys2Proof.Machine.execReq t p fr s
  | .read src tag => Sys2Proof.Machine.execRead src tag s
  | .write src tag => Sys2Proof.Machine.execWrite src tag s
  | .fetchAdd src tag => Sys2Proof.Machine.execFetchAdd src tag s
  | .cmpSwap src tag => Sys2Proof.Machine.execCmpSwap src tag s
  | .swap src tag => Sys2Proof.Machine.execSwap src tag s
  | .pageRead src tag => Sys2Proof.Machine.execPageRead src tag s
  | .pageWrite src tag => Sys2Proof.Machine.execPageWrite src tag s
  | .prefixRequest src tag => Sys2Proof.Machine.execPrefixRequest src tag s
  | .data t p fr => Sys2Proof.Machine.execData t p fr s
  | .resp t p fr => Sys2Proof.Machine.execResp t p fr s
  | .linkHello t p fr => Sys2Proof.Machine.execLinkHello t p fr s
  | .linkCredit t p fr => Sys2Proof.Machine.execLinkCredit t p fr s
  | .linkReplay t p fr => Sys2Proof.Machine.execLinkReplay t p fr s
  | .linkNak t p fr => Sys2Proof.Machine.execLinkNak t p fr s
  | .linkQuarantine t p fr => Sys2Proof.Machine.execLinkQuarantine t p fr s
  | .replayRequestRepeat t p => Sys2Proof.Machine.execReplayRequestRepeat t p s
  | .idleSendTimer t p => Sys2Proof.Machine.execIdleSendTimer t p s
  | .creditReturnTimer t p => Sys2Proof.Machine.execCreditReturnTimer t p s
  | .quarantineBeacon t p => Sys2Proof.Machine.execQuarantineBeacon t p s
  | .forwardQueueTimeout t p => Sys2Proof.Machine.execForwardQueueTimeout t p s
  | .transactionTimeout t tag => Sys2Proof.Machine.execTransactionTimeout t tag s
  | .targetWriteTimeout t src tag => Sys2Proof.Machine.execTargetWriteTimeout t src tag s
  | .opqRecordIssue q => Sys2Proof.Machine.execOpqRecordIssue q s
  | .announce t p fr => Sys2Proof.Machine.execAnnounce t p fr s
  | .sync t p fr => Sys2Proof.Machine.execSync t p fr s
  | .followUp t p fr => Sys2Proof.Machine.execFollowUp t p fr s
  | .pdelayReq t p fr => Sys2Proof.Machine.execPdelayReq t p fr s
  | .pdelayResp t p fr => Sys2Proof.Machine.execPdelayResp t p fr s
  | .pdelayRespFollowUp t p fr => Sys2Proof.Machine.execPdelayRespFollowUp t p fr s
  | .ptpSyncTimer t => Sys2Proof.Machine.execPtpSyncTimer t s
  | .ptpAnnounceTimer t => Sys2Proof.Machine.execPtpAnnounceTimer t s
  | .ptpPdelayTimer t => Sys2Proof.Machine.execPtpPdelayTimer t s
  | .ppsInEdge t high rise => Sys2Proof.Machine.execPpsInEdge t high rise s
  | .ptpSourceLoss t => Sys2Proof.Machine.execPtpSourceLoss t s
  | .p48vRise mv => Sys2Proof.Machine.execP48vRise mv s
  | .powerGood t => Sys2Proof.Machine.execPowerGood t s
  | .p48vUndervoltage mv => Sys2Proof.Machine.execP48vUndervoltage mv s
  | .p48vOvervoltage mv => Sys2Proof.Machine.execP48vOvervoltage mv s
  | .powerSample t mv curr mw rail => Sys2Proof.Machine.execPowerSample t mv curr mw rail s
  | .pwrBrakeNFall t => Sys2Proof.Machine.execPwrBrakeNFall t s
  | .brakeRelease t => Sys2Proof.Machine.execBrakeRelease t s
  | .controlWindow => Sys2Proof.Machine.execControlWindow s
  | .cellTempSample k temp => Sys2Proof.Machine.execCellTempSample k temp s
  | .hubTempSample temp => Sys2Proof.Machine.execHubTempSample temp s
  | .hubBoot carrier => Sys2Proof.Machine.execHubBoot carrier s
  | .memTrain failing => Sys2Proof.Machine.execMemTrain failing s
  | .memInit => Sys2Proof.Machine.execMemInit s
  | .cellWaves => Sys2Proof.Machine.execCellWaves s
  | .cellWave t settled => Sys2Proof.Machine.execCellWave t settled s
  | .defectMap => Sys2Proof.Machine.execDefectMap s
  | .cellFirmware bad => Sys2Proof.Machine.execCellFirmware bad s
  | .knownAnswer cells engines => Sys2Proof.Machine.execKnownAnswer cells engines s
  | .linkTrain assemblies => Sys2Proof.Machine.execLinkTrain assemblies s
  | .ready => Sys2Proof.Machine.execReady s
  | .stepRetryTimer t => Sys2Proof.Machine.execStepRetryTimer t s
  | .warmStart t => Sys2Proof.Machine.execWarmStart t s
  | .jobReplay j => Sys2Proof.Machine.execJobReplay j s
  | .overlongStepTimeout j g d => Sys2Proof.Machine.execOverlongStepTimeout j g d s
  | .castlingMapChange k bad => Sys2Proof.Machine.execCastlingMapChange k bad s
  | .castlingReturn k => Sys2Proof.Machine.execCastlingReturn k s
  | .moduleLostFault t arg1 => Sys2Proof.Machine.execModuleLostFault t arg1 s
  | .mpWatchdogTimeout t core => Sys2Proof.Machine.execMpWatchdogTimeout t core s
  | .lockstepMismatch t core => Sys2Proof.Machine.execLockstepMismatch t core s
  | .recoveryRestore t => Sys2Proof.Machine.execRecoveryRestore t s
  | .flashLogStore t => Sys2Proof.Machine.execFlashLogStore t s
  | .fieldMaskStore t => Sys2Proof.Machine.execFieldMaskStore t s
  | .setEndpointId b eid => Sys2Proof.Machine.execSetEndpointId b eid s
  | .getEndpointId b => Sys2Proof.Machine.execGetEndpointId b s
  | .getMctpVersionSupport b typ => Sys2Proof.Machine.execGetMctpVersionSupport b typ s
  | .getMessageTypeSupport b => Sys2Proof.Machine.execGetMessageTypeSupport b s
  | .pldmSensorUpdate t => Sys2Proof.Machine.execPldmSensorUpdate t s
  | .pollForPlatformEventMessage b ack => Sys2Proof.Machine.execPollForPlatformEventMessage b ack s
  | .setNumericEffecter b eff v => Sys2Proof.Machine.execSetNumericEffecter b eff v s
  | .requestUpdate b comps size => Sys2Proof.Machine.execRequestUpdate b comps size s
  | .passComponentTable b comps => Sys2Proof.Machine.execPassComponentTable b comps s
  | .firmwareComponentTransfer t b comp off part => Sys2Proof.Machine.execFirmwareComponentTransfer t b comp off part s
  | .verifyComplete b => Sys2Proof.Machine.execVerifyComplete b s
  | .applyComplete b => Sys2Proof.Machine.execApplyComplete b s
  | .activateFirmware t b => Sys2Proof.Machine.execActivateFirmware t b s
  | .cancelUpdate b => Sys2Proof.Machine.execCancelUpdate b s
  | .getVersion b => Sys2Proof.Machine.execGetVersion b s
  | .getCapabilities b => Sys2Proof.Machine.execGetCapabilities b s
  | .negotiateAlgorithms b asym hash => Sys2Proof.Machine.execNegotiateAlgorithms b asym hash s
  | .getDigests b => Sys2Proof.Machine.execGetDigests b s
  | .getCertificate b slot off len => Sys2Proof.Machine.execGetCertificate b slot off len s
  | .challenge b slot nonce => Sys2Proof.Machine.execChallenge b slot nonce s
  | .getMeasurements b idx sign nonce => Sys2Proof.Machine.execGetMeasurements b idx sign nonce s
  | .cablePoll t c a => Sys2Proof.Machine.execCablePoll t c a s
  | .vcblOvercurrent c => Sys2Proof.Machine.execVcblOvercurrent c s
  | .tapReset => Sys2Proof.Machine.execTapReset s
  | .extest v => Sys2Proof.Machine.execExtest v s
  | .idcode => Sys2Proof.Machine.execIdcode s
  | .jtagSample pins => Sys2Proof.Machine.execJtagSample pins s
  | .preload v => Sys2Proof.Machine.execPreload v s
  | .highz => Sys2Proof.Machine.execHighz s
  | .clamp => Sys2Proof.Machine.execClamp s
  | .intScan => Sys2Proof.Machine.execIntScan s
  | .memAccess a wr => Sys2Proof.Machine.execMemAccess a wr s
  | .bypass op => Sys2Proof.Machine.execBypass op s
  | .p48vOvervoltageClear mv => Sys2Proof.Machine.execP48vOvervoltageClear mv s
  | .pwrBrakeNRise t => Sys2Proof.Machine.execPwrBrakeNRise t s
  | .configurationRequest f kind v => Sys2Proof.Machine.execConfigurationRequest f kind v s
  | .syndromeLockLoss t p => Sys2Proof.Machine.execSyndromeLockLoss t p s
  | .recoveryCutBound t => Sys2Proof.Machine.execRecoveryCutBound t s
  | .recentFaultAgeOut t => Sys2Proof.Machine.execRecentFaultAgeOut t s
  | .taiYearChange year => Sys2Proof.Machine.execTaiYearChange year s

end Machine
end Sys2Proof
end

