-- ==== Sys2Proof/WellFormed.lean ====
section
/-! DEFINITION. Well-formed commands: every operand that names a unit of the K48 names one that exists, and every field
that a message carries fits its width. The machine gives every command a meaning; a command that is not well formed
is one that nothing outside the block can send. -/

namespace Sys2Proof

/-- A PCIe function or client queue (spec/15_host_and_mailboxes.md R346). -/
def isFn (f : Nat) : Bool := decide (f < 16)
/-- A fabric port (spec/14_twisil_fabric.md R319). -/
def isPort (p : Nat) : Bool := decide (p < 24)
/-- A cell of a job, at most the 3,072 of the array (spec/00_scope.md R8). -/
def isCell (g : Nat) : Bool := decide (g < 3072)
/-- A descriptor of a program (spec/02_streams_and_stations.md R24). -/
def isDesc (d : Nat) : Bool := decide (d < 1024)
/-- An endpoint number and a transaction tag (spec/14_twisil_fabric.md R322). -/
def isEndpoint (n : Nat) : Bool := decide (n < 65536)
def isTag (n : Nat) : Bool := decide (n < 4096)

/-- The operands of a command lie in their ranges. -/
def Instr.wf (c : Instr) : Bool :=
  match c with
  | .registerWrite f off w _ => isFn f && (w == 4 || w == 8) && decide (off < 0x1000000)
  | .pwrInRead f off w => isFn f && (w == 4 || w == 8) && decide (off < 0x1000000)
  | .jobRingDoorbell f r _ => isFn f && decide (r < 64)
  | .tmNumClear f _ => isFn f
  | .sealEnWrite f _ => isFn f
  | .eccModeWrite f _ => isFn f
  | .memSealBaseWrite f _ => isFn f
  | .fabIdWrite f _ => isFn f
  | .fabPtpSetWrite f _ => isFn f
  | .portRelease f p _ => isFn f && isPort p
  | .portEnable f p _ => isFn f && isPort p
  | .fabOpqTailWrite f q _ => isFn f && isFn q
  | .buStepWrite f _ => isFn f
  | .idUnlockWrite f _ => isFn f
  | .idDebugLock f _ => isFn f
  | .fabPortKeyWrite f p d k _ => isFn f && isPort p && decide (d < 2) && decide (k < 2)
  | .tmObsSelWrite f k _ => isFn f && decide (k < 4)
  | .getState f _ => isFn f
  | .getInfo f _ => isFn f
  | .ringAssign f _ _ _ => isFn f
  | .ringSetup f _ _ _ _ => isFn f
  | .ringEnable f _ _ => isFn f
  | .ringDisable f _ _ => isFn f
  | .contextBind f _ _ _ => isFn f
  | .sessionClose f _ _ _ => isFn f
  | .roleSet f _ _ _ => isFn f
  | .policySet f _ _ _ => isFn f
  | .eventRead f _ _ _ _ => isFn f
  | .eventAck f _ _ => isFn f
  | .override f _ _ => isFn f
  | .restart f _ _ => isFn f
  | .functionLevelReset f => isFn f
  | .functionResetJobEnd _ => true
  | .perstNAssert => true
  | .linkHotReset => true
  | .pcieLinkTraining gen width => [4, 5, 6].contains gen && [1, 2, 4, 8, 16].contains width
  | .bar2Read f _ n => isFn f && decide (0 < n)
  | .bar2Write f _ b => isFn f && !b.isEmpty
  | .admissionDecision => true
  | .adjournContextWrite _ => true
  | .jobCompletion _ => true
  | .budgetPeriod => true
  | .blitzDeadlineExpiry _ _ => true
  | .tileStepIssue _ g d => isCell g && isDesc d
  | .tileStepComplete _ g d => isCell g && isDesc d
  | .sumLinkTransfer _ p _ => isCell p
  | .stationaryReload _ g => isCell g
  | .shadowSwap _ g => isCell g
  | .firstOverflowFault _ g => isCell g
  | .claimRequest _ g => isCell g
  | .claimAnswer _ g => isCell g
  | .meshTimeout _ g => isCell g
  | .softmaxCompletionStep _ g d => isCell g && isDesc d
  | .loopIterationAdvance _ => true
  | .hubExecutionGrant _ d => isDesc d
  | .hubExecutionComplete _ d => isDesc d
  | .encBlockRow _ d => isDesc d
  | .encChunkEmit _ d => isDesc d
  | .decPictureOutput _ d _ => isDesc d
  | .ingestEntry _ d => isDesc d
  | .ingestDelivery _ d => isDesc d
  | .liveTickEmit _ _ d => isDesc d
  | .prefixLookup _ d => isDesc d
  | .prefixInsert _ d => isDesc d
  | .prefixFork _ d => isDesc d
  | .prefixRelease _ d => isDesc d
  | .prefixFetch _ d => isDesc d
  | .prefixEvict _ d => isDesc d
  | .prefixSend _ d => isDesc d
  | .leaseLapse _ _ => true
  | .atomicUnitRequest _ g => isCell g
  | .wcWriteMerge src a b => decide (src < 0x30018) && decide (a + b.length ≤ Config.memTop)
  | .wcIdleFlush _ line => decide (line < Config.memTop / 64)
  | .correctionWriteback line => decide (line < Config.memTop / 64)
  | .scrubRead => true
  | .stackTempSample k _ => decide (k < 8)
  | .portTraining _ p _ => isPort p
  | .trainingLockTimeout _ p => isPort p
  | .portRetryTimer _ p => isPort p
  | .idle _ p _ => isPort p
  | .req _ p _ => isPort p
  | .read src tag => isEndpoint src && isTag tag
  | .write src tag => isEndpoint src && isTag tag
  | .fetchAdd src tag => isEndpoint src && isTag tag
  | .cmpSwap src tag => isEndpoint src && isTag tag
  | .swap src tag => isEndpoint src && isTag tag
  | .pageRead src tag => isEndpoint src && isTag tag
  | .pageWrite src tag => isEndpoint src && isTag tag
  | .prefixRequest src tag => isEndpoint src && isTag tag
  | .data _ p _ => isPort p
  | .resp _ p _ => isPort p
  | .linkHello _ p _ => isPort p
  | .linkCredit _ p _ => isPort p
  | .linkReplay _ p _ => isPort p
  | .linkNak _ p _ => isPort p
  | .linkQuarantine _ p _ => isPort p
  | .replayRequestRepeat _ p => isPort p
  | .idleSendTimer _ p => isPort p
  | .creditReturnTimer _ p => isPort p
  | .quarantineBeacon _ p => isPort p
  | .forwardQueueTimeout _ p => isPort p
  | .transactionTimeout _ tag => isTag tag
  | .targetWriteTimeout _ src tag => isEndpoint src && isTag tag
  | .opqRecordIssue q => isFn q
  | .announce _ p _ => isPort p
  | .sync _ p _ => isPort p
  | .followUp _ p _ => isPort p
  | .pdelayReq _ p _ => isPort p
  | .pdelayResp _ p _ => isPort p
  | .pdelayRespFollowUp _ p _ => isPort p
  | .ptpSyncTimer _ => true
  | .ptpAnnounceTimer _ => true
  | .ptpPdelayTimer _ => true
  | .ppsInEdge _ _ _ => true
  | .ptpSourceLoss _ => true
  | .p48vRise _ => true
  | .powerGood _ => true
  | .p48vUndervoltage _ => true
  | .p48vOvervoltage _ => true
  | .powerSample _ _ _ _ rail => rail.length == 19
  | .pwrBrakeNFall _ => true
  | .brakeRelease _ => true
  | .controlWindow => true
  | .cellTempSample i _ => decide (i < 3264)
  | .hubTempSample _ => true
  | .hubBoot _ => true
  | .memTrain failing => failing.all (decide <| · < 8)
  | .memInit => true
  | .cellWaves => true
  | .cellWave _ _ => true
  | .defectMap => true
  | .cellFirmware bad => bad.all (decide <| · < 3264)
  | .knownAnswer cells engines => cells.all (decide <| ·.1 < 3264) && engines.all (decide <| ·.1 < 24)
  | .linkTrain assemblies => assemblies.length == 6
  | .ready => true
  | .stepRetryTimer _ => true
  | .warmStart _ => true
  | .jobReplay _ => true
  | .overlongStepTimeout _ g d => isCell g && isDesc d
  | .castlingMapChange i bad => decide (i < 192) && bad.all (decide <| ·.1 < 17)
  | .castlingReturn i => decide (i < 192)
  | .moduleLostFault _ _ => true
  | .mpWatchdogTimeout _ core => decide (core < 4)
  | .lockstepMismatch _ core => decide (core < 4)
  | .recoveryRestore _ => true
  | .flashLogStore _ => true
  | .fieldMaskStore _ => true
  | .setEndpointId b _ => decide (b < 2)
  | .getEndpointId b => decide (b < 2)
  | .getMctpVersionSupport b _ => decide (b < 2)
  | .getMessageTypeSupport b => decide (b < 2)
  | .pldmSensorUpdate _ => true
  | .pollForPlatformEventMessage b _ => decide (b < 2)
  | .setNumericEffecter b _ _ => decide (b < 2)
  | .requestUpdate b _ _ => decide (b < 2)
  | .passComponentTable b _ => decide (b < 2)
  | .firmwareComponentTransfer _ b comp _ _ => decide (b < 2) && decide (comp < 65536)
  | .verifyComplete b => decide (b < 2)
  | .applyComplete b => decide (b < 2)
  | .activateFirmware _ b => decide (b < 2)
  | .cancelUpdate b => decide (b < 2)
  | .getVersion b => decide (b < 3)
  | .getCapabilities b => decide (b < 3)
  | .negotiateAlgorithms b _ _ => decide (b < 3)
  | .getDigests b => decide (b < 3)
  | .getCertificate b slot _ _ => decide (b < 3) && decide (slot < 16)
  | .challenge b slot _ => decide (b < 3) && decide (slot < 16)
  | .getMeasurements b idx _ _ => decide (b < 3) && decide (idx < 256)
  | .cablePoll _ c _ => decide (c < 6)
  | .vcblOvercurrent c => decide (c < 6)
  | .tapReset => true
  | .extest _ => true
  | .idcode => true
  | .jtagSample _ => true
  | .preload _ => true
  | .highz => true
  | .clamp => true
  | .intScan => true
  | .memAccess a wr => decide (a % 16 = 0) && (match wr with | some b => b.length == 16 | none => true)
  | .bypass _ => true
  | .p48vOvervoltageClear _ => true
  | .pwrBrakeNRise _ => true
  | .configurationRequest f kind _ => isFn f && decide (kind < 8)
  | .syndromeLockLoss _ p => isPort p
  | .recoveryCutBound _ => true
  | .recentFaultAgeOut _ => true
  | .taiYearChange _ => true

end Sys2Proof
end

