-- ==== Sys2Proof/Safety.lean ====
section
/-! DEFINITION. What the claims about this block call safe: a command that completes, a run that does not stop, and the
standing conditions of a state. -/

namespace Sys2Proof
namespace Machine

/-- The step answers a next state. -/
def completes (o : Host.Outcome State Fault Refusal) : Prop := ∃ t, o = .next t
/-- The command runs to a next state that meets P. -/
def runsTo (c : Instr) (s : State) (P : State → Prop) : Prop := ∃ t, exec c s = .next t ∧ P t
/-- Every waiting command is well formed. -/
def queueOk (s : State) : Bool := s.pending.all (·.wf)
/-- Standing conditions: memory in canonical form, and a fused variant that exists. -/
def standing (s : State) : Prop :=
  Memory.wf s.mem = true ∧ Memory.bufOk s.mem = true ∧ s.fuses.variant ∈ [1, 2, 3]
/-- What no effect of a command undoes, from state o to state s: the waiting queue stands, the model's clock and the index
of free values never go back, of the fuses only the SVN changes and it never falls, no log position is used twice
(spec/18_reliability_and_recovery.md R434), memory stays in canonical
form and its write-combining buffers in order (spec/13_stacked_memory.md R303, R304). -/
structure Evolves (o s : State) : Prop where
  queue  : s.pending = o.pending
  clock  : o.now ≤ s.now
  values : o.free ≤ s.free
  fuses  : s.fuses = { o.fuses with svn := s.fuses.svn }
  svn    : o.fuses.svn ≤ s.fuses.svn
  log    : o.log.next ≤ s.log.next
  mem    : Memory.wf o.mem = true → Memory.wf s.mem = true
  buf    : Memory.bufOk o.mem = true → Memory.bufOk s.mem = true
/-- The byte of memory that a read of address a sees. -/
def byteOf (s : State) (a : Nat) : Byte := Memory.seen s.mem a
/-- The bytes of memory that a read of n bytes from address a sees. -/
def bytesOf (s : State) (a n : Nat) : Bytes := (List.range n).map fun i => byteOf s (a + i)
/-- No line of memory holds an error pattern, and the write-combining buffers are in order. -/
def memClean (s : State) : Prop := s.mem.errs = [] ∧ Memory.bufOk s.mem = true

/-- Function f can submit a mailbox command that runs at once: it is in D0, its mailbox is not BUSY and the management
processor runs (spec/15_host_and_mailboxes.md R354). -/
def listens (s : State) (f : Nat) : Prop :=
  Mbox.reachable s f = true ∧ (Mbox.mboxAt s.host f).busy = false ∧ s.bu.mpRunning = true
/-- The response area of an answer (spec/15_host_and_mailboxes.md R355, R357). -/
def response (status cmd tag state : Nat) (results : List Nat) : Bytes :=
  Bits.slice (Bits.toLe 2 status ++ Bits.toLe 2 cmd ++ Bits.toLe 4 tag ++ Bits.toLe 8 state ++ results.flatMap (Bits.toLe 8)) 0 2048
/-- State t is state b with function f's mailbox answered by response area r: SEQ counted, DONE 1, BUSY 0; no other mailbox,
and nothing else but the MSI-X messages of that answer, has changed. -/
def answered (b t : State) (f : Nat) (r : Bytes) : Prop :=
  Mbox.mboxAt t.host f = { Mbox.mboxAt b.host f with req := (Mbox.mboxAt t.host f).req, resp := r,
                                                     seq := ((Mbox.mboxAt b.host f).seq + 1) % 65536,
                                                     done := true, busy := false } ∧
  (∀ g ≠ f, Mbox.mboxAt t.host g = Mbox.mboxAt b.host g) ∧
  t = { b with host := { b.host with mbox := t.host.mbox, msixSent := t.host.msixSent, msixPend := t.host.msixPend } }

/-- State t is state b after one record r: the log has taken it, and besides the log nothing but the PLDM queue, the fault
counts, MSI-X messages and class 10's traffic (by one transaction) has changed (spec/18_reliability_and_recovery.md R431,
R432, R434, R435; spec/16_scheduling_and_budgets.md R392). -/
def logs (b t : State) (r : Ops.Report) : Prop :=
  t.log = Ops.appendLog b.log (Ops.eventOf b r) r.notifies (r.notifies || r.stop) ∧
  t = { b with sched := Ops.charge b.sched 10 1 0, log := t.log, mgmt := t.mgmt, tm := t.tm, flash := { b.flash with lost := t.flash.lost },
               host := { b.host with msixSent := t.host.msixSent, msixPend := t.host.msixPend } }

end Machine
end Sys2Proof
end

