-- ==== Sys2Proof/Certificates/Slice0/Obligations.lean ====
section
/-! DEFINITION. The statements about this block, for the provers: one definition each. -/

open Sys2Proof Sys2Proof.Machine Sys2Proof.Bits Sys2Proof.Machine.Ops

/-- In every state each of TAP_RESET, EXTEST, IDCODE, SAMPLE (JTAG_SAMPLE) and PRELOAD completes and changes the identity
block alone. TAP_RESET selects IDCODE. EXTEST loads opcode 0x00 and takes the pins with the value given. IDCODE loads
0x01 and shifts out 0x14B48A6B, least byte first. SAMPLE captures the 23 pins and shifts them out; PRELOAD sets the 23
update cells. Which pins an instruction drives is the model's code pinMode: 0 none, 1 EXTEST, 2 CLAMP, 3 HIGHZ. It
rests on parts of R485, R486. (spec/21_management_identity_debug.md) -/
def Obligations.JtagPublicInstructions : Prop :=
  ∀ (s : State) (v : BitVec 23),
    exec .tapReset s = .next (s.setIdent { s.ident with ir := 0x01, pinMode := 0, tdo := none }) ∧
    exec (.extest v) s = .next (s.setIdent { s.ident with bsUpd := v, ir := 0x00, pinMode := 1, tdo := none }) ∧
    exec .idcode s =
      .next (s.setIdent { s.ident with ir := 0x01, pinMode := 0, tdo := some [0x6B#8, 0x8A#8, 0xB4#8, 0x14#8] }) ∧
    exec (.jtagSample v) s =
      .next (s.setIdent { s.ident with bsCap := v, ir := 0x02, pinMode := 0, tdo := some (toLe 3 v.toNat) }) ∧
    exec (.preload v) s = .next (s.setIdent { s.ident with bsUpd := v, ir := 0x03, pinMode := 0, tdo := none })

/-- At every LEVEL, HIGHZ, CLAMP and INT_SCAN take effect exactly when LEVEL is at least 2: they load opcodes 0x04, 0x05
and 0x40, HIGHZ and CLAMP take the pins, and INT_SCAN stops every clock island of a module whose rails are good. Below
LEVEL 2 each of them, and MEM_ACCESS at any address, acts as BYPASS: it loads 0xFF, drives no pin, shifts out no data
and changes nothing else. The command BYPASS does so for opcode 0xFF, for every opcode that the table does not list,
and for a listed opcode of a level above LEVEL. It rests on parts of R485. (spec/21_management_identity_debug.md) -/
def Obligations.JtagLevelGate : Prop :=
  ∀ (s : State) (op : Byte) (a : Nat) (w : Option Bytes),
    let bypass := s.setIdent { s.ident with ir := 0xFF, pinMode := 0, tdo := none }
    exec .highz s = .next (if 2 ≤ s.ident.level then
      s.setIdent { s.ident with ir := 0x04, pinMode := 3, tdo := none } else bypass) ∧
    exec .clamp s = .next (if 2 ≤ s.ident.level then
      s.setIdent { s.ident with ir := 0x05, pinMode := 2, tdo := none } else bypass) ∧
    exec .intScan s = .next (if 2 ≤ s.ident.level then
      (let t := s.setIdent { s.ident with ir := 0x40, pinMode := 0, tdo := none }
       if s.pwr.phase = .good then { t with
         pwr := { s.pwr with phase := .scanned }
         bu := { s.bu with stopped := true } } else t) else bypass) ∧
    (s.ident.level < 2 → exec (.memAccess a w) s = .next bypass) ∧
    (op = 0xFF ∨ op.toNat ∉ [0x00, 0x01, 0x02, 0x03, 0x04, 0x05, 0x40, 0x41] ∨
      (op.toNat ∈ [0x04, 0x05, 0x40, 0x41] ∧ s.ident.level < 2) → exec (.bypass op) s = .next bypass)

/-- While LEVEL is at least 2, the clocks run and no line of memory holds an error pattern, MEM_ACCESS at an address below
MEM_TOP completes. A read shifts out the 16 bytes of the unit that the address lies in, as a read sees them, and
leaves memory as it is. A write stores the 16 bytes given to that unit; every address outside the unit reads as
before. Both load opcode 0x41 and change, besides, only the budget counters of the management class and those of
throttled stacks. It rests on parts of R485, R487, R452, R303. (spec/21_management_identity_debug.md) -/
def Obligations.MemAccessReadsAndWritesAUnit : Prop :=
  ∀ (s : State) (a : Nat) (d : Bytes), 2 ≤ s.ident.level → s.pwr.phase ≠ .scanned → a < Config.memTop → memClean s → d.length = 16 →
    let u := a / 16 * 16
    (∃ t, exec (.memAccess a none) s = .next t ∧
      t = { s with ident := { s.ident with ir := 0x41, pinMode := 0, tdo := some ((List.range 16).map fun i => byteOf s (u + i)) },
                   sched := { s.sched with budgets := t.sched.budgets } } ∧
      ∀ k < 16, k ≠ 10 → budgetAt t.sched k = budgetAt s.sched k) ∧
    (∃ t, exec (.memAccess a (some d)) s = .next t ∧
      (∀ x, byteOf t x = if u ≤ x ∧ x < u + 16 then d.getD (x - u) 0 else byteOf s x) ∧
      t.ident = { s.ident with ir := 0x41, pinMode := 0, tdo := none } ∧
      t = { s with mem := t.mem, ident := t.ident, sched := { s.sched with budgets := t.sched.budgets } })

/-- While the physical function is in D0, SEAL_EN_WRITE and ECC_MODE_WRITE of value v complete. With any job admitted they
change nothing. With none, ECC_MODE becomes bit 0 and SEAL_EN ends when bit 1 is 0, is kept when it was 1, and is
taken up otherwise exactly where the seal table is allowed; nothing else changes. MEM_SEAL_BASE_WRITE changes nothing
of memory while SEAL_EN is 1; otherwise the base becomes the value without its 12 reserved low bits. Besides, an
8-byte write only ends what was staged for the register. No byte of memory changes. From any other function each of
them completes and changes nothing. It rests on parts of R317, R299, R308, R350. (spec/13_stacked_memory.md) -/
def Obligations.MemoryRegisterWrites : Prop :=
  ∀ (s : State) (f : Nat) (v : Word) (b : Dword), Mbox.reachable s f = true →
    let written := if f = 0 ∧ s.sched.jobs = [] then
        s.setMem { s.mem with eccMode := bit v.toNat 0,
                              sealEn := bit v.toNat 1 && (s.mem.sealEn || Regs.sealAllowed s) } else s
    exec (.sealEnWrite f v) s = .next written ∧ exec (.eccModeWrite f v) s = .next written ∧
    ∃ t, exec (.memSealBaseWrite f b) s = .next t ∧
      t.mem = (if f ≠ 0 ∨ s.mem.sealEn then s.mem else { s.mem with sealBase := b.toNat / 4096 * 4096 }) ∧
      t = { s with mem := t.mem, host := { s.host with staged := t.host.staged } } ∧ (f ≠ 0 → t = s)

/-- While the physical function is in D0: FAB_ID_WRITE completes and is ignored while any port is UP; otherwise VALID,
GROUP and MEMBER take bits 16, 15:8 and 7:0, and nothing else changes. FAB_OPQ_TAIL_WRITE of queue q below 16 sets
that queue's TAIL and nothing else. FAB_PTP_SET_WRITE completes: with SOURCE 2 the value waits for the next accepted
PPS_IN edge, with SOURCE 0 or without a master it becomes the seconds of the PTP time at once, and otherwise PTP is
unchanged; besides, only what was staged for the register ends. It rests on parts of R344, R341, R339, R340, R349.
(spec/14_twisil_fabric.md) -/
def Obligations.FabricRegisterWrites : Prop :=
  ∀ (s : State) (v : Word) (b : Dword) (q : Nat), Mbox.reachable s 0 = true → q < 16 →
    ((∃ p < 24, (Link.portAt s p).state = .up) → exec (.fabIdWrite 0 v) s = .next s) ∧
    ((∀ p < 24, (Link.portAt s p).state ≠ .up) → exec (.fabIdWrite 0 v) s = .next
      (s.setFab { s.fab with idValid := bit v.toNat 16, group := field v.toNat 15 8, member := field v.toNat 7 0 })) ∧
    exec (.fabOpqTailWrite 0 q v) s =
      .next (s.setFab { s.fab with opq := Sparse.put s.fab.opq q { Regs.opqAt s q with tail := v.toNat } }) ∧
    ∃ t, exec (.fabPtpSetWrite 0 b) s = .next t ∧
      t.ptp = (if Time.source s = 2 then { s.ptp with pendSet := some b.toNat }
        else if Time.source s = 0 ∨ s.ptp.slave = none then { s.ptp with offset := (b.toNat * 1000000000 : Nat) - (s.now : Int), since := s.now }
        else s.ptp) ∧
      t = { s with ptp := t.ptp, host := { s.host with staged := t.host.staged } }

/-- While the physical function is in D0, PORT_RELEASE and PORT_ENABLE (both write FAB_PORT_CTL) of value v at port p
below 24 complete. MAX_GEN and ENABLE take bits 3:2 and 0; the quarantine mark ends where RELEASE (bit 1) is 1, and
the times of the violations counted so far end with it. With ENABLE 0 the port is DISABLED. With ENABLE 1 and the mark
kept, a DISABLED port becomes QUARANTINED and any other keeps its state. With ENABLE 1 and no mark left, a QUARANTINED
port trains from GEN 1, or is DOWN without a cable; a port that is UP, TRAINING or DOWN and was not marked keeps
everything but, on RELEASE, those times. No other port changes, and unless LINK_TRAIN is the step of bring-up nothing
outside the fabric changes but the model's list of ports that have ended an attempt (DEDUCED: a disabled port may end
LINK_TRAIN). It rests on parts of R338, R344, R321. (spec/14_twisil_fabric.md) -/
def Obligations.PortControlWrites : Prop :=
  ∀ (s : State) (p : Nat) (v : Word), Mbox.reachable s 0 = true → p < 24 →
    let g := Link.cfgAt s p
    let x := Link.portAt s p
    let mark := g.qmark && !bit v.toNat 1
    let ts := if bit v.toNat 1 then [] else x.violTimes
    ∃ t, exec (.portRelease 0 p v) s = .next t ∧ exec (.portEnable 0 p v) s = .next t ∧
      Link.cfgAt t p = { g with maxGen := field v.toNat 3 2, enable := bit v.toNat 0, qmark := mark } ∧
      (∀ q ≠ p, Link.portAt t q = Link.portAt s q ∧ Link.cfgAt t q = Link.cfgAt s q) ∧
      (Link.portAt t p).violTimes = ts ∧
      (bit v.toNat 0 = false → Link.portAt t p = { x with state := .disabled, gen := 0, wasUp := false, violTimes := ts }) ∧
      (bit v.toNat 0 = true → mark = true → x.state = .disabled → (Link.portAt t p).state = .quarantined) ∧
      (bit v.toNat 0 = true → mark = true → x.state ≠ .disabled → Link.portAt t p = { x with violTimes := ts }) ∧
      (bit v.toNat 0 = true → mark = false → x.state = .quarantined →
        (Link.portAt t p).state = if Link.hasCable s p then .training else .down) ∧
      (bit v.toNat 0 = true → g.qmark = false → x.state ∈ [.up, .training, .down] →
        Link.portAt t p = { x with violTimes := ts }) ∧
      (s.bu.step ≠ 8 → t = { s with fab := t.fab, bu := { s.bu with trained := t.bu.trained } })

/-- While the physical function is in D0: TM_NUM_CLEAR completes, takes HOLD from bit 1, sets both counters to 0 where bit
0 is 1 and keeps them otherwise, and changes nothing else (a number that starts a new count, the model's own field,
apart). TM_OBS_SEL_WRITE of pin k below 4 completes: a listed signal whose level LEVEL reaches is selected with the
value's low 28 bits, and any other write changes nothing. An 8-byte PWR_IN_READ answers input voltage, current and
power of the latest period, latches its rails, its sample time and P_avg, and captures the register; nothing else
changes. It rests on parts of R102, R459, R483, R484, R350. (spec/20_power_thermal_measurement.md) -/
def Obligations.TelemetryWritesAndTheLatch : Prop :=
  ∀ (s : State) (v : Word) (k : Nat), Mbox.reachable s 0 = true → k < 4 →
    (∃ t, exec (.tmNumClear 0 v) s = .next t ∧ t = { s with tm := t.tm } ∧ t.tm.hold = bit v.toNat 1 ∧
      t.tm.sat = (if bit v.toNat 0 then 0 else s.tm.sat) ∧ t.tm.flush = (if bit v.toNat 0 then 0 else s.tm.flush) ∧
      t.tm.replayed = s.tm.replayed ∧ t.tm.jobLost = s.tm.jobLost) ∧
    ((∃ n, Regs.signalLevel (field v.toNat 7 0) = some n ∧ n ≤ s.ident.level) → exec (.tmObsSelWrite 0 k v) s =
      .next (s.setIdent { s.ident with obsSel := Sparse.put s.ident.obsSel k (field v.toNat 27 0) })) ∧
    ((∀ n, Regs.signalLevel (field v.toNat 7 0) = some n → s.ident.level < n) → exec (.tmObsSelWrite 0 k v) s = .next s) ∧
    ∃ t, exec (.pwrInRead 0 0x80000 8) s = .next t ∧
      t.pwr = { s.pwr with latch := some (s.pwr.latest.rails, s.pwr.latest.time, s.pwr.pAvg) } ∧
      t.host.lastRead = some ⟨0, .ok, toLe 8 ((s.pwr.latest.volt * 2 ^ 48 + s.pwr.latest.curr * 2 ^ 32 + s.pwr.latest.mw) % 2 ^ 64)⟩ ∧
      t = { s with pwr := t.pwr, host := { s.host with captured := t.host.captured, lastRead := t.host.lastRead } }

/-- While the physical function is in D0: ID_DEBUG_LOCK completes, and with bit 31 sets LEVEL to 0, drops every selection
that needs more and turns a JTAG instruction that needs more into BYPASS; without it nothing changes. ID_UNLOCK_WRITE
is ignored once FAILS is 8. Before that a pointer that is not 8-byte aligned fails with RESULT 2; with no translation
of the physical function, no error pattern in memory and 240 bytes below the recovery area, RESULT is that of the
checks on the bytes of memory there. Every attempt draws a new nonce (a free value). A token that passes grants its
level, counts an unlock and drops what needs more; any other counts a failure. Only the identity block, the free
values' index, budget counters and what was staged for the register change, and, where the token lies on an
uncorrectable line, memory's own counts and what a record of the log changes. It rests on parts of R452, R453, R454.
(spec/19_security.md) -/
def Obligations.DebugLockAndUnlock : Prop :=
  ∀ (s : State) (v : Word) (a : Dword), Mbox.reachable s 0 = true →
    exec (.idDebugLock 0 v) s = .next (if bit v.toNat 31 then
      s.setIdent (Regs.atLevel s.ident 0) else s) ∧
    let failed := fun res => { s.ident with nonce := Config.freeValue s.free, result := res, fails := s.ident.fails + 1 }
    ∃ t, exec (.idUnlockWrite 0 a) s = .next t ∧
      t = { s with ident := t.ident, free := t.free, mem := t.mem, sched := { s.sched with budgets := t.sched.budgets },
                   log := t.log, mgmt := t.mgmt, tm := t.tm, flash := { s.flash with lost := t.flash.lost },
                   host := { s.host with staged := t.host.staged, msixSent := t.host.msixSent, msixPend := t.host.msixPend } } ∧
      (memClean s → t = { s with ident := t.ident, free := t.free, mem := t.mem,
                                      sched := { s.sched with budgets := t.sched.budgets },
                                      host := { s.host with staged := t.host.staged } }) ∧
      (8 ≤ s.ident.fails → t.ident = s.ident ∧ t.free = s.free) ∧
      (s.ident.fails < 8 → a.toNat % 8 ≠ 0 → t.ident = failed 2 ∧ t.free = s.free + 1) ∧
      (s.ident.fails < 8 → a.toNat % 8 = 0 → memClean s → Sparse.get? s.host.ctx 0 = none →
        a.toNat + 240 ≤ Config.recoveryBase → t.free = s.free + 1 ∧ t.mem = s.mem ∧
        let (res, lvl) := Regs.checkToken s (bytesOf s a.toNat 240)
        t.ident = if res = 1 then
          Regs.atLevel { s.ident with nonce := Config.freeValue s.free, result := 1,
                                      unlocks := (s.ident.unlocks + 1) % 65536 } lvl
          else failed res)

/-- FAB_PORT_KEY_WRITE by the physical function in D0 completes. At the transmit slot that TX_SLOT names while the port is
UP nothing of the fabric changes; anywhere else that slot takes salt (bits 287:256) and key (255:0), is loaded and
counts from 0, and a write of the slot that TX_SLOT names makes a spent transmit key usable again; no other slot,
setting, port or port state changes. Besides, what was staged for the register ends. It rests on parts of R451, R449,
R350. (spec/19_security.md) -/
def Obligations.PortKeyWrites : Prop :=
  ∀ (s : State) (p d k : Nat) (v : BitVec 512), p < 24 → d < 2 → k < 2 → Mbox.reachable s 0 = true →
    let g := Link.cfgAt s p
    let x := Link.portAt s p
    let blocked := d = 0 ∧ k = g.txSlot ∧ x.state = .up
    let key : PortKey := ⟨BitVec.ofNat 32 (field v.toNat 287 256), BitVec.ofNat 256 v.toNat, true, 0⟩
    ∃ t, exec (.fabPortKeyWrite 0 p d k v) s = .next t ∧
      t = { s with fab := { s.fab with cfg := t.fab.cfg, port := t.fab.port }, host := { s.host with staged := t.host.staged } } ∧
      (blocked → t.fab = s.fab) ∧
      (¬ blocked → Link.cfgAt t p = { g with keys := Sparse.put g.keys (2 * d + k) key } ∧
        Link.portAt t p = { x with keySpent := x.keySpent && !(decide (d = 0) && decide (k = g.txSlot)) } ∧
        ∀ q ≠ p, Link.cfgAt t q = Link.cfgAt s q ∧ Link.portAt t q = Link.portAt s q)

/-- JOB_RING_DOORBELL by function f in D0 at ring r below 64 completes. From the owner of a STOPPED, ENABLED or DRAINING
ring, with TAIL at most SIZE past HEAD and memory without error patterns, TAIL is written and the doorbell's arrival
noted, no write-combining entry that holds a BAR2 write is left, and every byte of memory reads as before; nothing
else but budget counters changes. From any other function, in any other state or past SIZE it changes nothing. It
rests on parts of R363, R304, R349. (spec/15_host_and_mailboxes.md,spec/13_stacked_memory.md) -/
def Obligations.DoorbellWritesTail : Prop :=
  ∀ (s : State) (f r : Nat) (w : Word), r < 64 → Mbox.reachable s f = true →
    let x := ringAt s.host r
    let takes := x.owner = f ∧ (x.state = 2 ∨ x.state = 3 ∨ x.state = 4) ∧ (w.toNat + 2 ^ 32 - x.head) % 2 ^ 32 ≤ 2 ^ x.log2
    (¬ takes → exec (.jobRingDoorbell f r w) s = .next s) ∧
    (takes → memClean s → ∃ t, exec (.jobRingDoorbell f r w) s = .next t ∧
      ringAt t.host r = { x with tail := w.toNat, bells := x.bells ++ [(w.toNat, s.now)] } ∧
      (∀ q ≠ r, ringAt t.host q = ringAt s.host q) ∧ (∀ a, byteOf t a = byteOf s a) ∧
      (∀ e ∈ t.mem.wc, ∀ y ∈ e.writers, y.src / 0x10000 ≠ 2) ∧
      t = { s with mem := t.mem, sched := { s.sched with budgets := t.sched.budgets },
                   host := { s.host with rings := t.host.rings } })

/-- While the physical function is in D0 and no step is stopped for power or temperature, BU_STEP_WRITE of value v
completes as follows, with TARGET its bits 3:0 and AUTO its bit 8. A TARGET that is not 0, while AUTO is 1 or where
TARGET is not STEP + 1 of a step that is done, sets REJECT and changes nothing else. TARGET STEP + 1 up to 9 while
AUTO is 0 and PHASE is 1, with P48V in range and no stack or hub die too hot for the step, starts that step and writes
AUTO. TARGET 0 writes AUTO alone, unless AUTO becomes 1 on a step that is done before READY: then the next step starts
as well. It rests on parts of R403. (spec/17_bring_up.md) -/
def Obligations.BringUpStepWrites : Prop :=
  ∀ (s : State) (v : Word), Mbox.reachable s 0 = true → ¬ (s.bu.phase = 2 ∧ (s.bu.code = 0x0801 ∨ s.bu.code = 0x0802)) →
    let target := field v.toNat 3 0
    let en := bit v.toNat 8
    let cool := fun n => Starts.operating s.pwr.p48v = true ∧ (n ∉ [2, 4, 7] ∨
      s.pwr.hubTemp ≤ 95 ∧ ∀ k < 8, Sparse.getD s.mem.temp k 0 ≤ 95)
    (target ≠ 0 → (s.bu.auto = true ∨ target ≠ s.bu.step + 1 ∨ s.bu.phase ≠ 1 ∨ 9 < target) →
      exec (.buStepWrite 0 v) s = .next (s.setBu { s.bu with reject := true })) ∧
    (target ≠ 0 → s.bu.auto = false → target = s.bu.step + 1 → s.bu.phase = 1 → target ≤ 9 → cool target →
      exec (.buStepWrite 0 v) s = .next (s.setBu { s.bu with auto := en, step := target, phase := 0, code := 0 })) ∧
    (target = 0 → (en = false ∨ s.bu.phase ≠ 1 ∨ 9 ≤ s.bu.step) →
      exec (.buStepWrite 0 v) s = .next (s.setBu { s.bu with auto := en })) ∧
    (target = 0 → en = true → s.bu.phase = 1 → s.bu.step < 9 → cool (s.bu.step + 1) →
      exec (.buStepWrite 0 v) s = .next (s.setBu { s.bu with auto := true, step := s.bu.step + 1, phase := 0, code := 0 }))

/-- REGISTER_WRITE of function f completes and changes nothing where the access is not aligned or not of 4 or 8 bytes, at
an offset of no register, outside the function's MSI-X table and the mailboxes, for a register that a virtual function
may not write (all but those of rings it owns), and in a mailbox that is not the function's own. At a 4-byte register
that f may write it has the whole effect of the value's low 32 bits on that register. It rests on parts of R349.
(spec/15_host_and_mailboxes.md) -/
def Obligations.RegisterWritesByFunction : Prop :=
  ∀ (s : State) (f o w : Nat) (v : Dword), Mbox.reachable s f = true →
    let inTable := 0x8000 ≤ o ∧ o < 0x8000 + 16 * Bar.msixCount f
    let inBox := 0x10000 ≤ o ∧ o < 0x20000
    ((w ≠ 4 ∧ w ≠ 8) ∨ o % w ≠ 0 → exec (.registerWrite f o w v) s = .next s) ∧
    (inBox → (o - 0x10000) / 4096 ≠ f → ¬ inTable → exec (.registerWrite f o w v) s = .next s) ∧
    (¬ inTable → ¬ inBox → Regs.regAt o = none → exec (.registerWrite f o w v) s = .next s) ∧
    (∀ r b n, f ≠ 0 → ¬ inTable → ¬ inBox → Regs.regAt o = some (r, b, n) →
      (∀ k, Regs.ringOf r = some k → (ringAt s.host k).state = 0 ∨ (ringAt s.host k).owner ≠ f) →
      exec (.registerWrite f o w v) s = .next s) ∧
    (∀ r, ¬ inTable → ¬ inBox → Regs.regAt o = some (r, o, 4) → Regs.mayWrite s.host f r = true → o % 4 = 0 → o < 0x4000000 →
      exec (.registerWrite f o 4 v) s = .next (Regs.write s f (v.toNat % 2 ^ 32) r))

/-- At an 8-byte register that function f may write, in D0: a REGISTER_WRITE of the low 4 bytes completes and only holds
the value in the function's staging word; a REGISTER_WRITE of the high 4 bytes made next completes, and the machine is
then exactly as after one 8-byte REGISTER_WRITE of the two halves in the state before both. It rests on parts of R350.
(spec/15_host_and_mailboxes.md) -/
def Obligations.HalfWritesMakeOneWrite : Prop :=
  ∀ (s : State) (f o : Nat) (r : Reg) (lo hi : Word), Mbox.reachable s f = true → Regs.mayWrite s.host f r = true →
    Regs.regAt o = some (r, o, 8) → Regs.regAt (o + 4) = some (r, o, 8) → o % 8 = 0 → o + 8 ≤ 0x4000000 →
    (o + 8 ≤ 0x8000 ∨ 0x8000 + 16 * Bar.msixCount f ≤ o) → (o + 8 ≤ 0x10000 ∨ 0x20000 ≤ o) →
    ∃ t, exec (.registerWrite f o 4 (lo.setWidth 64)) s = .next t ∧ Regs.stagedPart t.host f o = some lo.toNat ∧
      t = { s with host := { s.host with staged := t.host.staged } } ∧
      exec (.registerWrite f (o + 4) 4 (hi.setWidth 64)) t = exec (.registerWrite f o 8 (hi ++ lo)) s

/-- For every function in D0 whose mailbox is not BUSY, while the management processor runs: GET_STATE completes with
STATUS 0 and the log positions last notified and last acknowledged; GET_INFO completes with STATUS 0 and ID_VARIANT,
the four versions in force, the function number and the rings assigned to it, one bit each. STATE holds OBJECT 0xFF.
SEQ counts, DONE is 1, BUSY is 0, and nothing else but the answer's MSI-X message changes. It rests on parts of R354,
R355, R357, R358, R359. (spec/15_host_and_mailboxes.md) -/
def Obligations.StateAndInfoAnswers : Prop :=
  ∀ (s : State) (f : Nat) (tag : Word), listens s f →
    (∃ t, exec (.getState f tag) s = .next t ∧
      answered s t f (response 0 0x0001 tag.toNat (Mbox.stateWord s f 0xFF) [s.log.notify, s.log.acked])) ∧
    ∃ t, exec (.getInfo f tag) s = .next t ∧
      let v := Bring.versions s.bu
      let mine := (List.range 64).filter fun r => (ringAt s.host r).state != 0 && (ringAt s.host r).owner == f
      answered s t f (response 0 0x0002 tag.toNat (Mbox.stateWord s f 0xFF)
        [Regs.value s .idVariant, v.1.toNat, v.2.1.toNat, v.2.2.1.toNat, v.2.2.2.toNat, f, (mine.map (2 ^ ·)).sum])

/-- For every function in D0 whose mailbox is not BUSY, while the management processor runs, RING_ENABLE and RING_DISABLE
complete for every argument. A ring number past 63 answers 0x0101; OBJECT is then the state of the ring that bits 5:0
name. A ring the function does not own (for RING_DISABLE the physical function may issue as well) answers 0x0104.
RING_ENABLE answers 0x0102 unless STEP is 9 with READY reached, RECOVERING is 0 and the ring is STOPPED; RING_DISABLE
unless it is ENABLED. OBJECT is then the ring's state. Each refusal changes nothing but the mailbox. Otherwise
RING_ENABLE answers 0 and the ring is ENABLED; RING_DISABLE answers 0 and the ring is DRAINING, or STOPPED where it
has no admitted job; nothing else changes. It rests on parts of R356. (spec/15_host_and_mailboxes.md) -/
def Obligations.RingEnableDisableAnswers : Prop :=
  ∀ (s : State) (f : Nat) (tag : Word) (a : Dword), listens s f →
    let r := a.toNat
    let x := ringAt s.host (Mbox.ringOf r)
    let owns := x.state ≠ 0 ∧ x.owner = f
    let becomes := fun v => s.setHost (putRing s.host r { x with state := v })
    let enable := fun st b obj => ∃ t, exec (.ringEnable f tag a) s = .next t ∧
      answered b t f (response st 0x0012 tag.toNat (Mbox.stateWord b f obj) [])
    let disable := fun st b obj => ∃ t, exec (.ringDisable f tag a) s = .next t ∧
      answered b t f (response st 0x0013 tag.toNat (Mbox.stateWord b f obj) [])
    let legal := Mbox.ready s = true ∧ s.bu.recovering = false ∧ x.state = 2
    let last := if (Mbox.jobsOfRing s r).isEmpty then 2 else 4
    (64 ≤ r → enable 0x0101 s x.state ∧ disable 0x0101 s x.state) ∧
    (r < 64 → ¬ owns → enable 0x0104 s x.state ∧ (f ≠ 0 → disable 0x0104 s x.state)) ∧
    (r < 64 → owns → ¬ legal → enable 0x0102 s x.state) ∧
    (r < 64 → owns ∨ f = 0 → x.state ≠ 3 → disable 0x0102 s x.state) ∧
    (r < 64 → owns → legal → enable 0 (becomes 3) 3) ∧
    (r < 64 → owns ∨ f = 0 → x.state = 3 → disable 0 (becomes last) last)

/-- While READY is reached, the management processor runs and the issuer's mailbox is not BUSY. RING_ASSIGN by the
physical function in D0 of a ring that is UNASSIGNED, ASSIGNED or STOPPED, to a function 0 to 15 and a class, with a
blitz reservation in its ranges for class 0 and 0 otherwise, completes. It answers 0x0103 and changes nothing where
class 0 is asked and two other rings are blitz rings. It answers 0 where the class is not 0, or where it is 0, at most
one other ring is a blitz ring and the reservations fit: the ring is then ASSIGNED to the function with the class and
reservation, its base and size 0 and its entries discarded; function 0xFF leaves it UNASSIGNED. The limits of budget
classes 0 and 1 follow the blitz rings' reservations; no other ring and no other budget changes. RING_SETUP by the
owner in D0 of an ASSIGNED or STOPPED ring with arguments in range completes with 0: base, size and vector are set,
TAIL, HEAD and DONE are 0, the ring is STOPPED, and nothing else changes. It rests on parts of R358, R359, R360, R361,
R385, R392. (spec/15_host_and_mailboxes.md,spec/16_scheduling_and_budgets.md) -/
def Obligations.RingAssignAndSetup : Prop :=
  ∀ (s : State) (tag : Word) (a0 a1 : Dword) (r fn cl : Nat), r < 64 → cl < 4 → Mbox.ready s = true →
    let x := ringAt s.host r
    (a0.toNat = r + 256 * fn + 65536 * cl → (fn < 16 ∨ fn = 0xFF) → listens s 0 → x.state ≤ 2 →
      (if cl = 0 ∧ fn ≠ 0xFF then Mbox.resvOk a1.toNat = true else a1 = 0) →
      let other := (blitzRings s.host).filter (· != r)
      let txn := (other.map fun k => resvTxn (ringAt s.host k).resv).sum
      let nrg := (other.map fun k => resvEnergy (ringAt s.host k).resv).sum
      let y := { x with base := 0, log2 := 0, owner := if fn = 0xFF then 0 else fn, cls := if fn = 0xFF then 0 else cl,
                        state := if fn = 0xFF then 0 else 1, tail := x.head, resv := if fn = 0xFF then 0 else a1.toNat, bells := [] }
      (cl = 0 → fn ≠ 0xFF → 2 ≤ other.length → ∃ t, exec (.ringAssign 0 tag a0 a1) s = .next t ∧
        answered s t 0 (response 0x0103 0x0010 tag.toNat (Mbox.stateWord s 0 x.state) [])) ∧
      ((cl ≠ 0 ∨ fn = 0xFF ∨ (other.length < 2 ∧ txn + resvTxn a1.toNat ≤ 100000 ∧
          2 * (nrg + resvEnergy a1.toNat) ≤ s.pwr.polP)) →
        ∃ b t, exec (.ringAssign 0 tag a0 a1) s = .next t ∧
          answered b t 0 (response 0 0x0010 tag.toNat (Mbox.stateWord b 0 y.state) []) ∧
          b = { s with host := putRing s.host r y, sched := { s.sched with budgets := b.sched.budgets } } ∧
          (∀ k, 2 ≤ k → budgetAt b.sched k = budgetAt s.sched k) ∧
          ∀ k < 2, let v := ((blitzRings b.host).map fun q => (ringAt b.host q).resv).getD k 0
            (budgetAt b.sched k).limTxn = resvTxn v ∧ (budgetAt b.sched k).limNj = resvEnergy v * 1000)) ∧
    ∀ (f lg vec : Nat) (c0 c1 c2 : Dword), listens s f → x.state = 1 ∨ x.state = 2 → x.owner = f → c0.toNat = r → c1.toNat % 4096 = 0 →
      c2.toNat = lg + 256 * vec → lg ≤ 16 → (vec = 0xFF ∨ 2 ≤ vec ∧ vec < if f = 0 then 64 else 16) →
      let b := s.setHost (putRing s.host r { x with base := c1.toNat, log2 := lg, vector := vec, tail := 0, head := 0, done := 0,
                                                    state := 2, bells := [] })
      ∃ t, exec (.ringSetup f tag c0 c1 c2) s = .next t ∧
        answered b t f (response 0 0x0011 tag.toNat (Mbox.stateWord b f 2) [])

/-- For a function in D0 whose mailbox is not BUSY, while the management processor runs. POLICY_SET of an index naming
budget class 0, 1, 5, 6 or 10 answers 0x0101 and changes nothing. By the physical function with READY reached it
answers 0 with the previous value: 0x0100 + c and 0x0200 + c, c one of 2, 3, 4, 7, 8, 9, set the limit that class c
has from the next period, the present one standing; 0x0301 and 0x0302 with values in range set the temperature and
clock policies. EVENT_ACK answers 0 and sets the position acknowledged. OVERRIDE with argument 1 at a stop of
CELL_FIRMWARE with 0x0401 and P48V in range answers 0, records the override with the versions in force and runs
CELL_FIRMWARE again. RESTART with argument 0, not RECOVERING, at READY or that stop, answers 0 and orders a warm
start, RECOVERING 1. From any other function EVENT_ACK, and OVERRIDE and RESTART with arguments in range, answer
0x0104. Each changes nothing else but the mailbox. It rests on parts of R356, R359, R360, R394, R398, R413, R431,
R460.
(spec/15_host_and_mailboxes.md,spec/16_scheduling_and_budgets.md,spec/17_bring_up.md,spec/18_reliability_and_recovery.md) -/
def Obligations.PolicyAckOverrideRestart : Prop :=
  ∀ (s : State) (f : Nat) (tag : Word) (a v : Dword), listens s f →
    let answers := fun (o : Host.Outcome State Fault Refusal) cmd st b res => ∃ t, o = .next t ∧
      answered b t f (response st cmd tag.toNat (Mbox.stateWord b f 0xFF) res)
    (∀ c ∈ [0, 1, 5, 6, 10], a.toNat = 0x0100 + c ∨ a.toNat = 0x0200 + c → answers (exec (.policySet f tag a v) s) 0x0050 0x0101 s []) ∧
    (∀ c ∈ [2, 3, 4, 7, 8, 9], f = 0 → Mbox.ready s = true → v.toNat ≤ 0xFFFFFFFF →
      let g := budgetAt s.sched c
      let put := fun g => s.setSched { s.sched with budgets := Sparse.put s.sched.budgets c g }
      (a.toNat = 0x0100 + c → answers (exec (.policySet f tag a v) s) 0x0050 0 (put { g with newTxn := v.toNat }) [g.newTxn]) ∧
      (a.toNat = 0x0200 + c → answers (exec (.policySet f tag a v) s) 0x0050 0 (put { g with newNj := v.toNat }) [g.newNj])) ∧
    (f = 0 → Mbox.ready s = true →
      (a = 0x0301 → 90 ≤ v.toNat → v.toNat ≤ 105 →
        answers (exec (.policySet f tag a v) s) 0x0050 0 (s.setPwr { s.pwr with polT := v.toNat }) [s.pwr.polT]) ∧
      (a = 0x0302 → 400 ≤ v.toNat → v.toNat ≤ Config.clkMax s.fuses.variant →
        answers (exec (.policySet f tag a v) s) 0x0050 0 (s.setPwr { s.pwr with polF := v.toNat }) [s.pwr.polF])) ∧
    (f = 0 → answers (exec (.eventAck f tag a) s) 0x0061 0 (s.setLog { s.log with acked := a.toNat }) []) ∧
    (f = 0 → Mbox.halted s = true → Starts.operating s.pwr.p48v = true → answers (exec (.override f tag 1) s) 0x0070 0
      (s.setBu { s.bu with override := true, overVers := some (Bring.versions s.bu), step := 6, phase := 0, code := 0 }) []) ∧
    (f = 0 → s.bu.recovering = false → (Mbox.ready s = true ∨ Mbox.halted s = true) → answers (exec (.restart f tag 0) s) 0x0080 0
      (s.setBu { s.bu with restart := some true, recovering := true }) []) ∧
    (f ≠ 0 → answers (exec (.eventAck f tag a) s) 0x0061 0x0104 s [] ∧ answers (exec (.override f tag 1) s) 0x0070 0x0104 s [] ∧
      (a.toNat < 2 → answers (exec (.restart f tag a) s) 0x0080 0x0104 s []))

/-- For a function in D0 whose mailbox is not BUSY, while the management processor runs. SESSION_CLOSE of a session that
is not bound answers 0x0102 with OBJECT 0; of one that another function's job bound 0x0104; of one that executes, or
before READY, 0x0102; OBJECT is 2 where it executes, else 1; none changes anything. Of an idle bound session with
READY reached it answers 0 with the engine and the session is gone; every other session stays. EVENT_READ with a
buffer aligned to 32 bytes and 1 to 4,096 records, where translation lets the function write the buffer inside one
page and no line of memory holds an error pattern, answers 0 with the number of records written and the next log
position: the records held from the position asked on, in log order, for a virtual function its own jobs' alone, at
most as many as asked. Their 32 bytes each stand in the buffer, every other byte reads as before, and nothing else but
budget counters and the mailbox changes. It rests on parts of R358, R359, R360, R432, R434.
(spec/15_host_and_mailboxes.md,spec/18_reliability_and_recovery.md) -/
def Obligations.SessionCloseAndEventRead : Prop :=
  ∀ (s : State) (f : Nat) (tag : Word) (a0 a1 a2 : Dword), listens s f →
    (∀ dec : Bool, a0.toNat = ofBool dec →
      let l := if dec then s.codec.dec else s.codec.enc
      let mine := fun (x : Session) => x.addr == a1.toNat && x.fn == f
      let answers := fun b st obj res => ∃ t, exec (.sessionClose f tag a0 a1) s = .next t ∧
        answered b t f (response st 0x0030 tag.toNat (Mbox.stateWord b f obj) res)
      let obj := fun (x : Session) => if x.busy then 2 else 1
      (l.filter (·.addr == a1.toNat) = [] → answers s 0x0102 0 []) ∧
      (∀ x r, l.filter (·.addr == a1.toNat) = x :: r → (∀ y ∈ x :: r, y.fn ≠ f) → answers s 0x0104 (obj x) []) ∧
      ∀ x, l.find? mine = some x →
        (Mbox.ready s = false ∨ x.busy = true → answers s 0x0102 (obj x) []) ∧
        (Mbox.ready s = true → x.busy = false →
          let left := l.filter fun y => !mine y
          answers (s.setCodec (if dec then { s.codec with dec := left } else { s.codec with enc := left })) 0 0 [x.engine])) ∧
    ∀ m, memClean s → a0.toNat % 32 = 0 → 1 ≤ a2.toNat → a2.toNat ≤ 4096 → xlat s.host f a0.toNat true = some m →
      let ev := ((Mbox.heldEvents s).filter fun e => decide (a1.toNat ≤ e.pos) && (f == 0 || e.fn == f)).take a2.toNat
      let data := ev.flatMap Mbox.eventBytes
      let next := if ev.length = a2.toNat then (ev.getLast?.map (·.pos + 1)).getD s.log.next else s.log.next
      a0.toNat % 4096 + data.length ≤ 4096 →
      ∃ b t, exec (.eventRead f tag a0 a1 a2) s = .next t ∧
        answered b t f (response 0 0x0060 tag.toNat (Mbox.stateWord s f 0xFF) [ev.length, next]) ∧
        (∀ x, byteOf b x = if m ≤ x ∧ x < m + data.length then data.getD (x - m) 0 else byteOf s x) ∧
        b = { s with mem := b.mem, sched := { s.sched with budgets := b.sched.budgets } }

/-- The physical function in D0, its mailbox not BUSY, untranslated, READY reached, the management processor running, no
error pattern in memory, and the structures read below the recovery area. CONTEXT_BIND of function 0 to 15 without an
admitted job and without a ring ENABLED or DRAINING answers 0, and the function translates by exactly the table's
entries from then on, where the table carries KXT1, at most 1,024 entries, a zero reserved word, the CRC-32C of its
entries, entries in their layout and runs that R445 allows; where any of these fails it answers 0x0101 and no
function's translation changes. ROLE_SET, where no role is set and no admitted job names a cache descriptor, answers 0
and takes the role with a copy of the 64-byte descriptor where that passes its checks, and 0x0101 without effect where
it fails. Nothing else changes but budget counters and the mailbox. It rests on parts of R190, R358, R359, R360, R444,
R445. (spec/15_host_and_mailboxes.md,spec/19_security.md,spec/08_attention_and_paged_cache.md) -/
def Obligations.ContextBindAndRoleSet : Prop :=
  ∀ (s : State) (tag : Word) (a0 a1 : Dword), listens s 0 → Mbox.ready s = true → memClean s → Sparse.get? s.host.ctx 0 = none →
    let f := a0.toNat
    let head := bytesOf s a1.toNat 16
    let n := fld head 4 4
    let body := bytesOf s (a1.toNat + 16) (16 * n)
    let es := (List.range n).map (Mbox.tableEntry body)
    let headOk := slice head 0 4 = ascii "KXT1" ∧ n ≤ 1024 ∧ fld head 12 4 = 0
    let bodyOk := (crc32c body).toNat = fld head 8 4 ∧ (∀ i < n, Mbox.entryOk body i = true) ∧ Mbox.runsOk s f es = true
    let spent := fun (b : State) h c => b = { s with host := h, cache := c, sched := { s.sched with budgets := b.sched.budgets } }
    (f < 16 → (∀ j ∈ s.sched.jobs, j.fn ≠ f) → (∀ r < 64, (ringAt s.host r).owner = f → (ringAt s.host r).state ∉ [3, 4]) →
      a1.toNat + 16 + 16 * 1024 ≤ Config.recoveryBase →
      (headOk → bodyOk → ∃ b t, exec (.contextBind 0 tag a0 a1) s = .next t ∧
        answered b t 0 (response 0 0x0020 tag.toNat (Mbox.stateWord s 0 0) []) ∧
        spent b { s.host with ctx := Sparse.put s.host.ctx f es } s.cache) ∧
      (¬ (headOk ∧ bodyOk) → ∃ b t, exec (.contextBind 0 tag a0 a1) s = .next t ∧
        answered b t 0 (response 0x0101 0x0020 tag.toNat (Mbox.stateWord s 0 0) []) ∧ spent b s.host s.cache)) ∧
    (0 < f → f < 4 → a1 ≠ 0 → s.cache.role = 0 → (∀ j ∈ s.sched.jobs, fld j.desc 0x28 8 = 0) → a1.toNat + 64 ≤ Config.recoveryBase →
      let d := bytesOf s a1.toNat 64
      (CacheOps.descOk d = true → ∃ b t, exec (.roleSet 0 tag a0 a1) s = .next t ∧
        answered b t 0 (response 0 0x0040 tag.toNat (Mbox.stateWord b 0 0) []) ∧ spent b s.host ⟨f, d, a1.toNat, []⟩) ∧
      (CacheOps.descOk d = false → ∃ b t, exec (.roleSet 0 tag a0 a1) s = .next t ∧
        answered b t 0 (response 0x0101 0x0040 tag.toNat (Mbox.stateWord s 0 0) []) ∧ spent b s.host s.cache))

/-- For a function in D0 and an access inside its BAR2 and one page, while no line of memory holds an error pattern and
the host DMA class has traffic left. BAR2_READ of n bytes at a logical address that translation maps for reading
answers the bytes of memory there and leaves memory as it is; BAR2_WRITE at an address mapped for writing stores its
bytes there and every other byte reads as before; both change, besides, budget counters only. Where translation
refuses, BAR2_READ answers Unsupported Request, which AER status reports, and BAR2_WRITE is dropped, and neither makes
a memory access. With the class's traffic spent, each waits: nothing but the class's stall mark changes. It rests on
parts of R301, R303, R351, R443, R446. (spec/15_host_and_mailboxes.md,spec/19_security.md,spec/13_stacked_memory.md) -/
def Obligations.Bar2ReadsAndWrites : Prop :=
  ∀ (s : State) (f n : Nat) (a : Dword) (b : Bytes), memClean s →
    (Bar.opens s f a.toNat n = true → txnLeft s.sched 9 = true → 0 < n → a.toNat % 4096 + n ≤ 4096 →
      (∀ m, xlat s.host f a.toNat false = some m → ∃ t, exec (.bar2Read f a n) s = .next t ∧
        t = { s with host := { s.host with lastRead := some ⟨f, .ok, bytesOf s m n⟩ },
                     sched := { s.sched with budgets := t.sched.budgets } }) ∧
      (xlat s.host f a.toNat false = none → exec (.bar2Read f a n) s =
        .next (let h := { s.host with lastRead := some ⟨f, .unsupported, []⟩ }
               s.setHost (Bar.putPcie h f { Bar.pcieAt h f with aer := setBit (Bar.pcieAt h f).aer 20 true })))) ∧
    (Bar.opens s f a.toNat b.length = true → txnLeft s.sched 9 = true → 0 < b.length → a.toNat % 4096 + b.length ≤ 4096 →
      (∀ m, xlat s.host f a.toNat true = some m → ∃ t, exec (.bar2Write f a b) s = .next t ∧
        (∀ x, byteOf t x = if m ≤ x ∧ x < m + b.length then b.getD (x - m) 0 else byteOf s x) ∧
        t = { s with mem := t.mem, sched := { s.sched with budgets := t.sched.budgets } }) ∧
      (xlat s.host f a.toNat true = none → exec (.bar2Write f a b) s = .next s)) ∧
    (txnLeft s.sched 9 = false →
      (Bar.opens s f a.toNat n = true → exec (.bar2Read f a n) s = .next (s.setSched (markStall s.sched 9))) ∧
      (Bar.opens s f a.toNat b.length = true → exec (.bar2Write f a b) s = .next (s.setSched (markStall s.sched 9))))

/-- PCIE_LINK_TRAINING completes: with power good and bring-up begun, and at least one lane trained, the link is up at the
lowest of the partner's generation and the carrier's limit (never below 4 on the module's side), at 16, 8, 4 or 1
lanes. CONFIGURATION_REQUEST completes: before the management processor runs it is answered with Request Retry Status
alone; after that, kind 0 puts the function into D3hot for value 3 and into D0 for value 0, and no other function, and
does nothing for another power state; kind 1 sets the BAR2 size to a log2 of 30 to 39 for the physical function and 30
to 36 for another, and ignores any other; kind 2 sets NumVFs up to 15 at the physical function alone; kinds 4 and 5
set the maximum payload size (log2 7 to 9) and read request size (log2 7 to 12), kind 6 the two ECRC enables, and kind
7 clears the AER status bits it names. Nothing else changes. It rests on parts of R346, R479, R368.
(spec/15_host_and_mailboxes.md,spec/21_management_identity_debug.md) -/
def Obligations.LinkTrainingAndConfiguration : Prop :=
  ∀ (s : State) (gen width f : Nat) (v : Word), 1 ≤ width →
    (s.pwr.phase = .good → s.bu.step ≠ 0 → exec (.pcieLinkTraining gen width) s = .next (s.setHost
      { s.host with linkUp := true, perstLow := false, linkGen := min gen (max 4 s.ident.pcieMax),
                    linkWidth := if 16 ≤ width then 16 else if 8 ≤ width then 8 else if 4 ≤ width then 4 else 1 })) ∧
    ((s.pwr.phase ≠ .good ∨ s.bu.step = 0) → exec (.pcieLinkTraining gen width) s = .next s) ∧
    (s.bu.mpRunning = false → ∀ k, exec (.configurationRequest f k v) s =
      .next (s.setHost { s.host with lastRead := some ⟨f, .retry, []⟩ })) ∧
    (s.bu.mpRunning = true →
    (∃ t, exec (.configurationRequest f 0 v) s = .next t ∧ t = { s with host := { s.host with d3 := t.host.d3 } } ∧
      (f ∈ t.host.d3 ↔ v = 3 ∨ (v ≠ 0 ∧ f ∈ s.host.d3)) ∧ ∀ g ≠ f, (g ∈ t.host.d3 ↔ g ∈ s.host.d3)) ∧
    (let c := Bar.pcieAt s.host f
     let set := fun x => Host.Outcome.next (s.setHost (Bar.putPcie s.host f x))
     exec (.configurationRequest f 4 v) s = (if 7 ≤ v.toNat ∧ v.toNat ≤ 9 then set { c with payload := v.toNat } else .next s) ∧
     exec (.configurationRequest f 5 v) s = (if 7 ≤ v.toNat ∧ v.toNat ≤ 12 then set { c with request := v.toNat } else .next s) ∧
     exec (.configurationRequest f 6 v) s = set { c with ecrc := v.toNat % 4 } ∧
     exec (.configurationRequest f 7 v) s = set { c with aer := c.aer - (c.aer &&& v.toNat) }) ∧
    (30 ≤ v.toNat → v.toNat ≤ (if f = 0 then 39 else 36) → exec (.configurationRequest f 1 v) s =
      .next (s.setHost { s.host with bar2 := Sparse.put s.host.bar2 f v.toNat })) ∧
    (v.toNat < 30 ∨ (if f = 0 then 39 else 36) < v.toNat → exec (.configurationRequest f 1 v) s = .next s) ∧
    exec (.configurationRequest f 2 v) s =
      .next (if f = 0 ∧ v.toNat ≤ 15 then s.setHost { s.host with numVfs := v.toNat } else s))

/-- With no other function in reset and no recovery of jobs under way, FUNCTION_LEVEL_RESET of function f below 16
completes. The mailbox is at its reset values with no command held, the function is in D0, and nothing of it is
staged, unmasked or pending (the MSI-X, D0, staging and, for function 0, NumVFs parts are the model's reading, log 6);
captured registers stay. Every job of f issues nothing more and ends, and no other job changes. Where f has no job,
every ring it owns is ASSIGNED with base, size, TAIL, HEAD and DONE 0; where it has one, its rings hold no entry not
admitted and none is ENABLED, and f waits for its jobs. No other function's ring or mailbox and nothing outside the
host side and the job list changes. It rests on parts of R368, R361. (spec/15_host_and_mailboxes.md) -/
def Obligations.FunctionLevelResetEffect : Prop :=
  ∀ (s : State) (f : Nat), f < 16 → s.recov = none → s.host.resetting = [] →
    ∃ t, exec (.functionLevelReset f) s = .next t ∧
      t = { s with host := t.host, sched := { s.sched with jobs := t.sched.jobs } } ∧
      Mbox.mboxAt t.host f = Mbox.mbox0 ∧ (∀ g ≠ f, Mbox.mboxAt t.host g = Mbox.mboxAt s.host g) ∧
      f ∉ t.host.d3 ∧ (∀ x ∈ t.host.held, x.1 ≠ f) ∧ (∀ x ∈ t.host.unmasked, x.1 ≠ f) ∧ (∀ x ∈ t.host.msixPend, x.1 ≠ f) ∧
      (∀ x ∈ t.host.staged, x.1 ≠ f) ∧ t.host.captured = s.host.captured ∧
      t.host.numVfs = (if f = 0 then 0 else s.host.numVfs) ∧
      (∀ j ∈ t.sched.jobs, j.fn = f → j.phase = .ending) ∧ (∀ j : Job, j.fn ≠ f → (j ∈ t.sched.jobs ↔ j ∈ s.sched.jobs)) ∧
      t.host.resetting = (if s.sched.jobs.any (·.fn == f) then [f] else []) ∧
      ∀ r < 64, let x := ringAt s.host r
        (x.state = 0 ∨ x.owner ≠ f → ringAt t.host r = x) ∧
        (x.state ≠ 0 → x.owner = f → ringAt t.host r =
          if s.sched.jobs.any (·.fn == f) then { x with tail := x.head, bells := [], state := if x.state = 3 then 4 else x.state }
          else { x with base := 0, log2 := 0, vector := 0xFF, tail := 0, head := 0, done := 0, state := 1, bells := [] })

/-- With no recovery of jobs under way, PERST_N_ASSERT and LINK_HOT_RESET complete. The link is down at rate and width 0
and, after PERST_N_ASSERT, PERST_N is low. Every function's mailbox is at its reset values and every function is in
D0. Every job of a function below 16 is ending, and a job changes in no other way than by that end. Memory, bring-up
state, the cluster identity and the log are unchanged: nothing but the host side, the jobs and the budgets of classes
0 and 1 is. Where there is no job, every ring is UNASSIGNED at its reset values, no context is bound and no function
is in reset; otherwise the bindings stand until the jobs have gone. It rests on parts of R368.
(spec/15_host_and_mailboxes.md) -/
def Obligations.LinkResetEndsEveryFunction : Prop :=
  ∀ (s : State), s.recov = none →
    let ends := fun (o : Host.Outcome State Fault Refusal) (low : Bool) => ∃ t, o = .next t ∧
        t = { s with host := t.host, sched := { s.sched with jobs := t.sched.jobs, budgets := t.sched.budgets } } ∧
        t.host.linkUp = false ∧ t.host.linkGen = 0 ∧ t.host.linkWidth = 0 ∧
        t.host.perstLow = low ∧
        (∀ f < 16, Mbox.mboxAt t.host f = Mbox.mbox0 ∧ f ∉ t.host.d3) ∧
        (∀ k, k ≠ 0 → k ≠ 1 → budgetAt t.sched k = budgetAt s.sched k) ∧
        t.sched.jobs = s.sched.jobs.map (fun j => if j.fn < 16 then JobOps.endJob j 0x0105 Check.none32 0xFFFF 0 else j) ∧
        (∀ j ∈ t.sched.jobs, j.fn < 16 → j.phase = .ending) ∧
        (s.sched.jobs = [] → t.host.rings = [] ∧ t.host.ctx = [] ∧ t.host.resetting = []) ∧
        ((∃ j ∈ s.sched.jobs, j.fn < 16) → t.host.ctx = s.host.ctx ∧ t.sched.budgets = s.sched.budgets)
    ends (exec .perstNAssert s) true ∧ ends (exec .linkHotReset s) s.host.perstLow

/-- For a job that may complete, in memory without error patterns, with no function in reset, no recovery and no other job
waiting, NUMERIC 0 and a COMPLETION in one page that translation allows, JOB_COMPLETION completes: the 32 bytes at
that address are the job's completion record and every other byte reads as before; DONE of the job's ring counts one
more, and the ring, if DRAINING and this was its last job, is STOPPED; the vector of the ring is sent to the function;
TM_DONE or TM_FAIL of the function counts one more; the job and its ready entries are gone and every other job is
unchanged. No other ring, and nothing else but the budgets and the blitz completion time, changes. It rests on parts
of R361, R366, R367. (spec/15_host_and_mailboxes.md) -/
def Obligations.JobCompletionReports : Prop :=
  ∀ (s : State) (id m : Nat) (j : Job), JobOps.find s.sched id = some j → Sch.mayComplete j = true → s.bu.stopped = false →
    memClean s → s.recov = none → s.host.resetting = [] → (∀ k ∈ s.sched.jobs, k.id ≠ id → k.phase ≠ .waiting) →
    JDesc.numeric j.desc = 0 → JDesc.completion j.desc ≠ 0 → JDesc.completion j.desc % 4096 + 32 ≤ 4096 →
    xlat s.host j.fn (JDesc.completion j.desc) true = some m →
    ∃ t, exec (.jobCompletion id) s = .next t ∧
      (∀ a, byteOf t a = if m ≤ a ∧ a < m + 32 then (Finish.record s j).getD (a - m) 0 else byteOf s a) ∧
      (∀ q, ringAt t.host q = if q = j.ring then
          { ringAt s.host q with
            done := ((ringAt s.host q).done + 1) % 2 ^ 32
            state := if (ringAt s.host q).state = 4 ∧ ∀ k ∈ s.sched.jobs, k.id ≠ id → k.ring ≠ j.ring then 2
                     else (ringAt s.host q).state }
        else ringAt s.host q) ∧
      t = { s with
        mem := t.mem
        host := { sendVec s.host j.fn (ringAt s.host j.ring).vector with rings := t.host.rings }
        sched := { s.sched with
          jobs := s.sched.jobs.filter (·.id != id)
          ready := t.sched.ready
          budgets := t.sched.budgets
          blitzDone := t.sched.blitzDone
          dones := if j.status = 0 then Sparse.upd s.sched.dones j.fn 0 (satInc top64 · 1) else s.sched.dones
          fails := if j.status = 0 then s.sched.fails else Sparse.upd s.sched.fails j.fn 0 (satInc top64 · 1) } }

/-- For an ending job with nothing in flight, the last of a function that alone is in reset, under the conditions of
JobCompletionReports, FUNCTION_RESET_JOB_END completes: the job's completion record is written and no other byte of
memory changes, the vector of its ring is sent, the job leaves, and the reset ends: no function is in reset, every
ring that the function owns is ASSIGNED with base, size, TAIL, HEAD and DONE 0 and vector 0xFF, keeping its owner,
class and reservation, and every other ring is unchanged but for DONE of the job's own ring. It rests on parts of
R366, R368. (spec/15_host_and_mailboxes.md) -/
def Obligations.FunctionResetEndsWithItsLastJob : Prop :=
  ∀ (s : State) (id m : Nat) (j : Job), JobOps.find s.sched id = some j → j.phase = .ending → JobOps.still j = true →
    s.bu.stopped = false → memClean s → s.recov = none → s.host.resetting = [j.fn] → j.fn < 16 →
    (∀ k ∈ s.sched.jobs, k.id ≠ id → k.phase ≠ .waiting ∧ k.fn ≠ j.fn) →
    JDesc.numeric j.desc = 0 → JDesc.completion j.desc ≠ 0 → JDesc.completion j.desc % 4096 + 32 ≤ 4096 →
    xlat s.host j.fn (JDesc.completion j.desc) true = some m →
    ∃ t, exec (.functionResetJobEnd id) s = .next t ∧ t.host.resetting = [] ∧
      (∀ a, byteOf t a = if m ≤ a ∧ a < m + 32 then (Finish.record s j).getD (a - m) 0 else byteOf s a) ∧
      (∀ q < 64, let x := if q = j.ring then { ringAt s.host q with done := ((ringAt s.host q).done + 1) % 2 ^ 32 } else ringAt s.host q
        ringAt t.host q = if x.state ≠ 0 ∧ x.owner = j.fn then
            { x with base := 0, log2 := 0, vector := 0xFF, tail := 0, head := 0, done := 0, state := 1, bells := [] } else x) ∧
      t = { s with
        mem := t.mem
        host := { sendVec s.host j.fn (ringAt s.host j.ring).vector with rings := t.host.rings, resetting := [] }
        sched := { s.sched with
          jobs := s.sched.jobs.filter (·.id != id)
          ready := t.sched.ready
          budgets := t.sched.budgets
          blitzDone := t.sched.blitzDone
          dones := if j.status = 0 then Sparse.upd s.sched.dones j.fn 0 (satInc top64 · 1) else s.sched.dones
          fails := if j.status = 0 then s.sched.fails else Sparse.upd s.sched.fails j.fn 0 (satInc top64 · 1) } }

/-- BUDGET_PERIOD completes. For each of the eleven budget classes, class 5 first charged with refresh, and for the
traffic that the model counts under keys 16 to 23 against a throttled stack's share (R313), it latches the use of the
ended period (transactions, and energy in nJ rounded down, neither beyond 0xFFFFFFFF), starts the period at 0, puts
the written limits in force, carries over the use beyond limit less the earlier carry-over where the class has a limit
and 0 where it has none, and counts a stalled period where the class was held back, saturating at 2^64-1. Nothing else
changes. It rests on parts of R313, R392, R393, R394. (spec/16_scheduling_and_budgets.md) -/
def Obligations.BudgetPeriodEndsEveryClass : Prop :=
  ∀ (s : State), ∃ t, exec .budgetPeriod s = .next t ∧
    t = { s with sched := { s.sched with budgets := t.sched.budgets } } ∧
    ∀ k, k < 11 ∨ (16 ≤ k ∧ k < 24) → let b := budgetAt s.sched k
      let txn := b.curTxn + (if k = 5 then refreshTxn s.mem else 0)
      let e := b.curE + (if k = 5 then 150000 * refreshTxn s.mem else 0)
      budgetAt t.sched k = { b with
        usedTxn := min 0xFFFFFFFF txn
        usedNj := min 0xFFFFFFFF (e / 100000)
        curTxn := 0
        curE := 0
        limTxn := b.newTxn
        limNj := b.newNj
        defTxn := if b.limTxn = 0xFFFFFFFF then 0 else txn - (b.limTxn - b.defTxn)
        defE := if b.limNj = 0xFFFFFFFF then 0 else e - (b.limNj * 100000 - b.defE)
        stalled := false
        stalls := if b.stalled then min (2 ^ 64 - 1) (b.stalls + 1) else b.stalls }

/-- At or after its deadline an unexpired blitz job goes on with no other change than that it is expired: it is charged to
budget class 2, ranks as urgent for adjourning, and keeps its cells, progress and status. Only the model's clock moves
with it. It rests on parts of R371, R391, R392. (spec/16_scheduling_and_budgets.md) -/
def Obligations.BlitzExpiryRunsAsUrgent : Prop :=
  ∀ (s : State) (t id d : Nat) (x : Job), JobOps.find s.sched id = some x → x.deadline = some d → x.expired = false → d ≤ max s.now t →
    exec (.blitzDeadlineExpiry t id) s =
      .next { s with now := max s.now t, sched := JobOps.put s.sched { x with expired := true } } ∧
    JobOps.budget s { x with expired := true } = 2 ∧ JobOps.rank { x with expired := true } = 1

/-- Where exactly one ring r is ENABLED, its head entry can be read, its program loads without refusal and a placement is
found and taken, and no job is adjourned, ADMISSION_DECISION completes and admits the entry: the job, with the next
job number, stands last in the list with its placement; HEAD moves one on, TM_SUBMITTED of the owner counts one more
and the round-robin of the class stands at r. What then starts follows from the same step. It rests on parts of R363,
R372, R376. (spec/16_scheduling_and_budgets.md) -/
def Obligations.AdmissionTakesTheHeadEntry : Prop :=
  ∀ (s s1 s2 : State) (r : Nat) (desc : Bytes) (j j2 : Job) (p : Placement) (c : Sched),
    let x := ringAt s.host r
    let k := if x.cls = 0 then budgetClass s.host r 0 else x.cls + 1
    s.bu.stopped = false → (∀ y ∈ s.sched.jobs, y.phase ≠ .adjourned) → r < 64 → x.state = 3 → x.cls < 4 →
    (∀ q < 64, q ≠ r → (ringAt s.host q).state ≠ 3) → x.head ≠ x.tail → s.sched.jobs.length < Config.maxJobs →
    (x.cls = 0 → ∀ y ∈ s.sched.jobs, y.ring ≠ r) →
    readLog s x.owner k (x.base + 128 * (x.head % 2 ^ x.log2)) 128 = (.ok desc, s1) →
    Load.run s1 k (JobOps.via s1 (Sch.newJob s1.sched.nextId r x.head x desc) 0x10000) x.resv (Sch.newJob s1.sched.nextId r x.head x desc) =
      (.ok j, s2) →
    (if j.espalier then Starts.reduced s2.bu else !Placing.shapeFits s2 (JDesc.gr desc) (JDesc.gc desc)) = false →
    Placing.locate s2 x.cls j.espalier (JDesc.gr desc) (JDesc.gc desc) = some p →
    Placing.place s2.sched x.cls j p = some (c, j2) →
    ∃ d, let a := { j2 with deadline := d }
      let t := Sch.leaveRing (s2.setSched { c with jobs := c.jobs ++ [a] }) r x
      (x.cls ≠ 0 → d = j2.deadline) ∧ (x.cls = 0 → d.isSome = true) ∧
      exec .admissionDecision s = .next (Starting.startReady t) ∧
      ringAt t.host r = { x with head := (x.head + 1) % 2 ^ 32, bells := (ringAt t.host r).bells } ∧
      (∀ q ≠ r, ringAt t.host q = ringAt s2.host q) ∧ t.sched.jobs = c.jobs ++ [a] ∧ t.sched.nextId = c.nextId + 1 ∧
      Sparse.get? t.sched.rr x.cls = some r ∧
      Sparse.getD t.sched.subs x.owner 0 = min (2 ^ 64 - 1) (Sparse.getD c.subs x.owner 0 + 1)

/-- For an adjourning job that has drained, in memory without error patterns and with no job waiting,
ADJOURN_CONTEXT_WRITE completes: the job is adjourned, holds no placement, no plot-store window and no granted hub
execution, has adjourned once more, and stands last in the order of adjourned jobs; of its cells' state nothing
remains but the execution counts. Every other job is unchanged. Besides the jobs, the budgets, the ready record and
the memory holding the context area, only the module's numeric counts, the owners of the job's transactions and, for a
blitz job, the record of the cells it left change, and one free value (the context's handle, log 5) is drawn. It rests
on parts of R72, R152, R373, R377. (spec/16_scheduling_and_budgets.md) -/
def Obligations.AdjournmentFreesTheCells : Prop :=
  ∀ (s : State) (id : Nat) (x : Job), JobOps.find s.sched id = some x → x.phase = .adjourning → Sch.mayAdjourn x = true →
    s.bu.stopped = false → memClean s → (∀ y ∈ s.sched.jobs, y.phase ≠ .waiting) →
    ∃ t y, exec (.adjournContextWrite id) s = .next t ∧ memClean t ∧ JobOps.find t.sched id = some y ∧
      (∃ a b u v w, y = { x with
        phase := .adjourned
        adjourns := a
        reclaim := b
        finished := u
        tally := v
        cells := w
        replay := false
        place := none
        wins := []
        hexec := []
        adjSeq := s.sched.nextAdj }) ∧
      y.adjourns = x.adjourns + 1 ∧ (∀ g c, (g, c) ∈ y.cells → ∃ p, c = { Starting.blankCell [] with prior := p }) ∧
      (∀ z : Job, z.id ≠ id → (z ∈ t.sched.jobs ↔ z ∈ s.sched.jobs)) ∧
      t = { s with
        free := s.free + 1
        mem := t.mem
        tm := t.tm
        fab := { s.fab with txns := t.fab.txns }
        sched := { s.sched with jobs := t.sched.jobs, nextAdj := s.sched.nextAdj + 1, ready := t.sched.ready, budgets := t.sched.budgets, blitzDone := t.sched.blitzDone } }

/-- For a running job with a replay due that has drained, in memory without error patterns, JOB_REPLAY completes by
resuming the job from the state u in which its context is written: in u the job is adjourned with no partial state,
keeps its placement and windows and has adjourned once more, and every other job and all but memory, budgets, counts
and transaction owners is unchanged. Where the context reads back well with no reserved field set, and the job has no
events and no loop block, the job then runs again, restored from that context with its table writes due again, on the
same placement; no free value but the handle is drawn. It rests on parts of R377, R380, R421.
(spec/16_scheduling_and_budgets.md,spec/18_reliability_and_recovery.md) -/
def Obligations.ReplayResumesFromItsOwnContext : Prop :=
  ∀ (s : State) (id : Nat) (x : Job), JobOps.find s.sched id = some x → x.phase = .running → x.replay = true → Sch.mayAdjourn x = true →
    s.bu.stopped = false → memClean s →
    let u := Starting.writeContext s id
    ∃ y, exec (.jobReplay id) s = .next (JobOps.refreshReady (Starting.resume u id)) ∧
      JobOps.find u.sched id = some y ∧ y.phase = .adjourned ∧ y.adjourns = x.adjourns + 1 ∧ y.replay = false ∧
      y.place = x.place ∧ y.wins = x.wins ∧ (∀ g c, (g, c) ∈ y.cells → ∃ p, c = { Starting.blankCell [] with prior := p }) ∧
      (∀ z : Job, z.id ≠ id → (z ∈ u.sched.jobs ↔ z ∈ s.sched.jobs)) ∧
      u = { s with
        free := s.free + 1
        mem := u.mem
        tm := u.tm
        fab := { s.fab with txns := u.fab.txns }
        sched := { s.sched with jobs := u.sched.jobs, budgets := u.sched.budgets } } ∧
      ∀ c : Starting.Ctx,
        ((Starting.readCtx { JobOps.via u y 0x10000 with cls := 10 } (JDesc.context y.desc)).run.run ⟨u.mem, 0, [], [], []⟩).1 = .ok c →
        Starting.ctxOk c = true → Starting.ctxReserved c = false → y.loop = none → JDesc.events y.desc = 0 →
        let r := Starting.withTables (Starting.restored y c)
        ∃ t, exec (.jobReplay id) s = .next t ∧ JobOps.find t.sched id = some r ∧
          r.phase = .running ∧ r.place = x.place ∧ t.free = s.free + 1

/-- For a line whose error pattern the code of R298 can correct: a read of the line answers the corrected data (under the
bytes of its write-combining entry, where it has one), adds 1 to MEM_CORR of its stack (saturating), logs nothing and
leaves memory and the pattern as they are; CORRECTION_WRITEBACK then completes, stores the corrected 64 bytes, ends
the pattern, changes no byte of another line and logs nothing. Where a write of any byte of the line reaches the
channel in between, CORRECTION_WRITEBACK changes nothing and the write stands. (R300) -/
def Obligations.CorrectedLinesAreWrittenBack : Prop :=
  ∀ (s : State) (line : Nat) (e : List Nat) (p : List (Nat × Nat)), Sparse.get? s.mem.errs line = some e →
    Memory.decodeErr s.mem.eccMode e = some p → p ≠ [] →
    let d := Memory.addErr (Memory.run s.mem.bytes (64 * line) 64) (Memory.residual e p)
    let m := (Memory.readLine s.mem line).2
    (Memory.readLine s.mem line).1 = some (match Memory.entryOf s.mem line with
      | none => d
      | some w => Memory.overlay w d) ∧
    Sparse.getD m.corr (Memory.stackOf (64 * line)) 0 = min (2 ^ 64 - 1) (Sparse.getD s.mem.corr (Memory.stackOf (64 * line)) 0 + 1) ∧
    (∀ k ≠ Memory.stackOf (64 * line), Sparse.getD m.corr k 0 = Sparse.getD s.mem.corr k 0) ∧
    m = { s.mem with corr := m.corr, fixes := m.fixes } ∧
    (∃ t, exec (.correctionWriteback line) (s.setMem m) = .next t ∧ Memory.run t.mem.bytes (64 * line) 64 = d ∧
      Sparse.get? t.mem.errs line = none ∧ (∀ k ≠ line, Sparse.get? t.mem.errs k = Sparse.get? s.mem.errs k) ∧
      (∀ a, a / 64 ≠ line → Memory.byteAt t.mem.bytes a = Memory.byteAt s.mem.bytes a) ∧
      t = { s with mem := { m with bytes := t.mem.bytes, errs := t.mem.errs, fixes := t.mem.fixes } }) ∧
    (∀ (w : Writer) (cls time k : Nat) (b : Bytes), let n := (Memory.mergeLine m w cls time line k b).1
      exec (.correctionWriteback line) (s.setMem n) = .next (s.setMem n)) ∧
    ∀ b : Bytes, exec (.correctionWriteback line) (s.setMem (Memory.writeLine m line b)) = .next (s.setMem (Memory.writeLine m line b))

/-- In memory without error patterns. While memory is up and the run ends at or below MEM_TOP, WC_WRITE_MERGE completes:
reads then see exactly its bytes at its addresses and what they saw before everywhere else. WC_IDLE_FLUSH completes at
any time: the clock moves on, no byte that a read sees changes, and no entry of that line untouched for 256 hub cycles
(214 ns of the model's clock) is left. SCRUB_READ, while memory is up, completes, charges 256 transactions to the
scrub class and moves the scrub to the next codeword, slot or pass. Besides memory and the budgets, and the clock for
the flush, nothing changes. It rests on parts of R301, R303, R304, R314. (spec/13_stacked_memory.md) -/
def Obligations.WriteCombiningKeepsWhatReadsSee : Prop :=
  ∀ (s : State), memClean s →
    (∀ src a b, MemRows.up s = true → a + b.length ≤ Config.memTop → ∃ t, exec (.wcWriteMerge src a b) s = .next t ∧ memClean t ∧
      (∀ x, byteOf t x = if a ≤ x ∧ x < a + b.length then b.getD (x - a) 0 else byteOf s x) ∧
      t = { s with mem := t.mem, sched := { s.sched with budgets := t.sched.budgets } }) ∧
    (∀ n line, ∃ t, exec (.wcIdleFlush n line) s = .next t ∧ memClean t ∧ (∀ x, byteOf t x = byteOf s x) ∧
      (∀ e ∈ t.mem.wc, e.line = line → t.now < e.time + 214) ∧
      t = { s with now := max s.now n, mem := t.mem, sched := { s.sched with budgets := t.sched.budgets } }) ∧
    (MemRows.up s = true → exec .scrubRead s = .next { s with
      mem := { s.mem with
        codeword := if s.mem.codeword < 63 then s.mem.codeword + 1 else 0
        slot := if s.mem.codeword < 63 then s.mem.slot else if s.mem.slot + 1 < 466033 then s.mem.slot + 1 else 0
        passes := if s.mem.codeword < 63 then s.mem.passes else if s.mem.slot + 1 < 466033 then s.mem.passes else s.mem.passes + 1 }
      sched := charge s.sched 6 256 0 })

/-- P48V_RISE at or above 38.0 V while OFF begins soft-start. POWER_GOOD in soft-start with P48V in the operating range
begins the cold start: HUB_BOOT runs and PTP time is 0. P48V_UNDERVOLTAGE below 36.0 V takes every rail off and ends a
thermal trip's hold, and P48V_OVERVOLTAGE at or above 62.0 V takes every rail off unless a trip holds them off.
P48V_OVERVOLTAGE_CLEAR below 60.0 V begins soft-start again. Where rails go off or a cold start begins, the fuses, the
flash, the waiting commands and the next log position stand, and bring-up, host side, memory, fabric, scheduler, codec
and cache state, counters and the log's records are those of reset (PERST_N as it is); one free value, the unlock
nonce, is drawn. It rests on parts of R398, R400, R401, R455.
(spec/17_bring_up.md,spec/20_power_thermal_measurement.md) -/
def Obligations.SupplyStages : Prop :=
  ∀ (s : State) (mv n : Nat),
    (s.pwr.phase = .off → 38000 ≤ mv →
      exec (.p48vRise mv) s = .next { s with pwr := { s.pwr with p48v := mv, phase := .softStart } }) ∧
    (s.pwr.phase = .overvolt → mv < 60000 →
      exec (.p48vOvervoltageClear mv) s = .next { s with pwr := { s.pwr with p48v := mv, phase := .softStart } }) ∧
    (let lost : State → Prop := fun t => (t.fuses = s.fuses ∧ t.flash = s.flash ∧ t.pending = s.pending ∧
        t.host = { State.resetHost with perstLow := s.host.perstLow } ∧ t.mem = State.resetMem ∧ t.fab = State.resetFabric ∧
        t.sched = State.resetSched ∧ t.codec = State.reset.codec ∧ t.cache = State.reset.cache ∧ t.tm = State.reset.tm ∧
        t.log = ⟨[], s.log.next, 0, 0, []⟩ ∧ t.recov = none ∧ t.free = s.free + 1 ∧ t.ident.level = 0 ∧ t.ident.unlocks = 0 ∧
        t.pwr.brakePin = s.pwr.brakePin ∧ t.pwr.latch = none);
      (s.pwr.phase = .softStart → Starts.operating s.pwr.p48v = true → ∃ t, exec (.powerGood n) s = .next t ∧ lost t ∧
        t.now = max s.now n ∧ t.pwr.phase = .good ∧ t.bu = { State.resetBringUp with step := 1 } ∧ ptpTime t = 0) ∧
      (mv < 36000 → ∃ t, exec (.p48vUndervoltage mv) s = .next t ∧ lost t ∧ t.pwr.phase = .off ∧ t.pwr.p48v = mv ∧
        t.pwr.thermTrip = false ∧ t.bu = State.resetBringUp) ∧
      (62000 ≤ mv → s.pwr.phase ≠ .tripped → ∃ t, exec (.p48vOvervoltage mv) s = .next t ∧ lost t ∧ t.pwr.phase = .overvolt ∧
        t.pwr.p48v = mv ∧ t.bu = State.resetBringUp))

/-- With the rails good and no store waiting. A POWER_SAMPLE that crosses no band of R456 becomes the latest sample and
counts into the control window; where its power exceeds 115 % of the fused limit and no brake is in force, the brake
is entered and 0x0801 is logged with ARG0 2 and that power; where it does not and the pin is low outside a brake, the
brake is entered with ARG0 3; where it does not and did not before, and the pin is high or the brake already in force,
nothing else changes. PWR_BRAKE_N_FALL outside a brake enters it and logs 0x0801 with ARG0 3 and the latest power.
PWR_BRAKE_N_RISE ends that cause and, with no other cause, starts the 1 ms. BRAKE_RELEASE 1 ms after the end of the
last cause ends the brake and f_tgt restarts from 700 MHz. Only the clock of the model moves besides. It rests on
parts of R456, R458, R464, R469. (spec/20_power_thermal_measurement.md) -/
def Obligations.HardBrakeEntryAndRelease : Prop :=
  ∀ (s : State) (n mv curr : Nat) (mw : Word) (rail : List (Half × Word)), s.pwr.phase = .good → s.pwr.waiting = [] →
    let smp : Sample := ⟨mv % 65536, curr % 65536, mw.toNat, rail.map fun (v, c) => (v.toNat, c.toNat), ptpTime (tick s n)⟩
    let p := { s.pwr with
      latest := smp
      winSum := s.pwr.winSum + mw.toNat
      winCount := s.pwr.winCount + 1
      p48v := mv
      inSince := if 40000 ≤ mv ∧ mv ≤ 60000 then some (s.pwr.inSince.getD n) else none }
    (((36000 ≤ mv ∧ mv < 40000) ∨ (60000 < mv ∧ mv ≤ 62000) ↔ s.pwr.outBand = true) →
      (Config.pwrLimit s.fuses.variant * 1150 < mw.toNat → s.pwr.brake = false →
        ∃ t, exec (.powerSample n mv curr mw rail) s = .next t ∧
          logs { s with now := max s.now n, pwr := { p with brakeOver := true, brake := true } } t
            { status := 0x0801, source := 0x7000, arg0 := 2, arg1 := mw.toNat }) ∧
      (mw.toNat ≤ Config.pwrLimit s.fuses.variant * 1150 → s.pwr.brakePin = true → s.pwr.brake = false →
        ∃ t, exec (.powerSample n mv curr mw rail) s = .next t ∧
          logs { s with now := max s.now n, pwr := { p with brakeOver := false, brake := true } } t
            { status := 0x0801, source := 0x7000, arg0 := 3, arg1 := mw.toNat }) ∧
      (mw.toNat ≤ Config.pwrLimit s.fuses.variant * 1150 → s.pwr.brakeOver = false → s.pwr.brakePin = false ∨ s.pwr.brake = true →
        exec (.powerSample n mv curr mw rail) s = .next { s with now := max s.now n, pwr := p })) ∧
    (s.pwr.brake = false → ∃ t, exec (.pwrBrakeNFall n) s = .next t ∧
      logs { s with now := max s.now n, pwr := { s.pwr with brakePin := true, brake := true } } t
        { status := 0x0801, source := 0x7000, arg0 := 3, arg1 := s.pwr.latest.mw }) ∧
    exec (.pwrBrakeNRise n) s = .next { s with
      now := max s.now n
      pwr := { s.pwr with
        brakePin := false
        brakeEnd := if s.pwr.brake ∧ ¬ s.pwr.brakeOver then n else s.pwr.brakeEnd } } ∧
    (s.pwr.brake = true → s.pwr.brakePin = false → s.pwr.brakeOver = false → s.pwr.brakeEnd + 1000000 ≤ n →
      exec (.brakeRelease n) s = .next { s with now := max s.now n, pwr := { s.pwr with brake := false, fTgt := 700 } })

/-- With the rails good and 64 budget periods measured, CONTROL_WINDOW completes: P_avg is the mean input power in mW, the
sums restart, the policies of P_op, T_th and f_cap come into force, and f_tgt falls by 50 MHz for each fiftieth of
P_op begun above it, at most 200, rises by 25 below 95 % of P_op, and is clamped to the cap and the floor, the floor
winning where it is above the cap (R389); the floor is 1,400 MHz while a blitz ring is ENABLED and neither case of
R463 lasts, else 400; while the hub die holds it, f_tgt is at most 1,000 MHz. The first case of R463 lasts from the
sixteenth window in a row above the fused limit, and entering it logs 0x0801 with ARG0 1. Nothing else changes. It
rests on parts of R389, R460, R461, R463, R464. (spec/20_power_thermal_measurement.md) -/
def Obligations.ControlWindowMovesTheClockTarget : Prop :=
  ∀ (s : State), s.pwr.phase = .good → 64 ≤ s.pwr.winCount →
    let p := s.pwr
    let mw := p.winSum / p.winCount
    let w := mw / 1000
    let wins := if Config.pwrLimit s.fuses.variant < w then p.overWins + 1 else 0
    let yield := blitzEnabled s.host && decide (16 ≤ wins)
    let floor := if blitzEnabled s.host && !yield && !p.yieldHub then 1400 else 400
    let moved := if p.polP < w then p.fTgt - min 200 (50 * ((w - p.polP + p.polP / 50 - 1) / (p.polP / 50)))
      else if w < p.polP * 95 / 100 then p.fTgt + 25 else p.fTgt
    let target := max floor (min p.polF moved)
    let q := { p with
      pAvg := mw
      winSum := 0
      winCount := 0
      overWins := wins
      pOp := p.polP
      tTh := p.polT
      fCap := p.polF
      yieldPow := yield
      fTgt := if p.yieldHub then min 1000 target else target }
    (yield = true → p.yieldPow = false → ∃ t, exec .controlWindow s = .next t ∧
      logs { s with pwr := q } t { status := 0x0801, source := 0x7000, arg0 := 1 }) ∧
    (yield = false ∨ p.yieldPow = true → exec .controlWindow s = .next { s with pwr := q })

/-- With the rails good, each temperature sample completes. A cell below 115: its temperature is noted and its clock
limit, first the variant's maximum, moves by 50 down above T_th or 25 up below T_th-3, between floor and f_tgt, and it
enters or leaves the case of T_th+10 while a blitz ring is ENABLED. The hub die below 115: noted, and above 105 its
hold on f_tgt stands. A stack below 110: noted, its refresh row follows R312 with 3 degrees of hysteresis, and row 3
throttles it. Where the case, hold or throttle changes, 0x0802 is logged, with the ARG0 of the spec on entry; a
stack's record on leaving has ARG0 0x100 more. At 115 (cell, hub) or 110 (stack) the rails go off and the hot-swap
controller latches unit and temperature and drives THERM_TRIP_N low; fuses, flash and the next log position stand.
Nothing else changes. It rests on parts of R312, R313, R462, R463, R465, R466.
(spec/13_stacked_memory.md,spec/20_power_thermal_measurement.md) -/
def Obligations.TemperatureSamplesActAndTrip : Prop :=
  ∀ (s : State) (k : Nat) (temp : Byte), s.pwr.phase = .good →
    let n := temp.toInt
    let trips := fun (o : Host.Outcome State Fault Refusal) (arg : Nat) => ∃ t, o = .next t ∧ t.pwr.phase = .tripped ∧ t.pwr.trip = some (arg, n) ∧
      t.pwr.thermTrip = true ∧ t.bu = State.resetBringUp ∧ t.mem = State.resetMem ∧ t.sched = State.resetSched ∧
      t.fuses = s.fuses ∧ t.flash = s.flash ∧ t.log.next = s.log.next
    let acts := fun (o : Host.Outcome State Fault Refusal) (b : State) (change : Bool) (arg src : Nat) => ∃ t, o = .next t ∧
      (change = false → t = b) ∧ (change = true → logs b t { status := 0x0802, source := src, arg0 := arg })
    let hot := blitzEnabled s.host && decide ((s.pwr.tTh : Int) + 10 ≤ n)
    let floor := if blitzEnabled s.host && decide (n < (s.pwr.tTh : Int) + 10) then 1400 else 400
    let old := Sparse.getD s.pwr.fc k (Config.clkMax s.fuses.variant)
    let moved := if (s.pwr.tTh : Int) < n then old - 50 else if n < (s.pwr.tTh : Int) - 3 then old + 25 else old
    let was := s.mem.throttle.contains k
    let row := Memory.tempRow (if was then 3 else Sparse.getD s.mem.rate k 0) n
    (115 ≤ n → trips (exec (.cellTempSample k temp) s) (0x10000 + k) ∧ trips (exec (.hubTempSample temp) s) 0x20000) ∧
    (110 ≤ n → trips (exec (.stackTempSample k temp) s) k) ∧
    (n < 115 → acts (exec (.cellTempSample k temp) s)
        { s with pwr := { s.pwr with
          cellTemp := Sparse.put s.pwr.cellTemp k n
          fc := Sparse.put s.pwr.fc k (min s.pwr.fTgt (max floor moved))
          hot := if hot then (if s.pwr.hot.contains k then s.pwr.hot else k :: s.pwr.hot) else s.pwr.hot.filter (· != k) } }
        (hot != s.pwr.hot.contains k) (0x10000 + k) 0x7000 ∧
      acts (exec (.hubTempSample temp) s) { s with pwr := { s.pwr with hubTemp := n, yieldHub := decide (105 < n) } }
        (decide (105 < n) != s.pwr.yieldHub) 0x20000 0x7000) ∧
    (n < 110 → acts (exec (.stackTempSample k temp) s)
      { s with mem := { s.mem with
        temp := Sparse.put s.mem.temp k n
        rate := Sparse.put s.mem.rate k (min 2 row)
        throttle := if row = 3 then (if was then s.mem.throttle else k :: s.mem.throttle) else s.mem.throttle.filter (· != k) } }
      (decide (row = 3) != was) (if row = 3 then k else 0x100 + k) (0x4000 + k))

/-- Where reception takes a PTP frame, its command completes. For another module the frame is forwarded with HOPS one
more, below 7. For this module a message of another type, version or domain changes nothing more. Otherwise ANNOUNCE
notes the master and runs the best master choice; a two-step SYNC of the master on the slave port under SOURCE 1 notes
its receive time; the FOLLOW_UP of that Sync measures the offset, steps the time by it where the clock is not locked
yet, and locks; PDELAY_RESP of an outstanding request notes its times, and PDELAY_RESP_FOLLOW_UP sets the port's delay
to half of the difference of the two turnarounds. An accepted PPS_IN_EDGE under SOURCE 2 sets the time to the pending
seconds, or to the nearest second, and locks. A lock sets the frequency correction (a free value, log 5).
PTP_SOURCE_LOSS moves a locking or locked clock to HOLDOVER after 375 ms without Sync or 1.5 s without an edge.
TAI_YEAR_CHANGE restarts TM_DOWN. Nothing else changes. The fields of the messages are the standard's (log 13). It
rests on parts of R328, R329, R340, R341, R342. (spec/14_twisil_fabric.md,spec/22_electrical_and_mechanical.md) -/
def Obligations.PtpInputsDisciplineTheClock : Prop :=
  ∀ (s u : State) (t p : Nat) (fr f : Sys2Proof.Frame), Link.receive (tick s t) p fr = .take f u → Link.kind f = 5 →
    let b := f.payload
    let seq := Time.mSeq b
    let here := fun k => Time.mType b = k ∧ Time.mVersion b = 2 ∧ Time.mDomain b = Time.domain u
    (∀ q, Link.dst f ≠ Link.myId u → Link.routePtp u (Link.dst f) (Link.src f) (Link.tag f) = .port q → Link.hops f < 7 →
      let sent := Link.send u q (Link.body 5 (Link.vc f) (Link.hops f + 1) (Link.dst f) (Link.src f) (Link.tag f) (Link.index f) b)
      exec (.announce t p fr) s = .next sent ∧ exec (.sync t p fr) s = .next sent ∧ exec (.followUp t p fr) s = .next sent ∧
      exec (.pdelayReq t p fr) s = .next sent ∧ exec (.pdelayResp t p fr) s = .next sent ∧
      exec (.pdelayRespFollowUp t p fr) s = .next sent) ∧
    (Link.dst f = Link.myId u →
      (¬ here 0xB → exec (.announce t p fr) s = .next u) ∧ (¬ here 0 → exec (.sync t p fr) s = .next u) ∧
      (¬ here 8 → exec (.followUp t p fr) s = .next u) ∧ (¬ here 2 → exec (.pdelayReq t p fr) s = .next u) ∧
      (¬ here 3 → exec (.pdelayResp t p fr) s = .next u) ∧ (¬ here 0xA → exec (.pdelayRespFollowUp t p fr) s = .next u) ∧
      (here 0xB →
        let c := u.setPtp { u.ptp with masters := Sparse.put u.ptp.masters p (Time.mDataset b) }
        exec (.announce t p fr) s = .next
          (if Time.best c = u.ptp.slave then c
           else c.setPtp { c.ptp with
            slave := Time.best c
            state := if Time.source u = 1 then (if (Time.best c).isSome then 1 else 0) else u.ptp.state
            sync := none
            lastSync := u.now })) ∧
      (here 0 → u.ptp.slave = some p → Time.source u = 1 → Time.mTwoStep b = true →
        (Sparse.get? u.ptp.masters p).map (·.sender) = some (Time.mSender b) →
        exec (.sync t p fr) s = .next (u.setPtp { u.ptp with
          sync := some (p, seq, (ptpTime u : Int) - Time.mCorrection b)
          lastSync := u.now })) ∧
      (∀ rx, here 8 → u.ptp.sync = some (p, seq, rx) → Time.source u = 1 →
        let off : Int := rx - ((Time.mStamp b : Int) + Time.mCorrection b + Sparse.getD u.ptp.delay p 0)
        exec (.followUp t p fr) s = .next { u with
          free := u.free + 1
          ptp := { u.ptp with
            offset := u.ptp.offset - (if u.ptp.state = 2 then 0 else off) + ptpDrift u
            since := u.now
            rate := (Config.freeValue u.free).toInt
            measured := off
            state := 2
            sync := none } }) ∧
      (∀ t1, here 3 → Sparse.get? u.ptp.pdReq p = some (seq, t1) → Time.mAsker b = Time.portId u p →
        exec (.pdelayResp t p fr) s = .next (u.setPtp { u.ptp with
          pdResp := Sparse.put u.ptp.pdResp p (seq, Time.mStamp b, (ptpTime u : Int) - Time.mCorrection b) })) ∧
      (∀ t1 t2 t4, here 0xA → Sparse.get? u.ptp.pdReq p = some (seq, t1) → Sparse.get? u.ptp.pdResp p = some (seq, t2, t4) →
        Time.mAsker b = Time.portId u p →
        exec (.pdelayRespFollowUp t p fr) s = .next (u.setPtp { u.ptp with
          delay := Sparse.put u.ptp.delay p (((t4 - t1) - ((Time.mStamp b : Int) + Time.mCorrection b - t2)) / 2) }))) ∧
    (let w := tick s t
     (∀ high rise, 100 ≤ high → rise ≤ 10 → Time.source s = 2 → (∀ t0 ∈ s.ptp.lastPps, t0 + 900000000 ≤ t) →
      let v := match s.ptp.pendSet with
        | some k => k * 1000000000
        | none => (ptpTime w + 500000000) / 1000000000 * 1000000000
      exec (.ppsInEdge t high rise) s = .next { w with
        free := s.free + 1
        ptp := { s.ptp with
          lastPps := some t
          offset := (v : Int) - w.now
          since := w.now
          rate := (Config.freeValue s.free).toInt
          pendSet := none
          measured := (ptpTime w : Int) - v
          state := 2 } }) ∧
     (s.ptp.state = 1 ∨ s.ptp.state = 2 →
      (Time.source s = 1 ∧ s.ptp.slave.isSome ∧ s.ptp.lastSync + 375000000 ≤ t) ∨
        (Time.source s = 2 ∧ ∃ t0 ∈ s.ptp.lastPps, t0 + 1500000000 ≤ t) →
      exec (.ptpSourceLoss t) s = .next (w.setPtp { s.ptp with state := 3 })) ∧
     (∀ y : Half, exec (.taiYearChange y) s = .next { s with flash := { s.flash with
        downYear := y.toNat
        downMs := 0 } }))

/-- PTP_SYNC_TIMER sends Sync and Follow_Up, and PTP_ANNOUNCE_TIMER Announce, on every UP port but the slave port;
PTP_PDELAY_TIMER sends Pdelay_Req on every UP port; a PDELAY_REQ frame that reception takes, for this module and in
the clock's domain, is answered on its port by Pdelay_Resp and Pdelay_Resp_Follow_Up. Each completes. The messages
carry one sequence number, which each timer advances modulo 65536 (PDELAY_REQ's answers carry the request's), and the
PTP time of the command. Nothing changes but the clock of the model and what reception changed, the fabric's ports and
output, the messages sent, the requests noted and the sequence; no port changes that does not send, and none its
state; each frame of VC2 either leaves or waits in its port's queue. It rests on parts of R323, R325, R326, R342.
(spec/14_twisil_fabric.md) -/
def Obligations.PtpSending : Prop :=
  ∀ (s : State) (t : Nat),
    let ups := (List.range 24).filter fun p => (Link.portAt s p).state == .up
    let masters := ups.filter fun p => s.ptp.slave != some p
    let sends := fun (o : Host.Outcome State Fault Refusal) (w : State) (seq : Nat) (ps : List Nat) (msgs : List PtpMsg)
        (asked : Option (Nat × Nat)) => ∃ v, o = .next v ∧
      v = { w with
        fab := { w.fab with
          port := v.fab.port
          sent := v.fab.sent }
        ptp := { w.ptp with
          seq := seq
          pdReq := v.ptp.pdReq
          sent := msgs.reverse ++ w.ptp.sent } } ∧
      (∀ q, (Link.portAt v q).state = (Link.portAt w q).state) ∧
      (∀ q, q ∉ ps → Link.portAt v q = Link.portAt w q ∧ Sparse.get? v.ptp.pdReq q = Sparse.get? w.ptp.pdReq q) ∧
      (∀ q ∈ ps, Sparse.get? v.ptp.pdReq q = if asked.isSome then asked else Sparse.get? w.ptp.pdReq q)
    let next := (s.ptp.seq + 1) % 65536
    let now := ptpTime (tick s t)
    let msg := fun k p => (⟨k, p, s.ptp.seq, now⟩ : PtpMsg)
    sends (exec (.ptpSyncTimer t) s) (tick s t) next masters (masters.flatMap fun p => [msg 0 p, msg 8 p]) none ∧
    sends (exec (.ptpAnnounceTimer t) s) (tick s t) next masters (masters.map (msg 0xB)) none ∧
    sends (exec (.ptpPdelayTimer t) s) (tick s t) next ups (ups.map (msg 2)) (some (s.ptp.seq, now)) ∧
    (∀ (u : State) (p : Nat) (fr f : Sys2Proof.Frame), Link.receive (tick s t) p fr = .take f u → Link.kind f = 5 →
      Link.dst f = Link.myId u → Time.mType f.payload = 2 → Time.mVersion f.payload = 2 →
      Time.mDomain f.payload = Time.domain u →
      let seq := Time.mSeq f.payload
      sends (exec (.pdelayReq t p fr) s) u u.ptp.seq [p] [⟨3, p, seq, ptpTime u⟩, ⟨0xA, p, seq, ptpTime u⟩] none)

/-- On a port in training with no HELLO out, PORT_TRAINING with lock sends LINK HELLO; without lock, and at
TRAINING_LOCK_TIMEOUT, the port tries one generation lower, and at GEN 1 it ends DOWN, its replay buffer and queue
discarded, logging 0x0503 if it had been UP; bring-up then no longer waits for it, and LINK_TRAIN ends once it waits
for no port. PORT_RETRY_TIMER starts an enabled DOWN port without the quarantine mark again 1 s after it went DOWN,
from step 1 where an assembly answers, else it stays DOWN. SYNDROME_LOCK_LOSS takes an UP port with an assembly into
training with 0x0503 logged and its replay buffer kept. REPLAY_REQUEST_REPEAT, IDLE_SEND_TIMER, CREDIT_RETURN_TIMER
and QUARANTINE_BEACON send their frames in their states, the credit totals once after each change.
FORWARD_QUEUE_TIMEOUT drops the frames on their way through (HOPS above 0) that were held for more than 10 ms. Nothing
else changes. It rests on parts of R320, R321, R401, R324, R325, R326, R329, R338.
(spec/14_twisil_fabric.md,spec/17_bring_up.md) -/
def Obligations.PortTrainingAndTimers : Prop :=
  ∀ (s : State) (t p : Nat),
    let u := tick s t
    let x := Link.portAt s p
    let fresh := { x with
      state := .training
      gen := 0
      stage := 0
      tryGen := 1
      partner := 0 }
    let dead := { x with
      state := .down
      gen := 0
      unacked := []
      queue := []
      downAt := u.now
      wasUp := false }
    let fails := fun (o : Host.Outcome State Fault Refusal) =>
      (1 < x.tryGen → o = .next (Link.putPort u p { x with
        tryGen := x.tryGen - 1
        stage := 2 })) ∧
      (x.tryGen ≤ 1 → ∃ v, o = .next (Link.linkTrainDone v) ∧
        (x.wasUp = false → v = Link.ended (Link.putPort u p dead) p) ∧
        (x.wasUp = true → logs (Link.ended (Link.putPort u p dead) p) v (Link.linkDown p)))
    (x.state = .training → x.stage % 2 = 0 →
      exec (.portTraining t p true) s = .next (Link.sendHello (Link.putPort u p { x with stage := x.stage + 1 }) p) ∧
      fails (exec (.portTraining t p false) s) ∧ fails (exec (.trainingLockTimeout t p) s)) ∧
    (x.state = .down → (Link.cfgAt s p).enable = true → (Link.cfgAt s p).qmark = false → x.downAt + 1000000000 ≤ t →
      exec (.portRetryTimer t p) s = .next (if Link.hasCable s p then Link.putPort u p fresh
        else Link.ended (Link.putPort u p { dead with wasUp := x.wasUp }) p)) ∧
    (x.state = .up → Link.hasCable s p = true → ∃ v, exec (.syndromeLockLoss t p) s = .next v ∧
      logs (Link.putPort u p { fresh with wasUp := true }) v (Link.linkDown p)) ∧
    (x.state = .up → x.replaying = true → exec (.replayRequestRepeat t p) s = .next (Link.putPort
      (Link.sendLink u p (Link.linkBlock 3 0 x.rxSeq 0 0 0 0 0 [])) p { x with replays := satInc (2 ^ 24 - 1) x.replays 1 })) ∧
    (x.state = .up ∨ x.state = .quarantined → exec (.idleSendTimer t p) s = .next (Link.sendPlain u p 0 [])) ∧
    (x.state = .up → x.freed ≠ x.returned → exec (.creditReturnTimer t p) s = .next
      (Link.sendLink (Link.putPort u p { x with returned := x.freed }) p (Link.linkBlock 2 0 0 0 0
        (Sparse.getD x.freed 0 0 % 2 ^ 32) (Sparse.getD x.freed 1 0 % 2 ^ 32) (Sparse.getD x.freed 2 0 % 2 ^ 32) []))) ∧
    (x.state = .quarantined → exec (.quarantineBeacon t p) s = .next (Link.sendLink u p (Link.linkBlock 5 0x0C 0 0 0 0 0 0 []))) ∧
    exec (.forwardQueueTimeout t p) s = .next (Link.putPort u p { x with
      queue := x.queue.filter fun e => Link.hops e.2 == 0 || decide (t ≤ e.1 + 10000000) })

/-- On a quarantined, disabled or DOWN port a received frame is dropped and nothing changes. Elsewhere a frame whose CRC
differs is dropped and answered by LINK REPLAY naming the SEQ expected; the codewords it lay in count in FEC_UNCORR
(their number is a free value, log 5). On an UP port in clear, a sound frame with SEQ ahead of the expected one is
dropped and answered by LINK REPLAY, one behind it is dropped in silence; the expected one advances SEQ by 1 modulo
4096 and ends the wait for a replay (that a violating frame does so too is the model's reading, log 53). If its header
breaks a check it is a violation, counted and answered by LINK NAK, and nothing of its ACK is used; otherwise it is
taken: what its ACK covers leaves the replay buffer, which restarts the count of replays where something left, its
credit units count as received and freed on its VC, and what waits in the port's queue leaves while it may. A frame
that takes no SEQ is checked and taken the same way without the units. It rests on parts of R323, R324, R325, R326,
R337, R344. (spec/14_twisil_fabric.md) -/
def Obligations.FramesAreReceivedInOrder : Prop :=
  ∀ (s : State) (p : Nat) (f : Sys2Proof.Frame),
    let x := Link.portAt s p
    let left := x.unacked.filter fun e => 2048 ≤ (Link.ackOf f + 4096 - e.1) % 4096
    let acked := fun (y : Port) => if left.length < x.unacked.length then { y with
        unacked := left
        tries := (0, 0) } else y
    let ahead := (Link.seqOf f + 4096 - x.rxSeq) % 4096
    let z := { x with
      rxSeq := (x.rxSeq + 1) % 4096
      replaying := false }
    let units := Link.units (Link.len f) false
    (x.state = .quarantined ∨ x.state = .disabled ∨ x.state = .down → Link.receive s p f = .drop s) ∧
    (x.state = .training ∨ x.state = .up → Link.crcOf f.header f.payload f.sec ≠ f.crc →
      Link.receive s p f = .drop (Link.sendReplay (Link.putPort { s with free := s.free + 1 } p { x with
        fecUncorr := min (2 ^ 24 - 1) (x.fecUncorr + (Config.freeValue s.free).toNat) }) p)) ∧
    (x.state = .up → x.crypt = false → f.sec = none → Link.crcOf f.header f.payload none = f.crc →
      (Link.takesSeq f = true → Link.seqOf f ≠ x.rxSeq → ahead < 2048 → Link.receive s p f = .drop (Link.sendReplay s p)) ∧
      (Link.takesSeq f = true → Link.seqOf f ≠ x.rxSeq → 2048 ≤ ahead → Link.receive s p f = .drop s) ∧
      (Link.takesSeq f = true → Link.seqOf f = x.rxSeq →
        (∀ r, Link.headerReason z f = some r → Link.receive s p f = .drop (Link.violateNak (Link.putPort s p z) p r f)) ∧
        (Link.headerReason z f = none → Link.receive s p f = .take f (Link.drainQueue (Link.putPort s p { acked z with
          received := Sparse.upd x.received (Link.vc f) 0 (· + units)
          freed := Sparse.upd x.freed (Link.vc f) 0 (· + units) }) p))) ∧
      (Link.takesSeq f = false →
        (∀ r, Link.headerReason x f = some r → Link.receive s p f = .drop (Link.violateNak s p r f)) ∧
        (Link.headerReason x f = none → Link.receive s p f = .take f (Link.drainQueue (Link.putPort s p (acked x)) p))))

/-- Where reception takes an IDLE or a sound LINK frame, its command completes, and beyond reception: IDLE and LINK NAK
change nothing; LINK HELLO notes the partner, and at the first exchange sets the generation to the lower of both
offers, at the second brings the port UP (in clear with nothing to resend: at that generation with fresh credits, and
bring-up waits for it no longer); LINK CREDIT on an UP port notes the partner's totals, and waiting frames leave while
they may; LINK REPLAY on an UP port resends in order from the SEQ named, and the ninth for one SEQ without progress
retrains instead; LINK QUARANTINE takes the port DOWN. A LINK block that breaks R327 is a violation instead. It rests
on parts of R321, R324, R325, R326, R327, R337, R338. (spec/14_twisil_fabric.md) -/
def Obligations.LinkFramesAct : Prop :=
  ∀ (s u : State) (t p : Nat) (fr f : Sys2Proof.Frame), Link.receive (tick s t) p fr = .take f u →
    let x := Link.portAt u p
    let b := f.payload
    let met := { x with
      partner := fld b 4 2
      partnerOffer := fld b 6 1 }
    exec (.idle t p fr) s = .next u ∧
    (Link.kind f = 4 → Link.linkBad b = false →
      (fld b 0 1 = 1 → x.state = .training →
        (x.stage = 1 → exec (.linkHello t p fr) s = .next (Link.putPort u p { met with
          stage := 2
          tryGen := max 1 (min (Link.offer u p) (fld b 6 1)) })) ∧
        (x.stage = 3 → exec (.linkHello t p fr) s = .next (Link.enterUp (Link.putPort u p met) p) ∧
          ((Link.cfgAt u p).encrypt = false → x.unacked = [] → x.queue = [] →
            exec (.linkHello t p fr) s = .next (Link.linkTrainDone (Link.ended (Link.putPort u p { met with
              state := .up
              gen := x.tryGen
              granted := []
              used := []
              freed := []
              received := []
              returned := []
              crypt := false
              tries := (0, 0)
              wasUp := false }) p))))) ∧
      (fld b 0 1 = 1 → (x.state ≠ .training ∨ (x.stage ≠ 1 ∧ x.stage ≠ 3)) → exec (.linkHello t p fr) s = .next (Link.putPort u p met)) ∧
      (fld b 0 1 = 2 → x.state = .up → exec (.linkCredit t p fr) s = .next (Link.drainQueue (Link.putPort u p { x with
        granted := [(0, fld b 8 4), (1, fld b 12 4), (2, fld b 16 4)] }) p)) ∧
      (fld b 0 1 = 3 → x.state = .up →
        (x.tries = (fld b 2 2, 8) → exec (.linkReplay t p fr) s = .next (Link.leaveUp (Link.putPort u p { x with tries := (0, 0) }) p)) ∧
        (x.tries ≠ (fld b 2 2, 8) → exec (.linkReplay t p fr) s = .next
          ((x.unacked.dropWhile fun e => e.1 != fld b 2 2).foldl (fun s e => Link.wire s p e.1 e.2)
            (Link.putPort u p { x with tries := (fld b 2 2, if x.tries.1 = fld b 2 2 then x.tries.2 + 1 else 1) })))) ∧
      (fld b 0 1 = 4 → exec (.linkNak t p fr) s = .next u) ∧
      (fld b 0 1 = 5 → exec (.linkQuarantine t p fr) s = .next (Link.linkTrainDone (Link.goDown u p)))) ∧
    (Link.kind f = 4 → Link.linkBad b = true →
      exec (.linkHello t p fr) s = .next (Link.violateNak u p 3 f) ∧ exec (.linkCredit t p fr) s = .next (Link.violateNak u p 3 f) ∧
      exec (.linkReplay t p fr) s = .next (Link.violateNak u p 3 f) ∧ exec (.linkNak t p fr) s = .next (Link.violateNak u p 3 f) ∧
      exec (.linkQuarantine t p fr) s = .next (Link.violateNak u p 3 f))

/-- Where reception takes a REQ, DATA or RESP frame, its command completes. For this module a sound REQ replaces what the
same endpoint and TAG had and waits for its execution with the verdict of its region, and a REQ whose block breaks a
check is a violation answered with its reason; a RESP ends the write or atomic of its TAG, whose operation-queue
record completes with its result; DATA of a read is stored where the read asks; DATA of a WRITE is stored at the
WRITE's address, or kept if the WRITE is denied or the class of peers has no traffic left, which marks its stall. For
another module a frame with fewer than 7 hops is sent on with one hop more; a REQ with 7 is answered by HOP_LIMIT, one
without a route by UNREACHABLE. TRANSACTION_TIMEOUT, 10 ms after the REQ, ends the transaction with 0x0505 and rests
its TAG for 20 ms. TARGET_WRITE_TIMEOUT, 10 ms after a REQ whose data are incomplete, drops it with no RESP.
OPQ_RECORD_ISSUE issues the next sound atomic record of a queue with fewer than 64 outstanding. It rests on parts of
R328, R329, R330, R333, R334, R335, R337, R339. (spec/14_twisil_fabric.md) -/
def Obligations.FabricFramesReachTheirTransaction : Prop :=
  ∀ (s u : State) (t p : Nat) (fr f : Sys2Proof.Frame), Link.receive (tick s t) p fr = .take f u →
    let src := Link.src f
    let tag := Link.tag f
    let goes := Link.route u (Link.dst f) src tag
    (goes = .here →
      (Link.kind f = 1 → Fab.blockBad f.payload = none → exec (.req t p fr) s = .next { u with
        fab := { u.fab with
          served := (u.fab.served.filter fun y => !(y.src == src && y.tag == tag)) ++
            [⟨src, tag, p, f.payload, u.now, if Fab.bOp f.payload ≤ 5 then Fab.regionReason u src f.payload else 0,
              Fab.target u f.payload, []⟩] } }) ∧
      (Link.kind f = 1 → ∀ r, Fab.blockBad f.payload = some r →
        exec (.req t p fr) s = .next (Fab.respond (Fab.offend u p r f) src tag r 0 [])) ∧
      (Link.kind f = 3 → ∀ x q n, u.fab.txns.find? (·.tag == tag) = some x → x.owner = .opq q n → Fab.reads x.op = false →
        Fab.rReason f.payload = 0 →
        exec (.resp t p fr) s = .next (Fab.opqDone (Fab.dropTxn u tag) q n 0 0 (Fab.rResult f.payload))) ∧
      (Link.kind f = 2 → Link.vc f = 1 → ∀ x, (u.fab.txns.find? fun y => y.tag == tag && Fab.reads y.op) = some x →
        Fab.dataFits x.length f = true → ∀ q n, x.owner = .opq q n →
        exec (.data t p fr) s = .next (Fab.settleTxn (Fab.putTxn
          (Fab.store u x (4096 * Link.index f) (slice f.payload 0 (Fab.unitBytes x.length (Link.index f))))
          { x with units := Sparse.put x.units (Link.index f) [] }) x.tag)) ∧
      (Link.kind f = 2 → Link.vc f ≠ 1 → ∀ x, Fab.servedAt u src tag = some x → Fab.bOp x.blk = 2 →
        Fab.dataFits (Fab.bLength x.blk) f = true →
        let d := slice f.payload 0 (Fab.unitBytes (Fab.bLength x.blk) (Link.index f))
        let w := writeMem u ⟨none, Check.none32, Fab.peerCode x.port⟩ 8 (x.addr + 4096 * Link.index f) d
        let held := { x with units := Sparse.put x.units (Link.index f) d }
        (x.deny = 0 → txnLeft u.sched 8 = true → exec (.data t p fr) s = .next (Fab.putServed (JobOps.settle w.1 w.2)
          { x with units := Sparse.put x.units (Link.index f) [] })) ∧
        (x.deny = 0 → txnLeft u.sched 8 = false → exec (.data t p fr) s = .next (Fab.putServed (u.setSched (markStall u.sched 8)) held)) ∧
        (x.deny ≠ 0 → exec (.data t p fr) s = .next (Fab.putServed u held)))) ∧
    (let moves := fun (o : Host.Outcome State Fault Refusal) (k : Nat) => Link.kind f = k →
      (∀ q, goes = .port q → Link.hops f < 7 → o = .next (Link.send u q (Link.body k (Link.vc f) (Link.hops f + 1) (Link.dst f)
        src tag (Link.index f) f.payload))) ∧
      (∀ q, goes = .port q → 7 ≤ Link.hops f → o = .next (if k = 1 then Fab.respond u src tag 6 0 [] else u)) ∧
      (goes = .none → o = .next (if k = 1 then Fab.respond u src tag 5 0 [] else u))
     moves (exec (.req t p fr) s) 1 ∧ moves (exec (.data t p fr) s) 2 ∧ moves (exec (.resp t p fr) s) 3) ∧
    (∀ g x, s.fab.txns.find? (·.tag == g) = some x → x.issued + 10000000 ≤ t → exec (.transactionTimeout t g) s =
      .next (Fab.finish ((tick s t).setFab { s.fab with cooling := s.fab.cooling ++ [(g, t + 20000000)] }) x 0x0505 0 0 [])) ∧
    (∀ a g x, Fab.servedAt s a g = some x → Fab.writes (Fab.bOp x.blk) = true → FabServe.complete x = false →
      x.time + 10000000 ≤ t → Fab.bOp x.blk ≠ 7 → exec (.targetWriteTimeout t a g) s = .next (Fab.dropServed (tick s t) x)) ∧
    (∀ q, q < 16 → let o := Regs.opqAt s q
      o.next ≠ o.tail → FabServe.outstanding s q < 64 → s.bu.stopped = false → txnLeft s.sched 8 = true → energyLeft s.sched 8 = true →
      ∀ b v, readLog s q 8 (Fab.recAddr o o.next) 64 = (.ok b, v) → FabServe.recordOk b = true → Fab.isAtomic (fld b 0 1) = true →
        (bit (fld b 1 1) 0 = true → o.head = o.next) →
        exec (.opqRecordIssue q) s = .next ((Fab.issue (Fab.putOpq v q { o with next := (o.next + 1) % 2 ^ 32 }) (.opq q o.next)
          { op := fld b 0 1, dst := fld b 2 2, region := fld b 4 1, off := fld b 8 8, len := fld b 0x18 4,
            o1 := fld b 0x20 8, o2 := fld b 0x28 8 }).getD v))

/-- With budget left in the fabric class, each execution of a waiting request completes; an atomic that is not the
earliest waiting one changes nothing. A request its region denies is answered with that reason and makes no access. In
memory without error patterns, a READ of one unit sends the bytes of memory and then the RESP, and changes memory
nowhere; a complete WRITE stores its held units and is answered; FETCH_ADD adds OPERAND1 modulo 2^64, CMP_SWAP stores
OPERAND2 where the old value equals OPERAND1, SWAP stores OPERAND1: the RESP carries the old 8-byte value, every other
byte of memory stays, and besides memory, the budgets and the answer nothing changes. PAGE_READ by the leaseholder of
a keyed page (the keyed node that still owns it under the same HASH) sends its units, returns the lease with the last
part, and answers; PAGE_WRITE and PREFIX with all data there answer with what the operation on the served cache gives.
LEASE_LAPSE under a role runs the lapse of its node on the served tree, and logs an uncorrectable line it meets with
source 0x2015. It rests on parts of R301, R332, R333, R337, R191.
(spec/14_twisil_fabric.md,spec/08_attention_and_paged_cache.md) -/
def Obligations.ServedRequestsActOnMemory : Prop :=
  ∀ (s : State) (src tag : Nat) (x : Served), Fab.servedAt s src tag = some x → txnLeft s.sched 8 = true → energyLeft s.sched 8 = true →
    let b := x.blk
    let o1 := Fab.bOperand1 b
    let o2 := Fab.bOperand2 b
    let role := FabServe.role s
    let cd := s.cache.desc
    let req := CacheOps.parseReq (Fab.bArg b)
    let pageOk := Fab.bOperand1 b / 2 ^ 32 = CacheOps.pageBytes cd
    let first := s.fab.served.find? (fun y => Fab.isAtomic (Fab.bOp y.blk)) = some x
    let serves := fun (o : Host.Outcome State Fault Refusal) (op : Nat) => Fab.bOp b = op →
      (op ∉ [1, 2] → ¬ first → o = .next s) ∧
      (op ∈ [1, 2] ∨ first → x.deny ≠ 0 → o = .next (Fab.close s x x.deny 0 [])) ∧
      (x.deny = 0 → op = 2 → FabServe.complete x = true → o = .next (Fab.close (FabServe.storeHeld s x) x 0 0 [])) ∧
      (x.deny = 0 → op ∈ [1, 2] ∨ first → memClean s → op ≠ 2 → (op = 1 → 0 < Fab.bLength b ∧ Fab.bLength b ≤ 4096) →
        let old := le (bytesOf s x.addr 8)
        let new := if op = 3 then some ((old + o1) % 2 ^ 64) else if op = 4 then (if old = o1 then some o2 else none)
          else if op = 5 then some o1 else none
        ∃ v, memClean v ∧ v = { s with
            mem := v.mem
            sched := { s.sched with budgets := v.sched.budgets } } ∧
          (∀ a, byteOf v a = match new with
            | some n => if x.addr ≤ a ∧ a < x.addr + 8 then (toLe 8 n).getD (a - x.addr) 0 else byteOf s a
            | none => byteOf s a) ∧
          o = .next (if op = 1 then Fab.close (Fab.sendUnit v x 0 (bytesOf s x.addr (Fab.bLength b))) x 0 0 []
            else Fab.close v x 0 old []))
    serves (exec (.read src tag) s) 1 ∧ serves (exec (.write src tag) s) 2 ∧ serves (exec (.fetchAdd src tag) s) 3 ∧
    serves (exec (.cmpSwap src tag) s) 4 ∧ serves (exec (.swap src tag) s) 5 ∧
    (Fab.bOp b = 6 → role = 2 → pageOk → CacheOps.tree cd ≠ 0 → ∀ u v tr node,
      JobOps.run s 8 (FabServe.pageLook (FabServe.via s x) cd req.nodeIn b) = (.ok (some (tr, node)), u) →
      FabServe.pageUnits u x (CacheOps.poolBase cd + o1 % 2 ^ 32 * CacheOps.pageBytes cd + Fab.bOffset b)
        (List.range (Fab.unitsOf (Fab.bLength b))) = (v, true) →
      exec (.pageRead src tag) s = .next (Fab.close (if Fab.bOffset b + Fab.bLength b = o1 / 2 ^ 32
        then (JobOps.run v 8 (FabServe.dropLease (FabServe.via s x) tr req.nodeIn node)).2 else v) x 0 0 [])) ∧
    (Fab.bOp b = 7 → role = (if req.op = 7 then 3 else 2) → pageOk → FabServe.complete x = true → ∀ r w a u,
      JobOps.run s 8 (if req.op = 7 then FabServe.recvSend (FabServe.via s x) cd (ptpTime s) b (FabServe.dataOf x)
        else FabServe.recvInsert (FabServe.via s x) cd (ptpTime s) b (FabServe.dataOf x)) = (.ok (r, w, a), u) →
      exec (.pageWrite src tag) s = .next (Fab.close u x r w a)) ∧
    (Fab.bOp b = 8 → role = 2 → FabServe.complete x = true → req.op ∈ [1, 2, 4] → ∀ r w a u,
      JobOps.run s 8 (if req.op = 1 then FabServe.remoteLookup (FabServe.via s x) cd (ptpTime s) req.nodeIn (FabServe.dataOf x)
        else if req.op = 2 then FabServe.remoteInsert (FabServe.via s x) cd (ptpTime s) req.nodeIn (FabServe.dataOf x)
        else FabServe.remoteRelease (FabServe.via s x) cd (o1 % 2 ^ 32)) = (.ok (r, w, a), u) →
      exec (.prefixRequest src tag) s = .next (Fab.close u x r w a)) ∧
    (∀ t n, s.cache.role ≠ 0 →
      let e := JobOps.run (tick s t) 10 (FabServe.lapse (Mbox.mpVia (tick s t)) cd (ptpTime (tick s t)) n)
      exec (.leaseLapse t n) s = .next (match e.1 with
        | .error (.bad l) => logEvent e.2 { status := 0x0302, source := 0x2015, arg0 := l, arg1 := 0x10015 }
        | _ => e.2))

/-- With MCTP of the binding reaching the block, SET_NUMERIC_EFFECTER of effecter 0x0100 completes. Where POLICY_SET of
index 0x0300 with the same value succeeds, the policy of P_op becomes the value and the answer is success; where
POLICY_SET refuses it, the answer is ERROR_INVALID_DATA and nothing else changes. A value within the policy's range of
600 W to PWR_LIMIT that is not below twice the blitz reservations is accepted once the block is operating. (R474) -/
def Obligations.NumericEffecterSetsOperatingPower : Prop :=
  ∀ (s : State) (b : Nat) (v : Word), Man.mctp s b = true →
    let a := Mbox.policySet s 0 0x0300 v.toNat
    let answer := fun (t : State) (code : Nat) => { t with mgmt := { t.mgmt with reply := some ⟨b, code, []⟩ } }
    (a.status = 0 → exec (.setNumericEffecter b 0x0100 v) s = .next (answer { s with pwr := { s.pwr with polP := v.toNat } } 0)) ∧
    (a.status ≠ 0 → exec (.setNumericEffecter b 0x0100 v) s = .next (answer s 2)) ∧
    (600 ≤ v.toNat → v.toNat ≤ Config.pwrLimit s.fuses.variant → Mbox.ready s = true → Mbox.belowReserved s v.toNat = false → a.status = 0) ∧
    (v.toNat < 600 ∨ Config.pwrLimit s.fuses.variant < v.toNat → a.status = 0x0101)

/-- With the rails good and the binding in service, SET_ENDPOINT_ID of 1 to 254 stores the binding's own ID,
GET_ENDPOINT_ID answers it (0 until set), GET_MCTP_VERSION_SUPPORT accepts the supported types,
GET_MESSAGE_TYPE_SUPPORT names types 0, 1 and 5, and POLL_FOR_PLATFORM_EVENT_MESSAGE answers the oldest queued message
with the overflow count, which restarts, and its acknowledgement takes the message it was given out of the queue.
PLDM_SENSOR_UPDATE notes the present reading and threshold state of each of the 14 sensors and of no other; a sensor
whose state is as before queues nothing, and the queue holds at most 32 messages. Besides the management state (and
the model's clock at the update) nothing changes. The reading of a threshold as reached at equality is the model's
(PRESUMED), as are the encodings of the answers. It rests on parts of R471, R473, R475, R487.
(spec/21_management_identity_debug.md) -/
def Obligations.MctpControlAndSensors : Prop :=
  ∀ (s : State), s.pwr.phase = .good →
    let answer := fun (m : Mgmt) (b code : Nat) (d : Bytes) => { s with mgmt := { m with reply := some ⟨b, code, d⟩ } }
    (∀ b, (b = 0 → s.ident.pinMode = 0) →
      (∀ e : Byte, 0 < e.toNat → e.toNat < 255 → exec (.setEndpointId b e) s =
        .next (answer { s.mgmt with eid := Sparse.put s.mgmt.eid b e.toNat } b 0 [e])) ∧
      exec (.getEndpointId b) s = .next (answer s.mgmt b 0 (toLe 1 (Sparse.getD s.mgmt.eid b 0))) ∧
      (∀ ty : Byte, exec (.getMctpVersionSupport b ty) s = .next (answer s.mgmt b (if ty.toNat ∈ [0, 1, 5, 255] then 0 else 0x80) [])) ∧
      exec (.getMessageTypeSupport b) s = .next (answer s.mgmt b 0 [0, 1, 5]) ∧
      (∀ e r, s.mgmt.queue = e :: r → exec (.pollForPlatformEventMessage b false) s =
          .next (answer { s.mgmt with
            overflow := 0
            given := true } b 0 (toLe 4 s.mgmt.overflow ++ Man.pldmBytes e)) ∧
        exec (.pollForPlatformEventMessage b true) s = .next (answer { s.mgmt with
            queue := if s.mgmt.given then r else e :: r
            given := false } b 0 []))) ∧
    (∀ t, s.mgmt.queue.length ≤ 32 → ∃ m : Mgmt, exec (.pldmSensorUpdate t) s = .next { s with
        now := max s.now t
        mgmt := { s.mgmt with
          sensors := m.sensors
          states := m.states
          queue := m.queue
          overflow := m.overflow
          given := m.given } } ∧
      m.queue.length ≤ 32 ∧
      (∀ k, Sparse.get? m.sensors k = if 1 ≤ k ∧ k ≤ 14 then some (Man.reading s k) else Sparse.get? s.mgmt.sensors k) ∧
      (∀ k, Sparse.get? m.states k = if 1 ≤ k ∧ k ≤ 14 then some (Man.sensorState s k) else Sparse.get? s.mgmt.states k) ∧
      ((∀ k, 1 ≤ k → k ≤ 14 → Sparse.getD s.mgmt.states k 0 = Man.sensorState s k) →
        m.queue = s.mgmt.queue ∧ m.overflow = s.mgmt.overflow ∧ m.given = s.mgmt.given))

/-- With MCTP reaching the block, REQUEST_UPDATE of four components starts an update when none runs, else
ALREADY_IN_UPDATE_MODE. For the agent's own update: PASS_COMPONENT_TABLE of components 1 to 4 with at most 12,582,912
bytes in all notes their sizes; FIRMWARE_COMPONENT_TRANSFER of at most 512 bytes within its component writes them into
the slot not in force, erased at the first, where a store may begin, and else the store waits; VERIFY_COMPLETE
succeeds exactly where the written slot authenticates and its versions are tested; APPLY_COMPLETE follows a success;
ACTIVATE_FIRMWARE then gives that slot the sequence number one above the slot in force and ends the update;
CANCEL_UPDATE ends it. Nothing else changes. The completion codes of refusals beyond the named ones are the model's.
It rests on parts of R438, R469, R476, R477. (spec/21_management_identity_debug.md) -/
def Obligations.FirmwareUpdateRunsInSteps : Prop :=
  ∀ (s : State) (t b : Nat), Man.mctp s b = true →
    let answer := fun (s : State) (code : Nat) => { s with mgmt := { s.mgmt with reply := some ⟨b, code, []⟩ } }
    let with_ := fun (s : State) (u : Option Update) => { s with mgmt := { s.mgmt with update := u } }
    (∀ size, 0 < size → exec (.requestUpdate b 4 size) s = .next (if s.mgmt.update.isSome then answer s 0x81
      else answer (with_ s (some ⟨b, false, false, [], false, false⟩)) 0)) ∧
    (∀ u, s.mgmt.update = some u → u.binding = b →
      (∀ comps : List (Nat × Nat), (∀ e ∈ comps, 1 ≤ e.1 ∧ e.1 ≤ 4) →
        let sizes := comps.foldl (fun m e => Sparse.put m e.1 e.2) u.sizes
        (sizes.map (·.2)).sum ≤ 12582912 →
        exec (.passComponentTable b comps) s = .next (answer (with_ s (some { u with
          sizes := sizes
          passed := decide (sizes.length = 4) })) 0)) ∧
      (∀ comp off (part : Bytes), u.passed = true → List.length part ≤ 512 → off + part.length ≤ Sparse.getD u.sizes comp 0 →
        (Starts.storeOk s.pwr t = false → exec (.firmwareComponentTransfer t b comp off part) s =
          .next { tick s t with pwr := { s.pwr with deferred := true } }) ∧
        (Starts.storeOk s.pwr t = true →
          let slot := if u.erased then Man.spare s else ⟨0, []⟩
          exec (.firmwareComponentTransfer t b comp off part) s = .next (answer (with_ (Man.putSpare (tick s t)
            { slot with images := Sparse.put slot.images comp (splice (Sparse.getD slot.images comp []) off part) })
            (some { u with
              erased := true
              verified := false
              applied := false })) 0))) ∧
      (∀ good, good = (u.erased && Bring.slotOk s.fuses (Man.spare s) && Bring.tested { s.bu with images := Bring.byType (Man.spare s) }) →
        exec (.verifyComplete b) s = .next (answer (with_ s (some { u with verified := good })) (if good then 0 else 1))) ∧
      (u.verified = true → exec (.applyComplete b) s = .next (answer (with_ s (some { u with applied := true })) 0)) ∧
      (u.applied = true → Starts.storeOk s.pwr t = true → exec (.activateFirmware t b) s = .next (answer (with_
        (Man.putSpare (tick s t) { Man.spare s with seq := (Man.inForce s).seq + 1 }) none) 0)) ∧
      exec (.cancelUpdate b) s = .next (answer (with_ s none) 0))

/-- On a transport that reaches the block: GET_VERSION starts the connection afresh; a request ahead of its predecessors
(version, capabilities, algorithms) is answered as unexpected and changes nothing else; otherwise GET_CAPABILITIES and
NEGOTIATE_ALGORITHMS with P-384 and SHA-384 advance the connection, GET_DIGESTS answers the chain's SHA-384,
GET_CERTIFICATE of slot 0 the portion asked for, CHALLENGE of slot 0 a free nonce and the device key's signature over
the transcript, and GET_MEASUREMENTS the count, one block or all nine, signed on request; each extends the transport's
transcript by its own bytes. Nothing but the management state changes, and one free value for each nonce is drawn. The
bytes of the transcript and of the answers are the model's own (log 9). It rests on parts of R440, R441, R442.
(spec/19_security.md) -/
def Obligations.SpdmRequestsAreServedInOrder : Prop :=
  ∀ (s : State) (b : Nat), Man.spdmUp s b = true →
    let st := Man.spdmState s b
    let answer := fun (s : State) (code : Nat) (d : Bytes) => { s with mgmt := { s.mgmt with reply := some ⟨b, code, d⟩ } }
    let nonce := toLe 32 (Config.freeValue s.free).toNat
    let drawn := { s with free := s.free + 1 }
    let sees := fun (s : State) (n : Nat) (x : Bytes) => { s with mgmt := { s.mgmt with
      spdm := Sparse.put s.mgmt.spdm b n
      script := Sparse.put s.mgmt.script b (if n = 1 then x else Sparse.getD s.mgmt.script b [] ++ x) } }
    let chain := Config.certChain
    let blocks := fun (i : Nat) => if i = 0 then toLe 1 9
      else if i = 0xFF then ((List.range 9).map fun k => Man.block s (k + 1)).flatten else Man.block s i
    let early := fun (o : Host.Outcome State Fault Refusal) (n : Nat) => st < n → o = .next (answer s 4 [])
    exec (.getVersion b) s = .next (answer (sees s 1 [0x84]) 0 [0x12]) ∧
    (early (exec (.getCapabilities b) s) 1 ∧ (∀ a h, early (exec (.negotiateAlgorithms b a h) s) 2) ∧ early (exec (.getDigests b) s) 3 ∧
      (∀ o l k, early (exec (.getCertificate b o l k) s) 3) ∧ (∀ o k, early (exec (.challenge b o k) s) 3) ∧
      ∀ i g k, early (exec (.getMeasurements b i g k) s) 3) ∧
    (1 ≤ st → exec (.getCapabilities b) s = .next (answer (sees s (max 2 st) [0xE1]) 0 (toLe 4 0x16))) ∧
    (2 ≤ st → ∀ a h : Word, bit a.toNat 7 = true → bit h.toNat 1 = true → exec (.negotiateAlgorithms b a h) s =
      .next (answer (sees s 3 (0xE3 :: toLe 4 a.toNat ++ toLe 4 h.toNat)) 0 (toLe 4 0x80 ++ toLe 4 2))) ∧
    (3 ≤ st →
      exec (.getDigests b) s = .next (answer (sees s 3 [0x81]) 0 (toBe 48 (Config.sha384 chain).toNat)) ∧
      (∀ o n, exec (.getCertificate b 0 o n) s = .next (answer (sees s 3 (0x82 :: toLe 2 o ++ toLe 2 n)) 0 ((chain.drop o).take n))) ∧
      (∀ k : BitVec 256, let t := sees drawn 3 (0x83 :: toLe 32 k.toNat ++ nonce)
        exec (.challenge b 0 k) s = .next (answer t 0 (nonce ++ Man.sign t b))) ∧
      (∀ i (k : BitVec 256), i ≤ 9 ∨ i = 0xFF →
        exec (.getMeasurements b i false k) s = .next (answer (sees s 3 (0xE0 :: toLe 1 i ++ blocks i)) 0 (blocks i)) ∧
        let t := sees drawn 3 (0xE0 :: toLe 1 i ++ toLe 32 k.toNat ++ blocks i ++ nonce)
        exec (.getMeasurements b i true k) s = .next (answer t 0 (blocks i ++ nonce ++ Man.sign t b))))

/-- With the rails good and step n running, the command of that step completes with the step's effect: HUB_BOOT takes the
carrier record and the newest slot that authenticates, or stops with 0x0402; MEM_TRAIN ends self refresh of every
stack that does not fail and stores new training, stops with 0x0302 for a failing stack, is skipped where every stack
keeps its training; MEM_INIT clears memory, or is skipped at a warm start; CELL_WAVES begins and 16 CELL_WAVE each no
sooner than 40 us apart end it; DEFECT_MAP forms the map from factory and field mask; CELL_FIRMWARE stops an untested
combination with 0x0401 unless overridden, else writes the copies, and cells whose second fetch mismatches are
removed; KNOWN_ANSWER notes the passes, and logs and removes failing cells and engines; LINK_TRAIN reads the cables
and trains the enabled ports; READY ends bring-up and at a cold start counts the downtime of a module-lost fault
before it and raises the SVN to the lower of two sound slots. STEP_RETRY_TIMER restarts a step stopped by 0x0801 or
0x0802 under AUTO. It rests on parts of R401, R403, R404, R405, R406, R409, R410, R412, R416, R438, R439, R467.
(spec/17_bring_up.md,spec/19_security.md) -/
def Obligations.BringUpStepsDoTheirWork : Prop :=
  ∀ (s : State) (t : Nat), s.pwr.phase = .good →
    let done := fun (u : State) => if u.bu.auto = true ∧ u.bu.step < 9 then Starts.startStep u (u.bu.step + 1)
      else { u with bu := { u.bu with phase := 1 } }
    let skip := fun (u : State) => done { u with bu := { u.bu with skipped := setBit u.bu.skipped (u.bu.step - 1) true } }
    let runs := fun (n : Nat) => s.bu.step = n ∧ s.bu.phase = 0
    let ks := List.range 8
    (runs 1 → Recov.losesMemory s = false → s.pwr.trip = none → ∀ c,
      (Recov.bootSlot s = none → exec (.hubBoot c) s = .next (Starts.stepStop s 0x0402 0x6000 0 0)) ∧
      (∀ k sl second, Recov.bootSlot s = some (k, sl, second) → s.recov = none → exec (.hubBoot c) s = .next (Mbox.runHeld (done { s with
        ident := Bring.readCarrier s.ident c
        bu := { s.bu with
          images := Bring.byType sl
          slot := k
          fallback := second
          mpRunning := true } })))) ∧
    (runs 2 → ∀ failing : List Nat,
      let trains := ks.filter fun k => !Bring.keepsTraining s k
      let good := ks.filter fun k => !(trains.filter failing.contains).contains k
      let trained := trains.filter fun k => !(trains.filter failing.contains).contains k
      let news := trained.map fun k => (k, Sparse.getD s.mem.temp k 0)
      let w := if news = [] then s else Starts.wantStore s s.now (.training news)
      let u := { w with mem := { w.mem with selfRef := w.mem.selfRef.filter fun k => !good.contains k } }
      (∀ k r, trains.filter failing.contains = k :: r → exec (.memTrain failing) s = .next (Starts.stepStop u 0x0302 (0x4000 + k) 0 0)) ∧
      (trains.filter failing.contains = [] → exec (.memTrain failing) s = .next (if trains = [] then skip u else done u))) ∧
    (runs 3 → exec .memInit s = .next (if s.bu.warm then skip s else done { s with mem := { s.mem with
        bytes := []
        errs := []
        wc := []
        fixes := [] } })) ∧
    (runs 4 → (s.bu.wavesOn = false → exec .cellWaves s = .next { s with bu := { s.bu with
        waves := 0
        wavesOn := true
        lastWave := 0
        stopped := false } }) ∧
      (s.bu.wavesOn = true → ∀ settled, s.bu.waves = 0 ∨ (settled = true ∧ s.bu.lastWave + 40000 ≤ t) ∨ s.bu.lastWave + 540000 ≤ t →
        let b := { s.bu with
          waves := s.bu.waves + 1
          lastWave := t }
        exec (.cellWave t settled) s = .next (if s.bu.waves = 15 then done { tick s t with bu := { b with wavesOn := false } }
          else { tick s t with bu := b }))) ∧
    (runs 5 → s.bu.warm = true → exec .defectMap s = .next (done { s with bu := { s.bu with outMap := Bring.formMap s } })) ∧
    (runs 5 → s.bu.warm = false → exec .defectMap s =
      (let u := { s with bu := { s.bu with fieldMask := (match Starts.newerMask s.flash with | some c => c.bits | none => []) } }
       .next (done { u with bu := { u.bu with outMap := Bring.formMap u } }))) ∧
    (runs 6 → let v := Bring.versions s.bu
      (s.bu.override = false → Bring.tested s.bu = false → ∀ bad, exec (.cellFirmware bad) s = .next (Starts.stepStop { s with free := s.free + 1 }
        0x0401 (0x6000 + (Config.freeValue s.free).toNat % 4) (v.1.toNat * 2 ^ 32 + v.2.1.toNat) (v.2.2.1.toNat * 2 ^ 32 + v.2.2.2.toNat))) ∧
      (s.bu.override = false ∧ Bring.tested s.bu = true ∨ s.bu.override = true ∧ s.bu.overVers = some v → ∀ bad, exec (.cellFirmware bad) s =
        let serving := Bring.servingCells s.bu
        .next (done ((Bring.ascending bad).foldl Bring.fetchFails { s with
          bu := { s.bu with
            fwBase := Config.firmwareBase
            cellFw := serving.map fun p => (p, v.2.1) }
          sched := charge s.sched 10 (1024 * (Config.logicalCells + serving.length)) 0
          mem := Bring.writeCopies { s.bu with fwBase := Config.firmwareBase } Config.logicalCells s.mem })))) ∧
    (runs 7 → exec (.knownAnswer [] []) s = .next (done { s with bu := { s.bu with
        kat := ((Bring.inServiceCells s.bu).filter fun p => !Bring.recentPass s p).foldl (fun m p => Sparse.put m p (ptpTime s)) s.bu.kat } })) ∧
    (runs 7 → ∀ p e c, p ∈ Bring.inServiceCells s.bu → Bring.recentPass s p = false → exec (.knownAnswer [(p, e, c)] []) s = .next (done
      (Bring.removeNow (Bring.katReport { s with bu := { s.bu with
        kat := ((Bring.inServiceCells s.bu).filter fun q => !Bring.recentPass s q && q != p).foldl (fun m q => Sparse.put m q (ptpTime s)) s.bu.kat } }
        (0x1000 + p) p e.toNat c.toNat) p))) ∧
    (runs 8 → ∀ as : List (Option Cable), (∀ p < 24, (Link.cfgAt s p).enable = false) → exec (.linkTrain as) s =
      .next (Link.linkTrainDone { s with
        ident := { s.ident with cables := (List.range 6).map fun c =>
          (c, if s.ident.vcblOff.contains c || s.ident.pinMode != 0 then (false, false, 0, 0)
              else Bring.readCable s.bu ((as[c]?).getD none)) }
        bu := { s.bu with trained := (List.range 24).filter fun p => (Link.portAt s p).state == .up } })) ∧
    (runs 9 → let n := min (Bring.slotSvn s.flash.slot0) (Bring.slotSvn s.flash.slot1)
      let raises := !s.bu.warm && Bring.slotOk s.fuses s.flash.slot0 && Bring.slotOk s.fuses s.flash.slot1 && decide (s.fuses.svn < n)
      exec .ready s = (let u := if raises then Starts.wantStore s s.now (.fuseSvn n) else s
        let u := if u.bu.warm then u else Bring.coldDowntime u
        .next { u with bu := { u.bu with
          phase := 1
          auto := if u.bu.warm then false else u.bu.auto } })) ∧
    (s.bu.auto = true → s.bu.phase = 2 → s.bu.code = 0x0801 ∨ s.bu.code = 0x0802 →
      exec (.stepRetryTimer t) s = .next (Starts.startStep (tick s t) s.bu.step))

/-- MODULE_LOST_FAULT, MP_WATCHDOG_TIMEOUT and LOCKSTEP_MISMATCH complete: with WARM_EN and fewer than three faults within
3,600 s the fault is logged, noted and a warm start ordered, nothing else changes; otherwise a cold start leaves only
fuses, flash and the log position. An ordered WARM_START with no codec execution or PREFIX request left, in memory
without error patterns and corrections, completes: the rings, contexts, cache, policies, budgets, jobs and fabric
settings are kept in the recovery area and the hub's are at reset, every byte of memory and the scrub position stand,
all stacks are in self refresh, the mailboxes, fuses, counts, log and PTP time stand, and HUB_BOOT runs under AUTO.
RECOVERY_RESTORE after READY restores the area; with no job, record or command open it gives back exactly rings (a
DRAINING one STOPPED), contexts, cache, policies and limits. RECOVERY_CUT_BOUND cuts what still runs 50 ms after the
fault. RECENT_FAULT_AGE_OUT drops faults older than 3,600 s. It rests on parts of R315, R316, R398, R399, R400, R427,
R428, R429, R430. (spec/17_bring_up.md,spec/18_reliability_and_recovery.md) -/
def Obligations.ModuleLostFaultsAndRecovery : Prop :=
  ∀ (s : State) (t : Nat), Starts.operating s.pwr.p48v = true →
    let u := tick s t
    let rep := fun (a : Nat) => ({ status := 0x0302, source := Recov.source a, cls := 4, arg1 := a } : Report)
    let young := s.bu.recent.filter fun x => decide (u.now < x + 3600000000000)
    let lost := fun (o : Host.Outcome State Fault Refusal) (a : Nat) =>
      (s.bu.warmEn = true → young.length < 3 → ∃ g m n, o = .next { u with
        log := appendLog s.log (eventOf u (rep a)) (rep a).notifies ((rep a).notifies || (rep a).stop)
        mgmt := g
        tm := m
        sched := charge s.sched 10 1 0
        flash := { s.flash with lost := n }
        bu := { s.bu with
          recent := young ++ [u.now]
          lostArg := some a
          recovering := true
          downFrom := some (s.bu.downFrom.getD u.now) } }) ∧
      (s.bu.warmEn = false ∨ 3 ≤ young.length → ∃ v, o = .next v ∧ v.bu = { State.resetBringUp with
          step := 1
          downFrom := some (s.bu.downFrom.getD u.now) } ∧
        v.mem = State.resetMem ∧ v.sched = State.resetSched ∧ v.recov = none ∧ v.fuses = s.fuses ∧
        (∃ n, v.flash = { s.flash with lost := n }) ∧ v.log.next = s.log.next + 1)
    (∀ w, lost (exec (.moduleLostFault t w) s) w.toNat) ∧ (∀ k, lost (exec (.mpWatchdogTimeout t k) s) (0x60000 + k)) ∧
    (∀ k, lost (exec (.lockstepMismatch t k) s) (0x60000 + k)) ∧
    (s.bu.lostArg.isSome = true ∨ s.bu.restart = some true → Recov.hubsDone s.sched = true → memClean s → s.mem.fixes = [] → s.recov = none →
      ∃ v r, exec (.warmStart t) s = .next v ∧ v.recov = some r ∧
        r.rings = s.host.rings ∧ r.ctx = s.host.ctx ∧ r.cache = s.cache ∧ r.jobs = s.sched.jobs ∧ r.fab = s.fab ∧
        r.polP = s.pwr.polP ∧ r.polT = s.pwr.polT ∧ r.polF = s.pwr.polF ∧
        (∀ x, byteOf v x = byteOf s x) ∧ v.mem.errs = [] ∧ v.mem.wc = [] ∧ v.mem.selfRef = List.range 8 ∧
        v.mem.slot = s.mem.slot ∧ v.mem.codeword = s.mem.codeword ∧ v.mem.passes = s.mem.passes ∧
        v.sched.jobs = [] ∧ v.cache = State.reset.cache ∧ v.codec = { s.codec with
          enc := []
          dec := [] } ∧ v.fab = Recov.resetFabric s.fab ∧
        v.host = { s.host with
          rings := []
          ctx := [] } ∧
        v.bu.step = 1 ∧ v.bu.phase = 0 ∧ v.bu.auto = true ∧ v.bu.warm = true ∧ v.bu.outMap = s.bu.outMap ∧ v.bu.kat = s.bu.kat ∧
        v.bu.fieldMask = s.bu.fieldMask ∧ v.bu.override = s.bu.override ∧
        v.fuses = s.fuses ∧ v.flash = s.flash ∧ v.tm = s.tm ∧ v.log = s.log ∧ v.ptp = s.ptp ∧ v.ident = s.ident ∧ v.now = u.now) ∧
    (∀ r, s.recov = some r → Mbox.ready s = true →
      exec (.recoveryRestore t) s = .next (Recov.restore u r) ∧
      (r.jobs = [] → (∀ q < 16, Recov.openRecords s q = []) → (∀ e ∈ s.host.mbox, e.2.busy = false) → s.host.resetting = [] →
        s.bu.downFrom = none → ∃ v, exec (.recoveryRestore t) s = .next v ∧ v = { u with
          host := { s.host with
            rings := r.rings.map fun e => (e.1, { e.2 with
              state := if e.2.state = 4 then 2 else e.2.state
              bells := [] })
            ctx := r.ctx }
          cache := r.cache
          pwr := { s.pwr with
            polP := r.polP
            polT := r.polT
            polF := r.polF }
          sched := { s.sched with budgets := v.sched.budgets }
          recov := none
          bu := { s.bu with
            recovering := false
            downFrom := none } })) ∧
    (s.bu.lostArg.isSome = true → Recov.detected s.bu + 50000000 ≤ u.now → exec (.recoveryCutBound t) s = .next (Recov.cutAll u)) ∧
    exec (.recentFaultAgeOut t) s = .next { u with bu := { s.bu with recent := s.bu.recent.filter fun x => t < x + 3600000000000 } }

/-- CASTLING_MAP_CHANGE of a row with castlings due, once no job holds their positions, sets each failed column's OUT bit,
and the cells that moved take the firmware's version and a pass of now where none fails; CASTLING_RETURN gives back
the positions no other castling holds. OVERLONG_STEP_TIMEOUT of a flight takes it back and replays it, and where that
fault has come before, logs it with removal and declares the cell failed. Where a store may begin, FLASH_LOG_STORE
appends the waiting records and FIELD_MASK_STORE writes the mask over the older copy with the next sequence number, so
that the newer copy is the mask in force and the copy before it still stands; else each waits and DEFERRED is set.
CABLE_POLL reads a new assembly, forgets a removed one and restores its supply switch, and reads none where the supply
is off; VCBL_OVERCURRENT switches one off. Nothing else changes. It rests on parts of R410, R416, R418, R422, R423,
R434, R469, R478, R480, R481, R494. (spec/17_bring_up.md,spec/18_reliability_and_recovery.md) -/
def Obligations.CastlingStoresAndCables : Prop :=
  ∀ (s : State) (t : Nat),
    let u := tick s t
    (∀ i, Castle.due s.bu i ≠ [] → Castle.vacated s ((Castle.due s.bu i).flatMap (·.lids)) = true →
      let b := (Castle.due s.bu i).foldl (fun b e => Castle.setOut b i e.col) s.bu
      let cells := (((Castle.due s.bu i).flatMap (·.lids)).eraseDups).filterMap (Starts.physOf b.outMap)
      ∃ v, exec (.castlingMapChange i []) s = .next { s with
          bu := v
          sched := charge s.sched 10 (1024 * cells.length) 0 } ∧
        v = { s.bu with
          outMap := v.outMap
          castling := s.bu.castling.map fun e => if e.row = i then { e with mapped := true } else e
          cellFw := v.cellFw
          kat := v.kat } ∧
        (∀ e ∈ Castle.due s.bu i, e.col < 17 → bit (Sparse.getD v.outMap i 0) e.col = true) ∧
        (∀ k, k ≠ i → Sparse.getD v.outMap k 0 = Sparse.getD s.bu.outMap k 0) ∧
        (∀ p, p ∈ cells → Sparse.get? v.cellFw p = some (Bring.versions s.bu).2.1 ∧ Sparse.get? v.kat p = some (ptpTime s)) ∧
        (∀ p, p ∉ cells → Sparse.get? v.cellFw p = Sparse.get? s.bu.cellFw p ∧ Sparse.get? v.kat p = Sparse.get? s.bu.kat p)) ∧
    (∀ i, let rest := s.bu.castling.filter fun e => !(e.row == i && e.mapped)
      let back := (s.bu.castling.filter fun e => e.row == i && e.mapped).flatMap (·.lids)
      exec (.castlingReturn i) s = .next { s with bu := { s.bu with
        castling := rest
        withdrawn := s.bu.withdrawn.filter fun l => !back.contains l || rest.any (·.lids.contains l) } }) ∧
    (∀ j g d x c f, JobOps.find s.sched j = some x → Sparse.get? x.cells g = some c → c.flights.find? (·.d == d) = some f →
      let key : FaultKey := ⟨0x0302, some g, d, f.n, x.epoch⟩
      let lid := x.lid g
      (key ∉ x.faults → exec (.overlongStepTimeout j g d) s = .next (JobOps.fault (JobOps.abandon s j g d) j key lid lid 0 lid)) ∧
      (key ∈ x.faults → exec (.overlongStepTimeout j g d) s =
        .next (Castle.declare (JobOps.log (JobOps.abandon s j g d) x 0x0302 lid 2 0 lid (removes := true)) lid))) ∧
    (Starts.storeOk s.pwr t = true →
      (s.log.toFlash ≠ [] → exec (.flashLogStore t) s = .next { u with
        flash := { s.flash with log := (s.flash.log ++ s.log.toFlash).drop ((s.flash.log ++ s.log.toFlash).length - Config.flashLogRecords) }
        log := { s.log with toFlash := [] } }) ∧
      (s.bu.maskDirty = true → ∃ v : Flash, exec (.fieldMaskStore t) s = .next { u with
          flash := v
          bu := { s.bu with maskDirty := false } } ∧
        v = { s.flash with
          mask0 := v.mask0
          mask1 := v.mask1
          ident := v.ident } ∧
        (Starts.newerMask s.flash = none → Starts.newerMask v = some ⟨1, true, s.bu.fieldMask⟩) ∧
        (∀ c, Starts.newerMask s.flash = some c → c.seq + 1 < 2 ^ 32 → Starts.newerMask v = some ⟨c.seq + 1, true, s.bu.fieldMask⟩ ∧
          (c = v.mask0 ∨ c = v.mask1)))) ∧
    (let waits := fun (o : Host.Outcome State Fault Refusal) (k : StoreKind) => Starts.storeOk s.pwr t = false →
        o = .next { u with pwr := { s.pwr with
          deferred := true
          waiting := if s.pwr.waiting.contains k then s.pwr.waiting else s.pwr.waiting ++ [k] } }
     (s.log.toFlash ≠ [] → waits (exec (.flashLogStore t) s) .flashLog) ∧ (s.bu.maskDirty = true → waits (exec (.fieldMaskStore t) s) .fieldMask)) ∧
    (∀ c, let cable := fun v => { u with ident := { s.ident with cables := Sparse.put s.ident.cables c v } }
      exec (.cablePoll t c none) s = .next { cable (false, false, 0, 0) with ident := { s.ident with
        cables := Sparse.put s.ident.cables c (false, false, 0, 0)
        vcblOff := s.ident.vcblOff.filter (· != c) } } ∧
      (∀ a, s.ident.vcblOff.contains c = true ∨ s.ident.pinMode ≠ 0 → exec (.cablePoll t c (some a)) s = .next (cable (false, false, 0, 0))) ∧
      (∀ a, s.ident.vcblOff.contains c = false → s.ident.pinMode = 0 → exec (.cablePoll t c (some a)) s =
        .next (if (Sparse.getD s.ident.cables c (false, false, 0, 0)).1 then u else cable (Bring.readCable s.bu (some a)))) ∧
      exec (.vcblOvercurrent c) s = .next { s with ident := { s.ident with
        vcblOff := if s.ident.vcblOff.contains c then s.ident.vcblOff else c :: s.ident.vcblOff } })

/-- For a cell of a job in service: CLAIM_REQUEST carries the tag of a resent request that is on its way, else the next
tag of a cell that wants a value and has none asked for. The atomic unit answers a tag that OWNER does not hold with
VALUE, notes tag and VALUE in OWNER and increments VALUE, or with a value that the job has to run again; a tag that
stands in OWNER is answered with OWNER's value, logs 0x0303 and changes nothing in the work counter. CLAIM_ANSWER
accepts the first answer for the cell's tag, which gives the cell the value or, at BOUND or more, ends the level for
it, and discards any other. MESH_TIMEOUT resends the request up to seven times with its tag. Every other job and
everything else stands, but for the log's budget. That values to run again come first is the model's reading of R379
(DEDUCED). It rests on parts of R128, R130, R131, R379, R422, R424.
(spec/05_loop_tables_and_fusion.md,spec/18_reliability_and_recovery.md) -/
def Obligations.ClaimsFollowTheProtocol : Prop :=
  ∀ (s : State) (j g : Nat) (x : Job) (c : CellRun), JobOps.find s.sched j = some x → Cells.cellOf x g = some c →
    let owner := JobOps.wcOwner s.sched x g
    let value := JobOps.wcValue s.sched x
    let only := fun (t : State) (y : Job) => JobOps.find t.sched j = some y ∧
      (∀ z : Job, z.id ≠ j → (z ∈ t.sched.jobs ↔ z ∈ s.sched.jobs))
    let quiet := fun (t : State) (c : Sched) => t = { s with sched := { s.sched with
      jobs := t.sched.jobs
      plot := c.plot
      plotErrs := c.plotErrs } }
    let rep : Report := { status := 0x0303, source := x.lid g, fn := x.fn, arg0 := owner.2, arg1 := x.lid g, relanes := x.relanes }
    let served := fun (o : Host.Outcome State Fault Refusal) (tag : Nat) (c : CellRun) =>
      let got := fun (v : Nat) => { c with answers := c.answers ++ [(tag, v)] }
      (owner.1 ≠ tag → x.reclaim = [] → ∃ t, o = .next t ∧
        quiet t (JobOps.wcSetValue (JobOps.wcSetOwner s.sched x g tag value) x (value + 1)) ∧ only t (Cells.putCell x g (got value))) ∧
      (owner.1 ≠ tag → ∀ v r, x.reclaim = v :: r → ∃ t, o = .next t ∧ quiet t (JobOps.wcSetOwner s.sched x g tag v) ∧
        only t (Cells.putCell { x with reclaim := r } g (got v))) ∧
      (owner.1 = tag → ∃ b t, o = .next t ∧ logs s b rep ∧ t = { b with sched := { b.sched with jobs := t.sched.jobs } } ∧
        only t (Cells.putCell x g (got owner.2)))
    (c.sent = [] → JobOps.live x = true → s.bu.stopped = false → Cells.wantsValue x c = true →
      served (exec (.claimRequest j g) s) c.tag { c with
        tag := (c.tag + 1) % 65536
        ask := some ⟨c.tag, 0⟩ }) ∧
    (∀ tag r, c.sent = tag :: r → s.bu.stopped = false → served (exec (.claimRequest j g) s) tag { c with sent := r }) ∧
    (∀ tag v r, c.answers = (tag, v) :: r →
      (∀ a, c.ask = some a → a.tag = tag → exec (.claimAnswer j g) s = .next (JobOps.set s (Cells.putCell x g
        (if Cells.claimBound x ≤ v then { c with
            answers := r
            ask := none
            ended := true }
          else { c with
            answers := r
            ask := none
            vals := c.vals ++ [v] })))) ∧
      ((∀ a, c.ask = some a → a.tag ≠ tag) → exec (.claimAnswer j g) s = .next (JobOps.set s (Cells.putCell x g { c with answers := r })))) ∧
    (∀ a, c.ask = some a → a.tries < 7 → exec (.meshTimeout j g) s = .next (JobOps.set s (Cells.putCell x g { c with
      ask := some { a with tries := a.tries + 1 }
      sent := c.sent ++ [a.tag] })))

/-- For a job in service: TILE_STEP_ISSUE of a ready, funded step whose operands lie in their regions and are correctable
issues it at its cell, an espalier MAT's at all cells together; one that a resuming job runs again is run first. A
step of a compute station is exactly put in flight at its cell and counted issued, and in an espalier program the rows
that wait for room issue; the cell's completion counts, its buffer where no error pattern stands in it, its other
flights, the other cells and the other jobs stand, and nothing else changes. TILE_STEP_COMPLETE of a step that may
complete runs its completion. SUM_LINK_TRANSFER sums the row in front of the chain queue at its position with what has
arrived for it; STATIONARY_RELOAD fills a free shadow register with the block of the step in flight, SHADOW_SWAP makes
it the active one. SOFTMAX_COMPLETION_STEP of a complete row rescales its next tile. ATOMIC_UNIT_REQUEST writes the
next SCAT row of a step and notes it at the flight. The first overflow report of a job is logged and ends it, a later
one is only taken. LOOP_ITERATION_ADVANCE of a finished iteration begins the next at every cell. It rests on parts of
R37, R40, R53, R57, R66, R67, R123, R151, R179, R232, R233.
(spec/02_streams_and_stations.md,spec/03_espalier_array.md) -/
def Obligations.TileStepsIssueAndComplete : Prop :=
  ∀ (s : State) (j g d : Nat) (x : Job), JobOps.find s.sched j = some x →
    (Cells.funded s x d = true →
      (Cells.redoes s x g d = true → exec (.tileStepIssue j g d) s = .next (Cells.redoNext s x g)) ∧
      (Cells.redoes s x g d = false → Cells.mayIssue s x g d = true → Cells.checkCells x d (Cells.together x g d) = .ok →
        exec (.tileStepIssue j g d) s = .next ((Cells.together x g d).foldl (fun s k => Cells.issueAt s j d k) s))) ∧
    (∀ c, Cells.cellOf x g = some c → Cells.redoes s x g d = false → Cells.mayIssue s x g d = true → Cells.funded s x d = true →
      Desc.station (x.descAt d) ≠ Desc.load → Desc.station (x.descAt d) ≠ Desc.store →
      ¬ (x.espalier = true ∧ Desc.station (x.descAt d) = Desc.mat) → Cells.checkCells x d [g] = .ok →
      let q := Cells.flight0 d (Cells.nextStep c d) 0 0
      ∃ t y c' c'', exec (.tileStepIssue j g d) s = .next t ∧ JobOps.find t.sched j = some y ∧
        y = { x with cells := y.cells } ∧ Cells.cellOf y g = some c'' ∧ (∀ k, k ≠ g → Cells.cellOf y k = Cells.cellOf x k) ∧
        c' = { c with
          flights := c.flights.filter (fun f => !(f.d == d && f.n == Cells.nextStep c d)) ++ [q]
          issued := Sparse.put c.issued d (Cells.nextStep c d + 1)
          slots := c'.slots
          errs := c'.errs
          buf := c'.buf } ∧ (c.errs = [] → c'.errs = [] ∧ c'.buf = c.buf) ∧
        c'' = Cells.feed (Cells.putCell x g { c with flights := c.flights ++ [q] }) g 64 c' ∧ (x.espalier = false → c'' = c') ∧
        (∀ z : Job, z.id ≠ j → (z ∈ t.sched.jobs ↔ z ∈ s.sched.jobs)) ∧ t = { s with sched := { s.sched with jobs := t.sched.jobs } }) ∧
    (∀ c f, Cells.cellOf x g = some c → s.bu.stopped = false →
      (Cells.flightOf c d = some f → Cells.mayComplete s x g d c f = true →
        exec (.tileStepComplete j g d) s = .next (Cells.completeStep s x c g d f)) ∧
      (∀ e r m a, c.queue = e :: r → x.espalier = true → x.partOf e.d e.n = m / 32 → e.row = m % 32 → Cells.arriving x c g e = some a →
        exec (.sumLinkTransfer j g m) s = .next (Cells.sumRow s x g e a)) ∧
      (Cells.matFlight x c = some f →
        (Cells.mayReload x c f = true → exec (.stationaryReload j g) s = .next (Cells.reload s x c g f)) ∧
        (∀ b, c.shadow = some b → b.d = f.d → b.exec = x.execOf f.d f.n → exec (.shadowSwap j g) s =
          .next (JobOps.set s (Cells.putCell x g (Cells.feed x g 64 { c with
            reg := some b
            shadow := none }))))) ∧
      (∀ m k, Cells.softReady x c d = some m → Cells.softKey x c d = some k → JobOps.live x = true → c.halt = false →
        Cells.softFirst s x g d m = true → energyLeft s.sched (JobOps.budget s x) = true →
        exec (.softmaxCompletionStep j g d) s = .next (Cells.softStep s x c g d k m)) ∧
      ((c.flights.find? fun f => Desc.station (x.descAt f.d) == Desc.scat) = some f → f.row < Cells.scatRows x c g f.d f.n → txnLeft s.sched (JobOps.budget s x) = true →
        let a := (Cells.operand x c g f.d f.n 0 0).getD (Cells.nullOf (x.descAt f.d))
        let w := fld ((Cells.operand x c g f.d f.n 1 0).getD (Cells.nullOf (x.descAt f.d))).data (8 * f.row) 8
        let row := Cells.runNum ((List.range a.vc).mapM fun k => a.decode f.row k)
        ∀ m ls u, JobOps.run s (JobOps.budget s x) (Scat.row (JobOps.viaAt s x (JobOps.cellSrc x g) f.d) x.cacheD (ptpTime s) (x.descAt f.d) w row.1) =
            (.ok (.ok, m, ls), u) → JobOps.find u.sched j = some x →
          exec (.atomicUnitRequest j g) s = .next (JobOps.set u (Cells.putCell x g (Cells.putFlight c { f with
            row := f.row + 1
            marks := Cells.addMarks f.marks (Cells.addMarks row.2 m)
            lines := f.lines ++ ls.filter fun l => !f.lines.contains l })))) ∧
      (∀ st e off, c.report = some (st, e, off) →
        let taken := Cells.putCell x g { c with report := none }
        (x.phase = .ending → exec (.firstOverflowFault j g) s = .next (JobOps.set s taken)) ∧
        (x.phase ≠ .ending → ∃ b t, exec (.firstOverflowFault j g) s = .next t ∧
          logs (JobOps.set s taken) b { status := st, source := x.lid g, fn := x.fn, arg0 := e, arg1 := off, relanes := x.relanes } ∧
          t = { b with sched := { b.sched with jobs := t.sched.jobs } } ∧
          JobOps.find t.sched j = some (JobOps.endJob taken st e (x.lid g) 0)))) ∧
    (JobOps.live x = true → s.bu.stopped = false → x.epoch + 1 < JobOps.niter x → JobOps.cellsDone x = true → JobOps.hubDone x = true → x.hexec = [] →
      let y := { x with
        epoch := x.epoch + 1
        reclaim := []
        finished := [] }
      let z := { y with cells := y.cells.map fun e => (e.1, Cells.nextIteration y e.2) }
      let w := JobOps.put (if (Tab.claimLevel x.table).isNone then s.sched else JobOps.wcSetValue s.sched z 0) z
      exec (.loopIterationAdvance j) s = .next (JobOps.refreshReady { s with sched := w }))

/-- HUB_EXECUTION_GRANT of the execution that is next at its station: with its class exhausted only the stall is marked;
funded, INGEST starts with no entry, SAMPLE and FORMAT do their work at once, and ENC, DEC and PREFIX start with what
their records give (ENC and DEC with a session bound, PREFIX with a request that a malformed form or a role decides at
once), executions beyond COUNT with no work; the granted execution joins the job's and its count rises. An execution
that is not next is not granted. HUB_EXECUTION_COMPLETE of an execution without work left, of a picture whose rows and
slices are all out, of a decoded access unit whose records are out, of an ingest entry whose records are visible or of
a decided request writes its results, counts it, drops it and signals. When SAMPLE and FORMAT access memory is the
model's choice (DESIGN CHOICE, log 39). It rests on parts of R44, R46, R185, R190, R243, R262, R272, R275, R501.
(spec/02_streams_and_stations.md,spec/11_video_encode.md,spec/12_decode_and_ingest.md,spec/08_attention_and_paged_cache.md) -/
def Obligations.HubExecutionsAreGrantedAndComplete : Prop :=
  ∀ (s : State) (j d : Nat) (x : Job), s.bu.stopped = false →
    (JobOps.find (JobOps.refreshReady s).sched j = some x →
      let b := JobOps.refreshReady s
      let desc := x.descAt d
      let st := Desc.station desc
      let k := if st = 0x10 ∨ st = 0x13 ∨ st = 0x14 then 7 else JobOps.budget b x
      let n := Sparse.getD x.hgrant d 0
      let v := Hub.viaOf b x st d
      let granted := fun (u : State) (y : Job) (w : HubWork) => ∃ t, exec (.hubExecutionGrant j d) s = .next t ∧
        t = { u with sched := { u.sched with jobs := t.sched.jobs } } ∧
        (∀ z : Job, z.id ≠ j → (z ∈ t.sched.jobs ↔ z ∈ u.sched.jobs)) ∧
        JobOps.find t.sched j = some { y with
          hexec := y.hexec ++ [⟨d, n, w⟩]
          hgrant := Sparse.put y.hgrant d (n + 1) }
      (Hub.isNext b x d = false → exec (.hubExecutionGrant j d) s = .next b) ∧
      (Hub.isNext b x d = true → classOpen b k = false ∨ energyLeft b.sched k = false →
        exec (.hubExecutionGrant j d) s = .next { b with sched := markStall b.sched k }) ∧
      (Hub.isNext b x d = true → classOpen b k = true → energyLeft b.sched k = true →
        (st = 0x10 → granted b x (.dec ⟨0, [], ⟨false, 0, [], [], []⟩, 0, [], [], 0, false, [], false, false⟩)) ∧
        (st = 0x11 ∨ st = 0x12 → ∀ m u, JobOps.run b (JobOps.budget b x) (Hub.unitWork x v d n) = (.ok m, u) →
          ∀ y, JobOps.find (JobOps.spend (JobOps.tally u j none d n d m []) x m.energy).sched j = some y →
          granted (JobOps.spend (JobOps.tally u j none d n d m []) x m.energy) y .plain) ∧
        (st = 0x13 ∧ fld desc 0x30 4 ≤ n ∨ st = 0x14 ∧ fld desc 0x30 4 ≤ n ∨ st = 0x15 ∧ fld desc 0x28 4 ≤ n → granted b x .plain) ∧
        (st = 0x13 → n < fld desc 0x30 4 → ∀ g u offs w e, JobOps.run b 7 (Enc.fetch v desc n) = (.ok g, u) → g.offs = some offs →
          let a := Codecs.encAreaOf u g.head
          a.closed = false →
          Codecs.bind u true x (fld desc 0x20 8) 0 (Codecs.units (Enc.width g.sess) (Enc.height g.sess) (Enc.fpsNum g.sess) (Enc.fpsDen g.sess)) = .ok w e →
          ∀ y, JobOps.find w.sched j = some y →
          granted w y (.enc (Enc.work g.sess g.pic (fld desc 0x20 8) (fld desc 0x28 8 + 128 * n) a offs g.field))) ∧
        (st = 0x14 → n < fld desc 0x30 4 → ∀ q au h data u w e, JobOps.run b 7 (Dec.fetch v desc n) = (.ok (q, au, some (h, data)), u) →
          let a := Codecs.decAreaOf u h
          a.closed = false →
          Codecs.bind u false x (fld desc 0x20 8) 0 (Codecs.units (Dec.maxW q) (Dec.maxH q) (Dec.fpsNum q) (Dec.fpsDen q)) = .ok w e →
          ∀ y, JobOps.find w.sched j = some y →
          granted w y (.dec ⟨fld desc 0x20 8, q, a, Codecs.keyOf v (Dec.state q), au, data, 0, false, [], true, false⟩)) ∧
        (st = 0x15 → n < fld desc 0x28 4 → ∀ q node u, JobOps.run b (JobOps.budget b x) (Pfx.fetchReq v desc x.cacheD (ptpTime b) n) = (.ok (q, node), u) →
          ∀ y, JobOps.find u.sched j = some y →
          granted u y (.pfx ⟨q, fld desc 0x20 8 + 32 * n, node, 0, 0, 0, 0, 0, 0, 0, none,
            if Pfx.wellFormed x.cacheD (CacheOps.parseReq q) = false then some (3, none)
            else if Pfx.permitted (FabServe.role u) (CacheOps.parseReq q) = false then some (7, none) else none⟩)))) ∧
    (JobOps.find s.sched j = some x → ∀ n work, Hub.first x d = some ⟨d, n, work⟩ →
      let st := Hub.stationOf x d
      let v := Hub.viaOf s x st d
      let counts := fun (u : State) => ∀ y, JobOps.find u.sched j = some y →
        exec (.hubExecutionComplete j d) s = .next (JobOps.signal (JobOps.set u { y with
          hexec := y.hexec.filter fun z => !(z.d == d && z.n == n)
          hdone := Sparse.upd y.hdone d 0 (· + 1) }) j d [])
      (work = .plain → counts s) ∧
      (∀ w u, work = .enc w → w.rows.length = Enc.nrows w.sess → w.heldRows = 0 → w.spent = none → st = 0x13 →
        let a := Enc.areaAfter (Codecs.microcode s) w
        let e := Codecs.engineOf s true w.addr x.fn
        JobOps.run s 7 (do
          MM.write v (w.paddr + 0x48) (Enc.outputs w)
          MM.write v (Enc.state w.sess) (Codecs.image (Codecs.microcode s) (e, a) (Enc.areaBytes w.sess))) = (.ok (), u) →
        counts (Codecs.release { u with codec := { u.codec with encAreas := (e, a) :: u.codec.encAreas } } true w.addr x.fn (Enc.endSet w.pic))) ∧
      (∀ w u, work = .dec w → st = 0x14 → w.last = true → w.out = [] → Dec.decoded s x 0x14 d n w (Dec.endSet w.unit) = some u → counts u) ∧
      (∀ w u r, work = .dec w → st = 0x10 → Sparse.get? x.ingest d = some r → n = Sparse.getD x.hdone d 0 → w.started = true → w.last = true → w.fin = true → Ing.shown x d n w = true →
        JobOps.run s 7 (MM.put v (Ing.queueAddr (x.descAt d) + 0x10) 4 ((r.q0 + n + 1) % 2 ^ 32)) = (.ok (), u) → counts u) ∧
      (∀ w res node u, work = .pfx w → w.fin = some (res, node) → st = 0x15 → JobOps.run s (JobOps.budget s x) (do
          MM.put v (w.addr + 1) 1 res
          match node with
            | some k => MM.put v (w.addr + 0xC) 4 k
            | none => pure ()) = (.ok (), u) → counts u))

/-- For a job in service with budget class 7 funded: ENC_BLOCK_ROW reads the next row's pixels once its input is there,
codes its blocks (in the first row of a key picture after the headers) from the session, the state area, the pixels
and the microcode version alone, with its QPs written, and adds its QP, its bits, padded to a byte at a slice's end,
and the blocks' motion, with the overshoot noted at the first row that reaches the budget; ENC_CHUNK_EMIT of a full
slice writes the chunk when the ring has room and clears the slice, else nothing changes. DEC_PICTURE_OUTPUT of a
decoding unit does what the unit's next turn gives: a picture decoded charges its energy, reports its damage and takes
the next free value; without a buffer or room it waits. INGEST_ENTRY starts a written video entry on its session's
engine and turns an audio entry into an item; an entry not written waits and fixes nothing. INGEST_DELIVERY moves the
earliest execution's next record to DELIV when it has room. LIVE_TICK_EMIT emits the next tick at its moment and logs
0x0708 when a source was missing. ARG0 of that record is the model's free value (log 5). It rests on parts of R240,
R246, R247, R256, R257, R259, R264, R265, R273, R275, R280, R282, R284, R286, R288.
(spec/11_video_encode.md,spec/12_decode_and_ingest.md) -/
def Obligations.CodecRowsChunksAndPictures : Prop :=
  ∀ (s : State) (t j d : Nat) (x : Job), s.bu.stopped = false → JobOps.find s.sched j = some x → classOpen s 7 = true →
    let ev := Hub.viaOf s x 0x13 d
    let iv := Hub.viaOf s x 0x10 d
    (∀ n w, Hub.first x d = some ⟨d, n, .enc w⟩ →
      (∀ px u, w.rows.length < Enc.nrows w.sess → Enc.sliceFull w = false → Enc.inputReady s x w w.rows.length = true →
        JobOps.run s 7 (Enc.pixels ev w w.rows.length) = (.ok px, u) →
        let b := w.sess
        let r := w.rows.length
        let q := Enc.rowQp b w
        let qps := Enc.blockQps b w r q
        let view := Enc.view (Codecs.microcode u) w (w.luma ++ px.1) (w.chroma ++ px.2)
        let code := Enc.codeBlocks view w.key w.spent.isSome r qps
        let raw := (if w.key = true ∧ r = 0 then Enc.header b else []) ++ Config.codedRow view (⟨r, qps.map (Enc.written b), code.1⟩ : Enc.RowCode)
        let ends := r + 1 = Enc.nrows b ∨ Enc.sliceRows b ≠ 0 ∧ w.heldRows + 1 = Enc.sliceRows b
        let bits := if ends then raw ++ Enc.pad (w.hold.length + raw.length) else raw
        let full := w.spent = none ∧ Enc.constRate b = true ∧ r + 1 < Enc.nrows b ∧ w.budget ≤ (w.rows.map (·.2)).sum + bits.length
        let next := { w with
          luma := w.luma ++ px.1
          chroma := w.chroma ++ px.2
          motion := code.2
          rows := w.rows ++ [(q, bits.length)]
          qps := qps
          spent := if full then some (r + 1) else w.spent
          hold := w.hold ++ bits
          heldRows := w.heldRows + 1 }
        exec (.encBlockRow j d) s = .next (Hub.setExec
          { u with sched := charge u.sched 7 0 (60000000 * (Enc.blockRows b r).length * Enc.bw b) } j ⟨d, n, .enc next⟩)) ∧
      (∀ room u, Enc.sliceFull w = true → JobOps.run s 7 (do
          let r ← Codecs.readRing ev (Enc.out w.sess)
          if Codecs.hasRoom r (Enc.chunk w).length then do
            Codecs.putRing ev r (Enc.chunk w)
            pure true
          else pure false) = (.ok room, u) →
        let sent := Hub.setExec u j ⟨d, n, .enc { w with
          hold := []
          heldRows := 0
          slice := w.slice + 1 }⟩
        exec (.encChunkEmit j d) s = .next (if room = false then u else if Enc.outEvt w.pic = 0xFFFF then sent
          else Codecs.bump sent x (Enc.outEvt w.pic)))) ∧
    (∀ n w o u, Ing.decoding x d n = some w → w.sess.isEmpty = false →
      JobOps.run s 7 (Ing.output (Hub.viaOf s x (Hub.stationOf x d) d) (Codecs.microcode s) x d n s.free w) = (.ok o, u) →
      let put := fun (v : State) (y : Ing.Turn) =>
        let v := Hub.setExec v j ⟨d, n, .dec y.work⟩
        match y.run with
          | some r => Ing.putRun v j d r
          | none => v
      (o = none → exec (.decPictureOutput j d n) s = .next u) ∧
      (∀ y, o = some y → y.pic = none → exec (.decPictureOutput j d n) s = .next (put u y)) ∧
      (∀ y h f num sub, o = some y → y.pic = some (h, f, num, sub) →
        let v := { u with
          free := u.free + 1
          sched := charge u.sched 7 0 (20000000 * ceilDiv h.width 16 * ceilDiv h.height 16) }
        exec (.decPictureOutput j d n) s = .next (put (Dec.report v x w.addr num h f sub) y))) ∧
    (∀ h g u, Ing.pending x d = some h → JobOps.run s 7 (Ing.look iv x d h.n (ptpTime s)) = (.ok g, u) →
      (g.ready = false → exec (.ingestEntry j d) s = .next u) ∧
      (g.ready = true → g.ok = true → Ing.eKind g.entry = 0 → Ing.decodingOn x d (Ing.eSession g.entry) = none → ∀ v e,
        let key := Codecs.keyOf (Hub.viaOf u x 0x10 d) (Dec.state g.sess)
        let a := Codecs.decAreaOf u g.head
        a.closed = false → Codecs.bind u false x (Ing.eSession g.entry) (Ing.queueAddr (x.descAt d))
          (Codecs.units (Dec.maxW g.sess) (Dec.maxH g.sess) (Dec.fpsNum g.sess) (Dec.fpsDen g.sess)) = .ok v e →
        exec (.ingestEntry j d) s = .next (Hub.setExec (Ing.putRun v j d g.run) j
          ⟨d, h.n, .dec ⟨Ing.eSession g.entry, g.sess, a, key, g.entry, g.data, 0, false, [], true, false⟩⟩)) ∧
      (g.ready = true → g.ok = true → Ing.eKind g.entry ≠ 0 → ∀ r v,
        JobOps.run u 7 (Ing.arrive (Hub.viaOf u x 0x10 d) (x.descAt d) g.run
          ⟨Ing.eSource g.entry, Ing.eTs g.entry, h.n, true, ⟨[], 0, g.entry⟩⟩) = (.ok r, v) →
        exec (.ingestEntry j d) s = .next (Hub.setExec (Ing.putRun v j d r) j
          ⟨d, h.n, .dec ⟨0, [], ⟨false, 0, [], [], []⟩, 0, g.entry, [], 0, true, [], true, true⟩⟩))) ∧
    (∀ n w p rest, Hub.exec? x d (Sparse.getD x.hdone d 0) = some ⟨d, n, .dec w⟩ → w.out = p :: rest → Hub.stationOf x d = 0x10 → ∀ room u,
      JobOps.run s 7 (Dec.deliver iv (Ing.deliv (x.descAt d)) p) = (.ok room, u) →
      exec (.ingestDelivery j d) s = .next (if room = false then u else Hub.setExec u j ⟨d, n, .dec { w with out := rest }⟩)) ∧
    (∀ r o u, Sparse.get? x.ingest d = some r → r.group.isEmpty = false → (∃ y ∈ x.hexec, y.d = d) →
      JobOps.run (tick s t) 7 (Ing.emitTick (Hub.viaOf (tick s t) x 0x10 d) x d (ptpTime (tick s t)) r) = (.ok o, u) →
      (o = none → exec (.liveTickEmit t j d) s = .next u) ∧
      (∀ q, o = some (q, 0) → exec (.liveTickEmit t j d) s = .next (Ing.putRun u j d q)) ∧
      (∀ q m, o = some (q, m) → m ≠ 0 →
        let b := Ing.putRun u j d q
        let missing := (Config.freeValue b.free).toNat
        ∃ v, exec (.liveTickEmit t j d) s = .next v ∧ logs { b with free := b.free + 1 } v
          { status := 0x0708, source := JobOps.srcHub 0x10, fn := x.fn, relanes := x.relanes, arg0 := missing, arg1 := r.tick * 2 ^ 16 + m }))

/-- For the granted PREFIX execution of a descriptor with its class funded, not yet begun and not decided: a command for
an operation its request does not name changes nothing. LOOKUP, INSERT, FORK, RELEASE and EVICT of this module alone
run on the pool and decide RESULT and NODE_OUT; a RELEASE of a REMOTE entry forgets its hit and returns its lease, and
waits where no TAG is free. A remote LOOKUP or INSERT reads its entry and tokens and issues a PREFIX transaction of
1,024 bytes with a free TAG; SEND issues PAGE_WRITE of its page's first part; FETCH, a PAGE_READ of the first part
into the page it popped, under the HASH of the hit. A request that its entry does not allow is decided with the RESULT
the check gives; without a free TAG nothing changes. The transaction's operand words are the model's (PRESUMED, log
30). It rests on parts of R185, R186, R187, R188, R190, R191. (spec/08_attention_and_paged_cache.md) -/
def Obligations.PrefixRequestsRun : Prop :=
  ∀ (s : State) (j d n : Nat) (x : Job) (w : PfxWork), JobOps.find s.sched j = some x → Hub.first x d = some ⟨d, n, .pfx w⟩ →
    s.bu.stopped = false → txnLeft s.sched (JobOps.budget s x) = true → w.fin = none → w.stage = 0 →
    let r := CacheOps.parseReq w.req
    let v := Hub.viaOf s x 0x15 d
    let c := x.cacheD
    let now := ptpTime s
    let k := JobOps.budget s x
    let tagged := (Fab.freeTag s).isSome
    let put := fun (u : State) (w : PfxWork) => Hub.setExec u j ⟨d, n, .pfx w⟩
    let done := fun (u : State) (res : Nat) (node : Option Nat) => put u { w with
      ans := none
      fin := some (res, node) }
    let far := r.remote = true ∨ r.op = 7 ∨ r.op = 5
    let pageAt := fun (p : Nat) => CacheOps.poolBase c + p * CacheOps.pageBytes c
    let o1 := 2 ^ 32 * CacheOps.pageBytes c
    let m := min Fab.maxLength (CacheOps.pageBytes c - w.moved)
    let wire := splice w.req 8 (toLe 4 w.nodeIn)
    let runs := fun (o : Host.Outcome State Fault Refusal) (op : Nat) =>
      (r.op ≠ op → o = .next s) ∧
      (r.op = op → ¬ far → ∀ y u, JobOps.run s k (Pfx.ownOp v c now w tagged) = (.ok y, u) →
        (y = none → o = .next u) ∧
        (∀ res node, y = some ((res, node), none) → o = .next (done u res node)) ∧
        (∀ res node a e, y = some ((res, node), some (a, e)) →
          o = .next (if res = 0 then Pfx.returnLease (Pfx.setHit (done u res node) (x.fn, a) none) w e else done u res node))) ∧
      (r.op = op → far → tagged = false → o = .next s) ∧
      (r.op = op → far → tagged = true → ∀ q u, JobOps.run s k (Pfx.opening v c now w) = (.ok q, u) →
        (∀ res, q = .error res → o = .next (done u res none)) ∧
        (∀ a e p toks, q = .ok (a, e, p, toks) →
          let w := { w with
            old := e
            page := p
            entry := a }
          (op ≠ 7 → op ≠ 5 →
            let b := put u { w with stage := 1 }
            o = .next ((Fab.issue b (.pfx j d) { op := Fab.opPrefix, dst := r.endpoint, len := 1024, arg := wire, data := toks }).getD b)) ∧
          (op = 7 → ∀ bs z, JobOps.run u (JobOps.budget u x) (MM.read (Hub.viaOf u x 0x15 d) (pageAt p + w.moved) m) = (.ok bs, z) →
            let b := put z { w with
              stage := 2
              moved := w.moved + m
              ans := none }
            o = .next ((Fab.issue b (.pfx j d) { op := Fab.opPageWrite, dst := r.endpoint, off := w.moved, len := m, o1 := w.rpage + o1, o2 := CacheOps.eFill e, arg := wire, data := bs }).getD b)) ∧
          (op = 5 → ∀ ps, xlatRun u.host x.fn (pageAt p + w.moved) m true = some ps →
            let b := put u { w with
              rpage := CacheOps.ePage e
              stage := 2
              moved := w.moved + m
              ans := none }
            o = .next ((Fab.issue b (.pfx j d) { op := Fab.opPageRead, dst := r.endpoint, off := w.moved, len := m, o1 := CacheOps.ePage e + o1, o2 := Pfx.hitOf u (x.fn, a), arg := wire, addr := ps }).getD b))))
    runs (exec (.prefixLookup j d) s) 1 ∧ runs (exec (.prefixInsert j d) s) 2 ∧ runs (exec (.prefixFork j d) s) 3 ∧
    runs (exec (.prefixRelease j d) s) 4 ∧ runs (exec (.prefixFetch j d) s) 5 ∧ runs (exec (.prefixEvict j d) s) 6 ∧
    runs (exec (.prefixSend j d) s) 7 ∧
    (r.op ≠ 4 → Pfx.ownOp v c now w tagged = do
      let a ← if r.op = 1 then CacheOps.lookup v c now r w.nodeIn else if r.op = 2 then CacheOps.insert v c now r w.nodeIn
          else if r.op = 3 then CacheOps.fork v c now r else CacheOps.evictReq v c now { r with nodeIn := w.nodeIn }
      pure (some (a, none)))

/-- A warm start leaves MEM_SCRUB as it was, and from any state the next scrub read of the pass moves on from the position
that MEM_SCRUB shows: to the slot's next codeword, after codeword 63 to the next slot, after the last slot to slot 0
with one more pass. A cold start, which begins when P48V reaches power-good, when RESTART runs with ARG0 1, or at a
module-lost fault with WARM_EN 0, sets MEM_SCRUB to slot 0, codeword 0 and PASSES 0. (R315) -/
def Obligations.ScrubPositionSurvivesWarmStart : Prop :=
  ∀ (s : State) (t : Nat),
    (s.bu.lostArg.isSome = true ∨ s.bu.restart = some true → Recov.hubsDone s.sched = true →
      ∃ u, exec (.warmStart t) s = .next u ∧ Regs.value u .memScrub = Regs.value s .memScrub ∧
        u.mem.slot = s.mem.slot ∧ u.mem.codeword = s.mem.codeword ∧ u.mem.passes = s.mem.passes) ∧
    (MemRows.up s = true → ∃ u, exec .scrubRead s = .next u ∧
      (s.mem.codeword < 63 → u.mem.slot = s.mem.slot ∧ u.mem.codeword = s.mem.codeword + 1 ∧ u.mem.passes = s.mem.passes) ∧
      (63 ≤ s.mem.codeword → s.mem.slot < 466032 → u.mem.slot = s.mem.slot + 1 ∧ u.mem.codeword = 0 ∧ u.mem.passes = s.mem.passes) ∧
      (63 ≤ s.mem.codeword → 466032 ≤ s.mem.slot → u.mem.slot = 0 ∧ u.mem.codeword = 0 ∧ u.mem.passes = s.mem.passes + 1)) ∧
    (let cold := fun (o : Host.Outcome State Fault Refusal) =>
      ∃ u, o = .next u ∧ Regs.value u .memScrub = 0 ∧ u.mem.slot = 0 ∧ u.mem.codeword = 0 ∧ u.mem.passes = 0
     (s.pwr.phase = .softStart → cold (exec (.powerGood t) s)) ∧
     (s.bu.warmEn = false → ∀ w, cold (exec (.moduleLostFault t w) s)) ∧
     (listens s 0 → s.bu.recovering = false → Mbox.ready s = true ∨ Mbox.halted s = true → ∀ tag, cold (exec (.restart 0 tag 1) s)))

/-- With command c at the front of the queue, a step answers what exec answers for c on the state with the rest of the
queue. With an empty queue the state stands. The queue is the model's own (DESIGN CHOICE, log 10). (spec/00_scope.md) -/
def Obligations.StepRunsTheFrontCommand : Prop :=
  ∀ (c : Instr) (s : State), step { s with pending := c :: s.pending } = exec c s ∧ (s.pending = [] → step s = .next s)

/-- At reset bring-up is at step 0 with AUTO 0 and status 0, no command waits, no job is admitted, no ring is assigned and
its VECTOR is 0xFF, no port is up, its MAX_GEN is 3 and its ENABLE 1, no transaction is outstanding, the event log is
at position 0, WARM_EN is 1, and the counters, memory controls and selections of the registers named read 0. Memory is
in canonical form and its buffers in order, and the fused variant exists. That unpowered memory reads 0 is the model's
choice (DESIGN CHOICE, log 7), and so is the fused variant (log 4). It rests on parts of R102, R298, R315, R317, R344,
R362, R376, R385, R395, R402, R430, R435.
(spec/13_stacked_memory.md,spec/14_twisil_fabric.md,spec/15_host_and_mailboxes.md,spec/16_scheduling_and_budgets.md,spec/17_bring_up.md,spec/18_reliability_and_recovery.md,spec/21_management_identity_debug.md) -/
def Obligations.ResetValues : Prop :=
  let v := Regs.value State.reset
  State.reset.pending = [] ∧ State.reset.sched.jobs = [] ∧ State.reset.fab.txns = [] ∧ State.reset.fab.served = [] ∧ State.reset.log.next = 0 ∧
  State.reset.recov = none ∧ State.reset.codec.enc = [] ∧ State.reset.codec.dec = [] ∧ State.reset.cache.role = 0 ∧
  (∀ a, byteOf State.reset a = 0) ∧ State.reset.mem.errs = [] ∧
  v .buStep = 0 ∧ v .buStatus = 0 ∧ v .buEngines = 0 ∧ v .buFw = 0 ∧ v .buRecBase = 0x0071BAD00000 ∧ v .buRecCtl = 1 ∧
  v .pwrIn = 0 ∧ v .pwrAvg = 0 ∧ v .pwrStore = 0 ∧ v .tmHubTemp = 0 ∧ v .tmNumCtl = 0 ∧ v .tmNumSat = 0 ∧ v .tmNumFlush = 0 ∧
  v .fabId = 0 ∧ v .fabPtpState = 0 ∧ v .memCtl = 0 ∧ v .memSealBase = 0 ∧ v .memScrub = 0 ∧ v .idDebug = 0 ∧ v .idCarrier = 0 ∧
  (∀ r, v (.jrBase r) = 0 ∧ v (.jrCtl r) = 0xFF000000 ∧ v (.jrTail r) = 0 ∧ v (.jrHead r) = 0 ∧ v (.jrDone r) = 0) ∧
  (∀ f, v (.scSub f) = 0 ∧ v (.scDone f) = 0 ∧ v (.scFail f) = 0) ∧
  (∀ p, v (.fabPortCtl p) = 13 ∧ v (.fabPortStatus p) = 0 ∧ v (.fabPortViol p) = 0 ∧ v (.fabPortErr p) = 0 ∧ v (.fabPortCrypt p) = 0) ∧
  (∀ k, v (.fabRouteGrp k) = 0 ∧ v (.fabRouteMbr k) = 0 ∧ v (.fabRegion k) = 0 ∧ v (.fabOpqTail k) = 0 ∧ v (.fabOpqHead k) = 0) ∧
  (∀ k, v (.memCorr k) = 0 ∧ v (.memUncorr k) = 0 ∧ v (.memStack k) = 0 ∧ v (.tmObsSel k) = 0 ∧ v (.cdcEncLoad k) = 0 ∧ v (.cdcDecLoad k) = 0) ∧
  standing State.reset

/-- For every state and every command, a step that answers a next state keeps the standing conditions (memory in canonical
form, its write-combining buffers in order, an existing fused variant), changes of the fuses the SVN alone, which
never falls, never lowers the next log position, so that no position is used twice, never turns the clock back, and
takes exactly the front command off the queue. It holds of the states that no run reaches too. The clock, the queue
and the canonical form are the model's own (logs 1, 7 and 10). It rests on parts of R303, R304, R340, R434, R439.
(spec/13_stacked_memory.md,spec/14_twisil_fabric.md,spec/18_reliability_and_recovery.md,spec/19_security.md) -/
def Obligations.EveryStepKeepsStandingState : Prop :=
  ∀ s t : State, step s = .next t →
    (standing s → standing t) ∧
    t.fuses = { s.fuses with svn := t.fuses.svn } ∧ s.fuses.svn ≤ t.fuses.svn ∧
    s.log.next ≤ t.log.next ∧ s.now ≤ t.now ∧ s.free ≤ t.free ∧ t.pending = s.pending.tail

/-- From every state, whatever its operands, every command of the table runs to a next state that has the same queue, with
one exception: MEM_ACCESS that the debug level allows, of an address that does not lie below MEM_TOP, answers the
fault memAccessBeyondTop while the clocks run, since the spec gives no memory there. Nothing is refused. It rests on
parts of R487. (spec/21_management_identity_debug.md,spec/00_scope.md) -/
def Obligations.EveryCommandCompletes : Prop :=
  ∀ (c : Instr) (s : State),
    ((∀ a d, c = .memAccess a d → 2 ≤ s.ident.level → a < Config.memTop) → ∃ t, exec c s = .next t ∧ t.pending = s.pending) ∧
    (∀ a d, c = .memAccess a d → 2 ≤ s.ident.level → s.pwr.phase ≠ .scanned → Config.memTop ≤ a → exec c s = .fault (.memAccessBeyondTop a))
end

