-- ==== Sys2Proof/Laws/Memory.lean ====
section
/-! SUPPORT. Memory in canonical form: read after write, and that every memory operation keeps the form. -/

namespace Sys2Proof
namespace Machine
namespace Memory

/-! ### The canonical form -/

theorem wfBytes_iff (l : List (Nat × Byte)) :
    wfBytes l = true ↔ l.Pairwise (fun p q => p.1 < q.1) ∧ ∀ p ∈ l, p.2 ≠ blank := by
  induction l with
  | nil => simp [wfBytes]
  | cons p r ih =>
    obtain ⟨a, v⟩ := p
    cases r with
    | nil => simp [wfBytes]
    | cons q r =>
      obtain ⟨b, w⟩ := q
      simp only [wfBytes, Bool.and_eq_true, ih, bne_iff_ne, decide_eq_true_eq]
      constructor
      · rintro ⟨⟨hv, hab⟩, hp, hb⟩
        refine ⟨List.pairwise_cons.2 ⟨?_, hp⟩, ?_⟩
        · intro x hx
          rcases List.mem_cons.1 hx with rfl | hx
          · exact hab
          · exact lt_trans hab ((List.pairwise_cons.1 hp).1 x hx)
        · intro x hx
          rcases List.mem_cons.1 hx with rfl | hx
          · exact hv
          · exact hb x hx
      · rintro ⟨hp, hb⟩
        obtain ⟨h1, h2⟩ := List.pairwise_cons.1 hp
        exact ⟨⟨hb (a, v) (by simp), h1 (b, w) (by simp)⟩, h2, fun x hx => hb x (List.mem_cons_of_mem _ hx)⟩

theorem mem_cells (b : Bytes) : ∀ a, ∀ p ∈ cells a b, a ≤ p.1 ∧ p.1 < a + b.length ∧ p.2 ≠ blank := by
  induction b with
  | nil => intro a p hp; simp [cells] at hp
  | cons x r ih =>
    intro a p hp
    by_cases hx : x = blank
    · simp only [cells, hx, if_true] at hp
      obtain ⟨h1, h2, h3⟩ := ih _ p hp
      refine ⟨by omega, ?_, h3⟩
      simp only [List.length_cons]; omega
    · simp only [cells, hx, if_false, List.mem_cons] at hp
      rcases hp with rfl | hp
      · refine ⟨le_refl _, ?_, hx⟩
        simp
      · obtain ⟨h1, h2, h3⟩ := ih _ p hp
        refine ⟨by omega, ?_, h3⟩
        simp only [List.length_cons]; omega

theorem cells_pairwise (b : Bytes) : ∀ a, (cells a b).Pairwise (fun p q => p.1 < q.1) := by
  induction b with
  | nil => intro a; simp [cells]
  | cons x r ih =>
    intro a
    by_cases hx : x = blank
    · simp only [cells, hx, if_true]; exact ih _
    · simp only [cells, hx, if_false]
      refine List.pairwise_cons.2 ⟨fun p hp => ?_, ih _⟩
      obtain ⟨h1, -, -⟩ := mem_cells _ _ p hp
      show a < p.1
      omega

/-- A write keeps the canonical form. -/
theorem put_wf (m : List (Nat × Byte)) (a : Nat) (b : Bytes) (h : wfBytes m = true) : wfBytes (put m a b) = true := by
  rw [wfBytes_iff] at h ⊢
  obtain ⟨hp, hb⟩ := h
  refine ⟨?_, ?_⟩
  · refine List.pairwise_append.2 ⟨List.pairwise_append.2 ⟨hp.filter _, cells_pairwise _ _, ?_⟩, hp.filter _, ?_⟩
    · intro p h1 q h2
      have h3 := (List.mem_filter.1 h1).2
      have h4 := mem_cells _ _ q h2
      simp only [decide_eq_true_eq] at h3
      omega
    · intro p h1 q h2
      have h3 := (List.mem_filter.1 h2).2
      simp only [decide_eq_true_eq] at h3
      rcases List.mem_append.1 h1 with h1 | h1
      · have h4 := (List.mem_filter.1 h1).2
        simp only [decide_eq_true_eq] at h4
        omega
      · have h4 := mem_cells _ _ p h1
        omega
  · intro p h1
    rcases List.mem_append.1 h1 with h1 | h1
    · rcases List.mem_append.1 h1 with h1 | h1
      · exact hb p (List.mem_filter.1 h1).1
      · exact (mem_cells _ _ p h1).2.2
    · exact hb p (List.mem_filter.1 h1).1

/-! ### Read after write -/

theorem get_append (l r : Sparse Byte) (k : Nat) :
    Sparse.get? (l ++ r) k = (Sparse.get? l k).or (Sparse.get? r k) := by
  induction l with
  | nil => simp [Sparse.get?]
  | cons p l ih =>
    obtain ⟨j, v⟩ := p
    by_cases hj : j = k
    · simp [Sparse.get?, hj]
    · simp [Sparse.get?, hj, ih]

theorem get_filter (f : Nat → Bool) (l : Sparse Byte) (k : Nat) :
    Sparse.get? (l.filter fun p => f p.1) k = if f k then Sparse.get? l k else none := by
  induction l with
  | nil => simp [Sparse.get?]
  | cons p l ih =>
    obtain ⟨j, v⟩ := p
    by_cases hj : j = k
    · subst hj
      by_cases hf : f j <;> simp [Sparse.get?, hf, ih]
    · by_cases hf : f j <;> simp [Sparse.get?, hf, hj, ih]

theorem get_cells_lt (b : Bytes) : ∀ a k, k < a → Sparse.get? (cells a b) k = none := by
  induction b with
  | nil => intros; rfl
  | cons x r ih =>
    intro a k hk
    by_cases hx : x = blank
    · simp only [cells, hx, if_true]; exact ih _ _ (by omega)
    · simp only [cells, hx, if_false, Sparse.get?]
      rw [if_neg (by omega)]
      exact ih _ _ (by omega)

theorem get_cells (b : Bytes) : ∀ a k, (Sparse.get? (cells a b) k).getD blank =
    if a ≤ k ∧ k < a + b.length then b.getD (k - a) blank else blank := by
  induction b with
  | nil => intro a k; simp [cells, Sparse.get?]
  | cons x r ih =>
    intro a k
    by_cases hk : k = a
    · subst hk
      by_cases hx : x = blank
      · simp only [cells, hx, if_true, get_cells_lt _ _ _ (Nat.lt_succ_self k)]
        simp
      · simp only [cells, hx, if_false, Sparse.get?, if_true]
        simp
    · have hrest : (Sparse.get? (cells a (x :: r)) k).getD blank = (Sparse.get? (cells (a + 1) r) k).getD blank := by
        by_cases hx : x = blank
        · simp only [cells, hx, if_true]
        · simp only [cells, hx, if_false, Sparse.get?]
          rw [if_neg (fun h => hk h.symm)]
      rw [hrest, ih]
      by_cases h : a ≤ k ∧ k < a + (x :: r).length
      · have h' : a + 1 ≤ k ∧ k < a + 1 + r.length := by
          simp only [List.length_cons] at h; omega
        rw [if_pos h, if_pos h']
        have : k - a = (k - (a + 1)) + 1 := by omega
        rw [this, List.getD_cons_succ]
      · have h' : ¬ (a + 1 ≤ k ∧ k < a + 1 + r.length) := by
          simp only [List.length_cons] at h; omega
        rw [if_neg h, if_neg h']

/-- A read after a write: the bytes written, and every other byte as before. -/
theorem byteAt_put (m : List (Nat × Byte)) (a : Nat) (b : Bytes) (x : Nat) :
    byteAt (put m a b) x = if a ≤ x ∧ x < a + b.length then b.getD (x - a) blank else byteAt m x := by
  have e1 : Sparse.get? (m.filter (fun p => decide (p.1 < a))) x = if decide (x < a) then Sparse.get? m x else none :=
    get_filter (fun k => decide (k < a)) m x
  have e2 : Sparse.get? (m.filter (fun p => decide (a + b.length ≤ p.1))) x =
      if decide (a + b.length ≤ x) then Sparse.get? m x else none :=
    get_filter (fun k => decide (a + b.length ≤ k)) m x
  unfold byteAt Sparse.getD put
  rw [get_append, get_append, e1, e2]
  rcases lt_trichotomy x a with h | h | h
  · have h1 : ¬ (a ≤ x ∧ x < a + b.length) := by omega
    have h2 : ¬ (a + b.length ≤ x) := by omega
    simp [h, h1, h2, get_cells_lt _ _ _ h]
  · subst h
    by_cases hb : b.length = 0
    · have : b = [] := List.eq_nil_of_length_eq_zero hb
      subst this
      simp [cells, Sparse.get?]
    · have h2 : ¬ (x + b.length ≤ x) := by omega
      have := get_cells b x x
      simp only [lt_irrefl, decide_false, Bool.false_eq_true, if_false, h2, Option.none_or, Option.or_none]
      rw [this]
      simp only [le_refl, true_and]
      rw [if_pos (by omega), if_pos (by omega)]
  · by_cases hx : x < a + b.length
    · have h1 : ¬ (x < a) := by omega
      have h2 : ¬ (a + b.length ≤ x) := by omega
      have := get_cells b a x
      simp only [h1, h2, decide_false, Bool.false_eq_true, if_false, Option.none_or, Option.or_none]
      rw [this]
      rw [if_pos (by omega), if_pos (by omega)]
    · have h1 : ¬ (x < a) := by omega
      have h2 : a + b.length ≤ x := by omega
      have h3 : Sparse.get? (cells a b) x = none := by
        have h4 := mem_cells b a
        generalize cells a b = l at h4 ⊢
        induction l with
        | nil => rfl
        | cons p l ih =>
          obtain ⟨j, v⟩ := p
          have h5 := h4 (j, v) (by simp)
          have h6 : j ≠ x := by
            have := h5.2.1
            simp only at this
            omega
          simp only [Sparse.get?, if_neg h6]
          exact ih fun p hp => h4 p (List.mem_cons_of_mem _ hp)
      have h4 : ¬ (a ≤ x ∧ x < a + b.length) := by omega
      simp [h1, h2, h3, h4]

/-! ### The operations -/

theorem wf_of_bytes {m n : Mem} (h : n.bytes = m.bytes) (w : wf m = true) : wf n = true := by
  unfold wf at *; rw [h]; exact w

theorem writeLine_wf (m : Mem) (line : Nat) (d : Bytes) (w : wf m = true) : wf (writeLine m line d) = true :=
  put_wf _ _ _ w
theorem readChannel_bytes (m : Mem) (line : Nat) : (readChannel m line).2.bytes = m.bytes := by
  unfold readChannel
  dsimp only
  split
  · rfl
  · split
    · rfl
    · split <;> rfl
theorem writeback_wf (m : Mem) (line : Nat) (w : wf m = true) : wf (writeback m line) = true := by
  unfold writeback
  split
  · exact w
  · exact writeLine_wf _ _ _ w
theorem readLine_bytes (m : Mem) (line : Nat) : (readLine m line).2.bytes = m.bytes := by
  have h := readChannel_bytes m line
  unfold readLine
  split
  · next e => rw [e] at h; exact h
  · next e =>
    rw [e] at h
    split <;> exact h
theorem readLines_bytes (l : List Nat) : ∀ (m : Mem) (acc : Bytes), (readLines m l acc).2.bytes = m.bytes := by
  induction l with
  | nil => intros; rfl
  | cons x r ih =>
    intro m acc
    have h := readLine_bytes m x
    unfold readLines
    split
    · next e => rw [e] at h; exact h
    · next e => rw [e] at h; rw [ih, ← h]
/-- A read changes no byte. -/
theorem read_bytes (m : Mem) (a n : Nat) : (read m a n).2.bytes = m.bytes := by
  have h := readLines_bytes ((List.range (linesOf a n)).map (a / 64 + ·)) m []
  unfold read
  split <;> (next e => rw [e] at h; exact h)
theorem flushEntry_wf (m : Mem) (e : WcEntry) (w : wf m = true) : wf (flushEntry m e).1 = true := by
  have w1 : wf (dropEntry m e.line) = true := w
  unfold flushEntry
  dsimp only
  split
  · exact writeLine_wf _ _ _ w1
  · have h := readChannel_bytes { dropEntry m e.line with owed := (dropEntry m e.line).owed ++ [e.cls] } e.line
    split
    · next q => rw [q] at h; exact wf_of_bytes h w1
    · next q => rw [q] at h; exact writeLine_wf _ _ _ (wf_of_bytes h w1)
theorem flushWhere_wf (m : Mem) (p : WcEntry → Bool) (w : wf m = true) : wf (flushWhere m p).1 = true := by
  unfold flushWhere
  generalize m.wc.filter p = l
  suffices h : ∀ (l : List WcEntry) (x : Mem × Lost), wf x.1 = true →
      wf (l.foldl (fun (m, l) e => let (m, k) := flushEntry m e; (m, l ++ k)) x).1 = true from h l (m, []) w
  intro l
  induction l with
  | nil => intro x h; exact h
  | cons e r ih => intro x h; exact ih _ (flushEntry_wf _ _ h)
theorem place_wf (m : Mem) (e : WcEntry) (w : wf m = true) : wf (place m e) = true := by
  unfold place
  split
  · exact writeLine_wf _ _ _ w
  · exact w
theorem room_wf (m : Mem) (line : Nat) (w : wf m = true) : wf (room m line).1 = true := by
  unfold room
  dsimp only
  split
  · split
    · exact flushEntry_wf _ _ w
    · exact w
  · exact w
theorem mergeLine_wf (m : Mem) (o : Writer) (cls time line k : Nat) (b : Bytes) (w : wf m = true) :
    wf (mergeLine m o cls time line k b).1 = true := by
  have w2 : wf { m with fixes := Sparse.del m.fixes line } = true := w
  unfold mergeLine
  dsimp only
  split
  · exact writeLine_wf _ _ _ w2
  · split
    · exact place_wf _ _ w2
    · exact place_wf _ _ (room_wf _ _ w2)
/-- A write keeps the canonical form. -/
theorem write_wf (m : Mem) (o : Writer) (cls time a : Nat) (b : Bytes) (w : wf m = true) :
    wf (write m o cls time a b).1 = true := by
  unfold write
  generalize pieces a b = l
  suffices h : ∀ (l : List (Nat × Nat × Bytes)) (x : Mem × Lost), wf x.1 = true →
      wf (l.foldl (fun (m, l) (line, k, x) => let (m, q) := mergeLine m o cls time line k x; (m, l ++ q)) x).1 = true
    from h l (m, []) w
  intro l
  induction l with
  | nil => intro x h; exact h
  | cons e r ih => intro x h; exact ih _ (mergeLine_wf _ _ _ _ _ _ _ h)

end Memory
end Machine
end Sys2Proof
end

