-- ==== Sys2Proof/Laws/Sparse.lean ====
section
/-! SUPPORT. Reading a sparse map after each operation on it. -/

namespace Sys2Proof
namespace Sparse

variable {α : Type}

@[simp] theorem get_nil (k : Nat) : get? ([] : Sparse α) k = none := rfl
@[simp] theorem getD_nil (k : Nat) (d : α) : getD ([] : Sparse α) k d = d := rfl
theorem get_put (m : Sparse α) (k j : Nat) (v : α) : get? (put m k v) j = if j = k then some v else get? m j := by
  induction m with
  | nil =>
    simp only [put, get?]
    by_cases h : j = k
    · rw [if_pos h.symm, if_pos h]
    · rw [if_neg fun q => h q.symm, if_neg h]
  | cons p r ih =>
    obtain ⟨i, w⟩ := p
    simp only [put]
    split
    · next h =>
      simp only [get?]
      rw [ih]
      by_cases q : i = j
      · rw [if_pos q, if_pos q, if_neg (by omega)]
      · rw [if_neg q, if_neg q]
    · split
      · next h1 h2 =>
        subst h2
        simp only [get?]
        by_cases q : i = j
        · rw [if_pos q, if_pos q.symm]
        · rw [if_neg q, if_neg q, if_neg fun z => q z.symm]
      · next h1 h2 =>
        simp only [get?]
        by_cases q : k = j
        · rw [if_pos q, if_pos q.symm]
        · rw [if_neg q, if_neg (fun z : j = k => q z.symm)]
@[simp] theorem get_put_self (m : Sparse α) (k : Nat) (v : α) : get? (put m k v) k = some v := by rw [get_put, if_pos rfl]
theorem get_put_ne (m : Sparse α) {k j : Nat} (h : j ≠ k) (v : α) : get? (put m k v) j = get? m j := by rw [get_put, if_neg h]
theorem getD_put (m : Sparse α) (k j : Nat) (v d : α) : getD (put m k v) j d = if j = k then v else getD m j d := by
  unfold getD
  rw [get_put]
  split <;> rfl
@[simp] theorem getD_put_self (m : Sparse α) (k : Nat) (v d : α) : getD (put m k v) k d = v := by rw [getD_put, if_pos rfl]
theorem getD_put_ne (m : Sparse α) {k j : Nat} (h : j ≠ k) (v d : α) : getD (put m k v) j d = getD m j d := by
  rw [getD_put, if_neg h]
theorem put_put (m : Sparse α) (k : Nat) (v w : α) : put (put m k v) k w = put m k w := by
  induction m with
  | nil => simp [put]
  | cons p r ih =>
    obtain ⟨i, x⟩ := p
    simp only [put]
    split
    · next h => simp only [put]; rw [if_pos h, ih]
    · next h =>
      split
      · simp [put]
      · simp [put]
theorem get_del (m : Sparse α) (k j : Nat) : get? (del m k) j = if j = k then none else get? m j := by
  induction m with
  | nil => simp [del]
  | cons p r ih =>
    obtain ⟨i, w⟩ := p
    unfold del at *
    by_cases h : i = k
    · rw [List.filter_cons_of_neg (by simp [h]), ih]
      split
      · rfl
      · next q => simp only [get?]; rw [if_neg fun z => q (z.symm.trans h)]
    · rw [List.filter_cons_of_pos (by simp [h])]
      simp only [get?]
      rw [ih]
      by_cases q : i = j
      · rw [if_pos q, if_pos q, if_neg fun z => h (q.trans z)]
      · rw [if_neg q, if_neg q]

end Sparse
end Sys2Proof
end

