-- ==== Sys2Proof/Laws/MemoryView.lean ====
section
/-! SUPPORT. What a read sees after each memory operation, while no line holds an error pattern, and that every operation
keeps the write-combining buffers in order. -/

namespace Sys2Proof
namespace Machine
namespace Memory

open Bits

/-! ### Bytes -/

theorem length_slice (b : Bytes) (o n : Nat) : (slice b o n).length = n := by
  simp only [slice, List.length_append, List.length_take, List.length_drop, List.length_replicate]
  omega
theorem getD_slice (b : Bytes) (o n i : Nat) : (slice b o n).getD i 0#8 = if i < n then b.getD (o + i) 0#8 else 0#8 := by
  simp only [slice, List.getD_eq_getElem?_getD]
  by_cases h : i < ((b.drop o).take n).length
  · have hn : i < n := by simp only [List.length_take, List.length_drop] at h; omega
    rw [List.getElem?_append_left h, List.getElem?_take_of_lt hn, List.getElem?_drop, if_pos hn]
  · rw [List.getElem?_append_right (Nat.le_of_not_lt h)]
    have z : ∀ k : Nat, ((List.replicate k 0#8)[i - ((b.drop o).take n).length]?).getD 0#8 = 0#8 := by
      intro k
      rw [List.getElem?_replicate]
      split <;> rfl
    rw [z]
    split
    · next hn =>
      simp only [List.length_take, List.length_drop] at h
      rw [List.getElem?_eq_none (by omega)]
      rfl
    · rfl
theorem length_splice (b : Bytes) (o : Nat) (x : Bytes) (h : o + x.length ≤ b.length) : (splice b o x).length = b.length := by
  simp only [splice, List.length_append, length_slice, List.length_drop]
  omega
theorem getD_splice (b : Bytes) (o : Nat) (x : Bytes) (i : Nat) :
    (splice b o x).getD i 0#8 = if o ≤ i ∧ i < o + x.length then x.getD (i - o) 0#8 else b.getD i 0#8 := by
  simp only [splice]
  rcases Nat.lt_or_ge i o with h | h
  · have hs : i < (slice b 0 o ++ x).length := by rw [List.length_append, length_slice]; omega
    rw [List.getD_eq_getElem?_getD, List.getElem?_append_left hs, List.getElem?_append_left (by rw [length_slice]; exact h),
      ← List.getD_eq_getElem?_getD, getD_slice, if_pos h, Nat.zero_add, if_neg (by omega)]
  · rcases Nat.lt_or_ge i (o + x.length) with g | g
    · have hs : i < (slice b 0 o ++ x).length := by rw [List.length_append, length_slice]; exact g
      rw [List.getD_eq_getElem?_getD, List.getElem?_append_left hs, List.getElem?_append_right (by rw [length_slice]; exact h),
        length_slice, ← List.getD_eq_getElem?_getD, if_pos ⟨h, g⟩]
    · have hs : (slice b 0 o ++ x).length ≤ i := by rw [List.length_append, length_slice]; exact g
      rw [List.getD_eq_getElem?_getD, List.getElem?_append_right hs, List.getElem?_drop, List.length_append, length_slice,
        if_neg (by omega), List.getD_eq_getElem?_getD]
      congr 2
      omega
theorem getD_zeros (n i : Nat) : (zeros n).getD i 0#8 = 0#8 := by
  simp only [zeros, List.getD_eq_getElem?_getD, List.getElem?_replicate]
  split <;> rfl

/-! ### The entries of a line -/

variable {m : Mem}

theorem find_filter_ne (l : List WcEntry) (line k : Nat) :
    (l.filter (·.line != line)).find? (·.line == k) = if k = line then none else l.find? (·.line == k) := by
  induction l with
  | nil => simp
  | cons e l ih =>
    by_cases h : e.line = line
    · have : (e.line != line) = false := by simp [h]
      rw [List.filter_cons_of_neg (by simp [h]), ih]
      split
      · rfl
      · next hk =>
        rw [List.find?_cons_of_neg]
        simp only [beq_iff_eq, h]
        exact fun q => hk q.symm
    · rw [List.filter_cons_of_pos (by simp [h])]
      by_cases hk : e.line = k
      · have : k ≠ line := fun q => h (hk.trans q)
        rw [List.find?_cons_of_pos (by simp [hk]), List.find?_cons_of_pos (by simp [hk]), if_neg this]
      · rw [List.find?_cons_of_neg (by simp [hk]), List.find?_cons_of_neg (by simp [hk]), ih]
theorem entryOf_drop (m : Mem) (line k : Nat) : entryOf (dropEntry m line) k = if k = line then none else entryOf m k :=
  find_filter_ne _ _ _
theorem entryOf_append (m : Mem) (e : WcEntry) (h : entryOf m e.line = none) (k : Nat) :
    entryOf { m with wc := m.wc ++ [e] } k = if k = e.line then some e else entryOf m k := by
  unfold entryOf at *
  rw [List.find?_append]
  split
  · next q => subst q; rw [h]; simp
  · next q =>
    have : ([e].find? fun x => x.line == k) = none := by
      rw [List.find?_cons_of_neg (by simp only [beq_iff_eq]; exact fun z => q z.symm)]; rfl
    rw [this, Option.or_none]
theorem entryOf_none_of_wc (h : ∀ e ∈ m.wc, e.line ≠ k) : entryOf m k = none := by
  unfold entryOf
  exact List.find?_eq_none.2 fun e q => by simp [h e q]
theorem entryOf_some {e : WcEntry} (h : entryOf m k = some e) : e ∈ m.wc ∧ e.line = k := by
  unfold entryOf at h
  exact ⟨List.mem_of_find?_eq_some h, by have := List.find?_some h; simpa using this⟩
theorem nodup_unique {l : List WcEntry} (h : (l.map (·.line)).Nodup) {d e : WcEntry} (hd : d ∈ l) (he : e ∈ l)
    (q : d.line = e.line) : d = e := by
  induction l with
  | nil => cases hd
  | cons x l ih =>
    simp only [List.map_cons, List.nodup_cons, List.mem_map, not_exists, not_and] at h
    rcases List.mem_cons.1 hd with h1 | hd
    · rcases List.mem_cons.1 he with h2 | he
      · rw [h1, h2]
      · exact absurd (h1 ▸ q.symm) (h.1 e he)
    · rcases List.mem_cons.1 he with h2 | he
      · exact absurd (h2 ▸ q) (h.1 d hd)
      · exact ih h.2 hd he
theorem entryOf_of_mem (h : (m.wc.map (·.line)).Nodup) {e : WcEntry} (he : e ∈ m.wc) : entryOf m e.line = some e := by
  cases q : entryOf m e.line with
  | none =>
    unfold entryOf at q
    have := List.find?_eq_none.1 q e he
    simp at this
  | some d =>
    obtain ⟨a, b⟩ := entryOf_some q
    rw [nodup_unique h a he b]

/-! ### The order of the buffers -/

theorem wcOk_iff {l : List WcEntry} : wcOk l = true ↔ (l.map (·.line)).Nodup ∧ (∀ e ∈ l, e.data.length = 64 ∧ e.mask < fullMask) ∧
    ∀ c < 256, (l.filter fun e => channelOf (64 * e.line) == c).length ≤ 32 := by
  unfold wcOk
  simp only [Bool.and_eq_true, decide_eq_true_eq, List.all_eq_true, beq_iff_eq, List.mem_range]
  constructor
  · rintro ⟨⟨a, b⟩, c⟩; exact ⟨a, b, c⟩
  · rintro ⟨a, b, c⟩; exact ⟨⟨a, b⟩, c⟩
theorem bufOk_iff : bufOk m = true ↔ (m.wc.map (·.line)).Nodup ∧ (∀ e ∈ m.wc, e.data.length = 64 ∧ e.mask < fullMask) ∧
    ∀ c < 256, (m.wc.filter fun e => channelOf (64 * e.line) == c).length ≤ 32 := wcOk_iff
theorem bufOk_of_wc {n : Mem} (h : n.wc = m.wc) (w : bufOk m = true) : bufOk n = true := by
  unfold bufOk at *; rw [h]; exact w
@[simp] theorem wcOk_nil : wcOk [] = true := by simp [wcOk]
theorem wcOk_filter {l : List WcEntry} (p : WcEntry → Bool) (w : wcOk l = true) : wcOk (l.filter p) = true := by
  rw [wcOk_iff] at *
  obtain ⟨a, b, c⟩ := w
  refine ⟨a.sublist (List.filter_sublist.map _), fun e h => b e (List.mem_filter.1 h).1, fun k hk => ?_⟩
  exact le_trans ((List.filter_sublist.filter _).length_le) (c k hk)
theorem drop_bufOk (line : Nat) (w : bufOk m = true) : bufOk (dropEntry m line) = true := by
  exact wcOk_filter _ w
theorem writeLine_bufOk (line : Nat) (d : Bytes) (w : bufOk m = true) : bufOk (writeLine m line d) = true := w
theorem readChannel_wc (m : Mem) (line : Nat) : (readChannel m line).2.wc = m.wc := by
  unfold readChannel
  dsimp only
  split
  · rfl
  · split
    · rfl
    · split <;> rfl
theorem writeback_bufOk (line : Nat) (w : bufOk m = true) : bufOk (writeback m line) = true := by
  unfold writeback
  split <;> exact w
theorem readLine_wc (m : Mem) (line : Nat) : (readLine m line).2.wc = m.wc := by
  have h := readChannel_wc m line
  unfold readLine
  split
  · next e => rw [e] at h; exact h
  · next e => rw [e] at h; split <;> exact h
theorem readLines_wc (l : List Nat) : ∀ (m : Mem) (acc : Bytes), (readLines m l acc).2.wc = m.wc := by
  induction l with
  | nil => intros; rfl
  | cons x r ih =>
    intro m acc
    have h := readLine_wc m x
    unfold readLines
    split
    · next e => rw [e] at h; exact h
    · next e => rw [e] at h; rw [ih, ← h]
/-- A read changes no write-combining entry. -/
theorem read_wc (m : Mem) (a n : Nat) : (read m a n).2.wc = m.wc := by
  have h := readLines_wc ((List.range (linesOf a n)).map (a / 64 + ·)) m []
  unfold read
  split <;> (next e => rw [e] at h; exact h)
theorem flushEntry_wc (m : Mem) (e : WcEntry) : (flushEntry m e).1.wc = (dropEntry m e.line).wc := by
  unfold flushEntry
  dsimp only
  split
  · rfl
  · have h := readChannel_wc { dropEntry m e.line with owed := (dropEntry m e.line).owed ++ [e.cls] } e.line
    split <;> (next q => rw [q] at h; exact h)
theorem flushEntry_bufOk (e : WcEntry) (w : bufOk m = true) : bufOk (flushEntry m e).1 = true :=
  bufOk_of_wc (flushEntry_wc m e) (drop_bufOk _ w)
theorem flushWhere_bufOk (p : WcEntry → Bool) (w : bufOk m = true) : bufOk (flushWhere m p).1 = true := by
  unfold flushWhere
  generalize m.wc.filter p = l
  suffices h : ∀ (l : List WcEntry) (x : Mem × Lost), bufOk x.1 = true →
      bufOk (l.foldl (fun (m, l) e => let (m, k) := flushEntry m e; (m, l ++ k)) x).1 = true from h l (m, []) w
  intro l
  induction l with
  | nil => intro x h; exact h
  | cons e r ih => intro x h; exact ih _ (flushEntry_bufOk _ h)
theorem append_bufOk (e : WcEntry) (w : bufOk m = true) (h : ∀ x ∈ m.wc, x.line ≠ e.line) (hd : e.data.length = 64)
    (hm : e.mask < fullMask) (hc : (m.wc.filter fun x => channelOf (64 * x.line) == channelOf (64 * e.line)).length ≤ 31) :
    bufOk { m with wc := m.wc ++ [e] } = true := by
  rw [bufOk_iff] at *
  obtain ⟨a, b, c⟩ := w
  refine ⟨?_, ?_, ?_⟩
  · rw [List.map_append, List.nodup_append]
    refine ⟨a, by simp, ?_⟩
    rintro x hx y hy rfl
    obtain ⟨q, hq, rfl⟩ := List.mem_map.1 hx
    simp only [List.map_cons, List.map_nil, List.mem_singleton] at hy
    exact h q hq hy
  · intro x hx
    rcases List.mem_append.1 hx with hx | hx
    · exact b x hx
    · rw [List.mem_singleton.1 hx]; exact ⟨hd, hm⟩
  · intro k hk
    rw [List.filter_append, List.length_append]
    by_cases q : channelOf (64 * e.line) = k
    · subst q
      have : ([e].filter fun x => channelOf (64 * x.line) == channelOf (64 * e.line)).length = 1 := by simp
      omega
    · have : ([e].filter fun x => channelOf (64 * x.line) == k).length = 0 := by simp [q]
      have := c k hk
      omega

/-! ### Masks -/

theorem bit_eq (v i : Nat) : bit v i = v.testBit i := by
  unfold bit
  rw [Nat.testBit_eq_decide_div_mod_eq]
  by_cases h : v / 2 ^ i % 2 = 1 <;> simp [h]
theorem bit_maskOf (k n i : Nat) : bit (maskOf k n) i = decide (k ≤ i ∧ i < k + n) := by
  rw [bit_eq]
  unfold maskOf
  rw [Nat.testBit_mul_two_pow, Nat.testBit_two_pow_sub_one]
  by_cases h1 : k ≤ i <;> by_cases h2 : i < k + n <;> simp [h1, h2] <;> omega
theorem bit_or_maskOf (v k n i : Nat) : bit (v ||| maskOf k n) i = (bit v i || decide (k ≤ i ∧ i < k + n)) := by
  rw [bit_eq, Nat.testBit_or, ← bit_eq, ← bit_eq, bit_maskOf]
theorem maskOf_lt (k n : Nat) (h : k + n ≤ 64) : maskOf k n < 2 ^ 64 := by
  apply Nat.lt_pow_two_of_testBit
  intro i hi
  rw [← bit_eq, bit_maskOf]
  simp only [decide_eq_false_iff_not]
  omega
theorem lt_full {v : Nat} (h : v < 2 ^ 64) (n : v ≠ fullMask) : v < fullMask := by
  unfold fullMask at *; omega
theorem bit_full {v i : Nat} (h : v = fullMask) (hi : i < 64) : bit v i = true := by
  subst h
  rw [bit_eq]
  unfold fullMask
  rw [Nat.testBit_two_pow_sub_one]
  simp [hi]

/-! ### What a read sees -/

theorem seen_none {a : Nat} (h : entryOf m (a / 64) = none) : seen m a = byteAt m.bytes a := by unfold seen; rw [h]
theorem seen_some {a : Nat} {e : WcEntry} (h : entryOf m (a / 64) = some e) :
    seen m a = if bit e.mask (a % 64) then e.data.getD (a % 64) blank else byteAt m.bytes a := by unfold seen; rw [h]
/-- A whole line written over no entry. -/
theorem seen_writeLine (line : Nat) (d : Bytes) (h : entryOf m line = none) (a : Nat) :
    seen (writeLine m line d) a = if a / 64 = line then d.getD (a % 64) blank else seen m a := by
  have b : byteAt (writeLine m line d).bytes a = if a / 64 = line then d.getD (a % 64) blank else byteAt m.bytes a := by
    show byteAt (put m.bytes (64 * line) (slice d 0 64)) a = _
    rw [byteAt_put, length_slice]
    by_cases q : a / 64 = line
    · rw [if_pos (by omega), if_pos q]
      unfold blank
      rw [getD_slice, if_pos (by omega), Nat.zero_add]
      congr 1
      omega
    · rw [if_neg (by omega), if_neg q]
  have e : ∀ k, entryOf (writeLine m line d) k = entryOf m k := fun _ => rfl
  by_cases q : a / 64 = line
  · rw [seen_none (by rw [e, q]; exact h), b, if_pos q, if_pos q]
  · rw [if_neg q]
    unfold seen
    rw [e, b, if_neg q]
/-- A line whose entry goes, and which is written as a read saw it. -/
theorem readChannel_clean (h : m.errs = []) (line : Nat) : readChannel m line = (some (run m.bytes (64 * line) 64), m) := by
  unfold readChannel
  rw [h]
  rfl
theorem getD_run (b : List (Nat × Byte)) (a n i : Nat) : (run b a n).getD i blank = if i < n then byteAt b (a + i) else blank := by
  unfold run
  rw [List.getD_eq_getElem?_getD, List.getElem?_map]
  by_cases h : i < n
  · rw [List.getElem?_range h, if_pos h]; rfl
  · rw [List.getElem?_eq_none (by simpa using Nat.le_of_not_lt h), if_neg h]; rfl
theorem getD_overlay (e : WcEntry) (d : Bytes) (i : Nat) (h : i < d.length) :
    (overlay e d).getD i blank = if bit e.mask i then e.data.getD i blank else d.getD i blank := by
  unfold overlay
  rw [List.getD_eq_getElem?_getD, List.getElem?_map, List.getElem?_zipIdx, List.getElem?_eq_getElem h,
    List.getD_eq_getElem?_getD (l := d), List.getElem?_eq_getElem h]
  simp only [Option.map_some, Option.getD_some, Nat.zero_add]
  rfl
theorem length_run (b : List (Nat × Byte)) (a n : Nat) : (run b a n).length = n := by simp [run]
theorem length_overlay (e : WcEntry) (d : Bytes) : (overlay e d).length = d.length := by simp [overlay]

/-- Flushing the entry of a line changes nothing a read sees, and loses nothing, while no line holds an error pattern. -/
theorem flushEntry_clean (c : m.errs = []) {e : WcEntry} (h : entryOf m e.line = some e) :
    (flushEntry m e).2 = [] ∧ (flushEntry m e).1.errs = [] ∧ ∀ a, seen (flushEntry m e).1 a = seen m a := by
  have hn : entryOf (dropEntry m e.line) e.line = none := by rw [entryOf_drop, if_pos rfl]
  have key : ∀ a, a / 64 ≠ e.line → seen (dropEntry m e.line) a = seen m a := by
    intro a q
    unfold seen
    rw [entryOf_drop, if_neg q]
    rfl
  unfold flushEntry
  dsimp only
  split
  · next f =>
    refine ⟨rfl, by show Sparse.del m.errs e.line = []; rw [c]; rfl, fun a => ?_⟩
    rw [seen_writeLine _ _ hn]
    split
    · next q => rw [seen_some (e := e) (by rw [q]; exact h), bit_full f (Nat.mod_lt _ (by omega)), if_pos rfl]
    · next q => exact key a q
  · rw [readChannel_clean (by exact c)]
    refine ⟨rfl, by show Sparse.del m.errs e.line = []; rw [c]; rfl, fun a => ?_⟩
    show seen (writeLine (dropEntry m e.line) e.line (overlay e (run m.bytes (64 * e.line) 64))) a = _
    rw [seen_writeLine _ _ hn]
    split
    · next q =>
      have hi : a % 64 < 64 := Nat.mod_lt _ (by omega)
      rw [getD_overlay _ _ _ (by rw [length_run]; exact hi), getD_run, if_pos hi, seen_some (e := e) (by rw [q]; exact h)]
      have : 64 * e.line + a % 64 = a := by omega
      rw [this]
    · next q => exact key a q

theorem entryOf_place {e : WcEntry} (h : entryOf m e.line = none) (k : Nat) :
    entryOf (place m e) k = if k = e.line ∧ e.mask ≠ fullMask then some e else entryOf m k := by
  unfold place
  split
  · next f => rw [if_neg (fun q => q.2 f)]; rfl
  · next f =>
    rw [entryOf_append _ _ h]
    by_cases q : k = e.line
    · rw [if_pos q, if_pos ⟨q, f⟩]
    · rw [if_neg q, if_neg (fun z => q z.1)]
/-- An entry placed over its line, which has none: its written bytes are seen. -/
theorem seen_place {e : WcEntry} (h : entryOf m e.line = none) (a : Nat) :
    seen (place m e) a = if a / 64 = e.line ∧ bit e.mask (a % 64) = true then e.data.getD (a % 64) blank else seen m a := by
  by_cases f : e.mask = fullMask
  · unfold place
    rw [if_pos f, seen_writeLine _ _ h, bit_full f (Nat.mod_lt _ (by omega))]
    simp
  · by_cases q : a / 64 = e.line
    · rw [seen_some (e := e) (by rw [entryOf_place h, if_pos ⟨q, f⟩]), seen_none (by rw [q]; exact h)]
      unfold place
      rw [if_neg f]
      by_cases r : bit e.mask (a % 64) = true
      · rw [if_pos r, if_pos ⟨q, r⟩]
      · rw [if_neg r, if_neg (fun z => r z.2)]
    · rw [if_neg (fun z => q z.1)]
      unfold seen
      rw [entryOf_place h, if_neg (fun z => q z.1)]
      unfold place
      rw [if_neg f]
theorem place_errs (e : WcEntry) (c : m.errs = []) : (place m e).errs = [] := by
  unfold place
  split
  · show Sparse.del m.errs e.line = []
    rw [c]; rfl
  · exact c
theorem channelOf_lt (a : Nat) : channelOf a < 256 := by
  unfold channelOf
  exact Nat.xor_lt_two_pow (n := 8) (Nat.mod_lt _ (by omega)) (Nat.xor_lt_two_pow (Nat.xor_lt_two_pow (Nat.mod_lt _ (by omega))
    (Nat.mod_lt _ (by omega))) (lt_of_lt_of_le (Nat.mod_lt _ (by omega : (0:Nat) < 8)) (by omega)))
/-- The entries of the buffer that line's channel has. -/
def sameChannel (m : Mem) (line : Nat) : List WcEntry := m.wc.filter fun e => channelOf (64 * e.line) == channelOf (64 * line)
theorem place_bufOk {e : WcEntry} (w : bufOk m = true) (h : entryOf m e.line = none) (hd : e.data.length = 64)
    (hm : e.mask < 2 ^ 64) (hc : (sameChannel m e.line).length ≤ 31) : bufOk (place m e) = true := by
  unfold place
  split
  · exact writeLine_bufOk _ _ w
  · next f =>
    refine append_bufOk e w (fun x hx q => ?_) hd (lt_full hm f) hc
    have := List.find?_eq_none.1 h x hx
    simp [q] at this
theorem sameChannel_drop {e : WcEntry} (w : bufOk m = true) (he : e ∈ m.wc) {line : Nat}
    (q : channelOf (64 * e.line) = channelOf (64 * line)) : (sameChannel (dropEntry m e.line) line).length ≤ 31 := by
  obtain ⟨-, -, h3⟩ := bufOk_iff.1 w
  have h4 : (sameChannel m line).length ≤ 32 := h3 _ (channelOf_lt _)
  have h5 : (sameChannel (dropEntry m e.line) line).length < (sameChannel m line).length := by
    unfold sameChannel dropEntry
    dsimp only
    rw [List.filter_filter]
    have : (fun a : WcEntry => (channelOf (64 * a.line) == channelOf (64 * line)) && (a.line != e.line)) =
        fun a => (a.line != e.line) && (channelOf (64 * a.line) == channelOf (64 * line)) := by funext a; rw [Bool.and_comm]
    rw [this, ← List.filter_filter]
    exact List.length_filter_lt_length_iff_exists.2 ⟨e, List.mem_filter.2 ⟨he, by simp [q]⟩, by simp⟩
  omega
/-- Room for the line: nothing that a read sees changes. -/
theorem room_spec (w : bufOk m = true) {line : Nat} (h : entryOf m line = none) :
    bufOk (room m line).1 = true ∧ entryOf (room m line).1 line = none ∧ (sameChannel (room m line).1 line).length ≤ 31 ∧
    (m.errs = [] → (room m line).2 = [] ∧ (room m line).1.errs = [] ∧ ∀ a, seen (room m line).1 a = seen m a) := by
  unfold room
  dsimp only
  split
  · next f =>
    have hs : (sameChannel m line) = m.wc.filter fun e => channelOf (64 * e.line) == channelOf (64 * line) := rfl
    split
    · next old rest e =>
      have ho := List.mem_filter.1 (by rw [e]; exact List.mem_cons_self : old ∈ m.wc.filter _)
      have q : channelOf (64 * old.line) = channelOf (64 * line) := by simpa using ho.2
      obtain ⟨h1, -, -⟩ := bufOk_iff.1 w
      refine ⟨flushEntry_bufOk _ w, ?_, ?_, fun c => flushEntry_clean c (entryOf_of_mem h1 ho.1)⟩
      · unfold entryOf
        rw [flushEntry_wc]
        show entryOf (dropEntry m old.line) line = none
        rw [entryOf_drop]
        split
        · rfl
        · exact h
      · unfold sameChannel
        rw [flushEntry_wc]
        exact sameChannel_drop w ho.1 q
    · next e => rw [e] at f; simp at f
  · next f => exact ⟨w, h, Nat.le_of_lt_succ (Nat.lt_of_not_le f), fun c => ⟨rfl, c, fun _ => rfl⟩⟩
theorem dropEntry_seen {line a : Nat} (q : a / 64 ≠ line) : seen (dropEntry m line) a = seen m a := by
  unfold seen
  rw [entryOf_drop, if_neg q]
  rfl

/-- A write within one line: those bytes read as written, every other byte as before. -/
theorem mergeLine_spec (w : bufOk m = true) (o : Writer) (cls time line k : Nat) (b : Bytes) (hk : k + b.length ≤ 64) :
    bufOk (mergeLine m o cls time line k b).1 = true ∧ (m.errs = [] → (mergeLine m o cls time line k b).2 = [] ∧
      (mergeLine m o cls time line k b).1.errs = [] ∧ ∀ a, seen (mergeLine m o cls time line k b).1 a =
        if 64 * line + k ≤ a ∧ a < 64 * line + k + b.length then b.getD (a - (64 * line + k)) blank else seen m a) := by
  unfold mergeLine
  dsimp only
  generalize hg : ({ m with fixes := Sparse.del m.fixes line } : Mem) = n
  have hs : seen m = seen n := by subst hg; rfl
  have he : m.errs = n.errs := by subst hg; rfl
  have hw : bufOk n = true := by subst hg; exact w
  rw [hs, he]
  clear hs he hg w
  rename' n => m, hw => w
  have hn : entryOf (dropEntry m line) line = none := by rw [entryOf_drop, if_pos rfl]
  have hdel : ∀ l : Nat, m.errs = [] → Sparse.del m.errs l = [] := fun l c => by rw [c]; rfl
  split
  · next f =>
    obtain ⟨f1, f2⟩ := f
    refine ⟨writeLine_bufOk _ _ (drop_bufOk _ w), fun c => ⟨rfl, hdel _ c, fun a => ?_⟩⟩
    rw [seen_writeLine _ _ hn, f1, f2]
    by_cases q : a / 64 = line
    · rw [if_pos q, if_pos (by omega)]
      congr 1
      omega
    · rw [if_neg q, if_neg (by omega), dropEntry_seen q]
  split
  · next e he =>
    obtain ⟨hm, hl⟩ := entryOf_some he
    obtain ⟨-, w2, -⟩ := bufOk_iff.1 w
    obtain ⟨e1, e2⟩ := w2 e hm
    have Elt : (merged e o cls time k b).mask < 2 ^ 64 :=
      Nat.or_lt_two_pow (by unfold fullMask at e2; omega) (maskOf_lt _ _ hk)
    have hn' : entryOf (dropEntry m line) (merged e o cls time k b).line = none := by
      show entryOf _ e.line = none
      rw [hl]; exact hn
    refine ⟨place_bufOk (drop_bufOk _ w) hn' ?_ Elt ?_, fun c => ⟨rfl, place_errs _ c, fun a => ?_⟩⟩
    · show (splice e.data k b).length = 64
      rw [length_splice _ _ _ (by omega), e1]
    · show (sameChannel (dropEntry m line) e.line).length ≤ 31
      rw [hl]
      have := sameChannel_drop w hm (line := line) (by rw [hl])
      rwa [hl] at this
    · rw [seen_place hn']
      show (if a / 64 = e.line ∧ bit (e.mask ||| maskOf k b.length) (a % 64) = true then (splice e.data k b).getD (a % 64) blank else _) = _
      rw [hl, bit_or_maskOf]
      by_cases q : a / 64 = line
      · unfold blank
        rw [getD_splice, seen_none (by rw [q]; exact hn)]
        rw [seen_some (m := m) (e := e) (by rw [q]; exact he)]
        by_cases r : k ≤ a % 64 ∧ a % 64 < k + b.length
        · rw [if_pos r, if_pos (by simp [q, r]), if_pos (by omega)]
          congr 1
          omega
        · rw [if_neg r, if_neg (c := 64 * line + k ≤ a ∧ _) (by omega)]
          simp only [q, r, decide_false, Bool.or_false, true_and]
          rfl
      · rw [if_neg (fun z => q z.1), if_neg (by omega), dropEntry_seen q]
  · next he =>
    obtain ⟨r1, r2, r3, r4⟩ := room_spec w he
    have Elt : (merged ⟨line, zeros 64, 0, o.src, [], time, cls⟩ o cls time k b).mask < 2 ^ 64 :=
      Nat.or_lt_two_pow (by norm_num) (maskOf_lt _ _ hk)
    dsimp only
    refine ⟨place_bufOk r1 r2 ?_ Elt r3, fun c => ?_⟩
    · show (splice (zeros 64) k b).length = 64
      rw [length_splice _ _ _ (by simpa [zeros] using hk)]
      simp [zeros]
    · obtain ⟨c1, c2, c3⟩ := r4 c
      refine ⟨c1, place_errs _ c2, fun a => ?_⟩
      rw [seen_place r2]
      show (if a / 64 = line ∧ bit (0 ||| maskOf k b.length) (a % 64) = true then (splice (zeros 64) k b).getD (a % 64) blank else _) = _
      rw [bit_or_maskOf, c3]
      have z : bit 0 (a % 64) = false := by simp [bit]
      rw [z]
      by_cases q : a / 64 = line
      · unfold blank
        rw [getD_splice, getD_zeros]
        by_cases r : k ≤ a % 64 ∧ a % 64 < k + b.length
        · rw [if_pos r, if_pos (by simp [q, r]), if_pos (by omega)]
          congr 1
          omega
        · rw [if_neg r, if_neg (c := 64 * line + k ≤ a ∧ _) (by omega)]
          simp [r]
      · rw [if_neg (fun z => q z.1), if_neg (by omega)]

/-! ### Runs of bytes -/

theorem getD_slice_in (b : Bytes) (o n i : Nat) (h : i < n) : (slice b o n).getD i blank = b.getD (o + i) blank := by
  unfold blank
  rw [getD_slice, if_pos h]
/-- What the pieces of a run say: each lies in its line, and holds the run's bytes. -/
theorem mem_pieces {a : Nat} {b : Bytes} {p : Nat × Nat × Bytes} (h : p ∈ pieces a b) :
    p.2.1 + p.2.2.length ≤ 64 ∧ a ≤ 64 * p.1 + p.2.1 ∧ 64 * p.1 + p.2.1 + p.2.2.length ≤ a + b.length ∧
    ∀ i < p.2.2.length, p.2.2.getD i blank = b.getD (64 * p.1 + p.2.1 + i - a) blank := by
  unfold pieces at h
  dsimp only at h
  split at h
  · cases h
  · next hb =>
    obtain ⟨i, hi, rfl⟩ := List.mem_map.1 h
    have hi := List.mem_range.1 hi
    have hl : 0 < b.length := by
      rcases Nat.eq_zero_or_pos b.length with z | z
      · rw [List.eq_nil_of_length_eq_zero z] at hb; simp at hb
      · exact z
    dsimp only
    rw [length_slice]
    refine ⟨by omega, by omega, by omega, fun k hk => ?_⟩
    rw [getD_slice_in _ _ _ _ hk]
    congr 1
    omega
theorem pieces_cover {a : Nat} {b : Bytes} {x : Nat} (h1 : a ≤ x) (h2 : x < a + b.length) :
    ∃ p ∈ pieces a b, 64 * p.1 + p.2.1 ≤ x ∧ x < 64 * p.1 + p.2.1 + p.2.2.length := by
  have hb : b.isEmpty = false := by
    cases b with
    | nil => simp at h2; omega
    | cons _ _ => rfl
  refine ⟨(a / 64 + (x / 64 - a / 64), max a (64 * (a / 64 + (x / 64 - a / 64))) % 64,
    slice b (max a (64 * (a / 64 + (x / 64 - a / 64))) - a)
      (min (a + b.length) (64 * (a / 64 + (x / 64 - a / 64) + 1)) - max a (64 * (a / 64 + (x / 64 - a / 64))))), ?_, ?_⟩
  · unfold pieces
    dsimp only
    rw [hb, if_neg (by decide)]
    exact List.mem_map.2 ⟨x / 64 - a / 64, List.mem_range.2 (by omega), rfl⟩
  · dsimp only
    rw [length_slice]
    omega
/-- A write of a run: its bytes read as written, every other byte as before, and nothing is lost while no line holds an
error pattern. -/
theorem write_spec (w : bufOk m = true) (o : Writer) (cls time a : Nat) (b : Bytes) :
    bufOk (write m o cls time a b).1 = true ∧ (m.errs = [] → (write m o cls time a b).2 = [] ∧
      (write m o cls time a b).1.errs = [] ∧ ∀ x, seen (write m o cls time a b).1 x =
        if a ≤ x ∧ x < a + b.length then b.getD (x - a) blank else seen m x) := by
  unfold write
  -- over a prefix of the pieces: what one of them covers is written, the rest is as before
  have key : ∀ (l : List (Nat × Nat × Bytes)) (n : Mem) (q : Lost), (∀ p ∈ l, p ∈ pieces a b) → bufOk n = true →
      bufOk (l.foldl (fun (m, l) (line, k, x) => let (m, q) := mergeLine m o cls time line k x; (m, l ++ q)) (n, q)).1 = true ∧
      (n.errs = [] → (l.foldl (fun (m, l) (line, k, x) => let (m, q) := mergeLine m o cls time line k x; (m, l ++ q)) (n, q)).2 = q ∧
        (l.foldl (fun (m, l) (line, k, x) => let (m, q) := mergeLine m o cls time line k x; (m, l ++ q)) (n, q)).1.errs = [] ∧
        ∀ x, seen (l.foldl (fun (m, l) (line, k, x) => let (m, q) := mergeLine m o cls time line k x; (m, l ++ q)) (n, q)).1 x =
          if ∃ p ∈ l, 64 * p.1 + p.2.1 ≤ x ∧ x < 64 * p.1 + p.2.1 + p.2.2.length then b.getD (x - a) blank else seen n x) := by
    intro l
    induction l with
    | nil => intro n q _ hn; exact ⟨hn, fun c => ⟨rfl, c, fun x => by simp⟩⟩
    | cons p l ih =>
      intro n q hp hn
      obtain ⟨line, k, y⟩ := p
      obtain ⟨g1, g2, g3, g4⟩ := mem_pieces (hp _ List.mem_cons_self)
      obtain ⟨s1, s2⟩ := mergeLine_spec hn o cls time line k y g1
      obtain ⟨t1, t2⟩ := ih (mergeLine n o cls time line k y).1 (q ++ (mergeLine n o cls time line k y).2)
        (fun p h => hp p (List.mem_cons_of_mem _ h)) s1
      refine ⟨t1, fun c => ?_⟩
      obtain ⟨u1, u2, u3⟩ := s2 c
      obtain ⟨v1, v2, v3⟩ := t2 u2
      refine ⟨by rw [List.foldl_cons]; exact v1.trans (by rw [u1, List.append_nil]), v2, fun x => ?_⟩
      rw [List.foldl_cons]
      refine (v3 x).trans ?_
      by_cases h1 : ∃ p ∈ l, 64 * p.1 + p.2.1 ≤ x ∧ x < 64 * p.1 + p.2.1 + p.2.2.length
      · obtain ⟨p, hp1, hp2⟩ := h1
        rw [if_pos ⟨p, hp1, hp2⟩, if_pos ⟨p, List.mem_cons_of_mem _ hp1, hp2⟩]
      · rw [if_neg h1, u3]
        by_cases h2 : 64 * line + k ≤ x ∧ x < 64 * line + k + y.length
        · rw [if_pos h2, if_pos ⟨(line, k, y), List.mem_cons_self, h2⟩]
          have := g4 (x - (64 * line + k)) (by dsimp only; omega)
          dsimp only at this
          rw [this]
          congr 1
          dsimp only at g2
          omega
        · rw [if_neg h2, if_neg]
          rintro ⟨p, hp1, hp2⟩
          rcases List.mem_cons.1 hp1 with rfl | hp1
          · exact h2 hp2
          · exact h1 ⟨p, hp1, hp2⟩
  obtain ⟨k1, k2⟩ := key (pieces a b) m [] (fun _ h => h) w
  refine ⟨k1, fun c => ?_⟩
  obtain ⟨c1, c2, c3⟩ := k2 c
  refine ⟨c1, c2, fun x => (c3 x).trans ?_⟩
  by_cases h : a ≤ x ∧ x < a + b.length
  · rw [if_pos (pieces_cover h.1 h.2), if_pos h]
  · rw [if_neg h, if_neg]
    rintro ⟨p, hp, h1, h2⟩
    obtain ⟨-, g2, g3, -⟩ := mem_pieces hp
    exact h ⟨by omega, by omega⟩
/-- Flushes change nothing a read sees, and lose nothing, while no line holds an error pattern. -/
theorem flushWhere_clean (w : bufOk m = true) (c : m.errs = []) (p : WcEntry → Bool) :
    (flushWhere m p).2 = [] ∧ (flushWhere m p).1.errs = [] ∧ ∀ a, seen (flushWhere m p).1 a = seen m a := by
  unfold flushWhere
  have key : ∀ (l : List WcEntry) (n : Mem) (q : Lost), n.errs = [] → bufOk n = true → (l.map (·.line)).Nodup →
      (∀ e ∈ l, e ∈ n.wc) →
      (l.foldl (fun (m, l) e => let (m, k) := flushEntry m e; (m, l ++ k)) (n, q)).2 = q ∧
      (l.foldl (fun (m, l) e => let (m, k) := flushEntry m e; (m, l ++ k)) (n, q)).1.errs = [] ∧
      ∀ a, seen (l.foldl (fun (m, l) e => let (m, k) := flushEntry m e; (m, l ++ k)) (n, q)).1 a = seen n a := by
    intro l
    induction l with
    | nil => intro n q c _ _ _; exact ⟨rfl, c, fun _ => rfl⟩
    | cons e l ih =>
      intro n q c hn hl hm
      simp only [List.map_cons, List.nodup_cons, List.mem_map, not_exists, not_and] at hl
      obtain ⟨f1, f2, f3⟩ := flushEntry_clean c (entryOf_of_mem (bufOk_iff.1 hn).1 (hm e List.mem_cons_self))
      obtain ⟨g1, g2, g3⟩ := ih (flushEntry n e).1 (q ++ (flushEntry n e).2) f2 (flushEntry_bufOk _ hn) hl.2 (fun d hd => by
        rw [flushEntry_wc]
        exact List.mem_filter.2 ⟨hm d (List.mem_cons_of_mem _ hd), by simpa using hl.1 d hd⟩)
      exact ⟨g1.trans (by rw [f1, List.append_nil]), g2, fun a => (g3 a).trans (f3 a)⟩
  obtain ⟨h1, -, -⟩ := bufOk_iff.1 w
  exact key _ m [] c w (h1.sublist (List.filter_sublist.map _)) (fun e h => (List.mem_filter.1 h).1)

theorem readLine_clean (c : m.errs = []) (line : Nat) :
    readLine m line = (some ((List.range 64).map fun i => seen m (64 * line + i)), m) := by
  unfold readLine
  rw [readChannel_clean c]
  have bytes : ∀ (d : Bytes), d.length = 64 → (∀ i < 64, d.getD i blank = seen m (64 * line + i)) →
      d = (List.range 64).map fun i => seen m (64 * line + i) := by
    intro d h1 h2
    refine List.ext_getElem (by simp [h1]) fun i h3 h4 => ?_
    have := h2 i (by omega)
    rw [List.getD_eq_getElem?_getD, List.getElem?_eq_getElem h3] at this
    simpa using this
  have at' : ∀ i < 64, (64 * line + i) / 64 = line ∧ (64 * line + i) % 64 = i := fun i hi => by omega
  dsimp only
  split
  · next e =>
    rw [bytes (run m.bytes (64 * line) 64) (length_run _ _ _) fun i hi => by
      rw [getD_run, if_pos hi, seen_none (by rw [(at' i hi).1]; exact e)]]
  · next e he =>
    rw [bytes (overlay e (run m.bytes (64 * line) 64)) (by rw [length_overlay, length_run]) fun i hi => by
      rw [getD_overlay _ _ _ (by rw [length_run]; exact hi), getD_run, if_pos hi,
        seen_some (e := e) (by rw [(at' i hi).1]; exact he), (at' i hi).2]]
theorem readLines_clean (c : m.errs = []) (l : List Nat) (acc : Bytes) :
    readLines m l acc = (.ok (acc ++ l.flatMap fun k => (List.range 64).map fun i => seen m (64 * k + i)), m) := by
  induction l generalizing acc with
  | nil => simp [readLines]
  | cons k l ih =>
    unfold readLines
    rw [readLine_clean c]
    dsimp only
    rw [ih]
    simp
theorem flatMap_lines (f : Nat → Byte) (a n : Nat) :
    (((List.range n).map (a + ·)).flatMap fun k => (List.range 64).map fun i => f (64 * k + i)) =
      (List.range (64 * n)).map fun i => f (64 * a + i) := by
  induction n with
  | zero => rfl
  | succ n ih =>
    rw [List.range_succ (n := n), List.map_append, List.flatMap_append, ih, Nat.mul_succ, List.range_add, List.map_append]
    simp only [List.map_cons, List.map_nil, List.flatMap_cons, List.flatMap_nil, List.append_nil, List.map_map]
    congr 1
    refine List.map_congr_left fun i _ => ?_
    simp only [Function.comp]
    congr 1
    ring
/-- A read while no line holds an error pattern: the bytes seen, and memory as it was. -/
theorem read_clean (c : m.errs = []) (a n : Nat) :
    read m a n = (.ok ((List.range n).map fun i => seen m (a + i)), m) := by
  unfold read
  rw [readLines_clean c, List.nil_append, flatMap_lines]
  dsimp only
  congr 2
  refine List.ext_getElem (by rw [length_slice]; simp) fun i h3 h4 => ?_
  have hi : i < n := by simpa using h4
  have e := getD_slice ((List.range (64 * linesOf a n)).map fun i => seen m (64 * (a / 64) + i)) (a % 64) n i
  rw [if_pos hi, List.getD_eq_getElem?_getD, List.getElem?_eq_getElem h3] at e
  simp only [Option.getD_some] at e
  rw [e, List.getD_eq_getElem?_getD, List.getElem?_map, List.getElem?_range (by unfold linesOf; rw [if_neg (by omega)]; omega)]
  simp only [Option.map_some, Option.getD_some, List.getElem_map, List.getElem_range]
  congr 1
  omega

/-! ### Corrections on their way -/

theorem writeLine_fixes (m : Mem) (l : Nat) (d : Bytes) {line : Nat} (h : Sparse.get? m.fixes line = none) :
    Sparse.get? (writeLine m l d).fixes line = none := by
  show Sparse.get? (Sparse.del m.fixes l) line = none
  rw [Sparse.get_del]; split
  · rfl
  · exact h
theorem flushEntry_fixes (m : Mem) (e : WcEntry) {line : Nat} (h : Sparse.get? m.fixes line = none) :
    Sparse.get? (flushEntry m e).1.fixes line = none := by
  unfold flushEntry
  dsimp only
  split
  · exact writeLine_fixes _ _ _ h
  · have r : ∀ n : Mem, Sparse.get? n.fixes line = none →
        (readChannel n e.line).1 = none → Sparse.get? (readChannel n e.line).2.fixes line = none := by
      intro n q z
      unfold readChannel at z ⊢
      dsimp only at z ⊢
      split at z <;> (try cases z)
      split at z <;> (try cases z)
      · assumption
      · split at z <;> cases z
    have g : ∀ n : Mem, Sparse.get? n.fixes line = none → line ≠ e.line →
        Sparse.get? (readChannel n e.line).2.fixes line = none := by
      intro n q z
      unfold readChannel
      dsimp only
      split
      · exact q
      · split
        · exact q
        · split
          · exact q
          · exact (Sparse.get_put _ _ _ _).trans ((if_neg z).trans q)
    have h' : Sparse.get? ({ dropEntry m e.line with owed := (dropEntry m e.line).owed ++ [e.cls] } : Mem).fixes line = none := h
    generalize ({ dropEntry m e.line with owed := (dropEntry m e.line).owed ++ [e.cls] } : Mem) = n at h'
    have r := r n h'
    have g := g n h'
    generalize readChannel n e.line = x at r g
    obtain ⟨d, n'⟩ := x
    cases d with
    | none => exact r rfl
    | some d =>
      show Sparse.get? (Sparse.del n'.fixes e.line) line = none
      rw [Sparse.get_del]
      split
      · rfl
      · next z => exact g z
/-- A write that reaches the channel drops the correction of its line (R300). -/
theorem mergeLine_fixes (m : Mem) (w : Writer) (cls time line k : Nat) (b : Bytes) :
    Sparse.get? (mergeLine m w cls time line k b).1.fixes line = none := by
  have h0 : Sparse.get? ({ m with fixes := Sparse.del m.fixes line } : Mem).fixes line = none :=
    (Sparse.get_del _ _ _).trans (if_pos rfl)
  have hp : ∀ (n : Mem) (e : WcEntry), Sparse.get? n.fixes line = none → Sparse.get? (place n e).fixes line = none := by
    intro n e h
    unfold place
    split
    · exact writeLine_fixes _ _ _ h
    · exact h
  unfold mergeLine
  dsimp only
  generalize ({ m with fixes := Sparse.del m.fixes line } : Mem) = n at h0
  split
  · exact writeLine_fixes _ _ _ h0
  · split
    · exact hp _ _ h0
    · refine hp _ _ ?_
      unfold room
      dsimp only
      split
      · split
        · exact flushEntry_fixes _ _ h0
        · exact h0
      · exact h0

end Memory
end Machine
end Sys2Proof
end

