-- ==== Sys2Proof/Laws/State.lean ====
section
/-! SUPPORT. What each replacement of a block leaves: one lemma per field per replacement, true by unfolding. -/

namespace Sys2Proof
namespace Machine
namespace State

variable (s : State)

@[simp] theorem setPending_pending (v : List Instr) : (s.setPending v).pending = v := rfl
@[simp] theorem setPending_now (v : List Instr) : (s.setPending v).now = s.now := rfl
@[simp] theorem setPending_free (v : List Instr) : (s.setPending v).free = s.free := rfl
@[simp] theorem setPending_fuses (v : List Instr) : (s.setPending v).fuses = s.fuses := rfl
@[simp] theorem setPending_flash (v : List Instr) : (s.setPending v).flash = s.flash := rfl
@[simp] theorem setPending_pwr (v : List Instr) : (s.setPending v).pwr = s.pwr := rfl
@[simp] theorem setPending_bu (v : List Instr) : (s.setPending v).bu = s.bu := rfl
@[simp] theorem setPending_ident (v : List Instr) : (s.setPending v).ident = s.ident := rfl
@[simp] theorem setPending_host (v : List Instr) : (s.setPending v).host = s.host := rfl
@[simp] theorem setPending_mem (v : List Instr) : (s.setPending v).mem = s.mem := rfl
@[simp] theorem setPending_fab (v : List Instr) : (s.setPending v).fab = s.fab := rfl
@[simp] theorem setPending_ptp (v : List Instr) : (s.setPending v).ptp = s.ptp := rfl
@[simp] theorem setPending_sched (v : List Instr) : (s.setPending v).sched = s.sched := rfl
@[simp] theorem setPending_codec (v : List Instr) : (s.setPending v).codec = s.codec := rfl
@[simp] theorem setPending_cache (v : List Instr) : (s.setPending v).cache = s.cache := rfl
@[simp] theorem setPending_tm (v : List Instr) : (s.setPending v).tm = s.tm := rfl
@[simp] theorem setPending_log (v : List Instr) : (s.setPending v).log = s.log := rfl
@[simp] theorem setPending_mgmt (v : List Instr) : (s.setPending v).mgmt = s.mgmt := rfl
@[simp] theorem setPending_recov (v : List Instr) : (s.setPending v).recov = s.recov := rfl
@[simp] theorem setNow_pending (v : Nat) : (s.setNow v).pending = s.pending := rfl
@[simp] theorem setNow_now (v : Nat) : (s.setNow v).now = v := rfl
@[simp] theorem setNow_free (v : Nat) : (s.setNow v).free = s.free := rfl
@[simp] theorem setNow_fuses (v : Nat) : (s.setNow v).fuses = s.fuses := rfl
@[simp] theorem setNow_flash (v : Nat) : (s.setNow v).flash = s.flash := rfl
@[simp] theorem setNow_pwr (v : Nat) : (s.setNow v).pwr = s.pwr := rfl
@[simp] theorem setNow_bu (v : Nat) : (s.setNow v).bu = s.bu := rfl
@[simp] theorem setNow_ident (v : Nat) : (s.setNow v).ident = s.ident := rfl
@[simp] theorem setNow_host (v : Nat) : (s.setNow v).host = s.host := rfl
@[simp] theorem setNow_mem (v : Nat) : (s.setNow v).mem = s.mem := rfl
@[simp] theorem setNow_fab (v : Nat) : (s.setNow v).fab = s.fab := rfl
@[simp] theorem setNow_ptp (v : Nat) : (s.setNow v).ptp = s.ptp := rfl
@[simp] theorem setNow_sched (v : Nat) : (s.setNow v).sched = s.sched := rfl
@[simp] theorem setNow_codec (v : Nat) : (s.setNow v).codec = s.codec := rfl
@[simp] theorem setNow_cache (v : Nat) : (s.setNow v).cache = s.cache := rfl
@[simp] theorem setNow_tm (v : Nat) : (s.setNow v).tm = s.tm := rfl
@[simp] theorem setNow_log (v : Nat) : (s.setNow v).log = s.log := rfl
@[simp] theorem setNow_mgmt (v : Nat) : (s.setNow v).mgmt = s.mgmt := rfl
@[simp] theorem setNow_recov (v : Nat) : (s.setNow v).recov = s.recov := rfl
@[simp] theorem setFree_pending (v : Nat) : (s.setFree v).pending = s.pending := rfl
@[simp] theorem setFree_now (v : Nat) : (s.setFree v).now = s.now := rfl
@[simp] theorem setFree_free (v : Nat) : (s.setFree v).free = v := rfl
@[simp] theorem setFree_fuses (v : Nat) : (s.setFree v).fuses = s.fuses := rfl
@[simp] theorem setFree_flash (v : Nat) : (s.setFree v).flash = s.flash := rfl
@[simp] theorem setFree_pwr (v : Nat) : (s.setFree v).pwr = s.pwr := rfl
@[simp] theorem setFree_bu (v : Nat) : (s.setFree v).bu = s.bu := rfl
@[simp] theorem setFree_ident (v : Nat) : (s.setFree v).ident = s.ident := rfl
@[simp] theorem setFree_host (v : Nat) : (s.setFree v).host = s.host := rfl
@[simp] theorem setFree_mem (v : Nat) : (s.setFree v).mem = s.mem := rfl
@[simp] theorem setFree_fab (v : Nat) : (s.setFree v).fab = s.fab := rfl
@[simp] theorem setFree_ptp (v : Nat) : (s.setFree v).ptp = s.ptp := rfl
@[simp] theorem setFree_sched (v : Nat) : (s.setFree v).sched = s.sched := rfl
@[simp] theorem setFree_codec (v : Nat) : (s.setFree v).codec = s.codec := rfl
@[simp] theorem setFree_cache (v : Nat) : (s.setFree v).cache = s.cache := rfl
@[simp] theorem setFree_tm (v : Nat) : (s.setFree v).tm = s.tm := rfl
@[simp] theorem setFree_log (v : Nat) : (s.setFree v).log = s.log := rfl
@[simp] theorem setFree_mgmt (v : Nat) : (s.setFree v).mgmt = s.mgmt := rfl
@[simp] theorem setFree_recov (v : Nat) : (s.setFree v).recov = s.recov := rfl
@[simp] theorem setFuses_pending (v : Fuses) : (s.setFuses v).pending = s.pending := rfl
@[simp] theorem setFuses_now (v : Fuses) : (s.setFuses v).now = s.now := rfl
@[simp] theorem setFuses_free (v : Fuses) : (s.setFuses v).free = s.free := rfl
@[simp] theorem setFuses_fuses (v : Fuses) : (s.setFuses v).fuses = v := rfl
@[simp] theorem setFuses_flash (v : Fuses) : (s.setFuses v).flash = s.flash := rfl
@[simp] theorem setFuses_pwr (v : Fuses) : (s.setFuses v).pwr = s.pwr := rfl
@[simp] theorem setFuses_bu (v : Fuses) : (s.setFuses v).bu = s.bu := rfl
@[simp] theorem setFuses_ident (v : Fuses) : (s.setFuses v).ident = s.ident := rfl
@[simp] theorem setFuses_host (v : Fuses) : (s.setFuses v).host = s.host := rfl
@[simp] theorem setFuses_mem (v : Fuses) : (s.setFuses v).mem = s.mem := rfl
@[simp] theorem setFuses_fab (v : Fuses) : (s.setFuses v).fab = s.fab := rfl
@[simp] theorem setFuses_ptp (v : Fuses) : (s.setFuses v).ptp = s.ptp := rfl
@[simp] theorem setFuses_sched (v : Fuses) : (s.setFuses v).sched = s.sched := rfl
@[simp] theorem setFuses_codec (v : Fuses) : (s.setFuses v).codec = s.codec := rfl
@[simp] theorem setFuses_cache (v : Fuses) : (s.setFuses v).cache = s.cache := rfl
@[simp] theorem setFuses_tm (v : Fuses) : (s.setFuses v).tm = s.tm := rfl
@[simp] theorem setFuses_log (v : Fuses) : (s.setFuses v).log = s.log := rfl
@[simp] theorem setFuses_mgmt (v : Fuses) : (s.setFuses v).mgmt = s.mgmt := rfl
@[simp] theorem setFuses_recov (v : Fuses) : (s.setFuses v).recov = s.recov := rfl
@[simp] theorem setFlash_pending (v : Flash) : (s.setFlash v).pending = s.pending := rfl
@[simp] theorem setFlash_now (v : Flash) : (s.setFlash v).now = s.now := rfl
@[simp] theorem setFlash_free (v : Flash) : (s.setFlash v).free = s.free := rfl
@[simp] theorem setFlash_fuses (v : Flash) : (s.setFlash v).fuses = s.fuses := rfl
@[simp] theorem setFlash_flash (v : Flash) : (s.setFlash v).flash = v := rfl
@[simp] theorem setFlash_pwr (v : Flash) : (s.setFlash v).pwr = s.pwr := rfl
@[simp] theorem setFlash_bu (v : Flash) : (s.setFlash v).bu = s.bu := rfl
@[simp] theorem setFlash_ident (v : Flash) : (s.setFlash v).ident = s.ident := rfl
@[simp] theorem setFlash_host (v : Flash) : (s.setFlash v).host = s.host := rfl
@[simp] theorem setFlash_mem (v : Flash) : (s.setFlash v).mem = s.mem := rfl
@[simp] theorem setFlash_fab (v : Flash) : (s.setFlash v).fab = s.fab := rfl
@[simp] theorem setFlash_ptp (v : Flash) : (s.setFlash v).ptp = s.ptp := rfl
@[simp] theorem setFlash_sched (v : Flash) : (s.setFlash v).sched = s.sched := rfl
@[simp] theorem setFlash_codec (v : Flash) : (s.setFlash v).codec = s.codec := rfl
@[simp] theorem setFlash_cache (v : Flash) : (s.setFlash v).cache = s.cache := rfl
@[simp] theorem setFlash_tm (v : Flash) : (s.setFlash v).tm = s.tm := rfl
@[simp] theorem setFlash_log (v : Flash) : (s.setFlash v).log = s.log := rfl
@[simp] theorem setFlash_mgmt (v : Flash) : (s.setFlash v).mgmt = s.mgmt := rfl
@[simp] theorem setFlash_recov (v : Flash) : (s.setFlash v).recov = s.recov := rfl
@[simp] theorem setPwr_pending (v : Power) : (s.setPwr v).pending = s.pending := rfl
@[simp] theorem setPwr_now (v : Power) : (s.setPwr v).now = s.now := rfl
@[simp] theorem setPwr_free (v : Power) : (s.setPwr v).free = s.free := rfl
@[simp] theorem setPwr_fuses (v : Power) : (s.setPwr v).fuses = s.fuses := rfl
@[simp] theorem setPwr_flash (v : Power) : (s.setPwr v).flash = s.flash := rfl
@[simp] theorem setPwr_pwr (v : Power) : (s.setPwr v).pwr = v := rfl
@[simp] theorem setPwr_bu (v : Power) : (s.setPwr v).bu = s.bu := rfl
@[simp] theorem setPwr_ident (v : Power) : (s.setPwr v).ident = s.ident := rfl
@[simp] theorem setPwr_host (v : Power) : (s.setPwr v).host = s.host := rfl
@[simp] theorem setPwr_mem (v : Power) : (s.setPwr v).mem = s.mem := rfl
@[simp] theorem setPwr_fab (v : Power) : (s.setPwr v).fab = s.fab := rfl
@[simp] theorem setPwr_ptp (v : Power) : (s.setPwr v).ptp = s.ptp := rfl
@[simp] theorem setPwr_sched (v : Power) : (s.setPwr v).sched = s.sched := rfl
@[simp] theorem setPwr_codec (v : Power) : (s.setPwr v).codec = s.codec := rfl
@[simp] theorem setPwr_cache (v : Power) : (s.setPwr v).cache = s.cache := rfl
@[simp] theorem setPwr_tm (v : Power) : (s.setPwr v).tm = s.tm := rfl
@[simp] theorem setPwr_log (v : Power) : (s.setPwr v).log = s.log := rfl
@[simp] theorem setPwr_mgmt (v : Power) : (s.setPwr v).mgmt = s.mgmt := rfl
@[simp] theorem setPwr_recov (v : Power) : (s.setPwr v).recov = s.recov := rfl
@[simp] theorem setBu_pending (v : BringUp) : (s.setBu v).pending = s.pending := rfl
@[simp] theorem setBu_now (v : BringUp) : (s.setBu v).now = s.now := rfl
@[simp] theorem setBu_free (v : BringUp) : (s.setBu v).free = s.free := rfl
@[simp] theorem setBu_fuses (v : BringUp) : (s.setBu v).fuses = s.fuses := rfl
@[simp] theorem setBu_flash (v : BringUp) : (s.setBu v).flash = s.flash := rfl
@[simp] theorem setBu_pwr (v : BringUp) : (s.setBu v).pwr = s.pwr := rfl
@[simp] theorem setBu_bu (v : BringUp) : (s.setBu v).bu = v := rfl
@[simp] theorem setBu_ident (v : BringUp) : (s.setBu v).ident = s.ident := rfl
@[simp] theorem setBu_host (v : BringUp) : (s.setBu v).host = s.host := rfl
@[simp] theorem setBu_mem (v : BringUp) : (s.setBu v).mem = s.mem := rfl
@[simp] theorem setBu_fab (v : BringUp) : (s.setBu v).fab = s.fab := rfl
@[simp] theorem setBu_ptp (v : BringUp) : (s.setBu v).ptp = s.ptp := rfl
@[simp] theorem setBu_sched (v : BringUp) : (s.setBu v).sched = s.sched := rfl
@[simp] theorem setBu_codec (v : BringUp) : (s.setBu v).codec = s.codec := rfl
@[simp] theorem setBu_cache (v : BringUp) : (s.setBu v).cache = s.cache := rfl
@[simp] theorem setBu_tm (v : BringUp) : (s.setBu v).tm = s.tm := rfl
@[simp] theorem setBu_log (v : BringUp) : (s.setBu v).log = s.log := rfl
@[simp] theorem setBu_mgmt (v : BringUp) : (s.setBu v).mgmt = s.mgmt := rfl
@[simp] theorem setBu_recov (v : BringUp) : (s.setBu v).recov = s.recov := rfl
@[simp] theorem setIdent_pending (v : Ident) : (s.setIdent v).pending = s.pending := rfl
@[simp] theorem setIdent_now (v : Ident) : (s.setIdent v).now = s.now := rfl
@[simp] theorem setIdent_free (v : Ident) : (s.setIdent v).free = s.free := rfl
@[simp] theorem setIdent_fuses (v : Ident) : (s.setIdent v).fuses = s.fuses := rfl
@[simp] theorem setIdent_flash (v : Ident) : (s.setIdent v).flash = s.flash := rfl
@[simp] theorem setIdent_pwr (v : Ident) : (s.setIdent v).pwr = s.pwr := rfl
@[simp] theorem setIdent_bu (v : Ident) : (s.setIdent v).bu = s.bu := rfl
@[simp] theorem setIdent_ident (v : Ident) : (s.setIdent v).ident = v := rfl
@[simp] theorem setIdent_host (v : Ident) : (s.setIdent v).host = s.host := rfl
@[simp] theorem setIdent_mem (v : Ident) : (s.setIdent v).mem = s.mem := rfl
@[simp] theorem setIdent_fab (v : Ident) : (s.setIdent v).fab = s.fab := rfl
@[simp] theorem setIdent_ptp (v : Ident) : (s.setIdent v).ptp = s.ptp := rfl
@[simp] theorem setIdent_sched (v : Ident) : (s.setIdent v).sched = s.sched := rfl
@[simp] theorem setIdent_codec (v : Ident) : (s.setIdent v).codec = s.codec := rfl
@[simp] theorem setIdent_cache (v : Ident) : (s.setIdent v).cache = s.cache := rfl
@[simp] theorem setIdent_tm (v : Ident) : (s.setIdent v).tm = s.tm := rfl
@[simp] theorem setIdent_log (v : Ident) : (s.setIdent v).log = s.log := rfl
@[simp] theorem setIdent_mgmt (v : Ident) : (s.setIdent v).mgmt = s.mgmt := rfl
@[simp] theorem setIdent_recov (v : Ident) : (s.setIdent v).recov = s.recov := rfl
@[simp] theorem setHost_pending (v : HostIf) : (s.setHost v).pending = s.pending := rfl
@[simp] theorem setHost_now (v : HostIf) : (s.setHost v).now = s.now := rfl
@[simp] theorem setHost_free (v : HostIf) : (s.setHost v).free = s.free := rfl
@[simp] theorem setHost_fuses (v : HostIf) : (s.setHost v).fuses = s.fuses := rfl
@[simp] theorem setHost_flash (v : HostIf) : (s.setHost v).flash = s.flash := rfl
@[simp] theorem setHost_pwr (v : HostIf) : (s.setHost v).pwr = s.pwr := rfl
@[simp] theorem setHost_bu (v : HostIf) : (s.setHost v).bu = s.bu := rfl
@[simp] theorem setHost_ident (v : HostIf) : (s.setHost v).ident = s.ident := rfl
@[simp] theorem setHost_host (v : HostIf) : (s.setHost v).host = v := rfl
@[simp] theorem setHost_mem (v : HostIf) : (s.setHost v).mem = s.mem := rfl
@[simp] theorem setHost_fab (v : HostIf) : (s.setHost v).fab = s.fab := rfl
@[simp] theorem setHost_ptp (v : HostIf) : (s.setHost v).ptp = s.ptp := rfl
@[simp] theorem setHost_sched (v : HostIf) : (s.setHost v).sched = s.sched := rfl
@[simp] theorem setHost_codec (v : HostIf) : (s.setHost v).codec = s.codec := rfl
@[simp] theorem setHost_cache (v : HostIf) : (s.setHost v).cache = s.cache := rfl
@[simp] theorem setHost_tm (v : HostIf) : (s.setHost v).tm = s.tm := rfl
@[simp] theorem setHost_log (v : HostIf) : (s.setHost v).log = s.log := rfl
@[simp] theorem setHost_mgmt (v : HostIf) : (s.setHost v).mgmt = s.mgmt := rfl
@[simp] theorem setHost_recov (v : HostIf) : (s.setHost v).recov = s.recov := rfl
@[simp] theorem setMem_pending (v : Mem) : (s.setMem v).pending = s.pending := rfl
@[simp] theorem setMem_now (v : Mem) : (s.setMem v).now = s.now := rfl
@[simp] theorem setMem_free (v : Mem) : (s.setMem v).free = s.free := rfl
@[simp] theorem setMem_fuses (v : Mem) : (s.setMem v).fuses = s.fuses := rfl
@[simp] theorem setMem_flash (v : Mem) : (s.setMem v).flash = s.flash := rfl
@[simp] theorem setMem_pwr (v : Mem) : (s.setMem v).pwr = s.pwr := rfl
@[simp] theorem setMem_bu (v : Mem) : (s.setMem v).bu = s.bu := rfl
@[simp] theorem setMem_ident (v : Mem) : (s.setMem v).ident = s.ident := rfl
@[simp] theorem setMem_host (v : Mem) : (s.setMem v).host = s.host := rfl
@[simp] theorem setMem_mem (v : Mem) : (s.setMem v).mem = v := rfl
@[simp] theorem setMem_fab (v : Mem) : (s.setMem v).fab = s.fab := rfl
@[simp] theorem setMem_ptp (v : Mem) : (s.setMem v).ptp = s.ptp := rfl
@[simp] theorem setMem_sched (v : Mem) : (s.setMem v).sched = s.sched := rfl
@[simp] theorem setMem_codec (v : Mem) : (s.setMem v).codec = s.codec := rfl
@[simp] theorem setMem_cache (v : Mem) : (s.setMem v).cache = s.cache := rfl
@[simp] theorem setMem_tm (v : Mem) : (s.setMem v).tm = s.tm := rfl
@[simp] theorem setMem_log (v : Mem) : (s.setMem v).log = s.log := rfl
@[simp] theorem setMem_mgmt (v : Mem) : (s.setMem v).mgmt = s.mgmt := rfl
@[simp] theorem setMem_recov (v : Mem) : (s.setMem v).recov = s.recov := rfl
@[simp] theorem setFab_pending (v : Fabric) : (s.setFab v).pending = s.pending := rfl
@[simp] theorem setFab_now (v : Fabric) : (s.setFab v).now = s.now := rfl
@[simp] theorem setFab_free (v : Fabric) : (s.setFab v).free = s.free := rfl
@[simp] theorem setFab_fuses (v : Fabric) : (s.setFab v).fuses = s.fuses := rfl
@[simp] theorem setFab_flash (v : Fabric) : (s.setFab v).flash = s.flash := rfl
@[simp] theorem setFab_pwr (v : Fabric) : (s.setFab v).pwr = s.pwr := rfl
@[simp] theorem setFab_bu (v : Fabric) : (s.setFab v).bu = s.bu := rfl
@[simp] theorem setFab_ident (v : Fabric) : (s.setFab v).ident = s.ident := rfl
@[simp] theorem setFab_host (v : Fabric) : (s.setFab v).host = s.host := rfl
@[simp] theorem setFab_mem (v : Fabric) : (s.setFab v).mem = s.mem := rfl
@[simp] theorem setFab_fab (v : Fabric) : (s.setFab v).fab = v := rfl
@[simp] theorem setFab_ptp (v : Fabric) : (s.setFab v).ptp = s.ptp := rfl
@[simp] theorem setFab_sched (v : Fabric) : (s.setFab v).sched = s.sched := rfl
@[simp] theorem setFab_codec (v : Fabric) : (s.setFab v).codec = s.codec := rfl
@[simp] theorem setFab_cache (v : Fabric) : (s.setFab v).cache = s.cache := rfl
@[simp] theorem setFab_tm (v : Fabric) : (s.setFab v).tm = s.tm := rfl
@[simp] theorem setFab_log (v : Fabric) : (s.setFab v).log = s.log := rfl
@[simp] theorem setFab_mgmt (v : Fabric) : (s.setFab v).mgmt = s.mgmt := rfl
@[simp] theorem setFab_recov (v : Fabric) : (s.setFab v).recov = s.recov := rfl
@[simp] theorem setPtp_pending (v : Ptp) : (s.setPtp v).pending = s.pending := rfl
@[simp] theorem setPtp_now (v : Ptp) : (s.setPtp v).now = s.now := rfl
@[simp] theorem setPtp_free (v : Ptp) : (s.setPtp v).free = s.free := rfl
@[simp] theorem setPtp_fuses (v : Ptp) : (s.setPtp v).fuses = s.fuses := rfl
@[simp] theorem setPtp_flash (v : Ptp) : (s.setPtp v).flash = s.flash := rfl
@[simp] theorem setPtp_pwr (v : Ptp) : (s.setPtp v).pwr = s.pwr := rfl
@[simp] theorem setPtp_bu (v : Ptp) : (s.setPtp v).bu = s.bu := rfl
@[simp] theorem setPtp_ident (v : Ptp) : (s.setPtp v).ident = s.ident := rfl
@[simp] theorem setPtp_host (v : Ptp) : (s.setPtp v).host = s.host := rfl
@[simp] theorem setPtp_mem (v : Ptp) : (s.setPtp v).mem = s.mem := rfl
@[simp] theorem setPtp_fab (v : Ptp) : (s.setPtp v).fab = s.fab := rfl
@[simp] theorem setPtp_ptp (v : Ptp) : (s.setPtp v).ptp = v := rfl
@[simp] theorem setPtp_sched (v : Ptp) : (s.setPtp v).sched = s.sched := rfl
@[simp] theorem setPtp_codec (v : Ptp) : (s.setPtp v).codec = s.codec := rfl
@[simp] theorem setPtp_cache (v : Ptp) : (s.setPtp v).cache = s.cache := rfl
@[simp] theorem setPtp_tm (v : Ptp) : (s.setPtp v).tm = s.tm := rfl
@[simp] theorem setPtp_log (v : Ptp) : (s.setPtp v).log = s.log := rfl
@[simp] theorem setPtp_mgmt (v : Ptp) : (s.setPtp v).mgmt = s.mgmt := rfl
@[simp] theorem setPtp_recov (v : Ptp) : (s.setPtp v).recov = s.recov := rfl
@[simp] theorem setSched_pending (v : Sched) : (s.setSched v).pending = s.pending := rfl
@[simp] theorem setSched_now (v : Sched) : (s.setSched v).now = s.now := rfl
@[simp] theorem setSched_free (v : Sched) : (s.setSched v).free = s.free := rfl
@[simp] theorem setSched_fuses (v : Sched) : (s.setSched v).fuses = s.fuses := rfl
@[simp] theorem setSched_flash (v : Sched) : (s.setSched v).flash = s.flash := rfl
@[simp] theorem setSched_pwr (v : Sched) : (s.setSched v).pwr = s.pwr := rfl
@[simp] theorem setSched_bu (v : Sched) : (s.setSched v).bu = s.bu := rfl
@[simp] theorem setSched_ident (v : Sched) : (s.setSched v).ident = s.ident := rfl
@[simp] theorem setSched_host (v : Sched) : (s.setSched v).host = s.host := rfl
@[simp] theorem setSched_mem (v : Sched) : (s.setSched v).mem = s.mem := rfl
@[simp] theorem setSched_fab (v : Sched) : (s.setSched v).fab = s.fab := rfl
@[simp] theorem setSched_ptp (v : Sched) : (s.setSched v).ptp = s.ptp := rfl
@[simp] theorem setSched_sched (v : Sched) : (s.setSched v).sched = v := rfl
@[simp] theorem setSched_codec (v : Sched) : (s.setSched v).codec = s.codec := rfl
@[simp] theorem setSched_cache (v : Sched) : (s.setSched v).cache = s.cache := rfl
@[simp] theorem setSched_tm (v : Sched) : (s.setSched v).tm = s.tm := rfl
@[simp] theorem setSched_log (v : Sched) : (s.setSched v).log = s.log := rfl
@[simp] theorem setSched_mgmt (v : Sched) : (s.setSched v).mgmt = s.mgmt := rfl
@[simp] theorem setSched_recov (v : Sched) : (s.setSched v).recov = s.recov := rfl
@[simp] theorem setCodec_pending (v : Codec) : (s.setCodec v).pending = s.pending := rfl
@[simp] theorem setCodec_now (v : Codec) : (s.setCodec v).now = s.now := rfl
@[simp] theorem setCodec_free (v : Codec) : (s.setCodec v).free = s.free := rfl
@[simp] theorem setCodec_fuses (v : Codec) : (s.setCodec v).fuses = s.fuses := rfl
@[simp] theorem setCodec_flash (v : Codec) : (s.setCodec v).flash = s.flash := rfl
@[simp] theorem setCodec_pwr (v : Codec) : (s.setCodec v).pwr = s.pwr := rfl
@[simp] theorem setCodec_bu (v : Codec) : (s.setCodec v).bu = s.bu := rfl
@[simp] theorem setCodec_ident (v : Codec) : (s.setCodec v).ident = s.ident := rfl
@[simp] theorem setCodec_host (v : Codec) : (s.setCodec v).host = s.host := rfl
@[simp] theorem setCodec_mem (v : Codec) : (s.setCodec v).mem = s.mem := rfl
@[simp] theorem setCodec_fab (v : Codec) : (s.setCodec v).fab = s.fab := rfl
@[simp] theorem setCodec_ptp (v : Codec) : (s.setCodec v).ptp = s.ptp := rfl
@[simp] theorem setCodec_sched (v : Codec) : (s.setCodec v).sched = s.sched := rfl
@[simp] theorem setCodec_codec (v : Codec) : (s.setCodec v).codec = v := rfl
@[simp] theorem setCodec_cache (v : Codec) : (s.setCodec v).cache = s.cache := rfl
@[simp] theorem setCodec_tm (v : Codec) : (s.setCodec v).tm = s.tm := rfl
@[simp] theorem setCodec_log (v : Codec) : (s.setCodec v).log = s.log := rfl
@[simp] theorem setCodec_mgmt (v : Codec) : (s.setCodec v).mgmt = s.mgmt := rfl
@[simp] theorem setCodec_recov (v : Codec) : (s.setCodec v).recov = s.recov := rfl
@[simp] theorem setCache_pending (v : Cache) : (s.setCache v).pending = s.pending := rfl
@[simp] theorem setCache_now (v : Cache) : (s.setCache v).now = s.now := rfl
@[simp] theorem setCache_free (v : Cache) : (s.setCache v).free = s.free := rfl
@[simp] theorem setCache_fuses (v : Cache) : (s.setCache v).fuses = s.fuses := rfl
@[simp] theorem setCache_flash (v : Cache) : (s.setCache v).flash = s.flash := rfl
@[simp] theorem setCache_pwr (v : Cache) : (s.setCache v).pwr = s.pwr := rfl
@[simp] theorem setCache_bu (v : Cache) : (s.setCache v).bu = s.bu := rfl
@[simp] theorem setCache_ident (v : Cache) : (s.setCache v).ident = s.ident := rfl
@[simp] theorem setCache_host (v : Cache) : (s.setCache v).host = s.host := rfl
@[simp] theorem setCache_mem (v : Cache) : (s.setCache v).mem = s.mem := rfl
@[simp] theorem setCache_fab (v : Cache) : (s.setCache v).fab = s.fab := rfl
@[simp] theorem setCache_ptp (v : Cache) : (s.setCache v).ptp = s.ptp := rfl
@[simp] theorem setCache_sched (v : Cache) : (s.setCache v).sched = s.sched := rfl
@[simp] theorem setCache_codec (v : Cache) : (s.setCache v).codec = s.codec := rfl
@[simp] theorem setCache_cache (v : Cache) : (s.setCache v).cache = v := rfl
@[simp] theorem setCache_tm (v : Cache) : (s.setCache v).tm = s.tm := rfl
@[simp] theorem setCache_log (v : Cache) : (s.setCache v).log = s.log := rfl
@[simp] theorem setCache_mgmt (v : Cache) : (s.setCache v).mgmt = s.mgmt := rfl
@[simp] theorem setCache_recov (v : Cache) : (s.setCache v).recov = s.recov := rfl
@[simp] theorem setTm_pending (v : Tm) : (s.setTm v).pending = s.pending := rfl
@[simp] theorem setTm_now (v : Tm) : (s.setTm v).now = s.now := rfl
@[simp] theorem setTm_free (v : Tm) : (s.setTm v).free = s.free := rfl
@[simp] theorem setTm_fuses (v : Tm) : (s.setTm v).fuses = s.fuses := rfl
@[simp] theorem setTm_flash (v : Tm) : (s.setTm v).flash = s.flash := rfl
@[simp] theorem setTm_pwr (v : Tm) : (s.setTm v).pwr = s.pwr := rfl
@[simp] theorem setTm_bu (v : Tm) : (s.setTm v).bu = s.bu := rfl
@[simp] theorem setTm_ident (v : Tm) : (s.setTm v).ident = s.ident := rfl
@[simp] theorem setTm_host (v : Tm) : (s.setTm v).host = s.host := rfl
@[simp] theorem setTm_mem (v : Tm) : (s.setTm v).mem = s.mem := rfl
@[simp] theorem setTm_fab (v : Tm) : (s.setTm v).fab = s.fab := rfl
@[simp] theorem setTm_ptp (v : Tm) : (s.setTm v).ptp = s.ptp := rfl
@[simp] theorem setTm_sched (v : Tm) : (s.setTm v).sched = s.sched := rfl
@[simp] theorem setTm_codec (v : Tm) : (s.setTm v).codec = s.codec := rfl
@[simp] theorem setTm_cache (v : Tm) : (s.setTm v).cache = s.cache := rfl
@[simp] theorem setTm_tm (v : Tm) : (s.setTm v).tm = v := rfl
@[simp] theorem setTm_log (v : Tm) : (s.setTm v).log = s.log := rfl
@[simp] theorem setTm_mgmt (v : Tm) : (s.setTm v).mgmt = s.mgmt := rfl
@[simp] theorem setTm_recov (v : Tm) : (s.setTm v).recov = s.recov := rfl
@[simp] theorem setLog_pending (v : EvLog) : (s.setLog v).pending = s.pending := rfl
@[simp] theorem setLog_now (v : EvLog) : (s.setLog v).now = s.now := rfl
@[simp] theorem setLog_free (v : EvLog) : (s.setLog v).free = s.free := rfl
@[simp] theorem setLog_fuses (v : EvLog) : (s.setLog v).fuses = s.fuses := rfl
@[simp] theorem setLog_flash (v : EvLog) : (s.setLog v).flash = s.flash := rfl
@[simp] theorem setLog_pwr (v : EvLog) : (s.setLog v).pwr = s.pwr := rfl
@[simp] theorem setLog_bu (v : EvLog) : (s.setLog v).bu = s.bu := rfl
@[simp] theorem setLog_ident (v : EvLog) : (s.setLog v).ident = s.ident := rfl
@[simp] theorem setLog_host (v : EvLog) : (s.setLog v).host = s.host := rfl
@[simp] theorem setLog_mem (v : EvLog) : (s.setLog v).mem = s.mem := rfl
@[simp] theorem setLog_fab (v : EvLog) : (s.setLog v).fab = s.fab := rfl
@[simp] theorem setLog_ptp (v : EvLog) : (s.setLog v).ptp = s.ptp := rfl
@[simp] theorem setLog_sched (v : EvLog) : (s.setLog v).sched = s.sched := rfl
@[simp] theorem setLog_codec (v : EvLog) : (s.setLog v).codec = s.codec := rfl
@[simp] theorem setLog_cache (v : EvLog) : (s.setLog v).cache = s.cache := rfl
@[simp] theorem setLog_tm (v : EvLog) : (s.setLog v).tm = s.tm := rfl
@[simp] theorem setLog_log (v : EvLog) : (s.setLog v).log = v := rfl
@[simp] theorem setLog_mgmt (v : EvLog) : (s.setLog v).mgmt = s.mgmt := rfl
@[simp] theorem setLog_recov (v : EvLog) : (s.setLog v).recov = s.recov := rfl
@[simp] theorem setMgmt_pending (v : Mgmt) : (s.setMgmt v).pending = s.pending := rfl
@[simp] theorem setMgmt_now (v : Mgmt) : (s.setMgmt v).now = s.now := rfl
@[simp] theorem setMgmt_free (v : Mgmt) : (s.setMgmt v).free = s.free := rfl
@[simp] theorem setMgmt_fuses (v : Mgmt) : (s.setMgmt v).fuses = s.fuses := rfl
@[simp] theorem setMgmt_flash (v : Mgmt) : (s.setMgmt v).flash = s.flash := rfl
@[simp] theorem setMgmt_pwr (v : Mgmt) : (s.setMgmt v).pwr = s.pwr := rfl
@[simp] theorem setMgmt_bu (v : Mgmt) : (s.setMgmt v).bu = s.bu := rfl
@[simp] theorem setMgmt_ident (v : Mgmt) : (s.setMgmt v).ident = s.ident := rfl
@[simp] theorem setMgmt_host (v : Mgmt) : (s.setMgmt v).host = s.host := rfl
@[simp] theorem setMgmt_mem (v : Mgmt) : (s.setMgmt v).mem = s.mem := rfl
@[simp] theorem setMgmt_fab (v : Mgmt) : (s.setMgmt v).fab = s.fab := rfl
@[simp] theorem setMgmt_ptp (v : Mgmt) : (s.setMgmt v).ptp = s.ptp := rfl
@[simp] theorem setMgmt_sched (v : Mgmt) : (s.setMgmt v).sched = s.sched := rfl
@[simp] theorem setMgmt_codec (v : Mgmt) : (s.setMgmt v).codec = s.codec := rfl
@[simp] theorem setMgmt_cache (v : Mgmt) : (s.setMgmt v).cache = s.cache := rfl
@[simp] theorem setMgmt_tm (v : Mgmt) : (s.setMgmt v).tm = s.tm := rfl
@[simp] theorem setMgmt_log (v : Mgmt) : (s.setMgmt v).log = s.log := rfl
@[simp] theorem setMgmt_mgmt (v : Mgmt) : (s.setMgmt v).mgmt = v := rfl
@[simp] theorem setMgmt_recov (v : Mgmt) : (s.setMgmt v).recov = s.recov := rfl
@[simp] theorem setRecov_pending (v : Option RecArea) : (s.setRecov v).pending = s.pending := rfl
@[simp] theorem setRecov_now (v : Option RecArea) : (s.setRecov v).now = s.now := rfl
@[simp] theorem setRecov_free (v : Option RecArea) : (s.setRecov v).free = s.free := rfl
@[simp] theorem setRecov_fuses (v : Option RecArea) : (s.setRecov v).fuses = s.fuses := rfl
@[simp] theorem setRecov_flash (v : Option RecArea) : (s.setRecov v).flash = s.flash := rfl
@[simp] theorem setRecov_pwr (v : Option RecArea) : (s.setRecov v).pwr = s.pwr := rfl
@[simp] theorem setRecov_bu (v : Option RecArea) : (s.setRecov v).bu = s.bu := rfl
@[simp] theorem setRecov_ident (v : Option RecArea) : (s.setRecov v).ident = s.ident := rfl
@[simp] theorem setRecov_host (v : Option RecArea) : (s.setRecov v).host = s.host := rfl
@[simp] theorem setRecov_mem (v : Option RecArea) : (s.setRecov v).mem = s.mem := rfl
@[simp] theorem setRecov_fab (v : Option RecArea) : (s.setRecov v).fab = s.fab := rfl
@[simp] theorem setRecov_ptp (v : Option RecArea) : (s.setRecov v).ptp = s.ptp := rfl
@[simp] theorem setRecov_sched (v : Option RecArea) : (s.setRecov v).sched = s.sched := rfl
@[simp] theorem setRecov_codec (v : Option RecArea) : (s.setRecov v).codec = s.codec := rfl
@[simp] theorem setRecov_cache (v : Option RecArea) : (s.setRecov v).cache = s.cache := rfl
@[simp] theorem setRecov_tm (v : Option RecArea) : (s.setRecov v).tm = s.tm := rfl
@[simp] theorem setRecov_log (v : Option RecArea) : (s.setRecov v).log = s.log := rfl
@[simp] theorem setRecov_mgmt (v : Option RecArea) : (s.setRecov v).mgmt = s.mgmt := rfl
@[simp] theorem setRecov_recov (v : Option RecArea) : (s.setRecov v).recov = v := rfl

end State
end Machine
end Sys2Proof
end

