-- ==== Sys2Proof/Laws/Access.lean ====
section
/-! SUPPORT. What the shared operations over memory, budgets and ports do: one lemma an operation, while no line of memory
holds an error pattern. -/

namespace Sys2Proof
namespace Machine

open Bits Ops

variable {s : State}

/-! ### Budgets -/

theorem budgetAt_charge (c : Sched) (k n e j : Nat) : budgetAt (charge c k n e) j =
    if j = k then { budgetAt c k with curTxn := (budgetAt c k).curTxn + n, curE := (budgetAt c k).curE + 150000 * n + e }
    else budgetAt c j := by
  unfold charge budgetAt
  dsimp only
  rw [Sparse.getD_put]
theorem charge_eq (c : Sched) (k n e : Nat) : charge c k n e = { c with budgets := (charge c k n e).budgets } := rfl
theorem charges_eq (l : List Nat) (c : Sched) :
    l.foldl (fun c k => charge c k 2 0) c = { c with budgets := (l.foldl (fun c k => charge c k 2 0) c).budgets } := by
  induction l generalizing c with
  | nil => rfl
  | cons k l ih =>
    rw [List.foldl_cons]
    conv_lhs => rw [ih]
    rfl

/-- Counting for the stacks changes the budget counters alone. -/
theorem chargeStacks_eq (c : Sched) (m : Mem) (a n : Nat) :
    chargeStacks c m a n = { c with budgets := (chargeStacks c m a n).budgets } := by
  unfold chargeStacks
  split
  · rfl
  · generalize List.range (Memory.linesOf a n) = l
    induction l generalizing c with
    | nil => rfl
    | cons i l ih =>
      rw [List.foldl_cons]
      conv_lhs => rw [ih]
      dsimp only
      split <;> rfl

/-- Counting for the stacks leaves every class's budget. -/
theorem budgetAt_chargeStacks (c : Sched) (m : Mem) (a n k : Nat) (hk : k < 16) :
    budgetAt (chargeStacks c m a n) k = budgetAt c k := by
  unfold chargeStacks
  split
  · rfl
  · generalize List.range (Memory.linesOf a n) = l
    induction l generalizing c with
    | nil => rfl
    | cons i l ih =>
      rw [List.foldl_cons, ih]
      dsimp only
      split
      · rw [budgetAt_charge, if_neg (by omega)]
      · rfl

/-! ### Memory -/

/-- A read while no line holds an error pattern: the bytes seen; only the budget counters change. -/
theorem readMem_clean (h : memClean s) (k a n : Nat) :
    readMem s k a n = (.ok ((List.range n).map fun i => byteOf s (a + i)), s.setSched (chargeStacks (charge s.sched k (Memory.linesOf a n) 0) s.mem a n)) := by
  unfold readMem
  rw [Memory.read_clean h.1]
  rfl
theorem drain_eq (s : State) : drain s = { s with mem := { s.mem with owed := [] }, sched := { s.sched with budgets := (drain s).sched.budgets } } := by
  unfold drain
  split
  · next h =>
    have : s.mem.owed = [] := by simpa using h
    cases s
    rename_i mem _ _ _ _ _ _ _ _ _
    cases mem
    simp only at this
    subst this
    rfl
  · rw [charges_eq]; rfl
/-- A write while no line holds an error pattern: its bytes are seen, no other byte changes, nothing is lost, and only memory
and the budget counters change. -/
theorem writeMem_clean (h : memClean s) (w : Writer) (k a : Nat) (b : Bytes) :
    ∃ t, writeMem s w k a b = (t, []) ∧ memClean t ∧
      (∀ x, byteOf t x = if a ≤ x ∧ x < a + b.length then b.getD (x - a) 0 else byteOf s x) ∧
      t = { s with mem := t.mem, sched := { s.sched with budgets := t.sched.budgets } } := by
  obtain ⟨q1, q2⟩ := Memory.write_spec h.2 w k s.now a b
  obtain ⟨q2, q3, q4⟩ := q2 h.1
  unfold writeMem
  dsimp only
  rw [q2]
  refine ⟨_, rfl, ?_, fun x => ?_, ?_⟩
  · rw [drain_eq]; exact ⟨q3, q1⟩
  · rw [drain_eq]; exact q4 x
  · rw [drain_eq, chargeStacks_eq]; rfl

/-- A flush leaves no entry that it is for. -/
theorem flushWhere_gone (m : Mem) (p : WcEntry → Bool) : ∀ e ∈ (Memory.flushWhere m p).1.wc, p e = false := by
  unfold Memory.flushWhere
  have key : ∀ (l : List WcEntry) (q : Mem × Memory.Lost),
      (∀ x ∈ (l.foldl (fun (m, l) e => let (m, k) := Memory.flushEntry m e; (m, l ++ k)) q).1.wc, x ∈ q.1.wc ∧ x ∉ l) := by
    intro l
    induction l with
    | nil => intro q x hx; exact ⟨hx, by simp⟩
    | cons e l ih =>
      intro q x hx
      obtain ⟨h1, h2⟩ := ih _ x hx
      have h1 : x ∈ (Memory.flushEntry q.1 e).1.wc := h1
      rw [Memory.flushEntry_wc] at h1
      have h1 : x ∈ q.1.wc.filter (·.line != e.line) := h1
      rw [List.mem_filter] at h1
      refine ⟨h1.1, ?_⟩
      rw [List.mem_cons, not_or]
      refine ⟨fun z => ?_, h2⟩
      subst z
      simp at h1
  intro e he
  obtain ⟨h1, h2⟩ := key _ _ e he
  by_contra c
  exact h2 (List.mem_filter.2 ⟨h1, by simpa using c⟩)
/-- A flush while no line holds an error pattern: every byte reads as before, nothing is lost, no entry it is for is left,
and only memory and the budget counters change. -/
theorem flush_clean (h : memClean s) (p : WcEntry → Bool) :
    ∃ t, Ops.flushWhere s p = (t, []) ∧ memClean t ∧ (∀ x, byteOf t x = byteOf s x) ∧ (∀ e ∈ t.mem.wc, p e = false) ∧
      t = { s with mem := t.mem, sched := { s.sched with budgets := t.sched.budgets } } := by
  obtain ⟨q1, q2, q3⟩ := Memory.flushWhere_clean h.2 h.1 p
  have q4 := Memory.flushWhere_bufOk p h.2
  have q5 := flushWhere_gone s.mem p
  unfold Ops.flushWhere
  dsimp only
  rw [q1]
  refine ⟨_, rfl, ?_, fun x => ?_, ?_, ?_⟩
  · rw [drain_eq]; exact ⟨q2, q4⟩
  · rw [drain_eq]; exact q3 x
  · rw [drain_eq]; exact q5
  · rw [drain_eq]; rfl

end Machine
end Sys2Proof
end

