-- ==== Sys2Proof/Laws/Evolves.lean ====
section
/-! SUPPORT. What no effect of a command undoes (Evolves): the relation, and its lemmas for the replacements of a block
and the operations every family shares. -/

namespace Sys2Proof
namespace Machine

namespace Memory

/-- n is in canonical form, and its buffers are in order, if m's are. -/
def Keeps (m n : Mem) : Prop := (wf m = true → wf n = true) ∧ (bufOk m = true → bufOk n = true)

variable {m n : Mem}

@[simp] theorem keeps_refl (m : Mem) : Keeps m m := ⟨fun h => h, fun h => h⟩
theorem Keeps.trans {a b c : Mem} (h : Keeps a b) (g : Keeps b c) : Keeps a c := ⟨fun w => g.1 (h.1 w), fun w => g.2 (h.2 w)⟩
theorem keeps_of_bytes (h : n.bytes = m.bytes) (w : n.wc = m.wc) : Keeps m n := ⟨wf_of_bytes h, bufOk_of_wc w⟩
@[simp] theorem keeps_mk (b : List (Nat × Byte)) (e w f d c g i t r u v k q x y z) :
    Keeps m ⟨b, e, w, f, d, c, g, i, t, r, u, v, k, q, x, y, z⟩ ↔
      (wfBytes m.bytes = true → wfBytes b = true) ∧ (wcOk m.wc = true → wcOk w = true) := Iff.rfl
@[simp] theorem keeps_read (a k : Nat) : Keeps m (read m a k).2 := keeps_of_bytes (read_bytes m a k) (read_wc m a k)
@[simp] theorem keeps_readChannel (l : Nat) : Keeps m (readChannel m l).2 :=
  keeps_of_bytes (readChannel_bytes m l) (readChannel_wc m l)
@[simp] theorem keeps_write (w : Writer) (c t a : Nat) (b : Bytes) : Keeps m (write m w c t a b).1 :=
  ⟨write_wf m w c t a b, fun h => (write_spec h w c t a b).1⟩
@[simp] theorem keeps_flushWhere (p : WcEntry → Bool) : Keeps m (flushWhere m p).1 :=
  ⟨flushWhere_wf m p, flushWhere_bufOk p⟩
@[simp] theorem keeps_writeback (l : Nat) (h : Keeps m n) : Keeps m (writeback n l) :=
  ⟨fun w => writeback_wf n l (h.1 w), fun w => writeback_bufOk l (h.2 w)⟩
@[simp] theorem keeps_writeLine (l : Nat) (d : Bytes) (h : Keeps m n) : Keeps m (writeLine n l d) :=
  ⟨fun w => writeLine_wf n l d (h.1 w), h.2⟩

end Memory

theorem Evolves.refl (s : State) : Evolves s s := ⟨rfl, le_rfl, le_rfl, rfl, le_rfl, le_rfl, fun h => h, fun h => h⟩
theorem Evolves.trans {a b c : State} (h : Evolves a b) (g : Evolves b c) : Evolves a c :=
  ⟨g.queue.trans h.queue, h.clock.trans g.clock, h.values.trans g.values,
   by rw [g.fuses, h.fuses], h.svn.trans g.svn, h.log.trans g.log, fun m => g.mem (h.mem m), fun m => g.buf (h.buf m)⟩

variable {org s : State}

/-- A next state evolves from o; a fault or a refusal has none. -/
def OutEv (org : State) (x : Out) : Prop := ∀ t, x = .next t → Evolves org t
@[simp] theorem outEv_next {t : State} : OutEv org (.next t) ↔ Evolves org t :=
  ⟨fun h => h t rfl, fun h _ e => by cases e; exact h⟩
@[simp] theorem outEv_fault (f : Fault) : OutEv org (.fault f) := fun _ h => by cases h
@[simp] theorem outEv_refused (r : Refusal) : OutEv org (.refused r) := fun _ h => by cases h

@[simp] theorem ev_setFlash (v : Flash) : Evolves org (s.setFlash v) ↔ Evolves org s := ⟨fun h => ⟨h.1, h.2, h.3, h.4, h.5, h.6, h.7, h.8⟩, fun h => ⟨h.1, h.2, h.3, h.4, h.5, h.6, h.7, h.8⟩⟩
@[simp] theorem ev_setPwr (v : Power) : Evolves org (s.setPwr v) ↔ Evolves org s := ⟨fun h => ⟨h.1, h.2, h.3, h.4, h.5, h.6, h.7, h.8⟩, fun h => ⟨h.1, h.2, h.3, h.4, h.5, h.6, h.7, h.8⟩⟩
@[simp] theorem ev_setBu (v : BringUp) : Evolves org (s.setBu v) ↔ Evolves org s := ⟨fun h => ⟨h.1, h.2, h.3, h.4, h.5, h.6, h.7, h.8⟩, fun h => ⟨h.1, h.2, h.3, h.4, h.5, h.6, h.7, h.8⟩⟩
@[simp] theorem ev_setIdent (v : Ident) : Evolves org (s.setIdent v) ↔ Evolves org s := ⟨fun h => ⟨h.1, h.2, h.3, h.4, h.5, h.6, h.7, h.8⟩, fun h => ⟨h.1, h.2, h.3, h.4, h.5, h.6, h.7, h.8⟩⟩
@[simp] theorem ev_setHost (v : HostIf) : Evolves org (s.setHost v) ↔ Evolves org s := ⟨fun h => ⟨h.1, h.2, h.3, h.4, h.5, h.6, h.7, h.8⟩, fun h => ⟨h.1, h.2, h.3, h.4, h.5, h.6, h.7, h.8⟩⟩
@[simp] theorem ev_setFab (v : Fabric) : Evolves org (s.setFab v) ↔ Evolves org s := ⟨fun h => ⟨h.1, h.2, h.3, h.4, h.5, h.6, h.7, h.8⟩, fun h => ⟨h.1, h.2, h.3, h.4, h.5, h.6, h.7, h.8⟩⟩
@[simp] theorem ev_setPtp (v : Ptp) : Evolves org (s.setPtp v) ↔ Evolves org s := ⟨fun h => ⟨h.1, h.2, h.3, h.4, h.5, h.6, h.7, h.8⟩, fun h => ⟨h.1, h.2, h.3, h.4, h.5, h.6, h.7, h.8⟩⟩
@[simp] theorem ev_setSched (v : Sched) : Evolves org (s.setSched v) ↔ Evolves org s := ⟨fun h => ⟨h.1, h.2, h.3, h.4, h.5, h.6, h.7, h.8⟩, fun h => ⟨h.1, h.2, h.3, h.4, h.5, h.6, h.7, h.8⟩⟩
@[simp] theorem ev_setCodec (v : Codec) : Evolves org (s.setCodec v) ↔ Evolves org s := ⟨fun h => ⟨h.1, h.2, h.3, h.4, h.5, h.6, h.7, h.8⟩, fun h => ⟨h.1, h.2, h.3, h.4, h.5, h.6, h.7, h.8⟩⟩
@[simp] theorem ev_setCache (v : Cache) : Evolves org (s.setCache v) ↔ Evolves org s := ⟨fun h => ⟨h.1, h.2, h.3, h.4, h.5, h.6, h.7, h.8⟩, fun h => ⟨h.1, h.2, h.3, h.4, h.5, h.6, h.7, h.8⟩⟩
@[simp] theorem ev_setTm (v : Tm) : Evolves org (s.setTm v) ↔ Evolves org s := ⟨fun h => ⟨h.1, h.2, h.3, h.4, h.5, h.6, h.7, h.8⟩, fun h => ⟨h.1, h.2, h.3, h.4, h.5, h.6, h.7, h.8⟩⟩
@[simp] theorem ev_setMgmt (v : Mgmt) : Evolves org (s.setMgmt v) ↔ Evolves org s := ⟨fun h => ⟨h.1, h.2, h.3, h.4, h.5, h.6, h.7, h.8⟩, fun h => ⟨h.1, h.2, h.3, h.4, h.5, h.6, h.7, h.8⟩⟩
@[simp] theorem ev_setRecov (v : Option RecArea) : Evolves org (s.setRecov v) ↔ Evolves org s := ⟨fun h => ⟨h.1, h.2, h.3, h.4, h.5, h.6, h.7, h.8⟩, fun h => ⟨h.1, h.2, h.3, h.4, h.5, h.6, h.7, h.8⟩⟩
theorem ev_setMem {m : Mem} (h : Evolves org s) (w : Memory.Keeps s.mem m) :
    Evolves org (s.setMem m) := ⟨h.1, h.2, h.3, h.4, h.5, h.6, fun x => w.1 (h.7 x), fun x => w.2 (h.8 x)⟩
theorem ev_setLog {l : EvLog} (h : Evolves org s) (w : s.log.next ≤ l.next) : Evolves org (s.setLog l) :=
  ⟨h.1, h.2, h.3, h.4, h.5, h.6.trans w, h.7, h.8⟩
theorem ev_setFree {n : Nat} (h : Evolves org s) (w : s.free ≤ n) : Evolves org (s.setFree n) :=
  ⟨h.1, h.2, h.3.trans w, h.4, h.5, h.6, h.7, h.8⟩
theorem ev_setNow {n : Nat} (h : Evolves org s) (w : s.now ≤ n) : Evolves org (s.setNow n) :=
  ⟨h.1, h.2.trans w, h.3, h.4, h.5, h.6, h.7, h.8⟩
/-! The same in the form that simp can discharge. -/

@[simp] theorem ev_setMem' {m : Mem} (h : Evolves org s) (w : Memory.Keeps s.mem m = True) : Evolves org (s.setMem m) :=
  ev_setMem h (of_eq_true w)
@[simp] theorem ev_setLog' {l : EvLog} (h : Evolves org s) (w : (s.log.next ≤ l.next) = True) : Evolves org (s.setLog l) :=
  ev_setLog h (of_eq_true w)
@[simp] theorem ev_setFree' {n : Nat} (h : Evolves org s) (w : (s.free ≤ n) = True) : Evolves org (s.setFree n) :=
  ev_setFree h (of_eq_true w)
@[simp] theorem ev_setNow' {n : Nat} (h : Evolves org s) (w : (s.now ≤ n) = True) : Evolves org (s.setNow n) :=
  ev_setNow h (of_eq_true w)
@[simp] theorem ev_svn (h : Evolves org s) (n : Nat) :
    Evolves org (s.setFuses { s.fuses with svn := max s.fuses.svn n }) :=
  ⟨h.1, h.2, h.3, congrArg (fun f : Fuses => { f with svn := max s.fuses.svn n }) h.4, h.5.trans (Nat.le_max_left _ _), h.6, h.7, h.8⟩
@[simp] theorem ev_ite {c : Prop} [Decidable c] {a b : State} (h : Evolves org a) (g : Evolves org b) :
    Evolves org (if c then a else b) := by split <;> assumption
/-- The state of a pair, or of an option, that a call answers. -/
theorem snd_ev {α : Type} {p : α × State} {r : α} {t : State} (e : p = (r, t)) (h : Evolves org p.2) : Evolves org t := by
  subst e; exact h
theorem fst_ev {α : Type} {p : State × α} {r : α} {t : State} (e : p = (t, r)) (h : Evolves org p.1) : Evolves org t := by
  subst e; exact h
/-- A fold of an operation that keeps Evolves keeps it. -/
@[simp] theorem ev_foldl {α : Type} {f : State → α → State} (k : ∀ s a, Evolves org s → Evolves org (f s a)) (l : List α)
    (h : Evolves org s) : Evolves org (l.foldl f s) := by
  induction l generalizing s with
  | nil => exact h
  | cons a l ih => exact ih (k s a h)

end Machine
end Sys2Proof
end

