-- ==== Sys2Proof/Laws/EvolvesActs.lean ====
section
/-! SUPPORT. Runs of memory accesses keep the canonical form of memory: the rule for each way of composing them, and the
accesses that every family uses. -/

namespace Sys2Proof

-- one search serves every lemma of this file, and none needs all of its steps
set_option linter.unusedTactic false
set_option linter.unreachableTactic false
set_option linter.unusedSimpArgs false
namespace Machine

/-- Whatever a run of accesses does, memory stays in canonical form. -/
structure Keeps {ε α : Type} (act : ExceptT ε (StateM MemRun) α) : Prop where
  run : ∀ w : MemRun, Memory.Keeps w.mem (act.run.run w).2.mem

namespace Keeps

variable {ε α β : Type}

@[simp] theorem pure (a : α) : Keeps (Pure.pure a : ExceptT ε (StateM MemRun) α) := ⟨fun _ => Memory.keeps_refl _⟩
@[simp] theorem throw (e : ε) : Keeps (MonadExcept.throw e : ExceptT ε (StateM MemRun) α) := ⟨fun _ => Memory.keeps_refl _⟩
@[simp] theorem throw_the (e : ε) : Keeps (throwThe ε e : ExceptT ε (StateM MemRun) α) := ⟨fun _ => Memory.keeps_refl _⟩
@[simp] theorem bind {x : ExceptT ε (StateM MemRun) α} {f : α → ExceptT ε (StateM MemRun) β} (h : Keeps x)
    (k : ∀ a, Keeps (f a)) : Keeps (x >>= f) := by
  refine ⟨fun w => ?_⟩
  have q : Memory.Keeps w.mem (x w).2.mem := h.run w
  show Memory.Keeps w.mem ((ExceptT.bindCont f (x w).1) (x w).2).2.mem
  cases e : (x w).1 with
  | ok a => exact q.trans ((k a).run _)
  | error e => exact q
@[simp] theorem map {x : ExceptT ε (StateM MemRun) α} {f : α → β} (h : Keeps x) : Keeps (f <$> x) := by
  have e : f <$> x = x >>= fun a => Pure.pure (f a) := (bind_pure_comp f x).symm
  rw [e]
  exact bind h fun _ => pure _
@[simp] theorem mapM {γ : Type} {f : γ → ExceptT ε (StateM MemRun) α} (h : ∀ a, Keeps (f a)) (l : List γ) :
    Keeps (l.mapM f) := by
  induction l with
  | nil => simp
  | cons a l ih => rw [List.mapM_cons]; exact bind (h a) fun _ => bind ih fun _ => pure _
@[simp] theorem forM {γ : Type} {f : γ → ExceptT ε (StateM MemRun) PUnit} (h : ∀ a, Keeps (f a)) (l : List γ) :
    Keeps (l.forM f) := by
  induction l with
  | nil => exact pure _
  | cons a l ih => exact bind (h a) fun _ => ih
@[simp] theorem ite {c : Prop} [Decidable c] {a b : ExceptT ε (StateM MemRun) α} (h : Keeps a) (k : Keeps b) :
    Keeps (if c then a else b) := by split <;> assumption

theorem bind_get {f : MemRun → ExceptT ε (StateM MemRun) α}
    (h : ∀ w, Memory.Keeps w.mem ((f w).run.run w).2.mem) : Keeps (getThe MemRun >>= f) := ⟨fun w => h w⟩

end Keeps

namespace MM

@[simp] theorem readAt_keeps (a n : Nat) : Keeps (readAt a n) := by
  apply Keeps.bind_get
  intro w
  have k : Memory.Keeps w.mem (Memory.read w.mem a n).2 := Memory.keeps_read a n
  generalize Memory.read w.mem a n = q at k ⊢
  obtain ⟨r, m'⟩ := q
  cases r <;> exact k
@[simp] theorem writeAt_keeps (v : Via) (a : Nat) (b : Bytes) : Keeps (writeAt v a b) := ⟨fun _ =>
  Memory.keeps_write v.who v.cls v.time a b⟩
@[simp] theorem wrote_keeps : Keeps wrote := ⟨fun _ => Memory.keeps_refl _⟩
@[simp] theorem flushLine_keeps (a : Nat) : Keeps (flushLine a) := ⟨fun _ => Memory.keeps_flushWhere _⟩

end MM
end Machine
end Sys2Proof
end

