-- ==== Sys2Proof/Laws/Frames.lean ====
section
/-! SUPPORT. What the shared operations leave unchanged: logging, the steps of bring-up, free values. -/

namespace Sys2Proof
namespace Machine
namespace Ops

/-- A vector changes the host side in its pending and sent messages alone. -/
theorem sendVec_frame (h : HostIf) (f v : Nat) :
    sendVec h f v = { h with msixSent := (sendVec h f v).msixSent, msixPend := (sendVec h f v).msixPend } := by
  unfold sendVec
  split
  · rfl
  · split
    · rfl
    · split <;> rfl

theorem countFault_eq (s : State) (c : Nat) :
    ∃ t n, countFault s c = { s with tm := t, flash := { s.flash with lost := n } } := by
  unfold countFault
  split
  · exact ⟨_, s.flash.lost, rfl⟩
  · split
    · exact ⟨_, s.flash.lost, rfl⟩
    · split
      · exact ⟨s.tm, _, rfl⟩
      · exact ⟨s.tm, s.flash.lost, rfl⟩

theorem countFault_setLog (s : State) (c : Nat) (l : EvLog) :
    ∃ g t n, countFault (s.setLog l) c = { s with log := l, mgmt := g, tm := t, flash := { s.flash with lost := n } } := by
  obtain ⟨t, n, e⟩ := countFault_eq (s.setLog l) c
  exact ⟨s.mgmt, t, n, e⟩
theorem countFault_setMgmt (s : State) (c : Nat) (l : EvLog) (k : Mgmt) :
    ∃ g t n, countFault ((s.setLog l).setMgmt k) c =
      { s with log := l, mgmt := g, tm := t, flash := { s.flash with lost := n } } := by
  obtain ⟨t, n, e⟩ := countFault_eq ((s.setLog l).setMgmt k) c
  exact ⟨k, t, n, e⟩
/-- Logging without a vector changes the log, the PLDM queue, the fault counts and class 10's traffic. -/
theorem logQuiet_eq (s : State) (r : Report) :
    ∃ g t n, logQuiet s r = { s with sched := charge s.sched 10 1 0, log := appendLog s.log (eventOf s r) r.notifies (r.notifies || r.stop),
                                     mgmt := g, tm := t, flash := { s.flash with lost := n } } := by
  unfold logQuiet
  dsimp only
  split
  · exact countFault_setMgmt (s.setSched (charge s.sched 10 1 0)) r.cls _ _
  · exact countFault_setLog (s.setSched (charge s.sched 10 1 0)) r.cls _

/-- Logging changes the log, the PLDM queue, the fault counts, class 10's traffic and the vectors of the host side. -/
theorem logEvent_eq (s : State) (r : Report) :
    ∃ g t n x p, logEvent s r = { s with sched := charge s.sched 10 1 0, log := appendLog s.log (eventOf s r) r.notifies (r.notifies || r.stop),
                                         mgmt := g, tm := t, flash := { s.flash with lost := n },
                                         host := { s.host with msixSent := x, msixPend := p } } := by
  obtain ⟨g, t, n, e⟩ := logQuiet_eq s r
  unfold logEvent
  dsimp only
  rw [e]
  refine ⟨g, t, n, ?_⟩
  split
  · split
    · have h1 := sendVec_frame s.host 0 1
      have h2 := sendVec_frame (sendVec s.host 0 1) r.fn 1
      generalize sendVec (sendVec s.host 0 1) r.fn 1 = y at h2 ⊢
      generalize sendVec s.host 0 1 = z at h1 h2
      obtain ⟨a, b, h1⟩ : ∃ a b, z = { s.host with msixSent := a, msixPend := b } := ⟨_, _, h1⟩
      subst h1
      obtain ⟨a, b, h2⟩ : ∃ a b, y = { s.host with msixSent := a, msixPend := b } := ⟨_, _, h2⟩
      subst h2
      exact ⟨_, _, rfl⟩
    · have h1 := sendVec_frame s.host 0 1
      generalize sendVec s.host 0 1 = z at h1 ⊢
      obtain ⟨a, b, h1⟩ : ∃ a b, z = { s.host with msixSent := a, msixPend := b } := ⟨_, _, h1⟩
      subst h1
      exact ⟨_, _, rfl⟩
  · exact ⟨s.host.msixSent, s.host.msixPend, rfl⟩

variable (s : State) (r : Report)

@[simp] theorem logEvent_pending : (logEvent s r).pending = s.pending := by obtain ⟨_, _, _, _, _, e⟩ := logEvent_eq s r; rw [e]
@[simp] theorem logEvent_now : (logEvent s r).now = s.now := by obtain ⟨_, _, _, _, _, e⟩ := logEvent_eq s r; rw [e]
@[simp] theorem logEvent_free : (logEvent s r).free = s.free := by obtain ⟨_, _, _, _, _, e⟩ := logEvent_eq s r; rw [e]
@[simp] theorem logEvent_fuses : (logEvent s r).fuses = s.fuses := by obtain ⟨_, _, _, _, _, e⟩ := logEvent_eq s r; rw [e]
@[simp] theorem logEvent_pwr : (logEvent s r).pwr = s.pwr := by obtain ⟨_, _, _, _, _, e⟩ := logEvent_eq s r; rw [e]
@[simp] theorem logEvent_bu : (logEvent s r).bu = s.bu := by obtain ⟨_, _, _, _, _, e⟩ := logEvent_eq s r; rw [e]
@[simp] theorem logEvent_ident : (logEvent s r).ident = s.ident := by obtain ⟨_, _, _, _, _, e⟩ := logEvent_eq s r; rw [e]
@[simp] theorem logEvent_mem : (logEvent s r).mem = s.mem := by obtain ⟨_, _, _, _, _, e⟩ := logEvent_eq s r; rw [e]
@[simp] theorem logEvent_fab : (logEvent s r).fab = s.fab := by obtain ⟨_, _, _, _, _, e⟩ := logEvent_eq s r; rw [e]
@[simp] theorem logEvent_ptp : (logEvent s r).ptp = s.ptp := by obtain ⟨_, _, _, _, _, e⟩ := logEvent_eq s r; rw [e]
@[simp] theorem logEvent_sched : (logEvent s r).sched = charge s.sched 10 1 0 := by obtain ⟨_, _, _, _, _, e⟩ := logEvent_eq s r; rw [e]
@[simp] theorem logEvent_codec : (logEvent s r).codec = s.codec := by obtain ⟨_, _, _, _, _, e⟩ := logEvent_eq s r; rw [e]
@[simp] theorem logEvent_cache : (logEvent s r).cache = s.cache := by obtain ⟨_, _, _, _, _, e⟩ := logEvent_eq s r; rw [e]
@[simp] theorem logEvent_recov : (logEvent s r).recov = s.recov := by obtain ⟨_, _, _, _, _, e⟩ := logEvent_eq s r; rw [e]
@[simp] theorem logEvent_rings : (logEvent s r).host.rings = s.host.rings := by obtain ⟨_, _, _, _, _, e⟩ := logEvent_eq s r; rw [e]

/-- The log takes the event record. -/
@[simp] theorem logEvent_log : (logEvent s r).log = appendLog s.log (eventOf s r) r.notifies (r.notifies || r.stop) := by
  obtain ⟨_, _, _, _, _, e⟩ := logEvent_eq s r; rw [e]

/-- Logging does what `logs` says. -/
theorem logEvent_logs : logs s (logEvent s r) r := by
  obtain ⟨g, t, n, x, p, e⟩ := logEvent_eq s r
  rw [e]
  exact ⟨rfl, rfl⟩

end Ops

open Ops

/-- What the module's loss of power leaves (spec/17_bring_up.md R400). -/
theorem Starts.volatileLost_eq (s : State) : Starts.volatileLost s = { s with
    free := s.free + 1
    pwr := Starts.coldPower s
    bu := State.resetBringUp
    ident := Starts.coldIdent s.ident (Config.freeValue s.free)
    host := { State.resetHost with perstLow := s.host.perstLow }
    mem := State.resetMem
    fab := State.resetFabric
    ptp := { State.resetPtp with offset := -(s.now : Int), since := s.now }
    sched := State.resetSched
    codec := State.reset.codec
    cache := State.reset.cache
    tm := State.reset.tm
    log := ⟨[], s.log.next, 0, 0, []⟩
    mgmt := State.reset.mgmt
    recov := none } := by
  unfold Starts.volatileLost Ops.fresh
  dsimp only [State.setPwr, State.setBu, State.setIdent, State.setHost, State.setMem, State.setFab, State.setPtp, State.setSched,
    State.setCodec, State.setCache, State.setTm, State.setLog, State.setMgmt, State.setRecov, State.setFree]
  rfl

/-- A step starts and runs: P48V in the operating range, and no stack or hub die too hot for it (R467). -/
theorem Starts.startStep_runs {s : State} {n : Nat} (h : Starts.operating s.pwr.p48v = true)
    (c : n ∉ [2, 4, 7] ∨ s.pwr.hubTemp ≤ 95 ∧ ∀ k < 8, Sparse.getD s.mem.temp k 0 ≤ 95) :
    Starts.startStep s n = s.setBu { s.bu with step := n, phase := 0, code := 0 } := by
  unfold Starts.startStep
  dsimp only
  have : Starts.startStop (s.setBu { s.bu with step := n, phase := 0, code := 0 }) = none := by
    unfold Starts.startStop
    have h1 : (!Starts.operating s.pwr.p48v) = false := by rw [h]; rfl
    show (if (!Starts.operating s.pwr.p48v) = true then _ else if ([2, 4, 7].contains n && (decide (95 < s.pwr.hubTemp) ||
      (List.range 8).any fun k => decide (95 < Sparse.getD s.mem.temp k 0))) = true then _ else _) = _
    rw [h1, if_neg (by decide), if_neg]
    intro q
    rw [Bool.and_eq_true, Bool.or_eq_true, List.any_eq_true] at q
    rcases c with hn | ⟨hh, hk⟩
    · exact hn (by simpa using q.1)
    · rcases q.2 with q | ⟨k, hk1, hk2⟩
      · simp at q; omega
      · have := hk k (List.mem_range.1 hk1)
        simp at hk2; omega
  rw [this]

theorem Starts.startStep_fab (s : State) (n : Nat) : (Starts.startStep s n).fab = s.fab := by
  unfold Starts.startStep
  dsimp only
  split
  · unfold Starts.stepStop; rw [logEvent_fab]; rfl
  · rfl
theorem Bring.stepDone_fab (s : State) : (Bring.stepDone s).fab = s.fab := by
  unfold Bring.stepDone
  split
  · exact Starts.startStep_fab s _
  · rfl

end Machine
end Sys2Proof
end

