-- ==== Sys2Proof/Laws/Logical.lean ====
section
/-! SUPPORT. Access to memory through a context (spec/19_security.md R443, R444), while no line holds an error pattern:
within one page of any function, and anywhere below the recovery area for the physical function unbound. -/

namespace Sys2Proof
namespace Machine

open Bits Ops

variable {s : State}

/-- Budgets may differ. -/
theorem readPieces_clean : ∀ (ps : List (Nat × Nat)) {s : State}, memClean s → ∀ (k : Nat) (acc : Bytes),
    ∃ t, readPieces s k ps acc = (.ok (acc ++ ps.flatMap fun p => bytesOf s p.1 p.2), t) ∧
      t = { s with sched := { s.sched with budgets := t.sched.budgets } } := by
  intro ps
  induction ps with
  | nil => intro s _ k acc; exact ⟨s, by simp [readPieces], rfl⟩
  | cons p r ih =>
    intro s h k acc
    obtain ⟨a, n⟩ := p
    unfold readPieces
    rw [readMem_clean h]
    dsimp only
    obtain ⟨t, e1, e2⟩ := ih (s := s.setSched (chargeStacks (charge s.sched k (Memory.linesOf a n) 0) s.mem a n)) h k
      (acc ++ (List.range n).map fun i => byteOf s (a + i))
    refine ⟨t, ?_, ?_⟩
    · rw [e1, List.flatMap_cons, List.append_assoc]; rfl
    · rw [e2, chargeStacks_eq]; rfl

/-- A read changes memory's own counts and the budget counters alone, whatever it answers. -/
theorem readPieces_frame (ps : List (Nat × Nat)) : ∀ (s : State) (k : Nat) (acc : Bytes),
    ∃ m b, (readPieces s k ps acc).2 = { s with mem := m, sched := { s.sched with budgets := b } } := by
  induction ps with
  | nil => intro s k acc; exact ⟨s.mem, s.sched.budgets, rfl⟩
  | cons p r ih =>
    intro s k acc
    obtain ⟨a, n⟩ := p
    unfold readPieces
    have hr : ∃ m b, (readMem s k a n).2 = { s with mem := m, sched := { s.sched with budgets := b } } := by
      unfold readMem
      dsimp only
      rw [chargeStacks_eq]
      split <;> exact ⟨_, _, rfl⟩
    generalize readMem s k a n = q at hr ⊢
    obtain ⟨x, t⟩ := q
    obtain ⟨m, b, hr⟩ := hr
    dsimp only at hr
    subst hr
    cases x with
    | ok d =>
      obtain ⟨m2, b2, e⟩ := ih { s with mem := m, sched := { s.sched with budgets := b } } k (acc ++ d)
      exact ⟨m2, b2, e⟩
    | bad l => exact ⟨m, b, rfl⟩
    | refused => exact ⟨m, b, rfl⟩
theorem readLog_frame (s : State) (f k a n : Nat) :
    ∃ m b, (readLog s f k a n).2 = { s with mem := m, sched := { s.sched with budgets := b } } := by
  unfold readLog
  split
  · exact ⟨s.mem, s.sched.budgets, rfl⟩
  · exact readPieces_frame _ s k []

/-- A run inside one page is one piece. -/
theorem pagePieces_one {a n : Nat} (h0 : 0 < n) (h : a % 4096 + n ≤ 4096) : pagePieces a n = [(a, n)] := by
  unfold pagePieces
  rw [if_neg (by omega)]
  have e : (a + n - 1) / 4096 - a / 4096 + 1 = 1 := by omega
  rw [e]
  simp only [List.range_one, List.map_cons, List.map_nil, Nat.add_zero]
  have m1 : max a (4096 * (a / 4096)) = a := by omega
  have m2 : min (a + n) (4096 * (a / 4096 + 1)) = a + n := by omega
  rw [m1, m2, Nat.add_sub_cancel_left]

theorem xlatRun_one {h : HostIf} {f a n m : Nat} {w : Bool} (h0 : 0 < n) (hp : a % 4096 + n ≤ 4096)
    (hx : xlat h f a w = some m) : xlatRun h f a n w = some [(m, n)] := by
  unfold xlatRun
  rw [pagePieces_one h0 hp]
  simp [hx]
theorem xlatRun_one_none {h : HostIf} {f a n : Nat} {w : Bool} (h0 : 0 < n) (hp : a % 4096 + n ≤ 4096)
    (hx : xlat h f a w = none) : xlatRun h f a n w = none := by
  unfold xlatRun
  rw [pagePieces_one h0 hp]
  simp [hx]

/-- A read inside one page that translation allows. -/
theorem readLog_one (hc : memClean s) {f a n m : Nat} (k : Nat) (h0 : 0 < n) (hp : a % 4096 + n ≤ 4096)
    (hx : xlat s.host f a false = some m) :
    ∃ t, readLog s f k a n = (.ok (bytesOf s m n), t) ∧ t = { s with sched := { s.sched with budgets := t.sched.budgets } } := by
  unfold readLog
  rw [xlatRun_one h0 hp hx]
  obtain ⟨t, e1, e2⟩ := readPieces_clean [(m, n)] hc k []
  exact ⟨t, by dsimp only; rw [e1]; simp, e2⟩
/-- A write inside one page that translation allows. -/
theorem writeLog_one (hc : memClean s) {f a m : Nat} {b : Bytes} (w : Writer) (k : Nat) (h0 : 0 < b.length)
    (hp : a % 4096 + b.length ≤ 4096) (hx : xlat s.host f a true = some m) :
    ∃ t, writeLog s w k f a b = some (t, []) ∧ memClean t ∧
      (∀ x, byteOf t x = if m ≤ x ∧ x < m + b.length then b.getD (x - m) 0 else byteOf s x) ∧
      t = { s with mem := t.mem, sched := { s.sched with budgets := t.sched.budgets } } := by
  unfold writeLog
  rw [xlatRun_one h0 hp hx]
  obtain ⟨t, e1, e2, e3, e4⟩ := writeMem_clean hc w k m b
  refine ⟨t, ?_, e2, e3, e4⟩
  simp only [Option.map_some, writePieces, List.take_length]
  rw [e1]
  rfl

/-- A write of the hub's own inside one page that translation allows. -/
theorem hubWrite_one (hc : memClean s) {f a m : Nat} {b : Bytes} (k : Nat)
    (hp : a % 4096 + b.length ≤ 4096) (hx : xlat s.host f a true = some m) :
    ∃ t, hubWrite s k f a b = some t ∧ memClean t ∧
      (∀ x, byteOf t x = if m ≤ x ∧ x < m + b.length then b.getD (x - m) 0 else byteOf s x) ∧
      t = { s with mem := t.mem, sched := { s.sched with budgets := t.sched.budgets } } := by
  unfold hubWrite
  by_cases h0 : 0 < b.length
  · obtain ⟨t, e1, e2, e3, e4⟩ := writeLog_one hc ⟨none, 0xFFFFFFFF, 0x10000⟩ k h0 hp hx
    exact ⟨t, by rw [e1]; rfl, e2, e3, e4⟩
  · have hb : b = [] := by
      cases b
      · rfl
      · simp at h0
    subst hb
    refine ⟨s, rfl, hc, fun x => ?_, rfl⟩
    rw [if_neg]
    intro q
    simp at q
    omega

/-! ### The physical function unbound -/

theorem xlat_pf {h : HostIf} {a : Nat} (u : Sparse.get? h.ctx 0 = none) (r : a < Config.recoveryBase) (w : Bool) :
    xlat h 0 a w = some a := by
  unfold xlat
  have : Config.recoveryBase < 2 ^ 40 := by decide
  rw [if_neg (by omega), u]
  simp [r]

theorem pagePieces_below {a n r : Nat} (h : a + n ≤ r) : ∀ p ∈ pagePieces a n, p.1 < r := by
  intro p hp
  unfold pagePieces at hp
  split at hp
  · simp at hp
  · next h0 =>
    obtain ⟨i, hi, rfl⟩ := List.mem_map.1 hp
    have hi := List.mem_range.1 hi
    dsimp only
    omega

theorem xlatRun_pf {h : HostIf} {a n : Nat} (u : Sparse.get? h.ctx 0 = none) (r : a + n ≤ Config.recoveryBase) (w : Bool) :
    xlatRun h 0 a n w = some (pagePieces a n) := by
  unfold xlatRun
  have : ∀ l : List (Nat × Nat), (∀ p ∈ l, p.1 < Config.recoveryBase) →
      l.mapM (fun (lo, k) => (xlat h 0 lo w).map fun m => (m, k)) = some l := by
    intro l
    induction l with
    | nil => intro _; rfl
    | cons p q ih =>
      intro hl
      obtain ⟨x, y⟩ := p
      rw [List.mapM_cons]
      dsimp only
      rw [xlat_pf u (hl (x, y) List.mem_cons_self)]
      rw [ih fun x hx => hl x (List.mem_cons_of_mem _ hx)]
      rfl
  exact this _ (pagePieces_below r)

/-- The pieces of a run, from their first on, are the run. -/
theorem flatMap_pages (f : Nat → Byte) (a n : Nat) :
    ((pagePieces a n).flatMap fun p => (List.range p.2).map fun i => f (p.1 + i)) = (List.range n).map fun i => f (a + i) := by
  by_cases h0 : n = 0
  · subst h0; simp [pagePieces]
  have hm : ∀ c, ((List.range c).map fun i =>
      ((max a (4096 * (a / 4096 + i))), (min (a + n) (4096 * (a / 4096 + i + 1)) - max a (4096 * (a / 4096 + i))))).flatMap
      (fun p => (List.range p.2).map fun i => f (p.1 + i)) =
      (List.range (min (a + n) (4096 * (a / 4096 + c)) - a)).map fun i => f (a + i) := by
    intro c
    induction c with
    | zero =>
      have : min (a + n) (4096 * (a / 4096 + 0)) - a = 0 := by omega
      rw [this]; rfl
    | succ c ih =>
      rw [List.range_succ, List.map_append, List.flatMap_append, ih]
      simp only [List.map_cons, List.map_nil, List.flatMap_cons, List.flatMap_nil, List.append_nil]
      by_cases hc : a + n ≤ 4096 * (a / 4096 + c)
      · have e1 : min (a + n) (4096 * (a / 4096 + c + 1)) - max a (4096 * (a / 4096 + c)) = 0 := by omega
        have e2 : min (a + n) (4096 * (a / 4096 + (c + 1))) - a = min (a + n) (4096 * (a / 4096 + c)) - a := by omega
        rw [e1, e2]; simp
      · have hs : max a (4096 * (a / 4096 + c)) = a + (min (a + n) (4096 * (a / 4096 + c)) - a) := by omega
        have e2 : min (a + n) (4096 * (a / 4096 + (c + 1))) - a = (min (a + n) (4096 * (a / 4096 + c)) - a) +
            (min (a + n) (4096 * (a / 4096 + c + 1)) - max a (4096 * (a / 4096 + c))) := by omega
        rw [e2, List.range_add, List.map_append, List.map_map]
        rw [hs]
        congr 1
        apply List.map_congr_left
        intro i _
        simp only [Function.comp]
        rw [Nat.add_assoc]
  unfold pagePieces
  rw [if_neg h0]
  rw [hm]
  congr 2
  omega

theorem bytesOf_pages (a n : Nat) : ((pagePieces a n).flatMap fun p => bytesOf s p.1 p.2) = bytesOf s a n :=
  flatMap_pages (byteOf s) a n

/-- A read by the physical function unbound. -/
theorem readLog_pf (hc : memClean s) {a n : Nat} (k : Nat) (u : Sparse.get? s.host.ctx 0 = none)
    (r : a + n ≤ Config.recoveryBase) :
    ∃ t, readLog s 0 k a n = (.ok (bytesOf s a n), t) ∧ t = { s with sched := { s.sched with budgets := t.sched.budgets } } := by
  unfold readLog
  rw [xlatRun_pf u r]
  obtain ⟨t, e1, e2⟩ := readPieces_clean (pagePieces a n) hc k []
  refine ⟨t, ?_, e2⟩
  dsimp only
  rw [e1, List.nil_append, bytesOf_pages]

end Machine
end Sys2Proof
end

