-- ==== Sys2Proof/Laws/Mailboxes.lean ====
section
/-! SUPPORT. A mailbox command from GO to its answer (spec/15_host_and_mailboxes.md R354 to R357): the request's fields as
the management processor reads them. -/

namespace Sys2Proof
namespace Bits

@[simp] theorem length_toLe : ∀ (n v : Nat), (toLe n v).length = n
  | 0, _ => rfl
  | n + 1, v => by rw [toLe, List.length_cons, length_toLe n]
theorem le_toLe : ∀ (n v : Nat), le (toLe n v) = v % 256 ^ n
  | 0, v => by simp [toLe, le, Nat.mod_one]
  | n + 1, v => by
    rw [toLe, le, le_toLe n, Nat.pow_succ, Nat.mul_comm (256 ^ n), Nat.mod_mul]
    simp
theorem slice_take (b : Bytes) (o n : Nat) (h : o + n ≤ b.length) : slice b o n = (b.drop o).take n := by
  unfold slice
  dsimp only
  have : n - ((b.drop o).take n).length = 0 := by rw [List.length_take, List.length_drop]; omega
  rw [this, List.replicate_zero, List.append_nil]
/-- A field of a run cut out of a longer one. -/
theorem slice_slice (b : Bytes) (o n m : Nat) (h : o + n ≤ m) (hb : o + n ≤ b.length) : slice (slice b 0 m) o n = slice b o n := by
  rw [slice_take b o n hb]
  by_cases hm : m ≤ b.length
  · rw [slice_take b 0 m (by omega), List.drop_zero, slice_take _ o n (by rw [List.length_take]; omega), List.drop_take, List.take_take]
    congr 1; omega
  · have e : slice b 0 m = b ++ List.replicate (m - b.length) 0#8 := by
      unfold slice
      rw [List.drop_zero, List.take_of_length_le (by omega)]
    rw [e, slice_take _ o n (by rw [List.length_append, List.length_replicate]; omega), List.drop_append, List.take_append]
    have : n - (b.drop o).length = 0 := by rw [List.length_drop]; omega
    rw [this, List.take_zero, List.append_nil]
theorem slice_skip (x y : Bytes) (o n : Nat) (h : x.length ≤ o) : slice (x ++ y) o n = slice y (o - x.length) n := by
  unfold slice
  rw [List.drop_append, List.drop_of_length_le h, List.nil_append]
theorem slice_head (x y : Bytes) (n : Nat) (h : x.length = n) : slice (x ++ y) 0 n = x := by
  rw [slice_take _ _ _ (by rw [List.length_append]; omega), List.drop_zero, ← h, List.take_left]

end Bits

namespace Machine

open Bits Ops

namespace Mbox

/-- The copied request of a command. -/
def reqOf (cmd tag : Nat) (args : List Nat) : Bytes :=
  slice (toLe 2 cmd ++ toLe 2 0 ++ toLe 4 tag ++ args.flatMap (toLe 8)) 0 1984

theorem reqOf_cmd (cmd tag : Nat) (args : List Nat) (h : cmd < 65536) : fld (reqOf cmd tag args) 0 2 = cmd := by
  unfold fld reqOf
  rw [slice_slice _ _ _ _ (by omega) (by simp), List.append_assoc, List.append_assoc, slice_head _ _ _ (by simp), le_toLe]
  exact Nat.mod_eq_of_lt h
theorem reqOf_rsv (cmd tag : Nat) (args : List Nat) : fld (reqOf cmd tag args) 2 2 = 0 := by
  unfold fld reqOf
  rw [slice_slice _ _ _ _ (by omega) (by simp; omega), List.append_assoc, List.append_assoc, slice_skip _ _ _ _ (by simp)]
  simp only [length_toLe]
  rw [slice_head _ _ _ (by simp), le_toLe, Nat.zero_mod]
theorem reqOf_tag (cmd tag : Nat) (args : List Nat) (h : tag < 2 ^ 32) : fld (reqOf cmd tag args) 4 4 = tag := by
  unfold fld reqOf
  rw [slice_slice _ _ _ _ (by omega) (by simp; omega), List.append_assoc, slice_skip _ _ _ _ (by simp)]
  simp only [length_toLe, List.length_append]
  rw [slice_head _ _ _ (by simp), le_toLe]
  exact Nat.mod_eq_of_lt h
theorem slice_args : ∀ (args : List Nat) (i : Nat), i < args.length → slice (args.flatMap (toLe 8)) (8 * i) 8 = toLe 8 (args.getD i 0)
  | [], i, h => by simp at h
  | a :: r, 0, _ => by rw [List.flatMap_cons, Nat.mul_zero, slice_head _ _ _ (by simp)]; rfl
  | a :: r, i + 1, h => by
    rw [List.flatMap_cons, slice_skip _ _ _ _ (by simp), length_toLe]
    have : 8 * (i + 1) - 8 = 8 * i := by omega
    rw [this, slice_args r i (by simpa using h)]
    simp
theorem length_args : ∀ args : List Nat, (args.flatMap (toLe 8)).length = 8 * args.length
  | [] => rfl
  | a :: r => by rw [List.flatMap_cons, List.length_append, length_args r, length_toLe, List.length_cons]; omega
theorem reqOf_arg (cmd tag : Nat) (args : List Nat) (i : Nat) (hi : i < args.length) (hl : args.length ≤ 8)
    (h : args.getD i 0 < 2 ^ 64) : fld (reqOf cmd tag args) (8 + 8 * i) 8 = args.getD i 0 := by
  unfold fld reqOf
  have hla := length_args args
  rw [slice_slice _ _ _ _ (by omega) (by simp [hla]; omega), slice_skip _ _ _ _ (by simp)]
  simp only [length_toLe, List.length_append]
  have : 8 + 8 * i - (2 + 2 + 4) = 8 * i := by omega
  rw [this, slice_args args i hi, le_toLe]
  exact Nat.mod_eq_of_lt h

theorem mboxAt_put (h : HostIf) (f g : Nat) (m : Mailbox) : mboxAt (putMbox h f m) g = if g = f then m else mboxAt h g :=
  Sparse.getD_put _ _ _ _ _
@[simp] theorem mboxAt_put_self (h : HostIf) (f : Nat) (m : Mailbox) : mboxAt (putMbox h f m) f = m := by
  rw [mboxAt_put, if_pos rfl]
theorem putMbox_putMbox (h : HostIf) (f : Nat) (m n : Mailbox) : putMbox (putMbox h f m) f n = putMbox h f n := by
  unfold putMbox; dsimp only; rw [Sparse.put_put]

/-! Which command a code runs. -/

theorem run_getState (s : State) (f : Nat) (arg : Nat → Nat) : run s f 0x0001 0 arg = getState s := rfl
theorem run_getInfo (s : State) (f : Nat) (arg : Nat → Nat) : run s f 0x0002 0 arg = getInfo s f := rfl
theorem run_ringAssign (s : State) (f : Nat) (arg : Nat → Nat) : run s f 0x0010 0 arg = ringAssign s f (arg 0) (arg 1) := rfl
theorem run_ringSetup (s : State) (f : Nat) (arg : Nat → Nat) : run s f 0x0011 0 arg = ringSetup s f (arg 0) (arg 1) (arg 2) := rfl
theorem run_ringEnable (s : State) (f : Nat) (arg : Nat → Nat) : run s f 0x0012 0 arg = ringEnable s f (arg 0) := rfl
theorem run_ringDisable (s : State) (f : Nat) (arg : Nat → Nat) : run s f 0x0013 0 arg = ringDisable s f (arg 0) := rfl
theorem run_contextBind (s : State) (f : Nat) (arg : Nat → Nat) : run s f 0x0020 0 arg = contextBind s f (arg 0) (arg 1) := rfl
theorem run_sessionClose (s : State) (f : Nat) (arg : Nat → Nat) : run s f 0x0030 0 arg = sessionClose s f (arg 0) (arg 1) := rfl
theorem run_roleSet (s : State) (f : Nat) (arg : Nat → Nat) : run s f 0x0040 0 arg = roleSet s f (arg 0) (arg 1) := rfl
theorem run_policySet (s : State) (f : Nat) (arg : Nat → Nat) : run s f 0x0050 0 arg = policySet s f (arg 0) (arg 1) := rfl
theorem run_eventRead (s : State) (f : Nat) (arg : Nat → Nat) : run s f 0x0060 0 arg = eventRead s f (arg 0) (arg 1) (arg 2) := rfl
theorem run_eventAck (s : State) (f : Nat) (arg : Nat → Nat) : run s f 0x0061 0 arg = eventAck s f (arg 0) := rfl
theorem run_overrideCmd (s : State) (f : Nat) (arg : Nat → Nat) : run s f 0x0070 0 arg = overrideCmd s f (arg 0) := rfl
theorem run_restartCmd (s : State) (f : Nat) (arg : Nat → Nat) : run s f 0x0080 0 arg = restartCmd s f (arg 0) := rfl

/-- The state with the request posted and BUSY 1. -/
def posted (s : State) (f cmd tag : Nat) (args : List Nat) : State :=
  s.setHost (putMbox s.host f { mboxAt s.host f with req := reqOf cmd tag args, busy := true })
theorem submit_runs {s : State} {f : Nat} (h : listens s f) (cmd tag : Nat) (args : List Nat) :
    submit s f cmd tag args = execute (posted s f cmd tag args) f (reqOf cmd tag args) := by
  obtain ⟨h1, h2, h3⟩ := h
  unfold submit
  rw [h1, if_pos rfl]
  unfold go
  dsimp only [State.setHost]
  rw [mboxAt_put_self, h2, if_neg (by decide), putMbox_putMbox, h3, if_pos rfl]
  rfl

/-- The answer of a command that does not begin a cold start. -/
theorem submit_answers {s : State} {f : Nat} (h : listens s f) {cmd tag : Nat} {args : List Nat} (hc : cmd < 65536)
    (ht : tag < 2 ^ 32) {a : Answer}
    (ha : run (posted s f cmd tag args) f cmd 0 (fun i => fld (reqOf cmd tag args) (8 + 8 * i) 8) = a)
    (hr : cmd ≠ 0x0080 ∨ a.status ≠ 0 ∨ a.state.bu.restart ≠ some false) :
    submit s f cmd tag args = respond a.state f a.status cmd tag (stateWord a.state f a.object) a.results := by
  rw [submit_runs h]
  unfold execute
  dsimp only
  rw [reqOf_cmd _ _ _ hc, reqOf_rsv, reqOf_tag _ _ _ ht, ha, if_neg]
  intro q
  rcases hr with hr | hr | hr
  · exact hr q.1
  · exact hr q.2.1
  · exact hr q.2.2

/-- An answer changes the mailbox and the vectors alone. -/
theorem respond_eq (s : State) (f st cmd tag state : Nat) (res : List Nat) :
    ∃ x p, respond s f st cmd tag state res = s.setHost { putMbox s.host f { mboxAt s.host f with
        resp := slice (toLe 2 st ++ toLe 2 cmd ++ toLe 4 tag ++ toLe 8 state ++ res.flatMap (toLe 8)) 0 2048,
        seq := ((mboxAt s.host f).seq + 1) % 65536, done := true, busy := false } with msixSent := x, msixPend := p } := by
  unfold respond
  dsimp only
  split
  · have h1 := sendVec_frame (putMbox s.host f { mboxAt s.host f with
        resp := slice (toLe 2 st ++ toLe 2 cmd ++ toLe 4 tag ++ toLe 8 state ++ res.flatMap (toLe 8)) 0 2048,
        seq := ((mboxAt s.host f).seq + 1) % 65536, done := true, busy := false }) f 0
    exact ⟨_, _, congrArg _ h1⟩
  · exact ⟨s.host.msixSent, s.host.msixPend, rfl⟩

/-- The answer of a command in terms of the state that its effect leaves. -/
theorem submit_answered {s base : State} {f : Nat} (h : listens s f) {cmd tag : Nat} {args : List Nat} (hc : cmd < 65536)
    (ht : tag < 2 ^ 32) {st obj : Nat} {res : List Nat}
    (ha : run (posted s f cmd tag args) f cmd 0 (fun i => fld (reqOf cmd tag args) (8 + 8 * i) 8) =
      ⟨st, obj, res, base.setHost { base.host with mbox := (posted s f cmd tag args).host.mbox }⟩)
    (hb : base.host.mbox = s.host.mbox) (hr : cmd ≠ 0x0080 ∨ st ≠ 0 ∨ base.bu.restart ≠ some false) :
    answered base (submit s f cmd tag args) f (response st cmd tag (stateWord base f obj) res) := by
  rw [submit_answers h hc ht ha hr]
  dsimp only
  obtain ⟨x, p, e⟩ := respond_eq (base.setHost { base.host with mbox := (posted s f cmd tag args).host.mbox }) f st cmd tag
    (stateWord base f obj) res
  have hw : stateWord (base.setHost { base.host with mbox := (posted s f cmd tag args).host.mbox }) f obj = stateWord base f obj := rfl
  rw [hw, e]
  have hm : ∀ g, mboxAt { base.host with mbox := (posted s f cmd tag args).host.mbox } g =
      if g = f then { mboxAt s.host f with req := reqOf cmd tag args, busy := true } else mboxAt base.host g := by
    intro g
    show Sparse.getD (Sparse.put s.host.mbox f _) g _ = _
    rw [Sparse.getD_put]
    split
    · rfl
    · unfold mboxAt; rw [hb]
  have hf : mboxAt s.host f = mboxAt base.host f := by unfold mboxAt; rw [hb]
  refine ⟨?_, ?_, ?_⟩
  · show mboxAt (putMbox _ f _) f = _
    rw [mboxAt_put_self]
    show ({ mboxAt { base.host with mbox := (posted s f cmd tag args).host.mbox } f with
        resp := response st cmd tag (stateWord base f obj) res,
        seq := ((mboxAt { base.host with mbox := (posted s f cmd tag args).host.mbox } f).seq + 1) % 65536,
        done := true, busy := false } : Mailbox) = _
    rw [hm, if_pos rfl, hf]
    show _ = ({ mboxAt base.host f with
        req := (mboxAt (putMbox { base.host with mbox := (posted s f cmd tag args).host.mbox } f _) f).req, resp := _,
        seq := _, done := _, busy := _ } : Mailbox)
    rw [mboxAt_put_self]
    show _ = ({ mboxAt base.host f with
        req := (mboxAt { base.host with mbox := (posted s f cmd tag args).host.mbox } f).req, resp := _,
        seq := _, done := _, busy := _ } : Mailbox)
    rw [hm, if_pos rfl]
  · intro g hg
    show mboxAt (putMbox _ f _) g = _
    rw [mboxAt_put, if_neg hg]
    exact (hm g).trans (if_neg hg)
  · rfl

end Mbox
end Machine
end Sys2Proof
end

