-- ==== Sys2Proof/Laws/CleanRuns.lean ====
section
/-! SUPPORT. Runs of memory accesses where no line of memory holds an error pattern: they lose nothing, meet no
uncorrectable line, and read and write the bytes that translation names (spec/13_stacked_memory.md R301, R305;
spec/19_security.md R443). -/

namespace Sys2Proof
namespace Machine

open Bits Ops

/-- Memory without error patterns, its buffers in order. -/
def Memory.Clean (m : Mem) : Prop := m.errs = [] ∧ Memory.bufOk m = true

/-- From clean memory a run ends in clean memory, has lost nothing and has met no uncorrectable line. -/
structure Tidy {α : Type} (act : MM α) : Prop where
  run : ∀ w : MemRun, Memory.Clean w.mem →
    Memory.Clean (act.run.run w).2.mem ∧ (act.run.run w).2.lost = w.lost ∧ ∀ l, (act.run.run w).1 ≠ .error (.bad l)

namespace Tidy

variable {α β : Type}

@[simp] theorem pure (a : α) : Tidy (Pure.pure a : MM α) := ⟨fun _ h => ⟨h, rfl, fun _ q => by cases q⟩⟩
@[simp] theorem refuse (a : Nat) : Tidy (MonadExcept.throw (MFail.refused a) : MM α) :=
  ⟨fun _ h => ⟨h, rfl, fun _ q => by cases q⟩⟩
@[simp] theorem refuse_the (a : Nat) : Tidy (throwThe MFail (MFail.refused a) : MM α) :=
  ⟨fun _ h => ⟨h, rfl, fun _ q => by cases q⟩⟩
@[simp] theorem bind {x : MM α} {f : α → MM β} (h : Tidy x) (k : ∀ a, Tidy (f a)) : Tidy (x >>= f) := by
  refine ⟨fun w c => ?_⟩
  obtain ⟨q1, q2, q3⟩ := h.run w c
  have q1 : Memory.Clean (x w).2.mem := q1
  have q2 : (x w).2.lost = w.lost := q2
  have q3 : ∀ l, (x w).1 ≠ .error (.bad l) := q3
  show Memory.Clean ((ExceptT.bindCont f (x w).1) (x w).2).2.mem ∧ ((ExceptT.bindCont f (x w).1) (x w).2).2.lost = w.lost ∧
    ∀ l, ((ExceptT.bindCont f (x w).1) (x w).2).1 ≠ .error (.bad l)
  cases e : (x w).1 with
  | ok a =>
    obtain ⟨r1, r2, r3⟩ := (k a).run _ q1
    exact ⟨r1, r2.trans q2, r3⟩
  | error y =>
    refine ⟨q1, q2, fun l z => ?_⟩
    have z : Except.error y = (Except.error (MFail.bad l) : Except MFail β) := z
    cases z
    exact q3 l e
@[simp] theorem map {x : MM α} {f : α → β} (h : Tidy x) : Tidy (f <$> x) := by
  have e : f <$> x = x >>= fun a => Pure.pure (f a) := (bind_pure_comp f x).symm
  rw [e]
  exact bind h fun _ => pure _
@[simp] theorem mapM {γ : Type} {f : γ → MM α} (h : ∀ a, Tidy (f a)) (l : List γ) : Tidy (l.mapM f) := by
  induction l with
  | nil => simp
  | cons a l ih => rw [List.mapM_cons]; exact bind (h a) fun _ => bind ih fun _ => pure _
@[simp] theorem forM {γ : Type} {f : γ → MM PUnit} (h : ∀ a, Tidy (f a)) (l : List γ) : Tidy (l.forM f) := by
  induction l with
  | nil => exact pure _
  | cons a l ih => exact bind (h a) fun _ => ih
@[simp] theorem ite {c : Prop} [Decidable c] {a b : MM α} (h : Tidy a) (k : Tidy b) : Tidy (if c then a else b) := by
  split <;> assumption

end Tidy

namespace MM

theorem readAt_clean {w : MemRun} (h : Memory.Clean w.mem) (a n : Nat) :
    (readAt a n).run.run w = (.ok ((List.range n).map fun i => Memory.seen w.mem (a + i)),
      { w with txn := w.txn + Memory.linesOf a n, runs := (a, n) :: w.runs }) := by
  have e := Memory.read_clean h.1 a n
  show ((do
    let (r, m) := Memory.read w.mem a n
    set { w with mem := m, txn := w.txn + Memory.linesOf a n, runs := (a, n) :: w.runs }
    match r with
    | .ok d => pure d
    | .error l => throw (.bad l) : MM Bytes)).run.run w = _
  rw [e]
  rfl

@[simp] theorem readAt_tidy (a n : Nat) : Tidy (readAt a n) := ⟨fun w h => by
  rw [readAt_clean h]
  exact ⟨h, rfl, fun l q => by cases q⟩⟩
theorem writeAt_clean {w : MemRun} (h : Memory.Clean w.mem) (v : Via) (a : Nat) (b : Bytes) :
    ∃ m k r q, (writeAt v a b).run.run w = (.ok (), { w with mem := m, txn := k, runs := r, wrote := q }) ∧ Memory.Clean m ∧
      ∀ x, Memory.seen m x = if a ≤ x ∧ x < a + b.length then b.getD (x - a) Memory.blank else Memory.seen w.mem x := by
  obtain ⟨q1, q2⟩ := Memory.write_spec h.2 v.who v.cls v.time a b
  obtain ⟨q2, q3, q4⟩ := q2 h.1
  refine ⟨(Memory.write w.mem v.who v.cls v.time a b).1, w.txn + Memory.linesOf a b.length, (a, b.length) :: w.runs,
    (List.range (Memory.linesOf a b.length)).map (a / 64 + ·) ++ w.wrote, ?_, ⟨q3, q1⟩, q4⟩
  show (Except.ok (), ({ mem := (Memory.write w.mem v.who v.cls v.time a b).1, txn := w.txn + Memory.linesOf a b.length,
                          runs := (a, b.length) :: w.runs,
                          wrote := (List.range (Memory.linesOf a b.length)).map (a / 64 + ·) ++ w.wrote, lost := w.lost ++ (Memory.write w.mem v.who v.cls v.time a b).2 } : MemRun)) = _
  rw [q2, List.append_nil]
@[simp] theorem writeAt_tidy (v : Via) (a : Nat) (b : Bytes) : Tidy (writeAt v a b) := ⟨fun w h => by
  obtain ⟨m, _, _, _, e, c, _⟩ := writeAt_clean h v a b
  rw [e]
  exact ⟨c, rfl, fun l q => by cases q⟩⟩
@[simp] theorem flushLine_tidy (a : Nat) : Tidy (flushLine a) := ⟨fun w h => by
  obtain ⟨q1, q2, q3⟩ := Memory.flushWhere_clean h.2 h.1 (fun e => e.line == a / 64)
  have q4 := Memory.flushWhere_bufOk (m := w.mem) (fun e => e.line == a / 64) h.2
  refine ⟨⟨q2, q4⟩, ?_, fun l q => by cases q⟩
  show w.lost ++ (Memory.flushWhere w.mem fun e => e.line == a / 64).2 = w.lost
  rw [q1, List.append_nil]⟩
@[simp] theorem readAll_tidy (l : List (Nat × Nat)) : Tidy (readAll l) := by
  induction l with
  | nil => exact Tidy.pure _
  | cons a l ih => exact Tidy.bind (readAt_tidy _ _) fun _ => Tidy.bind ih fun _ => Tidy.pure _
@[simp] theorem writeAll_tidy (v : Via) (l : List (Nat × Nat)) (b : Bytes) : Tidy (writeAll v l b) := by
  induction l generalizing b with
  | nil => exact Tidy.pure _
  | cons a l ih => exact Tidy.bind (writeAt_tidy _ _ _) fun _ => ih _
@[simp] theorem read_tidy (v : Via) (a n : Nat) : Tidy (MM.read v a n) := by
  unfold MM.read
  split
  · exact Tidy.refuse _
  · exact readAll_tidy _
@[simp] theorem write_tidy (v : Via) (a : Nat) (b : Bytes) : Tidy (MM.write v a b) := by
  unfold MM.write
  split
  · exact Tidy.refuse _
  · exact writeAll_tidy _ _ _
@[simp] theorem get_tidy (v : Via) (a n : Nat) : Tidy (MM.get v a n) := Tidy.bind (read_tidy _ _ _) fun _ => Tidy.pure _
@[simp] theorem put_tidy (v : Via) (a n x : Nat) : Tidy (MM.put v a n x) := write_tidy _ _ _
@[simp] theorem flush_tidy (v : Via) (a : Nat) : Tidy (MM.flush v a) := by
  unfold MM.flush
  split
  · exact Tidy.pure _
  · exact flushLine_tidy _

/-- A read inside one page that translation allows. -/
theorem read_one {w : MemRun} (h : Memory.Clean w.mem) (v : Via) {a n m : Nat} (h0 : 0 < n) (hp : a % 4096 + n ≤ 4096)
    (hx : xlat v.host v.fn a false = some m) :
    ∃ k r, (MM.read v a n).run.run w =
      (.ok ((List.range n).map fun i => Memory.seen w.mem (m + i)), { w with txn := k, runs := r }) := by
  unfold MM.read
  rw [xlatRun_one h0 hp hx]
  refine ⟨w.txn + Memory.linesOf m n, (m, n) :: w.runs, ?_⟩
  show ((readAt m n >>= fun d => readAll [] >>= fun e => Pure.pure (d ++ e)) : MM Bytes).run.run w = _
  have e := readAt_clean h m n
  show (ExceptT.bindCont (fun d => readAll [] >>= fun e => Pure.pure (d ++ e)) ((readAt m n).run.run w).1) ((readAt m n).run.run w).2 = _
  rw [e]
  show (Except.ok (_ ++ []), _) = _
  rw [List.append_nil]
/-- A write inside one page that translation allows. -/
theorem write_one {w : MemRun} (h : Memory.Clean w.mem) (v : Via) {a m : Nat} {b : Bytes} (h0 : 0 < b.length)
    (hp : a % 4096 + b.length ≤ 4096) (hx : xlat v.host v.fn a true = some m) :
    ∃ n k r q, (MM.write v a b).run.run w = (.ok (), { w with mem := n, txn := k, runs := r, wrote := q }) ∧ Memory.Clean n ∧
      ∀ x, Memory.seen n x = if m ≤ x ∧ x < m + b.length then b.getD (x - m) Memory.blank else Memory.seen w.mem x := by
  unfold MM.write
  rw [xlatRun_one h0 hp hx]
  obtain ⟨n, k, r, l, e, c, q⟩ := writeAt_clean h v m b
  refine ⟨n, k, r, l, ?_, c, q⟩
  have ht : b.take b.length = b := List.take_length
  show (ExceptT.bindCont (fun _ => writeAll v [] (b.drop b.length)) ((writeAt v m (b.take b.length)).run.run w).1) ((writeAt v m (b.take b.length)).run.run w).2 = _
  rw [ht, e]
  rfl

/-- The charges of a run change the budget counters alone. -/
theorem charges_eq (c : Sched) (k : Nat) (w : MemRun) : charges c k w = { c with budgets := (charges c k w).budgets } := by
  have key : ∀ (l : List (Nat × Nat)) (c : Sched), l.foldl (fun c (p : Nat × Nat) => chargeStacks c w.mem p.1 p.2) c =
      { c with budgets := (l.foldl (fun c (p : Nat × Nat) => chargeStacks c w.mem p.1 p.2) c).budgets } := by
    intro l
    induction l with
    | nil => intro c; rfl
    | cons p l ih =>
      intro c
      rw [List.foldl_cons]
      conv_lhs => rw [ih, chargeStacks_eq]
      conv_rhs => rw [chargeStacks_eq]
  exact (key w.runs (charge c k w.txn 0)).trans rfl

end MM

/-- What a run on a state without error patterns does: it changes memory and the budgets, and nothing is lost. -/
theorem JobOps.run_clean {α : Type} {s : State} (h : memClean s) (k : Nat) {act : MM α} (a : Tidy act) :
    ∃ r t, JobOps.run s k act = (r, t) ∧ (act.run.run ⟨s.mem, 0, [], [], []⟩).1 = r ∧ memClean t ∧ (∀ l, r ≠ .error (.bad l)) ∧
      (∀ x, byteOf t x = Memory.seen (act.run.run ⟨s.mem, 0, [], [], []⟩).2.mem x) ∧
      t = { s with mem := t.mem, sched := { s.sched with budgets := t.sched.budgets } } := by
  obtain ⟨q1, q2, q3⟩ := a.run ⟨s.mem, 0, [], [], []⟩ h
  generalize hw : act.run.run ⟨s.mem, 0, [], [], []⟩ = w at *
  obtain ⟨r, w⟩ := w
  have hd := drain_eq ((s.setMem w.mem).setSched (MM.charges s.sched k w))
  refine ⟨r, drain ((s.setMem w.mem).setSched (MM.charges s.sched k w)), ?_, rfl, ?_, q3, ?_, ?_⟩
  · unfold JobOps.run MM.exec
    rw [hw]
    dsimp only at q2 ⊢
    rw [q2]
    rfl
  · rw [hd]; exact q1
  · intro x; rw [hd]; rfl
  · rw [hd, MM.charges_eq]; rfl

end Machine
end Sys2Proof
end

