-- ==== Sys2Proof/Laws/EvolvesOps.lean ====
section
/-! SUPPORT. Evolves for the shared operations, the starts, the links and the job operations: one lemma an operation. -/

namespace Sys2Proof

-- one search serves every lemma of this file, and none needs all of its steps
set_option linter.unusedTactic false
set_option linter.unreachableTactic false
set_option linter.unusedSimpArgs false
namespace Machine

open Bits Ops
variable {org s : State}

section
open Bits
@[simp] theorem Ops.appendLog_next (l : EvLog) (e : Event) (n f : Bool) : (appendLog l e n f).next = l.next + 1 := rfl
open Ops in
@[simp] theorem Ops.tick_ev (t : Nat) (h : Evolves org s) : Evolves org (Ops.tick s t) := by
  unfold Ops.tick
  simp (maxDischargeDepth := 9) [h]
open Ops in
@[simp] theorem Ops.countFault_ev (cls : Nat) (h : Evolves org s) : Evolves org (Ops.countFault s cls) := by
  unfold Ops.countFault
  simp (maxDischargeDepth := 9) [h]
open Ops in
@[simp] theorem Ops.logQuiet_ev (r : Report) (h : Evolves org s) : Evolves org (Ops.logQuiet s r) := by
  have e : ∀ l : EvLog, s.log.next ≤ l.next → ∀ m c, Evolves org (countFault (if pldmTakes r then ((s.setSched (charge s.sched 10 1 0)).setLog l).setMgmt m
      else (s.setSched (charge s.sched 10 1 0)).setLog l) c) :=
    fun l k m c => countFault_ev _ (by have := ev_setLog ((ev_setSched (charge s.sched 10 1 0)).2 h) k; split <;> simpa)
  exact e _ (Nat.le_succ _) _ _
open Ops in
@[simp] theorem Ops.logEvent_ev (r : Report) (h : Evolves org s) : Evolves org (Ops.logEvent s r) := by
  unfold Ops.logEvent
  simp (maxDischargeDepth := 9) [h]
open Ops in
@[simp] theorem Ops.fresh_ev (h : Evolves org s) : Evolves org (Ops.fresh s).2 := by
  unfold Ops.fresh
  simp (maxDischargeDepth := 9) [h]
open Ops in
@[simp] theorem Ops.readMem_ev (k a n : Nat) (h : Evolves org s) : Evolves org (Ops.readMem s k a n).2 := by
  have e : Evolves org ((s.setMem (Memory.read s.mem a n).2).setSched (chargeStacks (charge s.sched k (Memory.linesOf a n) 0) s.mem a n)) := by
    simp [h]
  unfold readMem
  dsimp only
  split <;> exact e
open Ops in
@[simp] theorem Ops.readPieces_ev (k : Nat) (l : List (Nat × Nat)) (b : Bytes) (h : Evolves org s) :
    Evolves org (readPieces s k l b).2 := by
  induction l generalizing s b with
  | nil => exact h
  | cons p l ih =>
    have e := readMem_ev k p.1 p.2 h
    unfold readPieces
    split <;> (rename_i q; rw [q] at e)
    · exact ih _ e
    all_goals exact e
open Ops in
@[simp] theorem Ops.readLog_ev (f k a n : Nat) (h : Evolves org s) : Evolves org (Ops.readLog s f k a n).2 := by
  unfold readLog
  split
  · exact h
  · exact readPieces_ev _ _ _ h
open Ops in
@[simp] theorem Ops.logLost_ev (l : Memory.Lost) (h : Evolves org s) : Evolves org (logLost s l) := by
  induction l generalizing s with
  | nil => exact h
  | cons p l ih =>
    unfold logLost
    exact ih (logEvent_ev _ h)
open Ops in
@[simp] theorem Ops.drain_ev (h : Evolves org s) : Evolves org (Ops.drain s) := by
  unfold drain
  split
  · exact h
  · exact ev_setMem (by simpa) (Memory.keeps_of_bytes rfl rfl)
open Ops in
@[simp] theorem Ops.writeMem_ev (w : Writer) (k a : Nat) (b : Bytes) (h : Evolves org s) : Evolves org (Ops.writeMem s w k a b).1 := by
  unfold writeMem
  exact drain_ev (by simp [h])
open Ops in
@[simp] theorem Ops.writePieces_ev (w : Writer) (k : Nat) (l : List (Nat × Nat)) (b : Bytes) (h : Evolves org s) :
    Evolves org (writePieces s w k l b).1 := by
  induction l generalizing s b with
  | nil => exact h
  | cons p l ih => exact ih _ (writeMem_ev _ _ _ _ h)
open Ops in
theorem Ops.writeLog_ev (w : Writer) (k f a : Nat) (b : Bytes) (h : Evolves org s) :
    ∀ t ∈ writeLog s w k f a b, Evolves org t.1 := by
  intro t m
  obtain ⟨ps, _, rfl⟩ := Option.map_eq_some_iff.1 m
  exact writePieces_ev _ _ _ _ h
open Ops in
theorem Ops.hubWrite_ev (k f a : Nat) (b : Bytes) (h : Evolves org s) : ∀ t, Ops.hubWrite s k f a b = some t → Evolves org t := by
  intro t m
  obtain ⟨x, e, rfl⟩ := Option.map_eq_some_iff.1 m
  exact logLost_ev _ (writeLog_ev _ _ _ _ _ h _ e)
open Ops in
@[simp] theorem Ops.flushWhere_ev (p : WcEntry → Bool) (h : Evolves org s) : Evolves org (Ops.flushWhere s p).1 := by
  unfold flushWhere
  exact drain_ev (by simp [h])
end

section
open Bits Ops
@[simp] theorem Starts.keeps_reset (m : Mem) : Memory.Keeps m State.resetMem := ⟨fun _ => rfl, fun _ => Memory.wcOk_nil⟩
open Starts in
@[simp] theorem Starts.volatileLost_ev (h : Evolves org s) : Evolves org (Starts.volatileLost s) := by
  unfold volatileLost
  simp (maxDischargeDepth := 9) [h, fresh]
open Starts in
@[simp] theorem Starts.stepStop_ev (code source a0 a1 : Nat) (h : Evolves org s) : Evolves org (Starts.stepStop s code source a0 a1) := by
  unfold Starts.stepStop
  simp (maxDischargeDepth := 9) [h]
open Starts in
@[simp] theorem Starts.startStep_ev (n : Nat) (h : Evolves org s) : Evolves org (Starts.startStep s n) := by
  unfold Starts.startStep
  (repeat' (first | assumption | (simp (maxDischargeDepth := 9) [‹Evolves org _›]; done) | split | dsimp only))
open Starts in
@[simp] theorem Starts.coldState_ev (h : Evolves org s) : Evolves org (Starts.coldState s) := by
  unfold Starts.coldState
  simp (maxDischargeDepth := 9) [h]
open Starts in
@[simp] theorem Starts.coldStart_ev (h : Evolves org s) : Evolves org (Starts.coldStart s) := by
  unfold Starts.coldStart
  simp (maxDischargeDepth := 9) [h]
open Starts in
@[simp] theorem Starts.railsOff_ev (ph : PowerPhase) (h : Evolves org s) : Evolves org (Starts.railsOff s ph) := by
  unfold Starts.railsOff
  simp (maxDischargeDepth := 9) [h]
open Starts in
@[simp] theorem Starts.thermalTrip_ev (arg0 : Nat) (temp : Int) (h : Evolves org s) : Evolves org (Starts.thermalTrip s arg0 temp) := by
  unfold Starts.thermalTrip
  simp (maxDischargeDepth := 9) [h]
open Starts in
@[simp] theorem Starts.runStore_ev (k : StoreKind) (h : Evolves org s) : Evolves org (runStore s k) := by
  cases k with
  | flashLog => exact ev_setLog ((ev_setFlash _).2 h) le_rfl
  | fieldMask => simpa [runStore] using h
  | training l => simpa [runStore] using h
  | fuseSvn n => exact ev_svn h n
open Starts in
@[simp] theorem Starts.wantStore_ev (t : Nat) (k : StoreKind) (h : Evolves org s) : Evolves org (Starts.wantStore s t k) := by
  unfold Starts.wantStore
  simp (maxDischargeDepth := 9) [h]
open Starts in
@[simp] theorem Starts.runWaiting_ev (t : Nat) (h : Evolves org s) : Evolves org (Starts.runWaiting s t) := by
  unfold Starts.runWaiting
  (repeat' (first | assumption | (simp (maxDischargeDepth := 9) [‹Evolves org _›]; done) | (with_reducible refine ev_foldl (fun _ _ _ => ?_) _ ?_) | dsimp only | (simp +contextual (maxDischargeDepth := 9) [‹Evolves org _›]; done) | (rename _ = (_, _) => q; replace q := snd_ev (o := org) q (by simp (maxDischargeDepth := 9) [‹Evolves org _›]; done)) | (rename _ = (_, _) => q; replace q := fst_ev (o := org) q (by simp (maxDischargeDepth := 9) [‹Evolves org _›]; done)) | split | intro _ | dsimp only))
end

section
open Bits Ops Starts
open Pwr
open Pwr in
@[simp] theorem Pwr.noteInput_ev (t mv : Nat) (h : Evolves org s) : Evolves org (Pwr.noteInput s t mv) := by
  unfold Pwr.noteInput
  simp (maxDischargeDepth := 9) [h]
open Pwr in
@[simp] theorem Pwr.enterBrake_ev (cause : Nat) (h : Evolves org s) : Evolves org (Pwr.enterBrake s cause) := by
  unfold Pwr.enterBrake
  simp (maxDischargeDepth := 9) [h]
open Pwr in
@[simp] theorem Pwr.causeEnds_ev (t : Nat) (h : Evolves org s) : Evolves org (Pwr.causeEnds s t) := by
  unfold Pwr.causeEnds
  simp (maxDischargeDepth := 9) [h]
end

section
open Bits Ops Starts
open Bring in
@[simp] theorem Bring.stepDone_ev (h : Evolves org s) : Evolves org (Bring.stepDone s) := by
  unfold Bring.stepDone
  simp (maxDischargeDepth := 9) [h]
open Bring in
@[simp] theorem Bring.stepSkipped_ev (h : Evolves org s) : Evolves org (Bring.stepSkipped s) := by
  unfold Bring.stepSkipped
  simp (maxDischargeDepth := 9) [h]
open Bring in
theorem Bring.onStep_ev (n : Nat) {work : State → State} (k : Evolves org s → Evolves org (work s)) (h : Evolves org s) :
    Evolves org (onStep s n work) := by
  unfold onStep
  split
  · exact k h
  · exact h
open Bring in
@[simp] theorem Bring.writeStep_ev (v : Nat) (h : Evolves org s) : Evolves org (Bring.writeStep s v) := by
  unfold Bring.writeStep
  simp (maxDischargeDepth := 9) [h]
open Bring in
@[simp] theorem Bring.addField_ev (p : Nat) (h : Evolves org s) : Evolves org (Bring.addField s p) := by
  unfold Bring.addField
  simp (maxDischargeDepth := 9) [h]
open Bring in
@[simp] theorem Bring.chargeFetch_ev (n : Nat) (h : Evolves org s) : Evolves org (Bring.chargeFetch s n) := by
  unfold Bring.chargeFetch
  simp (maxDischargeDepth := 9) [h]
open Bring in
@[simp] theorem Bring.removeNow_ev (p : Nat) (h : Evolves org s) : Evolves org (Bring.removeNow s p) := by
  unfold Bring.removeNow
  simp (maxDischargeDepth := 9) [h]
open Bring in
@[simp] theorem Bring.fetchFails_ev (p : Nat) (h : Evolves org s) : Evolves org (Bring.fetchFails s p) := by
  unfold Bring.fetchFails
  split
  · simp (maxDischargeDepth := 9) [h]
  · exact h
end

section
open Bits Ops
open Link in
@[simp] theorem Link.putPort_ev (p : Nat) (x : Port) (h : Evolves org s) : Evolves org (Link.putPort s p x) := by
  unfold Link.putPort
  simp (maxDischargeDepth := 9) [h]
open Link in
@[simp] theorem Link.putCfg_ev (p : Nat) (x : PortCfg) (h : Evolves org s) : Evolves org (Link.putCfg s p x) := by
  unfold Link.putCfg
  simp (maxDischargeDepth := 9) [h]
open Link in
@[simp] theorem Link.emit_ev (p : Nat) (f : Sys2Proof.Frame) (h : Evolves org s) : Evolves org (Link.emit s p f) := by
  unfold Link.emit
  simp (maxDischargeDepth := 9) [h]
open Link in
@[simp] theorem Link.sendPlain_ev (p k : Nat) (pay : Bytes) (h : Evolves org s) : Evolves org (Link.sendPlain s p k pay) := by
  unfold Link.sendPlain
  simp (maxDischargeDepth := 9) [h]
open Link in
@[simp] theorem Link.sendIdle_ev (p : Nat) (h : Evolves org s) : Evolves org (Link.sendIdle s p) := by
  unfold Link.sendIdle
  simp (maxDischargeDepth := 9) [h]
open Link in
@[simp] theorem Link.sendLink_ev (p : Nat) (blk : Bytes) (h : Evolves org s) : Evolves org (Link.sendLink s p blk) := by
  unfold Link.sendLink
  simp (maxDischargeDepth := 9) [h]
open Link in
@[simp] theorem Link.sendHello_ev (p : Nat) (h : Evolves org s) : Evolves org (Link.sendHello s p) := by
  unfold Link.sendHello
  simp (maxDischargeDepth := 9) [h]
open Link in
@[simp] theorem Link.sendReplay_ev (p : Nat) (h : Evolves org s) : Evolves org (Link.sendReplay s p) := by
  unfold Link.sendReplay
  simp (maxDischargeDepth := 9) [h]
open Link in
@[simp] theorem Link.ended_ev (p : Nat) (h : Evolves org s) : Evolves org (Link.ended s p) := by
  unfold Link.ended
  simp (maxDischargeDepth := 9) [h]
open Link in
@[simp] theorem Link.train_ev (p : Nat) (h : Evolves org s) : Evolves org (Link.train s p) := by
  unfold Link.train
  simp (maxDischargeDepth := 9) [h]
open Link in
@[simp] theorem Link.leaveUp_ev (p : Nat) (h : Evolves org s) : Evolves org (Link.leaveUp s p) := by
  unfold Link.leaveUp
  simp (maxDischargeDepth := 9) [h]
open Link in
@[simp] theorem Link.goDown_ev (p : Nat) (h : Evolves org s) : Evolves org (Link.goDown s p) := by
  unfold Link.goDown
  simp (maxDischargeDepth := 9) [h]
open Link in
@[simp] theorem Link.linkTrainDone_ev (h : Evolves org s) : Evolves org (Link.linkTrainDone s) := by
  unfold Link.linkTrainDone
  simp (maxDischargeDepth := 9) [h]
open Link in
@[simp] theorem Link.sealFrame_ev (p : Nat) (x : BitVec 96) (b : Bytes) (h : Evolves org s) :
    Evolves org (sealFrame s p x b).2.2 := by
  simp [sealFrame, h]
open Link in
@[simp] theorem Link.wire_ev (p : Nat) (seq : Nat) (f : Sys2Proof.Frame) (h : Evolves org s) : Evolves org (Link.wire s p seq f) := by
  unfold wire
  dsimp only
  split
  · split <;> simp (maxDischargeDepth := 9) [h]
  · simp [h]
open Link in
@[simp] theorem Link.sendNow_ev (p : Nat) (f : Sys2Proof.Frame) (h : Evolves org s) : Evolves org (Link.sendNow s p f) := by
  unfold Link.sendNow
  simp (maxDischargeDepth := 9) [h]
open Link in
@[simp] theorem Link.send_ev (p : Nat) (f : Sys2Proof.Frame) (h : Evolves org s) : Evolves org (Link.send s p f) := by
  unfold Link.send
  simp (maxDischargeDepth := 9) [h]
open Link in
@[simp] theorem Link.drain_ev (l : List (Nat × Sys2Proof.Frame)) (p : Nat) (h : Evolves org s) : Evolves org (drain l s p) := by
  induction l generalizing s with
  | nil => exact h
  | cons x l ih =>
    obtain ⟨_, f⟩ := x
    unfold drain
    split
    · exact ih (sendNow_ev _ _ (putPort_ev _ _ h))
    · exact h
open Link in
@[simp] theorem Link.drainQueue_ev (p : Nat) (h : Evolves org s) : Evolves org (Link.drainQueue s p) := by
  exact drain_ev _ _ h
open Link in
@[simp] theorem Link.quarantine_ev (p : Nat) (h : Evolves org s) : Evolves org (Link.quarantine s p) := by
  unfold Link.quarantine
  simp (maxDischargeDepth := 9) [h]
open Link in
@[simp] theorem Link.violate_ev (p reason : Nat) (h : BitVec 96) (hv : Evolves org s) : Evolves org (Link.violate s p reason h) := by
  unfold Link.violate
  (repeat' (first | assumption | (simp (maxDischargeDepth := 9) [‹Evolves org _›]; done) | split | dsimp only))
open Link in
@[simp] theorem Link.violateNak_ev (p reason : Nat) (f : Sys2Proof.Frame) (h : Evolves org s) : Evolves org (Link.violateNak s p reason f) := by
  unfold Link.violateNak
  simp (maxDischargeDepth := 9) [h]
open Link in
theorem Link.openFrame_ev (p : Nat) (f : Sys2Proof.Frame) (h : Evolves org s) :
    ∀ x ∈ openFrame s p f, Evolves org x.2 := by
  intro x m
  unfold openFrame at m
  dsimp only at m
  (repeat' split at m) <;> simp_all
  obtain ⟨_, rfl⟩ := m
  exact putCfg_ev _ _ h
open Link in
@[simp] theorem Link.applyAck_ev (p ack : Nat) (h : Evolves org s) : Evolves org (Link.applyAck s p ack) := by
  unfold Link.applyAck
  simp (maxDischargeDepth := 9) [h]
open Link in
/-- What a received frame comes to, whatever it is, evolves. -/
def Link.RxEv (org : State) : Rx → Prop
  | .drop t => Evolves org t
  | .take _ t => Evolves org t
@[simp] theorem Link.rxEv_drop {t : State} : RxEv org (.drop t) ↔ Evolves org t := Iff.rfl
@[simp] theorem Link.rxEv_take {f : Sys2Proof.Frame} {t : State} : RxEv org (.take f t) ↔ Evolves org t := Iff.rfl
@[simp] theorem Link.badCrc_ev (p : Nat) (h : Evolves org s) : Evolves org (badCrc s p) := by
  have e : Evolves org (fresh s).2 := fresh_ev h
  unfold badCrc
  dsimp only
  exact sendReplay_ev _ (putPort_ev _ _ e)
@[simp] theorem Link.accept_ev (p : Nat) (f : Sys2Proof.Frame) (enc : Bool) (h : Evolves org s) :
    Evolves org (accept s p f enc) := by
  unfold accept
  simp (maxDischargeDepth := 9) [h]
theorem Link.receive_ev (p : Nat) (f : Sys2Proof.Frame) (h : Evolves org s) : RxEv org (receive s p f) := by
  unfold receive
  extract_lets x enc
  split
  · exact h
  split
  · exact badCrc_ev _ h
  split
  · exact sendReplay_ev _ h
  · next g t e =>
    have k : Evolves org t := by
      split at e
      · exact openFrame_ev _ _ h _ e
      · split at e
        · simp at e
        · simp only [Option.some.injEq, Prod.mk.injEq] at e
          rw [← e.2]
          exact h
    clear e
    dsimp only
    (repeat' split) <;> simp (maxDischargeDepth := 9) [k]
open Link in
@[simp] theorem Link.enterUp_ev (p : Nat) (h : Evolves org s) : Evolves org (Link.enterUp s p) := by
  unfold Link.enterUp
  (repeat' (first | assumption | (simp (maxDischargeDepth := 9) [‹Evolves org _›]; done) | (with_reducible refine ev_foldl (fun _ _ _ => ?_) _ ?_) | dsimp only | (simp +contextual (maxDischargeDepth := 9) [‹Evolves org _›]; done) | (rename _ = (_, _) => q; replace q := snd_ev (o := org) q (by simp (maxDischargeDepth := 9) [‹Evolves org _›]; done)) | (rename _ = (_, _) => q; replace q := fst_ev (o := org) q (by simp (maxDischargeDepth := 9) [‹Evolves org _›]; done)) | split | intro _ | dsimp only))
open Link in
@[simp] theorem Link.lockFails_ev (p : Nat) (h : Evolves org s) : Evolves org (Link.lockFails s p) := by
  unfold Link.lockFails
  simp (maxDischargeDepth := 9) [h]
end

section
open Bits Ops Starts Bring
theorem Bring.writeCopies_keeps (b : BringUp) (n : Nat) (m : Mem) : Memory.Keeps m (Bring.writeCopies b n m) := by
  induction n with
  | zero => exact Memory.keeps_refl m
  | succ n ih => exact ⟨fun h => Memory.put_wf _ _ _ (ih.1 h), fun h => Memory.wcOk_filter _ (ih.2 h)⟩
open Bring in
@[simp] theorem Bring.countDown_ev (n : Nat) (h : Evolves org s) : Evolves org (Bring.countDown s n) := by
  unfold Bring.countDown
  simp (maxDischargeDepth := 9) [h]
@[simp] theorem Bring.coldDowntime_ev (h : Evolves org s) : Evolves org (Bring.coldDowntime s) := by
  unfold Bring.coldDowntime
  split
  · exact h
  · exact countDown_ev _ h
open Bring in
@[simp] theorem Bring.katReport_ev (source arg0 e c : Nat) (h : Evolves org s) : Evolves org (Bring.katReport s source arg0 e c) := by
  unfold Bring.katReport
  simp (maxDischargeDepth := 9) [h]
end

section
open Bits
open MM in
@[simp] theorem MM.readAll_keeps (l : List (Nat × Nat)) : Keeps (readAll l) := by
  induction l with
  | nil => simp [readAll]
  | cons a l ih => simp [readAll, ih]
open MM in
@[simp] theorem MM.writeAll_keeps (v : Via) (l : List (Nat × Nat)) (b : Bytes) : Keeps (writeAll v l b) := by
  induction l generalizing b with
  | nil => simp [writeAll]
  | cons a l ih => simp [writeAll, ih]
open MM in
@[simp] theorem MM.read_keeps (v : Via) (a n : Nat) : Keeps (MM.read v a n) := by
  unfold MM.read
  (repeat' (first | assumption | (with_reducible apply Keeps.bind) | (with_reducible apply Keeps.map) | (with_reducible apply Keeps.ite) | intro _ | split | (simp (maxDischargeDepth := 9); done) | dsimp only))
open MM in
@[simp] theorem MM.write_keeps (v : Via) (a : Nat) (b : Bytes) : Keeps (MM.write v a b) := by
  unfold MM.write
  (repeat' (first | assumption | (with_reducible apply Keeps.bind) | (with_reducible apply Keeps.map) | (with_reducible apply Keeps.ite) | intro _ | split | (simp (maxDischargeDepth := 9); done) | dsimp only))
open MM in
@[simp] theorem MM.get_keeps (v : Via) (a n : Nat) : Keeps (MM.get v a n) := by
  unfold MM.get
  (repeat' (first | assumption | (with_reducible apply Keeps.bind) | (with_reducible apply Keeps.map) | (with_reducible apply Keeps.ite) | intro _ | split | (simp (maxDischargeDepth := 9); done) | dsimp only))
open MM in
@[simp] theorem MM.put_keeps (v : Via) (a n x : Nat) : Keeps (MM.put v a n x) := by
  unfold MM.put
  (repeat' (first | assumption | (with_reducible apply Keeps.bind) | (with_reducible apply Keeps.map) | (with_reducible apply Keeps.ite) | intro _ | split | (simp (maxDischargeDepth := 9); done) | dsimp only))
open MM in
@[simp] theorem MM.flush_keeps (v : Via) (a : Nat) : Keeps (MM.flush v a) := by
  unfold MM.flush
  (repeat' (first | assumption | (with_reducible apply Keeps.bind) | (with_reducible apply Keeps.map) | (with_reducible apply Keeps.ite) | intro _ | split | (simp (maxDischargeDepth := 9); done) | dsimp only))
open MM in
@[simp] theorem MM.exec_ev {α : Type} (k : Nat) {act : MM α} (a : Keeps act) (h : Evolves org s) :
    Evolves org (exec s k act).2.1 :=
  drain_ev ((ev_setSched _).2 (ev_setMem h (a.run ⟨s.mem, 0, [], [], []⟩)))
end

section
open Bits
open CacheOps in
@[simp] theorem CacheOps.readSeq_keeps (v : Via) (c : Bytes) (q : Nat) : Keeps (CacheOps.readSeq v c q) := by
  unfold CacheOps.readSeq
  (repeat' (first | assumption | (with_reducible apply Keeps.bind) | (with_reducible apply Keeps.map) | (with_reducible apply Keeps.ite) | intro _ | split | (simp (maxDischargeDepth := 9); done) | dsimp only))
open CacheOps in
@[simp] theorem CacheOps.setLen_keeps (v : Via) (c : Bytes) (q n : Nat) : Keeps (CacheOps.setLen v c q n) := by
  unfold CacheOps.setLen
  (repeat' (first | assumption | (with_reducible apply Keeps.bind) | (with_reducible apply Keeps.map) | (with_reducible apply Keeps.ite) | intro _ | split | (simp (maxDischargeDepth := 9); done) | dsimp only))
open CacheOps in
@[simp] theorem CacheOps.readEntry_keeps (v : Via) (q : Seq) (i : Nat) : Keeps (CacheOps.readEntry v q i) := by
  unfold CacheOps.readEntry
  (repeat' (first | assumption | (with_reducible apply Keeps.bind) | (with_reducible apply Keeps.map) | (with_reducible apply Keeps.ite) | intro _ | split | (simp (maxDischargeDepth := 9); done) | dsimp only))
open CacheOps in
@[simp] theorem CacheOps.putEntry_keeps (v : Via) (q : Seq) (i e : Nat) : Keeps (CacheOps.putEntry v q i e) := by
  unfold CacheOps.putEntry
  (repeat' (first | assumption | (with_reducible apply Keeps.bind) | (with_reducible apply Keeps.map) | (with_reducible apply Keeps.ite) | intro _ | split | (simp (maxDischargeDepth := 9); done) | dsimp only))
open CacheOps in
@[simp] theorem CacheOps.readTree_keeps (v : Via) (c : Bytes) : Keeps (CacheOps.readTree v c) := by
  unfold CacheOps.readTree
  (repeat' (first | assumption | (with_reducible apply Keeps.bind) | (with_reducible apply Keeps.map) | (with_reducible apply Keeps.ite) | intro _ | split | (simp (maxDischargeDepth := 9); done) | dsimp only))
open CacheOps in
@[simp] theorem CacheOps.readNode_keeps (v : Via) (t : Tree) (n : Nat) : Keeps (CacheOps.readNode v t n) := by
  unfold CacheOps.readNode
  (repeat' (first | assumption | (with_reducible apply Keeps.bind) | (with_reducible apply Keeps.map) | (with_reducible apply Keeps.ite) | intro _ | split | (simp (maxDischargeDepth := 9); done) | dsimp only))
open CacheOps in
@[simp] theorem CacheOps.findHit_keeps (v : Via) (t : Tree) (h p : Nat) (b : Bytes) (k n : Nat) :
    Keeps (findHit v t h p b k n) := by
  induction k generalizing n with
  | zero => simp [findHit]
  | succ k ih =>
    unfold findHit
    (repeat' (first | assumption | (with_reducible apply Keeps.bind) | (with_reducible apply Keeps.map) | (with_reducible apply Keeps.ite) | intro _ | split | (simp (maxDischargeDepth := 9); done) | dsimp only))
    exact ih _
open CacheOps in
@[simp] theorem CacheOps.lookupHash_keeps (v : Via) (t : Tree) (h parent : Nat) (toks : Bytes) : Keeps (CacheOps.lookupHash v t h parent toks) := by
  unfold CacheOps.lookupHash
  (repeat' (first | assumption | (with_reducible apply Keeps.bind) | (with_reducible apply Keeps.map) | (with_reducible apply Keeps.ite) | intro _ | split | (simp (maxDischargeDepth := 9); done) | dsimp only))
open CacheOps in
@[simp] theorem CacheOps.setRefsOf_keeps (v : Via) (t : Tree) (n r : Nat) : Keeps (CacheOps.setRefsOf v t n r) := by
  unfold CacheOps.setRefsOf
  (repeat' (first | assumption | (with_reducible apply Keeps.bind) | (with_reducible apply Keeps.map) | (with_reducible apply Keeps.ite) | intro _ | split | (simp (maxDischargeDepth := 9); done) | dsimp only))
open CacheOps in
@[simp] theorem CacheOps.touch_keeps (v : Via) (t : Tree) (n now : Nat) : Keeps (CacheOps.touch v t n now) := by
  unfold CacheOps.touch
  (repeat' (first | assumption | (with_reducible apply Keeps.bind) | (with_reducible apply Keeps.map) | (with_reducible apply Keeps.ite) | intro _ | split | (simp (maxDischargeDepth := 9); done) | dsimp only))
open CacheOps in
@[simp] theorem CacheOps.addChildren_keeps (v : Via) (t : Tree) (n : Nat) (up : Bool) : Keeps (CacheOps.addChildren v t n up) := by
  unfold CacheOps.addChildren
  (repeat' (first | assumption | (with_reducible apply Keeps.bind) | (with_reducible apply Keeps.map) | (with_reducible apply Keeps.ite) | intro _ | split | (simp (maxDischargeDepth := 9); done) | dsimp only))
open CacheOps in
@[simp] theorem CacheOps.ownerOf_keeps (v : Via) (t : Tree) (page : Nat) : Keeps (CacheOps.ownerOf v t page) := by
  unfold CacheOps.ownerOf
  (repeat' (first | assumption | (with_reducible apply Keeps.bind) | (with_reducible apply Keeps.map) | (with_reducible apply Keeps.ite) | intro _ | split | (simp (maxDischargeDepth := 9); done) | dsimp only))
open CacheOps in
@[simp] theorem CacheOps.putOwner_keeps (v : Via) (t : Tree) (page n : Nat) : Keeps (CacheOps.putOwner v t page n) := by
  unfold CacheOps.putOwner
  (repeat' (first | assumption | (with_reducible apply Keeps.bind) | (with_reducible apply Keeps.map) | (with_reducible apply Keeps.ite) | intro _ | split | (simp (maxDischargeDepth := 9); done) | dsimp only))
open CacheOps in
@[simp] theorem CacheOps.freeCount_keeps (v : Via) (c : Bytes) : Keeps (CacheOps.freeCount v c) := by
  unfold CacheOps.freeCount
  (repeat' (first | assumption | (with_reducible apply Keeps.bind) | (with_reducible apply Keeps.map) | (with_reducible apply Keeps.ite) | intro _ | split | (simp (maxDischargeDepth := 9); done) | dsimp only))
open CacheOps in
@[simp] theorem CacheOps.pushPage_keeps (v : Via) (c : Bytes) (page : Nat) : Keeps (CacheOps.pushPage v c page) := by
  unfold CacheOps.pushPage
  (repeat' (first | assumption | (with_reducible apply Keeps.bind) | (with_reducible apply Keeps.map) | (with_reducible apply Keeps.ite) | intro _ | split | (simp (maxDischargeDepth := 9); done) | dsimp only))
open CacheOps in
@[simp] theorem CacheOps.popFree_keeps (v : Via) (c : Bytes) : Keeps (CacheOps.popFree v c) := by
  unfold CacheOps.popFree
  (repeat' (first | assumption | (with_reducible apply Keeps.bind) | (with_reducible apply Keeps.map) | (with_reducible apply Keeps.ite) | intro _ | split | (simp (maxDischargeDepth := 9); done) | dsimp only))
open CacheOps in
@[simp] theorem CacheOps.unchain_keeps (v : Via) (t : Tree) (n next k x : Nat) : Keeps (unchain v t n next k x) := by
  induction k generalizing x with
  | zero => simp [unchain]
  | succ k ih =>
    unfold unchain
    (repeat' (first | assumption | (with_reducible apply Keeps.bind) | (with_reducible apply Keeps.map) | (with_reducible apply Keeps.ite) | intro _ | split | (simp (maxDischargeDepth := 9); done) | dsimp only))
    exact ih _
open CacheOps in
@[simp] theorem CacheOps.freeNode_keeps (v : Via) (c : Bytes) (t : Tree) (n : Nat) : Keeps (CacheOps.freeNode v c t n) := by
  unfold CacheOps.freeNode
  (repeat' (first | assumption | (with_reducible apply Keeps.bind) | (with_reducible apply Keeps.map) | (with_reducible apply Keeps.ite) | intro _ | split | (simp (maxDischargeDepth := 9); done) | dsimp only))
open CacheOps in
@[simp] theorem CacheOps.oldestIdle_keeps (v : Via) (t : Tree) (now k : Nat) : Keeps (oldestIdle v t now k) := by
  induction k with
  | zero => simp [oldestIdle]
  | succ k ih =>
    unfold oldestIdle
    (repeat' (first | assumption | (with_reducible apply Keeps.bind) | (with_reducible apply Keeps.map) | (with_reducible apply Keeps.ite) | intro _ | split | (simp (maxDischargeDepth := 9); done) | dsimp only))
open CacheOps in
@[simp] theorem CacheOps.evict_keeps (v : Via) (c : Bytes) (t : Tree) (n : Nat) : Keeps (CacheOps.evict v c t n) := by
  unfold CacheOps.evict
  (repeat' (first | assumption | (with_reducible apply Keeps.bind) | (with_reducible apply Keeps.map) | (with_reducible apply Keeps.ite) | intro _ | split | (simp (maxDischargeDepth := 9); done) | dsimp only))
open CacheOps in
@[simp] theorem CacheOps.evictIfLow_keeps (v : Via) (c : Bytes) (now : Nat) : Keeps (CacheOps.evictIfLow v c now) := by
  unfold CacheOps.evictIfLow
  (repeat' (first | assumption | (with_reducible apply Keeps.bind) | (with_reducible apply Keeps.map) | (with_reducible apply Keeps.ite) | intro _ | split | (simp (maxDischargeDepth := 9); done) | dsimp only))
open CacheOps in
@[simp] theorem CacheOps.popPage_keeps (v : Via) (c : Bytes) (now : Nat) : Keeps (CacheOps.popPage v c now) := by
  unfold CacheOps.popPage
  (repeat' (first | assumption | (with_reducible apply Keeps.bind) | (with_reducible apply Keeps.map) | (with_reducible apply Keeps.ite) | intro _ | split | (simp (maxDischargeDepth := 9); done) | dsimp only))
open CacheOps in
@[simp] theorem CacheOps.takeNode_keeps (v : Via) (c : Bytes) (t : Tree) : Keeps (CacheOps.takeNode v c t) := by
  unfold CacheOps.takeNode
  (repeat' (first | assumption | (with_reducible apply Keeps.bind) | (with_reducible apply Keeps.map) | (with_reducible apply Keeps.ite) | intro _ | split | (simp (maxDischargeDepth := 9); done) | dsimp only))
open CacheOps in
@[simp] theorem CacheOps.writeNode_keeps (v : Via) (t : Tree) (n hash own parent next flags now : Nat) (toks : Bytes) : Keeps (CacheOps.writeNode v t n hash own parent next flags now toks) := by
  unfold CacheOps.writeNode
  (repeat' (first | assumption | (with_reducible apply Keeps.bind) | (with_reducible apply Keeps.map) | (with_reducible apply Keeps.ite) | intro _ | split | (simp (maxDischargeDepth := 9); done) | dsimp only))
open CacheOps in
@[simp] theorem CacheOps.keyNode_keeps (v : Via) (t : Tree) (n hash own parent now : Nat) (toks : Bytes) : Keeps (CacheOps.keyNode v t n hash own parent now toks) := by
  unfold CacheOps.keyNode
  (repeat' (first | assumption | (with_reducible apply Keeps.bind) | (with_reducible apply Keeps.map) | (with_reducible apply Keeps.ite) | intro _ | split | (simp (maxDischargeDepth := 9); done) | dsimp only))
open CacheOps in
@[simp] theorem CacheOps.parentOf_keeps (v : Via) (c : Bytes) (t : Tree) (nodeIn : Nat) : Keeps (CacheOps.parentOf v c t nodeIn) := by
  unfold CacheOps.parentOf
  (repeat' (first | assumption | (with_reducible apply Keeps.bind) | (with_reducible apply Keeps.map) | (with_reducible apply Keeps.ite) | intro _ | split | (simp (maxDischargeDepth := 9); done) | dsimp only))
open CacheOps in
@[simp] theorem CacheOps.pageTokens_keeps (v : Via) (q : Seq) (i : Nat) : Keeps (CacheOps.pageTokens v q i) := by
  unfold CacheOps.pageTokens
  (repeat' (first | assumption | (with_reducible apply Keeps.bind) | (with_reducible apply Keeps.map) | (with_reducible apply Keeps.ite) | intro _ | split | (simp (maxDischargeDepth := 9); done) | dsimp only))
open CacheOps in
@[simp] theorem CacheOps.releasePage_keeps (v : Via) (c : Bytes) (e : Nat) : Keeps (CacheOps.releasePage v c e) := by
  unfold CacheOps.releasePage
  (repeat' (first | assumption | (with_reducible apply Keeps.bind) | (with_reducible apply Keeps.map) | (with_reducible apply Keeps.ite) | intro _ | split | (simp (maxDischargeDepth := 9); done) | dsimp only))
open CacheOps in
@[simp] theorem CacheOps.lookup_keeps (v : Via) (c : Bytes) (now : Nat) (r : PReq) (nodeIn : Nat) : Keeps (CacheOps.lookup v c now r nodeIn) := by
  unfold CacheOps.lookup
  (repeat' (first | assumption | (with_reducible apply Keeps.bind) | (with_reducible apply Keeps.map) | (with_reducible apply Keeps.ite) | intro _ | split | (simp (maxDischargeDepth := 9); done) | dsimp only))
open CacheOps in
@[simp] theorem CacheOps.insert_keeps (v : Via) (c : Bytes) (now : Nat) (r : PReq) (nodeIn : Nat) : Keeps (CacheOps.insert v c now r nodeIn) := by
  unfold CacheOps.insert
  (repeat' (first | assumption | (with_reducible apply Keeps.bind) | (with_reducible apply Keeps.map) | (with_reducible apply Keeps.ite) | intro _ | split | (simp (maxDischargeDepth := 9); done) | dsimp only))
open CacheOps in
@[simp] theorem CacheOps.fork_keeps (v : Via) (c : Bytes) (now : Nat) (r : PReq) : Keeps (CacheOps.fork v c now r) := by
  unfold CacheOps.fork
  (repeat' (first | assumption | (with_reducible apply Keeps.bind) | (with_reducible apply Keeps.map) | (with_reducible apply Keeps.ite) | intro _ | split | (simp (maxDischargeDepth := 9); done) | dsimp only))
open CacheOps in
@[simp] theorem CacheOps.release_keeps (v : Via) (c : Bytes) (r : PReq) (fetching : Bool) : Keeps (CacheOps.release v c r fetching) := by
  unfold CacheOps.release
  (repeat' (first | assumption | (with_reducible apply Keeps.bind) | (with_reducible apply Keeps.map) | (with_reducible apply Keeps.ite) | intro _ | split | (simp (maxDischargeDepth := 9); done) | dsimp only))
open CacheOps in
@[simp] theorem CacheOps.evictReq_keeps (v : Via) (c : Bytes) (now : Nat) (r : PReq) : Keeps (CacheOps.evictReq v c now r) := by
  unfold CacheOps.evictReq
  (repeat' (first | assumption | (with_reducible apply Keeps.bind) | (with_reducible apply Keeps.map) | (with_reducible apply Keeps.ite) | intro _ | split | (simp (maxDischargeDepth := 9); done) | dsimp only))
open CacheOps in
@[simp] theorem CacheOps.walk_keeps (v : Via) (c : Bytes) (a footprint : Nat) : Keeps (CacheOps.walk v c a footprint) := by
  unfold CacheOps.walk
  (repeat' (first | assumption | (with_reducible apply Keeps.bind) | (with_reducible apply Keeps.map) | (with_reducible apply Keeps.ite) | intro _ | split | (simp (maxDischargeDepth := 9); done) | dsimp only))
end

section
open Bits
open Load in
@[simp] theorem Load.fetch_keeps (v : Via) (a n st ix : Nat) : Keeps (Load.fetch v a n st ix) := by
  refine ⟨fun w => ?_⟩
  have k := (MM.read_keeps v a n).run w
  unfold fetch
  show Memory.Keeps w.mem ((_ : LM Bytes).run.run w).2.mem
  have e : ∀ (x : Except MFail Bytes × MemRun), Memory.Keeps w.mem x.2.mem →
      Memory.Keeps w.mem (((do
        let (r, w) := x
        set w
        match r with
        | .ok d => Pure.pure d
        | .error (.refused _) => throw (.refuse st ix)
        | .error (.bad l) => throw (.bad l)) : LM Bytes).run.run w).2.mem := by
    rintro ⟨r, w'⟩ q
    rcases r with (_ | _) | _ <;> exact q
  exact e _ k
open Load in
@[simp] theorem Load.must_keeps (ok : Bool) (st ix : Nat) : Keeps (Load.must ok st ix) := by
  unfold Load.must
  (repeat' (first | assumption | (with_reducible apply Keeps.bind) | (with_reducible apply Keeps.map) | (with_reducible apply Keeps.ite) | intro _ | split | (simp (maxDischargeDepth := 9); done) | dsimp only))
open Load in
@[simp] theorem Load.pass_keeps (c : Check.Ck) : Keeps (Load.pass c) := by
  unfold Load.pass
  (repeat' (first | assumption | (with_reducible apply Keeps.bind) | (with_reducible apply Keeps.map) | (with_reducible apply Keeps.ite) | intro _ | split | (simp (maxDischargeDepth := 9); done) | dsimp only))
open Load in
@[simp] theorem Load.program_keeps (v : Via) (a k i : Nat) : Keeps (program v a k i) := by
  induction k generalizing i with
  | zero => simp [program]
  | succ k ih =>
    unfold program
    (repeat' (first | assumption | (with_reducible apply Keeps.bind) | (with_reducible apply Keeps.map) | (with_reducible apply Keeps.ite) | intro _ | split | (simp (maxDischargeDepth := 9); done) | dsimp only))
    all_goals exact ih _
open Load in
@[simp] theorem Load.step0_keeps (v : Via) (j : Job) : Keeps (Load.step0 v j) := by
  unfold Load.step0
  (repeat' (first | assumption | (with_reducible apply Keeps.bind) | (with_reducible apply Keeps.map) | (with_reducible apply Keeps.ite) | intro _ | split | (simp (maxDischargeDepth := 9); done) | dsimp only))
open Load in
@[simp] theorem Load.step2_keeps (v : Via) (j : Job) (l : List Nat) : Keeps (step2 v j l) := by
  induction l generalizing j with
  | nil => simp [step2]
  | cons d l ih =>
    unfold step2
    (repeat' (first | assumption | (with_reducible apply Keeps.bind) | (with_reducible apply Keeps.map) | (with_reducible apply Keeps.ite) | intro _ | split | (simp (maxDischargeDepth := 9); done) | dsimp only))
    all_goals exact ih _
open Load in
@[simp] theorem Load.step3_keeps (v : Via) (j : Job) : Keeps (Load.step3 v j) := by
  unfold Load.step3
  (repeat' (first | assumption | (with_reducible apply Keeps.bind) | (with_reducible apply Keeps.map) | (with_reducible apply Keeps.ite) | intro _ | split | (simp (maxDischargeDepth := 9); done) | dsimp only))
open Load in
@[simp] theorem Load.load_keeps (v : Via) (resv : Nat) (j : Job) : Keeps (Load.load v resv j) := by
  unfold Load.load
  (repeat' (first | assumption | (with_reducible apply Keeps.bind) | (with_reducible apply Keeps.map) | (with_reducible apply Keeps.ite) | intro _ | split | (simp (maxDischargeDepth := 9); done) | dsimp only))
open Load in
@[simp] theorem Load.run_ev (k : Nat) (v : Via) (resv : Nat) (j : Job) (h : Evolves org s) : Evolves org (Load.run s k v resv j).2 := by
  exact (ev_setSched _).2 (ev_setMem h ((load_keeps v resv j).run ⟨s.mem, 0, [], [], []⟩))
end

section
open Bits Ops
open JobOps in
@[simp] theorem JobOps.set_ev (j : Job) (h : Evolves org s) : Evolves org (JobOps.set s j) := by
  unfold JobOps.set
  simp (maxDischargeDepth := 9) [h]
open JobOps in
@[simp] theorem JobOps.drop_ev (id : Nat) (h : Evolves org s) : Evolves org (JobOps.drop s id) := by
  unfold JobOps.drop
  simp (maxDischargeDepth := 9) [h]
open JobOps in
@[simp] theorem JobOps.upd_ev (id : Nat) (f : Job → Job) (h : Evolves org s) : Evolves org (JobOps.upd s id f) := by
  unfold JobOps.upd
  (repeat' (first | assumption | (simp (maxDischargeDepth := 9) [‹Evolves org _›]; done) | split | dsimp only))
open JobOps in
@[simp] theorem JobOps.log_ev (j : Job) (status source cls a0 a1 : Nat) (removes : Bool) (h : Evolves org s) : Evolves org (JobOps.log s j status source cls a0 a1 removes) := by
  unfold JobOps.log
  simp (maxDischargeDepth := 9) [h]
open JobOps in
@[simp] theorem JobOps.lose_ev (id status index cell source a0 a1 : Nat) (h : Evolves org s) : Evolves org (JobOps.lose s id status index cell source a0 a1) := by
  unfold lose
  split
  · exact h
  · exact set_ev _ (log_ev _ _ _ _ _ _ _ h)
open JobOps in
@[simp] theorem JobOps.fault_ev (id : Nat) (k : FaultKey) (cell source a0 a1 : Nat) (removes : Bool) (h : Evolves org s) : Evolves org (JobOps.fault s id k cell source a0 a1 removes) := by
  unfold JobOps.fault
  (repeat' (first | assumption | (simp (maxDischargeDepth := 9) [‹Evolves org _›]; done) | split | dsimp only))
open JobOps in
@[simp] theorem JobOps.abandon_ev (id g d : Nat) (h : Evolves org s) : Evolves org (JobOps.abandon s id g d) := by
  unfold JobOps.abandon
  simp (maxDischargeDepth := 9) [h]
open JobOps in
@[simp] theorem JobOps.settle_ev (l : Memory.Lost) (h : Evolves org s) : Evolves org (settle s l) := by
  induction l generalizing s with
  | nil => exact h
  | cons p l ih =>
    obtain ⟨line, src, ws⟩ := p
    unfold settle
    apply ih
    dsimp only
    split
    · exact logEvent_ev _ h
    · exact ev_foldl (fun s a k => fault_ev _ _ _ _ _ _ _ k) _ h
open JobOps in
theorem JobOps.run_eq {α : Type} {k : Nat} {act : MM α} {r : Except MFail α} {t : State} (e : run s k act = (r, t))
    (a : Keeps act) (h : Evolves org s) : Evolves org t := snd_ev e (settle_ev _ (MM.exec_ev k a h))
@[simp] theorem JobOps.run_ev {α : Type} (k : Nat) {act : MM α} (a : Keeps act) (h : Evolves org s) :
    Evolves org (run s k act).2 := settle_ev _ (MM.exec_ev k a h)
open JobOps in
@[simp] theorem JobOps.pollEvent_ev (j : Job) (e : Nat) (h : Evolves org s) : Evolves org (JobOps.pollEvent s j e) := by
  unfold JobOps.pollEvent
  split
  · split
    · next q =>
      split
      · exact lose_ev _ _ _ _ _ _ _ (snd_ev q (readMem_ev _ _ _ h))
      · exact h
    · exact h
  · exact h
open JobOps in
@[simp] theorem JobOps.refreshReady_ev (h : Evolves org s) : Evolves org (JobOps.refreshReady s) := by
  unfold JobOps.refreshReady
  simp (maxDischargeDepth := 9) [h]
open JobOps in
@[simp] theorem JobOps.signal_ev (id d : Nat) (wrote : List Nat) (h : Evolves org s) : Evolves org (JobOps.signal s id d wrote) := by
  unfold signal
  (repeat' (first | assumption | (simp (maxDischargeDepth := 9) [‹Evolves org _›]; done) | (with_reducible refine ev_foldl (fun _ _ _ => ?_) _ ?_) | dsimp only | (simp +contextual (maxDischargeDepth := 9) [‹Evolves org _›]; done) | (rename _ = (_, _) => q; replace q := JobOps.run_eq (org := org) q (by (repeat' (first | assumption | (with_reducible apply Keeps.bind) | (with_reducible apply Keeps.map) | (with_reducible apply Keeps.ite) | intro _ | split | (simp (maxDischargeDepth := 9); done) | dsimp only))) (by first | assumption | (simp (maxDischargeDepth := 9) [‹Evolves org _›]; done))) | (rename _ = (_, _) => q; replace q := snd_ev (o := org) q (by simp (maxDischargeDepth := 9) [‹Evolves org _›]; done)) | (rename _ = (_, _) => q; replace q := fst_ev (o := org) q (by simp (maxDischargeDepth := 9) [‹Evolves org _›]; done)) | split | intro _ | dsimp only))
open JobOps in
@[simp] theorem JobOps.tally_ev (id : Nat) (cell : Option Nat) (step n d : Nat) (k : Marks) (census : List Nat) (h : Evolves org s) : Evolves org (JobOps.tally s id cell step n d k census) := by
  unfold JobOps.tally
  (repeat' (first | assumption | (simp (maxDischargeDepth := 9) [‹Evolves org _›]; done) | split | dsimp only))
open JobOps in
@[simp] theorem JobOps.untally_ev (l : List Tally) (h : Evolves org s) : Evolves org (JobOps.untally s l) := by
  exact ev_foldl (fun s t k => by dsimp only; split <;> simpa) _ h
open JobOps in
@[simp] theorem JobOps.spend_ev (j : Job) (e : Nat) (h : Evolves org s) : Evolves org (JobOps.spend s j e) := by
  unfold JobOps.spend
  simp (maxDischargeDepth := 9) [h]
end

section
open Bits Ops Starts JobOps
open Castle in
@[simp] theorem Castle.remove_ev (p : Nat) (h : Evolves org s) : Evolves org (Castle.remove s p) := by
  unfold Castle.remove
  simp (maxDischargeDepth := 9) [h]
open Castle in
@[simp] theorem Castle.declare_ev (lid : Nat) (h : Evolves org s) : Evolves org (Castle.declare s lid) := by
  unfold Castle.declare
  (repeat' (first | assumption | (simp (maxDischargeDepth := 9) [‹Evolves org _›]; done) | split | dsimp only))
end

section
open Bits Ops
open Time
open Time in
@[simp] theorem Time.setTime_ev (v : Int) (h : Evolves org s) : Evolves org (Time.setTime s v) := by
  unfold Time.setTime
  simp (maxDischargeDepth := 9) [h]
end

end Machine
end Sys2Proof
end

