-- ==== Sys2Proof/Laws/EvolvesFabric.lean ====
section
/-! SUPPORT. Evolves for the registers and the fabric: one lemma an operation. -/

namespace Sys2Proof

-- one search serves every lemma of this file, and none needs all of its steps
set_option linter.unusedTactic false
set_option linter.unreachableTactic false
set_option linter.unusedSimpArgs false
namespace Machine

open Bits Ops
variable {org s : State}

section
open Bits Ops Starts
open Regs in
@[simp] theorem Regs.writeMemCtl_ev (v : Nat) (h : Evolves org s) : Evolves org (Regs.writeMemCtl s v) := by
  unfold Regs.writeMemCtl
  simp (maxDischargeDepth := 9) [h]
open Regs in
@[simp] theorem Regs.writeSealBase_ev (v : Nat) (h : Evolves org s) : Evolves org (Regs.writeSealBase s v) := by
  unfold Regs.writeSealBase
  simp (maxDischargeDepth := 9) [h]
open Regs in
@[simp] theorem Regs.writeFabId_ev (v : Nat) (h : Evolves org s) : Evolves org (Regs.writeFabId s v) := by
  unfold Regs.writeFabId
  simp (maxDischargeDepth := 9) [h]
open Regs in
@[simp] theorem Regs.writePtpCtl_ev (v : Nat) (h : Evolves org s) : Evolves org (Regs.writePtpCtl s v) := by
  unfold Regs.writePtpCtl
  simp (maxDischargeDepth := 9) [h]
open Regs in
@[simp] theorem Regs.writePtpSet_ev (v : Nat) (h : Evolves org s) : Evolves org (Regs.writePtpSet s v) := by
  unfold Regs.writePtpSet
  simp (maxDischargeDepth := 9) [h]
open Regs in
@[simp] theorem Regs.writePortCtl_ev (p v : Nat) (h : Evolves org s) : Evolves org (Regs.writePortCtl s p v) := by
  unfold writePortCtl
  (repeat' (first | assumption | (simp (maxDischargeDepth := 9) [‹Evolves org _›]; done) | (with_reducible refine ev_foldl (fun _ _ _ => ?_) _ ?_) | dsimp only | (simp +contextual (maxDischargeDepth := 9) [‹Evolves org _›]; done) | (rename _ = (_, _) => q; replace q := JobOps.run_eq (org := org) q (by (repeat' (first | assumption | (with_reducible apply Keeps.bind) | (with_reducible apply Keeps.map) | (with_reducible apply Keeps.ite) | intro _ | split | (simp (maxDischargeDepth := 9); done) | dsimp only))) (by first | assumption | (simp (maxDischargeDepth := 9) [‹Evolves org _›]; done))) | (rename _ = (_, _) => q; replace q := snd_ev (o := org) q (by simp (maxDischargeDepth := 9) [‹Evolves org _›]; done)) | (rename _ = (_, _) => q; replace q := fst_ev (o := org) q (by simp (maxDischargeDepth := 9) [‹Evolves org _›]; done)) | split | intro _ | dsimp only))
open Regs in
@[simp] theorem Regs.writePortKey_ev (p d k v : Nat) (h : Evolves org s) : Evolves org (Regs.writePortKey s p d k v) := by
  unfold Regs.writePortKey
  simp (maxDischargeDepth := 9) [h]
open Regs in
@[simp] theorem Regs.writeOpqBase_ev (q v : Nat) (h : Evolves org s) : Evolves org (Regs.writeOpqBase s q v) := by
  unfold Regs.writeOpqBase
  simp (maxDischargeDepth := 9) [h]
open Regs in
@[simp] theorem Regs.writeOpqCtl_ev (q v : Nat) (h : Evolves org s) : Evolves org (Regs.writeOpqCtl s q v) := by
  unfold Regs.writeOpqCtl
  simp (maxDischargeDepth := 9) [h]
open Regs in
@[simp] theorem Regs.writeOpqTail_ev (q v : Nat) (h : Evolves org s) : Evolves org (Regs.writeOpqTail s q v) := by
  unfold Regs.writeOpqTail
  simp (maxDischargeDepth := 9) [h]
open Regs in
@[simp] theorem Regs.writeObsSel_ev (k v : Nat) (h : Evolves org s) : Evolves org (Regs.writeObsSel s k v) := by
  unfold Regs.writeObsSel
  (repeat' (first | assumption | (simp (maxDischargeDepth := 9) [‹Evolves org _›]; done) | split | dsimp only))
open Regs in
@[simp] theorem Regs.lockDebug_ev (v : Nat) (h : Evolves org s) : Evolves org (Regs.lockDebug s v) := by
  unfold Regs.lockDebug
  simp (maxDischargeDepth := 9) [h]
open Regs in
@[simp] theorem Regs.unlock_ev (a : Nat) (h : Evolves org s) : Evolves org (Regs.unlock s a) := by
  unfold Regs.unlock
  (repeat' (first | assumption | (simp (maxDischargeDepth := 9) [‹Evolves org _›]; done) | (with_reducible refine ev_foldl (fun _ _ _ => ?_) _ ?_) | dsimp only | (simp +contextual (maxDischargeDepth := 9) [‹Evolves org _›]; done) | (rename _ = (_, _) => q; replace q := JobOps.run_eq (org := org) q (by (repeat' (first | assumption | (with_reducible apply Keeps.bind) | (with_reducible apply Keeps.map) | (with_reducible apply Keeps.ite) | intro _ | split | (simp (maxDischargeDepth := 9); done) | dsimp only))) (by first | assumption | (simp (maxDischargeDepth := 9) [‹Evolves org _›]; done))) | (rename _ = (_, _) => q; replace q := snd_ev (o := org) q (by simp (maxDischargeDepth := 9) [‹Evolves org _›]; done)) | (rename _ = (_, _) => q; replace q := fst_ev (o := org) q (by simp (maxDischargeDepth := 9) [‹Evolves org _›]; done)) | split | intro _ | dsimp only))
open Regs in
@[simp] theorem Regs.doorbell_ev (f r v : Nat) (h : Evolves org s) : Evolves org (Regs.doorbell s f r v) := by
  unfold Regs.doorbell
  simp (maxDischargeDepth := 9) [h]
open Regs in
@[simp] theorem Regs.write_ev (f v : Nat) (r : Reg) (h : Evolves org s) : Evolves org (write s f v r) := by
  cases r <;> simp (maxDischargeDepth := 9) [write, h]
open Regs in
@[simp] theorem Regs.access_ev (f o w v : Nat) (h : Evolves org s) : Evolves org (Regs.access s f o w v) := by
  unfold access
  split
  · exact h
  (repeat' (first | assumption | (simp (maxDischargeDepth := 9) [‹Evolves org _›]; done) | (with_reducible refine ev_foldl (fun _ _ _ => ?_) _ ?_) | dsimp only | (simp +contextual (maxDischargeDepth := 9) [‹Evolves org _›]; done) | (rename _ = (_, _) => q; replace q := JobOps.run_eq (org := org) q (by (repeat' (first | assumption | (with_reducible apply Keeps.bind) | (with_reducible apply Keeps.map) | (with_reducible apply Keeps.ite) | intro _ | split | (simp (maxDischargeDepth := 9); done) | dsimp only))) (by first | assumption | (simp (maxDischargeDepth := 9) [‹Evolves org _›]; done))) | (rename _ = (_, _) => q; replace q := snd_ev (o := org) q (by simp (maxDischargeDepth := 9) [‹Evolves org _›]; done)) | (rename _ = (_, _) => q; replace q := fst_ev (o := org) q (by simp (maxDischargeDepth := 9) [‹Evolves org _›]; done)) | split | intro _ | dsimp only))
open Regs in
@[simp] theorem Regs.takeLatch_ev (h : Evolves org s) : Evolves org (Regs.takeLatch s) := by
  unfold Regs.takeLatch
  simp (maxDischargeDepth := 9) [h]
open Regs in
@[simp] theorem Regs.readReg_ev (f o w : Nat) (h : Evolves org s) : Evolves org (Regs.readReg s f o w).2 := by
  unfold Regs.readReg
  (repeat' (first | assumption | (simp (maxDischargeDepth := 9) [‹Evolves org _›]; done) | split | dsimp only))
end

section
open Bits Ops Link JobOps
theorem getD_ev {x : Option State} (k : ∀ t, x = some t → Evolves org t) (h : Evolves org s) : Evolves org (x.getD s) := by
  cases x with
  | none => exact h
  | some t => exact k t rfl
open Fab in
@[simp] theorem Fab.putOpq_ev (q : Nat) (o : Opq) (h : Evolves org s) : Evolves org (Fab.putOpq s q o) := by
  unfold Fab.putOpq
  simp (maxDischargeDepth := 9) [h]
open Fab in
@[simp] theorem Fab.opqDone_ev (q n status reason result : Nat) (h : Evolves org s) : Evolves org (Fab.opqDone s q n status reason result) := by
  exact putOpq_ev _ _ (getD_ev (hubWrite_ev _ _ _ _ (getD_ev (hubWrite_ev _ _ _ _ h) h)) (getD_ev (hubWrite_ev _ _ _ _ h) h))
open Fab in
@[simp] theorem Fab.spendFrame_ev (k : Nat) (f : Sys2Proof.Frame) (h : Evolves org s) : Evolves org (Fab.spendFrame s k f) := by
  unfold Fab.spendFrame
  simp (maxDischargeDepth := 9) [h]
open Fab in
@[simp] theorem Fab.late_ev (p : Nat) (h : Evolves org s) : Evolves org (Fab.late s p) := by
  unfold Fab.late
  simp (maxDischargeDepth := 9) [h]
open Fab in
@[simp] theorem Fab.offend_ev (p reason : Nat) (f : Sys2Proof.Frame) (h : Evolves org s) : Evolves org (Fab.offend s p reason f) := by
  unfold Fab.offend
  simp (maxDischargeDepth := 9) [h]
open Fab in
@[simp] theorem Fab.store_ev (t : Txn) (off : Nat) (b : Bytes) (h : Evolves org s) : Evolves org (Fab.store s t off b) := by
  unfold Fab.store
  simp (maxDischargeDepth := 9) [h]
open Fab in
@[simp] theorem Fab.putTxn_ev (t : Txn) (h : Evolves org s) : Evolves org (Fab.putTxn s t) := by
  unfold Fab.putTxn
  simp (maxDischargeDepth := 9) [h]
open Fab in
@[simp] theorem Fab.dropTxn_ev (tag : Nat) (h : Evolves org s) : Evolves org (Fab.dropTxn s tag) := by
  unfold Fab.dropTxn
  simp (maxDischargeDepth := 9) [h]
open Fab in
@[simp] theorem Fab.answerPfx_ev (id d : Nat) (a : Nat × Nat × Bytes) (h : Evolves org s) : Evolves org (Fab.answerPfx s id d a) := by
  unfold Fab.answerPfx
  simp (maxDischargeDepth := 9) [h]
open Fab in
@[simp] theorem Fab.answerCell_ev (t : Txn) (id g d n : Nat) (h : Evolves org s) : Evolves org (Fab.answerCell s t id g d n) := by
  unfold Fab.answerCell
  (repeat' (first | assumption | (simp (maxDischargeDepth := 9) [‹Evolves org _›]; done) | split | dsimp only))
open Fab in
@[simp] theorem Fab.finish_ev (t : Txn) (status reason result : Nat) (arg : Bytes) (h : Evolves org s) : Evolves org (Fab.finish s t status reason result arg) := by
  unfold Fab.finish
  (repeat' (first | assumption | (simp (maxDischargeDepth := 9) [‹Evolves org _›]; done) | split | dsimp only))
open Fab in
@[simp] theorem Fab.settleTxn_ev (tag : Nat) (h : Evolves org s) : Evolves org (Fab.settleTxn s tag) := by
  unfold Fab.settleTxn
  (repeat' (first | assumption | (simp (maxDischargeDepth := 9) [‹Evolves org _›]; done) | split | dsimp only))
open Fab in
@[simp] theorem Fab.arriveResp_ev (p : Nat) (f : Sys2Proof.Frame) (h : Evolves org s) : Evolves org (Fab.arriveResp s p f) := by
  unfold Fab.arriveResp
  (repeat' (first | assumption | (simp (maxDischargeDepth := 9) [‹Evolves org _›]; done) | split | dsimp only))
open Fab in
@[simp] theorem Fab.badData_ev (p : Nat) (f : Sys2Proof.Frame) (h : Evolves org s) : Evolves org (Fab.badData s p f) := by
  unfold Fab.badData
  simp (maxDischargeDepth := 9) [h]
open Fab in
@[simp] theorem Fab.arriveRead_ev (p : Nat) (f : Sys2Proof.Frame) (h : Evolves org s) : Evolves org (Fab.arriveRead s p f) := by
  unfold Fab.arriveRead
  (repeat' (first | assumption | (simp (maxDischargeDepth := 9) [‹Evolves org _›]; done) | split | dsimp only))
open Fab in
@[simp] theorem Fab.putServed_ev (x : Served) (h : Evolves org s) : Evolves org (Fab.putServed s x) := by
  unfold Fab.putServed
  simp (maxDischargeDepth := 9) [h]
open Fab in
@[simp] theorem Fab.dropServed_ev (x : Served) (h : Evolves org s) : Evolves org (Fab.dropServed s x) := by
  unfold Fab.dropServed
  simp (maxDischargeDepth := 9) [h]
open Fab in
@[simp] theorem Fab.storeUnit_ev (x : Served) (i : Nat) (b : Bytes) (h : Evolves org s) : Evolves org (Fab.storeUnit s x i b) := by
  unfold Fab.storeUnit
  (repeat' (first | assumption | (simp (maxDischargeDepth := 9) [‹Evolves org _›]; done) | split | dsimp only))
open Fab in
@[simp] theorem Fab.arriveWrite_ev (p : Nat) (f : Sys2Proof.Frame) (h : Evolves org s) : Evolves org (Fab.arriveWrite s p f) := by
  unfold Fab.arriveWrite
  (repeat' (first | assumption | (simp (maxDischargeDepth := 9) [‹Evolves org _›]; done) | split | dsimp only))
open Fab in
@[simp] theorem Fab.arriveData_ev (p : Nat) (f : Sys2Proof.Frame) (h : Evolves org s) : Evolves org (Fab.arriveData s p f) := by
  unfold Fab.arriveData
  simp (maxDischargeDepth := 9) [h]
open Fab in
@[simp] theorem Fab.answer_ev (f : Sys2Proof.Frame) (h : Evolves org s) : Evolves org (Fab.answer s f) := by
  unfold Fab.answer
  (repeat' (first | assumption | (simp (maxDischargeDepth := 9) [‹Evolves org _›]; done) | split | dsimp only))
open Fab in
@[simp] theorem Fab.respond_ev (src tag reason result : Nat) (arg : Bytes) (h : Evolves org s) : Evolves org (Fab.respond s src tag reason result arg) := by
  unfold Fab.respond
  simp (maxDischargeDepth := 9) [h]
open Fab in
@[simp] theorem Fab.sendUnit_ev (x : Served) (i : Nat) (b : Bytes) (h : Evolves org s) : Evolves org (Fab.sendUnit s x i b) := by
  unfold Fab.sendUnit
  simp (maxDischargeDepth := 9) [h]
open Fab in
@[simp] theorem Fab.close_ev (x : Served) (reason result : Nat) (arg : Bytes) (h : Evolves org s) : Evolves org (Fab.close s x reason result arg) := by
  unfold Fab.close
  simp (maxDischargeDepth := 9) [h]
open Fab in
@[simp] theorem Fab.arriveReq_ev (p : Nat) (f : Sys2Proof.Frame) (h : Evolves org s) : Evolves org (Fab.arriveReq s p f) := by
  unfold Fab.arriveReq
  (repeat' (first | assumption | (simp (maxDischargeDepth := 9) [‹Evolves org _›]; done) | split | dsimp only))
open Fab in
@[simp] theorem Fab.launch_ev (k : Nat) (f : Sys2Proof.Frame) (h : Evolves org s) : Evolves org (Fab.launch s k f) := by
  unfold Fab.launch
  (repeat' (first | assumption | (simp (maxDischargeDepth := 9) [‹Evolves org _›]; done) | split | dsimp only))
open Fab in
theorem Fab.issue_ev (own : Requester) (a : Ask) (h : Evolves org s) : ∀ t, Fab.issue s own a = some t → Evolves org t := by
  unfold Fab.issue
  (repeat' (first | assumption | (simp (maxDischargeDepth := 9) [‹Evolves org _›]; done) | (with_reducible refine ev_foldl (fun _ _ _ => ?_) _ ?_) | dsimp only | (simp +contextual (maxDischargeDepth := 9) [‹Evolves org _›]; done) | (rename _ = (_, _) => q; replace q := JobOps.run_eq (org := org) q (by (repeat' (first | assumption | (with_reducible apply Keeps.bind) | (with_reducible apply Keeps.map) | (with_reducible apply Keeps.ite) | intro _ | split | (simp (maxDischargeDepth := 9); done) | dsimp only))) (by first | assumption | (simp (maxDischargeDepth := 9) [‹Evolves org _›]; done))) | (rename _ = (_, _) => q; replace q := snd_ev (o := org) q (by simp (maxDischargeDepth := 9) [‹Evolves org _›]; done)) | (rename _ = (_, _) => q; replace q := fst_ev (o := org) q (by simp (maxDischargeDepth := 9) [‹Evolves org _›]; done)) | split | intro _ | dsimp only))
open Fab in
@[simp] theorem Fab.bounce_ev (f : Sys2Proof.Frame) (reason : Nat) (h : Evolves org s) : Evolves org (Fab.bounce s f reason) := by
  unfold bounce
  split
  · exact respond_ev _ _ _ _ _ h
  · exact h
open Fab in
theorem Fab.passOn_ev (r : Route) (f : Sys2Proof.Frame) {here : State → State} (k : Evolves org s → Evolves org (here s))
    (h : Evolves org s) : Evolves org (passOn r s f here) := by
  unfold passOn
  split
  · exact k h
  · exact bounce_ev _ _ h
  · split
    · exact bounce_ev _ _ h
    · exact Link.send_ev _ _ h
open Fab in
theorem Fab.pass_ev (f : Sys2Proof.Frame) {here : State → State} (k : Evolves org s → Evolves org (here s)) (h : Evolves org s) :
    Evolves org (pass s f here) := passOn_ev _ f k h
end

section
open Bits Ops
open Time in
@[simp] theorem Time.sendMsg_ev (k p q : Nat) (m : Bytes) (h : Evolves org s) : Evolves org (Time.sendMsg s k p q m) := by
  unfold Time.sendMsg
  simp (maxDischargeDepth := 9) [h]
@[simp] theorem Time.nextSeq_ev (h : Evolves org s) : Evolves org (Time.nextSeq s) := (ev_setPtp _).2 h
@[simp] theorem Time.discipline_ev (h : Evolves org s) : Evolves org (Time.discipline s) := by
  unfold Time.discipline
  exact (ev_setPtp _).2 (fresh_ev h)
open Time in
theorem Time.arrive_ev (t p k : Nat) (fr : Sys2Proof.Frame) {act : State → Bytes → State}
    (a : ∀ s b, Evolves org s → Evolves org (act s b)) (h : Evolves org s) : Evolves org (arrive s t p k fr act) := by
  have e := Link.receive_ev p fr (tick_ev t h)
  unfold arrive
  split
  · next q => rw [q] at e; exact e
  · next q =>
    rw [q] at e
    split
    · exact e
    · refine Fab.passOn_ev _ _ (fun h => ?_) e
      dsimp only
      split
      · exact a _ _ h
      · exact h
end

end Machine
end Sys2Proof
end

