-- ==== Sys2Proof/Laws/EvolvesCells.lean ====
section
/-! SUPPORT. Evolves for the cells: one lemma an operation. -/

namespace Sys2Proof

-- one search serves every lemma of this file, and none needs all of its steps
set_option linter.unusedTactic false
set_option linter.unreachableTactic false
set_option linter.unusedSimpArgs false
namespace Machine

open Bits Ops
variable {org s : State}

section
open Bits Ops JobOps
open Starting in
@[simp] theorem Starting.readSealed_keeps (v : Via) (m : Mem) (la : Nat) : Keeps (Starting.readSealed v m la) := by
  unfold readSealed
  refine Keeps.bind (by simp) fun d => ?_
  split
  · simp
  · exact Keeps.bind (by simp) fun _ => by simp
open Starting in
@[simp] theorem Starting.rootBlock_keeps (v : Via) (m : Mem) (la : Nat) : Keeps (Starting.rootBlock v m la) := by
  unfold Starting.rootBlock
  (repeat' (first | assumption | (with_reducible apply Keeps.bind) | (with_reducible apply Keeps.map) | (with_reducible apply Keeps.ite) | intro _ | split | (simp (maxDischargeDepth := 9); done) | dsimp only))
open Starting in
@[simp] theorem Starting.rootBlocks_keeps (v : Via) (m : Mem) (la k : Nat) : Keeps (rootBlocks v m la k) := by
  induction k generalizing la with
  | zero => simp [rootBlocks]
  | succ k ih =>
    unfold rootBlocks
    (repeat' (first | assumption | (with_reducible apply Keeps.bind) | (with_reducible apply Keeps.map) | (with_reducible apply Keeps.ite) | intro _ | split | (simp (maxDischargeDepth := 9); done) | dsimp only))
    all_goals exact ih _
open Starting in
@[simp] theorem Starting.rootImage_keeps (v : Via) (m : Mem) (b : Bytes) (g : Nat) : Keeps (Starting.rootImage v m b g) := by
  unfold rootImage
  dsimp only
  split
  · exact rootBlocks_keeps _ _ _ _
  · simp
open Starting in
@[simp] theorem Starting.loadRoots_ev (id : Nat) (b : Bytes) (l : List Nat) (h : Evolves org s) :
    Evolves org (loadRoots s id b l) := by
  induction l generalizing s with
  | nil => exact h
  | cons g l ih =>
    unfold loadRoots
    split
    · exact h
    dsimp only
    split <;> (rename _ = (_, _) => q; replace q := JobOps.run_eq (org := org) q (rootImage_keeps _ _ _ _) h)
    · exact ih (JobOps.upd_ev _ _ q)
    · exact JobOps.lose_ev _ _ _ _ _ _ _ q
    · exact JobOps.upd_ev _ _ (JobOps.log_ev _ _ _ _ _ _ _ q)
    · exact JobOps.lose_ev _ _ _ _ _ _ _ q
    · exact JobOps.upd_ev _ _ (JobOps.log_ev _ _ _ _ _ _ _ q)
open Starting in
@[simp] theorem Starting.root_ev (id : Nat) (h : Evolves org s) : Evolves org (Starting.root s id) := by
  unfold root
  split
  · exact h
  split
  · exact h
  refine JobOps.upd_ev _ _ ?_
  split
  · exact JobOps.upd_ev _ _ (JobOps.log_ev _ _ _ _ _ _ _ h)
  split
  · exact h
  · exact loadRoots_ev _ _ _ h
open Starting in
@[simp] theorem Starting.fresh_ev (id : Nat) (h : Evolves org s) : Evolves org (Starting.fresh s id) := by
  unfold fresh
  split
  · exact h
  refine root_ev _ (JobOps.run_ev (s := s.setSched _) _ ?_ ((ev_setSched _).2 h))
  exact Keeps.ite (by simp) (by simp)
open Starting in
@[simp] theorem Starting.writeContext_ev (id : Nat) (h : Evolves org s) : Evolves org (Starting.writeContext s id) := by
  unfold writeContext
  split
  · exact h
  refine JobOps.run_ev _ (by simp) ?_
  split
  · exact JobOps.set_ev _ (JobOps.untally_ev _ (Ops.fresh_ev h))
  · exact (ev_setFab _).2 (JobOps.set_ev _ (JobOps.untally_ev _ (Ops.fresh_ev h)))
open Starting in
@[simp] theorem Starting.putEvents_keeps (v : Via) (j : Job) : Keeps (Starting.putEvents v j) := by
  unfold putEvents
  refine Keeps.bind (by simp) fun _ => Keeps.forM (fun e => ?_) _
  dsimp only
  split <;> simp
open Starting in
@[simp] theorem Starting.readCtx_keeps (v : Via) (a : Nat) : Keeps (Starting.readCtx v a) := by
  unfold readCtx
  exact Keeps.bind (by simp) fun _ => Keeps.bind (by simp) fun _ => Keeps.bind (by simp) fun _ =>
    Keeps.bind (by simp) fun _ => Keeps.bind (by simp) fun _ => by simp
open Starting in
@[simp] theorem Starting.resume_ev (id : Nat) (h : Evolves org s) : Evolves org (Starting.resume s id) := by
  unfold resume
  split
  · exact h
  dsimp only
  split <;> (rename _ = (_, _) => q; replace q := JobOps.run_eq (org := org) q (readCtx_keeps _ _) h)
  · exact JobOps.lose_ev _ _ _ _ _ _ _ q
  · exact JobOps.lose_ev _ _ _ _ _ _ _ q
  · split
    · exact JobOps.lose_ev _ _ _ _ _ _ _ q
    split
    · exact JobOps.upd_ev _ _ q
    · exact root_ev _ (JobOps.run_ev _ (by split <;> simp) ((ev_setSched _).2 q))
open Starting in
@[simp] theorem Starting.begin_ev (id : Nat) (h : Evolves org s) : Evolves org (Starting.begin s id) := by
  unfold Starting.begin
  (repeat' (first | assumption | (simp (maxDischargeDepth := 9) [‹Evolves org _›]; done) | split | dsimp only))
open Starting in
@[simp] theorem Starting.startReady_ev (h : Evolves org s) : Evolves org (Starting.startReady s) := by
  exact JobOps.refreshReady_ev (ev_foldl (fun _ _ k => begin_ev _ k) _ h)
end

section
open Bits Ops JobOps
/-- What a step comes to evolves, whether it goes on or a fault leaves a state. -/
def Cells.ExEv {α : Type} (org : State) : Except State (α × State) → Prop
  | .error t => Evolves org t
  | .ok x => Evolves org x.2
@[simp] theorem Cells.exEv_error {α : Type} {t : State} : ExEv (α := α) org (.error t) ↔ Evolves org t := Iff.rfl
@[simp] theorem Cells.exEv_ok {α : Type} {x : α × State} : ExEv org (.ok x) ↔ Evolves org x.2 := Iff.rfl
def Cells.BegunEv (org : State) : Begun → Prop
  | .go t _ => Evolves org t
  | .stop t => Evolves org t
  | .hold => True
@[simp] theorem Cells.begunEv_go {t : State} {f : Flight} : BegunEv org (.go t f) ↔ Evolves org t := Iff.rfl
@[simp] theorem Cells.begunEv_stop {t : State} : BegunEv org (.stop t) ↔ Evolves org t := Iff.rfl
@[simp] theorem Cells.begunEv_hold : BegunEv org .hold := trivial
open Cells in
@[simp] theorem Cells.refuse_ev (id g d status off : Nat) (h : Evolves org s) : Evolves org (Cells.refuse s id g d status off) := by
  unfold Cells.refuse
  simp (maxDischargeDepth := 9) [h]
open Cells in
@[simp] theorem Cells.badLine_ev (j : Job) (g d n l : Nat) (h : Evolves org s) : Evolves org (Cells.badLine s j g d n l) := by
  unfold Cells.badLine
  simp (maxDischargeDepth := 9) [h]
open Cells in
@[simp] theorem Cells.stopOn_ev (j : Job) (g d n : Nat) (e : MFail) (h : Evolves org s) : Evolves org (stopOn s j g d n e) := by
  cases e <;> simp [stopOn, h]
open Cells in
@[simp] theorem Cells.unsealed_ev (j : Job) (g d a : Nat) (h : Evolves org s) : Evolves org (Cells.unsealed s j g d a) := by
  unfold Cells.unsealed
  simp (maxDischargeDepth := 9) [h]
open Cells in
@[simp] theorem Cells.reach_keeps (v : Via) (j : Job) (x : Bytes) (p : Side) : Keeps (Cells.reach v j x p) := by
  unfold Cells.reach
  (repeat' (first | assumption | (with_reducible apply Keeps.bind) | (with_reducible apply Keeps.map) | (with_reducible apply Keeps.ite) | intro _ | split | (simp (maxDischargeDepth := 9); done) | dsimp only))
open Cells in
@[simp] theorem Cells.readPlot_ev (j : Job) (g o' : Nat) (l : List (Nat × Nat)) (h : Evolves org s) :
    Evolves org (readPlot s j g o' l).2 := by
  unfold readPlot
  (repeat' (first | assumption | (simp (maxDischargeDepth := 9) [‹Evolves org _›]; done) | (with_reducible refine ev_foldl (fun _ _ _ => ?_) _ ?_) | dsimp only | (simp +contextual (maxDischargeDepth := 9) [‹Evolves org _›]; done) | (rename _ = (_, _) => q; replace q := JobOps.run_eq (org := org) q (by (repeat' (first | assumption | (with_reducible apply Keeps.bind) | (with_reducible apply Keeps.map) | (with_reducible apply Keeps.ite) | intro _ | split | (simp (maxDischargeDepth := 9); done) | dsimp only))) (by first | assumption | (simp (maxDischargeDepth := 9) [‹Evolves org _›]; done))) | (rename _ = (_, _) => q; replace q := snd_ev (o := org) q (by simp (maxDischargeDepth := 9) [‹Evolves org _›]; done)) | (rename _ = (_, _) => q; replace q := fst_ev (o := org) q (by simp (maxDischargeDepth := 9) [‹Evolves org _›]; done)) | split | intro _ | dsimp only))
open Cells in
@[simp] theorem Cells.writePlot_ev (j : Job) (g o : Nat) (l : List (Nat × Bytes)) (h : Evolves org s) : Evolves org (Cells.writePlot s j g o l) := by
  unfold Cells.writePlot
  simp (maxDischargeDepth := 9) [h]
open Cells in
@[simp] theorem Cells.badPlot_ev (j : Job) (g d n u : Nat) (h : Evolves org s) : Evolves org (Cells.badPlot s j g d n u) := by
  unfold Cells.badPlot
  simp (maxDischargeDepth := 9) [h]
open Cells in
@[simp] theorem Cells.badUnit_ev (j : Job) (g d n u : Nat) (h : Evolves org s) : Evolves org (Cells.badUnit s j g d n u) := by
  unfold Cells.badUnit
  simp (maxDischargeDepth := 9) [h]
open Cells in
@[simp] theorem Cells.readParts_keeps (v : Via) (a : Nat) (l : List (Nat × Nat)) : Keeps (readParts v a l) := by
  induction l with
  | nil => exact Keeps.pure _
  | cons x l ih => exact Keeps.bind (MM.read_keeps _ _ _) fun _ => Keeps.bind ih fun _ => Keeps.pure _
open Cells in
theorem Cells.readRuns_ev (own : Requester) (dst region off k : Nat) (l : List (Nat × Nat)) (h : Evolves org s) :
    ∀ t, readRuns s own dst region off k l = some t → Evolves org t := by
  induction l generalizing s k with
  | nil => intro t e; cases e; exact h
  | cons x l ih =>
    intro t e
    obtain ⟨u, e1, e2⟩ := Option.bind_eq_some_iff.1 e
    exact ih _ (Fab.issue_ev _ _ h _ e1) _ e2
open Cells in
theorem Cells.writeRuns_ev (own : Requester) (dst region off : Nat) (l : List (Nat × Bytes)) (h : Evolves org s) :
    ∀ t, writeRuns s own dst region off l = some t → Evolves org t := by
  induction l generalizing s with
  | nil => intro t e; cases e; exact h
  | cons x l ih =>
    intro t e
    obtain ⟨u, e1, e2⟩ := Option.bind_eq_some_iff.1 e
    exact ih (Fab.issue_ev _ _ h _ e1) _ e2
open Cells in
theorem Cells.loadBegin_ev (j : Job) (c : CellRun) (g d n : Nat) (h : Evolves org s) : BegunEv org (loadBegin s j c g d n) := by
  unfold loadBegin
  dsimp only
  split
  · exact upd_ev _ _ h
  split
  · exact unsealed_ev _ _ _ _ h
  split <;> (rename _ = (_, _) => q; replace q := JobOps.run_eq (org := org) q (reach_keeps _ _ _ _) h)
  · exact stopOn_ev _ _ _ _ _ q
  · exact q
  · exact refuse_ev _ _ _ _ _ q
  · split <;> (rename _ = (_, _) => k; replace k := snd_ev (org := org) k (readPlot_ev _ _ _ _ q))
    · exact badPlot_ev _ _ _ _ _ k
    · exact k
  · split
    · trivial
    · next e => exact readRuns_ev _ _ _ _ _ _ q _ e
  · split
    · split
      · exact refuse_ev _ _ _ _ _ q
      · split
        · exact unsealed_ev _ _ _ _ q
        · split <;> (rename _ = (_, _) => k; replace k := JobOps.run_eq (org := org) k (Starting.readSealed_keeps _ _ _) q)
          · exact stopOn_ev _ _ _ _ _ k
          · exact k
    · split <;> (rename _ = (_, _) => k; replace k := JobOps.run_eq (org := org) k (readParts_keeps _ _ _) q)
      · exact stopOn_ev _ _ _ _ _ k
      · exact k
open Cells in
theorem Cells.verify_ev (j : Job) (g d n : Nat) (f : Flight) (h : Evolves org s) : ExEv org (verify s j g d n f) := by
  unfold verify
  dsimp only
  split
  · exact h
  split <;> (rename _ = (_, _) => k; replace k := JobOps.run_eq (org := org) k (Starting.readSealed_keeps _ _ _) h)
  · exact stopOn_ev _ _ _ _ _ k
  · split
    · exact k
    · exact fault_ev _ _ _ _ _ _ _ (abandon_ev _ _ _ k)
open Cells in
theorem Cells.storeBegin_ev (j : Job) (c : CellRun) (g d n : Nat) (h : Evolves org s) : BegunEv org (storeBegin s j c g d n) := by
  unfold storeBegin
  dsimp only
  split
  · exact unsealed_ev _ _ _ _ h
  split <;> (rename _ = (_, _) => q; replace q := JobOps.run_eq (org := org) q (reach_keeps _ _ _ _) h)
  · exact stopOn_ev _ _ _ _ _ q
  · exact q
  · exact refuse_ev _ _ _ _ _ q
  · exact q
  · split
    · trivial
    · next e => exact writeRuns_ev _ _ _ _ _ q _ e
  · split
    · exact refuse_ev _ _ _ _ _ q
    · split
      · split
        · exact refuse_ev _ _ _ _ _ q
        · split
          · exact unsealed_ev _ _ _ _ q
          · exact q
      · exact q
open Cells in
@[simp] theorem Cells.writeAll_keeps (v : Via) (a : Nat) (l : List (Nat × Bytes)) : Keeps (writeAll v a l) := by
  induction l with
  | nil => exact Keeps.pure _
  | cons x l ih => exact Keeps.bind (MM.write_keeps _ _ _) fun _ => ih
open Cells in
@[simp] theorem Cells.putSeal_keeps (v : Via) (m : Mem) (a : Nat) (whole : Option Bytes) : Keeps (Cells.putSeal v m a whole) := by
  unfold Cells.putSeal
  (repeat' (first | assumption | (with_reducible apply Keeps.bind) | (with_reducible apply Keeps.map) | (with_reducible apply Keeps.ite) | intro _ | split | (simp (maxDischargeDepth := 9); done) | dsimp only))
open Cells in
theorem Cells.storeEnd_ev (j : Job) (g d n : Nat) (t : Tile) (f : Flight) (h : Evolves org s) :
    ExEv org (storeEnd s j g d n t f) := by
  unfold storeEnd
  dsimp only
  split
  · exact h
  split
  · exact writePlot_ev _ _ _ _ h
  split
  · exact h
  split <;> (rename _ = (_, _) => k; replace k := JobOps.run_eq (org := org) k (Keeps.bind (writeAll_keeps _ _ _) fun _ => Keeps.ite (putSeal_keeps _ _ _ _) (Keeps.pure _)) h)
  · exact stopOn_ev _ _ _ _ _ k
  · exact k
end

section
open Bits Ops JobOps
open Cells in
@[simp] theorem Cells.issueAt_ev (id d g : Nat) (h : Evolves org s) : Evolves org (Cells.issueAt s id d g) := by
  unfold issueAt
  split
  · exact h
  next _ j _ =>
  split
  · exact h
  next _ c _ =>
  have q : BegunEv org (if Desc.station (j.descAt d) = Desc.load then loadBegin (set s (putCell j g { c with flights := c.flights ++ [flight0 d (nextStep c d) 0 0] })) j c g d (nextStep c d)
      else if Desc.station (j.descAt d) = Desc.store then storeBegin (set s (putCell j g { c with flights := c.flights ++ [flight0 d (nextStep c d) 0 0] })) j c g d (nextStep c d)
      else .go (set s (putCell j g { c with flights := c.flights ++ [flight0 d (nextStep c d) 0 0] })) (matFlight0 j c g d (nextStep c d))) := by
    have k := set_ev (org := org) (putCell j g { c with flights := c.flights ++ [flight0 d (nextStep c d) 0 0] }) h
    split
    · exact loadBegin_ev _ _ _ _ _ k
    · split
      · exact storeBegin_ev _ _ _ _ _ k
      · exact k
  dsimp only
  split <;> (rename _ = _ => e; rw [e] at q)
  · exact h
  · exact abandon_ev _ _ _ q
  · exact upd_ev _ _ q
open Cells in
@[simp] theorem Cells.sumRow_ev (j : Job) (p : Nat) (e : RowSum) (a : Option (List Val)) (h : Evolves org s) :
    Evolves org (sumRow s j p e a) := JobOps.tally_ev _ _ _ _ _ _ _ (JobOps.set_ev _ h)
open Cells in
@[simp] theorem Cells.redoAt_ev (j : Job) (c : CellRun) (g d e n : Nat) (h : Evolves org s) :
    Evolves org (redoAt s j c g d e n) := by
  unfold redoAt
  dsimp only
  have q := loadBegin_ev (org := org) { j with epoch := e } { c with redo := c.redo.drop 1, active := [] } g d n
    (set_ev (putCell j g { c with redo := c.redo.drop 1, flights := c.flights ++ [{ flight0 d n 0 0 with again := true }] }) h)
  split <;> (rename _ = _ => e; rw [e] at q)
  · exact h
  · exact abandon_ev _ _ _ q
  · exact upd_ev _ _ q
open Cells in
@[simp] theorem Cells.redoNext_ev (j : Job) (g : Nat) (h : Evolves org s) : Evolves org (redoNext s j g) := by
  unfold redoNext
  split
  · exact h
  · split
    · exact redoAt_ev _ _ _ _ _ _ h
    · exact h
open Cells in
theorem Cells.gather_ev (j : Job) (c : CellRun) (g d : Nat) (f : Flight) (h : Evolves org s) : ExEv org (gather s j c g d f) := by
  unfold gather
  dsimp only
  split
  · have q := verify_ev (org := org) j g d f.n f h
    split <;> (rename _ = _ => e; rw [e] at q)
    · exact q
    · exact q
  · split
    · have q := storeEnd_ev (org := org) j g d f.n ((operand j c g d f.n 0 0).getD (nullOf (j.descAt d))) f h
      split <;> (rename _ = _ => e; rw [e] at q)
      · exact q
      · exact q
    · exact h
open Cells in
@[simp] theorem Cells.completeStep_ev (j : Job) (c : CellRun) (g d : Nat) (f : Flight) (h : Evolves org s) :
    Evolves org (Cells.completeStep s j c g d f) := by
  have q := gather_ev (org := org) j c g d f h
  unfold completeStep
  split <;> (rename _ = _ => e; rw [e] at q)
  · exact q
  · dsimp only
    split
    · exact upd_ev _ _ q
    · refine signal_ev _ _ _ (ev_ite ?_ (tally_ev _ _ _ _ _ _ _ ?_)) <;>
        exact ev_foldl (fun _ _ k => tally_ev _ _ _ _ _ _ _ k) _ (spend_ev _ _ (upd_ev _ _ q))
end

section
open Bits Ops
open Recov in
@[simp] theorem Recov.moduleLost_ev (arg1 : Nat) (h : Evolves org s) : Evolves org (Recov.moduleLost s arg1) := by
  unfold Recov.moduleLost
  simp (maxDischargeDepth := 9) [h]
end

section
open Bits Ops JobOps
open Cells in
@[simp] theorem Cells.reload_ev (j : Job) (c : CellRun) (g : Nat) (f : Flight) (h : Evolves org s) : Evolves org (Cells.reload s j c g f) := by
  unfold Cells.reload
  simp (maxDischargeDepth := 9) [h]
open Cells in
@[simp] theorem Cells.atomicClaim_ev (j : Job) (g tag : Nat) (h : Evolves org s) : Evolves org (Cells.atomicClaim s j g tag).1 := by
  unfold Cells.atomicClaim
  (repeat' (first | assumption | (simp (maxDischargeDepth := 9) [‹Evolves org _›]; done) | split | dsimp only))
open Cells in
@[simp] theorem Cells.claimArrives_ev (j : Job) (g : Nat) (tag : Nat) (f : CellRun → CellRun) (h : Evolves org s) : Evolves org (Cells.claimArrives s j g tag f) := by
  unfold Cells.claimArrives
  simp (maxDischargeDepth := 9) [h]
open Cells in
@[simp] theorem Cells.meshLost_ev (j : Job) (g d n : Nat) (h : Evolves org s) : Evolves org (Cells.meshLost s j g d n) := by
  unfold Cells.meshLost
  simp (maxDischargeDepth := 9) [h]
open Cells in
@[simp] theorem Cells.softStep_ev (j : Job) (c : CellRun) (g d k m : Nat) (h : Evolves org s) : Evolves org (Cells.softStep s j c g d k m) := by
  unfold Cells.softStep
  extract_lets q e
  split
  · exact h
  · exact tally_ev _ _ _ _ _ _ _ (spend_ev _ _ (set_ev _ h))
end

section
open Bits Ops JobOps CacheOps
open JobOps in
open Scat in
@[simp] theorem Scat.copyOnWrite_keeps (v : Via) (c : Bytes) (now e : Nat) : Keeps (Scat.copyOnWrite v c now e) := by
  unfold Scat.copyOnWrite
  (repeat' (first | assumption | (with_reducible apply Keeps.bind) | (with_reducible apply Keeps.map) | (with_reducible apply Keeps.ite) | intro _ | split | (simp (maxDischargeDepth := 9); done) | dsimp only))
open Scat in
@[simp] theorem Scat.mapEntry_keeps (v : Via) (c : Bytes) (now : Nat) (alloc : Bool) (w : Nat) : Keeps (Scat.mapEntry v c now alloc w) := by
  unfold Scat.mapEntry
  (repeat' (first | assumption | (with_reducible apply Keeps.bind) | (with_reducible apply Keeps.map) | (with_reducible apply Keeps.ite) | intro _ | split | (simp (maxDischargeDepth := 9); done) | dsimp only))
open Scat in
@[simp] theorem Scat.putRow_keeps (v : Via) (c : Bytes) (value : Bool) (a t code : Nat) (l : List (Nat × Nat)) :
    Keeps (putRow v c value a t code l) := by
  induction l with
  | nil => exact Keeps.pure _
  | cons x l ih =>
    refine Keeps.bind (MM.write_keeps _ _ _) fun _ => ?_
    dsimp only
    split
    · exact Keeps.bind (MM.write_keeps _ _ _) fun _ => ih
    · exact ih
open Scat in
@[simp] theorem Scat.advanceTo_keeps (v : Via) (c : Bytes) (q : Seq) (w e : Nat) : Keeps (Scat.advanceTo v c q w e) := by
  unfold Scat.advanceTo
  (repeat' (first | assumption | (with_reducible apply Keeps.bind) | (with_reducible apply Keeps.map) | (with_reducible apply Keeps.ite) | intro _ | split | (simp (maxDischargeDepth := 9); done) | dsimp only))
open Scat in
@[simp] theorem Scat.row_keeps (v : Via) (c : Bytes) (now : Nat) (x : Bytes) (w : Nat) (vals : List Val) : Keeps (Scat.row v c now x w vals) := by
  unfold Scat.row
  (repeat' (first | assumption | (with_reducible apply Keeps.bind) | (with_reducible apply Keeps.map) | (with_reducible apply Keeps.ite) | intro _ | split | (simp (maxDischargeDepth := 9); done) | dsimp only))
end

end Machine
end Sys2Proof
end

