-- ==== Sys2Proof/Laws/EvolvesHub.lean ====
section
/-! SUPPORT. Evolves for the hub stations: one lemma an operation. -/

namespace Sys2Proof

-- one search serves every lemma of this file, and none needs all of its steps
set_option linter.unusedTactic false
set_option linter.unreachableTactic false
set_option linter.unusedSimpArgs false
namespace Machine

open Bits Ops
variable {org s : State}

section
open Bits Ops JobOps
open Hub in
@[simp] theorem Hub.setExec_ev (id : Nat) (x : HubExec) (h : Evolves org s) : Evolves org (Hub.setExec s id x) := by
  unfold Hub.setExec
  simp (maxDischargeDepth := 9) [h]
open Hub in
@[simp] theorem Hub.dropExec_ev (id d n : Nat) (h : Evolves org s) : Evolves org (Hub.dropExec s id d n) := by
  unfold Hub.dropExec
  simp (maxDischargeDepth := 9) [h]
open Hub in
@[simp] theorem Hub.grant_ev (id d n : Nat) (w : HubWork) (h : Evolves org s) : Evolves org (Hub.grant s id d n w) := by
  unfold Hub.grant
  simp (maxDischargeDepth := 9) [h]
open Hub in
@[simp] theorem Hub.endWith_ev (id d status : Nat) (h : Evolves org s) : Evolves org (Hub.endWith s id d status) := by
  unfold Hub.endWith
  simp (maxDischargeDepth := 9) [h]
open Hub in
@[simp] theorem Hub.unitFails_ev (j : Job) (d n : Nat) (e : MFail) (h : Evolves org s) : Evolves org (unitFails s j d n e) := by
  cases e <;> simp [unitFails, h]
open Hub in
@[simp] theorem Hub.workFails_ev (j : Job) (d : Nat) (e : MFail) (h : Evolves org s) : Evolves org (workFails s j d e) := by
  cases e <;> simp [workFails, h]
open Hub in
@[simp] theorem Hub.completed_ev (id d n : Nat) (h : Evolves org s) : Evolves org (Hub.completed s id d n) := by
  unfold Hub.completed
  simp (maxDischargeDepth := 9) [h]
open Hub.Sample in
@[simp] theorem Hub.Sample.act_keeps (v : Via) (x : Bytes) (key epoch n : Nat) : Keeps (Hub.Sample.act v x key epoch n) := by
  unfold Hub.Sample.act
  (repeat' (first | assumption | (with_reducible apply Keeps.bind) | (with_reducible apply Keeps.map) | (with_reducible apply Keeps.ite) | intro _ | split | (simp (maxDischargeDepth := 9); done) | dsimp only))
open Hub.Format in
@[simp] theorem Hub.Format.pixels_keeps (v : Via) (r : Bytes) (px py n : Nat) : Keeps (Hub.Format.pixels v r px py n) := by
  unfold Hub.Format.pixels
  (repeat' (first | assumption | (with_reducible apply Keeps.bind) | (with_reducible apply Keeps.map) | (with_reducible apply Keeps.ite) | intro _ | split | (simp (maxDischargeDepth := 9); done) | dsimp only))
open Hub.Format in
@[simp] theorem Hub.Format.toTensor_keeps (v : Via) (x : Bytes) (n : Nat) : Keeps (Hub.Format.toTensor v x n) := by
  unfold Hub.Format.toTensor
  (repeat' (first | assumption | (with_reducible apply Keeps.bind) | (with_reducible apply Keeps.map) | (with_reducible apply Keeps.ite) | intro _ | split | (simp (maxDischargeDepth := 9); done) | dsimp only))
open Hub.Format in
@[simp] theorem Hub.Format.toPicture_keeps (v : Via) (x : Bytes) (n : Nat) : Keeps (Hub.Format.toPicture v x n) := by
  unfold Hub.Format.toPicture
  (repeat' (first | assumption | (with_reducible apply Keeps.bind) | (with_reducible apply Keeps.map) | (with_reducible apply Keeps.ite) | intro _ | split | (simp (maxDischargeDepth := 9); done) | dsimp only))
open Hub in
@[simp] theorem Hub.unitWork_keeps (j : Job) (v : Via) (d n : Nat) : Keeps (Hub.unitWork j v d n) := by
  unfold Hub.unitWork
  (repeat' (first | assumption | (with_reducible apply Keeps.bind) | (with_reducible apply Keeps.map) | (with_reducible apply Keeps.ite) | intro _ | split | (simp (maxDischargeDepth := 9); done) | dsimp only))
open Hub in
@[simp] theorem Hub.startUnit_ev (j : Job) (d n : Nat) (h : Evolves org s) : Evolves org (Hub.startUnit s j d n) := by
  unfold Hub.startUnit
  split <;> (rename _ = (_, _) => q; replace q := JobOps.run_eq (org := org) q (unitWork_keeps _ _ _ _) h)
  · exact grant_ev _ _ _ _ (spend_ev _ _ (tally_ev _ _ _ _ _ _ _ q))
  · exact unitFails_ev _ _ _ _ q
end

section
open Bits Ops JobOps
open Codecs in
@[simp] theorem Codecs.putSessions_ev (isEnc : Bool) (l : List Session) (h : Evolves org s) : Evolves org (Codecs.putSessions s isEnc l) := by
  unfold Codecs.putSessions
  simp (maxDischargeDepth := 9) [h]
open Codecs in
theorem Codecs.bind_ev (isEnc : Bool) (j : Job) (addr q u : Nat) (h : Evolves org s) :
    ∀ t e, bind s isEnc j addr q u = .ok t e → Evolves org t := by
  intro t e k
  unfold bind at k
  dsimp only at k
  repeat' split at k
  all_goals (cases k; try exact putSessions_ev _ _ h)
open Codecs in
@[simp] theorem Codecs.release_ev (isEnc : Bool) (addr fn : Nat) (close : Bool) (h : Evolves org s) : Evolves org (Codecs.release s isEnc addr fn close) := by
  unfold Codecs.release
  simp (maxDischargeDepth := 9) [h]
open Codecs in
@[simp] theorem Codecs.readRing_keeps (v : Via) (a : Nat) : Keeps (Codecs.readRing v a) := by
  unfold Codecs.readRing
  (repeat' (first | assumption | (with_reducible apply Keeps.bind) | (with_reducible apply Keeps.map) | (with_reducible apply Keeps.ite) | intro _ | split | (simp (maxDischargeDepth := 9); done) | dsimp only))
open Codecs in
@[simp] theorem Codecs.putRing_keeps (v : Via) (r : OutRing) (b : Bytes) : Keeps (Codecs.putRing v r b) := by
  unfold Codecs.putRing
  (repeat' (first | assumption | (with_reducible apply Keeps.bind) | (with_reducible apply Keeps.map) | (with_reducible apply Keeps.ite) | intro _ | split | (simp (maxDischargeDepth := 9); done) | dsimp only))
open Codecs in
@[simp] theorem Codecs.fails_ev (j : Job) (isEnc : Bool) (addr d n : Nat) (e : MFail) (h : Evolves org s) : Evolves org (Codecs.fails s j isEnc addr d n e) := by
  unfold Codecs.fails
  simp (maxDischargeDepth := 9) [h]
open Codecs in
@[simp] theorem Codecs.bump_ev (j : Job) (e : Nat) (h : Evolves org s) : Evolves org (Codecs.bump s j e) := by
  unfold Codecs.bump
  (repeat' (first | assumption | (simp (maxDischargeDepth := 9) [‹Evolves org _›]; done) | (with_reducible refine ev_foldl (fun _ _ _ => ?_) _ ?_) | dsimp only | (simp +contextual (maxDischargeDepth := 9) [‹Evolves org _›]; done) | (rename _ = (_, _) => q; replace q := JobOps.run_eq (org := org) q (by (repeat' (first | assumption | (with_reducible apply Keeps.bind) | (with_reducible apply Keeps.map) | (with_reducible apply Keeps.ite) | intro _ | split | (simp (maxDischargeDepth := 9); done) | dsimp only))) (by first | assumption | (simp (maxDischargeDepth := 9) [‹Evolves org _›]; done))) | (rename _ = (_, _) => q; replace q := snd_ev (o := org) q (by simp (maxDischargeDepth := 9) [‹Evolves org _›]; done)) | (rename _ = (_, _) => q; replace q := fst_ev (o := org) q (by simp (maxDischargeDepth := 9) [‹Evolves org _›]; done)) | split | intro _ | dsimp only))
end

section
open Bits Ops JobOps Codecs
open Bits Ops JobOps Codecs Enc
open Enc in
@[simp] theorem Enc.offsets_keeps (v : Via) (b p : Bytes) : Keeps (Enc.offsets v b p) := by
  unfold Enc.offsets
  (repeat' (first | assumption | (with_reducible apply Keeps.bind) | (with_reducible apply Keeps.map) | (with_reducible apply Keeps.ite) | intro _ | split | (simp (maxDischargeDepth := 9); done) | dsimp only))
open Enc in
@[simp] theorem Enc.field_keeps (v : Via) (b p : Bytes) : Keeps (Enc.field v b p) := by
  unfold Enc.field
  (repeat' (first | assumption | (with_reducible apply Keeps.bind) | (with_reducible apply Keeps.map) | (with_reducible apply Keeps.ite) | intro _ | split | (simp (maxDischargeDepth := 9); done) | dsimp only))
open Enc in
@[simp] theorem Enc.refuse_ev (j : Job) (v : Via) (d paddr status : Nat) (h : Evolves org s) : Evolves org (Enc.refuse s j v d paddr status) := by
  unfold Enc.refuse
  (repeat' (first | assumption | (simp (maxDischargeDepth := 9) [‹Evolves org _›]; done) | (with_reducible refine ev_foldl (fun _ _ _ => ?_) _ ?_) | dsimp only | (simp +contextual (maxDischargeDepth := 9) [‹Evolves org _›]; done) | (rename _ = (_, _) => q; replace q := JobOps.run_eq (org := org) q (by (repeat' (first | assumption | (with_reducible apply Keeps.bind) | (with_reducible apply Keeps.map) | (with_reducible apply Keeps.ite) | intro _ | split | (simp (maxDischargeDepth := 9); done) | dsimp only))) (by first | assumption | (simp (maxDischargeDepth := 9) [‹Evolves org _›]; done))) | (rename _ = (_, _) => q; replace q := snd_ev (o := org) q (by simp (maxDischargeDepth := 9) [‹Evolves org _›]; done)) | (rename _ = (_, _) => q; replace q := fst_ev (o := org) q (by simp (maxDischargeDepth := 9) [‹Evolves org _›]; done)) | split | intro _ | dsimp only))
open Enc in
@[simp] theorem Enc.fetch_keeps (v : Via) (x : Bytes) (n : Nat) : Keeps (Enc.fetch v x n) := by
  unfold Enc.fetch
  (repeat' (first | assumption | (with_reducible apply Keeps.bind) | (with_reducible apply Keeps.map) | (with_reducible apply Keeps.ite) | intro _ | split | (simp (maxDischargeDepth := 9); done) | dsimp only))
open Enc in
@[simp] theorem Enc.start_ev (j : Job) (d n : Nat) (h : Evolves org s) : Evolves org (Enc.start s j d n) := by
  unfold Enc.start
  dsimp only
  split
  · exact Hub.grant_ev _ _ _ _ h
  split <;> (rename _ = (_, _) => q; replace q := JobOps.run_eq (org := org) q (fetch_keeps _ _ _) h)
  · exact Hub.workFails_ev _ _ _ q
  split
  · exact refuse_ev _ _ _ _ _ q
  split
  · exact refuse_ev _ _ _ _ _ q
  split
  · exact refuse_ev _ _ _ _ _ q
  · exact refuse_ev _ _ _ _ _ q
  · next e => exact Hub.grant_ev _ _ _ _ (Codecs.bind_ev _ _ _ _ _ q _ _ e)
open Enc in
@[simp] theorem Enc.pixels_keeps (v : Via) (w : EncWork) (r : Nat) : Keeps (Enc.pixels v w r) := by
  unfold Enc.pixels
  (repeat' (first | assumption | (with_reducible apply Keeps.bind) | (with_reducible apply Keeps.map) | (with_reducible apply Keeps.ite) | intro _ | split | (simp (maxDischargeDepth := 9); done) | dsimp only))
open Enc in
@[simp] theorem Enc.finish_ev (j : Job) (d n : Nat) (w : EncWork) (h : Evolves org s) : Evolves org (Enc.finish s j d n w) := by
  unfold Enc.finish
  (repeat' (first | assumption | (simp (maxDischargeDepth := 9) [‹Evolves org _›]; done) | (with_reducible refine ev_foldl (fun _ _ _ => ?_) _ ?_) | dsimp only | (simp +contextual (maxDischargeDepth := 9) [‹Evolves org _›]; done) | (rename _ = (_, _) => q; replace q := JobOps.run_eq (org := org) q (by (repeat' (first | assumption | (with_reducible apply Keeps.bind) | (with_reducible apply Keeps.map) | (with_reducible apply Keeps.ite) | intro _ | split | (simp (maxDischargeDepth := 9); done) | dsimp only))) (by first | assumption | (simp (maxDischargeDepth := 9) [‹Evolves org _›]; done))) | (rename _ = (_, _) => q; replace q := snd_ev (o := org) q (by simp (maxDischargeDepth := 9) [‹Evolves org _›]; done)) | (rename _ = (_, _) => q; replace q := fst_ev (o := org) q (by simp (maxDischargeDepth := 9) [‹Evolves org _›]; done)) | split | intro _ | dsimp only))
end

section
open Bits Ops JobOps Codecs
open Dec in
@[simp] theorem Dec.freeBufs_keeps (v : Via) (b : Bytes) (a : DecArea) (held : List Nat) : Keeps (Dec.freeBufs v b a held) := by
  unfold Dec.freeBufs
  (repeat' (first | assumption | (with_reducible apply Keeps.bind) | (with_reducible apply Keeps.map) | (with_reducible apply Keeps.ite) | intro _ | split | (simp (maxDischargeDepth := 9); done) | dsimp only))
open Dec in
@[simp] theorem Dec.readPlane_keeps (v : Via) (a pitch w h : Nat) : Keeps (Dec.readPlane v a pitch w h) := by
  unfold Dec.readPlane
  (repeat' (first | assumption | (with_reducible apply Keeps.bind) | (with_reducible apply Keeps.map) | (with_reducible apply Keeps.ite) | intro _ | split | (simp (maxDischargeDepth := 9); done) | dsimp only))
open Dec in
@[simp] theorem Dec.writePlane_keeps (v : Via) (a pitch w h : Nat) (b : Bytes) : Keeps (Dec.writePlane v a pitch w h b) := by
  unfold Dec.writePlane
  (repeat' (first | assumption | (with_reducible apply Keeps.bind) | (with_reducible apply Keeps.map) | (with_reducible apply Keeps.ite) | intro _ | split | (simp (maxDischargeDepth := 9); done) | dsimp only))
open Dec in
@[simp] theorem Dec.planesOf_keeps (v : Via) (b : Bytes) (p : DecPic) : Keeps (Dec.planesOf v b p) := by
  unfold Dec.planesOf
  (repeat' (first | assumption | (with_reducible apply Keeps.bind) | (with_reducible apply Keeps.map) | (with_reducible apply Keeps.ite) | intro _ | split | (simp (maxDischargeDepth := 9); done) | dsimp only))
open Dec in
@[simp] theorem Dec.planesOfOpt_keeps (v : Via) (b : Bytes) (p : Option DecPic) : Keeps (Dec.planesOf? v b p) := by
  unfold Dec.planesOf?
  (repeat' (first | assumption | (with_reducible apply Keeps.bind) | (with_reducible apply Keeps.map) | (with_reducible apply Keeps.ite) | intro _ | split | (simp (maxDischargeDepth := 9); done) | dsimp only))
open Dec in
@[simp] theorem Dec.report_ev (j : Job) (addr num : Nat) (hd : PicHead) (f : Found) (sub : Bool) (h : Evolves org s) :
    Evolves org (Dec.report s j addr num hd f sub) := by
  unfold Dec.report
  extract_lets src u
  have q : Evolves org u := ev_ite (logEvent_ev _ h) h
  split
  · exact logEvent_ev _ q
  · exact q
open Dec in
@[simp] theorem Dec.decode_keeps (v : Via) (ver : Word) (w : DecWork) (held : List Nat) (fr ts : Nat) (h : PicHead) :
    Keeps (Dec.decode v ver w held fr ts h) := by
  unfold Dec.decode
  (repeat' (first | assumption | (with_reducible apply Keeps.bind) | (with_reducible apply Keeps.map) | (with_reducible apply Keeps.ite) | intro _ | split | (simp (maxDischargeDepth := 9); done) | dsimp only))
open Dec in
@[simp] theorem Dec.stamp_keeps (v : Via) (p : PicOut) : Keeps (Dec.stamp v p) := by
  unfold Dec.stamp
  (repeat' (first | assumption | (with_reducible apply Keeps.bind) | (with_reducible apply Keeps.map) | (with_reducible apply Keeps.ite) | intro _ | split | (simp (maxDischargeDepth := 9); done) | dsimp only))
open Dec in
@[simp] theorem Dec.deliver_keeps (v : Via) (a : Nat) (p : PicOut) : Keeps (Dec.deliver v a p) := by
  unfold Dec.deliver
  (repeat' (first | assumption | (with_reducible apply Keeps.bind) | (with_reducible apply Keeps.map) | (with_reducible apply Keeps.ite) | intro _ | split | (simp (maxDischargeDepth := 9); done) | dsimp only))
open Dec in
@[simp] theorem Dec.fetch_keeps (v : Via) (x : Bytes) (n : Nat) : Keeps (Dec.fetch v x n) := by
  unfold Dec.fetch
  (repeat' (first | assumption | (with_reducible apply Keeps.bind) | (with_reducible apply Keeps.map) | (with_reducible apply Keeps.ite) | intro _ | split | (simp (maxDischargeDepth := 9); done) | dsimp only))
open Dec in
@[simp] theorem Dec.start_ev (j : Job) (d n : Nat) (h : Evolves org s) : Evolves org (Dec.start s j d n) := by
  unfold Dec.start
  dsimp only
  split
  · exact Hub.grant_ev _ _ _ _ h
  split <;> (rename _ = (_, _) => q; replace q := JobOps.run_eq (org := org) q (by (repeat' (first | assumption | (with_reducible apply Keeps.bind) | (with_reducible apply Keeps.map) | (with_reducible apply Keeps.ite) | intro _ | split | (simp (maxDischargeDepth := 9); done) | dsimp only))) h)
  · exact Hub.workFails_ev _ _ _ q
  · exact Hub.endWith_ev _ _ _ q
  split
  · exact Hub.endWith_ev _ _ _ q
  split
  · exact Hub.endWith_ev _ _ _ q
  · exact Hub.endWith_ev _ _ _ q
  · next e => exact Hub.grant_ev _ _ _ _ (Codecs.bind_ev _ _ _ _ _ q _ _ e)
open Dec in
theorem Dec.decoded_ev (j : Job) (st d n : Nat) (w : DecWork) (close : Bool) (h : Evolves org s) : ∀ t, Dec.decoded s j st d n w close = some t → Evolves org t := by
  unfold Dec.decoded
  (repeat' (first | assumption | (simp (maxDischargeDepth := 9) [‹Evolves org _›]; done) | (with_reducible refine ev_foldl (fun _ _ _ => ?_) _ ?_) | dsimp only | (simp +contextual (maxDischargeDepth := 9) [‹Evolves org _›]; done) | (rename _ = (_, _) => q; replace q := JobOps.run_eq (org := org) q (by (repeat' (first | assumption | (with_reducible apply Keeps.bind) | (with_reducible apply Keeps.map) | (with_reducible apply Keeps.ite) | intro _ | split | (simp (maxDischargeDepth := 9); done) | dsimp only))) (by first | assumption | (simp (maxDischargeDepth := 9) [‹Evolves org _›]; done))) | (rename _ = (_, _) => q; replace q := snd_ev (o := org) q (by simp (maxDischargeDepth := 9) [‹Evolves org _›]; done)) | (rename _ = (_, _) => q; replace q := fst_ev (o := org) q (by simp (maxDischargeDepth := 9) [‹Evolves org _›]; done)) | split | intro _ | dsimp only))
open Dec in
@[simp] theorem Dec.finish_ev (j : Job) (d n : Nat) (w : DecWork) (h : Evolves org s) : Evolves org (Dec.finish s j d n w) := by
  unfold Dec.finish
  split
  · exact h
  split
  · exact Hub.endWith_ev _ _ _ (release_ev _ _ _ _ (Hub.dropExec_ev _ _ _ h))
  · next e => exact Hub.completed_ev _ _ _ (decoded_ev _ _ _ _ _ _ h _ e)
end

section
open Bits Ops JobOps Codecs
open Bits Ops JobOps Codecs Ing
open Ing in
@[simp] theorem Ing.readQueue_keeps (v : Via) (a : Nat) : Keeps (Ing.readQueue v a) := by
  unfold Ing.readQueue
  (repeat' (first | assumption | (with_reducible apply Keeps.bind) | (with_reducible apply Keeps.map) | (with_reducible apply Keeps.ite) | intro _ | split | (simp (maxDischargeDepth := 9); done) | dsimp only))
open Ing in
@[simp] theorem Ing.readEntry_keeps (v : Via) (q : Queue) (n : Nat) : Keeps (Ing.readEntry v q n) := by
  unfold Ing.readEntry
  (repeat' (first | assumption | (with_reducible apply Keeps.bind) | (with_reducible apply Keeps.map) | (with_reducible apply Keeps.ite) | intro _ | split | (simp (maxDischargeDepth := 9); done) | dsimp only))
open Ing in
@[simp] theorem Ing.count_keeps (v : Via) (x : Bytes) (off : Nat) : Keeps (Ing.count v x off) := by
  unfold Ing.count
  (repeat' (first | assumption | (with_reducible apply Keeps.bind) | (with_reducible apply Keeps.map) | (with_reducible apply Keeps.ite) | intro _ | split | (simp (maxDischargeDepth := 9); done) | dsimp only))
open Ing in
@[simp] theorem Ing.arrive_keeps (v : Via) (x : Bytes) (r : IngRun) (i : Item) : Keeps (Ing.arrive v x r i) := by
  unfold Ing.arrive
  (repeat' (first | assumption | (with_reducible apply Keeps.bind) | (with_reducible apply Keeps.map) | (with_reducible apply Keeps.ite) | intro _ | split | (simp (maxDischargeDepth := 9); done) | dsimp only))
open Ing in
@[simp] theorem Ing.putRun_ev (id d : Nat) (r : IngRun) (h : Evolves org s) : Evolves org (Ing.putRun s id d r) := by
  unfold Ing.putRun
  simp (maxDischargeDepth := 9) [h]
open Ing in
theorem Ing.entryOver_ev (j : Job) (d n : Nat) (w : DecWork) (h : Evolves org s) : ∀ t, Ing.entryOver s j d n w = some t → Evolves org t := by
  unfold Ing.entryOver
  intro t
  split
  · intro e; cases e; exact Hub.setExec_ev _ _ h
  · exact Dec.decoded_ev _ _ _ _ _ _ h t
open Ing in
@[simp] theorem Ing.stop_ev (j : Job) (d n status : Nat) (h : Evolves org s) : Evolves org (Ing.stop s j d n status) := by
  unfold Ing.stop
  simp (maxDischargeDepth := 9) [h]
open Ing in
@[simp] theorem Ing.runOf_keeps (v : Via) (j : Job) (d now : Nat) (q : Queue) : Keeps (Ing.runOf v j d now q) := by
  unfold Ing.runOf
  (repeat' (first | assumption | (with_reducible apply Keeps.bind) | (with_reducible apply Keeps.map) | (with_reducible apply Keeps.ite) | intro _ | split | (simp (maxDischargeDepth := 9); done) | dsimp only))
open Ing in
@[simp] theorem Ing.look_keeps (v : Via) (j : Job) (d n now : Nat) : Keeps (Ing.look v j d n now) := by
  unfold Ing.look
  (repeat' (first | assumption | (with_reducible apply Keeps.bind) | (with_reducible apply Keeps.map) | (with_reducible apply Keeps.ite) | intro _ | split | (simp (maxDischargeDepth := 9); done) | dsimp only))
open Ing in
@[simp] theorem Ing.startVideo_ev (j : Job) (d n : Nat) (g : Seen) (h : Evolves org s) : Evolves org (Ing.startVideo s j d n g) := by
  unfold Ing.startVideo
  dsimp only
  split
  · exact stop_ev _ _ _ _ h
  split
  · exact stop_ev _ _ _ _ h
  · exact stop_ev _ _ _ _ h
  · next e => exact Hub.setExec_ev _ _ (putRun_ev _ _ _ (Codecs.bind_ev _ _ _ _ _ h _ _ e))
open Ing in
@[simp] theorem Ing.startAudio_ev (j : Job) (d n : Nat) (g : Seen) (h : Evolves org s) : Evolves org (Ing.startAudio s j d n g) := by
  unfold Ing.startAudio
  (repeat' (first | assumption | (simp (maxDischargeDepth := 9) [‹Evolves org _›]; done) | (with_reducible refine ev_foldl (fun _ _ _ => ?_) _ ?_) | dsimp only | (simp +contextual (maxDischargeDepth := 9) [‹Evolves org _›]; done) | (rename _ = (_, _) => q; replace q := JobOps.run_eq (org := org) q (by (repeat' (first | assumption | (with_reducible apply Keeps.bind) | (with_reducible apply Keeps.map) | (with_reducible apply Keeps.ite) | intro _ | split | (simp (maxDischargeDepth := 9); done) | dsimp only))) (by first | assumption | (simp (maxDischargeDepth := 9) [‹Evolves org _›]; done))) | (rename _ = (_, _) => q; replace q := snd_ev (o := org) q (by simp (maxDischargeDepth := 9) [‹Evolves org _›]; done)) | (rename _ = (_, _) => q; replace q := fst_ev (o := org) q (by simp (maxDischargeDepth := 9) [‹Evolves org _›]; done)) | split | intro _ | dsimp only))
open Ing in
@[simp] theorem Ing.entry_ev (id d : Nat) (h : Evolves org s) : Evolves org (Ing.entry s id d) := by
  unfold Ing.entry
  split
  · exact h
  split
  · exact h
  dsimp only
  split <;> (rename _ = (_, _) => q; replace q := JobOps.run_eq (org := org) q (look_keeps _ _ _ _ _) h)
  · exact Hub.workFails_ev _ _ _ (Hub.dropExec_ev _ _ _ q)
  split
  · exact q
  split
  · exact stop_ev _ _ _ _ q
  split
  · exact startAudio_ev _ _ _ _ q
  split
  · exact startVideo_ev _ _ _ _ q
  split
  · exact q
  split
  · exact stop_ev _ _ _ _ q
  next e =>
    have q := entryOver_ev _ _ _ _ q _ e
    split
    · exact q
    split <;> (rename _ = (_, _) => k; replace k := JobOps.run_eq (org := org) k (look_keeps _ _ _ _ _) q)
    · exact Hub.workFails_ev _ _ _ (Hub.dropExec_ev _ _ _ k)
    · exact startVideo_ev _ _ _ _ k
open Ing in
@[simp] theorem Ing.place_keeps (v : Via) (j : Job) (d n : Nat) (l : List (Nat × PicOut)) (w : DecWork) (r : Option IngRun) :
    Keeps (Ing.place v j d n l w r) := by
  induction l generalizing w r with
  | nil => exact Keeps.pure _
  | cons a l ih =>
    unfold Ing.place
    split
    · exact ih _ _
    split
    · exact ih _ _
    · exact Keeps.bind (arrive_keeps _ _ _ _) fun _ => ih _ _
open Ing in
@[simp] theorem Ing.turn_keeps (v : Via) (ver : Word) (j : Job) (d n fr : Nat) (w : DecWork) :
    Keeps (Ing.turn v ver j d n fr w) := by
  unfold Ing.turn
  (repeat' (first | assumption | (with_reducible apply Keeps.bind) | (with_reducible apply Keeps.map) | (with_reducible apply Keeps.ite) | intro _ | split | (simp (maxDischargeDepth := 9); done) | dsimp only))
open Ing in
@[simp] theorem Ing.deliverFirst_keeps (v : Via) (w : DecWork) : Keeps (Ing.deliverFirst v w) := by
  unfold Ing.deliverFirst
  (repeat' (first | assumption | (with_reducible apply Keeps.bind) | (with_reducible apply Keeps.map) | (with_reducible apply Keeps.ite) | intro _ | split | (simp (maxDischargeDepth := 9); done) | dsimp only))
open Ing in
@[simp] theorem Ing.output_keeps (v : Via) (ver : Word) (j : Job) (d n fr : Nat) (w : DecWork) :
    Keeps (Ing.output v ver j d n fr w) := by
  unfold Ing.output
  (repeat' (first | assumption | (with_reducible apply Keeps.bind) | (with_reducible apply Keeps.map) | (with_reducible apply Keeps.ite) | intro _ | split | (simp (maxDischargeDepth := 9); done) | dsimp only))
open Ing in
@[simp] theorem Ing.scan_keeps (v : Via) (q : Queue) (src t k n : Nat) : Keeps (Ing.scan v q src t k n) := by
  induction k generalizing n with
  | zero => exact Keeps.pure _
  | succ k ih =>
    unfold Ing.scan
    exact Keeps.ite (Keeps.pure _) (Keeps.bind (readEntry_keeps _ _ _) fun _ => Keeps.ite (Keeps.pure _) (ih _))
open Ing in
@[simp] theorem Ing.hasItem_keeps (v : Via) (q : Queue) (r : IngRun) (nstart src : Nat) : Keeps (Ing.hasItem v q r nstart src) := by
  unfold Ing.hasItem
  (repeat' (first | assumption | (with_reducible apply Keeps.bind) | (with_reducible apply Keeps.map) | (with_reducible apply Keeps.ite) | intro _ | split | (simp (maxDischargeDepth := 9); done) | dsimp only))
open Ing in
@[simp] theorem Ing.allHave_keeps (v : Via) (q : Queue) (r : IngRun) (nstart k : Nat) : Keeps (Ing.allHave v q r nstart k) := by
  induction k with
  | zero => exact Keeps.pure _
  | succ k ih => exact Keeps.bind (hasItem_keeps _ _ _ _ _) fun _ => Keeps.ite ih (Keeps.pure _)
open Ing in
@[simp] theorem Ing.tensor_keeps (v : Via) (g : Bytes) (es : List Bytes) : Keeps (Ing.tensor v g es) := by
  unfold Ing.tensor
  (repeat' (first | assumption | (with_reducible apply Keeps.bind) | (with_reducible apply Keeps.map) | (with_reducible apply Keeps.ite) | intro _ | split | (simp (maxDischargeDepth := 9); done) | dsimp only))
open Ing in
@[simp] theorem Ing.audio_keeps (v : Via) (r : IngRun) (src : Nat) (is : List Item) : Keeps (Ing.audio v r src is) := by
  unfold Ing.audio
  (repeat' (first | assumption | (with_reducible apply Keeps.bind) | (with_reducible apply Keeps.map) | (with_reducible apply Keeps.ite) | intro _ | split | (simp (maxDischargeDepth := 9); done) | dsimp only))
open Ing in
@[simp] theorem Ing.emitAll_keeps (v : Via) (ring : Nat) (l : List Nat) (r : IngRun) (m : Nat) : Keeps (Ing.emitAll v ring l r m) := by
  induction l generalizing r m with
  | nil => exact Keeps.pure _
  | cons a l ih =>
    unfold Ing.emitAll
    (repeat' (first | assumption | (with_reducible apply Keeps.bind) | (with_reducible apply Keeps.map) | (with_reducible apply Keeps.ite) | intro _ | split | (simp (maxDischargeDepth := 9); done) | dsimp only))
    all_goals exact ih _ _
open Ing in
@[simp] theorem Ing.emitTick_keeps (v : Via) (j : Job) (d now : Nat) (r : IngRun) : Keeps (Ing.emitTick v j d now r) := by
  unfold Ing.emitTick
  (repeat' (first | assumption | (with_reducible apply Keeps.bind) | (with_reducible apply Keeps.map) | (with_reducible apply Keeps.ite) | intro _ | split | (simp (maxDischargeDepth := 9); done) | dsimp only))
open Ing in
@[simp] theorem Ing.complete_ev (j : Job) (d n : Nat) (h : Evolves org s) : Evolves org (Ing.complete s j d n) := by
  unfold Ing.complete
  (repeat' (first | assumption | (simp (maxDischargeDepth := 9) [‹Evolves org _›]; done) | (with_reducible refine ev_foldl (fun _ _ _ => ?_) _ ?_) | dsimp only | (simp +contextual (maxDischargeDepth := 9) [‹Evolves org _›]; done) | (rename _ = (_, _) => q; replace q := JobOps.run_eq (org := org) q (by (repeat' (first | assumption | (with_reducible apply Keeps.bind) | (with_reducible apply Keeps.map) | (with_reducible apply Keeps.ite) | intro _ | split | (simp (maxDischargeDepth := 9); done) | dsimp only))) (by first | assumption | (simp (maxDischargeDepth := 9) [‹Evolves org _›]; done))) | (rename _ = (_, _) => q; replace q := snd_ev (o := org) q (by simp (maxDischargeDepth := 9) [‹Evolves org _›]; done)) | (rename _ = (_, _) => q; replace q := fst_ev (o := org) q (by simp (maxDischargeDepth := 9) [‹Evolves org _›]; done)) | split | intro _ | dsimp only))
open Ing in
@[simp] theorem Ing.finish_ev (j : Job) (d n : Nat) (w : DecWork) (h : Evolves org s) : Evolves org (Ing.finish s j d n w) := by
  unfold Ing.finish
  split
  · exact h
  split
  · exact stop_ev _ _ _ _ (release_ev _ _ _ _ h)
  next u e =>
    have q : Evolves org u := by
      split at e
      · cases e; exact h
      · exact entryOver_ev _ _ _ _ h _ e
    split
    · exact q
    split
    · exact complete_ev _ _ _ q
    · exact q
end

section
open Bits Ops JobOps
open Pfx in
@[simp] theorem Pfx.fetchReq_keeps (v : Via) (x c : Bytes) (now n : Nat) : Keeps (Pfx.fetchReq v x c now n) := by
  unfold Pfx.fetchReq
  dsimp only
  (repeat' (first | assumption | (with_reducible apply Keeps.bind) | (with_reducible apply Keeps.map) | (with_reducible apply Keeps.ite) | intro _ | split | (simp (maxDischargeDepth := 9); done) | dsimp only))
open Pfx in
@[simp] theorem Pfx.start_ev (j : Job) (d n : Nat) (h : Evolves org s) : Evolves org (Pfx.start s j d n) := by
  unfold Pfx.start
  (repeat' (first | assumption | (simp (maxDischargeDepth := 9) [‹Evolves org _›]; done) | (with_reducible refine ev_foldl (fun _ _ _ => ?_) _ ?_) | dsimp only | (simp +contextual (maxDischargeDepth := 9) [‹Evolves org _›]; done) | (rename _ = (_, _) => q; replace q := JobOps.run_eq (org := org) q (by (repeat' (first | assumption | (with_reducible apply Keeps.bind) | (with_reducible apply Keeps.map) | (with_reducible apply Keeps.ite) | intro _ | split | (simp (maxDischargeDepth := 9); done) | dsimp only))) (by first | assumption | (simp (maxDischargeDepth := 9) [‹Evolves org _›]; done))) | (rename _ = (_, _) => q; replace q := snd_ev (o := org) q (by simp (maxDischargeDepth := 9) [‹Evolves org _›]; done)) | (rename _ = (_, _) => q; replace q := fst_ev (o := org) q (by simp (maxDischargeDepth := 9) [‹Evolves org _›]; done)) | split | intro _ | dsimp only))
open Pfx in
@[simp] theorem Pfx.setWork_ev (j : Job) (d n : Nat) (w : PfxWork) (h : Evolves org s) : Evolves org (Pfx.setWork s j d n w) := by
  unfold Pfx.setWork
  simp (maxDischargeDepth := 9) [h]
open Pfx in
@[simp] theorem Pfx.decided_ev (j : Job) (d n : Nat) (w : PfxWork) (res : Nat) (node : Option Nat) (h : Evolves org s) : Evolves org (Pfx.decided s j d n w res node) := by
  unfold Pfx.decided
  simp (maxDischargeDepth := 9) [h]
open Pfx in
@[simp] theorem Pfx.fails_ev (j : Job) (d n : Nat) (e : MFail) (h : Evolves org s) : Evolves org (Pfx.fails s j d n e) := by
  unfold Pfx.fails
  simp (maxDischargeDepth := 9) [h]
open Pfx in
@[simp] theorem Pfx.entryOf_keeps (v : Via) (c : Bytes) (r : CacheOps.PReq) : Keeps (Pfx.entryOf v c r) := by
  unfold Pfx.entryOf
  (repeat' (first | assumption | (with_reducible apply Keeps.bind) | (with_reducible apply Keeps.map) | (with_reducible apply Keeps.ite) | intro _ | split | (simp (maxDischargeDepth := 9); done) | dsimp only))
open Pfx in
@[simp] theorem Pfx.pushPart_ev (j : Job) (d n : Nat) (w : PfxWork) (h : Evolves org s) : Evolves org (Pfx.pushPart s j d n w) := by
  unfold Pfx.pushPart
  dsimp only
  split <;> (rename _ = (_, _) => q; replace q := JobOps.run_eq (org := org) q (MM.read_keeps _ _ _) h)
  · exact fails_ev _ _ _ _ q
  · exact getD_ev (Fab.issue_ev _ _ (setWork_ev _ _ _ _ q)) (setWork_ev _ _ _ _ q)
open Pfx in
@[simp] theorem Pfx.pullPart_ev (j : Job) (d n : Nat) (w : PfxWork) (h : Evolves org s) : Evolves org (Pfx.pullPart s j d n w) := by
  unfold Pfx.pullPart
  dsimp only
  split
  · exact fails_ev _ _ _ _ h
  · exact getD_ev (Fab.issue_ev _ _ (setWork_ev _ _ _ _ h)) (setWork_ev _ _ _ _ h)
open Pfx in
@[simp] theorem Pfx.returnLease_ev (w : PfxWork) (e : Nat) (h : Evolves org s) : Evolves org (Pfx.returnLease s w e) := by
  unfold Pfx.returnLease
  dsimp only
  exact getD_ev (Fab.issue_ev _ _ h) h
open Pfx in
@[simp] theorem Pfx.localOp_keeps (v : Via) (c : Bytes) (now : Nat) (w : PfxWork) : Keeps (Pfx.localOp v c now w) := by
  unfold Pfx.localOp
  (repeat' (first | assumption | (with_reducible apply Keeps.bind) | (with_reducible apply Keeps.map) | (with_reducible apply Keeps.ite) | intro _ | split | (simp (maxDischargeDepth := 9); done) | dsimp only))
open Pfx in
@[simp] theorem Pfx.opening_keeps (v : Via) (c : Bytes) (now : Nat) (w : PfxWork) : Keeps (Pfx.opening v c now w) := by
  unfold Pfx.opening
  (repeat' (first | assumption | (with_reducible apply Keeps.bind) | (with_reducible apply Keeps.map) | (with_reducible apply Keeps.ite) | intro _ | split | (simp (maxDischargeDepth := 9); done) | dsimp only))
open Pfx in
@[simp] theorem Pfx.ownOp_keeps (v : Via) (c : Bytes) (now : Nat) (w : PfxWork) (tagged : Bool) :
    Keeps (Pfx.ownOp v c now w tagged) := by
  unfold Pfx.ownOp
  (repeat' (first | assumption | (with_reducible apply Keeps.bind) | (with_reducible apply Keeps.map) | (with_reducible apply Keeps.ite) | intro _ | split | (simp (maxDischargeDepth := 9); done) | dsimp only))
open Pfx in
@[simp] theorem Pfx.setHit_ev (k : Nat × Nat) (x : Option Nat) (h : Evolves org s) : Evolves org (Pfx.setHit s k x) := by
  unfold Pfx.setHit
  simp (maxDischargeDepth := 9) [h]
open Pfx in
@[simp] theorem Pfx.begin_ev (j : Job) (d n : Nat) (w : PfxWork) (h : Evolves org s) : Evolves org (Pfx.begin s j d n w) := by
  unfold Pfx.begin
  dsimp only
  split
  · split
    · exact h
    split <;> (rename _ = (_, _) => q; replace q := JobOps.run_eq (org := org) q (opening_keeps _ _ _ _) h)
    · exact fails_ev _ _ _ _ q
    · exact decided_ev _ _ _ _ _ _ q
    · split
      · exact pushPart_ev _ _ _ _ q
      split
      · exact pullPart_ev _ _ _ _ q
      · exact getD_ev (Fab.issue_ev _ _ (setWork_ev _ _ _ _ q)) (setWork_ev _ _ _ _ q)
  · split <;> (rename _ = (_, _) => q; replace q := JobOps.run_eq (org := org) q (ownOp_keeps _ _ _ _ _) h)
    · exact fails_ev _ _ _ _ q
    · exact q
    · split
      · exact ev_ite (returnLease_ev _ _ (setHit_ev _ _ (decided_ev _ _ _ _ _ _ q))) (decided_ev _ _ _ _ _ _ q)
      · exact decided_ev _ _ _ _ _ _ q
open Pfx in
@[simp] theorem Pfx.undo_ev (j : Job) (d n : Nat) (w : PfxWork) (e res : Nat) (h : Evolves org s) : Evolves org (Pfx.undo s j d n w e res) := by
  unfold Pfx.undo
  (repeat' (first | assumption | (simp (maxDischargeDepth := 9) [‹Evolves org _›]; done) | (with_reducible refine ev_foldl (fun _ _ _ => ?_) _ ?_) | dsimp only | (simp +contextual (maxDischargeDepth := 9) [‹Evolves org _›]; done) | (rename _ = (_, _) => q; replace q := JobOps.run_eq (org := org) q (by (repeat' (first | assumption | (with_reducible apply Keeps.bind) | (with_reducible apply Keeps.map) | (with_reducible apply Keeps.ite) | intro _ | split | (simp (maxDischargeDepth := 9); done) | dsimp only))) (by first | assumption | (simp (maxDischargeDepth := 9) [‹Evolves org _›]; done))) | (rename _ = (_, _) => q; replace q := snd_ev (o := org) q (by simp (maxDischargeDepth := 9) [‹Evolves org _›]; done)) | (rename _ = (_, _) => q; replace q := fst_ev (o := org) q (by simp (maxDischargeDepth := 9) [‹Evolves org _›]; done)) | split | intro _ | dsimp only))
open Pfx in
@[simp] theorem Pfx.settleEntry_ev (j : Job) (d n : Nat) (w : PfxWork) (e : Nat) (node : Option Nat) (h : Evolves org s) : Evolves org (Pfx.settleEntry s j d n w e node) := by
  unfold Pfx.settleEntry
  (repeat' (first | assumption | (simp (maxDischargeDepth := 9) [‹Evolves org _›]; done) | (with_reducible refine ev_foldl (fun _ _ _ => ?_) _ ?_) | dsimp only | (simp +contextual (maxDischargeDepth := 9) [‹Evolves org _›]; done) | (rename _ = (_, _) => q; replace q := JobOps.run_eq (org := org) q (by (repeat' (first | assumption | (with_reducible apply Keeps.bind) | (with_reducible apply Keeps.map) | (with_reducible apply Keeps.ite) | intro _ | split | (simp (maxDischargeDepth := 9); done) | dsimp only))) (by first | assumption | (simp (maxDischargeDepth := 9) [‹Evolves org _›]; done))) | (rename _ = (_, _) => q; replace q := snd_ev (o := org) q (by simp (maxDischargeDepth := 9) [‹Evolves org _›]; done)) | (rename _ = (_, _) => q; replace q := fst_ev (o := org) q (by simp (maxDischargeDepth := 9) [‹Evolves org _›]; done)) | split | intro _ | dsimp only))
open Pfx in
@[simp] theorem Pfx.react_ev (j : Job) (d n : Nat) (w : PfxWork) (reason result : Nat) (arg : Bytes) (h : Evolves org s) : Evolves org (Pfx.react s j d n w reason result arg) := by
  unfold Pfx.react
  simp (maxDischargeDepth := 9) [h]
open Pfx in
@[simp] theorem Pfx.advance_ev (j : Job) (d n : Nat) (w : PfxWork) (h : Evolves org s) : Evolves org (Pfx.advance s j d n w) := by
  unfold Pfx.advance
  split
  · exact h
  split
  · exact begin_ev _ _ _ _ h
  split
  · exact h
  · split
    · exact h
    · exact react_ev _ _ _ _ _ _ _ h
open Pfx in
@[simp] theorem Pfx.finish_ev (j : Job) (d n : Nat) (w : PfxWork) (h : Evolves org s) : Evolves org (Pfx.finish s j d n w) := by
  unfold Pfx.finish
  (repeat' (first | assumption | (simp (maxDischargeDepth := 9) [‹Evolves org _›]; done) | (with_reducible refine ev_foldl (fun _ _ _ => ?_) _ ?_) | dsimp only | (simp +contextual (maxDischargeDepth := 9) [‹Evolves org _›]; done) | (rename _ = (_, _) => q; replace q := JobOps.run_eq (org := org) q (by (repeat' (first | assumption | (with_reducible apply Keeps.bind) | (with_reducible apply Keeps.map) | (with_reducible apply Keeps.ite) | intro _ | split | (simp (maxDischargeDepth := 9); done) | dsimp only))) (by first | assumption | (simp (maxDischargeDepth := 9) [‹Evolves org _›]; done))) | (rename _ = (_, _) => q; replace q := snd_ev (o := org) q (by simp (maxDischargeDepth := 9) [‹Evolves org _›]; done)) | (rename _ = (_, _) => q; replace q := fst_ev (o := org) q (by simp (maxDischargeDepth := 9) [‹Evolves org _›]; done)) | split | intro _ | dsimp only))
open Pfx in
@[simp] theorem Pfx.step_ev (id d o : Nat) (h : Evolves org s) : Evolves org (Pfx.step s id d o) := by
  unfold Pfx.step
  (repeat' (first | assumption | (simp (maxDischargeDepth := 9) [‹Evolves org _›]; done) | split | dsimp only))
end

section
open Bits Ops JobOps
open Bits Ops JobOps
open Hub in
@[simp] theorem Hub.begin_ev (j : Job) (d n : Nat) (h : Evolves org s) : Evolves org (Hub.begin s j d n) := by
  unfold Hub.begin
  dsimp only
  split
  · exact Enc.start_ev _ _ _ h
  split
  · exact Dec.start_ev _ _ _ h
  split
  · exact Pfx.start_ev _ _ _ h
  split
  · exact grant_ev _ _ _ _ h
  · exact startUnit_ev _ _ _ h
open Hub in
@[simp] theorem Hub.conclude_ev (j : Job) (x : HubExec) (h : Evolves org s) : Evolves org (Hub.conclude s j x) := by
  unfold Hub.conclude
  split
  · exact completed_ev _ _ _ h
  · split
    · exact Enc.finish_ev _ _ _ _ h
    · exact h
  · split
    · exact Dec.finish_ev _ _ _ _ h
    split
    · exact Ing.finish_ev _ _ _ _ h
    · exact h
  · exact Pfx.finish_ev _ _ _ _ h
end

end Machine
end Sys2Proof
end

