-- ==== Sys2Proof/Laws/EvolvesHost.lean ====
section
/-! SUPPORT. Evolves for the mailboxes, the served requests, the scheduler, management and recovery: one lemma an operation. -/

namespace Sys2Proof

-- one search serves every lemma of this file, and none needs all of its steps
set_option linter.unusedTactic false
set_option linter.unreachableTactic false
set_option linter.unusedSimpArgs false
namespace Machine

open Bits Ops
variable {org s : State}

section
open Bits Ops Starts
open Mbox
open Mbox in
@[simp] theorem Mbox.refuse_ev (st obj : Nat) (h : Evolves org s) : Evolves org (Mbox.refuse s st obj).state := by
  unfold Mbox.refuse
  simp (maxDischargeDepth := 9) [h]
open Mbox in
@[simp] theorem Mbox.done_ev (obj : Nat) (h : Evolves org s) : Evolves org (Mbox.done obj s).state := by
  unfold Mbox.done
  simp (maxDischargeDepth := 9) [h]
open Mbox in
@[simp] theorem Mbox.getState_ev (h : Evolves org s) : Evolves org (Mbox.getState s).state := by
  unfold Mbox.getState
  simp (maxDischargeDepth := 9) [h]
open Mbox in
@[simp] theorem Mbox.getInfo_ev (f : Nat) (h : Evolves org s) : Evolves org (Mbox.getInfo s f).state := by
  unfold Mbox.getInfo
  simp (maxDischargeDepth := 9) [h]
open Mbox in
@[simp] theorem Mbox.blitzBudgets_ev (h : Evolves org s) : Evolves org (Mbox.blitzBudgets s) := by
  unfold Mbox.blitzBudgets
  simp (maxDischargeDepth := 9) [h]
open Mbox in
@[simp] theorem Mbox.ringAssign_ev (f a0 a1 : Nat) (h : Evolves org s) : Evolves org (Mbox.ringAssign s f a0 a1).state := by
  unfold Mbox.ringAssign
  (repeat' (first | assumption | (simp (maxDischargeDepth := 9) [‹Evolves org _›]; done) | split | dsimp only))
open Mbox in
@[simp] theorem Mbox.ringSetup_ev (f a0 a1 a2 : Nat) (h : Evolves org s) : Evolves org (Mbox.ringSetup s f a0 a1 a2).state := by
  unfold Mbox.ringSetup
  (repeat' (first | assumption | (simp (maxDischargeDepth := 9) [‹Evolves org _›]; done) | split | dsimp only))
open Mbox in
@[simp] theorem Mbox.ringEnable_ev (f a0 : Nat) (h : Evolves org s) : Evolves org (Mbox.ringEnable s f a0).state := by
  unfold Mbox.ringEnable
  (repeat' (first | assumption | (simp (maxDischargeDepth := 9) [‹Evolves org _›]; done) | split | dsimp only))
open Mbox in
@[simp] theorem Mbox.ringDisable_ev (f a0 : Nat) (h : Evolves org s) : Evolves org (Mbox.ringDisable s f a0).state := by
  unfold Mbox.ringDisable
  (repeat' (first | assumption | (simp (maxDischargeDepth := 9) [‹Evolves org _›]; done) | split | dsimp only))
open Mbox in
@[simp] theorem Mbox.badRead_ev (f l : Nat) (h : Evolves org s) : Evolves org (Mbox.badRead s f l) := by
  unfold Mbox.badRead
  simp (maxDischargeDepth := 9) [h]
open Mbox in
@[simp] theorem Mbox.readTable_ev (f fn a : Nat) (h : Evolves org s) : Evolves org (Mbox.readTable s f fn a).2 := by
  unfold Mbox.readTable
  split <;> (rename _ = (_, _) => q; replace q := snd_ev (org := org) q (readLog_ev _ _ _ _ h))
  · dsimp only
    split
    · exact q
    · split <;> (rename _ = (_, _) => k; replace k := snd_ev (org := org) k (readLog_ev _ _ _ _ q))
      · split <;> exact k
      · exact badRead_ev _ _ k
      · exact k
  · exact badRead_ev _ _ q
  · exact q
open Mbox in
@[simp] theorem Mbox.contextBind_ev (f a0 a1 : Nat) (h : Evolves org s) : Evolves org (Mbox.contextBind s f a0 a1).state := by
  unfold Mbox.contextBind
  dsimp only
  split
  · exact refuse_ev _ _ h
  split <;> (rename _ = (_, _) => q; replace q := snd_ev (org := org) q (readTable_ev _ _ _ h))
  · exact refuse_ev _ _ q
  · split
    · exact refuse_ev _ _ q
    · split
      · exact refuse_ev _ _ q
      · exact done_ev _ ((ev_setHost _).2 q)
open Mbox in
@[simp] theorem Mbox.sessionClose_ev (f a0 a1 : Nat) (h : Evolves org s) : Evolves org (Mbox.sessionClose s f a0 a1).state := by
  unfold Mbox.sessionClose
  (repeat' (first | assumption | (simp (maxDischargeDepth := 9) [‹Evolves org _›]; done) | split | dsimp only))
open Mbox in
@[simp] theorem Mbox.liveLease_keeps (v : Via) (c : Bytes) (now : Nat) : Keeps (Mbox.liveLease v c now) := by
  unfold Mbox.liveLease
  split
  · exact Keeps.pure _
  · refine Keeps.bind (CacheOps.readTree_keeps _ _) fun t => ?_
    generalize t.nnodes = n
    induction n with
    | zero => exact Keeps.pure _
    | succ n ih => exact Keeps.bind (CacheOps.readNode_keeps _ _ _) fun _ => Keeps.ite (Keeps.pure _) ih
open Mbox in
@[simp] theorem Mbox.roleObj_ev (f : Nat) (h : Evolves org s) : Evolves org (Mbox.roleObj s f).2 := by
  unfold Mbox.roleObj
  split
  · exact h
  split
  · exact h
  have l := MM.exec_ev (org := org) 10 (liveLease_keeps (mpVia s) s.cache.desc (ptpTime s)) h
  generalize MM.exec s 10 (liveLease (mpVia s) s.cache.desc (ptpTime s)) = X at l ⊢
  obtain ⟨r, u, k⟩ := X
  dsimp only
  split
  · exact logLost_ev _ l
  · exact badRead_ev _ _ (logLost_ev _ l)
  · exact logLost_ev _ l
open Mbox in
@[simp] theorem Mbox.objectOf_ev (f cmd : Nat) (arg : Nat → Nat) (h : Evolves org s) :
    Evolves org (Mbox.objectOf s f cmd arg).2 := by
  unfold Mbox.objectOf
  repeat' split
  all_goals first | exact h | exact roleObj_ev _ h
open Mbox in
@[simp] theorem Mbox.roleSet_ev (f a0 a1 : Nat) (h : Evolves org s) : Evolves org (Mbox.roleSet s f a0 a1).state := by
  unfold Mbox.roleSet
  split
  rename _ = (_, _) => q
  replace q := snd_ev (org := org) q (roleObj_ev f h)
  split
  · exact refuse_ev _ _ q
  rename State => u
  have d : Evolves org (if a0 = 0 then (Acc.ok [], u) else readLog u f 10 a1 64).2 := by
    split
    · exact q
    · exact readLog_ev _ _ _ _ q
  generalize (if a0 = 0 then (Acc.ok [], u) else readLog u f 10 a1 64) = X at d
  obtain ⟨r, w⟩ := X
  cases r with
  | ok x =>
    dsimp only
    split
    · exact refuse_ev _ _ d
    split
    · exact refuse_ev _ _ d
    split
    · exact refuse_ev _ _ d
    · exact done_ev _ ((ev_setCache _).2 d)
  | bad l => exact refuse_ev _ _ (badRead_ev _ _ d)
  | refused => exact refuse_ev _ _ d
open Mbox in
@[simp] theorem Mbox.setPolicy_ev (i v : Nat) (h : Evolves org s) : Evolves org (Mbox.setPolicy s i v) := by
  unfold Mbox.setPolicy
  simp (maxDischargeDepth := 9) [h]
open Mbox in
@[simp] theorem Mbox.policySet_ev (f a0 a1 : Nat) (h : Evolves org s) : Evolves org (Mbox.policySet s f a0 a1).state := by
  unfold Mbox.policySet
  (repeat' (first | assumption | (simp (maxDischargeDepth := 9) [‹Evolves org _›]; done) | split | dsimp only))
open Mbox in
@[simp] theorem Mbox.eventRead_ev (f a0 a1 a2 : Nat) (h : Evolves org s) : Evolves org (Mbox.eventRead s f a0 a1 a2).state := by
  unfold Mbox.eventRead
  split
  · exact refuse_ev _ _ h
  dsimp only
  split
  · exact refuse_ev _ _ h
  · next e => exact hubWrite_ev _ _ _ _ h _ e
open Mbox in
@[simp] theorem Mbox.eventAck_ev (f a0 : Nat) (h : Evolves org s) : Evolves org (Mbox.eventAck s f a0).state := by
  unfold Mbox.eventAck
  (repeat' (first | assumption | (simp (maxDischargeDepth := 9) [‹Evolves org _›]; done) | split | dsimp only))
open Mbox in
@[simp] theorem Mbox.overrideCmd_ev (f a0 : Nat) (h : Evolves org s) : Evolves org (Mbox.overrideCmd s f a0).state := by
  unfold Mbox.overrideCmd
  (repeat' (first | assumption | (simp (maxDischargeDepth := 9) [‹Evolves org _›]; done) | split | dsimp only))
open Mbox in
@[simp] theorem Mbox.restartCmd_ev (f a0 : Nat) (h : Evolves org s) : Evolves org (Mbox.restartCmd s f a0).state := by
  unfold Mbox.restartCmd
  (repeat' (first | assumption | (simp (maxDischargeDepth := 9) [‹Evolves org _›]; done) | split | dsimp only))
open Mbox in
@[simp] theorem Mbox.run_ev (f cmd rsv : Nat) (arg : Nat → Nat) (h : Evolves org s) : Evolves org (Mbox.run s f cmd rsv arg).state := by
  unfold Mbox.run
  split
  · exact refuse_ev _ _ (objectOf_ev _ _ _ h)
  · (repeat' (first | assumption | (simp (maxDischargeDepth := 9) [‹Evolves org _›]; done) | split | dsimp only))
open Mbox in
@[simp] theorem Mbox.respond_ev (f status cmd tag state : Nat) (results : List Nat) (h : Evolves org s) : Evolves org (Mbox.respond s f status cmd tag state results) := by
  unfold Mbox.respond
  simp (maxDischargeDepth := 9) [h]
open Mbox in
@[simp] theorem Mbox.execute_ev (f : Nat) (req : Bytes) (h : Evolves org s) : Evolves org (Mbox.execute s f req) := by
  unfold Mbox.execute
  simp (maxDischargeDepth := 9) [h]
open Mbox in
@[simp] theorem Mbox.go_ev (f : Nat) (h : Evolves org s) : Evolves org (Mbox.go s f) := by
  unfold Mbox.go
  (repeat' (first | assumption | (simp (maxDischargeDepth := 9) [‹Evolves org _›]; done) | split | dsimp only))
open Mbox in
@[simp] theorem Mbox.runHeld_ev (h : Evolves org s) : Evolves org (Mbox.runHeld s) := by
  unfold Mbox.runHeld
  (repeat' (first | assumption | (simp (maxDischargeDepth := 9) [‹Evolves org _›]; done) | (with_reducible refine ev_foldl (fun _ _ _ => ?_) _ ?_) | dsimp only | (simp +contextual (maxDischargeDepth := 9) [‹Evolves org _›]; done) | (rename _ = (_, _) => q; replace q := JobOps.run_eq (org := org) q (by (repeat' (first | assumption | (with_reducible apply Keeps.bind) | (with_reducible apply Keeps.map) | (with_reducible apply Keeps.ite) | intro _ | split | (simp (maxDischargeDepth := 9); done) | dsimp only))) (by first | assumption | (simp (maxDischargeDepth := 9) [‹Evolves org _›]; done))) | (rename _ = (_, _) => q; replace q := snd_ev (o := org) q (by simp (maxDischargeDepth := 9) [‹Evolves org _›]; done)) | (rename _ = (_, _) => q; replace q := fst_ev (o := org) q (by simp (maxDischargeDepth := 9) [‹Evolves org _›]; done)) | split | intro _ | dsimp only))
open Mbox in
@[simp] theorem Mbox.submit_ev (f cmd tag : Nat) (args : List Nat) (h : Evolves org s) : Evolves org (Mbox.submit s f cmd tag args) := by
  unfold Mbox.submit
  simp (maxDischargeDepth := 9) [h]
end

section
open Bits Ops Fab JobOps
open Bits Ops Link Fab FabServe
open FabServe in
@[simp] theorem FabServe.onServed_ev (src tag op : Nat) {f : State → Served → State}
    (k : ∀ t x, Evolves org t → Evolves org (f t x)) (h : Evolves org s) : Evolves org (FabServe.onServed s src tag op f) := by
  unfold FabServe.onServed
  split
  · exact h
  · split
    · exact h
    · split
      · exact (ev_setSched _).2 h
      · exact k _ _ h
open FabServe in
@[simp] theorem FabServe.logBad_ev (x : Served) (l : Nat) (h : Evolves org s) : Evolves org (FabServe.logBad s x l) := by
  unfold FabServe.logBad
  simp (maxDischargeDepth := 9) [h]
open FabServe in
@[simp] theorem FabServe.readUnits_ev (x : Served) (l : List Nat) (h : Evolves org s) : Evolves org (FabServe.readUnits s x l) := by
  induction l generalizing s with
  | nil => exact close_ev _ _ _ _ h
  | cons i l ih =>
    unfold FabServe.readUnits
    split <;> (rename _ = (_, _) => q; replace q := snd_ev (org := org) q (readMem_ev _ _ _ h))
    · exact ih (sendUnit_ev _ _ _ q)
    · exact close_ev _ _ _ _ (logBad_ev _ _ q)
    · exact close_ev _ _ _ _ q
open FabServe in
@[simp] theorem FabServe.read_ev (x : Served) (h : Evolves org s) : Evolves org (FabServe.read s x) := by
  unfold FabServe.read
  simp (maxDischargeDepth := 9) [h]
open FabServe in
@[simp] theorem FabServe.storeHeld_ev (x : Served) (h : Evolves org s) : Evolves org (FabServe.storeHeld s x) := by
  unfold FabServe.storeHeld
  refine putServed_ev _ (ev_foldl (fun _ p k => ?_) _ h)
  obtain ⟨i, b⟩ := p
  exact ev_ite k (storeUnit_ev _ _ _ k)
open FabServe in
@[simp] theorem FabServe.write_ev (x : Served) (h : Evolves org s) : Evolves org (FabServe.write s x) := by
  unfold FabServe.write
  simp (maxDischargeDepth := 9) [h]
open FabServe in
@[simp] theorem FabServe.atomicAct_keeps (v : Via) (a : Nat) (b : Bytes) : Keeps (FabServe.atomicAct v a b) := by
  unfold FabServe.atomicAct
  (repeat' (first | assumption | (with_reducible apply Keeps.bind) | (with_reducible apply Keeps.map) | (with_reducible apply Keeps.ite) | intro _ | split | (simp (maxDischargeDepth := 9); done) | dsimp only))
open FabServe in
@[simp] theorem FabServe.atomic_ev (x : Served) (h : Evolves org s) : Evolves org (FabServe.atomic s x) := by
  unfold FabServe.atomic
  (repeat' (first | assumption | (simp (maxDischargeDepth := 9) [‹Evolves org _›]; done) | (with_reducible refine ev_foldl (fun _ _ _ => ?_) _ ?_) | dsimp only | (simp +contextual (maxDischargeDepth := 9) [‹Evolves org _›]; done) | (rename _ = (_, _) => q; replace q := JobOps.run_eq (org := org) q (by (repeat' (first | assumption | (with_reducible apply Keeps.bind) | (with_reducible apply Keeps.map) | (with_reducible apply Keeps.ite) | intro _ | split | (simp (maxDischargeDepth := 9); done) | dsimp only))) (by first | assumption | (simp (maxDischargeDepth := 9) [‹Evolves org _›]; done))) | (rename _ = (_, _) => q; replace q := snd_ev (o := org) q (by simp (maxDischargeDepth := 9) [‹Evolves org _›]; done)) | (rename _ = (_, _) => q; replace q := fst_ev (o := org) q (by simp (maxDischargeDepth := 9) [‹Evolves org _›]; done)) | split | intro _ | dsimp only))
open FabServe in
@[simp] theorem FabServe.answering_ev (x : Served) {act : MM Ans} (k : Keeps act) (h : Evolves org s) :
    Evolves org (FabServe.answering s x act) := by
  unfold FabServe.answering
  split <;> (rename _ = (_, _) => q; replace q := JobOps.run_eq (org := org) q k h)
  · exact close_ev _ _ _ _ q
  · exact close_ev _ _ _ _ (logBad_ev _ _ q)
  · exact close_ev _ _ _ _ q
open FabServe in
@[simp] theorem FabServe.ownsPage_keeps (v : Via) (t : CacheOps.Tree) (n page : Nat) (keyed : Bool) : Keeps (FabServe.ownsPage v t n page keyed) := by
  unfold FabServe.ownsPage
  (repeat' (first | assumption | (with_reducible apply Keeps.bind) | (with_reducible apply Keeps.map) | (with_reducible apply Keeps.ite) | intro _ | split | (simp (maxDischargeDepth := 9); done) | dsimp only))
open FabServe in
@[simp] theorem FabServe.dropLease_keeps (v : Via) (t : CacheOps.Tree) (n : Nat) (b : Bytes) : Keeps (FabServe.dropLease v t n b) := by
  unfold FabServe.dropLease
  (repeat' (first | assumption | (with_reducible apply Keeps.bind) | (with_reducible apply Keeps.map) | (with_reducible apply Keeps.ite) | intro _ | split | (simp (maxDischargeDepth := 9); done) | dsimp only))
open FabServe in
@[simp] theorem FabServe.pageUnits_ev (x : Served) (a : Nat) (l : List Nat) (h : Evolves org s) :
    Evolves org (FabServe.pageUnits s x a l).1 := by
  induction l generalizing s with
  | nil => exact h
  | cons i l ih =>
    unfold FabServe.pageUnits
    split <;> (rename _ = (_, _) => q; replace q := snd_ev (org := org) q (readLog_ev _ _ _ _ h))
    · exact ih (sendUnit_ev _ _ _ q)
    · exact close_ev _ _ _ _ (logBad_ev _ _ q)
    · exact close_ev _ _ _ _ q
open FabServe in
@[simp] theorem FabServe.pageLook_keeps (v : Via) (c : Bytes) (n : Nat) (b : Bytes) : Keeps (FabServe.pageLook v c n b) := by
  unfold FabServe.pageLook
  (repeat' (first | assumption | (with_reducible apply Keeps.bind) | (with_reducible apply Keeps.map) | (with_reducible apply Keeps.ite) | intro _ | split | (simp (maxDischargeDepth := 9); done) | dsimp only))
open FabServe in
@[simp] theorem FabServe.pageRead_ev (x : Served) (h : Evolves org s) : Evolves org (FabServe.pageRead s x) := by
  unfold FabServe.pageRead
  dsimp only
  split
  · exact close_ev _ _ _ _ h
  split
  · exact close_ev _ _ _ _ h
  split
  · exact close_ev _ _ _ _ h
  split <;> (rename _ = (_, _) => q; replace q := JobOps.run_eq (org := org) q (pageLook_keeps _ _ _ _) h)
  · exact close_ev _ _ _ _ q
  · split <;> (rename _ = (_, _) => k; replace k := fst_ev (org := org) k (pageUnits_ev _ _ _ q))
    · exact k
    · exact close_ev _ _ _ _ (ev_ite (JobOps.run_ev _ (dropLease_keeps _ _ _ _) k) k)
  · exact close_ev _ _ _ _ (logBad_ev _ _ q)
  · exact close_ev _ _ _ _ q
open FabServe in
@[simp] theorem FabServe.parentIs_keeps (v : Via) (c : Bytes) (n : Nat) (ok : Nat → Bool) : Keeps (FabServe.parentIs v c n ok) := by
  unfold FabServe.parentIs
  (repeat' (first | assumption | (with_reducible apply Keeps.bind) | (with_reducible apply Keeps.map) | (with_reducible apply Keeps.ite) | intro _ | split | (simp (maxDischargeDepth := 9); done) | dsimp only))
open FabServe in
@[simp] theorem FabServe.recvSend_keeps (v : Via) (c : Bytes) (now : Nat) (b d : Bytes) : Keeps (FabServe.recvSend v c now b d) := by
  unfold FabServe.recvSend
  (repeat' (first | assumption | (with_reducible apply Keeps.bind) | (with_reducible apply Keeps.map) | (with_reducible apply Keeps.ite) | intro _ | split | (simp (maxDischargeDepth := 9); done) | dsimp only))
open FabServe in
@[simp] theorem FabServe.recvInsert_keeps (v : Via) (c : Bytes) (now : Nat) (b d : Bytes) : Keeps (FabServe.recvInsert v c now b d) := by
  unfold FabServe.recvInsert
  (repeat' (first | assumption | (with_reducible apply Keeps.bind) | (with_reducible apply Keeps.map) | (with_reducible apply Keeps.ite) | intro _ | split | (simp (maxDischargeDepth := 9); done) | dsimp only))
open FabServe in
@[simp] theorem FabServe.pageWrite_ev (x : Served) (h : Evolves org s) : Evolves org (FabServe.pageWrite s x) := by
  unfold FabServe.pageWrite
  simp (maxDischargeDepth := 9) [h]
open FabServe in
@[simp] theorem FabServe.remoteLookup_keeps (v : Via) (c : Bytes) (now nodeIn : Nat) (toks : Bytes) : Keeps (FabServe.remoteLookup v c now nodeIn toks) := by
  unfold FabServe.remoteLookup
  (repeat' (first | assumption | (with_reducible apply Keeps.bind) | (with_reducible apply Keeps.map) | (with_reducible apply Keeps.ite) | intro _ | split | (simp (maxDischargeDepth := 9); done) | dsimp only))
open FabServe in
@[simp] theorem FabServe.remoteInsert_keeps (v : Via) (c : Bytes) (now nodeIn : Nat) (toks : Bytes) : Keeps (FabServe.remoteInsert v c now nodeIn toks) := by
  unfold FabServe.remoteInsert
  (repeat' (first | assumption | (with_reducible apply Keeps.bind) | (with_reducible apply Keeps.map) | (with_reducible apply Keeps.ite) | intro _ | split | (simp (maxDischargeDepth := 9); done) | dsimp only))
open FabServe in
@[simp] theorem FabServe.remoteRelease_keeps (v : Via) (c : Bytes) (page : Nat) : Keeps (FabServe.remoteRelease v c page) := by
  unfold FabServe.remoteRelease
  (repeat' (first | assumption | (with_reducible apply Keeps.bind) | (with_reducible apply Keeps.map) | (with_reducible apply Keeps.ite) | intro _ | split | (simp (maxDischargeDepth := 9); done) | dsimp only))
open FabServe in
@[simp] theorem FabServe.prefixOp_ev (x : Served) (h : Evolves org s) : Evolves org (FabServe.prefixOp s x) := by
  unfold FabServe.prefixOp
  simp (maxDischargeDepth := 9) [h]
open FabServe in
@[simp] theorem FabServe.abandon_ev (x : Served) (h : Evolves org s) : Evolves org (FabServe.abandon s x) := by
  unfold FabServe.abandon
  dsimp only
  split
  · exact h
  split <;> (rename _ = (_, _) => q; replace q := JobOps.run_eq (org := org) q (by (repeat' (first | assumption | (with_reducible apply Keeps.bind) | (with_reducible apply Keeps.map) | (with_reducible apply Keeps.ite) | intro _ | split | (simp (maxDischargeDepth := 9); done) | dsimp only))) h)
  · exact logBad_ev _ _ q
  · exact q
open FabServe in
@[simp] theorem FabServe.lapse_keeps (v : Via) (c : Bytes) (now n : Nat) : Keeps (FabServe.lapse v c now n) := by
  unfold FabServe.lapse
  (repeat' (first | assumption | (with_reducible apply Keeps.bind) | (with_reducible apply Keeps.map) | (with_reducible apply Keeps.ite) | intro _ | split | (simp (maxDischargeDepth := 9); done) | dsimp only))
open FabServe in
@[simp] theorem FabServe.issueRecord_ev (q : Nat) (h : Evolves org s) : Evolves org (FabServe.issueRecord s q) := by
  unfold FabServe.issueRecord
  dsimp only
  split
  · exact h
  split
  · exact (ev_setSched _).2 h
  split <;> (rename _ = (_, _) => q; replace q := snd_ev (org := org) q (readLog_ev _ _ _ _ h))
  · exact opqDone_ev _ _ _ _ _ (putOpq_ev _ _ q)
  · exact opqDone_ev _ _ _ _ _ (logEvent_ev _ (putOpq_ev _ _ q))
  · split
    · exact q
    split
    · exact opqDone_ev _ _ _ _ _ (putOpq_ev _ _ q)
    split
    · split
      · exact opqDone_ev _ _ _ _ _ (putOpq_ev _ _ q)
      · exact getD_ev (Fab.issue_ev _ _ (putOpq_ev _ _ q)) q
    split
    · split <;> (rename _ = (_, _) => k; replace k := snd_ev (org := org) k (readLog_ev _ _ _ _ (putOpq_ev _ _ q)))
      · exact opqDone_ev _ _ _ _ _ k
      · exact opqDone_ev _ _ _ _ _ (logEvent_ev _ k)
      · exact getD_ev (Fab.issue_ev _ _ k) q
    · exact getD_ev (Fab.issue_ev _ _ (putOpq_ev _ _ q)) q
end

section
open Bits Ops Link
open Link in
@[simp] theorem Link.onLink_ev (t p sub : Nat) (fr : Sys2Proof.Frame) {act : Bytes → State → State}
    (k : ∀ b u, Evolves org u → Evolves org (act b u)) (h : Evolves org s) : Evolves org (Link.onLink s t p sub fr act) := by
  have q := Link.receive_ev (org := org) p fr (tick_ev t h)
  unfold Link.onLink
  split <;> (rename _ = _ => e; rw [e] at q)
  · exact q
  · split
    · exact q
    split
    · exact violateNak_ev _ _ _ q
    split
    · exact k _ _ q
    · exact q
end

section
open Bits Ops
open Tap
open Tap in
@[simp] theorem Tap.load_ev (op mode : Nat) (tdo : Option Bytes) (h : Evolves org s) : Evolves org (Tap.load s op mode tdo) := by
  unfold Tap.load
  simp (maxDischargeDepth := 9) [h]
end

section
open Bits Ops Starts
open Man
open Man in
@[simp] theorem Man.reply_ev (b code : Nat) (d : Bytes) (h : Evolves org s) : Evolves org (Man.reply s b code d) := by
  unfold Man.reply
  simp (maxDischargeDepth := 9) [h]
open Man in
@[simp] theorem Man.onMctp_ev (b : Nat) {act : State → State} (k : Evolves org s → Evolves org (act s)) (h : Evolves org s) :
    Evolves org (onMctp s b act) := by
  unfold onMctp
  split
  · exact k h
  · exact h
open Man in
@[simp] theorem Man.updateSensor_ev (k : Nat) (h : Evolves org s) : Evolves org (Man.updateSensor s k) := by
  unfold Man.updateSensor
  simp (maxDischargeDepth := 9) [h]
open Man in
@[simp] theorem Man.onSpdm_ev (b n : Nat) {act : State → State} (k : Evolves org s → Evolves org (act s)) (h : Evolves org s) :
    Evolves org (onSpdm s b n act) := by
  unfold onSpdm
  split
  · exact h
  split
  · exact reply_ev _ _ _ h
  · exact k h
open Man in
@[simp] theorem Man.setSpdm_ev (b n : Nat) (x : Bytes) (h : Evolves org s) : Evolves org (Man.setSpdm s b n x) := by
  unfold Man.setSpdm
  simp (maxDischargeDepth := 9) [h]
open Man in
@[simp] theorem Man.nonceOf_ev (h : Evolves org s) : Evolves org (Man.nonceOf s).2 := by
  unfold Man.nonceOf
  simp (maxDischargeDepth := 9) [h]
open Man in
@[simp] theorem Man.putSpare_ev (x : FlashSlot) (h : Evolves org s) : Evolves org (Man.putSpare s x) := by
  unfold Man.putSpare
  simp (maxDischargeDepth := 9) [h]
open Man in
@[simp] theorem Man.deferStore_ev (h : Evolves org s) : Evolves org (Man.deferStore s) := by
  unfold Man.deferStore
  simp (maxDischargeDepth := 9) [h]
open Man in
@[simp] theorem Man.onUpdate_ev (b : Nat) {act : State → Update → State} (k : ∀ u, Evolves org s → Evolves org (act s u))
    (h : Evolves org s) : Evolves org (onUpdate s b act) := by
  unfold onUpdate
  refine onMctp_ev _ (fun h => ?_) h
  split
  · split
    · exact k _ h
    · exact reply_ev _ _ _ h
  · exact reply_ev _ _ _ h
open Man in
@[simp] theorem Man.setUpdate_ev (u : Option Update) (h : Evolves org s) : Evolves org (Man.setUpdate s u) := by
  unfold Man.setUpdate
  simp (maxDischargeDepth := 9) [h]
end

section
open Bits Ops JobOps
open Ops JobOps in
open Ops JobOps in
open Ops in
open MemRows in
theorem MemRows.markScrub_keeps (m n : Mem) (l : Nat) : Memory.Keeps n (markScrub m n l) := by
  unfold markScrub
  split <;> exact Memory.keeps_of_bytes rfl rfl
open MemRows in
@[simp] theorem MemRows.scrubFrom_ev (l : List Nat) (h : Evolves org s) : Evolves org (scrubFrom s l) := by
  induction l generalizing s with
  | nil => exact h
  | cons c l ih =>
    have k : ∀ a, Evolves org (s.setMem (Memory.readChannel s.mem a).2) := fun a => ev_setMem h (Memory.keeps_readChannel _)
    unfold scrubFrom
    have k := k (Memory.lineAddr c s.mem.slot s.mem.codeword / 64)
    dsimp only
    split <;> (rename _ = _ => e; rw [e] at k)
    · refine ih (ev_setMem h (Memory.Keeps.trans (b := _) ?_ (markScrub_keeps _ _ _)))
      exact ⟨fun w => (congrArg (fun p : Option Bytes × Mem => Memory.wf p.2) e) ▸ (Memory.keeps_readChannel _).1 w,
        fun w => (congrArg (fun p : Option Bytes × Mem => Memory.bufOk p.2) e) ▸ (Memory.keeps_readChannel _).2 w⟩
    · exact ih (logEvent_ev _ k)
open MemRows in
theorem MemRows.advance_bytes (m : Mem) : (MemRows.advance m).bytes = m.bytes := by
  unfold MemRows.advance
  split
  · rfl
  · split <;> rfl
theorem MemRows.advance_wc (m : Mem) : (MemRows.advance m).wc = m.wc := by
  unfold MemRows.advance
  split
  · rfl
  · split <;> rfl
end

section
open Bits Ops Mbox
open Bar in
@[simp] theorem Bar.writeMailbox_ev (f o w v : Nat) (h : Evolves org s) : Evolves org (Bar.writeMailbox s f o w v) := by
  unfold Bar.writeMailbox
  simp (maxDischargeDepth := 9) [h]
open Bar in
@[simp] theorem Bar.writeMsixWord_ev (f o v : Nat) (h : Evolves org s) : Evolves org (Bar.writeMsixWord s f o v) := by
  unfold Bar.writeMsixWord
  simp (maxDischargeDepth := 9) [h]
open Bar in
@[simp] theorem Bar.write_ev (f o w v : Nat) (h : Evolves org s) : Evolves org (Bar.write s f o w v) := by
  unfold Bar.write
  simp (maxDischargeDepth := 9) [h]
open Bar in
@[simp] theorem Bar.read_ev (f o w : Nat) (h : Evolves org s) : Evolves org (Bar.read s f o w) := by
  unfold Bar.read
  simp (maxDischargeDepth := 9) [h]
open Bar in
@[simp] theorem Bar.whole_ev (f o v : Nat) (h : Evolves org s) : Evolves org (Bar.whole s f o v) := by
  unfold Bar.whole
  (repeat' (first | assumption | (simp (maxDischargeDepth := 9) [‹Evolves org _›]; done) | split | dsimp only))
end

section
open Bits Ops JobOps
open Finish in
@[simp] theorem Finish.report_ev (j : Job) (numeric : Bool) (h : Evolves org s) : Evolves org (Finish.report s j numeric) := by
  unfold Finish.report
  dsimp only
  refine (ev_setHost _).2 ?_
  have q : Evolves org (if numeric = true ∧ JDesc.numeric j.desc ≠ 0 then
      match hubWrite s (budget s j) j.fn (JDesc.numeric j.desc) (numericRecord j) with
      | some s => s
      | none => s
    else s) := by
    split
    · split
      · next e => exact hubWrite_ev _ _ _ _ h _ e
      · exact h
    · exact h
  revert q
  generalize (if numeric = true ∧ JDesc.numeric j.desc ≠ 0 then
      match hubWrite s (budget s j) j.fn (JDesc.numeric j.desc) (numericRecord j) with
      | some s => s
      | none => s
    else s) = u
  intro q
  split
  · next e =>
    split at e
    · cases e
    · have k := hubWrite_ev _ _ _ _ q _ e
      split
      · exact (ev_setSched _).2 k
      · exact (ev_setSched _).2 k
  · exact logEvent_ev _ q
open Finish in
@[simp] theorem Finish.linkReset_ev (h : Evolves org s) : Evolves org (Finish.linkReset s) := by
  unfold Finish.linkReset
  simp (maxDischargeDepth := 9) [h]
open Finish in
@[simp] theorem Finish.resetsDone_ev (h : Evolves org s) : Evolves org (Finish.resetsDone s) := by
  unfold Finish.resetsDone
  simp (maxDischargeDepth := 9) [h]
open Finish in
@[simp] theorem Finish.drained_ev (ring fn : Nat) (h : Evolves org s) : Evolves org (Finish.drained s ring fn) := by
  unfold Finish.drained
  simp (maxDischargeDepth := 9) [h]
open Finish in
@[simp] theorem Finish.complete_ev (id : Nat) (h : Evolves org s) : Evolves org (Finish.complete s id) := by
  unfold Finish.complete
  split
  · exact h
  dsimp only
  have q : Evolves org (settle (flushWhere s fun e => e.writers.any (·.job == some id)).1
      (flushWhere s fun e => e.writers.any (·.job == some id)).2) := settle_ev _ (flushWhere_ev _ h)
  revert q
  generalize settle (flushWhere s fun e => e.writers.any (·.job == some id)).1
      (flushWhere s fun e => e.writers.any (·.job == some id)).2 = u
  intro q
  split
  · exact q
  split
  · exact q
  refine Starting.startReady_ev (resetsDone_ev (drained_ev _ _ ((ev_setSched _).2 (drop_ev _ (report_ev _ _ ?_)))))
  split
  · split
    · exact (ev_setSched _).2 q
    · exact q
  · exact q
end

section
open Bits Ops JobOps
theorem some_ev {t u : State} (h : Evolves org t) (e : some t = some u) : Evolves org u := by cases e; exact h
theorem ite_some_ev {c : Prop} [Decidable c] {a b : Option State} (h : ∀ t, a = some t → Evolves org t)
    (g : ∀ t, b = some t → Evolves org t) (t : State) (e : (if c then a else b) = some t) : Evolves org t := by
  split at e
  · exact h t e
  · exact g t e
open Sch in
@[simp] theorem Sch.leaveRing_ev (r : Nat) (x : Ring) (h : Evolves org s) : Evolves org (Sch.leaveRing s r x) := by
  unfold Sch.leaveRing
  simp (maxDischargeDepth := 9) [h]
open Sch in
@[simp] theorem Sch.refuseEntry_ev (r : Nat) (x : Ring) (j : Job) (st ix : Nat) (h : Evolves org s) : Evolves org (Sch.refuseEntry s r x j st ix) := by
  unfold Sch.refuseEntry
  simp (maxDischargeDepth := 9) [h]
open Sch in
@[simp] theorem Sch.badEntry_ev (r : Nat) (x : Ring) (st a0 a1 : Nat) (h : Evolves org s) : Evolves org (Sch.badEntry s r x st a0 a1) := by
  unfold Sch.badEntry
  simp (maxDischargeDepth := 9) [h]
open Sch in
theorem Sch.tryRing_ev (r : Nat) (h : Evolves org s) : ∀ t, Sch.tryRing s r = some t → Evolves org t := by
  unfold Sch.tryRing
  dsimp only
  intro t
  split
  · intro e; cases e
  split <;> (rename _ = (_, _) => q; replace q := snd_ev (org := org) q (readLog_ev _ _ _ _ h))
  · intro e; cases e; exact badEntry_ev _ _ _ _ _ q
  · intro e; cases e; exact badEntry_ev _ _ _ _ _ q
  split <;> (rename _ = (_, _) => k; replace k := snd_ev (org := org) k (Load.run_ev _ _ _ _ q))
  · intro e; cases e; exact refuseEntry_ev _ _ _ _ _ k
  · intro e; cases e; exact refuseEntry_ev _ _ _ _ _ (log_ev _ _ _ _ _ _ _ k)
  refine ite_some_ev (fun t e => some_ev (refuseEntry_ev _ _ _ _ _ k) e) (fun t => ?_) t
  split
  · intro e; cases e
  · intro e
    obtain ⟨⟨c, j⟩, _, rfl⟩ := Option.map_eq_some_iff.1 e
    exact Starting.startReady_ev (leaveRing_ev _ _ ((ev_setSched _).2 k))
open Sch in
theorem Sch.tryJob_ev (j : Job) (h : Evolves org s) : ∀ t, Sch.tryJob s j = some t → Evolves org t := by
  unfold Sch.tryJob
  refine ite_some_ev (fun t e => some_ev (set_ev _ h) e) (fun t e => ?_)
  · skip
    obtain ⟨_, _, e⟩ := Option.bind_eq_some_iff.1 e
    obtain ⟨_, _, rfl⟩ := Option.map_eq_some_iff.1 e
    exact Starting.startReady_ev ((ev_setSched _).2 h)
open Sch in
theorem Sch.decide1_ev (h : Evolves org s) : ∀ t, Sch.decide1 s = some t → Evolves org t := by
  unfold Sch.decide1
  intro t e
  obtain ⟨k, _, e⟩ := List.exists_of_findSome?_eq_some e
  split at e
  · next u =>
    cases e
    obtain ⟨_, _, e⟩ := List.exists_of_findSome?_eq_some u
    exact tryJob_ev _ h _ e
  · obtain ⟨_, _, e⟩ := List.exists_of_findSome?_eq_some e
    exact tryRing_ev _ h _ e
open Sch in
@[simp] theorem Sch.adjourn_ev (id : Nat) (h : Evolves org s) : Evolves org (Sch.adjourn s id) := by
  unfold Sch.adjourn
  (repeat' (first | assumption | (simp (maxDischargeDepth := 9) [‹Evolves org _›]; done) | split | dsimp only))
end

section
open Bits Ops JobOps
open Rst in
@[simp] theorem Rst.start_ev (f : Nat) (h : Evolves org s) : Evolves org (Rst.start s f) := by
  unfold Rst.start
  simp (maxDischargeDepth := 9) [h]
open Rst in
@[simp] theorem Rst.all_ev (h : Evolves org s) : Evolves org (Rst.all s) := by
  unfold Rst.all
  (repeat' (first | assumption | (simp (maxDischargeDepth := 9) [‹Evolves org _›]; done) | (with_reducible refine ev_foldl (fun _ _ _ => ?_) _ ?_) | dsimp only | (simp +contextual (maxDischargeDepth := 9) [‹Evolves org _›]; done) | (rename _ = (_, _) => q; replace q := JobOps.run_eq (org := org) q (by (repeat' (first | assumption | (with_reducible apply Keeps.bind) | (with_reducible apply Keeps.map) | (with_reducible apply Keeps.ite) | intro _ | split | (simp (maxDischargeDepth := 9); done) | dsimp only))) (by first | assumption | (simp (maxDischargeDepth := 9) [‹Evolves org _›]; done))) | (rename _ = (_, _) => q; replace q := snd_ev (o := org) q (by simp (maxDischargeDepth := 9) [‹Evolves org _›]; done)) | (rename _ = (_, _) => q; replace q := fst_ev (o := org) q (by simp (maxDischargeDepth := 9) [‹Evolves org _›]; done)) | split | intro _ | dsimp only))
end

section
open Bits Ops JobOps
open Bits Ops JobOps
open Bits Ops JobOps
open Recov in
@[simp] theorem Recov.settleMemory_ev (h : Evolves org s) : Evolves org (Recov.settleMemory s) := by
  unfold Recov.settleMemory
  dsimp only
  refine ev_setMem (settle_ev _ (flushWhere_ev _ h)) ?_
  generalize (settle (flushWhere s fun _ => true).1 (flushWhere s fun _ => true).2).mem = m
  suffices ∀ (l : List (Nat × Bytes)) (n : Mem), Memory.Keeps m n → Memory.Keeps m (l.foldl (fun m e => Memory.writeback m e.1) n) from
    this m.fixes m (Memory.keeps_refl _)
  intro l
  induction l with
  | nil => exact fun _ k => k
  | cons a l ih => exact fun n k => ih _ (Memory.keeps_writeback _ k)
open Recov in
@[simp] theorem Recov.resetHub_ev (h : Evolves org s) : Evolves org (Recov.resetHub s) := by
  unfold Recov.resetHub
  simp (maxDischargeDepth := 9) [h]
open Recov in
@[simp] theorem Recov.warmStart_ev (h : Evolves org s) : Evolves org (Recov.warmStart s) := by
  unfold Recov.warmStart
  simp (maxDischargeDepth := 9) [h]
open Recov in
@[simp] theorem Recov.logTrip_ev (h : Evolves org s) : Evolves org (Recov.logTrip s) := by
  unfold Recov.logTrip
  (repeat' (first | assumption | (simp (maxDischargeDepth := 9) [‹Evolves org _›]; done) | split | dsimp only))
open Recov in
@[simp] theorem Recov.restoreFabric_ev (h : Evolves org s) : Evolves org (Recov.restoreFabric s) := by
  unfold Recov.restoreFabric
  (repeat' (first | assumption | (simp (maxDischargeDepth := 9) [‹Evolves org _›]; done) | split | dsimp only))
open Recov in
@[simp] theorem Recov.hubBoot_ev (c : Bytes) (h : Evolves org s) : Evolves org (Recov.hubBoot c s) := by
  unfold Recov.hubBoot
  (repeat' (first | assumption | (simp (maxDischargeDepth := 9) [‹Evolves org _›]; done) | split | dsimp only))
open Recov in
@[simp] theorem Recov.endJobs_ev (js : List Job) (h : Evolves org s) : Evolves org (Recov.endJobs s js) := by
  unfold Recov.endJobs
  (repeat' (first | assumption | (simp (maxDischargeDepth := 9) [‹Evolves org _›]; done) | (with_reducible refine ev_foldl (fun _ _ _ => ?_) _ ?_) | dsimp only | (simp +contextual (maxDischargeDepth := 9) [‹Evolves org _›]; done) | (rename _ = (_, _) => q; replace q := JobOps.run_eq (org := org) q (by (repeat' (first | assumption | (with_reducible apply Keeps.bind) | (with_reducible apply Keeps.map) | (with_reducible apply Keeps.ite) | intro _ | split | (simp (maxDischargeDepth := 9); done) | dsimp only))) (by first | assumption | (simp (maxDischargeDepth := 9) [‹Evolves org _›]; done))) | (rename _ = (_, _) => q; replace q := snd_ev (o := org) q (by simp (maxDischargeDepth := 9) [‹Evolves org _›]; done)) | (rename _ = (_, _) => q; replace q := fst_ev (o := org) q (by simp (maxDischargeDepth := 9) [‹Evolves org _›]; done)) | split | intro _ | dsimp only))
open Recov in
@[simp] theorem Recov.endRecords_ev (h : Evolves org s) : Evolves org (Recov.endRecords s) := by
  exact ev_foldl (fun _ _ k => ev_foldl (fun _ _ k => Fab.opqDone_ev _ _ _ _ _ k) _ k) _ h
open Recov in
@[simp] theorem Recov.endCommands_ev (h : Evolves org s) : Evolves org (Recov.endCommands s) := by
  unfold Recov.endCommands
  (repeat' (first | assumption | (simp (maxDischargeDepth := 9) [‹Evolves org _›]; done) | (with_reducible refine ev_foldl (fun _ _ _ => ?_) _ ?_) | dsimp only | (simp +contextual (maxDischargeDepth := 9) [‹Evolves org _›]; done) | (rename _ = (_, _) => q; replace q := JobOps.run_eq (org := org) q (by (repeat' (first | assumption | (with_reducible apply Keeps.bind) | (with_reducible apply Keeps.map) | (with_reducible apply Keeps.ite) | intro _ | split | (simp (maxDischargeDepth := 9); done) | dsimp only))) (by first | assumption | (simp (maxDischargeDepth := 9) [‹Evolves org _›]; done))) | (rename _ = (_, _) => q; replace q := snd_ev (o := org) q (by simp (maxDischargeDepth := 9) [‹Evolves org _›]; done)) | (rename _ = (_, _) => q; replace q := fst_ev (o := org) q (by simp (maxDischargeDepth := 9) [‹Evolves org _›]; done)) | split | intro _ | dsimp only))
open Recov in
@[simp] theorem Recov.notifyBack_ev (h : Evolves org s) : Evolves org (Recov.notifyBack s) := by
  unfold Recov.notifyBack
  (repeat' (first | assumption | (simp (maxDischargeDepth := 9) [‹Evolves org _›]; done) | split | dsimp only))
open Recov in
@[simp] theorem Recov.restore_ev (r : RecArea) (h : Evolves org s) : Evolves org (Recov.restore s r) := by
  unfold Recov.restore
  simp (maxDischargeDepth := 9) [h]
open Recov in
@[simp] theorem Recov.undefine_ev (j : Job) (st a n : Nat) (h : Evolves org s) : Evolves org (Recov.undefine s j st a n) := by
  unfold Recov.undefine
  simp (maxDischargeDepth := 9) [h]
open Recov in
@[simp] theorem Recov.cut_ev (j : Job) (x : HubExec) (h : Evolves org s) : Evolves org (Recov.cut s j x) := by
  unfold Recov.cut
  (repeat' (first | assumption | (simp (maxDischargeDepth := 9) [‹Evolves org _›]; done) | split | dsimp only))
open Recov in
@[simp] theorem Recov.cutAll_ev (h : Evolves org s) : Evolves org (Recov.cutAll s) := by
  unfold Recov.cutAll
  (repeat' (first | assumption | (simp (maxDischargeDepth := 9) [‹Evolves org _›]; done) | (with_reducible refine ev_foldl (fun _ _ _ => ?_) _ ?_) | dsimp only | (simp +contextual (maxDischargeDepth := 9) [‹Evolves org _›]; done) | (rename _ = (_, _) => q; replace q := JobOps.run_eq (org := org) q (by (repeat' (first | assumption | (with_reducible apply Keeps.bind) | (with_reducible apply Keeps.map) | (with_reducible apply Keeps.ite) | intro _ | split | (simp (maxDischargeDepth := 9); done) | dsimp only))) (by first | assumption | (simp (maxDischargeDepth := 9) [‹Evolves org _›]; done))) | (rename _ = (_, _) => q; replace q := snd_ev (o := org) q (by simp (maxDischargeDepth := 9) [‹Evolves org _›]; done)) | (rename _ = (_, _) => q; replace q := fst_ev (o := org) q (by simp (maxDischargeDepth := 9) [‹Evolves org _›]; done)) | split | intro _ | dsimp only))
open Castle in
@[simp] theorem Castle.fails_ev (i : Nat) (e : Nat × Option (Word × Word)) (h : Evolves org s) : Evolves org (Castle.fails s i e) := by
  unfold Castle.fails
  (repeat' (first | assumption | (simp (maxDischargeDepth := 9) [‹Evolves org _›]; done) | split | dsimp only))
open Castle in
@[simp] theorem Castle.change_ev (i : Nat) (bad : List (Nat × Option (Word × Word))) (h : Evolves org s) : Evolves org (Castle.change s i bad) := by
  unfold Castle.change
  (repeat' (first | assumption | (simp (maxDischargeDepth := 9) [‹Evolves org _›]; done) | (with_reducible refine ev_foldl (fun _ _ _ => ?_) _ ?_) | dsimp only | (simp +contextual (maxDischargeDepth := 9) [‹Evolves org _›]; done) | (rename _ = (_, _) => q; replace q := JobOps.run_eq (org := org) q (by (repeat' (first | assumption | (with_reducible apply Keeps.bind) | (with_reducible apply Keeps.map) | (with_reducible apply Keeps.ite) | intro _ | split | (simp (maxDischargeDepth := 9); done) | dsimp only))) (by first | assumption | (simp (maxDischargeDepth := 9) [‹Evolves org _›]; done))) | (rename _ = (_, _) => q; replace q := snd_ev (o := org) q (by simp (maxDischargeDepth := 9) [‹Evolves org _›]; done)) | (rename _ = (_, _) => q; replace q := fst_ev (o := org) q (by simp (maxDischargeDepth := 9) [‹Evolves org _›]; done)) | split | intro _ | dsimp only))
end

end Machine
end Sys2Proof
end

