-- ==== Sys2Proof/Laws/Resets.lean ====
section
/-! SUPPORT. What the resets of functions do to the rings and to the jobs (spec/15_host_and_mailboxes.md R368). -/

namespace Sys2Proof
namespace Machine

open Bits Ops JobOps

/-- A change of each ring of a list by itself. -/
def eachRing (c : Ring → Bool) (g : Ring → Ring) (l : List Nat) (h : HostIf) : HostIf :=
  l.foldl (fun h r => let x := ringAt h r; if c x then putRing h r (g x) else h) h

theorem ringAt_putRing (h : HostIf) (r k : Nat) (x : Ring) : ringAt (putRing h r x) k = if k = r then x else ringAt h k :=
  Sparse.getD_put _ _ _ _ _
theorem eachRing_frame (c : Ring → Bool) (g : Ring → Ring) : ∀ (l : List Nat) (h : HostIf),
    eachRing c g l h = { h with rings := (eachRing c g l h).rings }
  | [], h => rfl
  | r :: l, h => by
    have e : eachRing c g (r :: l) h = eachRing c g l (if c (ringAt h r) then putRing h r (g (ringAt h r)) else h) := rfl
    rw [e]
    split
    · have := eachRing_frame c g l (putRing h r (g (ringAt h r)))
      generalize eachRing c g l (putRing h r (g (ringAt h r))) = y at this ⊢
      obtain ⟨q, this⟩ : ∃ q, y = { putRing h r (g (ringAt h r)) with rings := q } := ⟨_, this⟩
      subst this
      rfl
    · exact eachRing_frame c g l h
theorem ringAt_eachRing (c : Ring → Bool) (g : Ring → Ring) (k : Nat) : ∀ (l : List Nat) (h : HostIf), l.Nodup →
    ringAt (eachRing c g l h) k = if k ∈ l ∧ c (ringAt h k) = true then g (ringAt h k) else ringAt h k
  | [], h, _ => by rw [if_neg (by simp)]; rfl
  | r :: l, h, hn => by
    have e : eachRing c g (r :: l) h = eachRing c g l (if c (ringAt h r) then putRing h r (g (ringAt h r)) else h) := rfl
    rw [e, ringAt_eachRing c g k l _ hn.of_cons]
    have hr : r ∉ l := (List.nodup_cons.1 hn).1
    by_cases hk : k = r
    · subst hk
      cases hc : c (ringAt h k)
      · simp [hr, hc]
      · simp [hr, ringAt_putRing]
    · cases hc : c (ringAt h r)
      · simp [hk]
      · simp [hk, ringAt_putRing]

namespace Bar

theorem stopRings_each (h : HostIf) (f : Nat) : stopRings h f = eachRing (fun x => x.state != 0 && x.owner == f)
    (fun x => { x with tail := x.head, bells := [], state := if x.state = 3 then 4 else x.state }) (List.range 64) h := rfl
theorem resetRings_each (h : HostIf) (f : Nat) : resetRings h f = eachRing (fun x => x.state != 0 && x.owner == f)
    (fun x => { x with base := 0, log2 := 0, vector := 0xFF, tail := 0, head := 0, done := 0, state := 1, bells := [] })
    (List.range 64) h := rfl

end Bar

namespace Bar

theorem resetRings_spec (h : HostIf) (f : Nat) : resetRings h f = { h with rings := (resetRings h f).rings } ∧
    ∀ r < 64, ringAt (resetRings h f) r = if (ringAt h r).state ≠ 0 ∧ (ringAt h r).owner = f then
      { ringAt h r with base := 0, log2 := 0, vector := 0xFF, tail := 0, head := 0, done := 0, state := 1, bells := [] }
      else ringAt h r := by
  rw [resetRings_each]
  refine ⟨eachRing_frame _ _ _ _, fun r hr => ?_⟩
  rw [ringAt_eachRing _ _ _ _ _ List.nodup_range]
  have hin : r ∈ List.range 64 := List.mem_range.2 hr
  by_cases h2 : (ringAt h r).state ≠ 0 ∧ (ringAt h r).owner = f
  · rw [if_pos ⟨hin, by simp [h2]⟩, if_pos h2]
  · rw [if_neg, if_neg h2]
    rintro ⟨_, z⟩
    rw [Bool.and_eq_true] at z
    exact h2 ⟨by simpa using z.1, by simpa using z.2⟩
theorem stopRings_spec (h : HostIf) (f : Nat) : stopRings h f = { h with rings := (stopRings h f).rings } ∧
    ∀ r < 64, ringAt (stopRings h f) r = if (ringAt h r).state ≠ 0 ∧ (ringAt h r).owner = f then
      { ringAt h r with tail := (ringAt h r).head, bells := [], state := if (ringAt h r).state = 3 then 4 else (ringAt h r).state }
      else ringAt h r := by
  rw [stopRings_each]
  refine ⟨eachRing_frame _ _ _ _, fun r hr => ?_⟩
  rw [ringAt_eachRing _ _ _ _ _ List.nodup_range]
  have hin : r ∈ List.range 64 := List.mem_range.2 hr
  by_cases h2 : (ringAt h r).state ≠ 0 ∧ (ringAt h r).owner = f
  · rw [if_pos ⟨hin, by simp [h2]⟩, if_pos h2]
  · rw [if_neg, if_neg h2]
    rintro ⟨_, z⟩
    rw [Bool.and_eq_true] at z
    exact h2 ⟨by simpa using z.1, by simpa using z.2⟩

end Bar

namespace Rst

/-- Steps 1 to 3 of a function-level reset change the host side and the jobs alone. -/
theorem start_frame (s : State) (f : Nat) : ∃ h c, start s f = { s with host := h, sched := c } := by
  unfold start
  generalize functionState (Bar.stopRings s.host f) f = x
  exact ⟨_, _, rfl⟩
/-- The host side after them, the functions that are resetting apart. -/
theorem start_host (s : State) (f : Nat) :
    ∃ q, (start s f).host = { functionState (Bar.stopRings s.host f) f with resetting := q } := by
  unfold start
  generalize functionState (Bar.stopRings s.host f) f = x
  exact ⟨_, rfl⟩
theorem start_resetting (s : State) (f g : Nat) : g ∈ (start s f).host.resetting ↔ g = f ∨ g ∈ s.host.resetting := by
  have hr : (functionState (Bar.stopRings s.host f) f).resetting = s.host.resetting := by
    unfold functionState; rw [Bar.stopRings_each, eachRing_frame]
  have hs : (start s f).host.resetting = if (functionState (Bar.stopRings s.host f) f).resetting.contains f then
      (functionState (Bar.stopRings s.host f) f).resetting else f :: (functionState (Bar.stopRings s.host f) f).resetting := by
    unfold start
    generalize functionState (Bar.stopRings s.host f) f = x
    rfl
  rw [hs, hr]
  split
  · next h =>
    have h : f ∈ s.host.resetting := by simpa using h
    exact ⟨.inr, fun q => q.elim (fun z => z ▸ h) id⟩
  · exact List.mem_cons
theorem start_resetting_one (s : State) (f : Nat) (h : s.host.resetting = []) : (start s f).host.resetting = [f] := by
  have hr : (functionState (Bar.stopRings s.host f) f).resetting = s.host.resetting := by
    unfold functionState; rw [Bar.stopRings_each, eachRing_frame]
  have hs : (start s f).host.resetting = if (functionState (Bar.stopRings s.host f) f).resetting.contains f then
      (functionState (Bar.stopRings s.host f) f).resetting else f :: (functionState (Bar.stopRings s.host f) f).resetting := by
    unfold start
    generalize functionState (Bar.stopRings s.host f) f = x
    rfl
  rw [hs, hr, h]
  rfl
theorem start_sched (s : State) (f : Nat) : (start s f).sched = { s.sched with
    jobs := s.sched.jobs.map fun j => if j.fn == f then endJob j 0x0105 Check.none32 0xFFFF 0 else j } := by
  unfold start
  generalize functionState (Bar.stopRings s.host f) f = x
  rfl

theorem endJob_phase (j : Job) (a b c d : Nat) : (endJob j a b c d).phase = .ending := by
  unfold endJob; split
  · assumption
  · rfl
theorem endJob_id (j : Job) (a b c d : Nat) : (endJob j a b c d).id = j.id := by unfold endJob; split <;> rfl
theorem endJob_fn (j : Job) (a b c d : Nat) : (endJob j a b c d).fn = j.fn := by unfold endJob; split <;> rfl

theorem endJob_again (j : Job) (a b c d : Nat) : endJob (endJob j a b c d) a b c d = endJob j a b c d := by
  have h := endJob_phase j a b c d
  generalize endJob j a b c d = x at h ⊢
  unfold endJob; rw [if_pos h]
/-- Whether a function has a job is the same after its reset began. -/
theorem start_any (s : State) (f g : Nat) : (start s f).sched.jobs.any (·.fn == g) = s.sched.jobs.any (·.fn == g) := by
  rw [start_sched, List.any_map]
  congr 1
  funext j
  simp only [Function.comp]
  split
  · rw [endJob_fn]
  · rfl
/-- The jobs after function-level resets of every function of a list. -/
theorem starts_jobs : ∀ (l : List Nat) (s : State), (l.foldl start s).sched = { s.sched with
    jobs := s.sched.jobs.map fun j => if j.fn ∈ l then endJob j 0x0105 Check.none32 0xFFFF 0 else j }
  | [], s => by simp
  | f :: l, s => by
    rw [List.foldl_cons, starts_jobs l, start_sched]
    simp only [List.map_map]
    congr 1
    apply List.map_congr_left
    intro j _
    by_cases h : j.fn = f
    · have h2 := endJob_fn j 0x0105 Check.none32 0xFFFF 0
      simp only [Function.comp, beq_iff_eq, h, if_true, endJob_again, List.mem_cons, true_or, ite_self]
    · simp [h]
/-- They change nothing but the host side and the jobs. -/
theorem starts_frame : ∀ (l : List Nat) (s : State), ∃ h c, l.foldl start s = { s with host := h, sched := c }
  | [], s => ⟨s.host, s.sched, rfl⟩
  | f :: l, s => by
    rw [List.foldl_cons]
    obtain ⟨h1, c1, e1⟩ := start_frame s f
    obtain ⟨h, c, e⟩ := starts_frame l (start s f)
    rw [e, e1]
    exact ⟨h, c, rfl⟩
/-- The functions that are resetting afterwards: those of the list and those before. -/
theorem starts_resetting (g : Nat) : ∀ (l : List Nat) (s : State),
    g ∈ (l.foldl start s).host.resetting ↔ g ∈ l ∨ g ∈ s.host.resetting
  | [], s => by simp
  | f :: l, s => by
    rw [List.foldl_cons, starts_resetting g l, start_resetting, List.mem_cons]
    tauto

end Rst

namespace Rst

theorem start_mbox (s : State) (f g : Nat) : Mbox.mboxAt (start s f).host g = if g = f then Mbox.mbox0 else Mbox.mboxAt s.host g := by
  obtain ⟨q, hh⟩ := start_host s f
  have hm : (functionState (Bar.stopRings s.host f) f).mbox = Sparse.del s.host.mbox f := by
    unfold functionState; rw [Bar.stopRings_each, eachRing_frame]
  rw [hh]
  generalize functionState (Bar.stopRings s.host f) f = x at *
  show Sparse.getD x.mbox g Mbox.mbox0 = _
  rw [hm]
  unfold Sparse.getD Mbox.mboxAt Sparse.getD
  rw [Sparse.get_del]
  split <;> rfl
theorem start_d3 (s : State) (f : Nat) : (start s f).host.d3 = s.host.d3.filter (· != f) := by
  obtain ⟨q, hh⟩ := start_host s f
  have hm : (functionState (Bar.stopRings s.host f) f).d3 = s.host.d3.filter (· != f) := by
    have hw := (Bar.stopRings_spec s.host f).1
    generalize Bar.stopRings s.host f = y at hw ⊢
    show y.d3.filter (· != f) = _
    rw [show y.d3 = s.host.d3 by have := congrArg HostIf.d3 hw; exact this]
  rw [hh]
  generalize functionState (Bar.stopRings s.host f) f = z at hm ⊢
  exact hm
/-- Parts of the host side that no function-level reset changes. -/
theorem start_keeps (s : State) (f : Nat) : (start s f).host.ctx = s.host.ctx ∧ (start s f).host.perstLow = s.host.perstLow := by
  obtain ⟨q, hh⟩ := start_host s f
  have hm : (functionState (Bar.stopRings s.host f) f).ctx = s.host.ctx ∧ (functionState (Bar.stopRings s.host f) f).perstLow = s.host.perstLow := by
    have hw := (Bar.stopRings_spec s.host f).1
    generalize Bar.stopRings s.host f = y at hw ⊢
    show y.ctx = _ ∧ y.perstLow = _
    have h1 := congrArg HostIf.ctx hw
    have h2 := congrArg HostIf.perstLow hw
    exact ⟨h1, h2⟩
  rw [hh]
  generalize functionState (Bar.stopRings s.host f) f = z at hm ⊢
  exact hm
theorem starts_host : ∀ (l : List Nat) (s : State),
    (∀ g, Mbox.mboxAt (l.foldl start s).host g = if g ∈ l then Mbox.mbox0 else Mbox.mboxAt s.host g) ∧
    (∀ g, g ∈ (l.foldl start s).host.d3 ↔ g ∈ s.host.d3 ∧ g ∉ l) ∧
    (l.foldl start s).host.ctx = s.host.ctx ∧ (l.foldl start s).host.perstLow = s.host.perstLow
  | [], s => ⟨fun g => by simp, fun g => by simp, rfl, rfl⟩
  | f :: l, s => by
    obtain ⟨h1, h2, h3, h4⟩ := starts_host l (start s f)
    obtain ⟨k1, k2⟩ := start_keeps s f
    rw [List.foldl_cons]
    refine ⟨fun g => ?_, fun g => ?_, h3.trans k1, h4.trans k2⟩
    · rw [h1, start_mbox]
      by_cases a : g ∈ l <;> by_cases b : g = f <;> simp [a, b]
    · rw [h2, start_d3]
      simp [and_assoc]

end Rst

namespace Bar
theorem resetRings_foldl : ∀ (l : List Nat) (h : HostIf), ∃ r, l.foldl resetRings h = { h with rings := r }
  | [], h => ⟨h.rings, rfl⟩
  | f :: l, h => by
    rw [List.foldl_cons]
    obtain ⟨r, e⟩ := resetRings_foldl l (resetRings h f)
    have := (resetRings_spec h f).1
    generalize resetRings h f = x at *
    exact ⟨r, by rw [e, this]⟩
end Bar

/-- The blitz reservations change the budgets of classes 0 and 1 alone. -/
theorem Mbox.blitzBudgets_frame (s : State) : ∃ b, Mbox.blitzBudgets s = { s with sched := { s.sched with budgets := b } } ∧
    ∀ k, k ≠ 0 → k ≠ 1 → budgetAt { s.sched with budgets := b } k = budgetAt s.sched k := by
  refine ⟨_, rfl, fun k h0 h1 => ?_⟩
  unfold budgetAt
  rw [Sparse.getD_put, if_neg h1, Sparse.getD_put, if_neg h0]

theorem Finish.resetsDone_is (s : State) (hv : s.recov = none) : Finish.resetsDone s =
    Finish.linkReset (s.setHost { (s.host.resetting.filter fun f => f != 0xFF && !(s.sched.jobs.any (·.fn == f))).foldl Bar.resetRings s.host with
      resetting := s.host.resetting.filter fun f =>
        !(s.host.resetting.filter fun f => f != 0xFF && !(s.sched.jobs.any (·.fn == f))).contains f }) := by
  have : ∀ l : List Nat, (l.foldl Bar.resetRings s.host).resetting = s.host.resetting := by
    intro l; obtain ⟨r, e⟩ := Bar.resetRings_foldl l s.host; rw [e]
  rw [← this (s.host.resetting.filter fun f => f != 0xFF && !(s.sched.jobs.any (·.fn == f)))]
  unfold Finish.resetsDone
  rw [hv, if_neg (by decide)]
  dsimp only
  rw [this]

namespace Rst

theorem all_spec (s : State) (hv : s.recov = none) :
    all s = { s with host := (all s).host, sched := { s.sched with jobs := (all s).sched.jobs, budgets := (all s).sched.budgets } } ∧
    (all s).host.linkUp = false ∧ (all s).host.linkGen = 0 ∧ (all s).host.linkWidth = 0 ∧ (all s).host.perstLow = s.host.perstLow ∧
    (∀ f < 16, Mbox.mboxAt (all s).host f = Mbox.mbox0 ∧ f ∉ (all s).host.d3) ∧
    (∀ k, k ≠ 0 → k ≠ 1 → budgetAt (all s).sched k = budgetAt s.sched k) ∧
    (all s).sched.jobs = s.sched.jobs.map (fun j => if j.fn < 16 then endJob j 0x0105 Check.none32 0xFFFF 0 else j) ∧
    (∀ j ∈ (all s).sched.jobs, j.fn < 16 → j.phase = .ending) ∧
    (s.sched.jobs = [] → (all s).host.rings = [] ∧ (all s).host.ctx = [] ∧ (all s).host.resetting = []) ∧
    ((∃ j ∈ s.sched.jobs, j.fn < 16) → (all s).host.ctx = s.host.ctx ∧ (all s).sched.budgets = s.sched.budgets) := by
  obtain ⟨h1, c1, hfr⟩ := starts_frame (List.range 16) s
  have hj := starts_jobs (List.range 16) s
  obtain ⟨hm, hd, hx, hp⟩ := starts_host (List.range 16) s
  have hres := fun g => starts_resetting g (List.range 16) s
  obtain ⟨A, hA⟩ : ∃ A, (List.range 16).foldl start s = A := ⟨_, rfl⟩
  rw [hA] at hfr hj hm hd hx hp hres
  have hall : all s = Finish.resetsDone (A.setHost { A.host with resetting := (A.host.resetting.filter (· != 0xFF)) ++ [0xFF], linkUp := false, linkGen := 0, linkWidth := 0 }) := by
    rw [← hA]; rfl
  subst hfr
  have hj : c1 = { s.sched with jobs := s.sched.jobs.map fun j => if j.fn ∈ List.range 16 then endJob j 0x0105 Check.none32 0xFFFF 0 else j } := hj
  have hjl : c1.jobs = s.sched.jobs.map fun j => if j.fn < 16 then endJob j 0x0105 Check.none32 0xFFFF 0 else j := by
    rw [hj]
    apply List.map_congr_left
    intro j _
    simp only [List.mem_range]
  have hend : ∀ j ∈ c1.jobs, j.fn < 16 → j.phase = .ending := by
    rw [hjl]
    intro j hjm hf
    obtain ⟨x, _, rfl⟩ := List.mem_map.1 hjm
    by_cases z : x.fn < 16
    · rw [if_pos z]; exact endJob_phase _ _ _ _ _
    · rw [if_neg z] at hf; exact absurd hf z
  have hcj : c1 = { s.sched with jobs := c1.jobs, budgets := s.sched.budgets } := by rw [hj]
  have hm : ∀ f < 16, Mbox.mboxAt h1 f = Mbox.mbox0 := fun f hf => (hm f).trans (if_pos (List.mem_range.2 hf))
  have hd : ∀ f < 16, f ∉ h1.d3 := fun f hf q => ((hd f).1 q).2 (List.mem_range.2 hf)
  have hx : h1.ctx = s.host.ctx := hx
  have hp : h1.perstLow = s.host.perstLow := hp
  have hres : ∀ g, g ∈ h1.resetting ↔ g ∈ List.range 16 ∨ g ∈ s.host.resetting := hres
  -- the functions whose reset is over at once
  obtain ⟨fs, hfs⟩ : ∃ fs, (((h1.resetting.filter (· != 0xFF)) ++ [0xFF]).filter fun f => f != 0xFF && !(c1.jobs.any (·.fn == f))) = fs := ⟨_, rfl⟩
  obtain ⟨rg, hrg⟩ := Bar.resetRings_foldl fs { h1 with resetting := (h1.resetting.filter (· != 0xFF)) ++ [0xFF], linkUp := false, linkGen := 0, linkWidth := 0 }
  obtain ⟨qs, hqs⟩ : ∃ qs, (((h1.resetting.filter (· != 0xFF)) ++ [0xFF]).filter fun f => !fs.contains f) = qs := ⟨_, rfl⟩
  have hall2 : all s = Finish.linkReset { s with host := { h1 with rings := rg, resetting := qs, linkUp := false, linkGen := 0, linkWidth := 0 }, sched := c1 } := by
    rw [hall]
    obtain ⟨X, hX⟩ : ∃ X, (({ s with host := h1, sched := c1 } : State).setHost { h1 with resetting := (h1.resetting.filter (· != 0xFF)) ++ [0xFF], linkUp := false, linkGen := 0, linkWidth := 0 }) = X := ⟨_, rfl⟩
    show Finish.resetsDone (({ s with host := h1, sched := c1 } : State).setHost { h1 with resetting := (h1.resetting.filter (· != 0xFF)) ++ [0xFF], linkUp := false, linkGen := 0, linkWidth := 0 }) = _
    rw [hX]
    have x1 : X.recov = none := by rw [← hX]; exact hv
    have x2 : X.host.resetting = (h1.resetting.filter (· != 0xFF)) ++ [0xFF] := by rw [← hX]; rfl
    have x3 : X.sched = c1 := by rw [← hX]; rfl
    have x4 : X.host = { h1 with resetting := (h1.resetting.filter (· != 0xFF)) ++ [0xFF], linkUp := false, linkGen := 0, linkWidth := 0 } := by rw [← hX]; rfl
    rw [Finish.resetsDone_is X x1, x2, x3, hfs, hqs, x4, hrg, ← hX]
    rfl
  rw [hall2]
  unfold Finish.linkReset
  by_cases hq : qs = [0xFF]
  · rw [if_pos hq]
    obtain ⟨b, hb, hb2⟩ := Mbox.blitzBudgets_frame ({ s with host := { h1 with rings := [], ctx := [], resetting := [], linkUp := false, linkGen := 0, linkWidth := 0 }, sched := c1 } : State)
    have e : Mbox.blitzBudgets (({ s with host := { h1 with rings := rg, resetting := qs, linkUp := false, linkGen := 0, linkWidth := 0 }, sched := c1 } : State).setHost { h1 with rings := [], ctx := [], resetting := [], linkUp := false, linkGen := 0, linkWidth := 0 }) = { s with host := { h1 with rings := [], ctx := [], resetting := [], linkUp := false, linkGen := 0, linkWidth := 0 }, sched := { c1 with budgets := b } } := hb
    show (Mbox.blitzBudgets _ = _ ∧ _)
    have e2 := e
    unfold State.setHost at e
    unfold State.setHost
    rw [e]
    refine ⟨?_, rfl, rfl, rfl, hp, fun f hf => ⟨hm f hf, hd f hf⟩, fun k h0 h1 => (hb2 k h0 h1).trans ?_, hjl, hend, fun _ => ⟨rfl, rfl, rfl⟩, ?_⟩
    · show ({ s with host := _, sched := { c1 with budgets := b } } : State) = { s with host := _, sched := { s.sched with jobs := c1.jobs, budgets := b } }
      have : { c1 with budgets := b } = { s.sched with jobs := c1.jobs, budgets := b } := by rw [hj]
      rw [this]
    · show budgetAt c1 k = _
      unfold budgetAt; rw [hj]
    · rintro ⟨j, hjm, hjf⟩
      exfalso
      have hmem : j.fn ∈ qs := by
        rw [← hqs, List.mem_filter]
        have h16 : j.fn ∈ h1.resetting := (hres _).2 (.inl (List.mem_range.2 hjf))
        have hne : j.fn ≠ 0xFF := by omega
        refine ⟨List.mem_append_left _ (List.mem_filter.2 ⟨h16, by simpa using hne⟩), ?_⟩
        have : j.fn ∉ fs := by
          rw [← hfs, List.mem_filter]
          rintro ⟨_, z⟩
          have hany : c1.jobs.any (·.fn == j.fn) = true := by
            rw [hjl, List.any_map, List.any_eq_true]
            refine ⟨j, hjm, ?_⟩
            simp only [Function.comp, if_pos hjf, endJob_fn, beq_self_eq_true]
          rw [hany] at z; simp at z
        simpa using this
      rw [hq] at hmem
      simp at hmem; omega
  · rw [if_neg hq]
    refine ⟨?_, rfl, rfl, rfl, hp, fun f hf => ⟨hm f hf, hd f hf⟩, fun k _ _ => ?_, hjl, hend, fun hn => ?_, fun _ => ⟨hx, ?_⟩⟩
    · show ({ s with host := _, sched := c1 } : State) = { s with host := _, sched := { s.sched with jobs := c1.jobs, budgets := c1.budgets } }
      have : c1 = { s.sched with jobs := c1.jobs, budgets := c1.budgets } := by rw [hj]
      rw [← this]
    · show budgetAt c1 k = _
      unfold budgetAt; rw [hj]
    · exfalso
      apply hq
      have hnj : c1.jobs = [] := by rw [hjl, hn]; rfl
      rw [← hqs, ← hfs, hnj, List.filter_append]
      have a : ((h1.resetting.filter (· != 0xFF)).filter fun f => !(((h1.resetting.filter (· != 0xFF)) ++ [0xFF]).filter fun f => f != 0xFF && !(([] : List Job).any (·.fn == f))).contains f) = [] := by
        rw [List.filter_eq_nil_iff]
        intro x hxm
        have hx2 : x ≠ 0xFF := by simpa using (List.mem_filter.1 hxm).2
        have : x ∈ (((h1.resetting.filter (· != 0xFF)) ++ [0xFF]).filter fun f => f != 0xFF && !(([] : List Job).any (·.fn == f))) := by
          rw [List.mem_filter]
          exact ⟨List.mem_append_left _ hxm, by simp [hx2]⟩
        simpa using this
      rw [a]
      simp
    · show c1.budgets = _
      rw [hj]

end Rst

end Machine
end Sys2Proof
end

