-- ==== Sys2Proof/Laws/Finishing.lean ====
section
/-! SUPPORT. How a job completes (spec/15_host_and_mailboxes.md R367). -/

namespace Sys2Proof
namespace Machine
open Bits Ops JobOps

theorem length_slice (b : Bytes) (o n : Nat) : (slice b o n).length = n := by
  unfold slice
  simp only [List.length_append, List.length_take, List.length_replicate, List.length_drop]
  omega

namespace Finish

theorem record_length (s : State) (j : Job) : (record s j).length = 32 := by
  unfold record JDesc.user
  simp only [List.length_append, length_slice, length_toLe]

/-- Steps 2 to 5 of R367 for a job without numeric record, whose completion record translation allows. -/
theorem report_runs (s : State) (j : Job) (hc : memClean s) (hn : JDesc.numeric j.desc = 0) (h0 : JDesc.completion j.desc ≠ 0)
    (hp : JDesc.completion j.desc % 4096 + 32 ≤ 4096) {m : Nat} (hx : xlat s.host j.fn (JDesc.completion j.desc) true = some m)
    (b : Bool) :
    ∃ t, report s j b = t ∧ memClean t ∧
      (∀ a, byteOf t a = if m ≤ a ∧ a < m + 32 then (record s j).getD (a - m) 0 else byteOf s a) ∧
      t.sched = { s.sched with budgets := t.sched.budgets,
                               dones := if j.status = 0 then Sparse.upd s.sched.dones j.fn 0 (satInc top64 · 1) else s.sched.dones,
                               fails := if j.status = 0 then s.sched.fails else Sparse.upd s.sched.fails j.fn 0 (satInc top64 · 1) } ∧
      t = { s with mem := t.mem, sched := t.sched,
                   host := sendVec (putRing s.host j.ring { ringAt s.host j.ring with done := ((ringAt s.host j.ring).done + 1) % 2 ^ 32 })
                     j.fn (ringAt s.host j.ring).vector } := by
  obtain ⟨w, e1, e2, e3, e4⟩ := hubWrite_one hc (b := record s j) (budget s j) (by rw [record_length]; exact hp) hx
  rw [record_length] at e3
  obtain ⟨wm, wb, e4⟩ : ∃ wm wb, w = { s with mem := wm, sched := { s.sched with budgets := wb } } := ⟨_, _, e4⟩
  refine ⟨({ s with mem := wm,
                    sched := { s.sched with
                      budgets := wb,
                      dones := if j.status = 0 then Sparse.upd s.sched.dones j.fn 0 (satInc top64 · 1) else s.sched.dones,
                      fails := if j.status = 0 then s.sched.fails else Sparse.upd s.sched.fails j.fn 0 (satInc top64 · 1) },
                    host := sendVec (putRing s.host j.ring { ringAt s.host j.ring with done := ((ringAt s.host j.ring).done + 1) % 2 ^ 32 })
                     j.fn (ringAt s.host j.ring).vector } : State), ?_, ?_⟩
  · unfold report
    dsimp only
    have hnn : ∀ z : State, (if b = true ∧ JDesc.numeric j.desc ≠ 0 then z else s) = s := fun z => if_neg (fun q => q.2 hn)
    rw [hnn, if_neg h0, e1]
    dsimp only
    by_cases hs : j.status = 0
    · rw [if_pos hs, if_pos hs, if_pos hs]; subst e4; rfl
    · rw [if_neg hs, if_neg hs, if_neg hs]; subst e4; rfl
  · subst e4
    exact ⟨e2, e3, rfl, rfl⟩

theorem sendVec_putRing (h : HostIf) (r f v : Nat) (x : Ring) : sendVec (putRing h r x) f v = putRing (sendVec h f v) r x := by
  unfold sendVec
  split
  · rfl
  · show (if h.unmasked.contains (f, v) then _ else if h.msixPend.contains (f, v) then _ else _) = _
    split
    · rfl
    · split <;> rfl

/-- The job that completes leaves with its record written, its ring's DONE counted and its vector sent. -/
theorem complete_runs (s : State) (id : Nat) (j : Job) (hc : memClean s) (hf : find s.sched id = some j)
    (hn : JDesc.numeric j.desc = 0) (h0 : JDesc.completion j.desc ≠ 0) (hp : JDesc.completion j.desc % 4096 + 32 ≤ 4096)
    {m : Nat} (hx : xlat s.host j.fn (JDesc.completion j.desc) true = some m) :
    ∃ t, complete s id = Starting.startReady (resetsDone (drained t j.ring j.fn)) ∧ memClean t ∧
      (∀ a, byteOf t a = if m ≤ a ∧ a < m + 32 then (record s j).getD (a - m) 0 else byteOf s a) ∧
      t.sched = { s.sched with
        jobs := s.sched.jobs.filter (·.id != id), ready := s.sched.ready.filter (·.1 != id), budgets := t.sched.budgets,
        dones := if j.status = 0 then Sparse.upd s.sched.dones j.fn 0 (satInc top64 · 1) else s.sched.dones,
        fails := if j.status = 0 then s.sched.fails else Sparse.upd s.sched.fails j.fn 0 (satInc top64 · 1),
        blitzDone := t.sched.blitzDone } ∧
      t = { s with mem := t.mem, sched := t.sched,
                   host := sendVec (putRing s.host j.ring { ringAt s.host j.ring with done := ((ringAt s.host j.ring).done + 1) % 2 ^ 32 })
                     j.fn (ringAt s.host j.ring).vector } := by
  obtain ⟨u, e1, e2, e3, _, e5⟩ := flush_clean hc (fun e => e.writers.any (·.job == some id))
  obtain ⟨um, ub, e5⟩ : ∃ um ub, u = { s with mem := um, sched := { s.sched with budgets := ub } } := ⟨_, _, e5⟩
  unfold complete
  rw [hf]
  dsimp only
  rw [e1]
  have hset : settle (u, ([] : Memory.Lost)).1 (u, ([] : Memory.Lost)).2 = u := rfl
  rw [hset]
  have hfu : find u.sched id = some j := by rw [e5]; exact hf
  rw [hfu]
  dsimp only
  rw [if_neg (by cases j.replay <;> decide)]
  have fin : ∀ (v : State) (vb : Sparse (Placement × Nat)), v = { s with mem := um, sched := { s.sched with budgets := ub, blitzDone := vb } } →
      ∃ t, Starting.startReady (resetsDone (drained ((drop (report v j true) id).setSched { (drop (report v j true) id).sched with
          ready := (drop (report v j true) id).sched.ready.filter (·.1 != id) }) j.ring j.fn)) =
        Starting.startReady (resetsDone (drained t j.ring j.fn)) ∧ memClean t ∧
      (∀ a, byteOf t a = if m ≤ a ∧ a < m + 32 then (record s j).getD (a - m) 0 else byteOf s a) ∧
      t.sched = { s.sched with
        jobs := s.sched.jobs.filter (·.id != id), ready := s.sched.ready.filter (·.1 != id), budgets := t.sched.budgets,
        dones := if j.status = 0 then Sparse.upd s.sched.dones j.fn 0 (satInc top64 · 1) else s.sched.dones,
        fails := if j.status = 0 then s.sched.fails else Sparse.upd s.sched.fails j.fn 0 (satInc top64 · 1),
        blitzDone := t.sched.blitzDone } ∧
      t = { s with mem := t.mem, sched := t.sched,
                   host := sendVec (putRing s.host j.ring { ringAt s.host j.ring with done := ((ringAt s.host j.ring).done + 1) % 2 ^ 32 })
                     j.fn (ringAt s.host j.ring).vector } := by
    intro v vb hve
    have hvc : memClean v := by rw [hve]; rw [e5] at e2; exact e2
    have hvb : ∀ a, byteOf v a = byteOf s a := by intro a; rw [← e3 a, hve, e5]; rfl
    have hvr : record v j = record s j := by rw [hve]; rfl
    obtain ⟨t, r1, r2, r3, r4, r5⟩ := report_runs v j hvc hn h0 hp (m := m) (by rw [hve]; exact hx) true
    rw [r1]
    obtain ⟨tb, r4⟩ : ∃ tb, t.sched = { v.sched with
        budgets := tb,
        dones := if j.status = 0 then Sparse.upd v.sched.dones j.fn 0 (satInc top64 · 1) else v.sched.dones,
        fails := if j.status = 0 then v.sched.fails else Sparse.upd v.sched.fails j.fn 0 (satInc top64 · 1) } := ⟨_, r4⟩
    obtain ⟨tm, ts, hts, r5⟩ : ∃ tm ts, ts = { v.sched with
        budgets := tb,
        dones := if j.status = 0 then Sparse.upd v.sched.dones j.fn 0 (satInc top64 · 1) else v.sched.dones,
        fails := if j.status = 0 then v.sched.fails else Sparse.upd v.sched.fails j.fn 0 (satInc top64 · 1) } ∧
      t = { v with
        mem := tm
        sched := ts
        host := sendVec (putRing v.host j.ring { ringAt v.host j.ring with done := ((ringAt v.host j.ring).done + 1) % 2 ^ 32 })
                     j.fn (ringAt v.host j.ring).vector } := ⟨t.mem, t.sched, r4, r5⟩
    rw [hvr] at r3
    clear r4 r1
    subst hts
    subst hve
    subst r5
    exact ⟨_, rfl, r2, fun a => by rw [← hvb a]; exact r3 a, rfl, rfl⟩
  cases hpl : j.place with
  | none => exact fin u s.sched.blitzDone e5
  | some p =>
    dsimp only
    by_cases hz : j.cls = 0
    · rw [if_pos hz]
      refine fin _ (Sparse.put u.sched.blitzDone j.ring (p, u.now)) ?_
      subst e5; rfl
    · rw [if_neg hz]
      exact fin u s.sched.blitzDone e5

/-- With no function in reset and no recovery, the resets that wait change nothing. -/
theorem resetsDone_none (s : State) (hv : s.recov = none) (hr : s.host.resetting = []) : resetsDone s = s := by
  rw [resetsDone_is s hv, hr]
  show linkReset (s.setHost { s.host with resetting := [] }) = s
  have : ({ s.host with resetting := [] } : HostIf) = s.host := by rw [← hr]
  rw [this]
  unfold linkReset
  rw [if_neg (by show s.host.resetting ≠ [0xFF]; rw [hr]; simp)]
  rfl
/-- Where no job waits, nothing starts: only the record of ready hub executions grows. -/
theorem startReady_idle (s : State) (h : ∀ j ∈ s.sched.jobs, j.phase ≠ .waiting) :
    Starting.startReady s = refreshReady s := by
  unfold Starting.startReady
  have : (s.sched.jobs.filter fun j => j.phase == .waiting && (Placing.blockers s.sched j).isEmpty) = [] := by
    rw [List.filter_eq_nil_iff]
    intro j hj
    have := h j hj
    simp [this]
  rw [this]
  rfl
theorem refreshReady_eq (s : State) : ∃ q, refreshReady s = { s with sched := { s.sched with ready := s.sched.ready ++ q } } := ⟨_, rfl⟩

end Finish

namespace JobOps

theorem find_id {c : Sched} {id : Nat} {x : Job} (h : find c id = some x) : x.id = id := by
  have := List.find?_some h
  simpa using this
/-- The job put in place of the job of its id is found there. -/
theorem find_put {c : Sched} {id : Nat} {x j : Job} (h : find c id = some x) (e : j.id = id) : find (put c j) id = some j := by
  unfold find put at *
  dsimp only
  generalize c.jobs = l at h ⊢
  induction l with
  | nil => cases h
  | cons a l ih =>
    rw [List.map_cons]
    by_cases z : a.id = id
    · rw [if_pos (z.trans e.symm), List.find?_cons_of_pos (by simp [e])]
    · rw [List.find?_cons_of_neg (by simp [z])] at h
      rw [if_neg (fun q => z (q.trans e)), List.find?_cons_of_neg (by simp [z])]
      exact ih h
/-- The other jobs stand. -/
theorem mem_put {c : Sched} {j z : Job} (h : z.id ≠ j.id) : z ∈ (put c j).jobs ↔ z ∈ c.jobs := by
  unfold put
  dsimp only
  rw [List.mem_map]
  constructor
  · rintro ⟨a, ha, e⟩
    by_cases q : a.id = j.id
    · rw [if_pos q] at e; exact absurd (congrArg Job.id e).symm h
    · rw [if_neg q] at e; exact e ▸ ha
  · intro hz
    exact ⟨z, hz, if_neg h⟩
theorem mem_put_self {c : Sched} {j z : Job} (h : z ∈ (put c j).jobs) : z = j ∨ z ∈ c.jobs := by
  unfold put at h
  dsimp only at h
  rw [List.mem_map] at h
  obtain ⟨a, ha, e⟩ := h
  split at e
  · exact .inl e.symm
  · exact .inr (e ▸ ha)
/-- The later write of a job stands. -/
theorem put_put {c : Sched} {x y : Job} (h : x.id = y.id) : put (put c x) y = put c y := by
  unfold put
  dsimp only
  congr 1
  generalize c.jobs = l
  induction l with
  | nil => rfl
  | cons a l ih =>
    simp only [List.map_cons, ih]
    by_cases q : a.id = x.id
    · rw [if_pos q, if_pos h, if_pos (q.trans h)]
    · rw [if_neg q]
theorem set_set {s : State} {x y : Job} (h : x.id = y.id) : set (set s x) y = set s y := by
  show s.setSched (put (put s.sched x) y) = _
  rw [put_put h]; rfl
/-- A change of a job that is in service. -/
theorem upd_found {s : State} {id : Nat} {x : Job} (h : find s.sched id = some x) (f : Job → Job) : upd s id f = set s (f x) := by
  unfold upd; rw [h]
theorem untally_eq (l : List Tally) : ∀ s : State, ∃ k, untally s l = { s with tm := k } := by
  induction l with
  | nil => intro s; exact ⟨s.tm, rfl⟩
  | cons t l ih =>
    intro s
    show ∃ k, untally (if t.era = some s.tm.era then s.setTm { s.tm with sat := s.tm.sat - t.sat, flush := s.tm.flush - t.flush } else s) l = _
    split
    · obtain ⟨k, e⟩ := ih (s.setTm { s.tm with sat := s.tm.sat - t.sat, flush := s.tm.flush - t.flush })
      exact ⟨k, e⟩
    · exact ih s

end JobOps

namespace Starting

/-- Step 3 of R377 in memory without error patterns: the job is left adjourned with no partial state. -/
theorem writeContext_clean (s : State) (id : Nat) (x : Job) (hc : memClean s) (hf : find s.sched id = some x) :
    ∃ t y, writeContext s id = t ∧ memClean t ∧ find t.sched id = some y ∧ y.phase = .adjourned ∧ y.adjourns = x.adjourns + 1 ∧
      y.replay = false ∧ y.place = x.place ∧ y.wins = x.wins ∧ (∀ g c, (g, c) ∈ y.cells → ∃ p, c = { blankCell [] with prior := p }) ∧
      (∃ a b u v w, y = { x with phase := .adjourned, adjourns := a, reclaim := b, finished := u, tally := v, cells := w, replay := false }) ∧
      (∀ z : Job, z.id ≠ id → (z ∈ t.sched.jobs ↔ z ∈ s.sched.jobs)) ∧
      (∀ z ∈ t.sched.jobs, z = y ∨ z ∈ s.sched.jobs) ∧
      t = { s with
        free := s.free + 1
        mem := t.mem
        tm := t.tm
        fab := { s.fab with txns := t.fab.txns }
        sched := { s.sched with jobs := t.sched.jobs, budgets := t.sched.budgets } } := by
  unfold writeContext
  rw [hf]
  dsimp only
  have hid := find_id hf
  generalize (contextArea _ _ _) = area
  generalize (reclaimed _ _ _) = rc
  generalize (if keepsValues x = true then x.finished ++ _ else []) = fin
  generalize (List.map (fun (t : Tally) => if t.epoch = x.epoch ∧ keepsValues x = true then _ else t) _) = tl
  generalize (List.filter (fun (t : Tally) => !_) x.tally) = gone
  generalize (List.filterMap (fun (z : Nat × CellRun) => if z.2.flights.isEmpty = true then none else some z.1) x.cells) = hit
  generalize hcl : (List.map _ x.cells : List (Nat × CellRun)) = cl
  have hcells : ∀ g c, (g, c) ∈ cl → ∃ p, c = { blankCell [] with prior := p } := by
    intro g c h
    rw [← hcl, List.mem_map] at h
    obtain ⟨a, _, e⟩ := h
    have e := congrArg Prod.snd e
    exact ⟨_, e.symm⟩
  clear hcl
  generalize hy : ({ x with phase := JobPhase.adjourned, adjourns := x.adjourns + 1, reclaim := rc, finished := fin,
                            tally := tl, cells := cl, replay := false } : Job) = y
  obtain ⟨k, hk⟩ := untally_eq gone (Ops.fresh s).2
  rw [hk]
  have hyid : y.id = id := by rw [← hy]; exact hid
  -- the state before the area is written
  obtain ⟨u, tx, hu, hu2⟩ : ∃ u tx, (if hit.isEmpty = true then JobOps.set { (Ops.fresh s).2 with tm := k } y
      else (JobOps.set { (Ops.fresh s).2 with tm := k } y).setFab
        { (JobOps.set { (Ops.fresh s).2 with tm := k } y).fab with
          txns := (JobOps.set { (Ops.fresh s).2 with tm := k } y).fab.txns.map fun t => match t.owner with
            | .cell n _ _ _ => if n = id then { t with owner := .gone } else t
            | _ => t }) = u ∧
      u = { s with
        free := s.free + 1
        tm := k
        fab := { s.fab with txns := tx }
        sched := put s.sched y } := by
    by_cases h : hit.isEmpty = true
    · rw [if_pos h]; exact ⟨_, s.fab.txns, rfl, rfl⟩
    · rw [if_neg h]; exact ⟨_, _, rfl, rfl⟩
  obtain ⟨r, t, e, _, e2, _, _, e3⟩ := run_clean (s := u) (by rw [hu2]; exact hc) 10 (MM.write_tidy
    { via u x 0x10000 with cls := 10 } (JDesc.context x.desc) area)
  refine ⟨t, y, ?_, e2, ?_, ?_, ?_, ?_, ?_, ?_, ?_, ?_, ?_, ?_, ?_⟩
  · refine (congrArg (fun w => (run w 10 (MM.write { via w x 0x10000 with cls := 10 } (JDesc.context x.desc) area)).2) hu).trans ?_
    dsimp only
    rw [e]
  · rw [e3, hu2]; exact find_put hf hyid
  · rw [← hy]
  · rw [← hy]
  · rw [← hy]
  · rw [← hy]
  · rw [← hy]
  · rw [← hy]; exact hcells
  · exact ⟨_, _, _, _, _, hy.symm⟩
  · intro z hz
    rw [e3, hu2]
    exact mem_put (by rw [hyid]; exact hz)
  · intro z hz
    rw [e3, hu2] at hz
    exact mem_put_self hz
  · rw [e3, hu2]; rfl

end Starting

end Machine
end Sys2Proof
end

