-- ==== Sys2Proof/Laws/Masks.lean ====
section
/-! SUPPORT. Masks and maps: setting a bit, columns that go out, and the mask copy in force. -/

namespace Sys2Proof
namespace Machine
open Bits Ops

/-- Setting a bit sets it and leaves every other bit. -/
theorem Memory.bit_setBit (v i k : Nat) : bit (setBit v i true) k = (bit v k || decide (k = i)) := by
  unfold setBit
  by_cases h : bit v i = true
  · rw [h, if_pos (by rfl)]
    by_cases hk : k = i
    · subst hk; simp [h]
    · simp [hk]
  · have hf : bit v i = false := by simpa using h
    rw [hf, if_neg (by decide), if_pos rfl]
    rw [Memory.bit_eq] at hf
    rw [Memory.bit_eq, Memory.bit_eq]
    rcases Nat.lt_trichotomy k i with hk | hk | hk
    · rw [Nat.add_comm, Nat.testBit_two_pow_add_gt hk]
      simp [Nat.ne_of_lt hk]
    · subst hk
      rw [Nat.add_comm, Nat.testBit_two_pow_add_eq, hf]
      simp
    · have hq : (v + 2 ^ i) / 2 ^ (i + 1) = v / 2 ^ (i + 1) := by
        have h1 : v / 2 ^ i % 2 = 0 := by
          rw [Nat.testBit_eq_decide_div_mod_eq] at hf
          simpa using hf
        have h2 : (v + 2 ^ i) / 2 ^ i = v / 2 ^ i + 1 := Nat.add_div_right _ (Nat.two_pow_pos i)
        rw [Nat.pow_succ, ← Nat.div_div_eq_div_mul, ← Nat.div_div_eq_div_mul, h2]
        omega
      have ht : ∀ x : Nat, x.testBit k = (x / 2 ^ (i + 1)).testBit (k - (i + 1)) := by
        intro x
        rw [Nat.testBit_div_two_pow]
        congr 1; omega
      rw [ht, hq, ← ht]
      simp [Nat.ne_of_gt hk]

/-- Columns of a row go out: their bits are set, the other rows stand. -/
theorem Castle.setOut_foldl (i : Nat) : ∀ (es : List Castling) (b : BringUp),
    ∃ m, es.foldl (fun b e => setOut b i e.col) b = { b with outMap := m } ∧
      (∀ k, bit (Sparse.getD b.outMap i 0) k = true ∨ (∃ e ∈ es, e.col = k) → bit (Sparse.getD m i 0) k = true) ∧
      (∀ k, k ≠ i → Sparse.getD m k 0 = Sparse.getD b.outMap k 0)
  | [], b => ⟨b.outMap, rfl, fun _ h => h.elim id (fun ⟨_, he, _⟩ => by cases he), fun _ _ => rfl⟩
  | e :: es, b => by
    obtain ⟨m, h1, h2, h3⟩ := setOut_foldl i es (setOut b i e.col)
    refine ⟨m, h1, fun k hk => h2 k ?_, fun k hk => (h3 k hk).trans ?_⟩
    · have : bit (Sparse.getD (setOut b i e.col).outMap i 0) k = (bit (Sparse.getD b.outMap i 0) k || decide (k = e.col)) := by
        unfold setOut
        dsimp only
        rw [Sparse.getD_put_self, Memory.bit_setBit]
      rw [this]
      rcases hk with h | ⟨d, hd, hk⟩
      · left; rw [h]; rfl
      · rcases List.mem_cons.1 hd with rfl | hd
        · left; rw [hk]; simp
        · right; exact ⟨d, hd, hk⟩
    · unfold setOut
      dsimp only
      rw [Sparse.getD_put_ne _ hk]

/-- Writing one value at each key of a list. -/
theorem Castle.get_puts {α : Type} (v : α) (q : Nat) : ∀ (l : List Nat) (m : Sparse α),
    Sparse.get? (l.foldl (fun m p => Sparse.put m p v) m) q = if q ∈ l then some v else Sparse.get? m q
  | [], m => by simp
  | p :: l, m => by
    rw [List.foldl_cons, get_puts v q l, Sparse.get_put]
    by_cases h1 : q ∈ l
    · simp [h1]
    · by_cases h2 : q = p
      · simp [h2]
      · simp [h1, h2]
/-- The mask in force is a valid copy, and where there is none, neither copy is valid. -/
theorem Starts.newerMask_some {f : Flash} {c : MaskCopy} (h : newerMask f = some c) : c.valid = true ∧ (c = f.mask0 ∨ c = f.mask1) := by
  unfold newerMask at h
  split at h
  · next q =>
    cases h
    rw [Bool.and_eq_true] at q
    exact ⟨q.1, .inl rfl⟩
  · split at h
    · next q => cases h; exact ⟨q, .inr rfl⟩
    · cases h
theorem Starts.newerMask_none {f : Flash} (h : newerMask f = none) : f.mask0.valid = false ∧ f.mask1.valid = false := by
  unfold newerMask at h
  split at h
  · cases h
  · next q =>
    split at h
    · cases h
    · next q1 =>
      have q1 : f.mask1.valid = false := by simpa using q1
      refine ⟨?_, q1⟩
      rw [q1] at q
      simpa using q
end Machine
end Sys2Proof
end

