-- ==== Sys2Proof/Laws/Ports.lean ====
section
/-! SUPPORT. Reading a fabric port and its settings after each update. -/

namespace Sys2Proof
namespace Machine
namespace Link

variable (s : State) (p q : Nat)

theorem portAt_putPort (y : Port) : portAt (putPort s q y) p = if p = q then y else portAt s p := Sparse.getD_put _ _ _ _ _
@[simp] theorem portAt_putPort_self (y : Port) : portAt (putPort s p y) p = y := by rw [portAt_putPort, if_pos rfl]
/-- The later write of a port stands. -/
@[simp] theorem putPort_putPort (y z : Port) : putPort (putPort s p y) p z = putPort s p z := by
  show s.setFab { s.fab with port := Sparse.put (Sparse.put s.fab.port p y) p z } = _
  rw [Sparse.put_put]; rfl
@[simp] theorem cfgAt_putPort (y : Port) : cfgAt (putPort s q y) p = cfgAt s p := rfl
theorem cfgAt_putCfg (y : PortCfg) : cfgAt (putCfg s q y) p = if p = q then y else cfgAt s p := Sparse.getD_put _ _ _ _ _
@[simp] theorem cfgAt_putCfg_self (y : PortCfg) : cfgAt (putCfg s p y) p = y := by rw [cfgAt_putCfg, if_pos rfl]
@[simp] theorem portAt_putCfg (y : PortCfg) : portAt (putCfg s q y) p = portAt s p := rfl
@[simp] theorem portAt_emit (f : Sys2Proof.Frame) : portAt (emit s q f) p = portAt s p := rfl
@[simp] theorem cfgAt_emit (f : Sys2Proof.Frame) : cfgAt (emit s q f) p = cfgAt s p := rfl
@[simp] theorem portAt_logEvent (r : Ops.Report) : portAt (Ops.logEvent s r) p = portAt s p := by
  unfold portAt; rw [Ops.logEvent_fab]
@[simp] theorem cfgAt_logEvent (r : Ops.Report) : cfgAt (Ops.logEvent s r) p = cfgAt s p := by
  unfold cfgAt; rw [Ops.logEvent_fab]
@[simp] theorem portAt_setNow (t : Nat) : portAt (s.setNow t) p = portAt s p := rfl
@[simp] theorem cfgAt_setNow (t : Nat) : cfgAt (s.setNow t) p = cfgAt s p := rfl
@[simp] theorem portAt_tick (t : Nat) : portAt (Ops.tick s t) p = portAt s p := rfl
@[simp] theorem cfgAt_tick (t : Nat) : cfgAt (Ops.tick s t) p = cfgAt s p := rfl

/-- The end of LINK_TRAIN leaves the fabric as it is. -/
theorem linkTrainDone_fab : (linkTrainDone s).fab = s.fab := by
  unfold linkTrainDone
  split
  · exact Bring.stepDone_fab _
  · rfl
@[simp] theorem portAt_linkTrainDone : portAt (linkTrainDone s) p = portAt s p := by unfold portAt; rw [linkTrainDone_fab]
@[simp] theorem cfgAt_linkTrainDone : cfgAt (linkTrainDone s) p = cfgAt s p := by unfold cfgAt; rw [linkTrainDone_fab]
/-- Outside LINK_TRAIN it changes nothing. -/
theorem linkTrainDone_other (h : s.bu.step ≠ 8) : linkTrainDone s = s := by
  unfold linkTrainDone; rw [if_neg]; exact fun q => h q.1

end Link
end Machine
end Sys2Proof
end

