-- ==== Sys2Proof/Laws/Messages.lean ====
section
/-! SUPPORT. What sending a PTP message does. -/

namespace Sys2Proof
namespace Machine
open Bits Ops

namespace Link
/-- A PTP frame leaves in clear: the port's output alone grows. -/
theorem wire_ptp (s : State) (p q : Nat) (f : Sys2Proof.Frame) (h : kind f = 5) :
    ∃ g, wire s p q f = { s with fab := { s.fab with sent := g } } := by
  unfold wire
  dsimp only
  rw [if_neg (by rw [h]; simp)]
  exact ⟨_, rfl⟩

/-- Sending a PTP frame changes the port and the output. -/
theorem send_ptp (s : State) (p : Nat) (f : Sys2Proof.Frame) (h : kind f = 5) :
    ∃ y g, send s p f = { s with fab := { s.fab with port := Sparse.put s.fab.port p y, sent := g } } ∧
      y.state = (portAt s p).state := by
  unfold send
  dsimp only
  split
  · unfold sendNow
    dsimp only
    obtain ⟨g, e⟩ := wire_ptp (putPort s p { portAt s p with
      txSeq := ((portAt s p).txSeq + 1) % 4096, unacked := (portAt s p).unacked ++ [((portAt s p).txSeq, f)],
      used := Sparse.upd (portAt s p).used (vc f) 0 (· + units (len f) ((portAt s p).crypt && kind f != 5)) }) p (portAt s p).txSeq f h
    rw [e]
    exact ⟨_, _, rfl, rfl⟩
  · exact ⟨_, s.fab.sent, rfl, rfl⟩
end Link

namespace Time
theorem kind_ptp (d t : Nat) (m : Bytes) : Link.kind ⟨Link.mkHeader 5 2 0 1 0 0 d t 0 0, m, none, 0#32⟩ = 5 := by
  simp only [Link.kind, Link.mkHeader, field, BitVec.toNat_ofNat]
  omega
/-- A PTP message changes its port, the output and the list of messages. -/
theorem sendMsg_spec (s : State) (k p q : Nat) (m : Bytes) :
    ∃ y g, sendMsg s k p q m = { s with fab := { s.fab with port := Sparse.put s.fab.port p y, sent := g },
                                         ptp := { s.ptp with sent := ⟨k, p, q, ptpTime s⟩ :: s.ptp.sent } } ∧
      y.state = (Link.portAt s p).state := by
  unfold sendMsg
  dsimp only
  obtain ⟨y, g, e, h⟩ := Link.send_ptp s p ⟨Link.mkHeader 5 2 0 1 0 0 (Link.portAt s p).partner (Link.myId s) 0 0, m, none, 0#32⟩ (kind_ptp _ _ _)
  rw [e]
  exact ⟨y, g, rfl, h⟩

/-- v is s after PTP messages msgs were sent on the ports ps. -/
def Sent (s v : State) (ps : List Nat) (msgs : List PtpMsg) : Prop :=
  (∃ y g x, v = { s with fab := { s.fab with port := y, sent := g }, ptp := { s.ptp with sent := msgs.reverse ++ s.ptp.sent, pdReq := x } }) ∧
  (∀ q, (Link.portAt v q).state = (Link.portAt s q).state) ∧
  (∀ q, q ∉ ps → Link.portAt v q = Link.portAt s q)

theorem sent_refl (s : State) : Sent s s [] [] := ⟨⟨_, _, _, rfl⟩, fun _ => rfl, fun _ _ => rfl⟩
theorem sent_pdReq {s v : State} {ps : List Nat} {msgs : List PtpMsg} (h : Sent s v ps msgs) (x : Sparse (Nat × Nat)) :
    Sent s (v.setPtp { v.ptp with pdReq := x }) ps msgs := by
  obtain ⟨⟨y, g, z, rfl⟩, h1, h2⟩ := h
  exact ⟨⟨y, g, x, rfl⟩, h1, h2⟩
theorem sent_msg {s v : State} {ps : List Nat} {msgs : List PtpMsg} (h : Sent s v ps msgs) (k p q : Nat) (m : Bytes) :
    Sent s (sendMsg v k p q m) (ps ++ [p]) (msgs ++ [⟨k, p, q, ptpTime s⟩]) ∧
      (sendMsg v k p q m).ptp.pdReq = v.ptp.pdReq := by
  obtain ⟨y, g, e, hy⟩ := sendMsg_spec v k p q m
  obtain ⟨⟨a, b, c, rfl⟩, h1, h2⟩ := h
  generalize hv : ({ s with fab := { s.fab with port := a, sent := b }, ptp := { s.ptp with sent := msgs.reverse ++ s.ptp.sent, pdReq := c } } : State) = v at *
  have hat : ∀ r, Link.portAt (sendMsg v k p q m) r = if r = p then y else Link.portAt v r := by
    intro r; rw [e]; exact Sparse.getD_put _ _ _ _ _
  refine ⟨⟨⟨Sparse.put v.fab.port p y, g, v.ptp.pdReq, ?_⟩, fun r => ?_, fun r hr => ?_⟩, by rw [e]⟩
  · rw [e, ← hv]
    simp [ptpTime, ptpDrift]
  · rw [hat]; split
    · next z => rw [z, hy, h1]
    · exact h1 r
  · rw [List.mem_append, List.mem_singleton] at hr
    rw [hat, if_neg (fun z => hr (.inr z)), h2 r (fun z => hr (.inl z))]
theorem sent_sub {s v : State} {ps qs : List Nat} {msgs : List PtpMsg} (h : Sent s v ps msgs) (hs : ∀ p ∈ ps, p ∈ qs) :
    Sent s v qs msgs := ⟨h.1, h.2.1, fun q hq => h.2.2 q (fun z => hq (hs q z))⟩
theorem sent_trans {s u v : State} {ps qs : List Nat} {a b : List PtpMsg} (h : Sent s u ps a) (g : Sent u v qs b) :
    Sent s v (ps ++ qs) (a ++ b) := by
  obtain ⟨⟨y, z, x, rfl⟩, h1, h2⟩ := h
  obtain ⟨⟨y', z', x', rfl⟩, g1, g2⟩ := g
  refine ⟨⟨y', z', x', by simp⟩, fun q => (g1 q).trans (h1 q), fun q hq => ?_⟩
  rw [List.mem_append] at hq
  rw [g2 q (fun z => hq (.inr z)), h2 q (fun z => hq (.inl z))]
/-- Sending the same on each port of a list. -/
theorem sent_foldl (s : State) (act : State → Nat → State) (m : Nat → List PtpMsg)
    (hact : ∀ u p, ptpTime u = ptpTime s → Sent u (act u p) [p] (m p) ) (ps : List Nat) :
    ∀ u, ptpTime u = ptpTime s → Sent u (ps.foldl act u) ps (ps.flatMap m) := by
  induction ps with
  | nil => intro u _; exact sent_refl u
  | cons p r ih =>
    intro u hu
    have h := hact u p hu
    have ht : ptpTime (act u p) = ptpTime s := by rw [← hu]; obtain ⟨⟨_, _, _, e⟩, _, _⟩ := h; rw [e]; rfl
    exact sent_trans h (ih _ ht)
/-- A request list that each step keeps, and one that each step writes. -/
theorem pdReq_foldl (act : State → Nat → State) (h : ∀ u p, (act u p).ptp.pdReq = u.ptp.pdReq) (ps : List Nat) :
    ∀ u, (ps.foldl act u).ptp.pdReq = u.ptp.pdReq := by
  induction ps with
  | nil => intro u; rfl
  | cons p r ih => intro u; exact (ih _).trans (h u p)
theorem pdReq_foldl_put (s : State) (act : State → Nat → State) (w : Nat × Nat)
    (ht : ∀ u p, ptpTime u = ptpTime s → ptpTime (act u p) = ptpTime s)
    (h : ∀ u p, ptpTime u = ptpTime s → (act u p).ptp.pdReq = Sparse.put u.ptp.pdReq p w) (ps : List Nat) (q : Nat) :
    ∀ u, ptpTime u = ptpTime s →
      Sparse.get? (ps.foldl act u).ptp.pdReq q = if q ∈ ps then some w else Sparse.get? u.ptp.pdReq q := by
  induction ps with
  | nil => intro u _; simp
  | cons p r ih =>
    intro u hu
    rw [List.foldl_cons, ih _ (ht u p hu), h u p hu, Sparse.get_put]
    by_cases h1 : q ∈ r
    · simp [h1]
    · by_cases h2 : q = p
      · simp [h2]
      · simp [h1, h2]
theorem sent_time {s v : State} {ps : List Nat} {msgs : List PtpMsg} (h : Sent s v ps msgs) : ptpTime v = ptpTime s := by
  obtain ⟨⟨_, _, _, rfl⟩, _, _⟩ := h; rfl

end Time
end Machine
end Sys2Proof
end

