-- ==== Sys2Proof/Laws/RegisterWrite.lean ====
section
/-! SUPPORT. What a write of BAR0 comes to (spec/15_host_and_mailboxes.md R349, R350): the register that the offset names
takes the value, once the function may write it. -/

namespace Sys2Proof
namespace Machine

open Bits Ops Mbox

/-- The offset lies in no MSI-X table and no mailbox, and an access of w bytes there is aligned. -/
abbrev Bar.plain (f o w : Nat) : Prop :=
  Regs.aligned o w = true ∧ (o < 0x8000 ∨ 0x8000 + 16 * Bar.msixCount f ≤ o) ∧ (o < 0x10000 ∨ 0x20000 ≤ o)

theorem Bar.write_access {s : State} {f o w : Nat} (h : reachable s f = true) (p : Bar.plain f o w) (v : Nat) :
    Bar.write s f o w v = Regs.access s f o w (v % 2 ^ (8 * w)) := by
  obtain ⟨a, m, b⟩ := p
  unfold Bar.write
  rw [h, a]
  have n1 : ¬ (0x8000 ≤ o ∧ o < 0x8000 + 16 * Bar.msixCount f) := by omega
  have n2 : ¬ (0x10000 ≤ o ∧ o < 0x20000) := by omega
  rw [if_neg (by simp), if_neg n1, if_neg n2]

/-- A function in D3hot writes nothing. -/
theorem Bar.write_asleep {s : State} {f : Nat} (h : reachable s f = false) (o w v : Nat) : Bar.write s f o w v = s := by
  unfold Bar.write
  rw [h, if_pos (by simp)]

/-- A write of a 4-byte register. -/
theorem Bar.write_four {s : State} {f o : Nat} {r : Reg} (h : reachable s f = true) (p : Bar.plain f o 4)
    (g : Regs.regAt o = some (r, o, 4)) (v : Nat) :
    Bar.write s f o 4 v = if Regs.mayWrite s.host f r then Regs.write s f (v % 2 ^ 32) r else s := by
  rw [Bar.write_access h p]
  unfold Regs.access
  rw [g]
  dsimp only
  cases Regs.mayWrite s.host f r
  · rfl
  · rw [if_neg (by simp), if_pos rfl, if_pos rfl]
    have : v % 2 ^ (8 * 4) % 2 ^ 32 = v % 2 ^ 32 := by omega
    rw [this, if_pos rfl]

/-- Two words make a doubleword. -/
theorem Regs.two_words (v : Nat) (hv : v < 2 ^ 64) : v / 2 ^ (8*0) % 2 ^ 32 * 2 ^ (32*0) + (v / 2 ^ (8*4) % 2 ^ 32 * 2 ^ (32*1) + 0) = v := by
  have a : 2 ^ (8 * 0) = 1 := rfl
  have c : 2 ^ (8 * 4) = 2 ^ 32 := rfl
  have d : 2 ^ (32 * 1) = 2 ^ 32 := rfl
  rw [a, c, d]
  generalize hN : 2 ^ 32 = N
  have : v < N * N := by rw [← hN]; exact hv
  have k : v / N % N = v / N := Nat.mod_eq_of_lt (Nat.div_lt_of_lt_mul this)
  rw [k, Nat.div_one, Nat.mul_one, Nat.add_zero, Nat.mul_comm]
  exact Nat.mod_add_div v N
/-- The parts that an 8-byte write covers, whatever the others hold. -/
theorem Regs.parts_eight (o v : Nat) (hv : v < 2 ^ 64) (d : Nat → Nat) :
   ((List.range (8/4)).map fun i => (if o ≤ o + 4 * i ∧ o + 4 * i < o + 8 then v / 2 ^ (8 * (o + 4 * i - o)) % 2 ^ 32
      else d i) * 2 ^ (32 * i)).sum = v := by
  have h0 : o ≤ o + 4 * 0 ∧ o + 4 * 0 < o + 8 := by omega
  have h1 : o ≤ o + 4 * 1 ∧ o + 4 * 1 < o + 8 := by omega
  have d0 : o + 4 * 0 - o = 0 := by omega
  have d1 : o + 4 * 1 - o = 4 := by omega
  have e : List.range (8 / 4) = [0, 1] := rfl
  rw [e, List.map_cons, List.map_cons, List.map_nil, List.sum_cons, List.sum_cons, List.sum_nil]
  rw [if_pos h0, if_pos h1, d0, d1]
  exact Regs.two_words v hv
/-- The parts of an 8-byte write make the whole register. -/
theorem Regs.whole_eight (s : State) (f : Nat) (r : Reg) (o v : Nat) (hv : v < 2 ^ 64) :
   Regs.whole s f r o 8 o 8 v = v := by
  unfold Regs.whole
  exact Regs.parts_eight o v hv _

/-- A write of a whole 8-byte register. -/
theorem Bar.write_eight {s : State} {f o : Nat} {r : Reg} (h : reachable s f = true) (p : Bar.plain f o 8)
    (g : Regs.regAt o = some (r, o, 8)) (v : Nat) (hv : v < 2 ^ 64) :
    Bar.write s f o 8 v =
      if Regs.mayWrite s.host f r then Regs.write (s.setHost (Regs.unstage s.host f o 8)) f v r else s := by
  rw [Bar.write_access h p]
  unfold Regs.access
  rw [g]
  dsimp only
  have : v % 2 ^ (8 * 8) = v := Nat.mod_eq_of_lt hv
  rw [this, Regs.whole_eight s f r o v hv]
  cases Regs.mayWrite s.host f r
  · rfl
  · rw [if_neg (by simp), if_neg (by decide), if_neg (by omega), if_pos rfl]

/-- The physical function reaches every register. -/
@[simp] theorem Regs.mayWrite_pf (h : HostIf) (r : Reg) : Regs.mayWrite h 0 r = true := by
  simp [Regs.mayWrite, Regs.responds]

/-- The physical function writes a 4-byte register. -/
theorem Bar.pf_write {s : State} {o : Nat} {r : Reg} (h : reachable s 0 = true) (p : Bar.plain 0 o 4)
    (g : Regs.regAt o = some (r, o, 4)) (v : Word) : Bar.write s 0 o 4 v.toNat = Regs.write s 0 v.toNat r := by
  rw [Bar.write_four h p g, Nat.mod_eq_of_lt v.isLt, Regs.mayWrite_pf, if_pos rfl]
/-- The physical function writes an 8-byte register. -/
theorem Bar.pf_write_wide {s : State} {o : Nat} {r : Reg} (h : reachable s 0 = true) (p : Bar.plain 0 o 8)
    (g : Regs.regAt o = some (r, o, 8)) (v : Dword) :
    Bar.write s 0 o 8 v.toNat = Regs.write (s.setHost (Regs.unstage s.host 0 o 8)) 0 v.toNat r := by
  rw [Bar.write_eight h p g _ v.isLt, Regs.mayWrite_pf, if_pos rfl]

theorem Regs.regAt_keys : ∀ i < 96, Regs.regAt (0x108000 + 0x40 * i) =
    some (.fabPortKey (i / 4) (i / 2 % 2) (i % 2), 0x108000 + 0x40 * i, 64) := by decide
theorem Regs.regAt_portKey {p d k : Nat} (hp : p < 24) (hd : d < 2) (hk : k < 2) :
    Regs.regAt (0x108000 + 0x100 * p + 0x80 * d + 0x40 * k) =
      some (.fabPortKey p d k, 0x108000 + 0x100 * p + 0x80 * d + 0x40 * k, 64) := by
  have h := Regs.regAt_keys (4 * p + 2 * d + k) (by omega)
  have e1 : 0x108000 + 0x40 * (4 * p + 2 * d + k) = 0x108000 + 0x100 * p + 0x80 * d + 0x40 * k := by omega
  have e2 : (4 * p + 2 * d + k) / 4 = p := by omega
  have e3 : (4 * p + 2 * d + k) / 2 % 2 = d := by omega
  have e4 : (4 * p + 2 * d + k) % 2 = k := by omega
  rwa [e1, e2, e3, e4] at h
theorem Regs.regAt_jrTail : ∀ r < 64, Regs.regAt (0x20010 + 0x40 * r) = some (.jrTail r, 0x20010 + 0x40 * r, 4) := by decide
theorem Regs.regAt_portCtl : ∀ p < 24, Regs.regAt (0x100100 + 0x20 * p) = some (.fabPortCtl p, 0x100100 + 0x20 * p, 4) := by
  decide
theorem Regs.regAt_opqTail : ∀ q < 16, Regs.regAt (0x104010 + 0x20 * q) = some (.fabOpqTail q, 0x104010 + 0x20 * q, 4) := by
  decide
theorem Regs.regAt_obsSel : ∀ k < 4, Regs.regAt (0x400000 + 8 * k) = some (.tmObsSel k, 0x400000 + 8 * k, 4) := by decide

end Machine
end Sys2Proof
end

