-- ==== Sys2Proof/Laws/WarmStart.lean ====
section
/-! SUPPORT. Memory before a warm start: flushes of clean memory, and what settling it leaves. -/

namespace Sys2Proof
namespace Machine
open Bits Ops

/-- Flushes of clean memory change its bytes and buffers alone. -/
theorem Memory.flushEntry_frame (m : Mem) (c : m.errs = []) (f : m.fixes = []) (e : WcEntry) :
    ∃ b w o, (flushEntry m e).1 = { m with bytes := b, wc := w, owed := o } := by
  have wl : ∀ (n : Mem) (d : Bytes), n.errs = [] → n.fixes = [] →
      writeLine n e.line d = { n with bytes := put n.bytes (64 * e.line) (slice d 0 64) } := by
    intro n d h1 h2
    unfold writeLine
    rw [h1, h2]
    show ({ n with bytes := _, errs := [], fixes := [] } : Mem) = _
    cases n
    subst h1 h2
    rfl
  unfold flushEntry
  dsimp only
  split
  · rw [wl _ _ (by exact c) (by exact f)]
    exact ⟨_, _, m.owed, rfl⟩
  · rw [readChannel_clean (by exact c)]
    dsimp only
    rw [wl _ _ (by exact c) (by exact f)]
    exact ⟨_, _, _, rfl⟩
theorem Memory.flushWhere_frame (m : Mem) (c : m.errs = []) (f : m.fixes = []) (p : WcEntry → Bool) :
    ∃ b w o, (flushWhere m p).1 = { m with bytes := b, wc := w, owed := o } := by
  unfold flushWhere
  generalize m.wc.filter p = l
  have key : ∀ (l : List WcEntry) (n : Mem) (q : Lost), (∃ b w o, n = { m with bytes := b, wc := w, owed := o }) →
      ∃ b w o, (l.foldl (fun (m, l) e => let (m, k) := flushEntry m e; (m, l ++ k)) (n, q)).1 = { m with bytes := b, wc := w, owed := o } := by
    intro l
    induction l with
    | nil => intro n q h; exact h
    | cons e l ih =>
      rintro n q ⟨b, w, o, hn⟩
      rw [List.foldl_cons]
      refine ih _ _ ?_
      obtain ⟨b', w', o', h⟩ := flushEntry_frame n (by rw [hn]; exact c) (by rw [hn]; exact f) e
      refine ⟨b', w', o', h.trans ?_⟩
      rw [hn]
  exact key l m [] ⟨m.bytes, m.wc, m.owed, rfl⟩

/-- Before a warm start, clean memory is settled: every byte reads as before, and the buffers are empty (R316). -/
theorem Recov.settleMemory_clean {s : State} (h : memClean s) (f : s.mem.fixes = []) :
    ∃ b g, settleMemory s = { s with mem := { s.mem with bytes := b, wc := [], owed := [] }, sched := { s.sched with budgets := g } } ∧
      ∀ x, byteOf (settleMemory s) x = byteOf s x := by
  obtain ⟨q1, q2, q3⟩ := Memory.flushWhere_clean h.2 h.1 fun _ => true
  obtain ⟨b, w, o, e⟩ := Memory.flushWhere_frame s.mem h.1 f fun _ => true
  have hw : w = [] := by
    have hg := flushWhere_gone s.mem (fun _ => true)
    rw [e] at hg
    cases w with
    | nil => rfl
    | cons a w => exact absurd (hg a (by simp)) (by simp)
  subst hw
  have hd := drain_eq (s.setMem { s.mem with bytes := b, wc := [], owed := o })
  generalize hg : (drain (s.setMem { s.mem with bytes := b, wc := [], owed := o })).sched.budgets = g at hd
  have hs : settleMemory s = { s with mem := { s.mem with bytes := b, wc := [], owed := [] }, sched := { s.sched with budgets := g } } := by
    unfold settleMemory Ops.flushWhere
    dsimp only
    rw [q1, e, hd]
    have hx : ∀ X : State, X.mem.fixes = [] → X.setMem (X.mem.fixes.foldl (fun m e => Memory.writeback m e.1) X.mem) = X := by
      intro X hX; rw [hX]; rfl
    exact hx _ f
  refine ⟨b, g, hs, fun x => ?_⟩
  rw [hs]
  have := q3 x
  rw [e] at this
  exact this
end Machine
end Sys2Proof
end

