-- ==== Sys2Proof/Laws/ScrubPosition.lean ====
section
/-! SUPPORT. The patrol scrub's position through memory operations, warm starts and cold starts. -/

namespace Sys2Proof
namespace Machine

open Bits Ops
/-- Where the patrol scrub stands, and its passes (R315). -/
def Memory.scrubAt (m : Mem) : Nat × Nat × Nat := (m.slot, m.codeword, m.passes)

@[simp] theorem Memory.readChannel_scrubAt (m : Mem) (l : Nat) : scrubAt (readChannel m l).2 = scrubAt m := by
  unfold readChannel
  split
  · rfl
  · dsimp only
    split
    · rfl
    · split <;> rfl
@[simp] theorem Memory.flushEntry_scrubAt (m : Mem) (e : WcEntry) : scrubAt (flushEntry m e).1 = scrubAt m := by
  unfold flushEntry
  dsimp only
  split
  · rfl
  · have := readChannel_scrubAt { dropEntry m e.line with owed := (dropEntry m e.line).owed ++ [e.cls] } e.line
    split <;> (rename_i h; rw [h] at this; exact this)
@[simp] theorem Memory.flushWhere_scrubAt (m : Mem) (p : WcEntry → Bool) : scrubAt (flushWhere m p).1 = scrubAt m := by
  unfold flushWhere
  generalize m.wc.filter p = l
  have key : ∀ (l : List WcEntry) (n : Mem) (q : Lost), scrubAt n = scrubAt m →
      scrubAt (l.foldl (fun (m, l) e => let (m, k) := flushEntry m e; (m, l ++ k)) (n, q)).1 = scrubAt m := by
    intro l
    induction l with
    | nil => intro n q h; exact h
    | cons e l ih => intro n q h; rw [List.foldl_cons]; exact ih _ _ ((flushEntry_scrubAt n e).trans h)
  exact key l m [] rfl
@[simp] theorem Memory.writeback_scrubAt (m : Mem) (l : Nat) : scrubAt (writeback m l) = scrubAt m := by
  unfold writeback; split <;> rfl
@[simp] theorem JobOps.log_mem (s : State) (j : Job) (st so c a b : Nat) (r : Bool) : (JobOps.log s j st so c a b r).mem = s.mem := by
  unfold JobOps.log; exact logEvent_mem _ _
@[simp] theorem JobOps.lose_mem (s : State) (id st i c so a b : Nat) : (JobOps.lose s id st i c so a b).mem = s.mem := by
  unfold JobOps.lose
  split
  · rfl
  · unfold JobOps.set
    rw [State.setSched_mem, JobOps.log_mem]
@[simp] theorem JobOps.fault_mem (s : State) (id : Nat) (k : FaultKey) (c so a b : Nat) (r : Bool) : (JobOps.fault s id k c so a b r).mem = s.mem := by
  unfold JobOps.fault
  split
  · rfl
  · split
    · exact JobOps.lose_mem _ _ _ _ _ _ _ _
    · unfold JobOps.set
      dsimp only
      rw [State.setSched_mem, JobOps.log_mem]
@[simp] theorem JobOps.settle_mem (l : Memory.Lost) : ∀ s : State, (JobOps.settle s l).mem = s.mem := by
  induction l with
  | nil => intro s; rfl
  | cons a l ih =>
    intro s
    unfold JobOps.settle
    rw [ih]
    split
    · exact logEvent_mem _ _
    · next h =>
      clear h
      generalize a.2.2.filterMap _ = q
      induction q generalizing s with
      | nil => rfl
      | cons b q iq => rw [List.foldl_cons, iq]; exact JobOps.fault_mem _ _ _ _ _ _ _ _
theorem Starts.startStep_mem (s : State) (n : Nat) : (Starts.startStep s n).mem = s.mem := by
  unfold Starts.startStep
  dsimp only
  split
  · exact logEvent_mem _ _
  · rfl
/-- A cold start leaves memory as reset does. -/
theorem Starts.coldStart_mem (s : State) : (Starts.coldStart s).mem = State.resetMem := by
  unfold Starts.coldStart Starts.coldState
  rw [Starts.startStep_mem, Starts.volatileLost_eq]
  rfl
/-- Settling memory before a warm start leaves the scrub where it is. -/
theorem Recov.settleMemory_scrubAt (s : State) : Memory.scrubAt (settleMemory s).mem = Memory.scrubAt s.mem := by
  unfold settleMemory Ops.flushWhere
  dsimp only
  have hf : ∀ (l : Sparse Bytes) (m : Mem), Memory.scrubAt (l.foldl (fun m e => Memory.writeback m e.1) m) = Memory.scrubAt m := by
    intro l
    induction l with
    | nil => intro m; rfl
    | cons a l ih => intro m; rw [List.foldl_cons, ih, Memory.writeback_scrubAt]
  show Memory.scrubAt (List.foldl _ _ _) = _
  rw [hf, JobOps.settle_mem, drain_eq]
  exact Memory.flushWhere_scrubAt _ _
theorem Recov.warmStart_scrubAt (s : State) : Memory.scrubAt (warmStart s).mem = Memory.scrubAt s.mem := by
  unfold warmStart
  dsimp only
  rw [Starts.startStep_mem]
  exact settleMemory_scrubAt s

theorem MemRows.markScrub_scrubAt (m n : Mem) (l : Nat) : Memory.scrubAt (markScrub m n l) = Memory.scrubAt n := by
  unfold markScrub
  split <;> rfl
theorem MemRows.scrubFrom_scrubAt (l : List Nat) : ∀ s : State, Memory.scrubAt (scrubFrom s l).mem = Memory.scrubAt s.mem := by
  induction l with
  | nil => intro s; rfl
  | cons a l ih =>
    intro s
    unfold scrubFrom
    dsimp only
    have := Memory.readChannel_scrubAt s.mem (Memory.lineAddr a s.mem.slot s.mem.codeword / 64)
    split
    · next h =>
      rw [ih]
      rw [h] at this
      exact (markScrub_scrubAt _ _ _).trans this
    · next h =>
      rw [ih, logEvent_mem]
      rw [h] at this
      exact this

end Machine
end Sys2Proof
end

