-- ==== Sys2Proof/Laws/Transactions.lean ====
section
/-! SUPPORT. Transactions of the fabric: finding and dropping one after an update; an atomic on memory. -/

namespace Sys2Proof
namespace Machine
open Bits Ops
namespace Fab
/-- Finding a transaction again after its update. -/
theorem find_putTxn {s : State} {g : Nat} {x y : Txn} (h : s.fab.txns.find? (·.tag == g) = some x) (hy : y.tag = x.tag) :
    (putTxn s y).fab.txns.find? (·.tag == g) = some y := by
  show (s.fab.txns.map fun z => if z.tag = y.tag then y else z).find? (·.tag == g) = some y
  have hg : x.tag = g := by simpa using List.find?_some h
  generalize s.fab.txns = l at h
  induction l with
  | nil => cases h
  | cons z l ih =>
    rw [List.find?_cons] at h
    rw [List.map_cons, List.find?_cons]
    by_cases hz : z.tag = g
    · rw [if_pos (by rw [hy, hg, hz])]
      have : (y.tag == g) = true := by rw [hy, hg]; simp
      rw [this]
    · have e : (z.tag == g) = false := by simpa using hz
      rw [e] at h
      rw [if_neg (by rw [hy, hg]; exact hz), e]
      exact ih h
/-- Dropping a transaction after its update. -/
theorem dropTxn_putTxn (s : State) (y : Txn) : dropTxn (putTxn s y) y.tag = dropTxn s y.tag := by
  show s.setFab { s.fab with txns := (s.fab.txns.map fun z => if z.tag = y.tag then y else z).filter (·.tag != y.tag) } = s.setFab { s.fab with txns := s.fab.txns.filter (·.tag != y.tag) }
  have e : ∀ l : List Txn, (l.map fun z => if z.tag = y.tag then y else z).filter (·.tag != y.tag) = l.filter (·.tag != y.tag) := by
    intro l
    induction l with
    | nil => rfl
    | cons z l ih =>
      rw [List.map_cons, List.filter_cons, List.filter_cons, ih]
      by_cases hz : z.tag = y.tag
      · simp [hz]
      · rw [if_neg hz]
  rw [e]
end Fab

theorem MM.flushLine_clean {w : MemRun} (h : Memory.Clean w.mem) (a : Nat) :
    ∃ m, (MM.flushLine a).run.run w = (.ok (), { w with mem := m }) ∧ Memory.Clean m ∧
      ∀ y, Memory.seen m y = Memory.seen w.mem y := by
  obtain ⟨q1, q2, q3⟩ := Memory.flushWhere_clean h.2 h.1 (fun e => e.line == a / 64)
  have q4 := Memory.flushWhere_bufOk (m := w.mem) (fun e => e.line == a / 64) h.2
  refine ⟨(Memory.flushWhere w.mem fun e => e.line == a / 64).1, ?_, ⟨q2, q4⟩, q3⟩
  show (Except.ok (), (⟨(Memory.flushWhere w.mem fun e => e.line == a / 64).1, w.txn, w.runs, w.wrote,
    w.lost ++ (Memory.flushWhere w.mem fun e => e.line == a / 64).2⟩ : MemRun)) = _
  rw [q1, List.append_nil]

theorem MM.bind_ok {α β : Type} {x : MM α} {f : α → MM β} {w u : MemRun} {a : α} (h : x.run.run w = (.ok a, u)) :
    (x >>= f).run.run w = (f a).run.run u := by
  show (ExceptT.bindCont f (x.run.run w).1) (x.run.run w).2 = _
  rw [h]
  rfl

/-- An atomic on clean memory: the old value comes back, the new one, if any, stands in its 8 bytes (R332, R333). -/
theorem FabServe.atomicAct_clean {w : MemRun} (h : Memory.Clean w.mem) (v : Via) (a : Nat) (b : Bytes) :
    ∃ m k r q, (atomicAct v a b).run.run w =
        (.ok (le ((List.range 8).map fun i => Memory.seen w.mem (a + i))), { w with mem := m, txn := k, runs := r, wrote := q }) ∧
      Memory.Clean m ∧ ∀ y, Memory.seen m y =
        match newValue b (le ((List.range 8).map fun i => Memory.seen w.mem (a + i))) with
        | some n => if a ≤ y ∧ y < a + 8 then (toLe 8 n).getD (y - a) 0 else Memory.seen w.mem y
        | none => Memory.seen w.mem y := by
  obtain ⟨m, e1, c1, s1⟩ := MM.flushLine_clean h a
  have e2 := MM.readAt_clean (w := { w with mem := m }) c1 a 8
  have es : ((List.range 8).map fun i => Memory.seen m (a + i)) = (List.range 8).map fun i => Memory.seen w.mem (a + i) := by
    congr 1; funext i; exact s1 _
  unfold atomicAct
  rw [MM.bind_ok e1, MM.bind_ok e2]
  dsimp only
  rw [es]
  generalize le ((List.range 8).map fun i => Memory.seen w.mem (a + i)) = old
  cases newValue b old with
  | none =>
    exact ⟨m, _, _, w.wrote, rfl, c1, fun y => s1 y⟩
  | some n =>
    obtain ⟨k, _, _, _, e3, c3, s3⟩ :=
      MM.writeAt_clean (w := { w with mem := m, txn := w.txn + Memory.linesOf a 8, runs := (a, 8) :: w.runs }) c1 v a (toLe 8 n)
    dsimp only
    rw [MM.bind_ok e3]
    refine ⟨k, _, _, _, rfl, c3, fun y => ?_⟩
    rw [s3 y, length_toLe]
    split
    · rfl
    · exact s1 y
@[simp] theorem FabServe.atomicAct_tidy (v : Via) (a : Nat) (b : Bytes) : Tidy (atomicAct v a b) := by
  unfold atomicAct
  refine Tidy.bind (MM.flushLine_tidy _) fun _ => Tidy.bind (MM.readAt_tidy _ _) fun d => ?_
  cases newValue b (le d) with
  | none => exact Tidy.pure _
  | some n => exact Tidy.bind (MM.writeAt_tidy _ _ _) fun _ => Tidy.pure _

/-- A pure step after accesses changes their result alone. -/
theorem JobOps.run_map {α β : Type} {s : State} {k : Nat} {x : MM α} {a : α} {u : State} (f : α → β) (h : JobOps.run s k x = (.ok a, u)) :
    JobOps.run s k (x >>= fun a => pure (f a)) = (.ok (f a), u) := by
  unfold JobOps.run MM.exec at *
  generalize hq : x.run.run ⟨s.mem, 0, [], [], []⟩ = q at h
  obtain ⟨r, w⟩ := q
  dsimp only at h
  obtain ⟨h1, h2⟩ := Prod.mk.inj h
  subst h1
  rw [MM.bind_ok (f := fun a => pure (f a)) hq]
  exact Prod.ext rfl h2

end Machine
end Sys2Proof
end

