-- ==== Sys2Proof/Tests/Slice0.lean ====
section
/-! SUPPORT. Tests: the check on commands refuses ill-formed ones, every statement's hypotheses are met by concrete states,
and single commands give the results that the spec's tables and worked examples show. -/

namespace Sys2Proof
namespace Tests

open Machine Bits Ops

-- the checks run one after another: many at once take more memory than one run of Lean may
set_option Elab.async false

/-- A module at READY: rails good, the management processor running, the host link up. -/
def up : State := State.reset
  |>.setBu { State.resetBringUp with step := 9, phase := 1, mpRunning := true }
  |>.setPwr { State.reset.pwr with phase := .good, p48v := 48000, fTgt := 1900, inSince := some 0 }
  |>.setHost { State.resetHost with linkUp := true, perstLow := false, numVfs := 15 }
/-- A ring of the physical function in a state of R361, of class urgent. -/
def ring (state : Nat) : Ring :=
  { base := 0x10000, log2 := 4, vector := 0xFF, owner := 0, cls := 1, state := state, tail := 0, head := 0, done := 0, resv := 0, bells := [] }
def withRing (s : State) (r : Nat) (x : Ring) : State := s.setHost (putRing s.host r x)
/-- A port in a state of R344. -/
def withPort (s : State) (p : Nat) (x : Port) : State := Link.putPort s p x
def withCfg (s : State) (p : Nat) (x : PortCfg) : State := Link.putCfg s p x
/-- Bytes of memory as the host would have written them. -/
def poke (s : State) (a : Nat) (b : Bytes) : State := s.setMem { s.mem with bytes := Memory.put s.mem.bytes a b }

theorem up_clean : memClean up := ⟨rfl, Memory.wcOk_nil⟩

/-! ### The hypotheses of the statements are met -/

def level2 : State := up.setIdent { up.ident with level := 2 }
/-- A port in a state, without anything in flight. -/
def port (st : PortState) : Port := { Link.port0 with state := st }
/-- An assembly recognised in every connector, for generation 3. -/
def cabled (s : State) : State := s.setIdent { s.ident with cables := (List.range 6).map fun c => (c, true, true, 3, 0) }

theorem witness_JtagLevelGate :
    level2.ident.level = 2 ∧ up.ident.level < 2 ∧ (0x06#8).toNat ∉ [0x00, 0x01, 0x02, 0x03, 0x04, 0x05, 0x40, 0x41] ∧
    (0x41#8).toNat ∈ [0x04, 0x05, 0x40, 0x41] := by decide
theorem witness_MemAccessReadsAndWritesAUnit :
    2 ≤ level2.ident.level ∧ level2.pwr.phase ≠ .scanned ∧ Config.memTop - 1 < Config.memTop ∧ memClean level2 ∧ (List.replicate 16 0xA5#8).length = 16 :=
  ⟨by decide, by decide, by decide, ⟨rfl, Memory.wcOk_nil⟩, by decide⟩
theorem witness_MemoryRegisterWrites :
    Mbox.reachable up 0 = true ∧ up.sched.jobs = [] ∧ Mbox.reachable up 15 = true ∧ up.mem.sealEn = false ∧
    (up.setMem { up.mem with sealEn := true }).mem.sealEn = true := by decide
theorem witness_FabricRegisterWrites :
    Mbox.reachable up 0 = true ∧ (∀ p < 24, (Link.portAt up p).state ≠ .up) ∧
    (∃ p < 24, (Link.portAt (withPort up 23 (port .up)) p).state = .up) ∧
    Time.source up = 1 ∧ Time.source (up.setFab { up.fab with ptpCtl := 0 }) = 0 ∧
    Time.source (up.setFab { up.fab with ptpCtl := 0x200 }) = 2 := by decide
theorem witness_PortControlWrites :
    let s := withPort up 23 (port .quarantined)
    let m := withCfg (withPort up 23 (port .up)) 23 { Link.cfg0 with qmark := true }
    let d := withCfg (withPort up 23 (port .disabled)) 23 { Link.cfg0 with qmark := true }
    Mbox.reachable s 0 = true ∧ 23 < 24 ∧ bit (0#32).toNat 0 = false ∧
    -- a mark that is kept, at a disabled port and at another
    (bit (1#32).toNat 0 = true ∧ (Link.cfgAt d 23).qmark = true ∧ bit (1#32).toNat 1 = false ∧ (Link.portAt d 23).state = .disabled) ∧
    ((Link.cfgAt m 23).qmark = true ∧ (Link.portAt m 23).state ≠ .disabled) ∧
    -- RELEASE, and a port without mark
    (bit (3#32).toNat 1 = true ∧ (Link.portAt s 23).state = .quarantined ∧ Link.hasCable (cabled s) 23 = true ∧ Link.hasCable s 23 = false) ∧
    ((Link.cfgAt (withPort up 0 (port .up)) 0).qmark = false ∧ (Link.portAt (withPort up 0 (port .up)) 0).state ∈ [.up, .training, .down]) ∧
    up.bu.step ≠ 8 := by decide
theorem witness_TelemetryWritesAndTheLatch :
    Mbox.reachable up 0 = true ∧ 3 < 4 ∧ Regs.signalLevel (field (0#32).toNat 7 0) = some 0 ∧
    (∃ v : Word, ∃ n, Regs.signalLevel (field v.toNat 7 0) = some n ∧ up.ident.level < n) ∧
    Regs.signalLevel (field (0xFF#32).toNat 7 0) = none := by
  refine ⟨by decide, by decide, by decide, ⟨0x12#32, 2, ?_⟩, by decide⟩
  decide
theorem witness_DebugLockAndUnlock :
    Mbox.reachable up 0 = true ∧ up.ident.fails < 8 ∧ 8 ≤ (up.setIdent { up.ident with fails := 8 }).ident.fails ∧
    (4#64).toNat % 8 ≠ 0 ∧ (0x1000#64).toNat % 8 = 0 ∧ memClean up ∧ Sparse.get? up.host.ctx 0 = none ∧
    (0x1000#64).toNat + 240 ≤ Config.recoveryBase ∧ bit (0x80000000#32).toNat 31 = true :=
  ⟨by decide, by decide, by decide, by decide, by decide, ⟨rfl, Memory.wcOk_nil⟩, by decide, by decide, by decide⟩
theorem witness_PortKeyWrites :
    let s := withPort up 23 (port .up)
    23 < 24 ∧ Mbox.reachable s 0 = true ∧ (0 = 0 ∧ 0 = (Link.cfgAt s 23).txSlot ∧ (Link.portAt s 23).state = .up) ∧
    ¬ (1 = 0 ∧ 1 = (Link.cfgAt s 23).txSlot ∧ (Link.portAt s 23).state = .up) := by decide
theorem witness_DoorbellWritesTail :
    let s := withRing up 63 (ring 3)
    let x := ringAt s.host 63
    63 < 64 ∧ Mbox.reachable s 0 = true ∧ memClean s ∧
    (x.owner = 0 ∧ x.state = 3 ∧ ((16#32).toNat + 2 ^ 32 - x.head) % 2 ^ 32 ≤ 2 ^ x.log2) ∧
    ¬ ((17#32).toNat + 2 ^ 32 - x.head) % 2 ^ 32 ≤ 2 ^ x.log2 := by
  refine ⟨by decide, by decide, ⟨rfl, Memory.wcOk_nil⟩, by decide, by decide⟩
theorem witness_BringUpStepWrites :
    let at_ := fun n ph a => up.setBu { up.bu with step := n, phase := ph, auto := a }
    let bad := fun (s : State) (v : Word) => field v.toNat 3 0 ≠ 0 ∧
      (s.bu.auto = true ∨ field v.toNat 3 0 ≠ s.bu.step + 1 ∨ s.bu.phase ≠ 1 ∨ 9 < field v.toNat 3 0)
    Mbox.reachable up 0 = true ∧ ¬ (up.bu.phase = 2 ∧ (up.bu.code = 0x0801 ∨ up.bu.code = 0x0802)) ∧
    bad (at_ 3 1 true) 4#32 ∧ bad (at_ 3 1 false) 5#32 ∧ bad (at_ 3 0 false) 4#32 ∧ bad (at_ 9 1 false) 10#32 ∧
    (field (9#32).toNat 3 0 ≠ 0 ∧ field (9#32).toNat 3 0 = (at_ 8 1 false).bu.step + 1 ∧ field (9#32).toNat 3 0 ≤ 9 ∧ 9 ∉ [2, 4, 7] ∧
      Starts.operating up.pwr.p48v = true) ∧
    (up.pwr.hubTemp ≤ 95 ∧ ∀ k < 8, Sparse.getD up.mem.temp k 0 ≤ 95) ∧
    (field (0#32).toNat 3 0 = 0 ∧ bit (0#32).toNat 8 = false) ∧
    (field (0x100#32).toNat 3 0 = 0 ∧ bit (0x100#32).toNat 8 = true ∧ (at_ 8 1 false).bu.step < 9 ∧ 9 ≤ (at_ 9 1 false).bu.step) := by
  decide
theorem witness_RegisterWritesByFunction :
    let inTable := fun f o => 0x8000 ≤ o ∧ o < 0x8000 + 16 * Bar.msixCount f
    let inBox := fun o => 0x10000 ≤ o ∧ o < 0x20000
    let s := withRing up 5 { ring 1 with owner := 3 }
    Mbox.reachable s 3 = true ∧ (2 ≠ 4 ∧ 2 ≠ 8) ∧ 0x20014 % 8 ≠ 0 ∧
    (inBox 0x14000 ∧ (0x14000 - 0x10000) / 4096 ≠ 3 ∧ ¬ inTable 3 0x14000) ∧
    (¬ inTable 3 0x4 ∧ ¬ inBox 0x4 ∧ Regs.regAt 0x4 = none) ∧
    -- a ring of another function, and its own
    (Regs.regAt 0x20190 = some (.jrTail 6, 0x20190, 4) ∧ ¬ inTable 3 0x20190 ∧ ¬ inBox 0x20190 ∧ Regs.ringOf (.jrTail 6) = some 6 ∧
      (ringAt s.host 6).state = 0) ∧
    (Regs.regAt 0x20150 = some (.jrTail 5, 0x20150, 4) ∧ Regs.mayWrite s.host 3 (.jrTail 5) = true ∧ 0x20150 % 4 = 0 ∧ 0x20150 < 0x4000000) := by
  decide
theorem witness_HalfWritesMakeOneWrite :
    Mbox.reachable up 0 = true ∧ Regs.mayWrite up.host 0 .idUnlock = true ∧ Regs.regAt 0x240 = some (.idUnlock, 0x240, 8) ∧
    Regs.regAt (0x240 + 4) = some (.idUnlock, 0x240, 8) ∧ 0x240 % 8 = 0 ∧ 0x240 + 8 ≤ 0x4000000 ∧ 0x240 + 8 ≤ 0x8000 := by decide
theorem witness_listens : listens up 0 ∧ listens up 15 := by unfold listens; decide
theorem witness_RingEnableDisableAnswers :
    let s := withRing up 63 (ring 2)
    let e := withRing up 63 (ring 3)
    let f := withRing up 63 { ring 2 with owner := 1 }
    listens s 0 ∧ 64 ≤ (64#64).toNat ∧ (63#64).toNat < 64 ∧
    (¬ ((ringAt up.host 63).state ≠ 0 ∧ (ringAt up.host 63).owner = 1)) ∧ ((ringAt f.host 63).state ≠ 0 ∧ (ringAt f.host 63).owner = 1) ∧
    (Mbox.ready s = true ∧ s.bu.recovering = false ∧ (ringAt s.host 63).state = 2) ∧ (ringAt s.host 63).state ≠ 3 ∧ (ringAt e.host 63).state = 3 := by
  unfold listens; decide
theorem witness_RingAssignAndSetup :
    let two := withRing (withRing up 0 { ring 3 with cls := 0 }) 1 { ring 3 with cls := 0 }
    let o := (blitzRings up.host).filter (· != 63)
    63 < 64 ∧ 0 < 4 ∧ Mbox.ready up = true ∧ listens up 0 ∧ (ringAt up.host 63).state ≤ 2 ∧
    -- a blitz ring with a reservation, two of them already, and UNASSIGNED again
    ((0x0F3F#64).toNat = 63 + 256 * 15 + 65536 * 0 ∧ Mbox.resvOk 0x0001000100000001 = true ∧ o.length < 2 ∧ resvTxn 0x0001000100000001 ≤ 100000 ∧
      2 * resvEnergy 0x0001000100000001 ≤ up.pwr.polP) ∧
    2 ≤ ((blitzRings two.host).filter (· != 63)).length ∧ (0xFF3F#64).toNat = 63 + 256 * 0xFF + 65536 * 0 ∧
    -- RING_SETUP by the owner
    (let s := withRing up 63 { ring 1 with owner := 15 }
     listens s 15 ∧ (ringAt s.host 63).state = 1 ∧ (ringAt s.host 63).owner = 15 ∧ (0x10000#64).toNat % 4096 = 0 ∧
     (0x0F10#64).toNat = 16 + 256 * 15 ∧ 16 ≤ 16 ∧ 2 ≤ 15 ∧ 15 < 16) := by
  unfold listens; decide
theorem witness_PolicyAckOverrideRestart :
    let halt := up.setBu { up.bu with step := 6, phase := 2, code := 0x0401 }
    listens up 0 ∧ listens halt 0 ∧ listens up 1 ∧ Mbox.ready up = true ∧ (0x010A#64).toNat = 0x0100 + 10 ∧ (0x0202#64).toNat = 0x0200 + 2 ∧
    (0xFFFFFFFF#64).toNat ≤ 0xFFFFFFFF ∧ 90 ≤ (90#64).toNat ∧ (105#64).toNat ≤ 105 ∧ 400 ≤ (400#64).toNat ∧
    (400#64).toNat ≤ Config.clkMax up.fuses.variant ∧ Mbox.halted halt = true ∧ Starts.operating halt.pwr.p48v = true ∧
    up.bu.recovering = false ∧ (1#64).toNat < 2 := by
  unfold listens; decide
theorem witness_SessionCloseAndEventRead :
    let ses : Session := ⟨0x2000, 0, 3, 1, false, 0, 0⟩
    let idle := up.setCodec { up.codec with enc := [ses] }
    let busy := up.setCodec { up.codec with dec := [{ ses with busy := true }] }
    listens idle 0 ∧ up.codec.enc.find? (fun x => x.addr == 0x2000 && x.fn == 0) = none ∧
    idle.codec.enc.find? (fun x => x.addr == 0x2000 && x.fn == 0) = some ses ∧ Mbox.ready idle = true ∧ ses.busy = false ∧
    busy.codec.dec.find? (fun x => x.addr == 0x2000 && x.fn == 0) = some { ses with busy := true } ∧ (1#64).toNat = ofBool true ∧
    memClean up ∧ (0x1000#64).toNat % 32 = 0 ∧ 1 ≤ (4096#64).toNat ∧ (4096#64).toNat ≤ 4096 ∧ xlat up.host 0 (0x1000#64).toNat true = some 0x1000 ∧
    (Mbox.heldEvents up).length = 0 := by
  refine ⟨by unfold listens; decide, by decide, by decide, by decide, by decide, by decide, by decide, ⟨rfl, Memory.wcOk_nil⟩, by decide, by decide,
    by decide, by decide, by decide⟩
/-! Jobs of the physical function: a program of one DEC descriptor without access units. -/

/-- A structure of n bytes with fields (offset, width, value). -/
def image (n : Nat) (l : List (Nat × Nat × Nat)) : Bytes := l.foldl (fun b (o, w, v) => splice b o (toLe w v)) (zeros n)
def decNone : Bytes := image 64 [(0, 1, 0x14), (1, 1, 0x80), (2, 1, 0x77), (4, 4, 0xFFFFFFFF)]
/-- Job descriptor: program at 0x20000, completion record at 0x21000, context at 0x30000, one cell. -/
def jdesc : Bytes := image 128 [(0, 8, 0x20000), (0x18, 8, 0x21000), (0x38, 8, 0x30000), (0x70, 4, 0x010100)]
def memory1 : State := poke (poke (withRing up 0 { ring 3 with tail := 1 }) 0x20000 decNone) 0x10000 jdesc

/-- The admission of a ring's head entry as far as the placement. -/
def admits (s : State) (r k : Nat) : Bool :=
  let x := ringAt s.host r
  match readLog s x.owner k (x.base + 128 * (x.head % 2 ^ x.log2)) 128 with
  | (.ok desc, s1) =>
    let n := Sch.newJob s1.sched.nextId r x.head x desc
    match Load.run s1 k (JobOps.via s1 n 0x10000) x.resv n with
    | (.ok j, s2) =>
      (if j.espalier then Starts.reduced s2.bu else !Placing.shapeFits s2 (JDesc.gr desc) (JDesc.gc desc)) == false &&
      (match Placing.locate s2 x.cls j.espalier (JDesc.gr desc) (JDesc.gc desc) with
        | some p => (Placing.place s2.sched x.cls j p).isSome
        | none => false)
    | _ => false
  | _ => false
/-- Job 7 of ring 0, running on one cell. -/
def job7 : Job := { Sch.newJob 7 0 0 (ring 3) jdesc with
  prog := [decNone], table := Tab.defaultTable, phase := .running, place := some ⟨false, 0, 0, 1, 1⟩, 
  cells := [(0, Starting.blankCell (List.replicate 32 1#128))], hgrant := [(0, 1)], hdone := [(0, 1)] }
def withJob (s : State) (j : Job) : State := s.setSched { s.sched with jobs := s.sched.jobs ++ [j] }
/-- A READY module that runs job j alone, its ring ENABLED. -/
def runs (j : Job) : State := withJob (withRing up 0 (ring 3)) j

theorem witness_ContextBindAndRoleSet :
    let tab := poke up 0x1000 (ascii "KXT1" ++ zeros 12)
    listens tab 0 ∧ Mbox.ready tab = true ∧ memClean tab ∧ Sparse.get? tab.host.ctx 0 = none ∧ 15 < 16 ∧
    (∀ j ∈ tab.sched.jobs, j.fn ≠ 15) ∧ (∀ r < 64, (ringAt tab.host r).owner = 15 → (ringAt tab.host r).state ∉ [3, 4]) ∧
    (0x1000#64).toNat + 16 + 16 * 1024 ≤ Config.recoveryBase ∧
    -- an empty table, accepted; empty memory, refused
    (slice (bytesOf tab 0x1000 16) 0 4 = ascii "KXT1" ∧ fld (bytesOf tab 0x1000 16) 4 4 = 0 ∧ fld (bytesOf tab 0x1000 16) 12 4 = 0 ∧
      (crc32c (bytesOf tab 0x1010 0)).toNat = fld (bytesOf tab 0x1000 16) 8 4 ∧ Mbox.runsOk tab 15 [] = true) ∧
    slice (bytesOf up 0x1000 16) 0 4 ≠ ascii "KXT1" ∧
    -- roles
    (0 < 3 ∧ 3 < 4 ∧ (0x1000#64) ≠ 0 ∧ tab.cache.role = 0 ∧ (0x1000#64).toNat + 64 ≤ Config.recoveryBase ∧
      CacheOps.descOk (bytesOf tab 0x1000 64) = false) := by
  refine ⟨by unfold listens; decide, by decide, ⟨rfl, Memory.wcOk_nil⟩, by decide, by decide, by decide, by decide, by decide,
    by decide +kernel, by decide +kernel, by decide +kernel⟩
theorem witness_Bar2ReadsAndWrites :
    Mbox.reachable up 0 = true ∧ memClean up ∧ (0xFFF#64).toNat % 4096 + 1 ≤ 4096 ∧ xlat up.host 0 0xFFF false = some 0xFFF ∧
    xlat up.host 0 0xFFF true = some 0xFFF ∧ 0 < [0xA5#8].length ∧ Mbox.reachable up 1 = true ∧ xlat up.host 1 0xFFF false = none ∧
    xlat up.host 1 0xFFF true = none := ⟨by decide, up_clean, by decide, by decide, by decide, by decide, by decide, by decide, by decide⟩
theorem witness_LinkTrainingAndConfiguration :
    up.pwr.phase = .good ∧ up.bu.step ≠ 0 ∧ up.bu.mpRunning = true ∧ State.reset.bu.mpRunning = false ∧ 1 ≤ 1 ∧ 30 ≤ (39#32).toNat ∧ (39#32).toNat ≤ (if 0 = 0 then 39 else 36) ∧
    (if 1 = 0 then 39 else 36) < (37#32).toNat ∧ (29#32).toNat < 30 := by decide
theorem witness_FunctionLevelResetEffect :
    let s := runs job7
    15 < 16 ∧ s.recov = none ∧ s.host.resetting = [] ∧ (ringAt s.host 0).state ≠ 0 ∧ (ringAt s.host 0).owner = 0 ∧
    s.sched.jobs.any (·.fn == 0) = true ∧ s.sched.jobs.any (·.fn == 15) = false ∧ (ringAt s.host 63).state = 0 := by decide +kernel
theorem witness_LinkResetEndsEveryFunction :
    up.recov = none ∧ up.sched.jobs = [] ∧ (∃ j ∈ (runs job7).sched.jobs, j.fn < 16) := by
  exact ⟨rfl, rfl, job7, by decide +kernel, by decide +kernel⟩
theorem witness_JobCompletionReports :
    let s := runs { job7 with phase := .ending }
    JobOps.find s.sched 7 = some { job7 with phase := .ending } ∧ Sch.mayComplete { job7 with phase := .ending } = true ∧
    Sch.mayComplete job7 = true ∧ s.bu.stopped = false ∧ memClean s ∧ s.recov = none ∧ s.host.resetting = [] ∧
    (∀ k ∈ s.sched.jobs, k.id ≠ 7 → k.phase ≠ .waiting) ∧ JDesc.numeric jdesc = 0 ∧ JDesc.completion jdesc ≠ 0 ∧
    JDesc.completion jdesc % 4096 + 32 ≤ 4096 ∧ xlat s.host 0 (JDesc.completion jdesc) true = some 0x21000 :=
  ⟨by decide +kernel, by decide +kernel, by decide +kernel, rfl, ⟨rfl, Memory.wcOk_nil⟩, rfl, rfl, by decide +kernel, by decide +kernel,
    by decide +kernel, by decide +kernel, by decide +kernel⟩
theorem witness_FunctionResetEndsWithItsLastJob :
    let j := { job7 with phase := .ending }
    let s := (runs j).setHost { (runs j).host with resetting := [0] }
    JobOps.find s.sched 7 = some j ∧ j.phase = .ending ∧ JobOps.still j = true ∧ s.bu.stopped = false ∧ memClean s ∧ s.recov = none ∧
    s.host.resetting = [j.fn] ∧ j.fn < 16 ∧ (∀ k ∈ s.sched.jobs, k.id ≠ 7 → k.phase ≠ .waiting ∧ k.fn ≠ j.fn) ∧
    xlat s.host 0 (JDesc.completion jdesc) true = some 0x21000 :=
  ⟨by decide +kernel, rfl, by decide +kernel, rfl, ⟨rfl, Memory.wcOk_nil⟩, rfl, rfl, by decide +kernel, by decide +kernel, by decide +kernel⟩
theorem witness_BlitzExpiryRunsAsUrgent :
    let j := { job7 with cls := 0, deadline := some 5000 }
    JobOps.find (runs j).sched 7 = some j ∧ j.deadline = some 5000 ∧ j.expired = false ∧ 5000 ≤ max (runs j).now 5000 := by decide +kernel
theorem witness_AdmissionTakesTheHeadEntry :
    memory1.bu.stopped = false ∧ (∀ y ∈ memory1.sched.jobs, y.phase ≠ .adjourned) ∧ 0 < 64 ∧ (ringAt memory1.host 0).state = 3 ∧
    (ringAt memory1.host 0).cls < 4 ∧ (∀ q < 64, q ≠ 0 → (ringAt memory1.host q).state ≠ 3) ∧
    (ringAt memory1.host 0).head ≠ (ringAt memory1.host 0).tail ∧ memory1.sched.jobs.length < Config.maxJobs ∧
    (ringAt memory1.host 0).cls ≠ 0 ∧ admits memory1 0 2 = true := by decide +kernel
theorem witness_AdjournmentFreesTheCells :
    let j := { job7 with phase := .adjourning }
    JobOps.find (runs j).sched 7 = some j ∧ j.phase = .adjourning ∧ Sch.mayAdjourn j = true ∧ (runs j).bu.stopped = false ∧ memClean (runs j) ∧
    (∀ y ∈ (runs j).sched.jobs, y.phase ≠ .waiting) :=
  ⟨by decide +kernel, rfl, by decide +kernel, rfl, ⟨rfl, Memory.wcOk_nil⟩, by decide +kernel⟩
theorem witness_ReplayResumesFromItsOwnContext :
    let j := { job7 with replay := true }
    JobOps.find (runs j).sched 7 = some j ∧ j.phase = .running ∧ j.replay = true ∧ Sch.mayAdjourn j = true ∧ (runs j).bu.stopped = false ∧
    memClean (runs j) := ⟨by decide +kernel, rfl, rfl, by decide +kernel, rfl, ⟨rfl, Memory.wcOk_nil⟩⟩
/-- One wrong symbol (the low byte of the line's first data symbol's place), and two. -/
def err1 : List Nat := 0 :: 5 :: List.replicate 34 0
theorem witness_CorrectedLinesAreWrittenBack :
    let s := up.setMem { up.mem with errs := [(1, err1)] }
    Sparse.get? s.mem.errs 1 = some err1 ∧ Memory.decodeErr s.mem.eccMode err1 = some [(1, 5)] := by decide +kernel
theorem witness_WriteCombiningKeepsWhatReadsSee :
    memClean up ∧ MemRows.up up = true ∧ Config.memTop - 1 + [0xA5#8].length ≤ Config.memTop := ⟨up_clean, by decide, by decide⟩
theorem witness_SupplyStages :
    State.reset.pwr.phase = .off ∧ 38000 ≤ 38000 ∧ (up.setPwr { up.pwr with phase := .overvolt }).pwr.phase = .overvolt ∧ 59999 < 60000 ∧
    (let s := up.setPwr { up.pwr with phase := .softStart, p48v := 40000 }
     s.pwr.phase = .softStart ∧ Starts.operating s.pwr.p48v = true) ∧ 35999 < 36000 ∧ 62000 ≤ 62000 ∧ up.pwr.phase ≠ .tripped := by decide
theorem witness_HardBrakeEntryAndRelease :
    let limit := Config.pwrLimit up.fuses.variant * 1150
    let hit := up.setPwr { up.pwr with brake := true, brakeEnd := 7 }
    up.pwr.phase = .good ∧ up.pwr.waiting = [] ∧
    ((36000 ≤ 48000 ∧ 48000 < 40000) ∨ (60000 < 48000 ∧ 48000 ≤ 62000) ↔ up.pwr.outBand = true) ∧ up.pwr.brake = false ∧ up.pwr.brakeOver = false ∧
    up.pwr.brakePin = false ∧ (up.setPwr { up.pwr with brakePin := true }).pwr.brakePin = true ∧
    limit < (BitVec.ofNat 32 (limit + 1)).toNat ∧ (BitVec.ofNat 32 limit).toNat ≤ limit ∧
    (hit.pwr.brake = true ∧ hit.pwr.brakePin = false ∧ hit.pwr.brakeOver = false ∧ hit.pwr.brakeEnd + 1000000 ≤ 1000007) := by decide
theorem witness_ControlWindowMovesTheClockTarget :
    let s := withRing (up.setPwr { up.pwr with winCount := 64, winSum := 64000 * (Config.pwrLimit up.fuses.variant + 1), overWins := 15 }) 0
      { ring 3 with cls := 0 }
    let p := s.pwr
    let wins := if Config.pwrLimit s.fuses.variant < p.winSum / p.winCount / 1000 then p.overWins + 1 else 0
    p.phase = .good ∧ 64 ≤ p.winCount ∧ (blitzEnabled s.host && decide (16 ≤ wins)) = true ∧ p.yieldPow = false ∧
    (up.setPwr { up.pwr with winCount := 64 }).pwr.phase = .good ∧ blitzEnabled up.host = false := by decide
theorem witness_TemperatureSamplesActAndTrip :
    let b := withRing up 0 { ring 3 with cls := 0 }
    up.pwr.phase = .good ∧ 115 ≤ (115#8).toInt ∧ (114#8).toInt < 115 ∧ 110 ≤ (110#8).toInt ∧ (109#8).toInt < 110 ∧
    -- a change of case, hold and throttle, and none
    ((blitzEnabled b.host && decide ((b.pwr.tTh : Int) + 10 ≤ (110#8).toInt)) != b.pwr.hot.contains 0) = true ∧
    (decide (105 < (106#8).toInt) != up.pwr.yieldHub) = true ∧ (decide (105 < (105#8).toInt) != up.pwr.yieldHub) = false ∧
    (decide (Memory.tempRow 0 (109#8).toInt = 3) != up.mem.throttle.contains 0) = true ∧
    (decide (Memory.tempRow 0 (50#8).toInt = 3) != up.mem.throttle.contains 0) = false := by decide
theorem witness_PtpInputsDisciplineTheClock :
    let s := (withPort up 23 (port .up)).setPtp { up.ptp with
      slave := some 23, sync := some (23, 5, 100), pdReq := [(23, 5, 10)], pdResp := [(23, 5, 20, 40)], state := 2, lastPps := some 0 }
    let pps := s.setFab { s.fab with ptpCtl := 0x200 }
    (Link.portAt s 23).state = .up ∧ s.ptp.slave = some 23 ∧ Time.source s = 1 ∧ s.ptp.sync = some (23, 5, 100) ∧
    Sparse.get? s.ptp.pdReq 23 = some (5, 10) ∧ Sparse.get? s.ptp.pdResp 23 = some (5, 20, 40) ∧
    (100 ≤ 100 ∧ 10 ≤ 10 ∧ Time.source pps = 2 ∧ ∀ t0 ∈ pps.ptp.lastPps, t0 + 900000000 ≤ 900000000) ∧
    (s.ptp.state = 2 ∧ s.ptp.slave.isSome ∧ s.ptp.lastSync + 375000000 ≤ 375000000) ∧
    (∃ t0 ∈ pps.ptp.lastPps, t0 + 1500000000 ≤ 1500000000) := by decide
theorem witness_PtpSending : (Link.portAt (withPort up 23 (port .up)) 23).state = .up := by decide
theorem witness_PortTrainingAndTimers :
    let tr := withPort up 0 { port .training with tryGen := 2 }
    let low := withPort up 0 { port .training with wasUp := true }
    let on := cabled (withPort up 0 { port .up with replaying := true, freed := [(0, 1)] })
    ((Link.portAt tr 0).state = .training ∧ (Link.portAt tr 0).stage % 2 = 0 ∧ 1 < (Link.portAt tr 0).tryGen) ∧
    ((Link.portAt low 0).tryGen ≤ 1 ∧ (Link.portAt low 0).wasUp = true ∧ Link.port0.wasUp = false) ∧
    ((Link.portAt (withPort up 0 (port .down)) 0).state = .down ∧ (Link.cfgAt up 0).enable = true ∧ (Link.cfgAt up 0).qmark = false ∧
      Link.port0.downAt + 1000000000 ≤ 1000000000) ∧
    ((Link.portAt on 0).state = .up ∧ Link.hasCable on 0 = true ∧ (Link.portAt on 0).replaying = true ∧ (Link.portAt on 0).freed ≠ (Link.portAt on 0).returned) ∧
    (Link.portAt (withPort up 0 (port .quarantined)) 0).state = .quarantined := by decide

/-- A sound frame. -/
def frame (kind vc hops len seq dst src tag index : Nat) (pay : Bytes) : Sys2Proof.Frame :=
  let h := Link.mkHeader kind vc hops len seq 4095 dst src tag index
  ⟨h, pay, none, Link.crcOf h pay none⟩
def taken (s : State) (p : Nat) (f : Sys2Proof.Frame) : Bool := match Link.receive s p f with
  | .take _ _ => true
  | .drop _ => false
set_option maxRecDepth 20000 in
theorem witness_FramesAreReceivedInOrder :
    let s := withPort up 0 (port .up)
    let x := Link.portAt s 0
    let req := fun seq hops => frame 1 0 hops 1 seq 0x0102 0x0103 7 0 (zeros 64)
    let ahead := fun f => (Link.seqOf f + 4096 - x.rxSeq) % 4096
    let sound := fun f : Sys2Proof.Frame => f.sec = none ∧ Link.crcOf f.header f.payload none = f.crc
    (Link.portAt (withPort up 0 (port .down)) 0).state = .down ∧
    Link.crcOf (req 0 0).header (req 0 0).payload none ≠ (req 0 0).crc + 1#32 ∧
    (x.state = .up ∧ x.crypt = false ∧ sound (req 0 0) ∧ Link.takesSeq (req 0 0) = true ∧ Link.seqOf (req 0 0) = x.rxSeq ∧
      Link.headerReason x (req 0 0) = none) ∧
    (sound (req 2047 0) ∧ Link.seqOf (req 2047 0) ≠ x.rxSeq ∧ ahead (req 2047 0) < 2048) ∧
    (sound (req 2048 0) ∧ Link.seqOf (req 2048 0) ≠ x.rxSeq ∧ 2048 ≤ ahead (req 2048 0)) ∧
    (let bad := frame 1 1 0 1 0 0x0102 0x0103 7 0 (zeros 64)
     sound bad ∧ Link.takesSeq bad = true ∧ Link.seqOf bad = x.rxSeq ∧ Link.headerReason x bad = some 3) ∧
    (let idle := frame 0 0 0 0 0 0 0 0 0 []
     sound idle ∧ Link.takesSeq idle = false ∧ Link.headerReason x idle = none) := by decide +kernel
set_option maxRecDepth 20000 in
theorem witness_LinkFramesAct :
    let link := fun b => frame 4 0 0 1 0 0 0 0 0 b
    let at_ := fun st stage => withPort up 0 { port st with stage := stage }
    let hello := link (Link.linkBlock 1 0 0 0x0103 3 0 0 0 [])
    let credit := link (Link.linkBlock 2 0 0 0 0 1 2 3 [])
    let replay := link (Link.linkBlock 3 0 9 0 0 0 0 0 [])
    (taken (at_ .training 1) 0 hello = true ∧ Link.kind hello = 4 ∧ Link.linkBad hello.payload = false ∧ fld hello.payload 0 1 = 1) ∧
    (taken (at_ .training 3) 0 hello = true ∧ (Link.cfgAt up 0).encrypt = false ∧ Link.port0.unacked = [] ∧ Link.port0.queue = []) ∧
    (taken (at_ .up 0) 0 credit = true ∧ Link.linkBad credit.payload = false ∧ fld credit.payload 0 1 = 2) ∧
    (taken (at_ .up 0) 0 replay = true ∧ Link.linkBad replay.payload = false ∧ fld replay.payload 0 1 = 3 ∧ Link.port0.tries ≠ (fld replay.payload 2 2, 8) ∧
      taken (withPort up 0 { port .up with tries := (9, 8) }) 0 replay = true ∧ (9, 8) = (fld replay.payload 2 2, 8)) ∧
    (∀ k ∈ [4, 5], let f := link (Link.linkBlock k 0x0C 0 0 0 0 0 0 [])
      taken (at_ .up 0) 0 f = true ∧ Link.linkBad f.payload = false ∧ fld f.payload 0 1 = k) := by decide +kernel
/-! Fabric: module 0x0102, port 0 UP to 0x0103. -/

def fab1 : State := withPort (up.setFab { up.fab with idValid := true, group := 1, member := 2, mbr := [(3, 1)] }) 0 { port .up with partner := 0x0103 }
def txnOf (op : Nat) : Txn := ⟨7, 0x0103, op, 0, 0, 64, [(0x1000, 64)], .opq 0 0, 0, [], none⟩
def waits (blk : Bytes) (units : Sparse Bytes) : Served := ⟨0x0103, 7, 0, blk, 0, 0, 0x1000, units⟩
def serves (x : Served) : State := fab1.setFab { fab1.fab with served := [x] }
def ok {α β : Type} (r : Except α β × State) : Bool := match r.1 with
  | .ok _ => true
  | .error _ => false

set_option maxRecDepth 20000 in
theorem witness_FabricFramesReachTheirTransaction :
    let s := fab1.setFab { fab1.fab with txns := [txnOf 3] }
    let r := fab1.setFab { fab1.fab with txns := [txnOf 1] }
    let w := serves { waits (Fab.reqBlock 2 0 64 0 0 0 []) [] with deny := 7 }
    let req := frame 1 0 0 1 0 0x0102 0x0103 7 0 (Fab.reqBlock 1 0 64 0 0 0 [])
    let resp := frame 3 1 0 1 0 0x0102 0x0103 7 0 (Fab.respBlock 0 9 [])
    let dataR := frame 2 1 0 1 0 0x0102 0x0103 7 0 (zeros 64)
    let dataW := frame 2 0 0 1 0 0x0102 0x0103 7 0 (zeros 64)
    (taken fab1 0 req = true ∧ Link.route fab1 (Link.dst req) (Link.src req) (Link.tag req) = .here ∧ Link.kind req = 1 ∧ Fab.blockBad req.payload = none) ∧
    (taken s 0 resp = true ∧ Link.kind resp = 3 ∧ (s.fab.txns.find? (·.tag == Link.tag resp)) = some (txnOf 3) ∧ Fab.reads 3 = false ∧
      Fab.rReason resp.payload = 0) ∧
    (taken r 0 dataR = true ∧ Link.kind dataR = 2 ∧ Link.vc dataR = 1 ∧ (r.fab.txns.find? fun y => y.tag == Link.tag dataR && Fab.reads y.op) = some (txnOf 1) ∧
      Fab.dataFits 64 dataR = true) ∧
    (taken w 0 dataW = true ∧ Link.vc dataW ≠ 1 ∧ (Fab.servedAt w 0x0103 7).isSome = true ∧ Fab.dataFits 64 dataW = true) := by
  decide +kernel
set_option maxRecDepth 20000 in
theorem witness_FabricFramesPassOrTimeOut :
    let pass := fun hops => frame 1 0 hops 1 0 0x0103 0x0104 7 0 (zeros 64)
    let lost := frame 1 0 0 1 0 0x0204 0x0103 7 0 (zeros 64)
    let s := fab1.setFab { fab1.fab with txns := [txnOf 3] }
    let w := serves (waits (Fab.reqBlock 2 0 64 0 0 0 []) [])
    (∀ h ∈ [6, 7], taken fab1 0 (pass h) = true ∧ Link.route fab1 0x0103 0x0104 7 = .port 0 ∧ Link.hops (pass h) = h) ∧
    (taken fab1 0 lost = true ∧ Link.route fab1 0x0204 0x0103 7 = .none) ∧
    (s.fab.txns.find? (·.tag == 7) = some (txnOf 3) ∧ (txnOf 3).issued + 10000000 ≤ 10000000) ∧
    (∃ x, Fab.servedAt w 0x0103 7 = some x ∧ Fab.writes (Fab.bOp x.blk) = true ∧ FabServe.complete x = false ∧ x.time + 10000000 ≤ 10000000 ∧
      Fab.bOp x.blk ≠ 7) := by
  refine ⟨by decide +kernel, by decide +kernel, by decide +kernel, waits (Fab.reqBlock 2 0 64 0 0 0 []) [], ?_⟩
  decide +kernel
/-- An operation queue with one FETCH_ADD record. -/
def queued : State := poke (fab1.setFab { fab1.fab with opq := [(15, ⟨0x40000, 4, 1, 0, 0, []⟩)] }) 0x40000
  (image 64 [(0, 1, 3), (1, 1, 1), (2, 2, 0x0103), (0x18, 4, 8)])
theorem witness_OpqRecordIssue :
    let o := Regs.opqAt queued 15
    15 < 16 ∧ o.next ≠ o.tail ∧ FabServe.outstanding queued 15 < 64 ∧ queued.bu.stopped = false ∧ txnLeft queued.sched 8 = true ∧
    energyLeft queued.sched 8 = true ∧ (match readLog queued 0 8 (Fab.recAddr o o.next) 64 with
      | (.ok b, _) => FabServe.recordOk b && Fab.isAtomic (fld b 0 1) && bit (fld b 1 1) 0 && o.head == o.next
      | _ => false) = true := by decide +kernel

/-! A served cache: two pages of 32 KiB, and a tree whose node 0 is keyed, owns page 0 and is leased. -/

def cdesc : Bytes := image 64 [(0, 8, 0x100000), (8, 8, 0xA0000), (0x10, 8, 0x80000), (0x18, 8, 0x90000), (0x30, 4, 2), (0x34, 4, 32768),
  (0x38, 4, 1), (0x3C, 1, 1), (0x3D, 1, 2), (0x3E, 2, 2)]
def node0 : Bytes := image 1088 [(0, 8, 5), (8, 8, CacheOps.mkEntry true true false false 0 0 0), (0x10, 4, 0xFFFFFFFF), (0x14, 4, 0xFFFFFFFF),
  (0x1C, 4, 3), (0x28, 8, 1000000), (0x30, 4, 1)]
def cached : State := poke (poke fab1 0x90000 (image 64 [(0, 8, 0x91000), (8, 8, 0x92000), (16, 8, 0x94000), (24, 4, 1), (28, 4, 2), (32, 4, 1)]))
  0x92000 node0
def roles (r : Nat) (x : Served) : State := (cached.setCache ⟨r, cdesc, 0xB0000, []⟩).setFab { fab1.fab with served := [x] }
def pageReq (op off len : Nat) (arg : Bytes) : Bytes := Fab.reqBlock op 0 len off (2 ^ 32 * 32768) 5 arg

theorem witness_ServedRequestsActOnMemory :
    let has := fun s x => Fab.servedAt s 0x0103 7 = some x ∧ txnLeft s.sched 8 = true ∧ energyLeft s.sched 8 = true
    let rd := waits (Fab.reqBlock 1 0 4096 0 0 0 []) []
    let wr := waits (Fab.reqBlock 2 0 64 0 0 0 []) [(0, [])]
    let deny := { rd with deny := 7 }
    (has (serves rd) rd ∧ rd.deny = 0 ∧ Fab.bOp rd.blk = 1 ∧ 0 < Fab.bLength rd.blk ∧ Fab.bLength rd.blk ≤ 4096) ∧
    (has (serves wr) wr ∧ wr.deny = 0 ∧ Fab.bOp wr.blk = 2 ∧ FabServe.complete wr = true) ∧ (has (serves deny) deny ∧ deny.deny ≠ 0) ∧
    (∀ op ∈ [3, 4, 5], let x := waits (Fab.reqBlock op 0 8 0 1 2 []) []
      has (serves x) x ∧ Fab.bOp x.blk = op) := by decide +kernel
theorem served_clean (x : Served) : memClean (serves x) := ⟨rfl, Memory.wcOk_nil⟩
theorem witness_ServedPages :
    let has := fun s x => Fab.servedAt s 0x0103 7 = some x ∧ txnLeft s.sched 8 = true ∧ energyLeft s.sched 8 = true
    let pageOk := fun (x : Served) => Fab.bOperand1 x.blk / 2 ^ 32 = CacheOps.pageBytes cdesc ∧ Fab.bOffset x.blk + Fab.bLength x.blk ≤ CacheOps.pageBytes cdesc
    let rd := waits (pageReq 6 28672 4096 []) []
    let wr := waits (pageReq 7 28672 4096 []) [(0, [])]
    let snd := waits (pageReq 7 28672 4096 [7#8]) [(0, [])]
    CacheOps.tree cdesc ≠ 0 ∧
    (has (roles 2 rd) rd ∧ Fab.bOp rd.blk = 6 ∧ FabServe.role (roles 2 rd) = 2 ∧ pageOk rd ∧
      (match JobOps.run (roles 2 rd) 8 (FabServe.pageLook (FabServe.via (roles 2 rd) rd) cdesc 0 rd.blk) with
        | (.ok (some _), u) => (FabServe.pageUnits u rd (CacheOps.poolBase cdesc + Fab.bOperand1 rd.blk % 2 ^ 32 * CacheOps.pageBytes cdesc +
            Fab.bOffset rd.blk) (List.range (Fab.unitsOf (Fab.bLength rd.blk)))).2
        | _ => false) = true) ∧
    (has (roles 2 wr) wr ∧ Fab.bOp wr.blk = 7 ∧ (CacheOps.parseReq (Fab.bArg wr.blk)).op ≠ 7 ∧ FabServe.role (roles 2 wr) = 2 ∧ pageOk wr ∧
      FabServe.complete wr = true ∧
      ok (JobOps.run (roles 2 wr) 8 (FabServe.recvInsert (FabServe.via (roles 2 wr) wr) cdesc 0 wr.blk (FabServe.dataOf wr))) = true) ∧
    (has (roles 3 snd) snd ∧ (CacheOps.parseReq (Fab.bArg snd.blk)).op = 7 ∧ FabServe.role (roles 3 snd) = 3 ∧
      ok (JobOps.run (roles 3 snd) 8 (FabServe.recvSend (FabServe.via (roles 3 snd) snd) cdesc 0 snd.blk (FabServe.dataOf snd))) = true) := by
  decide +kernel
theorem witness_ServedPrefix :
    let has := fun s x => Fab.servedAt s 0x0103 7 = some x
    let rq := fun op => waits (Fab.reqBlock 8 0 1024 0 0 0 [BitVec.ofNat 8 op]) [(0, zeros 1024)]
    ∀ op ∈ [1, 2, 4], let x := rq op
      has (roles 2 x) x ∧ Fab.bOp x.blk = 8 ∧ FabServe.role (roles 2 x) = 2 ∧ Fab.bLength x.blk = 1024 ∧ FabServe.complete x = true ∧
      (CacheOps.parseReq (Fab.bArg x.blk)).op = op ∧ (roles 2 x).cache.role ≠ 0 := by decide +kernel
theorem witness_ServedPrefixRuns :
    let rq := fun op => waits (Fab.reqBlock 8 0 1024 0 0 0 [BitVec.ofNat 8 op]) [(0, zeros 1024)]
    ok (JobOps.run (roles 2 (rq 1)) 8 (FabServe.remoteLookup (FabServe.via (roles 2 (rq 1)) (rq 1)) cdesc 0 0 (zeros 1024))) = true ∧
    ok (JobOps.run (roles 2 (rq 2)) 8 (FabServe.remoteInsert (FabServe.via (roles 2 (rq 2)) (rq 2)) cdesc 0 0 (zeros 1024))) = true ∧
    ok (JobOps.run (roles 2 (rq 4)) 8 (FabServe.remoteRelease (FabServe.via (roles 2 (rq 4)) (rq 4)) cdesc 0)) = true := by
  decide +kernel
theorem witness_NumericEffecterSetsOperatingPower :
    let limit := Config.pwrLimit up.fuses.variant
    Man.mctp up 0 = true ∧ (Mbox.policySet up 0 0x0300 600).status = 0 ∧ (Mbox.policySet up 0 0x0300 limit).status = 0 ∧
    (Mbox.policySet up 0 0x0300 599).status ≠ 0 ∧ (Mbox.policySet up 0 0x0300 (limit + 1)).status ≠ 0 ∧ Mbox.ready up = true ∧
    Mbox.belowReserved up 600 = false := by decide
theorem witness_MctpControlAndSensors :
    up.pwr.phase = .good ∧ up.ident.pinMode = 0 ∧ 0 < (1#8).toNat ∧ (254#8).toNat < 255 ∧ up.mgmt.queue.length ≤ 32 ∧
    (up.setMgmt { up.mgmt with queue := [.sensor 1 1] }).mgmt.queue = .sensor 1 1 :: [] ∧
    (∀ k ≤ 14, 1 ≤ k → Sparse.getD up.mgmt.states k 0 = Man.sensorState up k) := by decide
theorem witness_FirmwareUpdateRunsInSteps :
    let u : Update := ⟨0, true, true, [(1, 512), (2, 1), (3, 1), (4, 1)], true, true⟩
    let s := up.setMgmt { up.mgmt with update := some u }
    Man.mctp s 0 = true ∧ up.mgmt.update = none ∧ s.mgmt.update = some u ∧ u.binding = 0 ∧ (∀ e ∈ [(1, 12582909), (4, 1)], 1 ≤ e.1 ∧ e.1 ≤ 4) ∧
    (([(1, 12582909), (4, 1)].foldl (fun m e => Sparse.put m e.1 e.2) u.sizes).map (·.2)).sum ≤ 12582912 ∧
    u.passed = true ∧ (List.replicate 512 0#8).length ≤ 512 ∧ 0 + (List.replicate 512 0#8).length ≤ Sparse.getD u.sizes 1 0 ∧
    Starts.storeOk s.pwr 99999999 = false ∧ Starts.storeOk s.pwr 100000000 = true ∧ u.verified = true ∧ u.applied = true := by decide +kernel
theorem witness_SpdmRequestsAreServedInOrder :
    let s := up.setMgmt { up.mgmt with spdm := [(0, 3)] }
    Man.spdmUp up 0 = true ∧ Man.spdmUp up 2 = true ∧ Man.spdmState up 0 < 1 ∧ 3 ≤ Man.spdmState s 0 ∧ bit (0x80#32).toNat 7 = true ∧
    bit (2#32).toNat 1 = true := by decide
/-! Bring-up, recovery and stores. Which images authenticate and which combinations are tested is uninterpreted
(log 9): those clauses hold for either answer, and no test can show one. -/

/-- Step n running. -/
def stepping (n : Nat) (warm : Bool) : State := up.setBu { up.bu with step := n, phase := 0, warm := warm }
theorem witness_BringUpStepsDoTheirWork :
    let runs := fun (s : State) n => s.bu.step = n ∧ s.bu.phase = 0 ∧ s.pwr.phase = .good
    runs (stepping 1 false) 1 ∧ Recov.losesMemory (stepping 1 false) = false ∧ up.pwr.trip = none ∧ Recov.bootSlot (stepping 1 false) = none ∧
    -- a stack that trains and fails, and all of them sound
    runs (stepping 2 false) 2 ∧ ((List.range 8).filter fun k => !Bring.keepsTraining (stepping 2 false) k).filter [7].contains = 7 :: [] ∧
    ((List.range 8).filter fun k => !Bring.keepsTraining (stepping 2 false) k).filter ([] : List Nat).contains = [] ∧
    runs (stepping 3 true) 3 ∧ runs (stepping 4 false) 4 ∧ (stepping 4 false).bu.wavesOn = false ∧
    (let w := (stepping 4 false).setBu { (stepping 4 false).bu with wavesOn := true, waves := 15, lastWave := 0 }
     runs w 4 ∧ w.bu.wavesOn = true ∧ w.bu.lastWave + 40000 ≤ 40000 ∧ w.bu.lastWave + 540000 ≤ 540000) ∧
    runs (stepping 5 true) 5 ∧ (stepping 5 true).bu.warm = true ∧ (stepping 5 false).bu.warm = false ∧
    (let o := (stepping 6 false).setBu { (stepping 6 false).bu with override := true, overVers := some (Bring.versions up.bu) }
     runs o 6 ∧ o.bu.override = true ∧ o.bu.overVers = some (Bring.versions o.bu)) ∧
    runs (stepping 7 false) 7 ∧ Bring.recentPass (stepping 7 false) 0 = false ∧
    runs (stepping 8 false) 8 ∧ (∀ p < 24, (Link.cfgAt ((stepping 8 false).setFab { up.fab with
      cfg := (List.range 24).map fun p => (p, { Link.cfg0 with enable := false }) }) p).enable = false) ∧ runs (stepping 9 false) 9 ∧
    (let r := (stepping 7 false).setBu { (stepping 7 false).bu with auto := true, phase := 2, code := 0x0802 }
     r.bu.auto = true ∧ r.bu.phase = 2 ∧ r.bu.code = 0x0802) := by decide
theorem witness_aCellServes : 0 ∈ Bring.inServiceCells (stepping 7 false).bu := by
  unfold Bring.inServiceCells
  exact List.mem_filter.2 ⟨List.mem_range.2 (by decide), by decide⟩
theorem witness_ModuleLostFaultsAndRecovery :
    let old := fun n => up.setBu { up.bu with recent := List.replicate n 0 }
    let lost := up.setBu { up.bu with lostArg := some 5, recent := [0] }
    let warm := up.setBu { up.bu with restart := some true }
    let area := up.setRecov (some ⟨[(0, ring 4)], [], up.cache, 700, 100, 1900, [], [], up.fab⟩)
    Starts.operating up.pwr.p48v = true ∧ up.bu.warmEn = true ∧
    ((old 2).bu.recent.filter fun x => decide (3599999999999 < x + 3600000000000)).length < 3 ∧
    3 ≤ ((old 3).bu.recent.filter fun x => decide (3599999999999 < x + 3600000000000)).length ∧
    ((old 3).bu.recent.filter fun x => decide (3600000000000 < x + 3600000000000)).length < 3 ∧
    (lost.bu.lostArg.isSome = true ∧ Recov.hubsDone lost.sched = true ∧ lost.mem.fixes = [] ∧ lost.recov = none ∧ warm.bu.restart = some true) ∧
    (area.recov.isSome = true ∧ Mbox.ready area = true ∧ (∀ q < 16, Recov.openRecords area q = []) ∧ area.host.mbox = [] ∧
      area.host.resetting = [] ∧ area.bu.downFrom = none) ∧
    Recov.detected lost.bu + 50000000 ≤ 50000000 := by decide
theorem witness_ModuleLostMemory : memClean (up.setBu { up.bu with lostArg := some 5 }) := ⟨rfl, Memory.wcOk_nil⟩
theorem witness_CastlingStoresAndCables :
    let c := up.setBu { up.bu with castling := [⟨3, 16, false, [195]⟩], withdrawn := [195] }
    let st := up.setLog { up.log with toFlash := [⟨0, 0, 0x0801, 0x7000, 0, 0, 0, 1, 0⟩] }
    let mk := fun q => (up.setBu { up.bu with maskDirty := true }).setFlash { up.flash with mask0 := ⟨q, true, []⟩ }
    (Castle.due c.bu 3 ≠ [] ∧ Castle.vacated c ((Castle.due c.bu 3).flatMap (·.lids)) = true ∧ ∀ e ∈ Castle.due c.bu 3, e.col < 17) ∧
    Starts.storeOk up.pwr 100000000 = true ∧ Starts.storeOk up.pwr 99999999 = false ∧ st.log.toFlash ≠ [] ∧
    ((mk 4).bu.maskDirty = true ∧ Starts.newerMask up.flash = none ∧ Starts.newerMask (mk 4).flash = some ⟨4, true, []⟩ ∧
      4 + 1 < 2 ^ 32) ∧
    ((up.setIdent { up.ident with vcblOff := [5] }).ident.vcblOff.contains 5 = true ∧ up.ident.vcblOff.contains 5 = false ∧ up.ident.pinMode = 0) := by
  decide
theorem witness_ScrubPositionSurvivesWarmStart :
    let at_ := fun (slot cw : Nat) => up.setMem { up.mem with slot := slot, codeword := cw }
    MemRows.up (at_ 466032 63) = true ∧ 62 < 63 ∧ 63 ≤ (at_ 466032 63).mem.codeword ∧ (at_ 466031 63).mem.slot < 466032 ∧
    466032 ≤ (at_ 466032 63).mem.slot ∧ Recov.hubsDone up.sched = true ∧ (up.setBu { up.bu with warmEn := false }).bu.warmEn = false ∧
    (up.setPwr { up.pwr with phase := .softStart }).pwr.phase = .softStart ∧ up.bu.recovering = false ∧ Mbox.ready up = true := by decide
theorem witness_StepRunsTheFrontCommand : up.pending = [] := rfl
theorem witness_EveryStepKeepsStandingState :
    standing (up.setPending [.budgetPeriod]) ∧ ∃ t, step (up.setPending [.budgetPeriod]) = .next t :=
  ⟨⟨by decide, Memory.wcOk_nil, by decide⟩, _, rfl⟩
theorem witness_EveryCommandCompletes :
    2 ≤ level2.ident.level ∧ level2.pwr.phase ≠ .scanned ∧ Config.memTop - 1 < Config.memTop ∧ Config.memTop ≤ Config.memTop := by decide
/-! Cells. A 1 x 1 FP32 tile, station descriptors over slots, and jobs that run them on one cell. -/

def tile1 : Tile := ⟨1, 1, 1, 1, 1, false, toLe 4 0x40000000, ⟨List.replicate 8 0, 0xFF, 0xFF⟩⟩
/-- A descriptor of LEVEL and OUT_LEVEL lv with IN_A, IN_B, OUT. -/
def desc (st lv a b out op : Nat) : Bytes := image 64 [(0, 1, st), (1, 1, 0x80), (2, 1, 17 * lv), (4, 1, a), (5, 1, b), (6, 1, 0xFF), (7, 1, out),
  (0x10, 4, 1), (0x14, 2, 1), (0x16, 1, 1), (0x17, 1, 1), (0x18, 2, op)]
def cell1 : CellRun := { Starting.blankCell (List.replicate 32 1#128) with slots := [(0, ⟨2, tile1, 0⟩), (1, ⟨2, tile1, 0⟩)] }
def cellJob (prog : List Bytes) (c : CellRun) : Job := { job7 with prog := prog, cells := [(0, c)], hgrant := [], hdone := [] }
/-- Level 0 of the default table claimed, with BOUND 10, and a plot-store window. -/
def claimTable : Bytes := splice (splice Tab.defaultTable 0x40 (toLe 4 10)) 0x4A [1#8]
def claimJob (c : CellRun) : Job := { cellJob [desc Desc.fn 0 0 0xFF 2 1] c with table := claimTable, wins := [(0, 0)] }
theorem witness_ClaimsFollowTheProtocol :
    let fresh := { cell1 with tag := 1 }
    let asks := fun (c : CellRun) => let x := claimJob c
      JobOps.find (runs x).sched 7 = some x ∧ Cells.cellOf x 0 = some c ∧ JobOps.live x = true ∧ (runs x).bu.stopped = false ∧ c.sent = [] ∧
      Cells.wantsValue x c = true
    let answered := fun (tag v : Nat) => { fresh with ask := some ⟨1, 6⟩, answers := [(tag, v)] }
    -- a new tag, one that stands in OWNER (zeros), and a request that was sent again
    asks fresh ∧ (JobOps.wcOwner (runs (claimJob fresh)).sched (claimJob fresh) 0).1 ≠ fresh.tag ∧ (claimJob fresh).reclaim = [] ∧
    { claimJob fresh with reclaim := [3] }.reclaim = 3 :: [] ∧
    asks cell1 ∧ (JobOps.wcOwner (runs (claimJob cell1)).sched (claimJob cell1) 0).1 = cell1.tag ∧
    { fresh with sent := [0, 1] }.sent = 0 :: [1] ∧
    -- answers: accepted below BOUND and at it, and discarded
    ((answered 1 9).answers = (1, 9) :: [] ∧ (∀ a, (answered 1 9).ask = some a → a.tag = 1) ∧ ¬ Cells.claimBound (claimJob fresh) ≤ 9 ∧
      Cells.claimBound (claimJob fresh) ≤ 10 ∧ (answered 2 9).answers = (2, 9) :: [] ∧ ∀ a, (answered 2 9).ask = some a → a.tag ≠ 2) ∧
    ((answered 1 9).ask = some ⟨1, 6⟩ ∧ 6 < 7) := by
  refine ⟨by decide +kernel, by decide +kernel, by decide +kernel, rfl, by decide +kernel, by decide +kernel, rfl,
    ⟨rfl, fun a h => by cases h; rfl, by decide +kernel, by decide +kernel, rfl, fun a h => by cases h; decide⟩, rfl, by decide⟩
theorem witness_TileStepIssue :
    let x := cellJob [desc Desc.fn 7 0 0xFF 2 1] cell1
    JobOps.find (runs x).sched 7 = some x ∧ Cells.cellOf x 0 = some cell1 ∧ Cells.mayIssue (runs x) x 0 0 = true ∧ Cells.funded (runs x) x 0 = true ∧
    Desc.station (x.descAt 0) ≠ Desc.load ∧ Desc.station (x.descAt 0) ≠ Desc.store ∧ x.espalier = false ∧
    (match Cells.checkCells x 0 [0] with | .ok => true | _ => false) = true := by decide +kernel
theorem witness_TileStepComplete :
    let c := { cell1 with flights := [Cells.flight0 0 0 0 0], issued := [(0, 1)] }
    let x := cellJob [desc Desc.fn 7 0 0xFF 2 1] c
    Cells.cellOf x 0 = some c ∧ Cells.flightOf c 0 = some (Cells.flight0 0 0 0 0) ∧
    Cells.mayComplete (runs x) x 0 0 c (Cells.flight0 0 0 0 0) = true ∧ (runs x).bu.stopped = false := by decide +kernel
def matDesc : Bytes := splice (desc Desc.mat 7 0 1 2 0) 0x22 [1#8]
def blockOf : Block := ⟨0, 0, 1, 1, [], [], ⟨List.replicate 8 0, 0xFF, 0xFF⟩⟩
theorem witness_MatReloadsAndSwaps :
    let f := Cells.flight0 0 0 0 0
    let c := { cell1 with flights := [f] }
    let x := cellJob [matDesc] c
    Cells.matFlight x c = some f ∧ Cells.mayReload x c f = true ∧
    ({ c with shadow := some blockOf }.shadow = some blockOf ∧ blockOf.d = f.d ∧ blockOf.exec = x.execOf f.d f.n) := by decide +kernel
theorem witness_SumLinkTransfer :
    let c := { cell1 with queue := [⟨0, 0, 0, none⟩] }
    let x := { cellJob [matDesc] c with desc := splice jdesc 0x70 [1#8], place := some ⟨true, 0, 0, 0, 0⟩, table := splice Tab.defaultTable 2 [1#8] }
    Cells.cellOf x 0 = some c ∧ c.queue = ⟨0, 0, 0, none⟩ :: [] ∧ x.espalier = true ∧ x.partOf 0 0 = 0 / 32 ∧
    Cells.arriving x c 0 ⟨0, 0, 0, none⟩ = some none := by decide +kernel
/-- A MAT whose epilogue has a softmax stage, its row complete. -/
def softJob (c : CellRun) : Job := cellJob [matDesc, image 64 [(0, 1, 8), (1, 1, 0x80), (2, 1, 0x77), (4, 4, 0xFFFFFFFF), (0x10, 4, 1), (0x14, 2, 1),
  (0x16, 1, 1), (0x17, 1, 1), (0x20, 5, 8 + 7 * 256), (0x3E, 1, 1)]] c
theorem witness_SoftmaxCompletionStep :
    let c := { cell1 with soft := [(0, ⟨[], [], [(0, 1, 1, [])], 0, true⟩)], issued := [(0, 1)], done := [(0, 1)] }
    let x := softJob c
    Cells.softKey x c 0 = some 0 ∧ Cells.softReady x c 0 = some 0 ∧ JobOps.live x = true ∧ c.halt = false ∧ Cells.softFirst (runs x) x 0 0 0 = true ∧
    energyLeft (runs x).sched (JobOps.budget (runs x) x) = true := by decide +kernel
/-- A SCAT step of one row into sequence 0 of the cache, whose entry 0 holds page 0. -/
def scatState (x : Job) : State := poke (poke (runs x) 0xA0000 (image 32 [(0, 8, 0xA1000), (16, 4, 1)])) 0xA1000
  (toLe 8 (CacheOps.mkEntry true false false false 0 1 0))
theorem witness_AtomicUnitRequest :
    let f := Cells.flight0 0 0 0 0
    let target : Tile := { tile1 with fmt := 1, data := zeros 8 }
    let c := { cell1 with flights := [f], slots := [(0, ⟨2, tile1, 0⟩), (1, ⟨2, target, 0⟩)] }
    let x := { cellJob [desc Desc.scat 7 0 1 0xFF 0] c with cacheD := cdesc }
    let s := scatState x
    let a := (Cells.operand x c 0 0 0 0 0).getD (Cells.nullOf (x.descAt 0))
    let row := Cells.runNum ((List.range a.vc).mapM fun k => a.decode f.row k)
    (c.flights.find? fun f => Desc.station (x.descAt f.d) == Desc.scat) = some f ∧ f.row < Cells.scatRows x c 0 0 0 ∧
    (match JobOps.run s (JobOps.budget s x) (Scat.row (JobOps.viaAt s x (JobOps.cellSrc x 0) 0) x.cacheD s.now (x.descAt 0) 0 row.1) with
      | (.ok (.ok, _, _), u) => JobOps.find u.sched 7 == some x
      | _ => false) = true := by decide +kernel
theorem witness_FirstOverflowAndIteration :
    let c := { cell1 with report := some (0x0209, 0, 64) }
    let x := cellJob [desc Desc.fn 7 0 0xFF 2 1] c
    let l := { cellJob [desc Desc.fn 7 0 0xFF 2 1] { cell1 with done := [(0, 1)], issued := [(0, 1)] } with loop := some (image 64 [(0x18, 2, 2)]) }
    (Cells.cellOf x 0 = some c ∧ x.phase ≠ .ending ∧ { x with phase := .ending }.phase = .ending) ∧
    (JobOps.live l = true ∧ l.epoch + 1 < JobOps.niter l ∧ JobOps.cellsDone l = true ∧ JobOps.hubDone l = true ∧ l.hexec = []) := by decide +kernel
theorem witness_OverlongStepTimeout :
    let f := Cells.flight0 0 0 0 0
    let c := { cell1 with flights := [f] }
    let x := cellJob [desc Desc.fn 7 0 0xFF 2 1] c
    let key : FaultKey := ⟨0x0302, some 0, 0, 0, 0⟩
    JobOps.find (runs x).sched 7 = some x ∧ Sparse.get? x.cells 0 = some c ∧ c.flights.find? (·.d == 0) = some f ∧ key ∉ x.faults ∧
    key ∈ { x with faults := [key] }.faults := by decide +kernel
/-! Hub executions: a job of one hub descriptor, ready and not granted. What a standard's syntax says is uninterpreted
(log 31): clauses whose case it decides hold for either answer, and no test can show one. -/

/-- A hub descriptor of a station, with further fields. -/
def hubDesc (st : Nat) (l : List (Nat × Nat × Nat)) : Bytes :=
  image 64 ([(0, 1, st), (1, 1, 0x80), (2, 1, 0x77), (4, 4, 0xFFFFFFFF)] ++ l)
def hubJob (d : Bytes) : Job := { job7 with prog := [d], hgrant := [], hdone := [] }
/-- The same with work in progress. -/
def working (d : Bytes) (w : HubWork) : Job := { hubJob d with hgrant := [(0, 1)], hexec := [⟨0, 0, w⟩] }
def sampleDesc : Bytes := hubDesc 0x12 [(0x10, 4, 1), (0x20, 8, 0x40000), (0x28, 8, 0x50000), (0x30, 4, 2)]
/-- AVC 64 x 64 at constant QP, state area at 0x60000, ring at 0x70000; a picture at 0x80000. -/
def encSess : Bytes := image 64 [(0, 1, 3), (1, 1, 100), (2, 1, 40), (3, 1, 8), (4, 2, 64), (6, 2, 64), (8, 4, 30), (0xC, 4, 1), (0x15, 1, 26),
  (0x17, 1, 51), (0x18, 1, 16), (0x19, 1, 1), (0x1A, 1, 1), (0x1B, 1, 1), (0x20, 8, 0x60000), (0x28, 4, 20480), (0x30, 8, 0x70000)]
def encPic : Bytes := image 128 [(0, 8, 0x80000), (8, 8, 0x82000), (0x10, 4, 64), (0x42, 2, 0xFFFF)]
def encDesc : Bytes := hubDesc 0x13 [(0x20, 8, 0x40000), (0x28, 8, 0x41000), (0x30, 4, 1)]
def encArea0 : EncArea := ⟨false, 0, 0, [], []⟩
def encWork0 : EncWork := Enc.work encSess encPic 0x40000 0x41000 encArea0 (List.replicate 16 0) []
def withEnc (s : State) : State := poke (poke (poke s 0x40000 encSess) 0x41000 encPic) 0x70000 (image 64 [(0, 8, 0x71000), (8, 4, 4096)])
/-- HEVC 64 x 64, two buffers, generations at 0xC0000, ring at 0x70000; an access unit of 16 bytes. -/
def decSess : Bytes := image 64 [(0, 1, 2), (1, 1, 8), (2, 2, 64), (4, 2, 64), (6, 1, 2), (8, 4, 30), (0xC, 4, 1), (0x10, 8, 0x100000),
  (0x18, 4, 8192), (0x1C, 4, 64), (0x20, 8, 0xC0000), (0x28, 8, 0x60000), (0x30, 8, 0x70000)]
def decDesc : Bytes := hubDesc 0x14 [(0x20, 8, 0x40000), (0x28, 8, 0x41000), (0x30, 4, 1)]
def decWork0 : DecWork := Dec.work 0x40000 decSess Codecs.decInit 0x60000 (image 32 [(0, 8, 0x42000), (8, 4, 16)]) (zeros 16)
def withDec (s : State) : State :=
  poke (poke (poke s 0x40000 decSess) 0x41000 (image 32 [(0, 8, 0x42000), (8, 4, 16)])) 0x70000 (image 64 [(0, 8, 0x71000), (8, 4, 4096)])
/-- A queue at 0x44000 of one entry at 0x45000. -/
def ingDesc : Bytes := hubDesc 0x10 [(0x20, 8, 0x44000), (0x28, 8, 0x70000)]
def ingWork : DecWork := { Dec.work 0 [] Codecs.decInit 0 [] [] with started := false }
def withQueue (s : State) (e : Bytes) (wr : Nat) : State :=
  poke (poke (withDec s) 0x44000 (image 64 [(0, 8, 0x45000), (8, 4, 1), (0xC, 4, wr)])) 0x45000 e
def audioEntry : Bytes := image 64 [(0x14, 1, 1), (0x24, 1, 1)]
def pfxDesc : Bytes := hubDesc 0x15 [(0x20, 8, 0x46000), (0x28, 4, 1)]
def runSample : State := JobOps.refreshReady (runs (hubJob sampleDesc))
def isOk {α : Type} (s : State) (k : Nat) (a : MM α) (f : α → State → Bool) : Bool := match JobOps.run s k a with
  | (.ok x, u) => f x u
  | _ => false

theorem witness_HubExecutionsAreGranted :
    let next := fun (s : State) (x : Job) => JobOps.find (JobOps.refreshReady s).sched 7 = some x ∧ s.bu.stopped = false ∧
      Hub.isNext (JobOps.refreshReady s) x 0 = true
    let x := hubJob sampleDesc
    next (runs x) x ∧ classOpen runSample (JobOps.budget runSample x) = true ∧ energyLeft runSample.sched (JobOps.budget runSample x) = true ∧
    Hub.isNext (JobOps.refreshReady (runs job7)) job7 0 = false ∧
    isOk runSample (JobOps.budget runSample x) (Hub.unitWork x (Hub.viaOf runSample x 0x12 0) 0 0) (fun m u =>
      (JobOps.find (JobOps.spend (JobOps.tally u 7 none 0 0 0 m []) x m.energy).sched 7).isSome) = true ∧
    next (runs (hubJob ingDesc)) (hubJob ingDesc) ∧ Desc.station ingDesc = 0x10 ∧
    -- no executions in the descriptor, and one
    next (runs (hubJob (hubDesc 0x14 []))) (hubJob (hubDesc 0x14 [])) ∧ fld (hubDesc 0x14 []) 0x30 4 ≤ 0 := by decide +kernel
theorem witness_PrefixGrant :
    let x := { hubJob pfxDesc with cacheD := cdesc }
    let s := JobOps.refreshReady (poke (runs x) 0x46000 (image 32 [(0, 1, 6)]))
    JobOps.find s.sched 7 = some x ∧ Hub.isNext s x 0 = true ∧ classOpen s (JobOps.budget s x) = true ∧ 0 < fld pfxDesc 0x28 4 ∧
    isOk s (JobOps.budget s x) (Pfx.fetchReq (Hub.viaOf s x 0x15 0) pfxDesc cdesc 0 0) (fun _ u => JobOps.find u.sched 7 == some x) = true ∧
    Pfx.wellFormed cdesc (CacheOps.parseReq (image 32 [(0, 1, 6)])) = true ∧ Pfx.wellFormed cdesc (CacheOps.parseReq (image 32 [(0, 1, 8)])) = false ∧
    Pfx.permitted 0 (CacheOps.parseReq (image 32 [(0, 1, 7)])) = false := by decide +kernel
theorem witness_HubExecutionsComplete :
    let plain := working sampleDesc .plain
    let coded : EncWork := { encWork0 with rows := List.replicate 4 (26, 8) }
    let enc := working encDesc (.enc coded)
    let pfx := working pfxDesc (.pfx ⟨image 32 [(0, 1, 1)], 0x46000, 0, 0, 0, 0, 0, 0, 0, 0, none, some (0, some 1)⟩)
    Hub.first plain 0 = some ⟨0, 0, .plain⟩ ∧ JobOps.find (runs plain).sched 7 = some plain ∧
    (JobOps.find (withEnc (runs enc)).sched 7 = some enc ∧ Hub.first enc 0 = some ⟨0, 0, .enc coded⟩ ∧ coded.rows.length = Enc.nrows coded.sess ∧
      coded.heldRows = 0 ∧ coded.spent = none ∧ Hub.stationOf enc 0 = 0x13) ∧
    (Hub.stationOf pfx 0 = 0x15 ∧ JobOps.find (runs pfx).sched 7 = some pfx ∧
      isOk (runs pfx) (JobOps.budget (runs pfx) pfx) (do
        let v := Hub.viaOf (runs pfx) pfx 0x15 0
        MM.put v (0x46000 + 1) 1 0
        MM.put v (0x46000 + 0xC) 4 1) (fun _ u => JobOps.find u.sched 7 == some pfx) = true) := by decide +kernel
theorem witness_IngestCompletes :
    let w := { ingWork with started := true, last := true, fin := true, unit := audioEntry }
    let x := { working ingDesc (.dec w) with ingest := [(0, ⟨0, [], 0, [], []⟩)] }
    Hub.first x 0 = some ⟨0, 0, .dec w⟩ ∧ Hub.stationOf x 0 = 0x10 ∧ Sparse.get? x.ingest 0 = some ⟨0, [], 0, [], []⟩ ∧ 0 = Sparse.getD x.hdone 0 0 ∧
    Ing.shown x 0 0 w = true ∧ isOk (withQueue (runs x) audioEntry 1) 7 (MM.put (Hub.viaOf (runs x) x 0x10 0) (Ing.queueAddr ingDesc + 0x10) 4 1)
      (fun _ _ => true) = true := by decide +kernel
theorem witness_CodecRowsAndChunks :
    let x := working encDesc (.enc encWork0)
    let s := withEnc (runs x)
    let full : EncWork := { encWork0 with rows := List.replicate 4 (26, 8), hold := List.replicate 32 false, heldRows := 4 }
    let y := working encDesc (.enc full)
    (s.bu.stopped = false ∧ JobOps.find s.sched 7 = some x ∧ classOpen s 7 = true ∧ Hub.first x 0 = some ⟨0, 0, .enc encWork0⟩ ∧
      encWork0.rows.length < Enc.nrows encWork0.sess ∧ Enc.sliceFull encWork0 = false ∧ Enc.inputReady s x encWork0 0 = true ∧
      isOk s 7 (Enc.pixels (Hub.viaOf s x 0x13 0) encWork0 0) (fun p _ => p.1.length == 1024) = true) ∧
    (Hub.first y 0 = some ⟨0, 0, .enc full⟩ ∧ Enc.sliceFull full = true ∧
      isOk s 7 (do
        let r ← Codecs.readRing (Hub.viaOf s y 0x13 0) (Enc.out full.sess)
        pure (Codecs.hasRoom r (Enc.chunk full).length)) (fun b _ => b) = true ∧ Enc.outEvt full.pic = 0xFFFF) := by decide +kernel
theorem witness_DecodedPictures :
    let x := working decDesc (.dec decWork0)
    let got : PicOut := ⟨decSess, 0x60000, zeros 64⟩
    let held : DecWork := { decWork0 with out := [got] }
    Ing.decoding x 0 0 = some decWork0 ∧ decWork0.sess.isEmpty = false ∧ Ing.decoding (working decDesc (.dec held)) 0 0 = some held ∧
    isOk (withDec (runs x)) 7 (Ing.output (Hub.viaOf (runs x) x 0x14 0) 0 (working decDesc (.dec held)) 0 0 0 held)
      (fun t _ => match t with | some t => t.pic.isNone && t.work.out.isEmpty | none => false) = true ∧
    (let v := working ingDesc (.dec { held with started := true })
     Hub.exec? v 0 (Sparse.getD v.hdone 0 0) = some ⟨0, 0, .dec { held with started := true }⟩ ∧ Hub.stationOf v 0 = 0x10 ∧
     isOk (withDec (runs v)) 7 (Dec.deliver (Hub.viaOf (runs v) v 0x10 0) (Ing.deliv ingDesc) got) (fun b _ => b) = true) := by decide +kernel
theorem witness_LiveGroups :
    let group := image 64 [(0, 1, 1), (4, 4, 1000000), (8, 4, 40000000)]
    let r : IngRun := ⟨0, group, 0, [], []⟩
    let x := { working (hubDesc 0x10 [(0x20, 8, 0x44000), (0x28, 8, 0x70000), (0x30, 8, 0x47000)]) (.dec ingWork) with ingest := [(0, r)] }
    let s := withQueue (runs x) audioEntry 0
    Sparse.get? x.ingest 0 = some r ∧ r.group.isEmpty = false ∧ (∃ y ∈ x.hexec, y.d = 0) ∧
    isOk s 7 (Ing.emitTick (Hub.viaOf s x 0x10 0) x 0 0 r) (fun o _ => o.isNone) = true ∧
    isOk s 7 (Ing.emitTick (Hub.viaOf s x 0x10 0) x 0 50000000 r) (fun o _ => match o with | some (_, m) => m != 0 | none => false) = true := by
  refine ⟨by decide +kernel, by decide +kernel, ⟨⟨0, 0, .dec ingWork⟩, by decide +kernel, rfl⟩, by decide +kernel, by decide +kernel⟩
/-! PREFIX requests in work: on this module, and with another one. -/

/-- A request word with its NODE_IN resolved, as the first step finds it. -/
def asking (req : Bytes) (nodeIn : Nat) : PfxWork := ⟨req, 0x46000, nodeIn, 0, 0, 0, 0, 0, 0, 0, none, none⟩
def pfxWorking (w : PfxWork) : Job := { working pfxDesc (.pfx w) with cacheD := cdesc }
/-- The served cache with one free page, and a sequence of one entry e whose tokens lie at 0xA4000. -/
def entryState (e : Nat) (x : Job) : State :=
  poke (poke (poke (withJob (withRing cached 0 (ring 3)) x) 0xA0000 (image 32 [(0, 8, 0xA1000), (8, 8, 0xA4000), (16, 4, 1), (20, 4, 1)])) 0xA1000
    (toLe 8 e)) 0x80000 (image 16 [(0, 8, 1), (8, 4, 1)])
theorem witness_PrefixRequestsRun :
    let local_ := fun (op : Nat) => asking (image 32 [(0, 1, op)]) CacheOps.none32
    let far := fun (op : Nat) => asking (image 32 [(0, 1, 128 + op), (0x10, 2, 0x0103)]) CacheOps.none32
    let own := CacheOps.mkEntry true false false false 256 1 0
    let remote := CacheOps.mkEntry true false true false 256 0x0103 5
    let has := fun (e : Nat) (w : PfxWork) => let x := pfxWorking w
      JobOps.find (entryState e x).sched 7 == some x && Hub.first x 0 == some ⟨0, 0, .pfx w⟩ && w.fin == none && w.stage == 0 &&
        txnLeft (entryState e x).sched (JobOps.budget (entryState e x) x) && (Fab.freeTag (entryState e x)).isSome
    let runs := fun (e : Nat) (w : PfxWork) (tagged : Bool) (f : Option (CacheOps.PRes × Option (Nat × Nat)) → Bool) =>
      let x := pfxWorking w
      let s := entryState e x
      has e w && isOk s (JobOps.budget s x) (Pfx.ownOp (Hub.viaOf s x 0x15 0) cdesc 0 w tagged) (fun y _ => f y)
    let opens := fun (e : Nat) (w : PfxWork) (f : Except Nat (Nat × Nat × Nat × Bytes) → State → Bool) => let x := pfxWorking w
      let s := entryState e x
      has e w && isOk s (JobOps.budget s x) (Pfx.opening (Hub.viaOf s x 0x15 0) cdesc 0 w) f
    let ok := fun (q : Except Nat (Nat × Nat × Nat × Bytes)) => match q with
      | .ok _ => true
      | .error _ => false
    (∀ op ∈ [3, 4, 6], runs own (local_ op) true (fun y => match y with | some (_, none) => true | _ => false) = true) ∧
    runs remote (local_ 4) true (fun y => match y with | some (_, some _) => true | _ => false) = true ∧
    runs remote (local_ 4) false (fun y => y.isNone) = true ∧
    opens 0 (far 1) (fun q _ => ok q) = true ∧ opens own (far 1) (fun q _ => !ok q) = true ∧ opens own (far 2) (fun q _ => ok q) = true ∧
    opens own (local_ 7) (fun q u => ok q && (let x := pfxWorking (local_ 7)
      isOk u (JobOps.budget u x) (MM.read (Hub.viaOf u x 0x15 0) 0x100000 4096) (fun b _ => b.length == 4096))) = true ∧
    opens remote (local_ 5) (fun q u => ok q && (xlatRun u.host 0 0x108000 4096 true).isSome) = true := by decide +kernel
/-- A state without a free TAG: every TAG still rests. -/
def resting (l : List Nat) : State := up.setFab { up.fab with cooling := l.map fun k => (k, 1) }
theorem resting_all (l : List Nat) (k : Nat) (h : k ∈ l) :
    (resting l).fab.cooling.any (fun c => c.1 == k && decide ((resting l).now < c.2)) = true :=
  List.any_eq_true.2 ⟨(k, 1), List.mem_map.2 ⟨k, h, rfl⟩, by simp [show (resting l).now = 0 from rfl]⟩
theorem witness_NoFreeTag : Fab.freeTag (resting (List.range 4096)) = none :=
  List.find?_eq_none.2 fun k hk => by simp [resting_all _ k hk]
/-! Further clauses and boundaries of statements above. -/

theorem witness_SessionCloseOfAnotherFunction :
    let ses : Session := ⟨0x2000, 15, 3, 1, true, 0, 0⟩
    listens up 0 ∧ [ses].filter (fun y => y.addr == (0x2000#64).toNat) = ses :: [] ∧ ∀ y ∈ [ses], y.fn ≠ 0 := by unfold listens; decide
theorem witness_Bar2Boundaries :
    let spent := up.setSched { up.sched with budgets := [(9, { budgetAt up.sched 9 with limTxn := 0 })] }
    Bar.opens up 0 0xFFF 1 = true ∧ Bar.opens up 15 0 64 = true ∧ txnLeft up.sched 9 = true ∧ txnLeft spent.sched 9 = false ∧
    Bar.opens spent 0 0xFFF 1 = true := by decide
theorem witness_LinkTrainingBoundaries :
    (State.reset.pwr.phase ≠ .good ∨ State.reset.bu.step = 0) ∧ (3#32 = 3#32 ∨ (3#32 ≠ 0 ∧ 0 ∈ up.host.d3)) ∧
    ¬ (2#32 = 3#32 ∨ (2#32 ≠ 0 ∧ 0 ∈ up.host.d3)) ∧ 7 ≤ (9#32).toNat ∧ (9#32).toNat ≤ 9 ∧ ¬ (10#32).toNat ≤ 9 ∧ ¬ 7 ≤ (6#32).toNat ∧
    (12#32).toNat ≤ 12 ∧ ¬ (13#32).toNat ≤ 12 ∧ (30#32).toNat ≤ 39 ∧ (15#32).toNat ≤ 15 ∧ ¬ (16#32).toNat ≤ 15 := by decide
/-- A PTP message of type k from the peer of port 0, sequence 5; the asker of its answers is port 0 of this module. -/
def ptpMsg (k : Nat) (s : State) : Bytes :=
  splice (image 64 [(0, 1, k), (1, 1, 2), (6, 1, 2), (31, 1, 5)]) 44 (toBe 10 (Time.portId s 0))
def ptpFrame (k dst hops : Nat) (s : State) : Sys2Proof.Frame := frame 5 2 hops 1 0 dst 0x0103 0 0 (ptpMsg k s)
/-- PTP over port 0, whose peer is the master: its Sync 5 and this port's request 5 are noted. -/
def synced : State := fab1.setPtp { fab1.ptp with
  slave := some 0, masters := [(0, Time.mDataset (ptpMsg 0xB fab1))], sync := some (0, 5, 100), pdReq := [(0, 5, 10)], pdResp := [(0, 5, 20, 40)], state := 1 }
set_option maxRecDepth 20000 in
theorem witness_PtpFramesAreTaken :
    let here := fun k => match Link.receive (tick synced 0) 0 (ptpFrame k 0x0102 0 synced) with
      | .take f u => Link.kind f == 5 && Link.dst f == Link.myId u && Time.mType f.payload == k && Time.mVersion f.payload == 2 &&
          Time.mDomain f.payload == Time.domain u && Time.mTwoStep f.payload && Time.mSeq f.payload == 5 && Time.source u == 1 &&
          u.ptp.slave == some 0 && u.ptp.sync == some (0, 5, 100) && Sparse.get? u.ptp.pdReq 0 == some (5, 10) &&
          Sparse.get? u.ptp.pdResp 0 == some (5, 20, 40) && (Sparse.get? u.ptp.masters 0).map (·.sender) == some (Time.mSender f.payload) &&
          Time.mAsker f.payload == Time.portId u 0
      | .drop _ => false
    (∀ k ∈ [0, 2, 3, 8, 0xA, 0xB], here k = true) ∧
    (match Link.receive (tick synced 0) 0 (ptpFrame 0 0x0103 6 synced) with
      | .take f u => Link.kind f == 5 && Link.dst f != Link.myId u && Link.hops f == 6 &&
          (match Link.routePtp u (Link.dst f) (Link.src f) (Link.tag f) with | .port q => q == 0 | _ => false)
      | .drop _ => false) = true := by decide +kernel
set_option maxRecDepth 20000 in
theorem witness_BadFramesAndBlocks :
    let req := frame 1 0 0 1 0 0x0102 0x0103 7 0 (Fab.reqBlock 9 0 64 0 0 0 [])
    let resp := frame 3 1 7 1 0 0x0103 0x0104 7 0 (Fab.respBlock 0 9 [])
    let dataP := frame 2 0 6 1 0 0x0103 0x0104 7 0 (zeros 64)
    let link := frame 4 0 0 1 0 0 0 0 0 (Link.linkBlock 6 0 0 0 0 0 0 0 [])
    let w := serves (waits (Fab.reqBlock 2 0 64 0 0 0 []) [])
    let spent := w.setSched { w.sched with budgets := [(8, { budgetAt w.sched 8 with limTxn := 0 })] }
    let dataW := frame 2 0 0 1 0 0x0102 0x0103 7 0 (zeros 64)
    (taken fab1 0 req = true ∧ (Fab.blockBad req.payload).isSome = true) ∧ (taken fab1 0 link = true ∧ Link.kind link = 4 ∧ Link.linkBad link.payload = true) ∧
    (taken fab1 0 resp = true ∧ Link.route fab1 0x0103 0x0104 7 = .port 0 ∧ 7 ≤ Link.hops resp) ∧
    (taken fab1 0 dataP = true ∧ Link.hops dataP < 7) ∧
    (taken spent 0 dataW = true ∧ (Fab.servedAt spent 0x0103 7).map (·.deny) = some 0 ∧ txnLeft spent.sched 8 = false) ∧
    (∀ st ∈ [PortState.quarantined, .disabled, .down], (Link.portAt (withPort up 0 (port st)) 0).state = st) ∧
    ((Link.portAt (withPort up 0 (port .training)) 0).state = .training ∧ Link.crcOf req.header req.payload req.sec ≠ req.crc + 1#32) := by decide +kernel
theorem witness_AtomicsWaitTheirTurn :
    let old := { waits (Fab.reqBlock 3 0 8 0 1 2 []) [] with tag := 6 }
    let x := waits (Fab.reqBlock 5 0 8 0 1 2 []) []
    let s := fab1.setFab { fab1.fab with served := [old, x] }
    Fab.servedAt s 0x0103 7 = some x ∧ Fab.bOp x.blk = 5 ∧ ¬ s.fab.served.find? (fun y => Fab.isAtomic (Fab.bOp y.blk)) = some x ∧
    s.fab.served.find? (fun y => Fab.isAtomic (Fab.bOp y.blk)) = some old ∧ (roles 2 x).cache.role ≠ 0 := by decide +kernel
theorem witness_PollAcknowledges :
    (up.setMgmt { up.mgmt with queue := [.sensor 1 1], given := true }).mgmt.given = true ∧ up.mgmt.given = false := by decide
theorem witness_TableWritesRunAgain :
    let c := { cell1 with redo := [(0, 0, 0)] }
    let x := cellJob [desc Desc.fn 7 0 0xFF 2 1] c
    Cells.redoes (runs x) x 0 0 = true ∧ Cells.funded (runs x) x 0 = true ∧
    Cells.redoes (runs (cellJob [desc Desc.fn 7 0 0xFF 2 1] cell1)) (cellJob [desc Desc.fn 7 0 0xFF 2 1] cell1) 0 0 = false := by decide +kernel
/-! ### Worked examples and tables of the spec -/

def num {α : Type} (x : NumM α) : α := (x.run ⟨0, 0, 0⟩).1
/-- spec/07, the worked cases of R154 and R155. -/
theorem test_exp2_and_log2 :
    Num.toBits (num (Fn.exp2 (Num.ofBits 0xC0500000))) = 0x3DD744FD ∧ Num.toBits (num (Fn.log2 (Num.ofBits 0x40C00000))) = 0x40257006 ∧
    Fn.tableT.getD 48 0 = 0x3FD744FD ∧ Fn.tableL.getD 32 0 = 0x3F15C01A ∧ Fn.tableRC.getD 32 0 = 0x3F2AAAAB := by decide +kernel
/-- spec/04, the worked example of R92: FP8 E5M2 products below the guard bits are dropped whole. -/
theorem test_mat_drops_below_the_guard_bits :
    let lane := fun (a w : Nat) => (num (Fmt.readElt 5 a), num (Fmt.readElt 5 w))
    Num.toBits (num (Calc.colsumFloat 127 127 (lane 0x3C 0x3C :: List.replicate 31 (lane 0x06 0x04)))) = 0x3F800000 := by decide +kernel
/-- spec/04, the worked example of R98 and R95's rounding of 464 and above in E4M3. -/
theorem test_block_conversion :
    let v := fun (b : Nat) => Num.ofBits b
    let row := [v 0x43960000, v 0x3A83126F, v 0x3A6BEDFA]
    Fmt.blockCode 4 row = 127 ∧ row.map (fun x => num (Fmt.conv 4 127 none x)) = [0x79, 0x01, 0x00] ∧
    ((Fmt.conv 4 127 none (v 0x3A6BEDFA)).run ⟨0, 0, 0⟩).2.flush = 1 ∧
    num (Fmt.conv 4 127 none (v 0x43E80000)) = 0x7E ∧ ((Fmt.conv 4 127 none (v 0x43E88000)).run ⟨0, 0, 0⟩).2.sat = 1 := by decide +kernel
/-- spec/09, the worked example of R213: token 2 of a row, with KEPT 3. -/
theorem test_sample_chooses :
    let x := image 64 [(0x30, 4, 6), (0x34, 4, 0x3FB8AA3B), (0x38, 4, 0x3F4CCCCD), (0x3C, 2, 4)]
    num (Hub.Sample.choose x ([3, 5, 5, 1, 4, 2].map Num.ofNat) 0xA0000000) = (2, 3, true) := by decide +kernel
/-- spec/13, the worked example of R297. -/
theorem test_memory_map :
    Memory.channelOf 0x2345679C40 = 25 ∧ Memory.stackOf 0x2345679C40 = 1 ∧ Memory.dataOffset 0x2345679C40 = 665720896 ∧
    Memory.checkOffset 0x2345679C40 = 665722248 ∧ Memory.lineAddr 25 144470 49 = 0x2345679C40 := by decide +kernel
set_option maxRecDepth 20000 in
/-- spec/13 R298: a line with its check symbols is a codeword, so no syndrome sees anything. -/
theorem test_codeword_has_no_syndrome :
    let d : Bytes := (List.range 64).map fun i => BitVec.ofNat 8 (7 * i + 1)
    let c := (List.range 32).map (fun s => fld d (2 * s) 2) ++ Memory.checkSymbols d
    ([1, 2, 3, 4].map fun k => Memory.syndrome c k) = [0, 0, 0, 0] := by decide +kernel
/-- spec/14, the worked example of R328: with port 8 down the frame leaves on port 0, with all four up on port 8. -/
theorem test_route_spreads :
    let on := fun (l : List Nat) => { up.fab with idValid := true, group := 3, member := 5, grp := [(7, 0x1111)], port := l.map fun p => (p, port .up) }
    let goes := fun l => match Link.route (up.setFab (on l)) 0x0712 0x0305 0x0A1 with
      | .port p => some p
      | _ => none
    goes [0, 4, 12] = some 0 ∧ goes [0, 4, 8, 12] = some 8 := by decide +kernel
/-- spec/15, the worked example of R357: the state word beside STATUS 0x0102 while five jobs are admitted. -/
theorem test_state_word :
    let j := { Sch.newJob 7 12 0 (ring 3) jdesc with fn := 3 }
    Mbox.stateWord (up.setSched { up.sched with jobs := List.replicate 5 j }) 3 3 = 0x0000000500030009 := by decide +kernel
/-- spec/20, the worked example of R460: a 2,000 W operating power and no blitz ring. -/
theorem test_power_loop :
    Pwr.nextTarget 1850 2000 1700 400 1700 = 1700 ∧ Pwr.nextTarget 2150 2000 1700 400 1700 = 1500 ∧ Pwr.nextTarget 1930 2000 1500 400 1700 = 1500 ∧
    Pwr.nextTarget 1880 2000 1500 400 1700 = 1525 := by decide
/-- spec/19, the worked example of R443: a table of two entries, the second read only. -/
theorem test_translation :
    let h := { up.host with ctx := [(3, [⟨0, 0x40000, 0x01000000, true, true⟩, ⟨0x40000, 16, 0x01040000, false, true⟩])] }
    xlat h 3 0x23456780 true = some 0x1023456780 ∧ xlat h 3 0x40008000 true = none ∧ xlat h 3 0x40008000 false = some 0x1040008000 ∧
    xlat h 3 0x40010000 false = none := by decide
/-- spec/18, the worked example of R418: the columns that a row's map serves. -/
theorem test_castling_map :
    (Starts.clearCols 0x400).take 16 = [0, 1, 2, 3, 4, 5, 6, 7, 8, 9, 11, 12, 13, 14, 15, 16] ∧
    (Starts.clearCols 0x2400).take 16 = [0, 1, 2, 3, 4, 5, 6, 7, 8, 9, 11, 12, 14, 15, 16] := by decide +kernel
/-- spec/11, the worked example of R254 and R255: the budget, and the base QPs of rows 2, 5 and 8. -/
theorem test_rate_control :
    let b := image 64 [(0, 1, 2), (2, 1, 40), (3, 1, 8), (4, 2, 1920), (6, 2, 1080), (8, 4, 60), (0xC, 4, 1), (0x10, 4, 6000000), (0x14, 1, 1),
      (0x15, 1, 30), (0x17, 1, 40), (0x18, 1, 16), (0x19, 1, 8)]
    let w := fun (rows : List (Int × Nat)) => { encWork0 with
      sess := b
      rows := rows
      q0 := 30
      budget := 95000
      key := false
      area := { encArea0 with carry := 40000 } }
    Enc.rf b = 100000 ∧ Enc.budgetOf b false 40000 = 95000 ∧
    Enc.rowQp b (w (List.replicate 2 (30, 9000))) = 31 ∧ Enc.rowQp b (w (List.replicate 2 (30, 9000) ++ List.replicate 3 (31, 8000))) = 32 ∧
    Enc.rowQp b (w (List.replicate 2 (30, 9000) ++ List.replicate 3 (31, 8000) ++ List.replicate 3 (32, 7100))) = 33 := by decide +kernel
/-! ### The check on commands: an ill-formed one for each of its checks, and a well-formed one for each command -/

theorem test_wf_refuses_1 : ([.registerWrite 16 0 4 0#64, .registerWrite 0 0 2 0#64, .registerWrite 0 0x1000000 4 0#64, .pwrInRead 16 0 4, .pwrInRead 0 0 2,
     .pwrInRead 0 0x1000000 4, .jobRingDoorbell 16 0 0#32, .jobRingDoorbell 0 64 0#32, .tmNumClear 16 0#32, .sealEnWrite 16 0#32,
     .eccModeWrite 16 0#32, .memSealBaseWrite 16 0#64, .fabIdWrite 16 0#32, .fabPtpSetWrite 16 0#64, .portRelease 16 0 0#32, .portRelease 0 24 0#32,
     .portEnable 16 0 0#32, .portEnable 0 24 0#32, .fabOpqTailWrite 16 0 0#32, .fabOpqTailWrite 0 16 0#32, .buStepWrite 16 0#32,
     .idUnlockWrite 16 0#64, .idDebugLock 16 0#32, .fabPortKeyWrite 16 0 0 0 0#512, .fabPortKeyWrite 0 24 0 0 0#512, .fabPortKeyWrite 0 0 2 0 0#512,
     .fabPortKeyWrite 0 0 0 2 0#512, .tmObsSelWrite 16 0 0#32, .tmObsSelWrite 0 4 0#32, .getState 16 0#32, .getInfo 16 0#32,
     .ringAssign 16 0#32 0#64 0#64] : List Instr).all (fun c => !c.wf) = true := by decide
theorem test_wf_refuses_2 : ([.ringSetup 16 0#32 0#64 0#64 0#64, .ringEnable 16 0#32 0#64, .ringDisable 16 0#32 0#64, .contextBind 16 0#32 0#64 0#64,
     .sessionClose 16 0#32 0#64 0#64, .roleSet 16 0#32 0#64 0#64, .policySet 16 0#32 0#64 0#64, .eventRead 16 0#32 0#64 0#64 0#64,
     .eventAck 16 0#32 0#64, .override 16 0#32 0#64, .restart 16 0#32 0#64, .functionLevelReset 16, .pcieLinkTraining 3 1, .pcieLinkTraining 4 3,
     .bar2Read 16 0#64 1, .bar2Read 0 0#64 0, .bar2Write 16 0#64 [0#8], .bar2Write 0 0#64 [], .tileStepIssue 0 3072 0, .tileStepIssue 0 0 1024,
     .tileStepComplete 0 3072 0, .tileStepComplete 0 0 1024, .sumLinkTransfer 0 3072 0, .stationaryReload 0 3072, .shadowSwap 0 3072,
     .firstOverflowFault 0 3072, .claimRequest 0 3072, .claimAnswer 0 3072, .meshTimeout 0 3072, .softmaxCompletionStep 0 3072 0,
     .softmaxCompletionStep 0 0 1024, .hubExecutionGrant 0 1024] : List Instr).all (fun c => !c.wf) = true := by decide
theorem test_wf_refuses_3 : ([.hubExecutionComplete 0 1024, .encBlockRow 0 1024, .encChunkEmit 0 1024, .decPictureOutput 0 1024 0, .ingestEntry 0 1024, .ingestDelivery 0 1024,
     .liveTickEmit 0 0 1024, .prefixLookup 0 1024, .prefixInsert 0 1024, .prefixFork 0 1024, .prefixRelease 0 1024, .prefixFetch 0 1024,
     .prefixEvict 0 1024, .prefixSend 0 1024, .atomicUnitRequest 0 3072, .wcWriteMerge 0x30018 0 [], .wcWriteMerge 0 (Config.memTop) [0#8],
     .wcIdleFlush 0 (Config.memTop), .correctionWriteback (Config.memTop), .stackTempSample 8 0#8, .portTraining 0 24 false, .trainingLockTimeout 0 24,
     .portRetryTimer 0 24, .idle 0 24 ⟨0#96, [], none, 0#32⟩, .req 0 24 ⟨0#96, [], none, 0#32⟩, .read 65536 0, .read 0 4096, .write 65536 0,
     .write 0 4096, .fetchAdd 65536 0, .fetchAdd 0 4096, .cmpSwap 65536 0] : List Instr).all (fun c => !c.wf) = true := by decide
theorem test_wf_refuses_4 : ([.cmpSwap 0 4096, .swap 65536 0, .swap 0 4096, .pageRead 65536 0, .pageRead 0 4096, .pageWrite 65536 0, .pageWrite 0 4096, .prefixRequest 65536 0,
     .prefixRequest 0 4096, .data 0 24 ⟨0#96, [], none, 0#32⟩, .resp 0 24 ⟨0#96, [], none, 0#32⟩, .linkHello 0 24 ⟨0#96, [], none, 0#32⟩,
     .linkCredit 0 24 ⟨0#96, [], none, 0#32⟩, .linkReplay 0 24 ⟨0#96, [], none, 0#32⟩, .linkNak 0 24 ⟨0#96, [], none, 0#32⟩,
     .linkQuarantine 0 24 ⟨0#96, [], none, 0#32⟩, .replayRequestRepeat 0 24, .idleSendTimer 0 24, .creditReturnTimer 0 24, .quarantineBeacon 0 24,
     .forwardQueueTimeout 0 24, .transactionTimeout 0 4096, .targetWriteTimeout 0 65536 0, .targetWriteTimeout 0 0 4096, .opqRecordIssue 16,
     .announce 0 24 ⟨0#96, [], none, 0#32⟩, .sync 0 24 ⟨0#96, [], none, 0#32⟩, .followUp 0 24 ⟨0#96, [], none, 0#32⟩,
     .pdelayReq 0 24 ⟨0#96, [], none, 0#32⟩, .pdelayResp 0 24 ⟨0#96, [], none, 0#32⟩, .pdelayRespFollowUp 0 24 ⟨0#96, [], none, 0#32⟩,
     .powerSample 0 0 0 0#32 []] : List Instr).all (fun c => !c.wf) = true := by decide
theorem test_wf_refuses_5 : ([.cellTempSample 3264 0#8, .memTrain [8], .cellFirmware [3264], .knownAnswer [(3264, 0#32, 0#32)] [], .knownAnswer [] [(24, 0#32, 0#32)],
     .linkTrain [], .overlongStepTimeout 0 3072 0, .overlongStepTimeout 0 0 1024, .castlingMapChange 192 [], .castlingMapChange 0 [(17, none)],
     .castlingReturn 192, .mpWatchdogTimeout 0 4, .lockstepMismatch 0 4, .setEndpointId 2 0#8, .getEndpointId 2, .getMctpVersionSupport 2 0#8,
     .getMessageTypeSupport 2, .pollForPlatformEventMessage 2 false, .setNumericEffecter 2 0#16 0#32, .requestUpdate 2 0 0, .passComponentTable 2 [],
     .firmwareComponentTransfer 0 2 0 0 [], .firmwareComponentTransfer 0 0 65536 0 [], .verifyComplete 2, .applyComplete 2, .activateFirmware 0 2,
     .cancelUpdate 2, .getVersion 3, .getCapabilities 3, .negotiateAlgorithms 3 0#32 0#32, .getDigests 3, .getCertificate 3 0 0 0] : List Instr).all (fun c => !c.wf) = true := by decide
theorem test_wf_refuses_6 : ([.getCertificate 0 16 0 0, .challenge 3 0 0#256, .challenge 0 16 0#256, .getMeasurements 3 0 false 0#256, .getMeasurements 0 256 false 0#256,
     .cablePoll 0 6 none, .vcblOvercurrent 6, .memAccess 8 none, .memAccess 0 (some []), .configurationRequest 16 0 0#32,
     .configurationRequest 0 8 0#32, .syndromeLockLoss 0 24] : List Instr).all (fun c => !c.wf) = true := by decide
theorem test_wf_admits_1 : ([.registerWrite 0 0 4 0#64, .pwrInRead 0 0 4, .jobRingDoorbell 0 0 0#32, .tmNumClear 0 0#32, .sealEnWrite 0 0#32, .eccModeWrite 0 0#32,
     .memSealBaseWrite 0 0#64, .fabIdWrite 0 0#32, .fabPtpSetWrite 0 0#64, .portRelease 0 0 0#32, .portEnable 0 0 0#32, .fabOpqTailWrite 0 0 0#32,
     .buStepWrite 0 0#32, .idUnlockWrite 0 0#64, .idDebugLock 0 0#32, .fabPortKeyWrite 0 0 0 0 0#512, .tmObsSelWrite 0 0 0#32, .getState 0 0#32,
     .getInfo 0 0#32, .ringAssign 0 0#32 0#64 0#64, .ringSetup 0 0#32 0#64 0#64 0#64, .ringEnable 0 0#32 0#64, .ringDisable 0 0#32 0#64,
     .contextBind 0 0#32 0#64 0#64, .sessionClose 0 0#32 0#64 0#64, .roleSet 0 0#32 0#64 0#64, .policySet 0 0#32 0#64 0#64,
     .eventRead 0 0#32 0#64 0#64 0#64, .eventAck 0 0#32 0#64, .override 0 0#32 0#64, .restart 0 0#32 0#64, .functionLevelReset 0] : List Instr).all (fun c => c.wf) = true := by decide
theorem test_wf_admits_2 : ([.functionResetJobEnd 0, .perstNAssert, .linkHotReset, .pcieLinkTraining 4 1, .bar2Read 0 0#64 1, .bar2Write 0 0#64 [0#8], .admissionDecision,
     .adjournContextWrite 0, .jobCompletion 0, .budgetPeriod, .blitzDeadlineExpiry 0 0, .tileStepIssue 0 0 0, .tileStepComplete 0 0 0,
     .sumLinkTransfer 0 0 0, .stationaryReload 0 0, .shadowSwap 0 0, .firstOverflowFault 0 0, .claimRequest 0 0, .claimAnswer 0 0, .meshTimeout 0 0,
     .softmaxCompletionStep 0 0 0, .loopIterationAdvance 0, .hubExecutionGrant 0 0, .hubExecutionComplete 0 0, .encBlockRow 0 0, .encChunkEmit 0 0,
     .decPictureOutput 0 0 0, .ingestEntry 0 0, .ingestDelivery 0 0, .liveTickEmit 0 0 0, .prefixLookup 0 0, .prefixInsert 0 0] : List Instr).all (fun c => c.wf) = true := by decide
theorem test_wf_admits_3 : ([.prefixFork 0 0, .prefixRelease 0 0, .prefixFetch 0 0, .prefixEvict 0 0, .prefixSend 0 0, .leaseLapse 0 0, .atomicUnitRequest 0 0,
     .wcWriteMerge 0 0 [], .wcIdleFlush 0 0, .correctionWriteback 0, .scrubRead, .stackTempSample 0 0#8, .portTraining 0 0 false,
     .trainingLockTimeout 0 0, .portRetryTimer 0 0, .idle 0 0 ⟨0#96, [], none, 0#32⟩, .req 0 0 ⟨0#96, [], none, 0#32⟩, .read 0 0, .write 0 0,
     .fetchAdd 0 0, .cmpSwap 0 0, .swap 0 0, .pageRead 0 0, .pageWrite 0 0, .prefixRequest 0 0, .data 0 0 ⟨0#96, [], none, 0#32⟩,
     .resp 0 0 ⟨0#96, [], none, 0#32⟩, .linkHello 0 0 ⟨0#96, [], none, 0#32⟩, .linkCredit 0 0 ⟨0#96, [], none, 0#32⟩,
     .linkReplay 0 0 ⟨0#96, [], none, 0#32⟩, .linkNak 0 0 ⟨0#96, [], none, 0#32⟩, .linkQuarantine 0 0 ⟨0#96, [], none, 0#32⟩] : List Instr).all (fun c => c.wf) = true := by decide
theorem test_wf_admits_4 : ([.replayRequestRepeat 0 0, .idleSendTimer 0 0, .creditReturnTimer 0 0, .quarantineBeacon 0 0, .forwardQueueTimeout 0 0, .transactionTimeout 0 0,
     .targetWriteTimeout 0 0 0, .opqRecordIssue 0, .announce 0 0 ⟨0#96, [], none, 0#32⟩, .sync 0 0 ⟨0#96, [], none, 0#32⟩,
     .followUp 0 0 ⟨0#96, [], none, 0#32⟩, .pdelayReq 0 0 ⟨0#96, [], none, 0#32⟩, .pdelayResp 0 0 ⟨0#96, [], none, 0#32⟩,
     .pdelayRespFollowUp 0 0 ⟨0#96, [], none, 0#32⟩, .ptpSyncTimer 0, .ptpAnnounceTimer 0, .ptpPdelayTimer 0, .ppsInEdge 0 0 0, .ptpSourceLoss 0,
     .p48vRise 0, .powerGood 0, .p48vUndervoltage 0, .p48vOvervoltage 0, .powerSample 0 0 0 0#32 (List.replicate 19 (0#16, 0#32)), .pwrBrakeNFall 0,
     .brakeRelease 0, .controlWindow, .cellTempSample 0 0#8, .hubTempSample 0#8, .hubBoot [], .memTrain [], .memInit] : List Instr).all (fun c => c.wf) = true := by decide
theorem test_wf_admits_5 : ([.cellWaves, .cellWave 0 false, .defectMap, .cellFirmware [], .knownAnswer [] [], .linkTrain (List.replicate 6 none), .ready, .stepRetryTimer 0,
     .warmStart 0, .jobReplay 0, .overlongStepTimeout 0 0 0, .castlingMapChange 0 [], .castlingReturn 0, .moduleLostFault 0 0#64,
     .mpWatchdogTimeout 0 0, .lockstepMismatch 0 0, .recoveryRestore 0, .flashLogStore 0, .fieldMaskStore 0, .setEndpointId 0 0#8, .getEndpointId 0,
     .getMctpVersionSupport 0 0#8, .getMessageTypeSupport 0, .pldmSensorUpdate 0, .pollForPlatformEventMessage 0 false,
     .setNumericEffecter 0 0#16 0#32, .requestUpdate 0 0 0, .passComponentTable 0 [], .firmwareComponentTransfer 0 0 0 0 [], .verifyComplete 0,
     .applyComplete 0, .activateFirmware 0 0] : List Instr).all (fun c => c.wf) = true := by decide
theorem test_wf_admits_6 : ([.cancelUpdate 0, .getVersion 0, .getCapabilities 0, .negotiateAlgorithms 0 0#32 0#32, .getDigests 0, .getCertificate 0 0 0 0,
     .challenge 0 0 0#256, .getMeasurements 0 0 false 0#256, .cablePoll 0 0 none, .vcblOvercurrent 0, .tapReset, .extest 0#23, .idcode,
     .jtagSample 0#23, .preload 0#23, .highz, .clamp, .intScan, .memAccess 0 none, .bypass 0#8, .p48vOvervoltageClear 0, .pwrBrakeNRise 0,
     .configurationRequest 0 0 0#32, .syndromeLockLoss 0 0, .recoveryCutBound 0, .recentFaultAgeOut 0, .taiYearChange 0#16] : List Instr).all (fun c => c.wf) = true := by decide
/-! The longest evaluations: a picture, an access unit and a queue entry with a state area used for the first time. -/

theorem witness_EncGrant :
    let x := hubJob encDesc
    let s := JobOps.refreshReady (withEnc (runs x))
    JobOps.find s.sched 7 = some x ∧ Hub.isNext s x 0 = true ∧ classOpen s 7 = true ∧ energyLeft s.sched 7 = true ∧ 0 < fld encDesc 0x30 4 ∧
    isOk s 7 (Enc.fetch (Hub.viaOf s x 0x13 0) encDesc 0) (fun g u => g.offs == some (List.replicate 16 0) && allZero g.head &&
      match Codecs.bind u true x 0x40000 0 (Codecs.units 64 64 30 1) with
      | .ok w _ => JobOps.find w.sched 7 == some x
      | _ => false) = true := by decide +kernel
theorem witness_DecGrant :
    let x := hubJob decDesc
    let s := JobOps.refreshReady (withDec (runs x))
    JobOps.find s.sched 7 = some x ∧ Hub.isNext s x 0 = true ∧ classOpen s 7 = true ∧ 0 < fld decDesc 0x30 4 ∧
    isOk s 7 (Dec.fetch (Hub.viaOf s x 0x14 0) decDesc 0) (fun g u => (match g.2.2 with | some (h, _) => allZero h | none => false) &&
      match Codecs.bind u false x 0x40000 0 (Codecs.units 64 64 30 1) with
      | .ok w _ => JobOps.find w.sched 7 == some x
      | _ => false) = true := by decide +kernel
theorem witness_QueueEntries :
    let x := working ingDesc (.dec ingWork)
    let video := image 64 [(0, 8, 0x40000), (8, 8, 0x42000), (0x10, 4, 16)]
    let looks := fun (s : State) (f : Ing.Seen → Bool) => isOk s 7 (Ing.look (Hub.viaOf s x 0x10 0) x 0 0 0) (fun g _ => f g)
    Ing.pending x 0 = some ⟨0, 0, .dec ingWork⟩ ∧ looks (withQueue (runs x) video 0) (fun g => !g.ready) = true ∧
    looks (withQueue (runs x) video 1) (fun g => g.ready && g.ok && Ing.eKind g.entry == 0 && (Ing.decodingOn x 0 (Ing.eSession g.entry)).isNone &&
      allZero g.head) = true ∧
    looks (withQueue (runs x) audioEntry 1) (fun g => g.ready && !g.ok) = true := by decide +kernel

end Tests
end Sys2Proof
end

section
/-! PROOF. Corrected lines (spec/13_stacked_memory.md R300): what a read of a correctable line answers and notes, and what
CORRECTION_WRITEBACK makes of the correction on its way. -/

namespace Sys2Proof

theorem Sparse.getD_upd {α : Type} (m : Sparse α) (k j : Nat) (d : α) (f : α → α) :
    getD (upd m k d f) j d = if j = k then f (getD m k d) else getD m j d := getD_put _ _ _ _ _

namespace Machine

open Bits Ops

namespace Memory

variable {m : Mem} {line : Nat} {d : Bytes}

/-- Memory once a read of the line has corrected it to d: the correction is counted and on its way (R300). -/
def noteFix (m : Mem) (line : Nat) (d : Bytes) : Mem :=
  { m with corr := Sparse.upd m.corr (stackOf (64 * line)) 0 (satInc top64 · 1), fixes := Sparse.put m.fixes line d }

/-! ### The read -/

section
variable {e : List Nat} {p : List (Nat × Nat)} (he : Sparse.get? m.errs line = some e)
  (hp : decodeErr m.eccMode e = some p) (hne : p ≠ [])
include he hp hne

theorem readChannel_correctable :
    readChannel m line = (some (addErr (run m.bytes (64 * line) 64) (residual e p)),
      noteFix m line (addErr (run m.bytes (64 * line) 64) (residual e p))) := by
  unfold readChannel
  rw [he]
  dsimp only
  rw [hp]
  dsimp only
  rw [List.isEmpty_eq_false_iff.2 hne, if_neg Bool.false_ne_true]
  rfl

/-- A read of a correctable line: the corrected data under the bytes of the line's entry. -/
theorem readLine_correctable :
    readLine m line = (some (match entryOf m line with
        | none => addErr (run m.bytes (64 * line) 64) (residual e p)
        | some w => overlay w (addErr (run m.bytes (64 * line) 64) (residual e p))),
      noteFix m line (addErr (run m.bytes (64 * line) 64) (residual e p))) := by
  unfold readLine
  rw [readChannel_correctable he hp hne]
  dsimp only
  have hw : entryOf (noteFix m line (addErr (run m.bytes (64 * line) 64) (residual e p))) line = entryOf m line := rfl
  rw [hw]
  cases entryOf m line <;> rfl

end

theorem length_addErr (d : Bytes) (e : List Nat) : (addErr d e).length = d.length := by simp [addErr]

theorem noteFix_fix (m : Mem) (line : Nat) (d : Bytes) : Sparse.get? (noteFix m line d).fixes line = some d :=
  Sparse.get_put_self _ _ _

/-- The stack's count goes up by one and saturates. -/
theorem noteFix_corr_self (m : Mem) (line : Nat) (d : Bytes) : Sparse.getD (noteFix m line d).corr (stackOf (64 * line)) 0 =
    min (2 ^ 64 - 1) (Sparse.getD m.corr (stackOf (64 * line)) 0 + 1) := by
  unfold noteFix
  rw [Sparse.getD_upd, if_pos rfl]
  rfl

theorem noteFix_corr_ne (m : Mem) (d : Bytes) {k : Nat} (h : k ≠ stackOf (64 * line)) :
    Sparse.getD (noteFix m line d).corr k 0 = Sparse.getD m.corr k 0 := by
  unfold noteFix
  rw [Sparse.getD_upd, if_neg h]

/-! ### The write of a line -/

theorem byteAt_writeLine (m : Mem) (line : Nat) (d : Bytes) (a : Nat) : byteAt (writeLine m line d).bytes a =
    if a / 64 = line then (slice d 0 64).getD (a - 64 * line) blank else byteAt m.bytes a := by
  refine (byteAt_put m.bytes (64 * line) (slice d 0 64) a).trans ?_
  rw [length_slice]
  have : (64 * line ≤ a ∧ a < 64 * line + 64) ↔ a / 64 = line := by omega
  simp only [this]

/-- A line reads as it was written. -/
theorem run_writeLine (m : Mem) (line : Nat) (h : d.length = 64) : run (writeLine m line d).bytes (64 * line) 64 = d := by
  have hs : slice d 0 64 = d := by simp [slice, h]
  refine List.ext_getElem (by rw [length_run, h]) fun i hi hd => ?_
  rw [length_run] at hi
  have hl : (64 * line + i) / 64 = line := by omega
  simp only [run, List.getElem_map, List.getElem_range]
  rw [byteAt_writeLine, if_pos hl, hs, Nat.add_sub_cancel_left, List.getD_eq_getElem _ _ hd]

theorem writeLine_errs_self (m : Mem) (line : Nat) (d : Bytes) : Sparse.get? (writeLine m line d).errs line = none :=
  (Sparse.get_del _ _ _).trans (if_pos rfl)

theorem writeLine_errs_ne (m : Mem) (d : Bytes) {k : Nat} (h : k ≠ line) :
    Sparse.get? (writeLine m line d).errs k = Sparse.get? m.errs k :=
  (Sparse.get_del _ _ _).trans (if_neg h)

theorem writeLine_fixes_self (m : Mem) (line : Nat) (d : Bytes) : Sparse.get? (writeLine m line d).fixes line = none :=
  (Sparse.get_del _ _ _).trans (if_pos rfl)

end Memory

/-! ### CORRECTION_WRITEBACK -/

/-- A correction that a read has put on its way writes its line; no budget is charged, since it is not the scrub's (R314). -/
theorem exec_correctionWriteback_some {s : State} {line : Nat} {d : Bytes} (h : Sparse.get? s.mem.fixes line = some d)
    (hd : d.length = 64) : exec (.correctionWriteback line) s = .next (s.setMem (Memory.writeLine s.mem line d)) := by
  show execCorrectionWriteback line s = _
  unfold execCorrectionWriteback Memory.writeback
  rw [h]
  dsimp only
  rw [hd, if_neg (by decide)]

/-- Without a correction on its way nothing is written. -/
theorem exec_correctionWriteback_none {s : State} {line : Nat} (h : Sparse.get? s.mem.fixes line = none) :
    exec (.correctionWriteback line) s = .next s := by
  show execCorrectionWriteback line s = _
  unfold execCorrectionWriteback Memory.writeback
  rw [h]
  rfl

/-- Settles O31: the read notes its correction, CORRECTION_WRITEBACK writes a noted correction, and every write of the
line drops it. -/
theorem correctedLinesAreWrittenBack : Obligations.CorrectedLinesAreWrittenBack := by
  unfold Obligations.CorrectedLinesAreWrittenBack
  intro s line e p he hp hne d m
  have hread := Memory.readLine_correctable he hp hne
  have hm : m = Memory.noteFix s.mem line d := congrArg Prod.snd hread
  have hd : d.length = 64 := (Memory.length_addErr _ _).trans (Memory.length_run _ _ _)
  clear_value m
  subst hm
  refine ⟨congrArg Prod.fst hread, Memory.noteFix_corr_self _ _ _, fun k hk => Memory.noteFix_corr_ne _ _ hk, rfl,
    ⟨_, exec_correctionWriteback_some (Memory.noteFix_fix _ _ _) hd, ?written, ?ended, ?others, ?bytes, rfl⟩, ?merge, ?write⟩
  case written => exact Memory.run_writeLine _ _ hd
  case ended => exact Memory.writeLine_errs_self _ _ _
  case others => exact fun k hk => Memory.writeLine_errs_ne _ _ hk
  case bytes => exact fun a ha => (Memory.byteAt_writeLine _ _ _ _).trans (if_neg ha)
  case merge => exact fun w cls time k b => exec_correctionWriteback_none (Memory.mergeLine_fixes _ w cls time line k b)
  case write => exact fun b => exec_correctionWriteback_none (Memory.writeLine_fixes_self _ line b)

end Machine
end Sys2Proof
end

section
/-! PROOF. The patrol scrub's position (spec/13_stacked_memory.md R315) through scrub reads, warm starts and cold starts. -/

namespace Sys2Proof
namespace Machine

open Bits Ops

namespace Memory

theorem scrubAt_eq_iff {m : Mem} {a b c : Nat} : scrubAt m = (a, b, c) ↔ m.slot = a ∧ m.codeword = b ∧ m.passes = c := by
  simp [scrubAt]

end Memory

/-- MEM_SCRUB shows the position and the passes. -/
theorem Regs.value_memScrub (s : State) :
    value s .memScrub = (Memory.scrubAt s.mem).2.2 * 2 ^ 32 + (Memory.scrubAt s.mem).1 * 64 + (Memory.scrubAt s.mem).2.1 := rfl

/-! ### Scrub reads -/

/-- The position after (slot, codeword, passes). -/
def MemRows.nextAt (q : Nat × Nat × Nat) : Nat × Nat × Nat :=
  if q.2.1 < 63 then (q.1, q.2.1 + 1, q.2.2)
  else if q.1 + 1 < Config.slotsPerChannel then (q.1 + 1, 0, q.2.2)
  else (0, 0, q.2.2 + 1)

theorem MemRows.advance_scrubAt (m : Mem) : Memory.scrubAt (advance m) = nextAt (Memory.scrubAt m) := by
  unfold advance nextAt Memory.scrubAt
  dsimp only
  split
  · rfl
  · split <;> rfl

theorem exec_scrubRead_scrubAt {s : State} (h : MemRows.up s = true) :
    ∃ u, exec .scrubRead s = .next u ∧ Memory.scrubAt u.mem = MemRows.nextAt (Memory.scrubAt s.mem) := by
  refine ⟨_, if_neg (by rw [h]; decide), ?_⟩
  exact (MemRows.advance_scrubAt _).trans (congrArg _ (MemRows.scrubFrom_scrubAt _ s))

/-! ### Starts -/

theorem exec_warmStart_scrubAt {s : State} (t : Nat) (ho : s.bu.lostArg.isSome = true ∨ s.bu.restart = some true)
    (hh : Recov.hubsDone s.sched = true) :
    ∃ u, exec (.warmStart t) s = .next u ∧ Memory.scrubAt u.mem = Memory.scrubAt s.mem := by
  have ordered : Recov.ordered s.bu = true := by simpa [Recov.ordered] using ho
  have due : (Recov.ordered (tick s t).bu && Recov.hubsDone (tick s t).sched) = true := Bool.and_eq_true_iff.2 ⟨ordered, hh⟩
  exact ⟨_, if_pos due, Recov.warmStart_scrubAt (tick s t)⟩

/-- The command begins a cold start: it leaves memory as reset does. -/
def ResetsMemory (o : Out) : Prop := ∃ u, o = .next u ∧ u.mem = State.resetMem

theorem ResetsMemory.scrub {o : Out} (h : ResetsMemory o) : ∃ u, o = .next u ∧ Regs.value u .memScrub = 0 ∧
    u.mem.slot = 0 ∧ u.mem.codeword = 0 ∧ u.mem.passes = 0 := by
  obtain ⟨u, e, hu⟩ := h
  have at0 : Memory.scrubAt u.mem = (0, 0, 0) := congrArg Memory.scrubAt hu
  refine ⟨u, e, ?_, Memory.scrubAt_eq_iff.1 at0⟩
  rw [Regs.value_memScrub, at0]
  rfl

theorem exec_powerGood_resetsMemory {s : State} (t : Nat) (h : s.pwr.phase = .softStart) : ResetsMemory (exec (.powerGood t) s) :=
  ⟨_, if_pos h, Starts.coldStart_mem _⟩

theorem Recov.moduleLost_cold {s : State} (h : s.bu.warmEn = false) (arg1 : Nat) : (moduleLost s arg1).mem = State.resetMem := by
  unfold moduleLost
  dsimp only
  obtain ⟨g, t, n, e⟩ := logQuiet_eq s { status := 0x0302, source := source arg1, cls := 4, arg1 := arg1 }
  rw [e]
  dsimp only
  rw [h, if_pos (by simp), State.setBu_mem, Starts.coldStart_mem]

theorem exec_moduleLostFault_resetsMemory {s : State} (t : Nat) (w : Dword) (h : s.bu.warmEn = false) :
    ResetsMemory (exec (.moduleLostFault t w) s) :=
  ⟨Recov.moduleLost (tick s t) w.toNat, rfl, Recov.moduleLost_cold (s := tick s t) h _⟩

/-- A RESTART that orders a cold start begins it once its answer is written (R360). -/
theorem Mbox.submit_coldStart {s : State} {f tag : Nat} {args : List Nat} (hl : listens s f) {obj : Nat} {b : State}
    (ha : restartCmd (posted s f 0x0080 tag args) f (fld (reqOf 0x0080 tag args) 8 8) = done obj b)
    (hr : b.bu.restart = some false) :
    ∃ v, submit s f 0x0080 tag args = Starts.coldStart v := by
  rw [submit_runs hl]
  unfold execute
  dsimp only
  rw [reqOf_cmd _ _ _ (by decide), reqOf_rsv, run_restartCmd, ha]
  obtain ⟨x, p, e⟩ := respond_eq b f 0 0x0080 (fld (reqOf 0x0080 tag args) 4 4) (stateWord b f obj) []
  unfold done
  rw [e, if_pos ⟨rfl, rfl, hr⟩]
  exact ⟨_, rfl⟩

/-- RESTART of the physical function with ARG0 1, where it may run, orders a cold start. -/
theorem Mbox.restartCmd_cold {s : State} (hr : s.bu.recovering = false) (h : ready s = true ∨ halted s = true) :
    restartCmd s 0 1 = done 0xFF (s.setBu { s.bu with restart := some false, recovering := false }) := by
  have may : ¬(s.bu.recovering = true ∨ (!(ready s || halted s)) = true) := by
    rw [hr]
    rcases h with h | h <;> simp [h]
  unfold restartCmd
  rw [if_neg (by decide), if_neg (by decide), if_neg may]
  rfl

theorem exec_restart_resetsMemory {s : State} (hl : listens s 0) (hr : s.bu.recovering = false)
    (h : Mbox.ready s = true ∨ Mbox.halted s = true) (tag : Word) : ResetsMemory (exec (.restart 0 tag 1) s) := by
  have harg : fld (Mbox.reqOf 0x0080 tag.toNat [1]) 8 8 = 1 := Mbox.reqOf_arg _ _ [1] 0 (by decide) (by decide) (by decide)
  have hcmd := Mbox.restartCmd_cold (s := Mbox.posted s 0 0x0080 tag.toNat [1]) hr h
  obtain ⟨v, hv⟩ := Mbox.submit_coldStart hl ((congrArg _ harg).trans hcmd) rfl
  have hexec : exec (.restart 0 tag 1) s = .next (Mbox.submit s 0 0x0080 tag.toNat [1]) := rfl
  rw [hexec, hv]
  exact ⟨_, rfl, Starts.coldStart_mem v⟩

/-- Settles O56: scrub reads advance the position, warm starts keep it, and each of the three cold starts resets memory. -/
theorem scrubPositionSurvivesWarmStart : Obligations.ScrubPositionSurvivesWarmStart := by
  unfold Obligations.ScrubPositionSurvivesWarmStart
  intro s t
  refine ⟨?warm, ?read, ?power, ?fault, ?restart⟩
  case warm =>
    intro ho hh
    obtain ⟨u, e, hu⟩ := exec_warmStart_scrubAt t ho hh
    refine ⟨u, e, ?_, Memory.scrubAt_eq_iff.1 hu⟩
    rw [Regs.value_memScrub, hu, ← Regs.value_memScrub]
  case read =>
    intro up
    obtain ⟨u, e, hu⟩ := exec_scrubRead_scrubAt up
    refine ⟨u, e, fun hc => ?_, fun hc hs => ?_, fun hc hs => ?_⟩
    · exact Memory.scrubAt_eq_iff.1 (hu.trans (if_pos hc))
    · exact Memory.scrubAt_eq_iff.1 (hu.trans ((if_neg hc.not_gt).trans (if_pos (Nat.succ_lt_succ hs))))
    · exact Memory.scrubAt_eq_iff.1 (hu.trans ((if_neg hc.not_gt).trans (if_neg (Nat.succ_le_succ hs).not_gt)))
  case power => exact fun h => (exec_powerGood_resetsMemory t h).scrub
  case fault => exact fun h w => (exec_moduleLostFault_resetsMemory t w h).scrub
  case restart => exact fun hl hr h tag => (exec_restart_resetsMemory hl hr h tag).scrub

end Machine
end Sys2Proof
end

section
/-! PROOF. The numeric effecter of P_op (spec/21_management_identity_debug.md R474) through POLICY_SET of index 0x0300
(spec/20_power_thermal_measurement.md R460). -/

namespace Sys2Proof
namespace Machine

/-! ### POLICY_SET of P_op -/

namespace Mbox

/-- The policy of P_op runs from 600 W to PWR_LIMIT. -/
theorem policy_power (s : State) : policy s 0x0300 = some (s.pwr.polP, 600, Config.pwrLimit s.fuses.variant) := rfl

theorem setPolicy_power (s : State) (v : Nat) : setPolicy s 0x0300 v = { s with pwr := { s.pwr with polP := v } } := rfl

/-- POLICY_SET of P_op by the physical function: its refusals in their order, then the setting. -/
theorem policySet_power (s : State) (v : Nat) : policySet s 0 0x0300 v =
    if v < 600 ∨ Config.pwrLimit s.fuses.variant < v then refuse s badField 0xFF
    else if ready s = false then refuse s wrongState 0xFF
    else if belowReserved s v = true then refuse s noResource 0xFF
    else ⟨0, 0xFF, [s.pwr.polP], { s with pwr := { s.pwr with polP := v } }⟩ := by
  have known : (if 0x0300 < 65536 then policy s 0x0300 else none) = some (s.pwr.polP, 600, Config.pwrLimit s.fuses.variant) :=
    policy_power s
  unfold policySet
  rw [known, setPolicy_power]
  simp

/-- POLICY_SET of P_op sets the policy where it answers 0; where it refuses the value it changes nothing. -/
theorem policySet_power_state (s : State) (v : Nat) : (policySet s 0 0x0300 v).state =
    if (policySet s 0 0x0300 v).status = 0 then { s with pwr := { s.pwr with polP := v } } else s := by
  have refusal (st : Nat) (h : st ≠ 0) : (refuse s st 0xFF).state =
      if (refuse s st 0xFF).status = 0 then { s with pwr := { s.pwr with polP := v } } else s := (if_neg h).symm
  rw [policySet_power]
  by_cases outside : v < 600 ∨ Config.pwrLimit s.fuses.variant < v
  · rw [if_pos outside]
    exact refusal badField (by decide)
  rw [if_neg outside]
  by_cases early : ready s = false
  · rw [if_pos early]
    exact refusal wrongState (by decide)
  rw [if_neg early]
  by_cases below : belowReserved s v = true
  · rw [if_pos below]
    exact refusal noResource (by decide)
  · rw [if_neg below]
    exact (if_pos rfl).symm

theorem policySet_power_accepts {s : State} {v : Nat} (lo : 600 ≤ v) (hi : v ≤ Config.pwrLimit s.fuses.variant)
    (hr : ready s = true) (hb : belowReserved s v = false) : (policySet s 0 0x0300 v).status = 0 := by
  have inRange : ¬(v < 600 ∨ Config.pwrLimit s.fuses.variant < v) := by omega
  rw [policySet_power, if_neg inRange, hr, hb]
  rfl

theorem policySet_power_outOfRange {s : State} {v : Nat} (h : v < 600 ∨ Config.pwrLimit s.fuses.variant < v) :
    (policySet s 0 0x0300 v).status = 0x0101 := by
  rw [policySet_power, if_pos h]
  rfl

end Mbox

/-! ### The effecter -/

/-- The effecter of P_op answers what POLICY_SET makes of the value (R474). -/
theorem exec_setNumericEffecter_power {s : State} {b : Nat} (h : Man.mctp s b = true) (v : Word) :
    exec (.setNumericEffecter b 0x0100 v) s =
      .next (Man.reply (Mbox.policySet s 0 0x0300 v.toNat).state b
        (if (Mbox.policySet s 0 0x0300 v.toNat).status = 0 then Man.success else Man.invalidData) []) :=
  congrArg Host.Outcome.next (if_pos h)

/-- Settles O44: the effecter takes over the state and the refusal of POLICY_SET, whose outcomes the range decides. -/
theorem numericEffecterSetsOperatingPower : Obligations.NumericEffecterSetsOperatingPower := by
  unfold Obligations.NumericEffecterSetsOperatingPower
  intro s b v reaches
  refine ⟨fun accepted => ?_, fun refused => ?_, Mbox.policySet_power_accepts, Mbox.policySet_power_outOfRange⟩
  · rw [exec_setNumericEffecter_power reaches, Mbox.policySet_power_state, if_pos accepted, if_pos accepted]
    rfl
  · rw [exec_setNumericEffecter_power reaches, Mbox.policySet_power_state, if_neg refused, if_neg refused]
    rfl

end Machine
end Sys2Proof
end

section
/-! PROOF. Every command runs to a next state that its start evolves to (Evolves), but a MEM_ACCESS beyond MEM_TOP: one
lemma for each command that branches, one table of all commands, and the two statements about every step. -/

namespace Sys2Proof
namespace Machine

open Bits Ops JobOps

variable {org s : State}

/-- The command runs to a next state that org evolves to. -/
def Runs (org : State) (x : Out) : Prop := ∃ t, x = .next t ∧ Evolves org t

theorem Runs.evolves {x : Out} {t : State} (r : Runs org x) (e : x = .next t) : Evolves org t := by
  obtain ⟨u, hu, h⟩ := r
  cases hu.symm.trans e
  exact h
@[simp] theorem runs_next {t : State} : Runs org (.next t) ↔ Evolves org t :=
  ⟨fun r => r.evolves rfl, fun h => ⟨_, rfl, h⟩⟩
@[simp] theorem runs_ite {c : Prop} [Decidable c] {a b : Out} (h : Runs org a) (g : Runs org b) :
    Runs org (if c then a else b) := by split <;> assumption

/-! ### Operations that the laws leave to their commands -/

theorem Castle.giveBack_ev (i : Nat) (h : Evolves org s) : Evolves org (s.setBu (Castle.giveBack s.bu i)) := (ev_setBu _).2 h

theorem MemRows.advance_ev (h : Evolves org s) : Evolves org (s.setMem (MemRows.advance s.mem)) :=
  ev_setMem h (Memory.keeps_of_bytes (MemRows.advance_bytes _) (MemRows.advance_wc _))

namespace Time

theorem onAnnounce_ev (p : Nat) (b : Bytes) (h : Evolves org s) : Evolves org (onAnnounce s p b) := by
  unfold onAnnounce
  dsimp only
  split <;> simpa using h
theorem onSync_ev (p : Nat) (b : Bytes) (h : Evolves org s) : Evolves org (onSync s p b) := by
  unfold onSync
  exact ev_ite ((ev_setPtp _).2 h) h
theorem onFollowUp_ev (p : Nat) (b : Bytes) (h : Evolves org s) : Evolves org (onFollowUp s p b) := by
  unfold onFollowUp
  split
  · exact ev_ite (discipline_ev ((ev_setPtp _).2 h)) h
  · exact h
theorem onPdelayReq_ev (p : Nat) (b : Bytes) (h : Evolves org s) : Evolves org (onPdelayReq s p b) :=
  sendMsg_ev _ _ _ _ (sendMsg_ev _ _ _ _ h)
theorem onPdelayResp_ev (p : Nat) (b : Bytes) (h : Evolves org s) : Evolves org (onPdelayResp s p b) := by
  unfold onPdelayResp
  split
  · exact ev_ite ((ev_setPtp _).2 h) h
  · exact h
theorem onPdelayRespFollowUp_ev (p : Nat) (b : Bytes) (h : Evolves org s) : Evolves org (onPdelayRespFollowUp s p b) := by
  unfold onPdelayRespFollowUp
  split
  · exact ev_ite ((ev_setPtp _).2 h) h
  · exact h

end Time

/-! ### Supply, power and temperature -/

theorem execPowerGood_runs (t : Nat) (h : Evolves org s) : Runs org (execPowerGood t s) :=
  runs_ite (runs_next.2 (Starts.coldStart_ev ((ev_setPwr _).2 (tick_ev t h)))) (runs_next.2 (tick_ev t h))
theorem execP48vUndervoltage_runs (mv : Nat) (h : Evolves org s) : Runs org (execP48vUndervoltage mv s) :=
  runs_ite (runs_next.2 ((ev_setPwr _).2 (Starts.railsOff_ev _ ((ev_setPwr _).2 h)))) (runs_next.2 ((ev_setPwr _).2 h))
theorem execPowerSample_runs (t mv curr : Nat) (mw : Word) (rail : List (Half × Word)) (h : Evolves org s) :
    Runs org (execPowerSample t mv curr mw rail s) := by
  have braked (u : State) (hu : Evolves org u) (high was : Prop) [Decidable high] [Decidable was] :
      Evolves org (if high then Pwr.enterBrake u 2 else if u.pwr.brakePin then Pwr.enterBrake u 3
        else if was then Pwr.causeEnds u t else u) :=
    ev_ite (Pwr.enterBrake_ev _ hu) (ev_ite (Pwr.enterBrake_ev _ hu) (ev_ite (Pwr.causeEnds_ev t hu) hu))
  refine runs_ite (runs_next.2 (tick_ev t h)) (runs_next.2 (Starts.runWaiting_ev t (braked _ ?_ _ _)))
  exact (ev_setPwr _).2 (Pwr.noteInput_ev t mv ((ev_setPwr _).2 (tick_ev t h)))
theorem execPwrBrakeNRise_runs (t : Nat) (h : Evolves org s) : Runs org (execPwrBrakeNRise t s) := by
  have hp : Evolves org ((tick s t).setPwr { (tick s t).pwr with brakePin := false }) := (ev_setPwr _).2 (tick_ev t h)
  exact runs_next.2 (Starts.runWaiting_ev t (ev_ite (Pwr.causeEnds_ev t hp) hp))
theorem execControlWindow_runs (h : Evolves org s) : Runs org (execControlWindow s) := by
  refine runs_ite (runs_next.2 h) (runs_next.2 (ev_ite (logEvent_ev _ ?_) ?_)) <;> simpa using h
theorem execCellTempSample_runs (i : Nat) (temp : Byte) (h : Evolves org s) : Runs org (execCellTempSample i temp s) := by
  refine runs_ite (runs_next.2 h) (runs_ite (runs_next.2 (Starts.thermalTrip_ev _ _ ((ev_setPwr _).2 h)))
    (runs_next.2 (ev_ite (logEvent_ev _ ?_) ?_))) <;> simpa using h
theorem execHubTempSample_runs (temp : Byte) (h : Evolves org s) : Runs org (execHubTempSample temp s) := by
  refine runs_ite (runs_next.2 h) (runs_ite (runs_next.2 (Starts.thermalTrip_ev _ _ ((ev_setPwr _).2 h)))
    (runs_next.2 (ev_ite (logEvent_ev _ ?_) ?_))) <;> simpa using h
theorem execStackTempSample_runs (k : Nat) (temp : Byte) (h : Evolves org s) : Runs org (execStackTempSample k temp s) := by
  have sampled (m : Mem) (hm : Memory.Keeps s.mem m) : Evolves org (s.setMem m) := ev_setMem h hm
  refine runs_ite (runs_next.2 h) (runs_ite (runs_next.2 (Starts.thermalTrip_ev _ _ (sampled _ ?_)))
    (runs_ite (runs_next.2 (logEvent_ev _ (sampled _ ?_))) (runs_ite (runs_next.2 (logEvent_ev _ (sampled _ ?_)))
      (runs_next.2 (sampled _ ?_))))) <;> exact Memory.keeps_of_bytes rfl rfl

/-! ### Bring-up and recovery -/

theorem execMemTrain_runs (failing : List Nat) (h : Evolves org s) : Runs org (execMemTrain failing s) := by
  refine runs_next.2 (Bring.onStep_ev 2 (fun h => ?_) h)
  have trained (u : State) (hu : Evolves org u) (l : List Nat) :
      Evolves org (u.setMem { u.mem with selfRef := l }) := ev_setMem hu (Memory.keeps_of_bytes rfl rfl)
  dsimp only
  split
  · exact Starts.stepStop_ev _ _ _ _ (trained _ (ev_ite h (Starts.wantStore_ev _ _ h)) _)
  · exact ev_ite (Bring.stepSkipped_ev (trained _ (ev_ite h (Starts.wantStore_ev _ _ h)) _))
      (Bring.stepDone_ev (trained _ (ev_ite h (Starts.wantStore_ev _ _ h)) _))
theorem execMemInit_runs (h : Evolves org s) : Runs org (execMemInit s) := by
  refine runs_next.2 (Bring.onStep_ev 3 (fun h => ev_ite (Bring.stepSkipped_ev h) (Bring.stepDone_ev (ev_setMem h ?_))) h)
  exact ⟨fun _ => by simp [Memory.wf, Memory.wfBytes], fun _ => by simp [Memory.bufOk, Memory.wcOk]⟩
theorem execDefectMap_runs (h : Evolves org s) : Runs org (execDefectMap s) := by
  refine runs_next.2 (Bring.onStep_ev 5 (fun h => Bring.stepDone_ev ((ev_setBu _).2 ?_)) h)
  exact ev_ite h ((ev_setBu _).2 h)
theorem execCellFirmware_runs (bad : List Nat) (h : Evolves org s) : Runs org (execCellFirmware bad s) := by
  refine runs_next.2 (Bring.onStep_ev 6 (fun h => ?_) h)
  have kept (c : Prop) [Decidable c] (b : BringUp) : Evolves org (if c then s.setBu b else s) := ev_ite ((ev_setBu _).2 h) h
  refine ev_ite (Starts.stepStop_ev _ _ _ _ (fresh_ev (kept _ _)))
    (Bring.stepDone_ev (ev_foldl (fun _ p hu => Bring.fetchFails_ev p hu) _ (Bring.chargeFetch_ev _ ((ev_setBu _).2 ?_))))
  exact ev_setMem ((ev_setBu _).2 (kept _ _)) (Bring.writeCopies_keeps _ _ _)
theorem execKnownAnswer_runs (cells engines : List (Nat × Word × Word)) (h : Evolves org s) :
    Runs org (execKnownAnswer cells engines s) := by
  refine runs_next.2 (Bring.onStep_ev 7 (fun h => Bring.stepDone_ev (ev_foldl (fun _ e hu => ?_) _
    (ev_foldl (fun _ e hu => Bring.removeNow_ev _ (Bring.katReport_ev _ _ _ _ hu)) _ ((ev_setBu _).2 h)))) h)
  exact ev_ite ((ev_setBu _).2 (Bring.katReport_ev _ _ _ _ hu)) ((ev_setBu _).2 (Bring.katReport_ev _ _ _ _ hu))
theorem execLinkTrain_runs (assemblies : List (Option Cable)) (h : Evolves org s) : Runs org (execLinkTrain assemblies s) := by
  refine runs_next.2 (Bring.onStep_ev 8 (fun h => Link.linkTrainDone_ev (ev_foldl (fun _ p hu => ?_) _
    ((ev_setBu _).2 ((ev_setIdent _).2 h)))) h)
  exact ev_ite hu (ev_ite (Link.putPort_ev _ _ hu) (ev_ite hu (Link.train_ev _ hu)))
theorem execReady_runs (h : Evolves org s) : Runs org (execReady s) := by
  refine runs_next.2 (Bring.onStep_ev 9 (fun h => (ev_setBu _).2 ?_) h)
  have raised (c : Prop) [Decidable c] (n : Nat) : Evolves org (if c then Starts.wantStore s s.now (.fuseSvn n) else s) :=
    ev_ite (Starts.wantStore_ev _ _ h) h
  exact ev_ite (raised _ _) (Bring.coldDowntime_ev (raised _ _))
theorem execCablePoll_runs (t c : Nat) (a : Option Cable) (h : Evolves org s) : Runs org (execCablePoll t c a s) := by
  have ht := tick_ev t h
  cases a with
  | none => exact runs_next.2 ((ev_setIdent _).2 ht)
  | some a => exact runs_ite (runs_next.2 ((ev_setIdent _).2 ht)) (runs_ite (runs_next.2 ht) (runs_next.2 ((ev_setIdent _).2 ht)))
theorem execRecoveryRestore_runs (t : Nat) (h : Evolves org s) : Runs org (execRecoveryRestore t s) := by
  unfold execRecoveryRestore
  dsimp only
  split
  · exact runs_next.2 (tick_ev t h)
  · exact runs_ite (runs_next.2 (Recov.restore_ev _ (tick_ev t h))) (runs_next.2 (tick_ev t h))

/-! ### The fabric -/

theorem execReq_runs (t p : Nat) (fr : Sys2Proof.Frame) (h : Evolves org s) : Runs org (execReq t p fr s) := by
  have e := Link.receive_ev p fr (tick_ev t h)
  unfold execReq
  split <;> rename_i q <;> rw [q] at e
  · exact runs_next.2 e
  · exact runs_ite (runs_next.2 e) (runs_next.2 (Fab.pass_ev _ (fun h => Fab.arriveReq_ev p _ h) e))
theorem execData_runs (t p : Nat) (fr : Sys2Proof.Frame) (h : Evolves org s) : Runs org (execData t p fr s) := by
  have e := Link.receive_ev p fr (tick_ev t h)
  unfold execData
  split <;> rename_i q <;> rw [q] at e
  · exact runs_next.2 e
  · exact runs_ite (runs_next.2 e) (runs_next.2 (Fab.pass_ev _ (fun h => Fab.arriveData_ev p _ h) e))
theorem execResp_runs (t p : Nat) (fr : Sys2Proof.Frame) (h : Evolves org s) : Runs org (execResp t p fr s) := by
  have e := Link.receive_ev p fr (tick_ev t h)
  unfold execResp
  split <;> rename_i q <;> rw [q] at e
  · exact runs_next.2 e
  · exact runs_ite (runs_next.2 e) (runs_next.2 (Fab.pass_ev _ (fun h => Fab.arriveResp_ev p _ h) e))
theorem execIdle_runs (t p : Nat) (fr : Sys2Proof.Frame) (h : Evolves org s) : Runs org (execIdle t p fr s) := by
  have e := Link.receive_ev p fr (tick_ev t h)
  unfold execIdle
  split <;> rename_i q <;> rw [q] at e <;> exact runs_next.2 e
theorem execTransactionTimeout_runs (t tag : Nat) (h : Evolves org s) : Runs org (execTransactionTimeout t tag s) := by
  unfold execTransactionTimeout
  dsimp only
  split
  · exact runs_next.2 (tick_ev t h)
  · exact runs_ite (runs_next.2 (tick_ev t h)) (runs_next.2 (Fab.finish_ev _ _ _ _ _ ((ev_setFab _).2 (tick_ev t h))))
theorem execTargetWriteTimeout_runs (t src tag : Nat) (h : Evolves org s) : Runs org (execTargetWriteTimeout t src tag s) := by
  unfold execTargetWriteTimeout
  dsimp only
  split
  · exact runs_next.2 (tick_ev t h)
  · exact runs_ite (runs_next.2 (FabServe.abandon_ev _ (Fab.dropServed_ev _ (tick_ev t h)))) (runs_next.2 (tick_ev t h))
theorem execLeaseLapse_runs (t n : Nat) (h : Evolves org s) : Runs org (execLeaseLapse t n s) := by
  have lapsed := run_ev (s := tick s t) 10 (FabServe.lapse_keeps (Mbox.mpVia (tick s t)) (tick s t).cache.desc (ptpTime (tick s t)) n)
    (tick_ev t h)
  refine runs_ite (runs_next.2 (tick_ev t h)) ?_
  split <;> rename_i q <;> replace lapsed := snd_ev q lapsed
  · exact runs_next.2 (logEvent_ev _ lapsed)
  · exact runs_next.2 lapsed
theorem execPortTraining_runs (t p : Nat) (locked : Bool) (h : Evolves org s) : Runs org (execPortTraining t p locked s) :=
  have ht := tick_ev t h
  runs_ite (runs_next.2 ht) (runs_ite (runs_next.2 (Link.sendHello_ev _ (Link.putPort_ev _ _ ht))) (runs_next.2 (Link.lockFails_ev _ ht)))
theorem execLinkHello_runs (t p : Nat) (fr : Sys2Proof.Frame) (h : Evolves org s) : Runs org (execLinkHello t p fr s) :=
  runs_next.2 (Link.onLink_ev t p 1 fr (fun _ _ hu => ev_ite (Link.putPort_ev _ _ hu)
    (ev_ite (Link.enterUp_ev _ (Link.putPort_ev _ _ hu)) (Link.putPort_ev _ _ hu))) h)
theorem execLinkCredit_runs (t p : Nat) (fr : Sys2Proof.Frame) (h : Evolves org s) : Runs org (execLinkCredit t p fr s) :=
  runs_next.2 (Link.onLink_ev t p 2 fr (fun _ _ hu => ev_ite (Link.drainQueue_ev _ (Link.putPort_ev _ _ hu)) hu) h)
theorem execLinkReplay_runs (t p : Nat) (fr : Sys2Proof.Frame) (h : Evolves org s) : Runs org (execLinkReplay t p fr s) :=
  runs_next.2 (Link.onLink_ev t p 3 fr (fun _ _ hu => ev_ite hu (ev_ite (Link.leaveUp_ev _ (Link.putPort_ev _ _ hu))
    (ev_foldl (fun _ _ hw => Link.wire_ev _ _ _ hw) _ (Link.putPort_ev _ _ hu)))) h)
theorem execPtpSyncTimer_runs (t : Nat) (h : Evolves org s) : Runs org (execPtpSyncTimer t s) :=
  runs_next.2 (ev_foldl (fun _ _ hu => Time.sendMsg_ev _ _ _ _ (Time.sendMsg_ev _ _ _ _ hu)) _ (Time.nextSeq_ev (tick_ev t h)))
theorem execPtpAnnounceTimer_runs (t : Nat) (h : Evolves org s) : Runs org (execPtpAnnounceTimer t s) :=
  runs_next.2 (ev_foldl (fun _ _ hu => Time.sendMsg_ev _ _ _ _ hu) _ (Time.nextSeq_ev (tick_ev t h)))
theorem execPtpPdelayTimer_runs (t : Nat) (h : Evolves org s) : Runs org (execPtpPdelayTimer t s) :=
  runs_next.2 (ev_foldl (fun _ _ hu => Time.sendMsg_ev _ _ _ _ ((ev_setPtp _).2 hu)) _ (Time.nextSeq_ev (tick_ev t h)))
theorem execPpsInEdge_runs (t high rise : Nat) (h : Evolves org s) : Runs org (execPpsInEdge t high rise s) :=
  have ht := tick_ev t h
  runs_ite (runs_next.2 ht) (runs_ite (runs_next.2 (Time.discipline_ev ((ev_setPtp _).2 (Time.setTime_ev _ ((ev_setPtp _).2 ht)))))
    (runs_next.2 ((ev_setPtp _).2 ht)))
theorem execPtpSourceLoss_runs (t : Nat) (h : Evolves org s) : Runs org (execPtpSourceLoss t s) :=
  runs_next.2 (ev_ite ((ev_setPtp _).2 (tick_ev t h)) (tick_ev t h))

/-! ### Tile steps -/

theorem execTileStepIssue_runs (j g d : Nat) (h : Evolves org s) : Runs org (execTileStepIssue j g d s) := by
  unfold execTileStepIssue
  split
  · exact runs_next.2 h
  refine runs_ite (runs_ite (runs_next.2 ((ev_setSched _).2 h)) (runs_next.2 (Cells.redoNext_ev _ _ h))) (runs_ite
    (runs_next.2 (ev_ite (pollEvent_ev _ _ h) h)) (runs_ite (runs_next.2 ((ev_setSched _).2 h)) ?_))
  dsimp only
  split
  · exact runs_next.2 (Cells.refuse_ev _ _ _ _ _ h)
  · exact runs_next.2 (Cells.badUnit_ev _ _ _ _ _ h)
  · exact runs_next.2 (ev_foldl (fun _ k hu => Cells.issueAt_ev _ _ k hu) _ h)
theorem execTileStepComplete_runs (j g d : Nat) (h : Evolves org s) : Runs org (execTileStepComplete j g d s) := by
  unfold execTileStepComplete
  split
  · exact runs_next.2 h
  split
  · exact runs_next.2 h
  split
  · exact runs_next.2 h
  · exact runs_ite (runs_next.2 (Cells.completeStep_ev _ _ _ _ _ h)) (runs_next.2 h)
theorem execSumLinkTransfer_runs (j p m : Nat) (h : Evolves org s) : Runs org (execSumLinkTransfer j p m s) := by
  unfold execSumLinkTransfer
  split
  · exact runs_next.2 h
  split
  · exact runs_next.2 h
  split
  · exact runs_next.2 h
  refine runs_ite ?_ (runs_next.2 h)
  split
  · exact runs_next.2 h
  · exact runs_next.2 (Cells.sumRow_ev _ _ _ _ h)
theorem execStationaryReload_runs (j g : Nat) (h : Evolves org s) : Runs org (execStationaryReload j g s) := by
  unfold execStationaryReload
  split
  · exact runs_next.2 h
  split
  · exact runs_next.2 h
  split
  · exact runs_next.2 h
  · exact runs_ite (runs_next.2 (Cells.reload_ev _ _ _ _ h)) (runs_next.2 h)
theorem execShadowSwap_runs (j g : Nat) (h : Evolves org s) : Runs org (execShadowSwap j g s) := by
  unfold execShadowSwap
  split
  · exact runs_next.2 h
  split
  · exact runs_next.2 h
  split
  · exact runs_next.2 h
  · exact runs_ite (runs_next.2 (set_ev _ h)) (runs_next.2 h)
theorem execFirstOverflowFault_runs (j g : Nat) (h : Evolves org s) : Runs org (execFirstOverflowFault j g s) := by
  unfold execFirstOverflowFault
  split
  · exact runs_next.2 h
  split
  · exact runs_next.2 h
  split
  · exact runs_next.2 h
  · exact runs_ite (runs_next.2 (set_ev _ h)) (runs_next.2 (upd_ev _ _ (log_ev _ _ _ _ _ _ _ (set_ev _ h))))
theorem execClaimRequest_runs (j g : Nat) (h : Evolves org s) : Runs org (execClaimRequest j g s) := by
  unfold execClaimRequest
  split
  · exact runs_next.2 h
  split
  · exact runs_next.2 h
  split
  · exact runs_ite (runs_next.2 h) (runs_next.2 (Cells.claimArrives_ev _ _ _ _ h))
  · exact runs_ite (runs_next.2 (Cells.claimArrives_ev _ _ _ _ h)) (runs_next.2 h)
theorem execClaimAnswer_runs (j g : Nat) (h : Evolves org s) : Runs org (execClaimAnswer j g s) := by
  unfold execClaimAnswer
  split
  · exact runs_next.2 h
  split
  · exact runs_next.2 h
  split
  · exact runs_next.2 h
  · exact runs_next.2 (set_ev _ h)
theorem execMeshTimeout_runs (j g : Nat) (h : Evolves org s) : Runs org (execMeshTimeout j g s) := by
  unfold execMeshTimeout
  split
  · exact runs_next.2 h
  split
  · exact runs_next.2 h
  split
  · exact runs_ite (runs_next.2 (set_ev _ h)) (runs_next.2 (Cells.meshLost_ev _ _ _ _ (set_ev _ h)))
  split
  · exact runs_next.2 h
  · exact runs_ite (runs_next.2 (set_ev _ h)) (runs_next.2 (Cells.meshLost_ev _ _ _ _ h))
theorem execSoftmaxCompletionStep_runs (j g d : Nat) (h : Evolves org s) : Runs org (execSoftmaxCompletionStep j g d s) := by
  unfold execSoftmaxCompletionStep
  split
  · exact runs_next.2 h
  split
  · exact runs_next.2 h
  split
  · exact runs_ite (runs_ite (runs_next.2 (Cells.softStep_ev _ _ _ _ _ _ h)) (runs_next.2 ((ev_setSched _).2 h))) (runs_next.2 h)
  · exact runs_next.2 h
theorem execLoopIterationAdvance_runs (j : Nat) (h : Evolves org s) : Runs org (execLoopIterationAdvance j s) := by
  unfold execLoopIterationAdvance
  split
  · exact runs_next.2 h
  · exact runs_ite (runs_next.2 (refreshReady_ev ((ev_setSched _).2 h))) (runs_next.2 h)
theorem execOverlongStepTimeout_runs (j g d : Nat) (h : Evolves org s) : Runs org (execOverlongStepTimeout j g d s) := by
  unfold execOverlongStepTimeout
  split
  · exact runs_next.2 h
  split
  · exact runs_next.2 h
  · exact runs_ite (runs_next.2 (Castle.declare_ev _ (log_ev _ _ _ _ _ _ _ (abandon_ev _ _ _ h))))
      (runs_next.2 (fault_ev _ _ _ _ _ _ _ (abandon_ev _ _ _ h)))
theorem execAtomicUnitRequest_runs (j g : Nat) (h : Evolves org s) : Runs org (execAtomicUnitRequest j g s) := by
  unfold execAtomicUnitRequest
  split
  · exact runs_next.2 h
  split
  · exact runs_next.2 h
  split
  · exact runs_next.2 h
  refine runs_ite (runs_next.2 h) (runs_ite (runs_next.2 ((ev_setSched _).2 h)) ?_)
  split <;> rename_i q <;> replace q := run_eq q (Scat.row_keeps _ _ _ _ _ _) h
  · exact runs_next.2 (Cells.stopOn_ev _ _ _ _ _ (tally_ev _ _ _ _ _ _ _ q))
  · exact runs_next.2 (Cells.refuse_ev _ _ _ _ _ (tally_ev _ _ _ _ _ _ _ q))
  · exact runs_next.2 (upd_ev _ _ q)

/-! ### Hub stations -/

theorem execHubExecutionGrant_runs (j d : Nat) (h : Evolves org s) : Runs org (execHubExecutionGrant j d s) := by
  have hr := refreshReady_ev h
  refine runs_ite (runs_next.2 h) ?_
  dsimp only
  split
  · exact runs_next.2 hr
  · exact runs_ite (runs_next.2 hr) (runs_ite (runs_next.2 (Hub.begin_ev _ _ _ hr)) (runs_next.2 ((ev_setSched _).2 hr)))
theorem execHubExecutionComplete_runs (j d : Nat) (h : Evolves org s) : Runs org (execHubExecutionComplete j d s) := by
  refine runs_ite (runs_next.2 h) ?_
  split
  · exact runs_next.2 h
  split
  · exact runs_next.2 h
  · exact runs_next.2 (Hub.conclude_ev _ _ h)
theorem execEncBlockRow_runs (j d : Nat) (h : Evolves org s) : Runs org (execEncBlockRow j d s) := by
  unfold execEncBlockRow
  split
  · exact runs_next.2 h
  split
  swap
  · exact runs_next.2 h
  refine runs_ite (runs_next.2 h) (runs_ite (runs_next.2 (pollEvent_ev _ _ h)) (runs_ite (runs_next.2 ((ev_setSched _).2 h)) ?_))
  split <;> rename_i q <;> replace q := run_eq q (Enc.pixels_keeps _ _ _) h
  · exact runs_next.2 (Codecs.fails_ev _ _ _ _ _ _ q)
  · exact runs_next.2 (Hub.setExec_ev _ _ ((ev_setSched _).2 q))
theorem Enc.chunk_keeps (v : Via) (a : Nat) (c : Bytes) : Keeps (do
    let r ← Codecs.readRing v a
    if Codecs.hasRoom r c.length then do
      Codecs.putRing v r c
      pure true
    else pure false : MM Bool) :=
  Keeps.bind (Codecs.readRing_keeps _ _) fun _ => Keeps.ite (Keeps.bind (Codecs.putRing_keeps _ _ _) fun _ => Keeps.pure _) (Keeps.pure _)
theorem execEncChunkEmit_runs (j d : Nat) (h : Evolves org s) : Runs org (execEncChunkEmit j d s) := by
  unfold execEncChunkEmit
  split
  · exact runs_next.2 h
  split
  swap
  · exact runs_next.2 h
  refine runs_ite (runs_next.2 h) (runs_ite (runs_next.2 ((ev_setSched _).2 h)) ?_)
  dsimp only
  split <;> rename_i q <;> replace q := run_eq q (Enc.chunk_keeps _ _ _) h
  · exact runs_next.2 (Codecs.fails_ev _ _ _ _ _ _ q)
  · exact runs_next.2 q
  · exact runs_next.2 (ev_ite (Hub.setExec_ev _ _ q) (Codecs.bump_ev _ _ (Hub.setExec_ev _ _ q)))
theorem execDecPictureOutput_runs (j d n : Nat) (h : Evolves org s) : Runs org (execDecPictureOutput j d n s) := by
  unfold execDecPictureOutput
  split
  · exact runs_next.2 h
  split
  · exact runs_next.2 h
  refine runs_ite (runs_next.2 h) (runs_ite (runs_next.2 ((ev_setSched _).2 h)) ?_)
  dsimp only
  split <;> rename_i q <;> replace q := run_eq q (Ing.output_keeps _ _ _ _ _ _ _) h
  · exact runs_next.2 (Codecs.fails_ev _ _ _ _ _ _ q)
  · exact runs_next.2 q
  rename_i y u
  have reported (c : Sched) (x : Job) (a num : Nat) (hd : PicHead) (f : Dec.Found) (sub : Bool) :
      Evolves org (Dec.report ((u.setFree (u.free + 1)).setSched c) x a num hd f sub) :=
    Dec.report_ev _ _ _ _ _ _ ((ev_setSched _).2 (ev_setFree q (Nat.le_succ _)))
  rcases y with ⟨w, _ | r, _ | ⟨hd, f, num, sub⟩⟩
  · exact runs_next.2 (Hub.setExec_ev _ _ q)
  · exact runs_next.2 (Hub.setExec_ev _ _ (reported _ _ _ _ _ _ _))
  · exact runs_next.2 (Ing.putRun_ev _ _ _ (Hub.setExec_ev _ _ q))
  · exact runs_next.2 (Ing.putRun_ev _ _ _ (Hub.setExec_ev _ _ (reported _ _ _ _ _ _ _)))
theorem execIngestEntry_runs (j d : Nat) (h : Evolves org s) : Runs org (execIngestEntry j d s) := by
  unfold execIngestEntry
  exact runs_ite (runs_next.2 h) (runs_ite (runs_next.2 ((ev_setSched _).2 h)) (runs_next.2 (Ing.entry_ev _ _ h)))
theorem execIngestDelivery_runs (j d : Nat) (h : Evolves org s) : Runs org (execIngestDelivery j d s) := by
  unfold execIngestDelivery
  split
  · exact runs_next.2 h
  split
  swap
  · exact runs_next.2 h
  split
  · exact runs_next.2 h
  refine runs_ite (runs_next.2 h) (runs_ite (runs_next.2 ((ev_setSched _).2 h)) ?_)
  split <;> rename_i q <;> replace q := run_eq q (Dec.deliver_keeps _ _ _) h
  · exact runs_next.2 (Codecs.fails_ev _ _ _ _ _ _ q)
  · exact runs_next.2 q
  · exact runs_next.2 (Hub.setExec_ev _ _ q)
theorem execLiveTickEmit_runs (t j d : Nat) (h : Evolves org s) : Runs org (execLiveTickEmit t j d s) := by
  have ht := tick_ev t h
  unfold execLiveTickEmit
  dsimp only
  split
  · exact runs_next.2 ht
  split
  · exact runs_next.2 ht
  refine runs_ite (runs_next.2 ht) (runs_ite (runs_next.2 ((ev_setSched _).2 ht)) ?_)
  split <;> rename_i q <;> replace q := run_eq q (Ing.emitTick_keeps _ _ _ _ _) ht
  · exact runs_next.2 (Hub.workFails_ev _ _ _ q)
  · exact runs_next.2 q
  · exact runs_ite (runs_next.2 (Ing.putRun_ev _ _ _ q)) (runs_next.2 (logEvent_ev _ (fresh_ev (Ing.putRun_ev _ _ _ q))))

/-! ### Memory rows, the host and the scheduler -/

theorem execWcWriteMerge_runs (src a : Nat) (b : Bytes) (h : Evolves org s) : Runs org (execWcWriteMerge src a b s) :=
  runs_ite (runs_next.2 h) (runs_next.2 (settle_ev _ (writeMem_ev _ _ _ _ h)))
theorem execWcIdleFlush_runs (t line : Nat) (h : Evolves org s) : Runs org (execWcIdleFlush t line s) :=
  runs_next.2 (settle_ev _ (flushWhere_ev _ (tick_ev t h)))
theorem execCorrectionWriteback_runs (line : Nat) (h : Evolves org s) : Runs org (execCorrectionWriteback line s) :=
  have hw := ev_setMem h (Memory.keeps_writeback line (Memory.keeps_refl s.mem))
  runs_next.2 (ev_ite ((ev_setSched _).2 hw) hw)
theorem execScrubRead_runs (h : Evolves org s) : Runs org (execScrubRead s) :=
  runs_ite (runs_next.2 h) (runs_next.2 ((ev_setSched _).2 (MemRows.advance_ev (MemRows.scrubFrom_ev _ h))))
theorem execBar2Read_runs (f : Nat) (a : Dword) (n : Nat) (h : Evolves org s) : Runs org (execBar2Read f a n s) := by
  refine runs_ite (runs_next.2 h) (runs_ite (runs_next.2 ((ev_setSched _).2 h)) ?_)
  have answered (u : State) (c : ReadStatus) (d : Bytes) (hu : Evolves org u) : Evolves org (Bar.reply u f c d) := by
    unfold Bar.reply
    simp [hu]
  split <;> rename_i q <;> replace q := snd_ev q (readLog_ev _ _ _ _ h)
  · exact runs_next.2 (answered _ _ _ q)
  · exact runs_next.2 (answered _ _ _ q)
  · exact runs_next.2 (answered _ _ _ (logEvent_ev _ q))
theorem execBar2Write_runs (f : Nat) (a : Dword) (b : Bytes) (h : Evolves org s) : Runs org (execBar2Write f a b s) := by
  refine runs_ite (runs_next.2 h) (runs_ite (runs_next.2 ((ev_setSched _).2 h)) ?_)
  split
  · exact runs_next.2 h
  · next q => exact runs_next.2 (logLost_ev _ (writeLog_ev _ _ _ _ _ h _ q))
theorem execConfigurationRequest_runs (f kind : Nat) (v : Word) (h : Evolves org s) :
    Runs org (execConfigurationRequest f kind v s) := by
  have hosted (x : HostIf) : Runs org (.next (s.setHost x)) := runs_next.2 ((ev_setHost _).2 h)
  refine runs_ite (hosted _) ?_
  split
  · exact runs_ite (hosted _) (runs_ite (hosted _) (runs_next.2 h))
  · exact runs_ite (hosted _) (runs_next.2 h)
  · exact runs_ite (hosted _) (runs_next.2 h)
  · exact runs_ite (hosted _) (runs_next.2 h)
  · exact runs_ite (hosted _) (runs_next.2 h)
  · exact hosted _
  · exact hosted _
  · exact runs_next.2 h
theorem execAdmissionDecision_runs (h : Evolves org s) : Runs org (execAdmissionDecision s) := by
  refine runs_ite (runs_next.2 h) ?_
  split
  · next q => exact runs_next.2 (Sch.decide1_ev h _ q)
  · exact runs_next.2 h
theorem execAdjournContextWrite_runs (j : Nat) (h : Evolves org s) : Runs org (execAdjournContextWrite j s) := by
  unfold execAdjournContextWrite
  split
  · exact runs_next.2 h
  · exact runs_ite (runs_next.2 (Sch.adjourn_ev _ h)) (runs_next.2 h)
theorem execJobCompletion_runs (j : Nat) (h : Evolves org s) : Runs org (execJobCompletion j s) := by
  unfold execJobCompletion
  split
  · exact runs_next.2 h
  · exact runs_ite (runs_next.2 (Finish.complete_ev _ h)) (runs_next.2 h)
theorem execJobReplay_runs (j : Nat) (h : Evolves org s) : Runs org (execJobReplay j s) := by
  unfold execJobReplay
  split
  · exact runs_next.2 h
  · exact runs_ite (runs_next.2 (refreshReady_ev (Starting.resume_ev _ (Starting.writeContext_ev _ h)))) (runs_next.2 h)
theorem execBlitzDeadlineExpiry_runs (t j : Nat) (h : Evolves org s) : Runs org (execBlitzDeadlineExpiry t j s) := by
  have ht := tick_ev t h
  unfold execBlitzDeadlineExpiry
  dsimp only
  split
  · exact runs_next.2 ht
  split
  · exact runs_ite (runs_next.2 (set_ev _ ht)) (runs_next.2 ht)
  · exact runs_next.2 ht
theorem execFunctionResetJobEnd_runs (j : Nat) (h : Evolves org s) : Runs org (execFunctionResetJobEnd j s) := by
  unfold execFunctionResetJobEnd
  split
  · exact runs_next.2 h
  · exact runs_ite (runs_next.2 (Finish.complete_ev _ h)) (runs_next.2 h)

/-! ### Management and JTAG -/

theorem execPollForPlatformEventMessage_runs (b : Nat) (ack : Bool) (h : Evolves org s) :
    Runs org (execPollForPlatformEventMessage b ack s) := by
  refine runs_next.2 (Man.onMctp_ev b (fun h => ev_ite (Man.reply_ev _ _ _ ((ev_setMgmt _).2 h)) ?_) h)
  split
  · exact Man.reply_ev _ _ _ h
  · exact Man.reply_ev _ _ _ ((ev_setMgmt _).2 h)
theorem execSetNumericEffecter_runs (b : Nat) (eff : Half) (v : Word) (h : Evolves org s) :
    Runs org (execSetNumericEffecter b eff v s) :=
  runs_next.2 (Man.onMctp_ev b (fun h => ev_ite (Man.reply_ev _ _ _ h) (Man.reply_ev _ _ _ (Mbox.policySet_ev _ _ _ h))) h)
theorem execFirmwareComponentTransfer_runs (t b comp off : Nat) (part : Bytes) (h : Evolves org s) :
    Runs org (execFirmwareComponentTransfer t b comp off part s) :=
  runs_next.2 (Man.onUpdate_ev b (fun _ ht => ev_ite (Man.reply_ev _ _ _ ht) (ev_ite (Man.deferStore_ev ht)
    (Man.reply_ev _ _ _ (Man.setUpdate_ev _ (Man.putSpare_ev _ ht))))) (tick_ev t h))
theorem execActivateFirmware_runs (t b : Nat) (h : Evolves org s) : Runs org (execActivateFirmware t b s) :=
  runs_next.2 (Man.onUpdate_ev b (fun _ ht => ev_ite (Man.reply_ev _ _ _ ht) (ev_ite (Man.deferStore_ev ht)
    (Man.reply_ev _ _ _ (Man.setUpdate_ev _ (Man.putSpare_ev _ ht))))) (tick_ev t h))
theorem execGetMeasurements_runs (b idx : Nat) (sg : Bool) (nonce : BitVec 256) (h : Evolves org s) :
    Runs org (execGetMeasurements b idx sg nonce s) :=
  runs_next.2 (Man.onSpdm_ev b 3 (fun h => ev_ite (Man.reply_ev _ _ _ h)
    (ev_ite (Man.reply_ev _ _ _ (Man.setSpdm_ev _ _ _ (Man.nonceOf_ev h))) (Man.reply_ev _ _ _ (Man.setSpdm_ev _ _ _ h)))) h)

theorem execIntScan_runs (h : Evolves org s) : Runs org (execIntScan s) :=
  have hl := Tap.load_ev 0x40 0 none h
  runs_next.2 (ev_ite ((ev_setBu _).2 ((ev_setPwr _).2 hl)) hl)

/-- MEM_ACCESS that the debug level allows while the clocks run has its one exception at MEM_TOP. -/
theorem execMemAccess_runs {a : Nat} (w : Option Bytes) (h : Evolves org s)
    (ha : Tap.allowed s 0x41 = true → s.pwr.phase ≠ .scanned → a < Config.memTop) : Runs org (execMemAccess a w s) := by
  have loaded (u : State) (d : Option Bytes) (hu : Evolves org u) : Runs org (.next (Tap.load u 0x41 0 d)) :=
    runs_next.2 (Tap.load_ev _ _ _ hu)
  unfold execMemAccess
  split
  · exact loaded _ _ h
  · next gate =>
    rw [not_or] at gate
    rw [if_neg (Nat.not_le.2 (ha (by simpa using gate.1) gate.2))]
    dsimp only
    split
    · exact loaded _ _ (logLost_ev _ (writeMem_ev _ _ _ _ h))
    split <;> rename_i q <;> replace q := snd_ev q (readMem_ev _ _ _ h)
    · exact loaded _ _ q
    · exact loaded _ _ (logEvent_ev _ q)
    · exact loaded _ _ q
theorem execMemAccess_beyondTop {a : Nat} (w : Option Bytes) (hl : Tap.allowed s 0x41 = true) (hp : s.pwr.phase ≠ .scanned)
    (ha : Config.memTop ≤ a) : execMemAccess a w s = .fault (.memAccessBeyondTop a) := by
  rw [execMemAccess, if_neg (by simpa [hl] using hp), if_pos ha]
@[simp] theorem Tap.allowed_memAccess : Tap.allowed s 0x41 = true ↔ 2 ≤ s.ident.level := by
  simp [Tap.allowed, Tap.opLevel]

/-! ### All commands -/

/-- The command is a MEM_ACCESS of an address at or above MEM_TOP that the debug level allows, while the clocks run. -/
def BeyondTop (c : Instr) (s : State) : Prop :=
  ∃ a w, c = .memAccess a w ∧ 2 ≤ s.ident.level ∧ s.pwr.phase ≠ .scanned ∧ Config.memTop ≤ a

theorem exec_beyondTop {c : Instr} (hc : BeyondTop c s) : ∃ f, exec c s = .fault f := by
  obtain ⟨a, w, rfl, hl, hp, ha⟩ := hc
  exact ⟨_, execMemAccess_beyondTop w (Tap.allowed_memAccess.2 hl) hp ha⟩

/-- A line for each command: the law of the operation it runs, or its lemma above. -/
theorem exec_runs {c : Instr} (hc : ¬ BeyondTop c s) (h : Evolves org s) : Runs org (exec c s) := by
  cases c with
  | registerWrite _ _ _ _ => exact runs_next.2 (Bar.write_ev _ _ _ _ h)
  | pwrInRead _ _ _ => exact runs_ite (runs_next.2 (Bar.read_ev _ _ _ h)) (runs_next.2 h)
  | jobRingDoorbell _ _ _ => exact runs_ite (runs_next.2 (Bar.write_ev _ _ _ _ h)) (runs_next.2 h)
  | tmNumClear _ _ => exact runs_next.2 (Bar.write_ev _ _ _ _ h)
  | sealEnWrite _ _ => exact runs_next.2 (Bar.write_ev _ _ _ _ h)
  | eccModeWrite _ _ => exact runs_next.2 (Bar.write_ev _ _ _ _ h)
  | memSealBaseWrite _ _ => exact runs_next.2 (Bar.write_ev _ _ _ _ h)
  | fabIdWrite _ _ => exact runs_next.2 (Bar.write_ev _ _ _ _ h)
  | fabPtpSetWrite _ _ => exact runs_next.2 (Bar.write_ev _ _ _ _ h)
  | portRelease _ _ _ => exact runs_ite (runs_next.2 (Bar.write_ev _ _ _ _ h)) (runs_next.2 h)
  | portEnable _ _ _ => exact runs_ite (runs_next.2 (Bar.write_ev _ _ _ _ h)) (runs_next.2 h)
  | fabOpqTailWrite _ _ _ => exact runs_ite (runs_next.2 (Bar.write_ev _ _ _ _ h)) (runs_next.2 h)
  | buStepWrite _ _ => exact runs_next.2 (Bar.write_ev _ _ _ _ h)
  | idUnlockWrite _ _ => exact runs_next.2 (Bar.write_ev _ _ _ _ h)
  | idDebugLock _ _ => exact runs_next.2 (Bar.write_ev _ _ _ _ h)
  | fabPortKeyWrite _ _ _ _ _ => exact runs_ite (runs_next.2 (Bar.whole_ev _ _ _ h)) (runs_next.2 h)
  | tmObsSelWrite _ _ _ => exact runs_ite (runs_next.2 (Bar.write_ev _ _ _ _ h)) (runs_next.2 h)
  | getState _ _ => exact runs_next.2 (Mbox.submit_ev _ _ _ _ h)
  | getInfo _ _ => exact runs_next.2 (Mbox.submit_ev _ _ _ _ h)
  | ringAssign _ _ _ _ => exact runs_next.2 (Mbox.submit_ev _ _ _ _ h)
  | ringSetup _ _ _ _ _ => exact runs_next.2 (Mbox.submit_ev _ _ _ _ h)
  | ringEnable _ _ _ => exact runs_next.2 (Mbox.submit_ev _ _ _ _ h)
  | ringDisable _ _ _ => exact runs_next.2 (Mbox.submit_ev _ _ _ _ h)
  | contextBind _ _ _ _ => exact runs_next.2 (Mbox.submit_ev _ _ _ _ h)
  | sessionClose _ _ _ _ => exact runs_next.2 (Mbox.submit_ev _ _ _ _ h)
  | roleSet _ _ _ _ => exact runs_next.2 (Mbox.submit_ev _ _ _ _ h)
  | policySet _ _ _ _ => exact runs_next.2 (Mbox.submit_ev _ _ _ _ h)
  | eventRead _ _ _ _ _ => exact runs_next.2 (Mbox.submit_ev _ _ _ _ h)
  | eventAck _ _ _ => exact runs_next.2 (Mbox.submit_ev _ _ _ _ h)
  | override _ _ _ => exact runs_next.2 (Mbox.submit_ev _ _ _ _ h)
  | restart _ _ _ => exact runs_next.2 (Mbox.submit_ev _ _ _ _ h)
  | functionLevelReset _ => exact runs_ite (runs_next.2 (Finish.resetsDone_ev (Rst.start_ev _ h))) (runs_next.2 h)
  | functionResetJobEnd j => exact execFunctionResetJobEnd_runs j h
  | perstNAssert => exact runs_next.2 ((ev_setHost _).2 (Rst.all_ev h))
  | linkHotReset => exact runs_next.2 (Rst.all_ev h)
  | pcieLinkTraining _ _ => exact runs_ite (runs_next.2 h) (runs_next.2 ((ev_setHost _).2 h))
  | bar2Read f a n => exact execBar2Read_runs f a n h
  | bar2Write f a b => exact execBar2Write_runs f a b h
  | admissionDecision => exact execAdmissionDecision_runs h
  | adjournContextWrite j => exact execAdjournContextWrite_runs j h
  | jobCompletion j => exact execJobCompletion_runs j h
  | budgetPeriod => exact runs_next.2 ((ev_setSched _).2 h)
  | blitzDeadlineExpiry t j => exact execBlitzDeadlineExpiry_runs t j h
  | tileStepIssue j g d => exact execTileStepIssue_runs j g d h
  | tileStepComplete j g d => exact execTileStepComplete_runs j g d h
  | sumLinkTransfer j p m => exact execSumLinkTransfer_runs j p m h
  | stationaryReload j g => exact execStationaryReload_runs j g h
  | shadowSwap j g => exact execShadowSwap_runs j g h
  | firstOverflowFault j g => exact execFirstOverflowFault_runs j g h
  | claimRequest j g => exact execClaimRequest_runs j g h
  | claimAnswer j g => exact execClaimAnswer_runs j g h
  | meshTimeout j g => exact execMeshTimeout_runs j g h
  | softmaxCompletionStep j g d => exact execSoftmaxCompletionStep_runs j g d h
  | loopIterationAdvance j => exact execLoopIterationAdvance_runs j h
  | hubExecutionGrant j d => exact execHubExecutionGrant_runs j d h
  | hubExecutionComplete j d => exact execHubExecutionComplete_runs j d h
  | encBlockRow j d => exact execEncBlockRow_runs j d h
  | encChunkEmit j d => exact execEncChunkEmit_runs j d h
  | decPictureOutput j d n => exact execDecPictureOutput_runs j d n h
  | ingestEntry j d => exact execIngestEntry_runs j d h
  | ingestDelivery j d => exact execIngestDelivery_runs j d h
  | liveTickEmit t j d => exact execLiveTickEmit_runs t j d h
  | prefixLookup _ _ => exact runs_next.2 (Pfx.step_ev _ _ _ h)
  | prefixInsert _ _ => exact runs_next.2 (Pfx.step_ev _ _ _ h)
  | prefixFork _ _ => exact runs_next.2 (Pfx.step_ev _ _ _ h)
  | prefixRelease _ _ => exact runs_next.2 (Pfx.step_ev _ _ _ h)
  | prefixFetch _ _ => exact runs_next.2 (Pfx.step_ev _ _ _ h)
  | prefixEvict _ _ => exact runs_next.2 (Pfx.step_ev _ _ _ h)
  | prefixSend _ _ => exact runs_next.2 (Pfx.step_ev _ _ _ h)
  | leaseLapse t n => exact execLeaseLapse_runs t n h
  | atomicUnitRequest j g => exact execAtomicUnitRequest_runs j g h
  | wcWriteMerge src a b => exact execWcWriteMerge_runs src a b h
  | wcIdleFlush t line => exact execWcIdleFlush_runs t line h
  | correctionWriteback line => exact execCorrectionWriteback_runs line h
  | scrubRead => exact execScrubRead_runs h
  | stackTempSample k temp => exact execStackTempSample_runs k temp h
  | portTraining t p locked => exact execPortTraining_runs t p locked h
  | trainingLockTimeout t _ => exact runs_ite (runs_next.2 (tick_ev t h)) (runs_next.2 (Link.lockFails_ev _ (tick_ev t h)))
  | portRetryTimer t _ => exact runs_ite (runs_next.2 (Link.train_ev _ (tick_ev t h))) (runs_next.2 (tick_ev t h))
  | idle t p fr => exact execIdle_runs t p fr h
  | req t p fr => exact execReq_runs t p fr h
  | read _ _ => exact runs_next.2 (FabServe.onServed_ev _ _ _ (fun _ x hu => FabServe.read_ev x hu) h)
  | write _ _ => exact runs_next.2 (FabServe.onServed_ev _ _ _ (fun _ x hu => FabServe.write_ev x hu) h)
  | fetchAdd _ _ => exact runs_next.2 (FabServe.onServed_ev _ _ _ (fun _ x hu => FabServe.atomic_ev x hu) h)
  | cmpSwap _ _ => exact runs_next.2 (FabServe.onServed_ev _ _ _ (fun _ x hu => FabServe.atomic_ev x hu) h)
  | swap _ _ => exact runs_next.2 (FabServe.onServed_ev _ _ _ (fun _ x hu => FabServe.atomic_ev x hu) h)
  | pageRead _ _ => exact runs_next.2 (FabServe.onServed_ev _ _ _ (fun _ x hu => FabServe.pageRead_ev x hu) h)
  | pageWrite _ _ => exact runs_next.2 (FabServe.onServed_ev _ _ _ (fun _ x hu => FabServe.pageWrite_ev x hu) h)
  | prefixRequest _ _ => exact runs_next.2 (FabServe.onServed_ev _ _ _ (fun _ x hu => FabServe.prefixOp_ev x hu) h)
  | data t p fr => exact execData_runs t p fr h
  | resp t p fr => exact execResp_runs t p fr h
  | linkHello t p fr => exact execLinkHello_runs t p fr h
  | linkCredit t p fr => exact execLinkCredit_runs t p fr h
  | linkReplay t p fr => exact execLinkReplay_runs t p fr h
  | linkNak t p fr => exact runs_next.2 (Link.onLink_ev t p 4 fr (fun _ _ hu => hu) h)
  | linkQuarantine t p fr =>
    exact runs_next.2 (Link.onLink_ev t p 5 fr (fun _ _ hu => Link.linkTrainDone_ev (Link.goDown_ev p hu)) h)
  | replayRequestRepeat t _ => exact runs_ite (runs_next.2 (Link.sendReplay_ev _ (tick_ev t h))) (runs_next.2 (tick_ev t h))
  | idleSendTimer t _ => exact runs_ite (runs_next.2 (Link.sendIdle_ev _ (tick_ev t h))) (runs_next.2 (tick_ev t h))
  | creditReturnTimer t _ =>
    exact runs_ite (runs_next.2 (Link.sendLink_ev _ _ (Link.putPort_ev _ _ (tick_ev t h)))) (runs_next.2 (tick_ev t h))
  | quarantineBeacon t _ => exact runs_ite (runs_next.2 (Link.sendLink_ev _ _ (tick_ev t h))) (runs_next.2 (tick_ev t h))
  | forwardQueueTimeout t _ => exact runs_next.2 (Link.putPort_ev _ _ (tick_ev t h))
  | transactionTimeout t tag => exact execTransactionTimeout_runs t tag h
  | targetWriteTimeout t src tag => exact execTargetWriteTimeout_runs t src tag h
  | opqRecordIssue q => exact runs_ite (runs_next.2 (FabServe.issueRecord_ev q h)) (runs_next.2 h)
  | announce _ _ _ => exact runs_next.2 (Time.arrive_ev _ _ _ _ (fun _ b hu => Time.onAnnounce_ev _ b hu) h)
  | sync _ _ _ => exact runs_next.2 (Time.arrive_ev _ _ _ _ (fun _ b hu => Time.onSync_ev _ b hu) h)
  | followUp _ _ _ => exact runs_next.2 (Time.arrive_ev _ _ _ _ (fun _ b hu => Time.onFollowUp_ev _ b hu) h)
  | pdelayReq _ _ _ => exact runs_next.2 (Time.arrive_ev _ _ _ _ (fun _ b hu => Time.onPdelayReq_ev _ b hu) h)
  | pdelayResp _ _ _ => exact runs_next.2 (Time.arrive_ev _ _ _ _ (fun _ b hu => Time.onPdelayResp_ev _ b hu) h)
  | pdelayRespFollowUp _ _ _ =>
    exact runs_next.2 (Time.arrive_ev _ _ _ _ (fun _ b hu => Time.onPdelayRespFollowUp_ev _ b hu) h)
  | ptpSyncTimer t => exact execPtpSyncTimer_runs t h
  | ptpAnnounceTimer t => exact execPtpAnnounceTimer_runs t h
  | ptpPdelayTimer t => exact execPtpPdelayTimer_runs t h
  | ppsInEdge t high rise => exact execPpsInEdge_runs t high rise h
  | ptpSourceLoss t => exact execPtpSourceLoss_runs t h
  | p48vRise _ => exact runs_ite (runs_next.2 ((ev_setPwr _).2 ((ev_setPwr _).2 h))) (runs_next.2 ((ev_setPwr _).2 h))
  | powerGood t => exact execPowerGood_runs t h
  | p48vUndervoltage mv => exact execP48vUndervoltage_runs mv h
  | p48vOvervoltage _ =>
    exact runs_ite (runs_next.2 (Starts.railsOff_ev _ ((ev_setPwr _).2 h))) (runs_next.2 ((ev_setPwr _).2 h))
  | powerSample t mv curr mw rail => exact execPowerSample_runs t mv curr mw rail h
  | pwrBrakeNFall t =>
    exact runs_ite (runs_next.2 (Pwr.enterBrake_ev _ ((ev_setPwr _).2 (tick_ev t h)))) (runs_next.2 ((ev_setPwr _).2
        (tick_ev t h)))
  | brakeRelease t => exact runs_ite (runs_next.2 ((ev_setPwr _).2 (tick_ev t h))) (runs_next.2 (tick_ev t h))
  | controlWindow => exact execControlWindow_runs h
  | cellTempSample k temp => exact execCellTempSample_runs k temp h
  | hubTempSample temp => exact execHubTempSample_runs temp h
  | hubBoot carrier => exact runs_next.2 (Bring.onStep_ev 1 (Recov.hubBoot_ev carrier) h)
  | memTrain failing => exact execMemTrain_runs failing h
  | memInit => exact execMemInit_runs h
  | cellWaves => exact runs_ite (runs_next.2 h) (runs_next.2 (Bring.onStep_ev 4 (ev_setBu _).2 h))
  | cellWave t _ =>
    exact runs_ite (runs_next.2 (ev_ite (Bring.stepDone_ev ((ev_setBu _).2 (tick_ev t h))) ((ev_setBu _).2
        (tick_ev t h)))) (runs_next.2 (tick_ev t h))
  | defectMap => exact execDefectMap_runs h
  | cellFirmware bad => exact execCellFirmware_runs bad h
  | knownAnswer cells engines => exact execKnownAnswer_runs cells engines h
  | linkTrain assemblies => exact execLinkTrain_runs assemblies h
  | ready => exact execReady_runs h
  | stepRetryTimer t => exact runs_ite (runs_next.2 (Starts.startStep_ev _ (tick_ev t h))) (runs_next.2 (tick_ev t h))
  | warmStart t => exact runs_ite (runs_next.2 (Recov.warmStart_ev (tick_ev t h))) (runs_next.2 (tick_ev t h))
  | jobReplay j => exact execJobReplay_runs j h
  | overlongStepTimeout j g d => exact execOverlongStepTimeout_runs j g d h
  | castlingMapChange _ _ => exact runs_ite (runs_next.2 h) (runs_next.2 (Castle.change_ev _ _ h))
  | castlingReturn _ => exact runs_next.2 (Castle.giveBack_ev _ h)
  | moduleLostFault t _ => exact runs_next.2 (Recov.moduleLost_ev _ (tick_ev t h))
  | mpWatchdogTimeout t _ => exact runs_next.2 (Recov.moduleLost_ev _ (tick_ev t h))
  | lockstepMismatch t _ => exact runs_next.2 (Recov.moduleLost_ev _ (tick_ev t h))
  | recoveryRestore t => exact execRecoveryRestore_runs t h
  | flashLogStore t => exact runs_ite (runs_next.2 (tick_ev t h)) (runs_next.2 (Starts.wantStore_ev _ _ (tick_ev t h)))
  | fieldMaskStore t => exact runs_ite (runs_next.2 (Starts.wantStore_ev _ _ (tick_ev t h))) (runs_next.2 (tick_ev t h))
  | setEndpointId _ _ =>
    exact runs_next.2 (Man.onMctp_ev _ (fun h => ev_ite (Man.reply_ev _ _ _ h) (Man.reply_ev _ _ _ ((ev_setMgmt _).2 h))) h)
  | getEndpointId _ => exact runs_next.2 (Man.onMctp_ev _ (fun h => Man.reply_ev _ _ _ h) h)
  | getMctpVersionSupport _ _ => exact runs_next.2 (Man.onMctp_ev _ (fun h => Man.reply_ev _ _ _ h) h)
  | getMessageTypeSupport _ => exact runs_next.2 (Man.onMctp_ev _ (fun h => Man.reply_ev _ _ _ h) h)
  | pldmSensorUpdate t =>
    exact runs_ite (runs_next.2 (tick_ev t h)) (runs_next.2 (ev_foldl (fun _ k hu => Man.updateSensor_ev k hu) _
        (tick_ev t h)))
  | pollForPlatformEventMessage b ack => exact execPollForPlatformEventMessage_runs b ack h
  | setNumericEffecter b eff v => exact execSetNumericEffecter_runs b eff v h
  | requestUpdate _ _ _ =>
    exact runs_next.2 (Man.onMctp_ev _ (fun h => ev_ite (Man.reply_ev _ _ _ h) (ev_ite (Man.reply_ev _ _ _ h)
        (Man.reply_ev _ _ _ (Man.setUpdate_ev _ h)))) h)
  | passComponentTable _ _ =>
    exact runs_next.2 (Man.onUpdate_ev _ (fun _ h => ev_ite (Man.reply_ev _ _ _ h) (Man.reply_ev _ _ _
        (Man.setUpdate_ev _ h))) h)
  | firmwareComponentTransfer t b comp off part => exact execFirmwareComponentTransfer_runs t b comp off part h
  | verifyComplete _ =>
    exact runs_next.2 (Man.onUpdate_ev _ (fun _ h => ev_ite (Man.reply_ev _ _ _ (Man.setUpdate_ev _ h))
        (Man.reply_ev _ _ _ (Man.setUpdate_ev _ h))) h)
  | applyComplete _ =>
    exact runs_next.2 (Man.onUpdate_ev _ (fun _ h => ev_ite (Man.reply_ev _ _ _ (Man.setUpdate_ev _ h))
        (Man.reply_ev _ _ _ h)) h)
  | activateFirmware t b => exact execActivateFirmware_runs t b h
  | cancelUpdate _ => exact runs_next.2 (Man.onUpdate_ev _ (fun _ h => Man.reply_ev _ _ _ (Man.setUpdate_ev _ h)) h)
  | getVersion _ => exact runs_next.2 (ev_ite (Man.reply_ev _ _ _ (Man.setSpdm_ev _ _ _ h)) h)
  | getCapabilities _ => exact runs_next.2 (Man.onSpdm_ev _ _ (fun h => Man.reply_ev _ _ _ (Man.setSpdm_ev _ _ _ h)) h)
  | negotiateAlgorithms _ _ _ =>
    exact runs_next.2 (Man.onSpdm_ev _ _ (fun h => ev_ite (Man.reply_ev _ _ _ (Man.setSpdm_ev _ _ _ h))
        (Man.reply_ev _ _ _ h)) h)
  | getDigests _ => exact runs_next.2 (Man.onSpdm_ev _ _ (fun h => Man.reply_ev _ _ _ (Man.setSpdm_ev _ _ _ h)) h)
  | getCertificate _ _ _ _ =>
    exact runs_next.2 (Man.onSpdm_ev _ _ (fun h => ev_ite (Man.reply_ev _ _ _ h) (Man.reply_ev _ _ _
        (Man.setSpdm_ev _ _ _ h))) h)
  | challenge _ _ _ =>
    exact runs_next.2 (Man.onSpdm_ev _ _ (fun h => ev_ite (Man.reply_ev _ _ _ h) (Man.reply_ev _ _ _
        (Man.setSpdm_ev _ _ _ (Man.nonceOf_ev h)))) h)
  | getMeasurements b idx sign nonce => exact execGetMeasurements_runs b idx sign nonce h
  | cablePoll t c a => exact execCablePoll_runs t c a h
  | vcblOvercurrent _ => exact runs_next.2 ((ev_setIdent _).2 h)
  | tapReset => exact runs_next.2 ((ev_setIdent _).2 h)
  | extest _ => exact runs_next.2 (Tap.load_ev _ _ _ ((ev_setIdent _).2 h))
  | idcode => exact runs_next.2 (Tap.load_ev _ _ _ h)
  | jtagSample _ => exact runs_next.2 (Tap.load_ev _ _ _ ((ev_setIdent _).2 h))
  | preload _ => exact runs_next.2 (Tap.load_ev _ _ _ ((ev_setIdent _).2 h))
  | highz => exact runs_next.2 (Tap.load_ev _ _ _ h)
  | clamp => exact runs_next.2 (Tap.load_ev _ _ _ h)
  | intScan => exact execIntScan_runs h
  | memAccess a w => exact execMemAccess_runs w h fun al hp => not_le.1 fun ha => hc ⟨a, w, rfl, Tap.allowed_memAccess.1 al, hp, ha⟩
  | bypass _ => exact runs_ite (runs_next.2 ((ev_setIdent _).2 h)) (runs_next.2 h)
  | p48vOvervoltageClear _ =>
    exact runs_ite (runs_next.2 ((ev_setPwr _).2 ((ev_setPwr _).2 h))) (runs_next.2 ((ev_setPwr _).2 h))
  | pwrBrakeNRise t => exact execPwrBrakeNRise_runs t h
  | configurationRequest f kind v => exact execConfigurationRequest_runs f kind v h
  | syndromeLockLoss t _ => exact runs_ite (runs_next.2 (Link.leaveUp_ev _ (tick_ev t h))) (runs_next.2 (tick_ev t h))
  | recoveryCutBound t => exact runs_ite (runs_next.2 (Recov.cutAll_ev (tick_ev t h))) (runs_next.2 (tick_ev t h))
  | recentFaultAgeOut t => exact runs_next.2 ((ev_setBu _).2 (tick_ev t h))
  | taiYearChange _ => exact runs_next.2 ((ev_setFlash _).2 h)

/-! ### The statements about every step -/

theorem Evolves.standing (h : Evolves org s) (w : standing org) : standing s := by
  obtain ⟨canon, buffers, variant⟩ := w
  exact ⟨h.mem canon, h.buf buffers, by rw [h.fuses]; exact variant⟩

/-- The front command, taken off the queue, is what a step evolves by. -/
theorem step_ev {t : State} (h : step s = .next t) : Evolves (s.setPending s.pending.tail) t := by
  unfold step at h
  split at h
  · next empty =>
    cases h
    have same : s.setPending [] = s := by rw [← empty]; rfl
    rw [empty, List.tail_nil, same]
    exact Evolves.refl s
  · next c rest queue =>
    rw [queue, List.tail_cons]
    by_cases hc : BeyondTop c (s.setPending rest)
    · obtain ⟨f, hf⟩ := exec_beyondTop hc
      cases hf.symm.trans h
    · exact (exec_runs hc (Evolves.refl _)).evolves h

/-- Settles O59: every command evolves the state it runs on, and evolving keeps each part of the statement. -/
theorem everyStepKeepsStandingState : Obligations.EveryStepKeepsStandingState := by
  intro s t h
  have e : Evolves (s.setPending s.pending.tail) t := step_ev h
  exact ⟨e.standing, e.fuses, e.svn, e.log, e.clock, e.values, e.queue⟩

/-- Settles O60: the table of all commands, and MEM_ACCESS beyond MEM_TOP by its own lemma. -/
theorem everyCommandCompletes : Obligations.EveryCommandCompletes := by
  intro c s
  refine ⟨fun below => ?_, ?_⟩
  · have hc : ¬ BeyondTop c s := fun ⟨a, w, e, hl, _, ha⟩ => absurd (below a w e hl) (not_lt.2 ha)
    obtain ⟨t, ht, e⟩ := exec_runs hc (Evolves.refl s)
    exact ⟨t, ht, e.queue⟩
  · rintro a w rfl hl hp ha
    exact execMemAccess_beyondTop w (Tap.allowed_memAccess.2 hl) hp ha

end Machine
end Sys2Proof
end

section
/-! PROOF. The JTAG port: what an instruction loads at its debug level, and MEM_ACCESS to one unit of memory
(spec/21_management_identity_debug.md). -/

namespace Sys2Proof
namespace Machine

open Bits Ops

variable {s : State}

namespace Tap

/-- The state in which BYPASS is selected. -/
def bypassed (s : State) : State := s.setIdent { s.ident with ir := 0xFF, pinMode := 0, tdo := none }
/-- The state in which an instruction is loaded: what it drives, and what it shifts out. -/
def loaded (s : State) (op mode : Nat) (tdo : Option Bytes) : State :=
  s.setIdent { s.ident with ir := op, pinMode := mode, tdo := tdo }

theorem allowed_public {op : Nat} (h : op ≤ 3) : allowed s op = true := by
  rw [allowed, opLevel, if_pos (.inl h)]
  rfl

/-- The listed opcodes of level 2. -/
def debugOps : List Nat := [0x04, 0x05, 0x40, 0x41]

theorem allowed_debug {op : Nat} (h : op ∈ debugOps) : allowed s op = decide (2 ≤ s.ident.level) := by
  have two : op = 4 ∨ op = 5 ∨ op = 0x40 ∨ op = 0x41 := by simpa [debugOps] using h
  have nonzero : ¬(op ≤ 3 ∨ op = 0xFF) := by omega
  rw [allowed, opLevel, if_neg nonzero, if_pos two]

theorem allowed_unlisted {op : Nat} (h : op ∉ [0x00, 0x01, 0x02, 0x03, 0x04, 0x05, 0x40, 0x41]) (hb : op ≠ 0xFF) :
    allowed s op = false := by
  simp only [List.mem_cons, List.not_mem_nil, or_false, not_or] at h
  have nonzero : ¬(op ≤ 3 ∨ op = 0xFF) := by omega
  have nondebug : ¬(op = 4 ∨ op = 5 ∨ op = 0x40 ∨ op = 0x41) := by omega
  rw [allowed, opLevel, if_neg nonzero, if_neg nondebug]

theorem load_public {op : Nat} (h : op ≤ 3) (mode : Nat) (d : Option Bytes) : load s op mode d = loaded s op mode d :=
  if_pos (allowed_public h)

theorem load_debug {op : Nat} (h : op ∈ debugOps) (mode : Nat) (d : Option Bytes) :
    load s op mode d = if 2 ≤ s.ident.level then loaded s op mode d else bypassed s := by
  rw [load, allowed_debug h]
  simp only [decide_eq_true_eq]
  rfl

end Tap

/-! ### The level gate -/

/-- Settles O1: the five opcodes up to 3 load at every level. -/
theorem jtagPublicInstructions : Obligations.JtagPublicInstructions := by
  intro s v
  have idcode : toLe 4 Config.idcode.toNat = [0x6B#8, 0x8A#8, 0xB4#8, 0x14#8] := by decide
  refine ⟨rfl, congrArg Host.Outcome.next (Tap.load_public (by decide) 1 none), ?_,
    congrArg Host.Outcome.next (Tap.load_public (by decide) 0 _), congrArg Host.Outcome.next (Tap.load_public (by decide) 0 none)⟩
  rw [← idcode]
  exact congrArg Host.Outcome.next (Tap.load_public (by decide) 0 _)

theorem exec_intScan (s : State) : exec .intScan s = .next (if 2 ≤ s.ident.level then
    (let t := Tap.loaded s 0x40 0 none
     if s.pwr.phase = .good then { t with
       pwr := { s.pwr with phase := .scanned }
       bu := { s.bu with stopped := true } } else t) else Tap.bypassed s) := by
  show execIntScan s = _
  rw [execIntScan, Tap.load_debug (by decide), Tap.allowed_debug (by decide)]
  by_cases level : 2 ≤ s.ident.level
  · by_cases good : s.pwr.phase = .good
    · simp [level, good, Tap.loaded, State.setPwr, State.setBu, State.setIdent]
    · simp [level, good]
  · simp [level]

theorem exec_memAccess_locked (h : s.ident.level < 2) (a : Nat) (w : Option Bytes) :
    exec (.memAccess a w) s = .next (Tap.bypassed s) := by
  have shut : Tap.allowed s 0x41 = false := by simpa [Tap.allowed_debug (s := s) (op := 0x41) (by decide)] using h
  show execMemAccess a w s = _
  rw [execMemAccess, if_pos (by simp [shut]), Tap.load_debug (by decide), if_neg (Nat.not_le.2 h)]

theorem exec_bypass {op : Byte} (h : op = 0xFF ∨ Tap.allowed s op.toNat = false) :
    exec (.bypass op) s = .next (Tap.bypassed s) := by
  have acts : op.toNat = 0xFF ∨ !Tap.allowed s op.toNat := h.imp (by rintro rfl; rfl) (by simp [·])
  exact if_pos acts

/-- Settles O2: an opcode of level 2 loads where the level allows it, and any other selects BYPASS. -/
theorem jtagLevelGate : Obligations.JtagLevelGate := by
  intro s op a w
  refine ⟨congrArg Host.Outcome.next (Tap.load_debug (by decide) 3 none),
    congrArg Host.Outcome.next (Tap.load_debug (by decide) 2 none), exec_intScan s,
    fun level => exec_memAccess_locked level a w, ?_⟩
  rintro (rfl | unlisted | ⟨debug, level⟩)
  · exact exec_bypass (.inl rfl)
  · by_cases allOnes : op = 0xFF
    · exact exec_bypass (.inl allOnes)
    · exact exec_bypass (.inr (Tap.allowed_unlisted unlisted fun h => allOnes (BitVec.eq_of_toNat_eq h)))
  · have shut : Tap.allowed s op.toNat = false := by simpa [Tap.allowed_debug debug] using level
    exact exec_bypass (.inr shut)

/-! ### MEM_ACCESS -/

section
variable {a : Nat} (level : 2 ≤ s.ident.level) (clocked : s.pwr.phase ≠ .scanned) (below : a < Config.memTop)
include level clocked below

theorem exec_memAccess_read {d : Bytes} {t : State} (read : readMem s 10 (a / 16 * 16) 16 = (.ok d, t)) :
    exec (.memAccess a none) s = .next (Tap.load t 0x41 0 (some d)) := by
  have opened : ¬(!Tap.allowed s 0x41 ∨ s.pwr.phase = .scanned) := by
    simp [Tap.allowed_debug (s := s) (op := 0x41) (by decide), level, clocked]
  show execMemAccess a none s = _
  rw [execMemAccess, if_neg opened, if_neg (Nat.not_le.2 below)]
  dsimp only
  rw [read]

theorem exec_memAccess_write {d : Bytes} {t : State}
    (written : writeMem s ⟨none, 0xFFFFFFFF, 0x10000⟩ 10 (a / 16 * 16) (slice d 0 16) = (t, [])) :
    exec (.memAccess a (some d)) s = .next (Tap.load t 0x41 0 none) := by
  have opened : ¬(!Tap.allowed s 0x41 ∨ s.pwr.phase = .scanned) := by
    simp [Tap.allowed_debug (s := s) (op := 0x41) (by decide), level, clocked]
  show execMemAccess a (some d) s = _
  rw [execMemAccess, if_neg opened, if_neg (Nat.not_le.2 below)]
  dsimp only
  rw [written]
  rfl

end

/-- Settles O3: the unit is read by readMem_clean and written by writeMem_clean, and the instruction is loaded after it. -/
theorem memAccessReadsAndWritesAUnit : Obligations.MemAccessReadsAndWritesAUnit := by
  intro s a d level clocked below clean unit u
  have load (t : State) (same : t.ident = s.ident) (x : Option Bytes) : Tap.load t 0x41 0 x = Tap.loaded t 0x41 0 x := by
    rw [Tap.load_debug (by decide), same, if_pos level]
  constructor
  · have charged (n : Nat) (k : Nat) (hk : k < 16) (other : k ≠ 10) :
        budgetAt (chargeStacks (charge s.sched 10 n 0) s.mem u 16) k = budgetAt s.sched k := by
      rw [budgetAt_chargeStacks _ _ _ _ _ hk, budgetAt_charge, if_neg other]
    refine ⟨Tap.loaded (s.setSched (chargeStacks (charge s.sched 10 (Memory.linesOf u 16) 0) s.mem u 16)) 0x41 0
      (some ((List.range 16).map fun i => byteOf s (u + i))), ?_, ?_, charged _⟩
    · rw [exec_memAccess_read level clocked below (readMem_clean clean _ _ _)]
      refine congrArg Host.Outcome.next (load _ ?_ _)
      rfl
    · rw [chargeStacks_eq]
      rfl
  · obtain ⟨t, written, -, bytes, same⟩ := writeMem_clean clean ⟨none, 0xFFFFFFFF, 0x10000⟩ 10 u (slice d 0 16)
    have whole : slice d 0 16 = d := by simp [slice, unit]
    refine ⟨Tap.loaded t 0x41 0 none, ?_, ?_, ?_, ?_⟩
    · rw [exec_memAccess_write level clocked below written]
      exact congrArg Host.Outcome.next (load t (by rw [same]) none)
    · intro x
      have stored := bytes x
      rw [Memory.length_slice, whole] at stored
      exact stored
    · rw [same]
      rfl
    · rw [same]
      rfl

end Machine
end Sys2Proof
end

section
/-! PROOF. Writes of single registers: what the physical function's write of memory, fabric, telemetry and bring-up
registers comes to, and TAIL of a ring by its owner. -/

namespace Sys2Proof
namespace Machine

open Bits Ops

variable {s : State}

/-- Registers from 0x20000 on lie above every MSI-X table and mailbox. -/
theorem Bar.plain_high {f o w : Nat} (al : Regs.aligned o w = true) (high : 0x20000 ≤ o) : Bar.plain f o w := by
  have table : 0x8000 + 16 * Bar.msixCount f ≤ o := by
    unfold Bar.msixCount
    split <;> omega
  exact ⟨al, .inr table, .inr high⟩

theorem Regs.aligned_four {o : Nat} (h : o % 4 = 0) (top : o < 0x4000000) : Regs.aligned o 4 = true := by
  simp [Regs.aligned, h, top]

/-! ### Memory registers -/

theorem Regs.mayWrite_shared {h : HostIf} {f : Nat} {r : Reg} (ring : Regs.ringOf r = none) (ident : Regs.isId r = false) :
    Regs.mayWrite h f r = (f == 0) := by
  rw [Regs.mayWrite, Regs.responds, ring, ident]
  cases f == 0 <;> rfl

theorem Regs.writeMemCtl_eq (s : State) (v : Nat) : Regs.writeMemCtl s v = if s.sched.jobs = [] then
    s.setMem { s.mem with eccMode := bit v 0, sealEn := bit v 1 && (s.mem.sealEn || Regs.sealAllowed s) } else s := by
  have enabled : (if bit v 1 then s.mem.sealEn || Regs.sealAllowed s else false) =
      (bit v 1 && (s.mem.sealEn || Regs.sealAllowed s)) := by cases bit v 1 <;> rfl
  rw [Regs.writeMemCtl, enabled]
  by_cases idle : s.sched.jobs = [] <;> simp [idle]

/-- Settles O4: both are writes of MEM_CTL and MEM_SEAL_BASE, which only the physical function may write. -/
theorem memoryRegisterWrites : Obligations.MemoryRegisterWrites := by
  intro s f v b awake written
  have ctl : Bar.write s f 0x300000 4 v.toNat = written := by
    rw [Bar.write_four awake (Bar.plain_high (by decide) (by decide)) (r := .memCtl) (by decide),
      Regs.mayWrite_shared rfl rfl, Nat.mod_eq_of_lt v.isLt]
    by_cases pf : f = 0
    · simp only [pf, beq_self_eq_true, if_true]
      exact (Regs.writeMemCtl_eq s v.toNat).trans (by simp [written, pf])
    · simp [written, pf]
  refine ⟨congrArg _ ctl, congrArg _ ctl, Bar.write s f 0x300008 8 b.toNat, rfl, ?_⟩
  rw [Bar.write_eight awake (Bar.plain_high (by decide) (by decide)) (r := .memSealBase) (by decide) _ b.isLt,
    Regs.mayWrite_shared rfl rfl]
  by_cases pf : f = 0
  · have write (t : State) : Regs.write t 0 b.toNat .memSealBase =
        if t.mem.sealEn then t else t.setMem { t.mem with sealBase := b.toNat / 4096 * 4096 } := rfl
    subst pf
    rw [beq_self_eq_true, if_pos rfl, write]
    cases sealed : s.mem.sealEn <;> simp [sealed, State.setHost, State.setMem, Regs.unstage]
  · simp [pf]

/-! ### Fabric registers -/

theorem Regs.anyUp_iff : Regs.anyUp s = true ↔ ∃ p < 24, (Link.portAt s p).state = .up := by
  simp [Regs.anyUp]

theorem Regs.writePtpSet_eq (s : State) (v : Nat) : ∃ t, Regs.writePtpSet s v = { s with ptp := t } ∧
    t = (if Time.source s = 2 then { s.ptp with pendSet := some v }
      else if Time.source s = 0 ∨ s.ptp.slave = none then
        { s.ptp with offset := (v * 1000000000 : Nat) - (s.now : Int), since := s.now }
      else s.ptp) := by
  refine ⟨_, ?_, rfl⟩
  rw [Regs.writePtpSet]
  simp only [Option.isNone_iff_eq_none]
  split
  · rfl
  · split <;> rfl

/-- Settles O5: the physical function may write each of the three registers, and each write has its own law. -/
theorem fabricRegisterWrites : Obligations.FabricRegisterWrites := by
  intro s v b q awake queue
  have id : exec (.fabIdWrite 0 v) s = .next (Regs.writeFabId s v.toNat) :=
    congrArg Host.Outcome.next (Bar.pf_write awake (Bar.plain_high (by decide) (by decide)) (r := .fabId) (by decide) v)
  refine ⟨fun up => ?_, fun down => ?_, ?_, ?_⟩
  · rw [id, Regs.writeFabId, if_pos (Regs.anyUp_iff.2 up)]
  · have none : ¬ Regs.anyUp s = true := fun up => let ⟨p, hp, e⟩ := Regs.anyUp_iff.1 up; down p hp e
    rw [id, Regs.writeFabId, if_neg none]
  · have al : Regs.aligned (0x104010 + 0x20 * q) 4 = true := Regs.aligned_four (by omega) (by omega)
    show execFabOpqTailWrite 0 q v s = _
    rw [execFabOpqTailWrite, if_pos queue, Bar.pf_write awake (Bar.plain_high al (by omega)) (Regs.regAt_opqTail q queue)]
    show Host.Outcome.next (Regs.writeOpqTail s q v.toNat) = _
    rw [Regs.writeOpqTail, Nat.mod_eq_of_lt v.isLt]
  · have set : Bar.write s 0 0x100020 8 b.toNat = Regs.writePtpSet (s.setHost (Regs.unstage s.host 0 0x100020 8)) b.toNat :=
      Bar.pf_write_wide awake (Bar.plain_high (by decide) (by decide)) (r := .fabPtpSet) (by decide) b
    obtain ⟨ptp, e, value⟩ := Regs.writePtpSet_eq (s.setHost (Regs.unstage s.host 0 0x100020 8)) b.toNat
    exact ⟨_, congrArg Host.Outcome.next (set.trans e), value, rfl⟩

/-! ### Telemetry -/

theorem Regs.writeObsSel_listed {k v n : Nat} (h : Regs.signalLevel (field v 7 0) = some n) (level : n ≤ s.ident.level) :
    Regs.writeObsSel s k v = s.setIdent { s.ident with obsSel := Sparse.put s.ident.obsSel k (field v 27 0) } := by
  simp [Regs.writeObsSel, h, level]
theorem Regs.writeObsSel_ignored {k v : Nat} (h : ∀ n, Regs.signalLevel (field v 7 0) = some n → s.ident.level < n) :
    Regs.writeObsSel s k v = s := by
  rw [Regs.writeObsSel]
  split
  · next n listed => exact if_neg (Nat.not_le.2 (h n listed))
  · rfl

/-- An 8-byte read of PWR_IN takes the latch and captures the register. -/
theorem Bar.read_pwrIn (h : Mbox.reachable s 0 = true) :
    ∃ l, Bar.read s 0 0x80000 8 = { s with
      pwr := { s.pwr with latch := some (s.pwr.latest.rails, s.pwr.latest.time, s.pwr.pAvg) }
      host := { s.host with
        captured := l
        lastRead := some ⟨0, .ok, toLe 8 (Regs.value s .pwrIn % 2 ^ (8 * 8))⟩ } } := by
  have reg : Regs.regAt 0x80000 = some (.pwrIn, 0x80000, 8) := by decide
  have read : Regs.readReg s 0 0x80000 8 = (Regs.value s .pwrIn % 2 ^ (8 * 8), (Regs.takeLatch s).setHost { s.host with
      captured := (0, 0x80000, Regs.value s .pwrIn) :: s.host.captured.filter fun e => !(e.1 == 0 && e.2.1 == 0x80000) }) := by
    rw [Regs.readReg, reg]
    rfl
  refine ⟨(0, 0x80000, Regs.value s .pwrIn) :: s.host.captured.filter fun e => !(e.1 == 0 && e.2.1 == 0x80000), ?_⟩
  rw [Bar.read, h, show Regs.aligned 0x80000 8 = true by decide, read]
  rfl

/-- Settles O7: TM_NUM_CTL and TM_OBS_SEL are written at once, and the read of PWR_IN takes its latch. -/
theorem telemetryWritesAndTheLatch : Obligations.TelemetryWritesAndTheLatch := by
  intro s v k awake pin
  have ctl : Bar.write s 0 0x80100 4 v.toNat = Regs.write s 0 v.toNat .tmNumCtl :=
    Bar.pf_write awake (Bar.plain_high (by decide) (by decide)) (r := .tmNumCtl) (by decide) v
  have sel : exec (.tmObsSelWrite 0 k v) s = .next (Regs.writeObsSel s k v.toNat) := by
    have al : Regs.aligned (0x400000 + 8 * k) 4 = true := Regs.aligned_four (by omega) (by omega)
    show execTmObsSelWrite 0 k v s = _
    rw [execTmObsSelWrite, if_pos pin, Bar.pf_write awake (Bar.plain_high al (by omega)) (Regs.regAt_obsSel k pin)]
    rfl
  refine ⟨⟨_, congrArg Host.Outcome.next ctl, rfl, rfl, rfl, rfl, rfl, rfl⟩, ?_, fun above => ?_, ?_⟩
  · rintro ⟨n, listed, level⟩
    rw [sel, Regs.writeObsSel_listed listed level]
  · rw [sel, Regs.writeObsSel_ignored above]
  · obtain ⟨l, e⟩ := Bar.read_pwrIn awake
    exact ⟨_, congrArg Host.Outcome.next e, rfl, rfl, rfl⟩

/-! ### Key slots -/

theorem Regs.writePortKey_blocked {p d k v : Nat} (h : d = 0 ∧ k = (Link.cfgAt s p).txSlot ∧ (Link.portAt s p).state = .up) :
    Regs.writePortKey s p d k v = s := if_pos h

/-- The key that a write of a slot gives. -/
def Regs.keyOf (v : Nat) : PortKey := ⟨BitVec.ofNat 32 (field v 287 256), BitVec.ofNat 256 v, true, 0⟩

theorem Regs.writePortKey_loads {p d k v : Nat}
    (h : ¬(d = 0 ∧ k = (Link.cfgAt s p).txSlot ∧ (Link.portAt s p).state = .up)) :
    Regs.writePortKey s p d k v =
      (let c := Link.cfgAt s p
       let x := Link.portAt s p
       let loaded := Link.putCfg s p { c with keys := Sparse.put c.keys (2 * d + k) (Regs.keyOf v) }
       if d = 0 ∧ k = c.txSlot then Link.putPort loaded p { x with keySpent := false } else loaded) := if_neg h

/-- Settles O9: the slot is blocked while it transmits on an UP port; elsewhere the write of the whole register loads it. -/
theorem portKeyWrites : Obligations.PortKeyWrites := by
  intro s p d k v hp hd hk awake g x blocked key
  obtain ⟨z, unstaged⟩ : ∃ z, Regs.unstage s.host 0 (0x108000 + 0x100 * p + 0x80 * d + 0x40 * k) 64 =
      { s.host with staged := z } := ⟨_, rfl⟩
  have e : exec (.fabPortKeyWrite 0 p d k v) s =
      .next (Regs.writePortKey (s.setHost { s.host with staged := z }) p d k v.toNat) := by
    show execFabPortKeyWrite 0 p d k v s = _
    rw [execFabPortKeyWrite, if_pos ⟨hp, hd, hk⟩, Bar.whole, awake, if_neg (by decide), Regs.regAt_portKey hp hd hk,
      ← unstaged]
    exact congrArg Host.Outcome.next (if_pos (Regs.mayWrite_pf _ _))
  by_cases h : blocked
  · rw [Regs.writePortKey_blocked (s := s.setHost { s.host with staged := z }) h] at e
    exact ⟨_, e, rfl, fun _ => rfl, fun open_ => absurd h open_⟩
  · rw [Regs.writePortKey_loads (s := s.setHost { s.host with staged := z }) h] at e
    by_cases tx : d = 0 ∧ k = g.txSlot
    · have spent : (x.keySpent && !(decide (d = 0) && decide (k = g.txSlot))) = false := by simp [tx]
      replace e := e.trans (congrArg Host.Outcome.next (if_pos tx))
      refine ⟨_, e, rfl, fun hb => absurd hb h, fun _ => ⟨Link.cfgAt_putCfg_self _ _ _, ?_, fun q other => ?_⟩⟩
      · rw [spent]
        exact Link.portAt_putPort_self _ _ _
      · simp only [Link.cfgAt_putPort, Link.portAt_putPort, Link.cfgAt_putCfg, Link.portAt_putCfg, if_neg other]
        exact ⟨rfl, rfl⟩
    · have spent : (x.keySpent && !(decide (d = 0) && decide (k = g.txSlot))) = x.keySpent := by
        have : (decide (d = 0) && decide (k = g.txSlot)) = false := by simpa using tx
        rw [this, Bool.not_false, Bool.and_true]
      replace e := e.trans (congrArg Host.Outcome.next (if_neg tx))
      refine ⟨_, e, rfl, fun hb => absurd hb h, fun _ => ⟨Link.cfgAt_putCfg_self _ _ _, ?_, fun q other => ?_⟩⟩
      · rw [spent]
        rfl
      · simp only [Link.portAt_putCfg, Link.cfgAt_putCfg, if_neg other]
        exact ⟨rfl, rfl⟩

/-! ### A ring's doorbell -/

/-- A doorbell that the ring takes. -/
def Regs.takesBell (s : State) (f r tail : Nat) : Prop :=
  let x := ringAt s.host r
  x.owner = f ∧ (x.state = 2 ∨ x.state = 3 ∨ x.state = 4) ∧ (tail + 2 ^ 32 - x.head) % 2 ^ 32 ≤ 2 ^ x.log2

theorem Regs.mayWrite_jrTail {f r tail : Nat} (h : Regs.takesBell s f r tail) : Regs.mayWrite s.host f (.jrTail r) = true := by
  obtain ⟨owner, state, -⟩ := h
  have assigned : (ringAt s.host r).state ≠ 0 := by omega
  simp [Regs.mayWrite, Regs.responds, Regs.isId, Regs.ringOf, owner, assigned]

theorem exec_jobRingDoorbell {f r : Nat} (w : Word) (hr : r < 64) (awake : Mbox.reachable s f = true) :
    exec (.jobRingDoorbell f r w) s =
      .next (if Regs.mayWrite s.host f (.jrTail r) then Regs.doorbell s f r w.toNat else s) := by
  have al : Regs.aligned (0x20010 + 0x40 * r) 4 = true := Regs.aligned_four (by omega) (by omega)
  show execJobRingDoorbell f r w s = _
  rw [execJobRingDoorbell, if_pos hr, Bar.write_four awake (Bar.plain_high al (by omega)) (Regs.regAt_jrTail r hr),
    Nat.mod_eq_of_lt w.isLt]
  rfl

theorem Regs.doorbell_ignored {f r : Nat} (w : Word) (h : ¬ Regs.takesBell s f r w.toNat) : Regs.doorbell s f r w.toNat = s := by
  rw [Regs.doorbell, Nat.mod_eq_of_lt w.isLt]
  exact if_neg h

theorem Regs.doorbell_taken {f r : Nat} (w : Word) (h : Regs.takesBell s f r w.toNat) {t : State}
    (flushed : flushWhere s (fun e => e.writers.any (·.src / 0x10000 == 2)) = (t, [])) :
    Regs.doorbell s f r w.toNat = t.setHost (putRing t.host r { ringAt s.host r with
      tail := w.toNat, bells := (ringAt s.host r).bells ++ [(w.toNat, t.now)] }) := by
  rw [Regs.doorbell, Nat.mod_eq_of_lt w.isLt]
  refine (if_pos h).trans ?_
  rw [flushed]
  rfl

/-- Settles O10: a doorbell that the ring takes flushes the entries with BAR2 writes and writes TAIL. -/
theorem doorbellWritesTail : Obligations.DoorbellWritesTail := by
  intro s f r w hr awake x takes
  rw [exec_jobRingDoorbell w hr awake]
  refine ⟨fun ignored => ?_, fun taken clean => ?_⟩
  · rw [Regs.doorbell_ignored w ignored, ite_self]
  · obtain ⟨t, flushed, -, bytes, gone, same⟩ := flush_clean clean fun e => e.writers.any (·.src / 0x10000 == 2)
    have host : t.host = s.host := by rw [same]
    have now : t.now = s.now := by rw [same]
    rw [Regs.mayWrite_jrTail taken, if_pos rfl, Regs.doorbell_taken w taken flushed, host, now]
    refine ⟨_, rfl, Sparse.getD_put_self _ _ _ _, fun q other => Sparse.getD_put_ne _ other _ _, bytes, ?_, ?_⟩
    · intro e he y hy bar2
      have kept := List.any_eq_false.1 (gone e he) y hy
      simp [bar2] at kept
    · rw [same]
      rfl

/-! ### BU_STEP -/

/-- Settles O11: the write starts a step, writes AUTO, or sets REJECT. -/
theorem bringUpStepWrites : Obligations.BringUpStepWrites := by
  intro s v awake running target en cool
  have e : exec (.buStepWrite 0 v) s = .next (Bring.writeStep s v.toNat) :=
    congrArg Host.Outcome.next (Bar.pf_write awake ⟨by decide, by decide, by decide⟩ (r := .buStep) (by decide) v)
  have unstopped : ¬(s.bu.phase = 2 ∧ (s.bu.code = 0x0801 ∨ s.bu.code = 0x0802) ∧
      field v.toNat 3 0 = s.bu.step ∧ field v.toNat 3 0 ≠ 0) := fun ⟨phase, code, _⟩ => running ⟨phase, code⟩
  rw [e, Bring.writeStep]
  dsimp only
  rw [if_neg unstopped]
  refine ⟨fun named bad => ?_, fun named manual next done below ⟨supply, temps⟩ => ?_, fun auto still => ?_, fun auto on done below ⟨supply, temps⟩ => ?_⟩
  · have refused : ¬(¬ s.bu.auto ∧ target = s.bu.step + 1 ∧ s.bu.phase = 1 ∧ target ≤ 9) := by
      rintro ⟨manual, next, done, below⟩
      rcases bad with h | h | h | h
      · exact manual h
      · exact h next
      · exact h done
      · omega
    rw [if_neg named, if_neg refused]
  · rw [if_neg named, if_pos ⟨by simp [manual], next, done, below⟩]
    exact congrArg _ (Starts.startStep_runs supply temps)
  · have still : ¬(en ∧ s.bu.phase = 1 ∧ s.bu.step < 9) := by
      rintro ⟨on, done, below⟩
      rcases still with h | h | h
      · exact absurd (on.symm.trans h) (by decide)
      · exact h done
      · omega
    rw [if_pos auto, if_neg still]
  · rw [if_pos auto, if_pos ⟨on, done, below⟩, ← on]
    exact congrArg _ (Starts.startStep_runs supply temps)

end Machine
end Sys2Proof
end

section
/-! PROOF. A write of FAB_PORT_CTL: the settings it writes, and the state of the port that follows from them
(spec/14_twisil_fabric.md R338, R344). -/

namespace Sys2Proof
namespace Machine

open Bits Ops Link

namespace Link

/-- From s to t port p alone changed: its settings are c, its state is y, and outside the fabric a port may have ended its
attempt. -/
structure PortSet (s t : State) (p : Nat) (c : PortCfg) (y : Port) : Prop where
  cfg : cfgAt t p = c
  port : portAt t p = y
  others : ∀ q ≠ p, portAt t q = portAt s q ∧ cfgAt t q = cfgAt s q
  rest : t = { s with fab := t.fab, bu := { s.bu with trained := t.bu.trained } }

namespace PortSet

variable {s t : State} {p : Nat} {c : PortCfg} {x y : Port}

theorem putPort (h : PortSet s t p c x) (y : Port) : PortSet s (putPort t p y) p c y where
  cfg := h.cfg
  port := portAt_putPort_self _ _ _
  others q hq := by
    rw [portAt_putPort, if_neg hq]
    exact h.others q hq
  rest := by
    rw [h.rest]
    rfl

/-- The settings are written, and a release ends the times of the violations. -/
theorem of_settings (s : State) (p : Nat) (c : PortCfg) (release : Bool) :
    PortSet s (if release then Link.putPort (putCfg s p c) p { portAt (putCfg s p c) p with violTimes := [] } else putCfg s p c)
      p c { portAt s p with violTimes := if release then [] else (portAt s p).violTimes } := by
  have written : PortSet s (putCfg s p c) p c (portAt s p) :=
    ⟨cfgAt_putCfg_self _ _ _, rfl, fun q hq => ⟨rfl, by rw [cfgAt_putCfg, if_neg hq]⟩, rfl⟩
  cases release
  · exact written
  · exact written.putPort _

theorem ended (h : PortSet s t p c y) : PortSet s (ended t p) p c y := by
  unfold Link.ended
  split
  · exact h
  · exact ⟨h.cfg, h.port, h.others, by rw [h.rest]; rfl⟩

/-- A port that trains keeps the times of its violations, and is DOWN without a cable. -/
theorem train (h : PortSet s t p c x) : ∃ y, PortSet s (train t p) p c y ∧ y.violTimes = x.violTimes ∧
    y.state = if hasCable s p then .training else .down := by
  have cable : hasCable t p = hasCable s p := by rw [h.rest]; rfl
  unfold Link.train
  rw [cable, h.port]
  cases hasCable s p
  · exact ⟨_, (h.putPort _).ended, rfl, rfl⟩
  · exact ⟨_, h.putPort _, rfl, rfl⟩

end PortSet

/-- Whatever ends with LINK_TRAIN, the port stands as it was set; outside that step nothing else changes. -/
structure PortKept (s t : State) (p : Nat) (c : PortCfg) (y : Port) : Prop where
  cfg : cfgAt t p = c
  port : portAt t p = y
  others : ∀ q ≠ p, portAt t q = portAt s q ∧ cfgAt t q = cfgAt s q
  rest : s.bu.step ≠ 8 → t = { s with fab := t.fab, bu := { s.bu with trained := t.bu.trained } }

theorem PortSet.kept {s t : State} {p : Nat} {c : PortCfg} {y : Port} (h : PortSet s t p c y) : PortKept s t p c y :=
  ⟨h.cfg, h.port, h.others, fun _ => h.rest⟩

theorem PortSet.linkTrainDone {s t : State} {p : Nat} {c : PortCfg} {y : Port} (h : PortSet s t p c y) :
    PortKept s (linkTrainDone t) p c y where
  cfg := (cfgAt_linkTrainDone t p).trans h.cfg
  port := (portAt_linkTrainDone t p).trans h.port
  others q hq := by
    rw [portAt_linkTrainDone, cfgAt_linkTrainDone]
    exact h.others q hq
  rest other := by
    have step : t.bu.step = s.bu.step := by rw [h.rest]
    rw [linkTrainDone_other t (by rw [step]; exact other)]
    exact h.rest

end Link

namespace Regs

variable (s : State) (p v : Nat)

/-- The settings that a write of v leaves. -/
def portCfg : PortCfg :=
  { cfgAt s p with maxGen := field v 3 2, enable := bit v 0, qmark := (cfgAt s p).qmark && !bit v 1 }
/-- The port with the times of its violations as the write leaves them. -/
def portTimed : Port := { portAt s p with violTimes := if bit v 1 then [] else (portAt s p).violTimes }

/-- The port's settings are written and its times are timed, whatever follows. -/
def portWritten : State :=
  let t := putCfg s p (portCfg s p v)
  if bit v 1 then putPort t p { portAt t p with violTimes := [] } else t

theorem portWritten_set : PortSet s (portWritten s p v) p (portCfg s p v) (portTimed s p v) := PortSet.of_settings s p _ _

theorem writePortCtl_eq : writePortCtl s p v =
    if !bit v 0 then
      linkTrainDone (putPort (portWritten s p v) p { portAt (portWritten s p v) p with state := .disabled, gen := 0, wasUp := false })
    else if (cfgAt s p).qmark && !bit v 1 then
      (if (portAt s p).state = .disabled then
        putPort (portWritten s p v) p { portAt (portWritten s p v) p with state := .quarantined } else portWritten s p v)
    else if (portAt s p).state = .quarantined ∨ ((portAt s p).state = .disabled ∧ 8 ≤ (portWritten s p v).bu.step) ∨
        (bit v 1 ∧ (cfgAt s p).qmark) then train (portWritten s p v) p
    else portWritten s p v := rfl

variable {s p v}

theorem writePortCtl_disables (h : bit v 0 = false) : PortKept s (writePortCtl s p v) p (portCfg s p v)
    { portTimed s p v with state := .disabled, gen := 0, wasUp := false } := by
  rw [writePortCtl_eq, h, if_pos (by decide), (portWritten_set s p v).port]
  exact ((portWritten_set s p v).putPort _).linkTrainDone

theorem writePortCtl_marked (h : bit v 0 = true) (mark : ((cfgAt s p).qmark && !bit v 1) = true) :
    PortKept s (writePortCtl s p v) p (portCfg s p v)
      (if (portAt s p).state = .disabled then { portTimed s p v with state := .quarantined } else portTimed s p v) := by
  rw [writePortCtl_eq, h, if_neg (by decide), if_pos mark, (portWritten_set s p v).port]
  split
  · exact ((portWritten_set s p v).putPort _).kept
  · exact (portWritten_set s p v).kept

/-- With ENABLE 1 and no mark left the port trains, or stands as it was. -/
theorem writePortCtl_unmarked (h : bit v 0 = true) (mark : ((cfgAt s p).qmark && !bit v 1) = false) :
    ∃ y, PortKept s (writePortCtl s p v) p (portCfg s p v) y ∧ y.violTimes = (portTimed s p v).violTimes ∧
      ((portAt s p).state = .quarantined → y.state = if hasCable s p then .training else .down) ∧
      ((cfgAt s p).qmark = false → (portAt s p).state ∈ [.up, .training, .down] → y = portTimed s p v) := by
  have written := portWritten_set s p v
  rw [writePortCtl_eq, h, if_neg (by decide), mark, if_neg (by decide)]
  split
  · next starts =>
    obtain ⟨y, set, times, state⟩ := written.train
    refine ⟨y, set.kept, times, fun _ => state, fun unmarked running => ?_⟩
    rcases starts with quarantined | ⟨disabled, -⟩ | ⟨-, marked⟩
    · simp [quarantined] at running
    · simp [disabled] at running
    · exact absurd (marked.symm.trans unmarked) (by decide)
  · next stands =>
    exact ⟨_, written.kept, rfl, fun quarantined => absurd (.inl quarantined) stands, fun _ _ => rfl⟩

end Regs

theorem exec_portCtl {s : State} {p : Nat} (v : Word) (awake : Mbox.reachable s 0 = true) (hp : p < 24) :
    exec (.portRelease 0 p v) s = .next (Regs.writePortCtl s p v.toNat) ∧
      exec (.portEnable 0 p v) s = .next (Regs.writePortCtl s p v.toNat) := by
  have aligned : Regs.aligned (0x100100 + 0x20 * p) 4 = true := by simp [Regs.aligned]; omega
  have plain : Bar.plain 0 (0x100100 + 0x20 * p) 4 := ⟨aligned, by simp [Bar.msixCount]; omega, by omega⟩
  have written : Bar.write s 0 (0x100100 + 0x20 * p) 4 v.toNat = Regs.writePortCtl s p v.toNat :=
    Bar.pf_write awake plain (Regs.regAt_portCtl p hp) v
  exact ⟨(if_pos hp).trans (congrArg _ written), (if_pos hp).trans (congrArg _ written)⟩

/-- Settles O6: the write disables the port, or keeps its mark, or lets it train or stand. -/
theorem portControlWrites : Obligations.PortControlWrites := by
  intro s p v awake hp g x mark ts
  obtain ⟨release, enable⟩ := exec_portCtl v awake hp
  refine ⟨_, release, enable, ?_⟩
  cases en : bit v.toNat 0
  · have kept := Regs.writePortCtl_disables (s := s) (p := p) en
    refine ⟨by rw [kept.cfg, Regs.portCfg, en], kept.others, by rw [kept.port]; rfl, fun _ => by rw [kept.port]; rfl, ?_, ?_, ?_, ?_,
      kept.rest⟩
    all_goals
      intro on
      cases on
  · cases hm : mark
    · obtain ⟨y, kept, times, trains, stands⟩ := Regs.writePortCtl_unmarked (s := s) (p := p) en hm
      refine ⟨?_, kept.others, by rw [kept.port]; exact times, nofun, nofun, nofun,
        fun _ _ quarantined => by rw [kept.port]; exact trains quarantined,
        fun _ unmarked running => by rw [kept.port]; exact stands unmarked running, kept.rest⟩
      rw [kept.cfg, Regs.portCfg, en]
      exact congrArg (fun m => { g with maxGen := field v.toNat 3 2, enable := true, qmark := m }) hm
    · have kept := Regs.writePortCtl_marked (s := s) (p := p) en hm
      have marked : g.qmark = true := (Bool.and_eq_true _ _ ▸ hm).1
      refine ⟨?_, kept.others, ?_, nofun, fun _ _ disabled => ?_, fun _ _ other => ?_, nofun,
        fun _ unmarked => absurd (marked.symm.trans unmarked) (by decide), kept.rest⟩
      · rw [kept.cfg, Regs.portCfg, en]
        exact congrArg (fun m => { g with maxGen := field v.toNat 3 2, enable := true, qmark := m }) hm
      · rw [kept.port]
        split <;> rfl
      · rw [kept.port, if_pos disabled]
      · rw [kept.port, if_neg other]
        rfl

end Machine
end Sys2Proof
end

section
/-! PROOF. ID_DEBUG_LOCK and ID_UNLOCK_WRITE: the token is read, judged, and the attempt counted
(spec/19_security.md R452 to R454). -/

namespace Sys2Proof
namespace Machine

open Bits Ops

namespace Regs

variable (s : State) (a : Nat)

/-- The token as ID_UNLOCK reads it, with what its accesses leave. -/
def tokenRead : Acc Bytes × State := if a % 8 = 0 then readLog s 0 10 a 240 else (.refused, s)
/-- What reading the token leaves: a record of the log where a line of it is uncorrectable. -/
def tokenLogged : State :=
  match tokenRead s a with
  | (.bad l, t) => logEvent t { status := 0x0302, source := 0x5000, arg0 := l, arg1 := 0x10000 }
  | (_, t) => t
/-- RESULT and the level granted. -/
def verdict : Nat × Nat :=
  match (tokenRead s a).1 with
  | .ok tok => checkToken s tok
  | _ => (2, 0)
/-- The identity block after an attempt of that verdict, with the nonce drawn. -/
def attempted (i : Ident) (nonce : BitVec 256) (v : Nat × Nat) : Ident :=
  if v.1 = 1 then atLevel { i with nonce := nonce, result := 1, unlocks := (i.unlocks + 1) % 65536 } v.2
  else { i with nonce := nonce, result := v.1, fails := i.fails + 1 }

theorem tokenRead_frame : ∃ m b, (tokenRead s a).2 = { s with mem := m, sched := { s.sched with budgets := b } } := by
  unfold tokenRead
  split
  · exact readLog_frame s 0 10 a 240
  · exact ⟨s.mem, s.sched.budgets, rfl⟩

theorem checkToken_frame (m : Mem) (b : Sparse Budget) (tok : Bytes) :
    checkToken { s with mem := m, sched := { s.sched with budgets := b } } tok = checkToken s tok := rfl

/-- Reading the token changes memory's own state, budgets and what a record of the log changes. -/
theorem tokenLogged_frame : ∃ m b l g t n x p, tokenLogged s a = { s with
    mem := m, sched := { s.sched with budgets := b }, log := l, mgmt := g, tm := t, flash := { s.flash with lost := n }
    host := { s.host with msixSent := x, msixPend := p } } := by
  obtain ⟨m, b, e⟩ := tokenRead_frame s a
  unfold tokenLogged
  split
  · next l t read =>
    rw [read] at e
    obtain ⟨g, c, n, x, p, logged⟩ := logEvent_eq t { status := 0x0302, source := 0x5000, arg0 := l, arg1 := 0x10000 }
    rw [logged, show t = _ from e]
    exact ⟨_, _, _, g, c, n, x, p, rfl⟩
  · next t _ read =>
    rw [read] at e
    exact ⟨m, b, s.log, s.mgmt, s.tm, s.flash.lost, s.host.msixSent, s.host.msixPend, e⟩

variable {s a}

theorem unlock_spent (h : 8 ≤ s.ident.fails) : unlock s a = s := if_pos h

/-- The nonce is drawn and the attempt counted. -/
theorem attempt_counted {u : State} (v : Nat × Nat) (ident : u.ident = s.ident) (free : u.free = s.free) :
    (let (n, s) := fresh u
     let i := { s.ident with nonce := n, result := v.1 }
     if v.1 = 1 then s.setIdent (atLevel { i with unlocks := (i.unlocks + 1) % 65536 } v.2)
     else s.setIdent { i with fails := i.fails + 1 }) =
    { u with free := s.free + 1, ident := attempted s.ident (Config.freeValue s.free) v } := by
  unfold fresh attempted
  dsimp only
  rw [State.setFree_ident, ident, free]
  split
  · next pass =>
    rw [pass]
    rfl
  · rfl

theorem unlock_eq (h : s.ident.fails < 8) : unlock s a = { tokenLogged s a with
    free := s.free + 1, ident := attempted s.ident (Config.freeValue s.free) (verdict s a) } := by
  obtain ⟨m, b, l, g, c, n, x, p, logged⟩ := tokenLogged_frame s a
  obtain ⟨m', b', frame⟩ := tokenRead_frame s a
  have ident : (tokenLogged s a).ident = s.ident := by rw [logged]
  have free : (tokenLogged s a).free = s.free := by rw [logged]
  have token : (if a % 8 = 0 then readLog s 0 10 a 240 else (.refused, s)) = tokenRead s a := rfl
  rw [← attempt_counted (verdict s a) ident free, unlock, if_neg (Nat.not_le.2 h), token]
  rcases read : tokenRead s a with ⟨tok | _ | l, t⟩
  · rw [read] at frame
    have judged : verdict s a = checkToken t tok := by
      rw [verdict, read, show t = _ from frame, checkToken_frame]
    rw [judged, tokenLogged, read]
  · rw [verdict, tokenLogged, read]
  · rw [verdict, tokenLogged, read]

/-- Memory without error patterns gives no uncorrectable line. -/
theorem tokenLogged_clean (clean : memClean s) : tokenLogged s a = (tokenRead s a).2 := by
  have good (l : Nat) : (tokenRead s a).1 ≠ .bad l := by
    unfold tokenRead readLog
    split
    · split
      · nofun
      · next ps _ =>
        obtain ⟨t, e, -⟩ := readPieces_clean ps clean 10 []
        rw [e]
        nofun
    · nofun
  rw [tokenLogged]
  split
  · next l t read =>
    rw [read] at good
    exact absurd rfl (good l)
  · next read =>
    rw [read]

theorem verdict_unaligned (h : a % 8 ≠ 0) : verdict s a = (2, 0) := by rw [verdict, tokenRead, if_neg h]

theorem tokenRead_plain (aligned : a % 8 = 0) (clean : memClean s) (untranslated : Sparse.get? s.host.ctx 0 = none)
    (below : a + 240 ≤ Config.recoveryBase) :
    (tokenRead s a).1 = .ok (bytesOf s a 240) ∧ (tokenRead s a).2.mem = s.mem := by
  obtain ⟨t, read, same⟩ := readLog_pf clean 10 untranslated below
  rw [tokenRead, if_pos aligned, read]
  refine ⟨rfl, ?_⟩
  rw [same]

end Regs

theorem exec_idDebugLock {s : State} (v : Word) (awake : Mbox.reachable s 0 = true) :
    exec (.idDebugLock 0 v) s = .next (Regs.lockDebug s v.toNat) :=
  congrArg Host.Outcome.next (Bar.pf_write awake ⟨by decide, by decide, by decide⟩ (r := .idDebug) (by decide) v)

theorem exec_idUnlockWrite {s : State} (a : Dword) (awake : Mbox.reachable s 0 = true) :
    exec (.idUnlockWrite 0 a) s = .next (Regs.unlock (s.setHost (Regs.unstage s.host 0 0x240 8)) a.toNat) :=
  congrArg Host.Outcome.next (Bar.pf_write_wide awake ⟨by decide, by decide, by decide⟩ (r := .idUnlock) (by decide) a)

/-- Settles O8: the lock by its law; an attempt is refused where it is spent, and else judged on the token read. -/
theorem debugLockAndUnlock : Obligations.DebugLockAndUnlock := by
  intro s v a awake
  refine ⟨exec_idDebugLock v awake, ?_⟩
  intro failed
  refine ⟨_, exec_idUnlockWrite a awake, ?_⟩
  obtain ⟨z, unstaged⟩ : ∃ z, Regs.unstage s.host 0 0x240 8 = { s.host with staged := z } := ⟨_, rfl⟩
  rw [unstaged]
  let u : State := s.setHost { s.host with staged := z }
  show let t := Regs.unlock u a.toNat; _
  by_cases spent : 8 ≤ s.ident.fails
  · rw [Regs.unlock_spent (s := u) spent]
    exact ⟨rfl, fun _ => rfl, fun _ => ⟨rfl, rfl⟩, fun open_ => absurd spent (Nat.not_le.2 open_),
      fun open_ => absurd spent (Nat.not_le.2 open_)⟩
  · rw [Regs.unlock_eq (s := u) (Nat.not_le.1 spent)]
    refine ⟨?_, fun clean => ?_, fun full => absurd full spent, fun _ unaligned => ?_, fun _ aligned clean untranslated below => ?_⟩
    · obtain ⟨m, b, l, g, c, n, x, p, logged⟩ := Regs.tokenLogged_frame u a.toNat
      rw [logged]
      rfl
    · obtain ⟨m, b, read⟩ := Regs.tokenRead_frame u a.toNat
      rw [Regs.tokenLogged_clean (s := u) clean, read]
      rfl
    · rw [Regs.verdict_unaligned unaligned]
      exact ⟨rfl, rfl⟩
    · obtain ⟨token, mem⟩ := Regs.tokenRead_plain (s := u) aligned clean untranslated below
      have judged : Regs.verdict u a.toNat = Regs.checkToken s (bytesOf s a.toNat 240) := by
        rw [Regs.verdict, token]
        rfl
      rw [judged, Regs.tokenLogged_clean (s := u) clean]
      refine ⟨rfl, mem, ?_⟩
      generalize Regs.checkToken s (bytesOf s a.toNat 240) = found
      obtain ⟨res, lvl⟩ := found
      unfold Regs.attempted
      dsimp only
      by_cases pass : res = 1
      · rw [if_pos pass, if_pos pass]
        rfl
      · rw [if_neg pass, if_neg pass]
        rfl

end Machine
end Sys2Proof
end

section
/-! PROOF. REGISTER_WRITE: where an access of BAR0 has no effect (spec/15_host_and_mailboxes.md R349), and that two 4-byte
halves make one 8-byte write (R350). -/

namespace Sys2Proof
namespace Machine

open Bits Ops

variable {s : State} {f o w : Nat}

/-- The offset lies in the function's MSI-X table. -/
abbrev Bar.inTable (f o : Nat) : Prop := 0x8000 ≤ o ∧ o < 0x8000 + 16 * Bar.msixCount f
/-- The offset lies in a mailbox. -/
abbrev Bar.inBox (o : Nat) : Prop := 0x10000 ≤ o ∧ o < 0x20000

theorem Bar.plain_of_outside (al : Regs.aligned o w = true) (table : ¬ Bar.inTable f o) (box : ¬ Bar.inBox o) :
    Bar.plain f o w := ⟨al, by omega, by omega⟩

theorem Regs.aligned_false (h : (w ≠ 4 ∧ w ≠ 8) ∨ o % w ≠ 0) : Regs.aligned o w = false := by
  rcases h with ⟨four, eight⟩ | rest
  · simp [Regs.aligned, four, eight]
  · simp [Regs.aligned, rest]

theorem Bar.write_unaligned (h : Regs.aligned o w = false) (v : Nat) : Bar.write s f o w v = s := by
  rw [Bar.write, h, if_pos (by simp)]

theorem Bar.write_otherBox (table : ¬ Bar.inTable f o) (box : Bar.inBox o)
    (other : (o - 0x10000) / 4096 ≠ f) (v : Nat) : Bar.write s f o w v = s := by
  rw [Bar.write, if_neg table, if_pos box, if_neg other, ite_self]

theorem Regs.access_unlisted (h : Regs.regAt o = none) (v : Nat) : Regs.access s f o w v = s := by rw [Regs.access, h]
theorem Regs.access_forbidden {r : Reg} {b n : Nat} (h : Regs.regAt o = some (r, b, n))
    (no : Regs.mayWrite s.host f r = false) (v : Nat) : Regs.access s f o w v = s := by
  rw [Regs.access, h]
  exact if_pos (by simp [no])

/-- A virtual function may write the registers of its rings alone. -/
theorem Regs.mayWrite_virtual {h : HostIf} {r : Reg} (virtual : f ≠ 0)
    (foreign : ∀ k, Regs.ringOf r = some k → (ringAt h k).state = 0 ∨ (ringAt h k).owner ≠ f) :
    Regs.mayWrite h f r = false := by
  unfold Regs.mayWrite Regs.responds
  cases ident : Regs.isId r
  · cases ring : Regs.ringOf r with
    | none => simp [virtual]
    | some k =>
      rcases foreign k ring with unassigned | owner
      · simp [virtual, unassigned]
      · simp [virtual, owner]
  · simp [virtual]

/-- Settles O12: each access without effect by its lemma, and a 4-byte register by Bar.write_four. -/
theorem registerWritesByFunction : Obligations.RegisterWritesByFunction := by
  intro s f o w v awake inTable inBox
  have outside (table : ¬ inTable) (box : ¬ inBox)
      (same : Regs.access s f o w (v.toNat % 2 ^ (8 * w)) = s) : exec (.registerWrite f o w v) s = .next s := by
    refine congrArg Host.Outcome.next ?_
    cases al : Regs.aligned o w
    · exact Bar.write_unaligned al _
    · exact (Bar.write_access awake (Bar.plain_of_outside al table box) _).trans same
  refine ⟨fun odd => congrArg Host.Outcome.next (Bar.write_unaligned (Regs.aligned_false odd) _),
    fun box other table => congrArg Host.Outcome.next (Bar.write_otherBox table box other _),
    fun table box unlisted => outside table box (Regs.access_unlisted unlisted _),
    fun r b n virtual table box listed foreign =>
      outside table box (Regs.access_forbidden listed (Regs.mayWrite_virtual virtual foreign) _), ?_⟩
  · intro r table box listed may fourth top
    have al : Regs.aligned o 4 = true := by simp [Regs.aligned, fourth, top]
    refine congrArg Host.Outcome.next ((Bar.write_four awake (Bar.plain_of_outside al table box) listed _).trans ?_)
    rw [may, if_pos rfl]

/-! ### Two halves -/

theorem Regs.stagedPart_stage (h : HostIf) (f o v : Nat) : Regs.stagedPart (Regs.stage h f o v) f o = some v := by
  simp [Regs.stagedPart, Regs.stage]

/-- Unstaging a register forgets a half that was staged in it. -/
theorem Regs.unstage_stage (h : HostIf) (f o v : Nat) :
    Regs.unstage (Regs.stage h f o v) f o 8 = Regs.unstage h f o 8 := by
  have forgets (e : Nat × Nat × Nat) :
      (!(e.1 == f && decide (o ≤ e.2.1) && decide (e.2.1 < o + 8)) && !(e.1 == f && e.2.1 == o)) =
        !(e.1 == f && decide (o ≤ e.2.1) && decide (e.2.1 < o + 8)) := by
    by_cases half : e.2.1 = o
    · simp [half]
    · simp [half]
  rw [Regs.unstage, Regs.stage]
  dsimp only
  rw [List.filter_cons_of_neg (by simp), List.filter_filter]
  simp only [forgets]
  rfl

theorem Regs.append_toNat (hi lo : Word) : (hi ++ lo).toNat = hi.toNat * 2 ^ 32 + lo.toNat := by
  rw [BitVec.toNat_append, ← Nat.shiftLeft_add_eq_or_of_lt lo.isLt, Nat.shiftLeft_eq]

/-- The high half, written over a staged low half, makes the whole. -/
theorem Regs.whole_halves {t : State} {r : Reg} {lo : Word} (staged : Regs.stagedPart t.host f o = some lo.toNat) (hi : Word) :
    Regs.whole t f r o 8 (o + 4) 4 hi.toNat = (hi ++ lo).toNat := by
  have low : ¬(o + 4 ≤ o + 4 * 0 ∧ o + 4 * 0 < o + 4 + 4) := by omega
  have high : o + 4 ≤ o + 4 * 1 ∧ o + 4 * 1 < o + 4 + 4 := by omega
  have two : List.range (8 / 4) = [0, 1] := rfl
  rw [Regs.whole, Regs.append_toNat]
  dsimp only
  rw [two, List.map_cons, List.map_cons, List.map_nil, List.sum_cons, List.sum_cons, List.sum_nil, if_neg low, if_pos high,
    show o + 4 * 0 = o from rfl, staged]
  simp only [Option.getD_some, Nat.mul_one, Nat.sub_self, Nat.mul_zero, Nat.pow_zero, Nat.div_one,
    Nat.mod_eq_of_lt hi.isLt]
  omega

theorem Bar.write_lowHalf {r : Reg} (awake : Mbox.reachable s f = true) (plain : Bar.plain f o 4)
    (may : Regs.mayWrite s.host f r = true) (listed : Regs.regAt o = some (r, o, 8)) (v : Word) :
    Bar.write s f o 4 v.toNat = s.setHost (Regs.stage s.host f o v.toNat) := by
  have part : v.toNat % 2 ^ (8 * 4) / 2 ^ (32 * 0) % 2 ^ 32 = v.toNat := by
    have := v.isLt
    omega
  rw [Bar.write_access awake plain, Regs.access, listed]
  dsimp only
  rw [may, if_neg (by decide), if_neg (by decide), if_pos (by omega)]
  show s.setHost (Regs.stage s.host f (o + 4 * 0) _) = _
  rw [part]
  rfl

theorem Bar.write_highHalf {r : Reg} {lo : Word} (awake : Mbox.reachable s f = true) (plain : Bar.plain f (o + 4) 4)
    (may : Regs.mayWrite s.host f r = true) (listed : Regs.regAt (o + 4) = some (r, o, 8))
    (staged : Regs.stagedPart s.host f o = some lo.toNat) (hi : Word) :
    Bar.write s f (o + 4) 4 hi.toNat = Regs.write (s.setHost (Regs.unstage s.host f o 8)) f (hi ++ lo).toNat r := by
  have word : hi.toNat % 2 ^ (8 * 4) = hi.toNat := Nat.mod_eq_of_lt hi.isLt
  rw [Bar.write_access awake plain, Regs.access, listed]
  dsimp only
  rw [may, if_neg (by decide), if_neg (by decide), if_neg (by omega), word, Regs.whole_halves staged]

/-- Settles O13: the low half is staged, and the high half with it writes what one 8-byte write writes. -/
theorem halfWritesMakeOneWrite : Obligations.HalfWritesMakeOneWrite := by
  intro s f o r lo hi awake may low high doubled top table box
  have aligned {p w : Nat} (size : w = 4 ∨ w = 8) (h : p % w = 0) (below : p < 0x4000000) : Regs.aligned p w = true := by
    rcases size with rfl | rfl <;> simp [Regs.aligned, h, below]
  have wide (v : Word) : (v.setWidth 64).toNat = v.toNat := by
    simp
    omega
  refine ⟨s.setHost (Regs.stage s.host f o lo.toNat), ?_, Regs.stagedPart_stage _ _ _ _, rfl, ?_⟩
  · show Host.Outcome.next (Bar.write s f o 4 _) = _
    rw [wide, Bar.write_lowHalf awake ⟨aligned (.inl rfl) (by omega) (by omega), by omega, by omega⟩ may low]
  · show Host.Outcome.next (Bar.write _ f (o + 4) 4 _) = .next (Bar.write s f o 8 _)
    rw [wide, Bar.write_highHalf (s := s.setHost (Regs.stage s.host f o lo.toNat)) awake ⟨aligned (.inl rfl) (by omega) (by omega), by omega, by omega⟩ may high
        (Regs.stagedPart_stage _ _ _ _),
      Bar.write_eight awake ⟨aligned (.inr rfl) doubled (by omega), by omega, by omega⟩ low _ (hi ++ lo).isLt, may, if_pos rfl]
    exact congrArg (fun h => Host.Outcome.next (Regs.write (s.setHost h) f (hi ++ lo).toNat r)) (Regs.unstage_stage _ _ _ _)

end Machine
end Sys2Proof
end

section
/-! PROOF. Mailbox commands: no command's effect looks at the mailboxes, so an answer follows from what the command does to
the state before the request (spec/15_host_and_mailboxes.md R354 to R361). -/

namespace Sys2Proof
namespace Machine

open Bits Ops

namespace Mbox

/-! ### From a command to its answer -/

/-- The state with those mailboxes. -/
def withMail (s : State) (m : Sparse Mailbox) : State := s.setHost { s.host with mbox := m }

/-- In state s the command does not look at the mailboxes, and leaves them. -/
def Blind (s : State) (act : State → Answer) : Prop :=
  ∀ m, act (withMail s m) = { act s with state := withMail (act s).state m }

theorem Blind.mbox {s : State} {act : State → Answer} (b : Blind s act) : (act s).state.host.mbox = s.host.mbox :=
  congrArg (fun a : Answer => a.state.host.mbox) (b s.host.mbox)

/-- A command whose branches are chosen without the mailboxes. -/
theorem Blind.ite {s : State} {c : State → Prop} [∀ s, Decidable (c s)] {act act' : State → Answer}
    (same : ∀ m, c (withMail s m) ↔ c s) (b : Blind s act) (b' : Blind s act') : Blind s fun s => if c s then act s else act' s := by
  intro m
  by_cases h : c s
  · simp only [if_pos h, if_pos ((same m).2 h)]
    exact b m
  · simp only [if_neg h, if_neg fun g => h ((same m).1 g)]
    exact b' m

/-- A blind command's answer, from what it does to the state before the request. -/
theorem submit_blind {s b : State} {f : Nat} (h : listens s f) {act : State → Answer} (blind : Blind s act) {cmd : Nat}
    (tag : Word) {args : List Nat} {st obj : Nat} {res : List Nat} (small : cmd < 65536)
    (runs : ∀ t, run t f cmd 0 (fun i => fld (reqOf cmd tag.toNat args) (8 + 8 * i) 8) = act t)
    (e : act s = ⟨st, obj, res, b⟩) (warm : cmd ≠ 0x0080 ∨ st ≠ 0 ∨ b.bu.restart ≠ some false) :
    answered b (submit s f cmd tag.toNat args) f (response st cmd tag.toNat (stateWord b f obj) res) := by
  have kept : b.host.mbox = s.host.mbox := by simpa [e] using blind.mbox
  refine submit_answered h small tag.isLt ?_ kept warm
  rw [runs]
  refine (blind (posted s f cmd tag.toNat args).host.mbox).trans ?_
  rw [e]
  rfl

theorem arg_one (cmd tag : Nat) (a : Dword) : fld (reqOf cmd tag [a.toNat]) (8 + 8 * 0) 8 = a.toNat :=
  reqOf_arg cmd tag [a.toNat] 0 (by simp) (by simp) a.isLt
theorem args_two (cmd tag : Nat) (a b : Dword) : fld (reqOf cmd tag [a.toNat, b.toNat]) (8 + 8 * 0) 8 = a.toNat ∧
    fld (reqOf cmd tag [a.toNat, b.toNat]) (8 + 8 * 1) 8 = b.toNat :=
  ⟨reqOf_arg cmd tag [a.toNat, b.toNat] 0 (by simp) (by simp) a.isLt,
   reqOf_arg cmd tag [a.toNat, b.toNat] 1 (by simp) (by simp) b.isLt⟩
theorem args_three (cmd tag : Nat) (a b c : Dword) :
    fld (reqOf cmd tag [a.toNat, b.toNat, c.toNat]) (8 + 8 * 0) 8 = a.toNat ∧
    fld (reqOf cmd tag [a.toNat, b.toNat, c.toNat]) (8 + 8 * 1) 8 = b.toNat ∧
    fld (reqOf cmd tag [a.toNat, b.toNat, c.toNat]) (8 + 8 * 2) 8 = c.toNat :=
  ⟨reqOf_arg cmd tag [a.toNat, b.toNat, c.toNat] 0 (by simp) (by simp) a.isLt,
   reqOf_arg cmd tag [a.toNat, b.toNat, c.toNat] 1 (by simp) (by simp) b.isLt,
   reqOf_arg cmd tag [a.toNat, b.toNat, c.toNat] 2 (by simp) (by simp) c.isLt⟩

/-! ### Blind commands -/

section
variable (s : State) (f a0 a1 a2 : Nat)

theorem ringEnable_blind : Blind s (ringEnable · f a0) :=
  .ite (fun _ => Iff.rfl) (fun _ => rfl) <| .ite (fun _ => Iff.rfl) (fun _ => rfl) <|
    .ite (fun _ => Iff.rfl) (fun _ => rfl) fun _ => rfl
theorem ringDisable_blind : Blind s (ringDisable · f a0) :=
  .ite (fun _ => Iff.rfl) (fun _ => rfl) <| .ite (fun _ => Iff.rfl) (fun _ => rfl) <|
    .ite (fun _ => Iff.rfl) (fun _ => rfl) fun _ => rfl
theorem ringAssign_blind : Blind s (ringAssign · f a0 a1) :=
  .ite (fun _ => Iff.rfl) (fun _ => rfl) <| .ite (fun _ => Iff.rfl) (fun _ => rfl) <|
    .ite (fun _ => Iff.rfl) (fun _ => rfl) <| .ite (fun _ => Iff.rfl) (fun _ => rfl) fun _ => rfl
theorem ringSetup_blind : Blind s (ringSetup · f a0 a1 a2) :=
  .ite (fun _ => Iff.rfl) (fun _ => rfl) <| .ite (fun _ => Iff.rfl) (fun _ => rfl) <|
    .ite (fun _ => Iff.rfl) (fun _ => rfl) fun _ => rfl
theorem eventAck_blind : Blind s (eventAck · f a0) := .ite (fun _ => Iff.rfl) (fun _ => rfl) fun _ => rfl
theorem restartCmd_blind : Blind s (restartCmd · f a0) :=
  .ite (fun _ => Iff.rfl) (fun _ => rfl) <| .ite (fun _ => Iff.rfl) (fun _ => rfl) <|
    .ite (fun _ => Iff.rfl) (fun _ => rfl) fun _ => rfl
theorem setPolicy_blind : Blind s fun s => ⟨0, 0xFF, [a2], setPolicy s a0 a1⟩ := by
  intro m
  unfold setPolicy
  dsimp only
  split
  · rfl
  split
  · rfl
  split
  · rfl
  split <;> rfl
theorem policySet_blind : Blind s (policySet · f a0 a1) := by
  have permitted (old lo hi : Nat) : Blind s fun s =>
      if a1 < lo ∨ hi < a1 then refuse s badField 0xFF
      else if f ≠ 0 then refuse s notPermitted 0xFF
      else if !ready s then refuse s wrongState 0xFF
      else if a0 = 0x0300 ∧ belowReserved s a1 then refuse s noResource 0xFF
      else ⟨0, 0xFF, [old], setPolicy s a0 a1⟩ :=
    .ite (fun _ => Iff.rfl) (fun _ => rfl) <| .ite (fun _ => Iff.rfl) (fun _ => rfl) <| .ite (fun _ => Iff.rfl) (fun _ => rfl) <|
      .ite (fun _ => Iff.rfl) (fun _ => rfl) (setPolicy_blind s a0 a1 old)
  intro m
  unfold policySet
  dsimp only
  rw [show policy (withMail s m) a0 = policy s a0 from rfl]
  split
  · rfl
  · exact permitted _ _ _ m
theorem sessionClose_blind : Blind s (sessionClose · f a0 a1) := by
  have permitted (x : Session) : Blind s fun s =>
      if x.fn ≠ f then refuse s notPermitted (sessionObj s f a0 a1)
      else if !ready s ∨ x.busy then refuse s wrongState (sessionObj s f a0 a1)
      else
        let l := (if a0 = 0 then s.codec.enc else s.codec.dec).filter fun y => !(y.addr == a1 && y.fn == f)
        ⟨0, 0, [x.engine], s.setCodec (if a0 = 0 then { s.codec with enc := l } else { s.codec with dec := l })⟩ :=
    .ite (fun _ => Iff.rfl) (fun _ => rfl) <| .ite (fun _ => Iff.rfl) (fun _ => rfl) fun _ => rfl
  refine .ite (act := fun s => refuse s badField (sessionObj s f a0 a1)) (fun _ => Iff.rfl) (fun _ => rfl) fun m => ?_
  dsimp only
  rw [show sessionOf (withMail s m) f a0 a1 = sessionOf s f a0 a1 from rfl]
  split
  · rfl
  · exact permitted _ m
end

/-! ### Each command answers what it does -/

section
variable {s b : State} {f : Nat} (h : listens s f) (tag : Word) (a0 a1 a2 : Dword) {st obj : Nat} {res : List Nat}
include h

theorem getState_answers : answered s (submit s f 0x0001 tag.toNat []) f
    (response 0 0x0001 tag.toNat (stateWord s f 0xFF) [s.log.notify, s.log.acked]) :=
  submit_blind h (act := getState) (fun _ => rfl) tag (by decide) (fun _ => rfl) rfl (.inl (by decide))
theorem getInfo_answers (e : getInfo s f = ⟨st, obj, res, b⟩) : answered b (submit s f 0x0002 tag.toNat []) f
    (response st 0x0002 tag.toNat (stateWord b f obj) res) :=
  submit_blind h (act := (getInfo · f)) (fun _ => rfl) tag (by decide) (fun _ => rfl) e (.inl (by decide))
theorem ringAssign_answers (e : ringAssign s f a0.toNat a1.toNat = ⟨st, obj, res, b⟩) :
    answered b (submit s f 0x0010 tag.toNat [a0.toNat, a1.toNat]) f (response st 0x0010 tag.toNat (stateWord b f obj) res) := by
  refine submit_blind h (ringAssign_blind s f _ _) tag (by decide) (fun t => ?_) e (.inl (by decide))
  obtain ⟨e0, e1⟩ := args_two 0x0010 tag.toNat a0 a1
  rw [run_ringAssign, e0, e1]
theorem ringSetup_answers (e : ringSetup s f a0.toNat a1.toNat a2.toNat = ⟨st, obj, res, b⟩) :
    answered b (submit s f 0x0011 tag.toNat [a0.toNat, a1.toNat, a2.toNat]) f
      (response st 0x0011 tag.toNat (stateWord b f obj) res) := by
  refine submit_blind h (ringSetup_blind s f _ _ _) tag (by decide) (fun t => ?_) e (.inl (by decide))
  obtain ⟨e0, e1, e2⟩ := args_three 0x0011 tag.toNat a0 a1 a2
  rw [run_ringSetup, e0, e1, e2]
theorem ringEnable_answers (e : ringEnable s f a0.toNat = ⟨st, obj, res, b⟩) :
    answered b (submit s f 0x0012 tag.toNat [a0.toNat]) f (response st 0x0012 tag.toNat (stateWord b f obj) res) :=
  submit_blind h (ringEnable_blind s f _) tag (by decide) (fun t => by rw [run_ringEnable, arg_one]) e (.inl (by decide))
theorem ringDisable_answers (e : ringDisable s f a0.toNat = ⟨st, obj, res, b⟩) :
    answered b (submit s f 0x0013 tag.toNat [a0.toNat]) f (response st 0x0013 tag.toNat (stateWord b f obj) res) :=
  submit_blind h (ringDisable_blind s f _) tag (by decide) (fun t => by rw [run_ringDisable, arg_one]) e (.inl (by decide))
theorem sessionClose_answers (e : sessionClose s f a0.toNat a1.toNat = ⟨st, obj, res, b⟩) :
    answered b (submit s f 0x0030 tag.toNat [a0.toNat, a1.toNat]) f (response st 0x0030 tag.toNat (stateWord b f obj) res) := by
  refine submit_blind h (sessionClose_blind s f _ _) tag (by decide) (fun t => ?_) e (.inl (by decide))
  obtain ⟨e0, e1⟩ := args_two 0x0030 tag.toNat a0 a1
  rw [run_sessionClose, e0, e1]
theorem policySet_answers (e : policySet s f a0.toNat a1.toNat = ⟨st, obj, res, b⟩) :
    answered b (submit s f 0x0050 tag.toNat [a0.toNat, a1.toNat]) f (response st 0x0050 tag.toNat (stateWord b f obj) res) := by
  refine submit_blind h (policySet_blind s f _ _) tag (by decide) (fun t => ?_) e (.inl (by decide))
  obtain ⟨e0, e1⟩ := args_two 0x0050 tag.toNat a0 a1
  rw [run_policySet, e0, e1]
theorem eventAck_answers (e : eventAck s f a0.toNat = ⟨st, obj, res, b⟩) :
    answered b (submit s f 0x0061 tag.toNat [a0.toNat]) f (response st 0x0061 tag.toNat (stateWord b f obj) res) :=
  submit_blind h (eventAck_blind s f _) tag (by decide) (fun t => by rw [run_eventAck, arg_one]) e (.inl (by decide))
theorem overrideCmd_answers (blind : Blind s (overrideCmd · f a0.toNat)) (e : overrideCmd s f a0.toNat = ⟨st, obj, res, b⟩) :
    answered b (submit s f 0x0070 tag.toNat [a0.toNat]) f (response st 0x0070 tag.toNat (stateWord b f obj) res) :=
  submit_blind h blind tag (by decide) (fun t => by rw [run_overrideCmd, arg_one]) e (.inl (by decide))
/-- RESTART, where it does not begin a cold start. -/
theorem restartCmd_answers (e : restartCmd s f a0.toNat = ⟨st, obj, res, b⟩) (warm : st ≠ 0 ∨ b.bu.restart ≠ some false) :
    answered b (submit s f 0x0080 tag.toNat [a0.toNat]) f (response st 0x0080 tag.toNat (stateWord b f obj) res) :=
  submit_blind h (restartCmd_blind s f _) tag (by decide) (fun t => by rw [run_restartCmd, arg_one]) e (.inr warm)
end

end Mbox

/-- Settles O14: the two commands change nothing and answer at once. -/
theorem stateAndInfoAnswers : Obligations.StateAndInfoAnswers := by
  intro s f tag h
  exact ⟨⟨_, rfl, Mbox.getState_answers h tag⟩, ⟨_, rfl, Mbox.getInfo_answers h tag rfl⟩⟩

/-! ### RING_ENABLE and RING_DISABLE -/

namespace Mbox

variable {s : State} {f a : Nat}

/-- The function owns the ring. -/
def Owns (s : State) (f r : Nat) : Prop := (ringAt s.host r).state ≠ 0 ∧ (ringAt s.host r).owner = f

theorem ownsRing_iff {r : Nat} : ownsRing s f r = true ↔ Owns s f r := by simp [ownsRing, Owns]

theorem ringOf_small {r : Nat} (h : r < 64) : ringOf r = r := by
  unfold ringOf field
  omega

theorem ringEnable_badField (h : 64 ≤ a) : ringEnable s f a = refuse s badField (ringAt s.host (ringOf a)).state := if_pos h
theorem ringEnable_notPermitted (h : a < 64) (no : ¬ Owns s f a) :
    ringEnable s f a = refuse s notPermitted (ringAt s.host (ringOf a)).state := by
  have foreign : (!ownsRing s f a) = true := by simpa [← ownsRing_iff] using no
  rw [ringEnable, if_neg (Nat.not_le.2 h), if_pos foreign]
theorem ringEnable_wrongState (h : a < 64) (own : Owns s f a)
    (no : ¬(ready s = true ∧ s.bu.recovering = false ∧ (ringAt s.host (ringOf a)).state = 2)) :
    ringEnable s f a = refuse s wrongState (ringAt s.host (ringOf a)).state := by
  have wrong : !ready s ∨ s.bu.recovering ∨ (ringAt s.host (ringOf a)).state ≠ 2 := by
    by_contra all
    simp only [not_or, Bool.not_eq_true', Bool.not_eq_false, not_not, Bool.not_eq_true] at all
    exact no all
  rw [ringEnable, if_neg (Nat.not_le.2 h), if_neg (by simp [ownsRing_iff.2 own]), if_pos wrong]
theorem ringEnable_enables (h : a < 64) (own : Owns s f a) (rdy : ready s = true) (calm : s.bu.recovering = false)
    (stopped : (ringAt s.host (ringOf a)).state = 2) :
    ringEnable s f a = done 3 (s.setHost (putRing s.host a { ringAt s.host (ringOf a) with state := 3 })) := by
  rw [ringEnable, if_neg (Nat.not_le.2 h), if_neg (by simp [ownsRing_iff.2 own]), if_neg (by simp [rdy, calm, stopped])]

theorem ringDisable_badField (h : 64 ≤ a) : ringDisable s f a = refuse s badField (ringAt s.host (ringOf a)).state := if_pos h
theorem ringDisable_notPermitted (h : a < 64) (no : ¬ Owns s f a) (virtual : f ≠ 0) :
    ringDisable s f a = refuse s notPermitted (ringAt s.host (ringOf a)).state := by
  have foreign : ownsRing s f a = false := by simpa [← ownsRing_iff] using no
  rw [ringDisable, if_neg (Nat.not_le.2 h), if_pos (by simp [foreign, virtual])]

theorem ringDisable_permitted (h : a < 64) (may : Owns s f a ∨ f = 0) : ringDisable s f a =
    if (ringAt s.host (ringOf a)).state ≠ 3 then refuse s wrongState (ringAt s.host (ringOf a)).state
    else
      let st := if (jobsOfRing s a).isEmpty then 2 else 4
      done st (s.setHost (putRing s.host a { ringAt s.host (ringOf a) with state := st })) := by
  have permitted : ¬(!ownsRing s f a && f != 0) = true := by
    rcases may with own | pf
    · simp [ownsRing_iff.2 own]
    · simp [pf]
  rw [ringDisable, if_neg (Nat.not_le.2 h), if_neg permitted]

end Mbox

/-- Settles O15: field, issuer and state in the order of the commands' branches. -/
theorem ringEnableDisableAnswers : Obligations.RingEnableDisableAnswers := by
  intro s f tag a h r x owns becomes enable disable legal last
  have owner (low : r < 64) : owns ↔ Mbox.Owns s f r := by simp only [owns, x, Mbox.Owns, Mbox.ringOf_small low]
  refine ⟨fun high => ⟨⟨_, rfl, Mbox.ringEnable_answers h tag a (Mbox.ringEnable_badField high)⟩,
      _, rfl, Mbox.ringDisable_answers h tag a (Mbox.ringDisable_badField high)⟩,
    fun low foreign => ⟨⟨_, rfl, Mbox.ringEnable_answers h tag a (Mbox.ringEnable_notPermitted low (foreign ∘ (owner low).2))⟩,
      fun virtual => ⟨_, rfl, Mbox.ringDisable_answers h tag a
        (Mbox.ringDisable_notPermitted low (foreign ∘ (owner low).2) virtual)⟩⟩,
    fun low own illegal => ⟨_, rfl, Mbox.ringEnable_answers h tag a (Mbox.ringEnable_wrongState low ((owner low).1 own) illegal)⟩,
    fun low may other => ⟨_, rfl, Mbox.ringDisable_answers h tag a
      ((Mbox.ringDisable_permitted low (may.imp_left (owner low).1)).trans (if_pos other))⟩,
    fun low own ⟨rdy, calm, stopped⟩ => ⟨_, rfl, Mbox.ringEnable_answers h tag a
      (Mbox.ringEnable_enables low ((owner low).1 own) rdy calm stopped)⟩,
    fun low may enabled => ⟨_, rfl, Mbox.ringDisable_answers h tag a
      ((Mbox.ringDisable_permitted low (may.imp_left (owner low).1)).trans (if_neg (not_not.2 enabled)))⟩⟩

/-! ### RING_ASSIGN and RING_SETUP -/

namespace Mbox

/-- The ring as RING_ASSIGN leaves it. -/
def assigned (x : Ring) (fn cl resv : Nat) : Ring :=
  { x with base := 0, log2 := 0, owner := if fn = 0xFF then 0 else fn, cls := if fn = 0xFF then 0 else cl,
           state := if fn = 0xFF then 0 else 1, tail := x.head, resv := if fn = 0xFF then 0 else resv, bells := [] }

/-- The other blitz rings, and their reservations, leave no room for this one. -/
abbrev resvFull (s : State) (r resv : Nat) : Prop :=
  2 ≤ ((blitzRings s.host).filter (· != r)).length ∨
    100000 < (((blitzRings s.host).filter (· != r)).map fun k => resvTxn (ringAt s.host k).resv).sum + resvTxn resv ∨
    s.pwr.polP < 2 * ((((blitzRings s.host).filter (· != r)).map fun k => resvEnergy (ringAt s.host k).resv).sum + resvEnergy resv)

/-- RING_ASSIGN with its fields in range, in a state that allows it. -/
structure Assignable (s : State) (a0 a1 r fn cl : Nat) : Prop where
  ring : r < 64
  cls : cl < 4
  fields : a0 = r + 256 * fn + 65536 * cl
  issued : fn < 16 ∨ fn = 0xFF
  resv : if cl = 0 ∧ fn ≠ 0xFF then resvOk a1 = true else a1 = 0
  rdy : ready s = true
  state : (ringAt s.host r).state ≤ 2

variable {s : State} {a0 a1 r fn cl : Nat}

theorem ringAssign_eq (h : Assignable s a0 a1 r fn cl) : ringAssign s 0 a0 a1 =
    if fn ≠ 0xFF ∧ cl = 0 ∧ resvFull s r a1 then refuse s noResource (ringAt s.host r).state
    else
      let y := assigned (ringAt s.host r) fn cl a1
      done y.state (blitzBudgets (s.setHost (putRing s.host r y))) := by
  obtain ⟨ring, cls, fields, issued, resv, rdy, state⟩ := h
  have f1 : field a0 5 0 = r := by rw [fields]; unfold field; omega
  have f2 : field a0 15 8 = fn := by rw [fields]; unfold field; omega
  have f3 : field a0 17 16 = cl := by rw [fields]; unfold field; omega
  have zero : field a0 7 6 = 0 := by rw [fields]; unfold field; omega
  have top : a0 % 2 ^ 18 = a0 := by rw [fields]; omega
  have inRange : ¬(a0 % 2 ^ 18 ≠ a0 ∨ field a0 7 6 ≠ 0 ∨ (15 < fn ∧ fn ≠ 0xFF) ∨
      (if cl = 0 ∧ fn ≠ 0xFF then !resvOk a1 else a1 != 0) = true) := by
    rintro (bad | bad | bad | bad)
    · exact bad top
    · exact bad zero
    · omega
    · split at bad
      · next blitz => simp [if_pos blitz ▸ resv] at bad
      · next plain => simp [if_neg plain ▸ resv] at bad
  have permitted : ¬(!ready s ∨ 2 < (ringAt s.host r).state) := by simpa [rdy] using state
  have left : (if fn = 0xFF then { ringAt s.host r with base := 0, log2 := 0, owner := 0, cls := 0, state := 0, tail := (ringAt s.host r).head, resv := 0, bells := [] }
      else { ringAt s.host r with base := 0, log2 := 0, owner := fn, cls := cl, state := 1, tail := (ringAt s.host r).head, resv := a1, bells := [] }) =
      assigned (ringAt s.host r) fn cl a1 := by
    by_cases none : fn = 0xFF <;> simp [assigned, none]
  unfold ringAssign
  simp only [f1, f2, f3]
  rw [if_neg inRange, if_neg (by decide), if_neg permitted, left]

theorem blitzBudgets_eq (s : State) : blitzBudgets s = { s with sched := { s.sched with budgets := (blitzBudgets s).sched.budgets } } := rfl

/-- The limits of classes 0 and 1 follow the blitz rings' reservations, and no other budget changes. -/
theorem blitzBudgets_limits (s : State) :
    (∀ k, 2 ≤ k → budgetAt (blitzBudgets s).sched k = budgetAt s.sched k) ∧
    ∀ k < 2, let v := ((blitzRings s.host).map fun r => (ringAt s.host r).resv).getD k 0
      (budgetAt (blitzBudgets s).sched k).limTxn = resvTxn v ∧ (budgetAt (blitzBudgets s).sched k).limNj = resvEnergy v * 1000 := by
  unfold blitzBudgets budgetAt
  dsimp only [State.setSched]
  refine ⟨fun k high => ?_, fun k low => ?_⟩
  · rw [Sparse.getD_put_ne _ (by omega), Sparse.getD_put_ne _ (by omega)]
  · obtain rfl | rfl : k = 0 ∨ k = 1 := by omega
    · rw [Sparse.getD_put_ne _ (by decide), Sparse.getD_put_self]
      exact ⟨rfl, rfl⟩
    · rw [Sparse.getD_put_self]
      exact ⟨rfl, rfl⟩

theorem ringSetup_eq {f lg vec : Nat} {a2 : Nat} (ring : a0 < 64) (rdy : ready s = true)
    (state : (ringAt s.host a0).state = 1 ∨ (ringAt s.host a0).state = 2) (owner : (ringAt s.host a0).owner = f)
    (page : a1 % 4096 = 0) (fields : a2 = lg + 256 * vec) (size : lg ≤ 16)
    (vector : vec = 0xFF ∨ 2 ≤ vec ∧ vec < if f = 0 then 64 else 16) : ringSetup s f a0 a1 a2 =
    done 2 (s.setHost (putRing s.host a0 { ringAt s.host a0 with
      base := a1, log2 := lg, vector := vec, tail := 0, head := 0, done := 0, state := 2, bells := [] })) := by
  have byte : vec < 256 := by
    rcases vector with all | ⟨-, below⟩
    · omega
    · split at below <;> omega
  have f1 : field a2 15 8 = vec := by rw [fields]; unfold field; omega
  have f2 : field a2 4 0 = lg := by rw [fields]; unfold field; omega
  have zero : field a2 7 5 = 0 := by rw [fields]; unfold field; omega
  have top : a2 % 65536 = a2 := by rw [fields]; omega
  have inRange : ¬(64 ≤ a0 ∨ a1 % 4096 ≠ 0 ∨ a2 % 65536 ≠ a2 ∨ field a2 7 5 ≠ 0 ∨ 16 < lg ∨
      (vec ≠ 0xFF ∧ (vec < 2 ∨ (if f = 0 then 64 else 16) ≤ vec))) := by
    rintro (bad | bad | bad | bad | bad | ⟨some, bad⟩)
    · omega
    · exact bad page
    · exact bad top
    · exact bad zero
    · omega
    · rcases vector with all | ⟨low, below⟩
      · exact some all
      · rcases bad with bad | bad <;> omega
  have own : Owns s f a0 := ⟨by omega, owner⟩
  have permitted : ¬(!ready s ∨ ((ringAt s.host a0).state ≠ 1 ∧ (ringAt s.host a0).state ≠ 2)) := by
    simp only [rdy, Bool.not_true, Bool.false_eq_true, false_or]
    omega
  unfold ringSetup
  simp only [ringOf_small ring, f1, f2]
  rw [if_neg inRange, if_neg (by simp [ownsRing_iff.2 own]), if_neg permitted]

end Mbox

/-- Settles O16: RING_ASSIGN refuses a third blitz ring and else assigns; RING_SETUP sets the ring up. -/
theorem ringAssignAndSetup : Obligations.RingAssignAndSetup := by
  intro s tag a0 a1 r fn cl ring cls rdy x
  refine ⟨?_, ?_⟩
  · intro fields issued h state resv other txn nrg y
    have assign := Mbox.ringAssign_eq (s := s) (a0 := a0.toNat) (a1 := a1.toNat) (r := r) (fn := fn) (cl := cl)
      ⟨ring, cls, fields, issued, by split at resv <;> simp_all, rdy, state⟩
    refine ⟨fun blitz some third => ?_, fun fits => ?_⟩
    · exact ⟨_, rfl, Mbox.ringAssign_answers h tag a0 a1 (assign.trans (if_pos ⟨some, blitz, .inl third⟩))⟩
    · have room : ¬(fn ≠ 0xFF ∧ cl = 0 ∧ Mbox.resvFull s r a1.toNat) := by
        rintro ⟨some, blitz, full⟩
        rcases fits with other | none | ⟨two, txns, energy⟩
        · exact other blitz
        · exact some none
        · rcases full with full | full | full
          · exact absurd full (Nat.not_le.2 two)
          · exact absurd full (Nat.not_lt.2 txns)
          · exact absurd full (Nat.not_lt.2 energy)
      obtain ⟨others, limits⟩ := Mbox.blitzBudgets_limits (s.setHost (putRing s.host r y))
      exact ⟨_, _, rfl, Mbox.ringAssign_answers h tag a0 a1 (assign.trans (if_neg room)), Mbox.blitzBudgets_eq _, others, limits⟩
  · intro f lg vec c0 c1 c2 h state owner named page fields size vector b
    subst named
    exact ⟨_, rfl, Mbox.ringSetup_answers h tag c0 c1 c2 (Mbox.ringSetup_eq ring rdy state owner page fields size vector)⟩

end Machine
end Sys2Proof
end

section
/-! PROOF. POLICY_SET, EVENT_ACK, OVERRIDE and RESTART: what each does to the state before the request, and its answer. -/

namespace Sys2Proof
namespace Machine

open Bits Ops

namespace Mbox

variable {s : State} {f a v : Nat}

/-! ### POLICY_SET -/

theorem policySet_unknown (h : policy s a = none) : policySet s f a v = refuse s badField 0xFF := by
  rw [policySet, h, ite_self]

/-- A value in the range of its policy is taken, and the one before it answered. -/
theorem policySet_accepts {old lo hi : Nat} (index : a < 65536) (h : policy s a = some (old, lo, hi)) (above : lo ≤ v)
    (below : v ≤ hi) (rdy : ready s = true) (other : a ≠ 0x0300) : policySet s 0 a v = ⟨0, 0xFF, [old], setPolicy s a v⟩ := by
  rw [policySet, if_pos index, h]
  dsimp only
  rw [if_neg (not_or.2 ⟨Nat.not_lt.2 above, Nat.not_lt.2 below⟩), if_neg (by decide), if_neg (by simp [rdy]),
    if_neg fun p => other p.1]

/-- Budget classes that a policy sets. -/
def freeClasses : List Nat := [2, 3, 4, 7, 8, 9]

theorem freeClasses_small {c : Nat} (h : c ∈ freeClasses) : c < 256 := by
  have : ∀ c ∈ freeClasses, c < 256 := by decide
  exact this c h

section
variable {c : Nat} (h : c ∈ freeClasses)
include h

theorem policy_txn : policy s (0x0100 + c) = some ((budgetAt s.sched c).newTxn, 0, noLimit) := by
  have low := freeClasses_small h
  have cls : (0x0100 + c) % 256 = c := by omega
  have kind : (0x0100 + c) / 256 = 1 := by omega
  rw [policy, cls, kind, if_pos ⟨rfl, List.contains_iff_mem.2 h⟩]
theorem policy_nj : policy s (0x0200 + c) = some ((budgetAt s.sched c).newNj, 0, noLimit) := by
  have low := freeClasses_small h
  have cls : (0x0200 + c) % 256 = c := by omega
  have kind : (0x0200 + c) / 256 = 2 := by omega
  rw [policy, cls, kind, if_neg (by simp), if_pos ⟨rfl, List.contains_iff_mem.2 h⟩]
theorem setPolicy_txn : setPolicy s (0x0100 + c) v = s.setSched { s.sched with
    budgets := Sparse.put s.sched.budgets c { budgetAt s.sched c with newTxn := v } } := by
  have low := freeClasses_small h
  have cls : (0x0100 + c) % 256 = c := by omega
  have kind : (0x0100 + c) / 256 = 1 := by omega
  rw [setPolicy, cls, kind, if_pos rfl]
theorem setPolicy_nj : setPolicy s (0x0200 + c) v = s.setSched { s.sched with
    budgets := Sparse.put s.sched.budgets c { budgetAt s.sched c with newNj := v } } := by
  have low := freeClasses_small h
  have cls : (0x0200 + c) % 256 = c := by omega
  have kind : (0x0200 + c) / 256 = 2 := by omega
  rw [setPolicy, cls, kind, if_neg (by decide), if_pos rfl]

end

/-- The policies of classes whose limits are not set. -/
theorem policy_fixedClass (h : ∃ c ∈ [0, 1, 5, 6, 10], a = 0x0100 + c ∨ a = 0x0200 + c) : policy s a = none := by
  have all : ∀ c ∈ [0, 1, 5, 6, 10], policy s (0x0100 + c) = none ∧ policy s (0x0200 + c) = none := by
    simp only [List.forall_mem_cons, List.not_mem_nil, false_imp_iff, implies_true, and_true]
    exact ⟨⟨rfl, rfl⟩, ⟨rfl, rfl⟩, ⟨rfl, rfl⟩, ⟨rfl, rfl⟩, rfl, rfl⟩
  obtain ⟨c, hc, rfl | rfl⟩ := h
  · exact (all c hc).1
  · exact (all c hc).2

/-! ### OVERRIDE and RESTART -/

/-- With P48V in range CELL_FIRMWARE runs again, whatever the mailboxes hold. -/
theorem overrideCmd_runs (stop : halted s = true) (supply : Starts.operating s.pwr.p48v = true) : overrideCmd s 0 1 =
    done 0xFF (s.setBu { s.bu with
      override := true, overVers := some (Bring.versions s.bu), step := 6, phase := 0, code := 0 }) := by
  rw [overrideCmd, if_neg (by decide), if_neg (by decide), if_neg (by simp [stop]),
    Starts.startStep_runs (by exact supply) (.inl (by decide))]
  rfl

theorem overrideCmd_notPermitted (virtual : f ≠ 0) : overrideCmd s f 1 = refuse s notPermitted 0xFF := by
  rw [overrideCmd, if_neg (by decide), if_pos virtual]

theorem restartCmd_orders (calm : s.bu.recovering = false) (may : ready s = true ∨ halted s = true) : restartCmd s 0 0 =
    done 0xFF (s.setBu { s.bu with restart := some true, recovering := true }) := by
  have permitted : ¬(s.bu.recovering ∨ !(ready s || halted s)) := by
    rcases may with h | h <;> simp [calm, h]
  rw [restartCmd, if_neg (by decide), if_neg (by decide), if_neg permitted]
  rfl

theorem restartCmd_notPermitted (low : a < 2) (virtual : f ≠ 0) : restartCmd s f a = refuse s notPermitted 0xFF := by
  rw [restartCmd, if_neg (Nat.not_le.2 low), if_pos virtual]

end Mbox

/-- Settles O17: each command's effect by its lemma, and its answer by what the command does. -/
theorem policyAckOverrideRestart : Obligations.PolicyAckOverrideRestart := by
  intro s f tag a v h answers
  have policy {st obj res b} (e : Mbox.policySet s f a.toNat v.toNat = ⟨st, obj, res, b⟩) := Mbox.policySet_answers h tag a v e
  refine ⟨fun c fixed index => ?_, fun c free pf rdy word => ⟨fun index => ?_, fun index => ?_⟩,
    fun pf rdy => ⟨fun index low high => ?_, fun index low high => ?_⟩, fun pf => ?_, fun pf stop supply => ?_,
    fun pf calm may => ?_, fun virtual => ⟨?_, ?_, fun low => ?_⟩⟩
  · exact ⟨_, rfl, policy (Mbox.policySet_unknown (Mbox.policy_fixedClass ⟨c, fixed, index⟩))⟩
  · subst pf
    have small := Mbox.freeClasses_small free
    refine ⟨_, rfl, policy ?_⟩
    rw [index, Mbox.policySet_accepts (by omega) (Mbox.policy_txn free) (Nat.zero_le _) word rdy (by omega), Mbox.setPolicy_txn free]
  · subst pf
    have small := Mbox.freeClasses_small free
    refine ⟨_, rfl, policy ?_⟩
    rw [index, Mbox.policySet_accepts (by omega) (Mbox.policy_nj free) (Nat.zero_le _) word rdy (by omega), Mbox.setPolicy_nj free]
  · subst pf index
    exact ⟨_, rfl, policy (Mbox.policySet_accepts (by decide) rfl low high rdy (by decide))⟩
  · subst pf index
    exact ⟨_, rfl, policy (Mbox.policySet_accepts (by decide) rfl low high rdy (by decide))⟩
  · subst pf
    exact ⟨_, rfl, Mbox.eventAck_answers h tag a rfl⟩
  · subst pf
    have blind : Mbox.Blind s (Mbox.overrideCmd · 0 1) := by
      intro m
      dsimp only
      rw [Mbox.overrideCmd_runs (s := s) stop supply]
      exact Mbox.overrideCmd_runs (s := Mbox.withMail s m) stop supply
    exact ⟨_, rfl, Mbox.overrideCmd_answers h tag 1 blind (Mbox.overrideCmd_runs stop supply)⟩
  · subst pf
    exact ⟨_, rfl, Mbox.restartCmd_answers h tag 0 (Mbox.restartCmd_orders calm may)
      (.inr (show some true ≠ some false by decide))⟩
  · exact ⟨_, rfl, Mbox.eventAck_answers h tag a (if_pos virtual)⟩
  · have blind : Mbox.Blind s (Mbox.overrideCmd · f 1) := by
      intro m
      simp only [Mbox.overrideCmd_notPermitted virtual]
      rfl
    exact ⟨_, rfl, Mbox.overrideCmd_answers h tag 1 blind (Mbox.overrideCmd_notPermitted virtual)⟩
  · exact ⟨_, rfl, Mbox.restartCmd_answers h tag a (Mbox.restartCmd_notPermitted low virtual) (.inl (by decide))⟩

end Machine
end Sys2Proof
end

section
/-! PROOF. SESSION_CLOSE and EVENT_READ (spec/15_host_and_mailboxes.md R358 to R360; spec/18_reliability_and_recovery.md R434). -/

namespace Sys2Proof
namespace Machine

open Bits Ops

namespace Mbox

/-! ### A command that reads or writes memory answers from the state with the request posted -/

/-- A command's answer, from what it does to the state with the request posted. -/
theorem submit_posted {s u : State} {f : Nat} (h : listens s f) {cmd : Nat} (tag : Word) {args : List Nat} {st obj : Nat}
    {res : List Nat} (small : cmd < 65536)
    (runs : run (posted s f cmd tag.toNat args) f cmd 0 (fun i => fld (reqOf cmd tag.toNat args) (8 + 8 * i) 8) =
      ⟨st, obj, res, u⟩) (kept : u.host.mbox = (posted s f cmd tag.toNat args).host.mbox)
    (warm : cmd ≠ 0x0080 ∨ st ≠ 0 ∨ u.bu.restart ≠ some false) :
    answered (withMail u s.host.mbox) (submit s f cmd tag.toNat args) f (response st cmd tag.toNat (stateWord u f obj) res) := by
  refine submit_answered (base := withMail u s.host.mbox) h small tag.isLt ?_ rfl warm
  rw [runs, ← kept]
  rfl

/-! ### SESSION_CLOSE -/

section
variable {s : State} {f a1 : Nat} {dec : Bool}

/-- The session table that bit 0 names. -/
def sessions (s : State) (dec : Bool) : List Session := if dec then s.codec.dec else s.codec.enc

theorem table_eq : (if ofBool dec % 2 = 0 then s.codec.enc else s.codec.dec) = sessions s dec ∧
    (if ofBool dec = 0 then s.codec.enc else s.codec.dec) = sessions s dec := by cases dec <;> exact ⟨rfl, rfl⟩

theorem sessionOf_unbound (h : (sessions s dec).filter (·.addr == a1) = []) : sessionOf s f (ofBool dec) a1 = none := by
  rw [sessionOf, table_eq.1, h]
  rfl
theorem sessionOf_foreign {x : Session} {r : List Session} (h : (sessions s dec).filter (·.addr == a1) = x :: r)
    (foreign : ∀ y ∈ x :: r, y.fn ≠ f) : sessionOf s f (ofBool dec) a1 = some x := by
  have no : (x :: r).find? (·.fn == f) = none := List.find?_eq_none.2 fun y hy => by simpa using foreign y hy
  rw [sessionOf, table_eq.1, h, no]
  rfl
theorem sessionOf_own {x : Session} (h : (sessions s dec).find? (fun x => x.addr == a1 && x.fn == f) = some x) :
    sessionOf s f (ofBool dec) a1 = some x := by
  have own : ((sessions s dec).filter (·.addr == a1)).find? (·.fn == f) = some x := by
    rw [List.find?_filter, ← h]
    simp only [Bool.decide_and, Bool.decide_eq_true]
  rw [sessionOf, table_eq.1, own]

/-- What STATE names of a session. -/
def busyCode (x : Session) : Nat := if x.busy then 2 else 1

theorem sessionObj_eq {x : Session} (h : sessionOf s f (ofBool dec) a1 = some x) :
    sessionObj s f (ofBool dec) a1 = busyCode x := by
  rw [sessionObj, h]
  rfl

theorem sessionClose_unbound (h : sessionOf s f (ofBool dec) a1 = none) :
    sessionClose s f (ofBool dec) a1 = refuse s wrongState 0 := by
  have two : ¬ 2 ≤ ofBool dec := by cases dec <;> decide
  rw [sessionClose, sessionObj, h, if_neg two]

theorem sessionClose_bound {x : Session} (h : sessionOf s f (ofBool dec) a1 = some x) : sessionClose s f (ofBool dec) a1 =
    if x.fn ≠ f then refuse s notPermitted (busyCode x)
    else if !ready s ∨ x.busy then refuse s wrongState (busyCode x)
    else
      let l := (sessions s dec).filter fun y => !(y.addr == a1 && y.fn == f)
      ⟨0, 0, [x.engine], s.setCodec (if dec then { s.codec with dec := l } else { s.codec with enc := l })⟩ := by
  have two : ¬ 2 ≤ ofBool dec := by cases dec <;> decide
  rw [sessionClose, sessionObj_eq h, h, if_neg two]
  dsimp only
  rw [table_eq.2]
  cases dec <;> rfl

end

/-! ### EVENT_READ -/

/-- The records that EVENT_READ of function f gives: from a position on, at most so many. -/
def eventsFrom (s : State) (f pos most : Nat) : List Event :=
  ((heldEvents s).filter fun e => decide (pos ≤ e.pos) && (f == 0 || e.fn == f)).take most
/-- The position after the records given. -/
def nextFrom (s : State) (f pos most : Nat) : Nat :=
  let ev := eventsFrom s f pos most
  if ev.length = most then (ev.getLast?.map (·.pos + 1)).getD s.log.next else s.log.next

theorem eventRead_writes {s t : State} {f a0 a1 a2 : Nat} (aligned : a0 % 32 = 0) (some : 1 ≤ a2) (most : a2 ≤ 4096)
    (written : hubWrite s 10 f a0 ((eventsFrom s f a1 a2).flatMap eventBytes) = .some t) :
    eventRead s f a0 a1 a2 = ⟨0, 0xFF, [(eventsFrom s f a1 a2).length, nextFrom s f a1 a2], t⟩ := by
  have inRange : ¬(a0 % 32 ≠ 0 ∨ a2 = 0 ∨ 4096 < a2) := by omega
  have next : (if (eventsFrom s f a1 a2).length = a2 then
      (match (eventsFrom s f a1 a2).getLast? with | .some e => e.pos + 1 | none => s.log.next) else s.log.next) =
      nextFrom s f a1 a2 := by
    unfold nextFrom
    dsimp only
    cases (eventsFrom s f a1 a2).getLast? <;> rfl
  rw [← next, eventRead, if_neg inRange]
  change (match hubWrite s 10 f a0 ((eventsFrom s f a1 a2).flatMap eventBytes) with
    | none => _ | .some _ => _) = _
  rw [written]
  rfl

end Mbox

/-- Settles O18: the session that the command names decides; the records are written by hubWrite_one. -/
theorem sessionCloseAndEventRead : Obligations.SessionCloseAndEventRead := by
  intro s f tag a0 a1 a2 h
  refine ⟨?_, ?_⟩
  · intro dec table l mine answers obj
    have closes {st obj res b} (e : Mbox.sessionClose s f (ofBool dec) a1.toNat = ⟨st, obj, res, b⟩) : answers b st obj res :=
      ⟨_, rfl, Mbox.sessionClose_answers h tag a0 a1 (table ▸ e)⟩
    refine ⟨fun unbound => closes (Mbox.sessionClose_unbound (Mbox.sessionOf_unbound unbound)), fun x r found foreign => ?_,
      fun x own => ⟨fun refused => ?_, fun rdy idle => ?_⟩⟩
    · have named := Mbox.sessionOf_foreign (s := s) (dec := dec) found foreign
      exact closes ((Mbox.sessionClose_bound named).trans (if_pos (foreign x List.mem_cons_self)))
    · have mineOwn : x.fn = f := by
        have := List.find?_some own
        simp only [mine, Bool.and_eq_true, beq_iff_eq] at this
        exact this.2
      have wrong : !Mbox.ready s ∨ x.busy := refused.imp_left (by simp [·])
      exact closes ((Mbox.sessionClose_bound (Mbox.sessionOf_own own)).trans ((if_neg (not_not.2 mineOwn)).trans (if_pos wrong)))
    · have mineOwn : x.fn = f := by
        have := List.find?_some own
        simp only [mine, Bool.and_eq_true, beq_iff_eq] at this
        exact this.2
      have permitted : ¬(!Mbox.ready s ∨ x.busy) := by simp [rdy, idle]
      exact closes ((Mbox.sessionClose_bound (Mbox.sessionOf_own own)).trans
        ((if_neg (not_not.2 mineOwn)).trans (if_neg permitted)))
  · intro m clean aligned some most mapped ev data next page
    obtain ⟨e0, e1, e2⟩ := Mbox.args_three 0x0060 tag.toNat a0 a1 a2
    obtain ⟨u, written, -, bytes, same⟩ :=
      hubWrite_one (s := Mbox.posted s f 0x0060 tag.toNat [a0.toNat, a1.toNat, a2.toNat]) clean 10 page mapped
    have read : Mbox.run (Mbox.posted s f 0x0060 tag.toNat [a0.toNat, a1.toNat, a2.toNat]) f 0x0060 0
        (fun i => fld (Mbox.reqOf 0x0060 tag.toNat [a0.toNat, a1.toNat, a2.toNat]) (8 + 8 * i) 8) =
        ⟨0, 0xFF, [ev.length, next], u⟩ := by
      rw [Mbox.run_eventRead, e0, e1, e2]
      exact Mbox.eventRead_writes aligned some most written
    have host : u.host = (Mbox.posted s f 0x0060 tag.toNat [a0.toNat, a1.toNat, a2.toNat]).host := by rw [same]
    have answer := Mbox.submit_posted h tag (by decide) read (by rw [host]) (.inl (by decide))
    refine ⟨Mbox.withMail u s.host.mbox, _, rfl, ?_, bytes, ?_⟩
    · have word : Mbox.stateWord u f 0xFF = Mbox.stateWord s f 0xFF := by
        rw [same]
        rfl
      rw [← word]
      exact answer
    · rw [same]
      rfl

end Machine
end Sys2Proof
end

section
/-! PROOF. CONTEXT_BIND and ROLE_SET: the table and the descriptor are read and checked
(spec/15_host_and_mailboxes.md R360; spec/19_security.md R444, R445). -/

namespace Sys2Proof
namespace Machine

open Bits Ops

namespace Mbox

/-! ### A translation table in memory -/

section
variable (s : State) (fn a : Nat)

/-- The table's head, its number of entries, its body and its entries. -/
def tableHead : Bytes := bytesOf s a 16
def tableLen : Nat := fld (tableHead s a) 4 4
def tableBody : Bytes := bytesOf s (a + 16) (16 * tableLen s a)
def tableEntries : List XlatEntry := (List.range (tableLen s a)).map (tableEntry (tableBody s a))
/-- What a head and a body have to satisfy. -/
def HeadOk : Prop := slice (tableHead s a) 0 4 = ascii "KXT1" ∧ tableLen s a ≤ 1024 ∧ fld (tableHead s a) 12 4 = 0
def BodyOk : Prop := (crc32c (tableBody s a)).toNat = fld (tableHead s a) 8 4 ∧
  (∀ i < tableLen s a, entryOk (tableBody s a) i = true) ∧ runsOk s fn (tableEntries s a) = true
end

/-- From s to t nothing but budget counters changed. -/
def Spent (s t : State) : Prop := t = { s with sched := { s.sched with budgets := t.sched.budgets } }

section
variable {s t : State} {fn a : Nat}

theorem Spent.trans {u : State} (h : Spent s t) (g : Spent t u) : Spent s u := by
  rw [Spent, g, h]
theorem Spent.ready (h : Spent s t) : ready t = ready s := by
  rw [h]
  rfl
theorem Spent.clean (h : Spent s t) (clean : memClean s) : memClean t := by
  rw [h]
  exact clean
theorem Spent.bytes (h : Spent s t) (a n : Nat) : bytesOf t a n = bytesOf s a n := by
  rw [h]
  rfl

variable (clean : memClean s) (untranslated : Sparse.get? s.host.ctx 0 = none) (below : a + 16 + 16 * 1024 ≤ Config.recoveryBase)
include clean untranslated below

/-- A head that fails is refused after its read. -/
theorem readTable_badHead (bad : ¬ HeadOk s a) : ∃ t, readTable s 0 fn a = (none, t) ∧ Spent s t := by
  obtain ⟨t, head, spent⟩ := readLog_pf clean 10 untranslated (a := a) (n := 16) (by omega)
  have refused : slice (tableHead s a) 0 4 ≠ ascii "KXT1" ∨ 1024 < tableLen s a ∨ fld (tableHead s a) 12 4 ≠ 0 := by
    by_contra all
    simp only [not_or, not_not, Nat.not_lt] at all
    exact bad all
  refine ⟨t, ?_, spent⟩
  rw [readTable, head]
  exact if_pos refused

/-- After a sound head the body is read, and its checks decide. -/
theorem readTable_body (good : HeadOk s a) : ∃ t, Spent s t ∧
    (BodyOk s fn a → readTable s 0 fn a = (some (tableEntries s a), t)) ∧ (¬ BodyOk s fn a → readTable s 0 fn a = (none, t)) := by
  obtain ⟨magic, size, zero⟩ := good
  obtain ⟨t, head, spent⟩ := readLog_pf clean 10 untranslated (a := a) (n := 16) (by omega)
  replace spent : Spent s t := spent
  have untranslated' : Sparse.get? t.host.ctx 0 = none := by
    rw [spent]
    exact untranslated
  obtain ⟨u, body, spent'⟩ := readLog_pf (spent.clean clean) 10 untranslated' (a := a + 16) (n := 16 * tableLen s a) (by omega)
  rw [spent.bytes] at body
  have runs : runsOk u fn (tableEntries s a) = runsOk s fn (tableEntries s a) := by
    rw [Spent.trans spent spent']
    rfl
  have accepted : ¬(slice (bytesOf s a 16) 0 4 ≠ ascii "KXT1" ∨ 1024 < fld (bytesOf s a 16) 4 4 ∨ fld (bytesOf s a 16) 12 4 ≠ 0) := by
    rintro (h | h | h)
    · exact h magic
    · exact absurd size (Nat.not_le.2 h)
    · exact h zero
  have read : readTable s 0 fn a = if (crc32c (tableBody s a)).toNat = fld (tableHead s a) 8 4 ∧
      (List.range (tableLen s a)).all (entryOk (tableBody s a)) ∧ runsOk u fn (tableEntries s a) then (some (tableEntries s a), u)
      else (none, u) := by
    unfold tableLen tableHead at body
    rw [readTable, head]
    dsimp only
    rw [if_neg accepted, body]
    rfl
  have sound : ((crc32c (tableBody s a)).toNat = fld (tableHead s a) 8 4 ∧
      (List.range (tableLen s a)).all (entryOk (tableBody s a)) ∧ runsOk u fn (tableEntries s a)) ↔ BodyOk s fn a := by
    simp [BodyOk, runs, List.all_eq_true]
  exact ⟨u, spent.trans spent', fun ok => read.trans (if_pos (sound.2 ok)), fun bad => read.trans (if_neg (bad ∘ sound.1))⟩

end

/-! ### CONTEXT_BIND -/

section
variable {s t : State} {a0 a1 : Nat} (low : a0 < 16) (idle : activeRings s a0 = 0)
include low idle

theorem contextBind_refuses (read : readTable s 0 a0 a1 = (none, t)) : contextBind s 0 a0 a1 = refuse t badField 0 := by
  rw [contextBind, Nat.mod_eq_of_lt low, idle]
  dsimp only
  rw [if_neg (Nat.not_le.2 low), read]

theorem contextBind_binds {es : List XlatEntry} (read : readTable s 0 a0 a1 = (some es, t)) (rdy : ready t = true)
    (jobless : (jobsOf t a0).isEmpty = true) :
    contextBind s 0 a0 a1 = done 0 (t.setHost { t.host with ctx := Sparse.put t.host.ctx a0 es }) := by
  rw [contextBind, Nat.mod_eq_of_lt low, idle]
  dsimp only
  rw [if_neg (Nat.not_le.2 low), read]
  dsimp only
  rw [if_neg (by decide), rdy, jobless, if_neg (by simp)]

end

theorem activeRings_none {s : State} {fn : Nat} (h : ∀ r < 64, (ringAt s.host r).owner = fn → (ringAt s.host r).state ∉ [3, 4]) :
    activeRings s fn = 0 := by
  rw [activeRings, List.length_eq_zero_iff, List.filter_eq_nil_iff]
  intro r low
  have quiet := h r (List.mem_range.1 low)
  simp only [List.mem_cons, List.not_mem_nil, or_false] at quiet
  simpa using quiet

theorem jobsOf_none {s : State} {fn : Nat} (h : ∀ j ∈ s.sched.jobs, j.fn ≠ fn) : (jobsOf s fn).isEmpty = true := by
  rw [jobsOf, List.isEmpty_iff, List.filter_eq_nil_iff]
  intro j hj
  simpa using h j hj

/-! ### ROLE_SET -/

theorem roleObj_none {s : State} (free : s.cache.role = 0) (unnamed : ∀ j ∈ s.sched.jobs, fld j.desc 0x28 8 = 0) :
    roleObj s 0 = (0, s) := by
  have no : (s.sched.jobs.any fun j => fld j.desc 0x28 8 != 0) = false := by
    rw [List.any_eq_false]
    intro j hj
    simpa using unnamed j hj
  rw [roleObj, no, free, if_neg Bool.false_ne_true, if_pos rfl]

/-- With the descriptor read, its checks decide. -/
theorem roleSet_read {s t : State} {a0 a1 : Nat} {d : Bytes} (free : roleObj s 0 = (0, s)) (role : 0 < a0 ∧ a0 < 4) (named : a1 ≠ 0)
    (read : readLog s 0 10 a1 64 = (.ok d, t)) (rdy : ready t = true) : roleSet s 0 a0 a1 =
    if CacheOps.descOk d = true then done 0 (t.setCache ⟨a0, d, a1, []⟩) else refuse t badField 0 := by
  obtain ⟨pos, low⟩ := role
  have inRange : ¬(4 ≤ a0 ∨ (a0 = 0) ≠ (a1 = 0)) := by
    rintro (h | h)
    · omega
    · exact h (by simp [named, Nat.ne_of_gt pos])
  rw [roleSet, free]
  dsimp only
  rw [if_neg inRange, if_neg (Nat.ne_of_gt pos), read]
  dsimp only
  cases ok : CacheOps.descOk d
  · rw [if_pos ⟨Nat.ne_of_gt pos, rfl⟩, if_neg (by decide)]
  · rw [if_neg (by simp), if_neg (by decide), rdy, if_neg (by simp), if_pos rfl]

end Mbox

/-- Settles O19: the table as read decides CONTEXT_BIND, the descriptor as read ROLE_SET. -/
theorem contextBindAndRoleSet : Obligations.ContextBindAndRoleSet := by
  intro s tag a0 a1 h rdy clean untranslated f head n body es headOk bodyOk spent
  refine ⟨?_, ?_⟩
  · intro low jobless quiet below
    obtain ⟨e0, e1⟩ := Mbox.args_two 0x0020 tag.toNat a0 a1
    let P := Mbox.posted s 0 0x0020 tag.toNat [a0.toNat, a1.toNat]
    have idle : Mbox.activeRings P f = 0 := Mbox.activeRings_none (s := s) quiet
    have answers {st : Nat} {u b : State} (e : Mbox.contextBind P 0 a0.toNat a1.toNat = ⟨st, 0, [], u⟩)
        (kept : u.host.mbox = P.host.mbox) (back : Mbox.withMail u s.host.mbox = b)
        (word : Mbox.stateWord b 0 0 = Mbox.stateWord s 0 0) :
        ∃ t, exec (.contextBind 0 tag a0 a1) s = .next t ∧
          answered b t 0 (response st 0x0020 tag.toNat (Mbox.stateWord s 0 0) []) := by
      subst back
      refine ⟨_, rfl, ?_⟩
      rw [← word]
      exact Mbox.submit_posted h tag (by decide) (by rw [Mbox.run_contextBind, e0, e1]; exact e) kept (.inl (by decide))
    have refuses {u : State} (read : Mbox.readTable P 0 f a1.toNat = (none, u)) (same : Mbox.Spent P u) :
        ∃ b t, exec (.contextBind 0 tag a0 a1) s = .next t ∧
          answered b t 0 (response 0x0101 0x0020 tag.toNat (Mbox.stateWord s 0 0) []) ∧ spent b s.host s.cache := by
      have e := Mbox.contextBind_refuses low idle read
      rw [same] at e
      obtain ⟨t, run, answer⟩ := answers e rfl rfl rfl
      exact ⟨_, t, run, answer, rfl⟩
    refine ⟨fun goodHead goodBody => ?_, fun bad => ?_⟩
    · obtain ⟨u, same, accepts, -⟩ := Mbox.readTable_body (s := P) (fn := f) clean untranslated below goodHead
      have rdy' : Mbox.ready u = true := same.ready.trans rdy
      have jobless' : (Mbox.jobsOf u f).isEmpty = true := by
        rw [same]
        exact Mbox.jobsOf_none (s := s) jobless
      have e := Mbox.contextBind_binds low idle (accepts goodBody) rdy' jobless'
      rw [same] at e
      obtain ⟨t, run, answer⟩ := answers e rfl rfl rfl
      exact ⟨_, t, run, answer, rfl⟩
    · by_cases goodHead : headOk
      · obtain ⟨u, same, -, rejects⟩ := Mbox.readTable_body (s := P) (fn := f) clean untranslated below goodHead
        exact refuses (rejects fun goodBody => bad ⟨goodHead, goodBody⟩) same
      · obtain ⟨u, read, same⟩ := Mbox.readTable_badHead (s := P) (fn := f) clean untranslated below goodHead
        exact refuses read same
  · intro pos low named free unnamed below d
    obtain ⟨e0, e1⟩ := Mbox.args_two 0x0040 tag.toNat a0 a1
    let P := Mbox.posted s 0 0x0040 tag.toNat [a0.toNat, a1.toNat]
    obtain ⟨u, read, same⟩ := readLog_pf (s := P) clean 10 untranslated below
    have address : a1.toNat ≠ 0 := fun zero => named (BitVec.eq_of_toNat_eq zero)
    have e := Mbox.roleSet_read (Mbox.roleObj_none (s := P) free unnamed) ⟨pos, low⟩ address read
      (Mbox.Spent.ready (s := P) same |>.trans rdy)
    rw [same] at e
    have answers {st : Nat} {b u : State} (e : Mbox.roleSet P 0 a0.toNat a1.toNat = ⟨st, 0, [], u⟩)
        (kept : u.host.mbox = P.host.mbox) (back : Mbox.withMail u s.host.mbox = b) :
        ∃ t, exec (.roleSet 0 tag a0 a1) s = .next t ∧
          answered b t 0 (response st 0x0040 tag.toNat (Mbox.stateWord b 0 0) []) := by
      subst back
      exact ⟨_, rfl, Mbox.submit_posted h tag (by decide) (by rw [Mbox.run_roleSet, e0, e1]; exact e) kept (.inl (by decide))⟩
    refine ⟨fun ok => ?_, fun bad => ?_⟩
    · obtain ⟨t, run, answer⟩ := answers (e.trans (if_pos ok)) rfl rfl
      exact ⟨_, t, run, answer, rfl⟩
    · obtain ⟨t, run, answer⟩ := answers (e.trans (if_neg (ne_true_of_eq_false bad))) rfl rfl
      exact ⟨_, t, run, answer, rfl⟩

end Machine
end Sys2Proof
end

section
/-! PROOF. The PCIe side: BAR2 accesses, link training, configuration requests and the resets of the whole link
(spec/15_host_and_mailboxes.md). -/

namespace Sys2Proof
namespace Machine

open Bits Ops

variable {s : State}

/-! ### BAR2 -/

section
variable {f n : Nat} {a : Dword} (inside : Bar.opens s f a.toNat n = true) (left : txnLeft s.sched 9 = true)
include inside left

theorem exec_bar2Read_ok {d : Bytes} {t : State} (read : readLog s f 9 a.toNat n = (.ok d, t)) :
    exec (.bar2Read f a n) s = .next (t.setHost { t.host with lastRead := some ⟨f, .ok, d⟩ }) := by
  show execBar2Read f a n s = _
  rw [execBar2Read, inside, left, if_neg (by decide), if_neg (by decide), read]
  rfl

theorem exec_bar2Read_refused (read : readLog s f 9 a.toNat n = (.refused, s)) : exec (.bar2Read f a n) s =
    .next (let h := { s.host with lastRead := some ⟨f, .unsupported, []⟩ }
           s.setHost (Bar.putPcie h f { Bar.pcieAt h f with aer := setBit (Bar.pcieAt h f).aer 20 true })) := by
  show execBar2Read f a n s = _
  rw [execBar2Read, inside, left, if_neg (by decide), if_neg (by decide), read]
  rfl

end

section
variable {f : Nat} {a : Dword} {b : Bytes} (inside : Bar.opens s f a.toNat b.length = true) (left : txnLeft s.sched 9 = true)
include inside left

theorem exec_bar2Write_ok {t : State} (written : writeLog s ⟨none, 0xFFFFFFFF, 0x20000⟩ 9 f a.toNat b = some (t, [])) :
    exec (.bar2Write f a b) s = .next t := by
  show execBar2Write f a b s = _
  rw [execBar2Write, inside, left, if_neg (by decide), if_neg (by decide), written]
  rfl

theorem exec_bar2Write_refused (written : writeLog s ⟨none, 0xFFFFFFFF, 0x20000⟩ 9 f a.toNat b = none) :
    exec (.bar2Write f a b) s = .next s := by
  show execBar2Write f a b s = _
  rw [execBar2Write, inside, left, if_neg (by decide), if_neg (by decide), written]

end

theorem exec_bar2Read_stalled {f n : Nat} {a : Dword} (inside : Bar.opens s f a.toNat n = true) (spent : txnLeft s.sched 9 = false) :
    exec (.bar2Read f a n) s = .next (s.setSched (markStall s.sched 9)) := by
  show execBar2Read f a n s = _
  rw [execBar2Read, inside, spent, if_neg (by decide), if_pos (by decide)]
theorem exec_bar2Write_stalled {f : Nat} {a : Dword} {b : Bytes} (inside : Bar.opens s f a.toNat b.length = true)
    (spent : txnLeft s.sched 9 = false) : exec (.bar2Write f a b) s = .next (s.setSched (markStall s.sched 9)) := by
  show execBar2Write f a b s = _
  rw [execBar2Write, inside, spent, if_neg (by decide), if_pos (by decide)]

/-- A run in one page that translation refuses makes no access. -/
theorem readLog_unmapped {f n a : Nat} (some : 0 < n) (page : a % 4096 + n ≤ 4096) (unmapped : xlat s.host f a false = none) (k : Nat) :
    readLog s f k a n = (.refused, s) := by
  rw [readLog, xlatRun_one_none some page unmapped]
theorem writeLog_unmapped {f a : Nat} {b : Bytes} (some : 0 < b.length) (page : a % 4096 + b.length ≤ 4096)
    (unmapped : xlat s.host f a true = none) (w : Writer) (k : Nat) : writeLog s w k f a b = none := by
  rw [writeLog, xlatRun_one_none some page unmapped]
  rfl

/-- Settles O20: readLog_one and writeLog_one where translation maps the address, no access where it refuses. -/
theorem bar2ReadsAndWrites : Obligations.Bar2ReadsAndWrites := by
  intro s f n a b clean
  refine ⟨fun inside left some page => ⟨fun m mapped => ?_, fun unmapped => ?_⟩,
    fun inside left some page => ⟨fun m mapped => ?_, fun unmapped => ?_⟩,
    fun spent => ⟨fun inside => exec_bar2Read_stalled inside spent, fun inside => exec_bar2Write_stalled inside spent⟩⟩
  · obtain ⟨t, read, same⟩ := readLog_one clean 9 some page mapped
    refine ⟨_, exec_bar2Read_ok inside left read, ?_⟩
    rw [same]
    rfl
  · exact exec_bar2Read_refused inside left (readLog_unmapped some page unmapped 9)
  · obtain ⟨t, written, -, bytes, same⟩ := writeLog_one clean ⟨none, 0xFFFFFFFF, 0x20000⟩ 9 some page mapped
    exact ⟨t, exec_bar2Write_ok inside left written, bytes, same⟩
  · exact exec_bar2Write_refused inside left (writeLog_unmapped some page unmapped _ 9)

/-! ### Link training -/

/-- The width that so many trained lanes give. -/
def linkWidth (lanes : Nat) : Nat := if 16 ≤ lanes then 16 else if 8 ≤ lanes then 8 else if 4 ≤ lanes then 4 else 1

theorem linkWidth_pos (lanes : Nat) : linkWidth lanes ≠ 0 := by
  unfold linkWidth
  split
  · decide
  split
  · decide
  split <;> decide

theorem exec_pcieLinkTraining_up {gen width : Nat} (lane : 1 ≤ width) (good : s.pwr.phase = .good) (begun : s.bu.step ≠ 0) :
    exec (.pcieLinkTraining gen width) s = .next (s.setHost { s.host with
      linkUp := true, perstLow := false, linkGen := min gen (max 4 s.ident.pcieMax), linkWidth := linkWidth width }) := by
  have lanes : (if 16 ≤ width then 16 else if 8 ≤ width then 8 else if 4 ≤ width then 4 else if 1 ≤ width then 1 else 0) =
      linkWidth width := by rw [if_pos lane, linkWidth]
  have trains : ¬(s.pwr.phase ≠ .good ∨ linkWidth width = 0 ∨ s.bu.step = 0) := by simp [good, begun, linkWidth_pos]
  show execPcieLinkTraining gen width s = _
  rw [execPcieLinkTraining, lanes]
  exact if_neg trains

theorem exec_pcieLinkTraining_off {gen width : Nat} (off : s.pwr.phase ≠ .good ∨ s.bu.step = 0) :
    exec (.pcieLinkTraining gen width) s = .next s := if_pos (off.imp_right .inr)

/-! ### Configuration requests -/

theorem exec_configuration_retry (off : s.bu.mpRunning = false) (f kind : Nat) (v : Word) :
    exec (.configurationRequest f kind v) s = .next (s.setHost { s.host with lastRead := some ⟨f, .retry, []⟩ }) := by
  exact if_pos (show (!s.bu.mpRunning) = true by simp [off])

section
variable (runs : s.bu.mpRunning = true) (f : Nat) (v : Word)
include runs

theorem running_serves : ¬(!s.bu.mpRunning) = true := by simp [runs]

theorem exec_configuration_power : exec (.configurationRequest f 0 v) s =
    if v.toNat = 3 then .next (s.setHost { s.host with d3 := f :: s.host.d3.filter (· != f) })
    else if v.toNat = 0 then .next (s.setHost { s.host with d3 := s.host.d3.filter (· != f) })
    else .next s := if_neg (running_serves runs)
theorem exec_configuration_bar2 : exec (.configurationRequest f 1 v) s =
    if 30 ≤ v.toNat ∧ v.toNat ≤ (if f = 0 then 39 else 36) then
      .next (s.setHost { s.host with bar2 := Sparse.put s.host.bar2 f v.toNat })
    else .next s := if_neg (running_serves runs)
theorem exec_configuration_numVfs : exec (.configurationRequest f 2 v) s =
    if f = 0 ∧ v.toNat ≤ 15 then .next (s.setHost { s.host with numVfs := v.toNat }) else .next s :=
  if_neg (running_serves runs)

/-- A power-state request moves the function it names alone. -/
theorem configuration_powerState : ∃ t, exec (.configurationRequest f 0 v) s = .next t ∧
    t = { s with host := { s.host with d3 := t.host.d3 } } ∧
    (f ∈ t.host.d3 ↔ v = 3 ∨ (v ≠ 0 ∧ f ∈ s.host.d3)) ∧ ∀ g ≠ f, (g ∈ t.host.d3 ↔ g ∈ s.host.d3) := by
  rw [exec_configuration_power runs]
  have three : v.toNat = 3 ↔ v = 3 := ⟨fun h => BitVec.eq_of_toNat_eq h, by rintro rfl; rfl⟩
  have zero : v.toNat = 0 ↔ v = 0 := ⟨fun h => BitVec.eq_of_toNat_eq h, by rintro rfl; rfl⟩
  simp only [three, zero]
  by_cases hot : v = 3
  · rw [if_pos hot]
    exact ⟨_, rfl, rfl, by simp [State.setHost, hot], fun g other => by simp [State.setHost, other]⟩
  · by_cases full : v = 0
    · rw [if_neg hot, if_pos full]
      exact ⟨_, rfl, rfl, by simp [State.setHost, full], fun g other => by simp [State.setHost, other]⟩
    · rw [if_neg hot, if_neg full]
      exact ⟨_, rfl, rfl, ⟨fun h => .inr ⟨full, h⟩, fun h => h.elim (absurd · hot) And.right⟩, fun g _ => Iff.rfl⟩

end

/-- Settles O21: training and the kinds of configuration requests, each by its lemma. -/
theorem linkTrainingAndConfiguration : Obligations.LinkTrainingAndConfiguration := by
  intro s gen width f v lane
  refine ⟨fun good begun => exec_pcieLinkTraining_up lane good begun, exec_pcieLinkTraining_off,
    fun off k => exec_configuration_retry off f k v, fun runs => ⟨configuration_powerState runs f v, ?_, ?_, ?_, ?_⟩⟩
  · have serves := running_serves runs
    exact ⟨if_neg serves, if_neg serves, if_neg serves, if_neg serves⟩
  · intro low high
    rw [exec_configuration_bar2 runs, if_pos ⟨low, high⟩]
  · intro outside
    rw [exec_configuration_bar2 runs, if_neg (by omega)]
  · rw [exec_configuration_numVfs runs]
    split <;> rfl

/-! ### Resets of the link -/

/-- Settles O23: both reset every function as Rst.all does, and PERST_N stays low besides. -/
theorem linkResetEndsEveryFunction : Obligations.LinkResetEndsEveryFunction := by
  intro s calm ends
  obtain ⟨same, up, gen, width, low, mailboxes, budgets, jobs, ending, idle, busy⟩ := Rst.all_spec s calm
  refine ⟨⟨_, rfl, ?_, up, gen, width, rfl, mailboxes, budgets, jobs, ending, idle, busy⟩,
    ⟨_, rfl, same, up, gen, width, low, mailboxes, budgets, jobs, ending, idle, busy⟩⟩
  generalize Rst.all s = t at same
  rw [same]
  rfl

end Machine
end Sys2Proof
end

section
/-! PROOF. FUNCTION_LEVEL_RESET and the end of a function's reset (spec/15_host_and_mailboxes.md R368). -/

namespace Sys2Proof
namespace Machine

open Bits Ops JobOps

variable {s : State} {f : Nat}

namespace Rst

/-! ### The host side of a function in reset -/

theorem functionState_mbox (h : HostIf) (f g : Nat) :
    Mbox.mboxAt (functionState h f) g = if g = f then Mbox.mbox0 else Mbox.mboxAt h g := by
  show (Sparse.get? (Sparse.del h.mbox f) g).getD Mbox.mbox0 = _
  rw [Sparse.get_del]
  split <;> rfl

theorem functionState_held (h : HostIf) (f : Nat) : ∀ x ∈ (functionState h f).held, x.1 ≠ f :=
  fun _ hx => by simpa using (List.mem_filter.1 hx).2
theorem functionState_unmasked (h : HostIf) (f : Nat) : ∀ x ∈ (functionState h f).unmasked, x.1 ≠ f :=
  fun _ hx => by simpa using (List.mem_filter.1 hx).2
theorem functionState_msixPend (h : HostIf) (f : Nat) : ∀ x ∈ (functionState h f).msixPend, x.1 ≠ f :=
  fun _ hx => by simpa using (List.mem_filter.1 hx).2
theorem functionState_staged (h : HostIf) (f : Nat) : ∀ x ∈ (functionState h f).staged, x.1 ≠ f :=
  fun _ hx => by simpa using (List.mem_filter.1 hx).2
theorem functionState_d3 (h : HostIf) (f : Nat) : f ∉ (functionState h f).d3 :=
  fun hx => by simpa using (List.mem_filter.1 hx).2

/-- Stopping the rings first only changes the rings. -/
theorem functionState_stopRings (h : HostIf) (f : Nat) :
    functionState (Bar.stopRings h f) f = { functionState h f with rings := (Bar.stopRings h f).rings } := by
  have stop := (Bar.stopRings_spec h f).1
  generalize Bar.stopRings h f = w at stop ⊢
  rw [stop]
  rfl

/-! ### The jobs of a function in reset -/

/-- The jobs with every job of the function ending with 0x0105. -/
def ended (f : Nat) (l : List Job) : List Job := l.map fun j => if j.fn == f then endJob j 0x0105 Check.none32 0xFFFF 0 else j

theorem mem_ended {l : List Job} {j : Job} : j ∈ ended f l ↔
    (∃ x ∈ l, x.fn = f ∧ j = endJob x 0x0105 Check.none32 0xFFFF 0) ∨ (j ∈ l ∧ j.fn ≠ f) := by
  rw [ended, List.mem_map]
  constructor
  · rintro ⟨x, hx, rfl⟩
    by_cases own : x.fn = f
    · exact .inl ⟨x, hx, own, if_pos (by simpa using own)⟩
    · rw [if_neg (by simpa using own)]
      exact .inr ⟨hx, own⟩
  · rintro (⟨x, hx, own, rfl⟩ | ⟨hj, other⟩)
    · exact ⟨x, hx, if_pos (by simpa using own)⟩
    · exact ⟨j, hj, if_neg (by simpa using other)⟩

theorem ended_phase {l : List Job} {j : Job} (hj : j ∈ ended f l) (own : j.fn = f) : j.phase = .ending := by
  obtain ⟨x, -, -, rfl⟩ | ⟨-, other⟩ := mem_ended.1 hj
  · exact endJob_phase ..
  · exact absurd own other

theorem ended_others {l : List Job} {j : Job} (other : j.fn ≠ f) : j ∈ ended f l ↔ j ∈ l := by
  refine ⟨fun hj => ?_, fun hj => mem_ended.2 (.inr ⟨hj, other⟩)⟩
  obtain ⟨x, -, own, rfl⟩ | ⟨hj, -⟩ := mem_ended.1 hj
  · exact absurd ((endJob_fn ..).trans own) other
  · exact hj

/-! ### The state in which a reset has begun -/

/-- Steps 1 to 3 of R368 in a state without another reset. -/
theorem start_one (alone : s.host.resetting = []) : start s f = { s with
    host := { functionState s.host f with rings := (Bar.stopRings s.host f).rings, resetting := [f] }
    sched := { s.sched with jobs := ended f s.sched.jobs } } := by
  have none : (functionState s.host f).resetting = [] := alone
  unfold start
  rw [functionState_stopRings]
  dsimp only
  rw [none]
  rfl

end Rst

/-! ### The end of the one reset under way -/

namespace Finish

variable (calm : s.recov = none) (alone : s.host.resetting = [f]) (real : f ≠ 0xFF)
include calm alone real

/-- A reset goes on while its function has a job. -/
theorem resetsDone_busy (busy : s.sched.jobs.any (·.fn == f) = true) : resetsDone s = s := by
  have finished : (s.host.resetting.filter fun g => g != 0xFF && !(s.sched.jobs.any (·.fn == g))) = [] := by
    simp [alone, busy]
  have stay : (s.host.resetting.filter fun g => !([] : List Nat).contains g) = s.host.resetting := by simp
  rw [resetsDone_is s calm, finished, stay]
  exact if_neg (by simp [alone, real] : s.host.resetting ≠ [0xFF])

/-- A reset ends once its function has no job: its rings are ASSIGNED. -/
theorem resetsDone_last (idle : s.sched.jobs.any (·.fn == f) = false) :
    resetsDone s = s.setHost { Bar.resetRings s.host f with resetting := [] } := by
  have finished : (s.host.resetting.filter fun g => g != 0xFF && !(s.sched.jobs.any (·.fn == g))) = [f] := by
    simp [alone, idle, real]
  have none : (s.host.resetting.filter fun g => !([f] : List Nat).contains g) = [] := by simp [alone]
  rw [resetsDone_is s calm, finished, none, List.foldl_cons, List.foldl_nil]
  exact if_neg (by simp : ([] : List Nat) ≠ [0xFF])

end Finish

/-! ### FUNCTION_LEVEL_RESET -/

namespace Rst

/-- The state after a reset that changed the rings to `w` and left the functions `q` in reset. -/
def after (s : State) (f : Nat) (w : Sparse Ring) (q : List Nat) : State :=
  { s with host := { functionState s.host f with rings := w, resetting := q }, sched := { s.sched with jobs := ended f s.sched.jobs } }

theorem exec_functionLevelReset (small : f < 16) (alone : s.host.resetting = []) :
    exec (.functionLevelReset f) s = .next (Finish.resetsDone (after s f (Bar.stopRings s.host f).rings [f])) := by
  rw [after, ← start_one alone]
  exact if_pos small

theorem any_ended (f : Nat) (l : List Job) : (ended f l).any (·.fn == f) = l.any (·.fn == f) := by
  rw [Bool.eq_iff_iff, List.any_eq_true, List.any_eq_true]
  constructor
  · rintro ⟨j, hj, own⟩
    obtain ⟨x, hx, fn, -⟩ | ⟨-, other⟩ := mem_ended.1 hj
    · exact ⟨x, hx, by simpa using fn⟩
    · exact absurd (by simpa using own) other
  · rintro ⟨j, hj, own⟩
    exact ⟨_, mem_ended.2 (.inl ⟨j, hj, by simpa using own, rfl⟩), by simpa [endJob_fn] using own⟩

theorem ringAt_of_rings {g h : HostIf} (same : g.rings = h.rings) (r : Nat) : ringAt g r = ringAt h r := by
  rw [ringAt, same, ← ringAt]

/-- With a job of the function left, its rings hold nothing not admitted. -/
theorem after_ring_stopped (w : Sparse Ring) (hw : w = (Bar.stopRings s.host f).rings) (q : List Nat) {r : Nat} (hr : r < 64) :
    ringAt (after s f w q).host r = if (ringAt s.host r).state ≠ 0 ∧ (ringAt s.host r).owner = f then
      { ringAt s.host r with tail := (ringAt s.host r).head, bells := [], state := if (ringAt s.host r).state = 3 then 4 else (ringAt s.host r).state }
      else ringAt s.host r := by
  rw [← (Bar.stopRings_spec s.host f).2 r hr]
  exact ringAt_of_rings hw r

/-- With none left they are reset besides. -/
theorem after_ring_reset {r : Nat} (hr : r < 64) (w : Sparse Ring) (q : List Nat)
    (hw : w = (Bar.resetRings (after s f (Bar.stopRings s.host f).rings [f]).host f).rings) :
    ringAt (after s f w q).host r = if (ringAt s.host r).state ≠ 0 ∧ (ringAt s.host r).owner = f then
      { ringAt s.host r with base := 0, log2 := 0, vector := 0xFF, tail := 0, head := 0, done := 0, state := 1, bells := [] }
      else ringAt s.host r := by
  have reset := (Bar.resetRings_spec (after s f (Bar.stopRings s.host f).rings [f]).host f).2 r hr
  rw [after_ring_stopped _ rfl _ hr] at reset
  rw [ringAt_of_rings (g := (after s f w q).host) hw r, reset]
  by_cases own : (ringAt s.host r).state ≠ 0 ∧ (ringAt s.host r).owner = f
  · have inUse : (if (ringAt s.host r).state = 3 then 4 else (ringAt s.host r).state) ≠ 0 := by
      split
      · decide
      · exact own.1
    rw [if_pos own, if_pos own, if_pos ⟨inUse, own.2⟩]
  · rw [if_neg own, if_neg own]

/-- What the reset leaves: the function in reset with its rings stopped while it has a job, else its rings reset. -/
theorem functionLevelReset_after (small : f < 16) (calm : s.recov = none) (alone : s.host.resetting = []) :
    ∃ w q, exec (.functionLevelReset f) s = .next (after s f w q) ∧ q = (if s.sched.jobs.any (·.fn == f) then [f] else []) ∧
      ∀ r < 64, ringAt (after s f w q).host r = if (ringAt s.host r).state ≠ 0 ∧ (ringAt s.host r).owner = f then
        (if s.sched.jobs.any (·.fn == f) then
          { ringAt s.host r with tail := (ringAt s.host r).head, bells := [], state := if (ringAt s.host r).state = 3 then 4 else (ringAt s.host r).state }
        else { ringAt s.host r with base := 0, log2 := 0, vector := 0xFF, tail := 0, head := 0, done := 0, state := 1, bells := [] })
        else ringAt s.host r := by
  have real : f ≠ 0xFF := by omega
  obtain ⟨v, hv⟩ : ∃ v, v = (Bar.stopRings s.host f).rings := ⟨_, rfl⟩
  rw [exec_functionLevelReset small alone]
  have reset := fun w q r (hr : r < 64) => after_ring_reset (s := s) (f := f) hr w q
  rw [← hv] at reset ⊢
  have jobs : (after s f v [f]).sched.jobs.any (·.fn == f) = s.sched.jobs.any (·.fn == f) := any_ended f _
  cases busy : s.sched.jobs.any (·.fn == f) with
  | true =>
    rw [Finish.resetsDone_busy (s := after s f v [f]) calm rfl real (jobs.trans busy)]
    exact ⟨v, [f], rfl, (if_pos rfl).symm, fun r hr => after_ring_stopped v hv [f] hr⟩
  | false =>
    obtain ⟨w, hw⟩ : ∃ w, w = (Bar.resetRings (after s f v [f]).host f).rings := ⟨_, rfl⟩
    rw [Finish.resetsDone_last (s := after s f v [f]) calm rfl real (jobs.trans busy), (Bar.resetRings_spec _ f).1, ← hw]
    exact ⟨w, [], rfl, rfl, fun r hr => reset w [] r hr hw⟩

end Rst

/-- Settles O22: the function's state and jobs are cleared at once, and its rings with the end of its last job. -/
theorem functionLevelResetEffect : Obligations.FunctionLevelResetEffect := by
  intro s f small calm alone
  obtain ⟨w, q, runs, hq, rings⟩ := Rst.functionLevelReset_after small calm alone
  refine ⟨_, runs, rfl, (Rst.functionState_mbox s.host f f).trans (if_pos rfl),
    fun g other => (Rst.functionState_mbox s.host f g).trans (if_neg other), Rst.functionState_d3 s.host f,
    Rst.functionState_held s.host f, Rst.functionState_unmasked s.host f, Rst.functionState_msixPend s.host f,
    Rst.functionState_staged s.host f, rfl, rfl, fun j => Rst.ended_phase, fun j => Rst.ended_others, hq, fun r hr => ⟨fun other => ?_, fun used own => ?_⟩⟩
  · exact (rings r hr).trans (if_neg fun owned => other.elim owned.1 (· owned.2))
  · exact (rings r hr).trans (if_pos ⟨used, own⟩)

end Machine
end Sys2Proof
end

section
/-! PROOF. How a job's completion and the last job of a function in reset end (spec/15_host_and_mailboxes.md R361, R366 to R368). -/

namespace Sys2Proof
namespace Machine

open Bits Ops JobOps

variable {s : State} {id m : Nat} {j : Job}

namespace Finish

/-- A ring with one more job done. -/
def counted (x : Ring) : Ring := { x with done := (x.done + 1) % 2 ^ 32 }

/-- The state that the job has left: record written in memory `u`, vector sent, ring and function counted. -/
def departed (s : State) (id : Nat) (j : Job) (u : Mem) (b : Sparse Budget) (d : Sparse (Placement × Nat)) : State := { s with
  mem := u
  host := putRing (sendVec s.host j.fn (ringAt s.host j.ring).vector) j.ring (counted (ringAt s.host j.ring))
  sched := { s.sched with
    jobs := s.sched.jobs.filter (·.id != id)
    ready := s.sched.ready.filter (·.1 != id)
    budgets := b
    blitzDone := d
    dones := if j.status = 0 then Sparse.upd s.sched.dones j.fn 0 (satInc top64 · 1) else s.sched.dones
    fails := if j.status = 0 then s.sched.fails else Sparse.upd s.sched.fails j.fn 0 (satInc top64 · 1) } }

theorem complete_departed (clean : memClean s) (found : find s.sched id = some j) (plain : JDesc.numeric j.desc = 0)
    (asked : JDesc.completion j.desc ≠ 0) (page : JDesc.completion j.desc % 4096 + 32 ≤ 4096)
    (mapped : xlat s.host j.fn (JDesc.completion j.desc) true = some m) :
    ∃ u b d, complete s id = Starting.startReady (resetsDone (drained (departed s id j u b d) j.ring j.fn)) ∧
      ∀ a, byteOf (departed s id j u b d) a = if m ≤ a ∧ a < m + 32 then (record s j).getD (a - m) 0 else byteOf s a := by
  obtain ⟨t, runs, -, bytes, sched, same⟩ := complete_runs s id j clean found plain asked page mapped
  have is : t = departed s id j t.mem t.sched.budgets t.sched.blitzDone := by
    rw [sendVec_putRing] at same
    exact same.trans (by rw [sched]; rfl)
  exact ⟨_, _, _, is ▸ runs, is ▸ bytes⟩

variable {u : Mem} {b : Sparse Budget} {d : Sparse (Placement × Nat)}

theorem ringAt_sendVec (h : HostIf) (f v q : Nat) : ringAt (sendVec h f v) q = ringAt h q := by
  rw [sendVec_frame]
  rfl

theorem departed_ring (q : Nat) :
    ringAt (departed s id j u b d).host q = if q = j.ring then counted (ringAt s.host q) else ringAt s.host q := by
  refine (ringAt_putRing _ _ _ _).trans ?_
  split
  · next own => rw [own]
  · exact ringAt_sendVec ..

theorem departed_resetting : (departed s id j u b d).host.resetting = s.host.resetting := by
  show (sendVec _ _ _).resetting = _
  rw [sendVec_frame]

theorem mem_departed {k : Job} : k ∈ (departed s id j u b d).sched.jobs ↔ k ∈ s.sched.jobs ∧ k.id ≠ id := by
  simp [departed]

/-- With no other job waiting, nothing starts. -/
theorem startReady_departed (none : ∀ k ∈ s.sched.jobs, k.id ≠ id → k.phase ≠ .waiting) {t : State}
    (jobs : t.sched.jobs = (departed s id j u b d).sched.jobs) :
    ∃ q, Starting.startReady t = { t with sched := { t.sched with ready := t.sched.ready ++ q } } := by
  rw [startReady_idle]
  · exact refreshReady_eq t
  · intro k hk
    rw [jobs, mem_departed] at hk
    exact none k hk.1 hk.2

/-- The job's ring after its completion outside a reset: a DRAINING ring without another job is STOPPED. -/
def settledRing (s : State) (id : Nat) (j : Job) : Ring := { ringAt s.host j.ring with
  done := ((ringAt s.host j.ring).done + 1) % 2 ^ 32
  state := if (ringAt s.host j.ring).state = 4 ∧ ∀ k ∈ s.sched.jobs, k.id ≠ id → k.ring ≠ j.ring then 2
           else (ringAt s.host j.ring).state }

theorem drained_departed (free : s.host.resetting = []) : drained (departed s id j u b d) j.ring j.fn = { departed s id j u b d with
    host := putRing (sendVec s.host j.fn (ringAt s.host j.ring).vector) j.ring (settledRing s id j) } := by
  have ring : ringAt (departed s id j u b d).host j.ring = counted (ringAt s.host j.ring) := (departed_ring _).trans (if_pos rfl)
  have last : ((!(departed s id j u b d).sched.jobs.any (·.ring == j.ring)) = true) ↔
      ∀ k ∈ s.sched.jobs, k.id ≠ id → k.ring ≠ j.ring := by
    rw [Bool.not_eq_true', List.any_eq_false]
    exact ⟨fun h k hk other => by simpa using h k (mem_departed.2 ⟨hk, other⟩), fun h k hk => by simpa using h k (mem_departed.1 hk).1 (mem_departed.1 hk).2⟩
  have open' : (!(departed s id j u b d).host.resetting.contains j.fn) = true := by rw [departed_resetting, free]; rfl
  rw [drained, ring]
  by_cases drains : (ringAt s.host j.ring).state = 4 ∧ ∀ k ∈ s.sched.jobs, k.id ≠ id → k.ring ≠ j.ring
  · rw [if_pos ⟨drains.1, last.2 drains.2, open'⟩, settledRing, if_pos drains]
    show (departed s id j u b d).setHost (putRing (putRing _ _ _) _ _) = _
    rw [putRing, putRing, Sparse.put_put]
    rfl
  · rw [if_neg fun h => drains ⟨h.1, last.1 h.2.1⟩, settledRing, if_neg drains]
    rfl

/-- While the job's function is in reset its ring waits for the end of the reset. -/
theorem drained_resetting (own : s.host.resetting = [j.fn]) : drained (departed s id j u b d) j.ring j.fn = departed s id j u b d :=
  if_neg fun h => by simpa [departed_resetting, own] using h.2.2

end Finish

/-- Settles O24: complete_departed, with the ring settled and nothing else to start. -/
theorem jobCompletionReports : Obligations.JobCompletionReports := by
  intro s id m j found may on clean calm free idle plain some page mapped
  obtain ⟨u, b, d, runs, bytes⟩ := Finish.complete_departed clean found plain some page mapped
  have step : exec (.jobCompletion id) s = .next (Finish.complete s id) := by
    show execJobCompletion id s = _
    rw [execJobCompletion, found]
    exact if_pos (by rw [may, on]; rfl)
  have settled := Finish.drained_departed (id := id) (j := j) (u := u) (b := b) (d := d) free
  obtain ⟨q, start⟩ := Finish.startReady_departed (j := j) (u := u) (b := b) (d := d) idle
    (t := Finish.drained (Finish.departed s id j u b d) j.ring j.fn) (by rw [settled])
  have noReset : (Finish.drained (Finish.departed s id j u b d) j.ring j.fn).host.resetting = [] := by
    rw [settled]
    exact (Finish.departed_resetting (id := id) (j := j) (u := u) (b := b) (d := d)).trans free
  rw [step, runs, Finish.resetsDone_none _ (by rw [settled]; exact calm) noReset, start, settled]
  refine ⟨_, rfl, bytes, fun q => ?_, rfl⟩
  refine (ringAt_putRing _ _ _ _).trans ?_
  split
  · next own => rw [own]; rfl
  · exact Finish.ringAt_sendVec ..

/-- Settles O25: complete_departed, and resetsDone_last, since no job of the function remains. -/
theorem functionResetEndsWithItsLastJob : Obligations.FunctionResetEndsWithItsLastJob := by
  intro s id m j found ending still on clean calm own small others plain some page mapped
  obtain ⟨u, b, d, runs, bytes⟩ := Finish.complete_departed clean found plain some page mapped
  have step : exec (.functionResetJobEnd id) s = .next (Finish.complete s id) := by
    show execFunctionResetJobEnd id s = _
    rw [execFunctionResetJobEnd, found]
    exact if_pos (by simp [own, ending, still, on])
  have last : (Finish.departed s id j u b d).sched.jobs.any (·.fn == j.fn) = false := by
    rw [List.any_eq_false]
    intro k hk
    obtain ⟨hk, other⟩ := Finish.mem_departed.1 hk
    simpa using (others k hk other).2
  have ended := Finish.resetsDone_last (s := Finish.departed s id j u b d) calm (Finish.departed_resetting.trans own) (by omega) last
  obtain ⟨frame, rings⟩ := Bar.resetRings_spec (Finish.departed s id j u b d).host j.fn
  generalize Bar.resetRings (Finish.departed s id j u b d).host j.fn = h at ended frame rings
  obtain ⟨q, start⟩ := Finish.startReady_departed (j := j) (u := u) (b := b) (d := d) (fun k hk other => (others k hk other).1)
    (t := (Finish.departed s id j u b d).setHost { h with resetting := [] }) rfl
  rw [step, runs, Finish.drained_resetting own, ended, start]
  refine ⟨_, rfl, rfl, bytes, fun q small => ?_, ?_⟩
  · have ring := rings q small
    rw [Finish.departed_ring] at ring
    exact ring
  · rw [frame]
    rfl

end Machine
end Sys2Proof
end

section
/-! PROOF. The scheduler: budget periods, the deadline of a blitz job and admission (spec/16_scheduling_and_budgets.md). -/

namespace Sys2Proof
namespace Machine

open Bits Ops JobOps

variable {s : State}

/-! ### Budget periods -/

/-- Entries put one after another at distinct keys: each is found at its key, and the other keys keep their values. -/
theorem getD_putEach {α : Type} (g : Nat → α) (d : α) (k : Nat) : ∀ (l : List Nat) (m : Sparse α), l.Nodup →
    Sparse.getD (l.foldl (fun m k => Sparse.put m k (g k)) m) k d = if k ∈ l then g k else Sparse.getD m k d
  | [], m, _ => rfl
  | a :: l, m, distinct => by
    rw [List.foldl_cons, getD_putEach g d k l _ distinct.of_cons, Sparse.getD_put]
    have once : a ∉ l := (List.nodup_cons.1 distinct).1
    by_cases here : k = a
    · rw [here, if_neg once, if_pos rfl, if_pos List.mem_cons_self]
    · simp only [List.mem_cons, here, false_or, if_false]

namespace Sch

/-- The keys of the budgets that a period ends: the classes of R392, then the throttled stacks' shares of R313. -/
def periodKeys : List Nat := List.range Config.budgetClasses ++ (List.range 8).map (16 + ·)

theorem periodKeys_nodup : periodKeys.Nodup := by decide

theorem mem_periodKeys {k : Nat} : k ∈ periodKeys ↔ k < 11 ∨ (16 ≤ k ∧ k < 24) := by
  rw [periodKeys, List.mem_append, List.mem_range, List.mem_map]
  refine or_congr Iff.rfl ⟨?_, fun h => ⟨k - 16, List.mem_range.2 (by omega), by omega⟩⟩
  rintro ⟨n, hn, rfl⟩
  have := List.mem_range.1 hn
  omega

theorem endPeriod_eq (b : Budget) : endPeriod b = { b with
    usedTxn := min 0xFFFFFFFF b.curTxn
    usedNj := min 0xFFFFFFFF (b.curE / 100000)
    curTxn := 0
    curE := 0
    limTxn := b.newTxn
    limNj := b.newNj
    defTxn := if b.limTxn = 0xFFFFFFFF then 0 else b.curTxn - (b.limTxn - b.defTxn)
    defE := if b.limNj = 0xFFFFFFFF then 0 else b.curE - (b.limNj * 100000 - b.defE)
    stalled := false
    stalls := if b.stalled then min (2 ^ 64 - 1) (b.stalls + 1) else b.stalls } := rfl

/-- Every budget after a period, from the budgets `c` with refresh charged. -/
theorem budgetAt_period {c : Sched} {b : Sparse Budget} {k : Nat}
    (ended : b = periodKeys.foldl (fun m k => Sparse.put m k (endPeriod (budgetAt c k))) c.budgets) (counted : k ∈ periodKeys) :
    budgetAt { c with budgets := b } k = endPeriod (budgetAt c k) := by
  have put := getD_putEach (fun k => endPeriod (budgetAt c k)) (budget0 k) k periodKeys c.budgets periodKeys_nodup
  rw [if_pos counted, ← ended] at put
  exact put

end Sch

/-- Settles O26: each budget of the period's keys ends by endPeriod, class 5 charged with refresh first. -/
theorem budgetPeriodEndsEveryClass : Obligations.BudgetPeriodEndsEveryClass := by
  intro s
  obtain ⟨n, hn⟩ : ∃ n, n = refreshTxn s.mem := ⟨_, rfl⟩
  obtain ⟨c, hc⟩ : ∃ c, c = charge s.sched 5 n 0 := ⟨_, rfl⟩
  obtain ⟨b, ended⟩ : ∃ b, b = Sch.periodKeys.foldl (fun m k => Sparse.put m k (Sch.endPeriod (budgetAt c k))) c.budgets := ⟨_, rfl⟩
  have runs : exec .budgetPeriod s = .next (s.setSched { c with budgets := b }) := by
    show execBudgetPeriod s = _
    unfold execBudgetPeriod
    rw [← hn, ← hc, ended]
    rfl
  have frame : c = { s.sched with budgets := c.budgets } := hc ▸ charge_eq s.sched 5 n 0
  refine ⟨_, runs, ?_, fun k counted => (Sch.budgetAt_period ended (Sch.mem_periodKeys.2 counted)).trans ?_⟩
  · rw [frame]
    rfl
  · rw [Sch.endPeriod_eq, hc, budgetAt_charge, ← hn]
    generalize 150000 * n = m
    by_cases refresh : k = 5
    · simp only [refresh, if_true, Nat.add_zero]
    · simp only [refresh, if_false, Nat.add_zero]

/-! ### The deadline of a blitz job -/

theorem exec_blitzDeadlineExpiry {t id d : Nat} {x : Job} (found : find s.sched id = some x) (limit : x.deadline = some d)
    (unexpired : x.expired = false) (reached : d ≤ max s.now t) :
    exec (.blitzDeadlineExpiry t id) s = .next { s with now := max s.now t, sched := put s.sched { x with expired := true } } := by
  have found' : find (tick s t).sched id = some x := found
  have due : (decide (d ≤ (tick s t).now) && !x.expired) = true := by
    rw [unexpired, Bool.and_eq_true]
    exact ⟨decide_eq_true reached, rfl⟩
  show execBlitzDeadlineExpiry t id s = _
  unfold execBlitzDeadlineExpiry
  dsimp only
  rw [found']
  dsimp only
  rw [limit]
  exact if_pos due

/-- Settles O27: the job goes on, expired, which alone moves its class and rank. -/
theorem blitzExpiryRunsAsUrgent : Obligations.BlitzExpiryRunsAsUrgent := by
  unfold Obligations.BlitzExpiryRunsAsUrgent
  exact fun _ _ _ _ _ found limit unexpired reached => ⟨exec_blitzDeadlineExpiry found limit unexpired reached, rfl, rfl⟩

/-! ### Admission -/

/-- The filter that one element of a list without duplicates passes. -/
theorem filter_eq_singleton {l : List Nat} {p : Nat → Bool} {r : Nat} (distinct : l.Nodup) (mem : r ∈ l)
    (only : ∀ q ∈ l, p q = true ↔ q = r) : l.filter p = [r] := by
  have same : l.filter p = l.filter (· == r) :=
    List.filter_congr fun q hq => by rw [Bool.eq_iff_iff, only q hq, beq_iff_eq]
  rw [same, List.filter_beq, List.count_eq_one_of_mem distinct mem]
  rfl

namespace Sch

/-- No job is a candidate to resume where none is adjourned. -/
theorem adjournedOf_nil (fresh : ∀ y ∈ s.sched.jobs, y.phase ≠ .adjourned) (k : Nat) : adjournedOf s k = [] := by
  rw [adjournedOf, List.filterMap_eq_nil_iff]
  intro n _
  rw [List.find?_eq_none]
  intro y hy
  simp [fresh y hy]

section
variable {r : Nat} (small : r < 64) (enabled : (ringAt s.host r).state = 3)
  (only : ∀ q < 64, q ≠ r → (ringAt s.host q).state ≠ 3)
include small enabled only

theorem enabledRings_single (k : Nat) :
    ((List.range 64).filter fun q => let x := ringAt s.host q; x.state == 3 && x.cls == k) = if k = (ringAt s.host r).cls then [r] else [] := by
  split
  · next own =>
    refine filter_eq_singleton List.nodup_range (List.mem_range.2 small) fun q hq => ⟨fun h => ?_, fun h => ?_⟩
    · by_contra other
      have on : (ringAt s.host q).state = 3 := eq_of_beq ((Bool.and_eq_true ..).mp h).1
      exact only q (List.mem_range.1 hq) other on
    · simp [h, enabled, own]
  · next foreign =>
    rw [List.filter_eq_nil_iff]
    intro q hq
    by_cases own : q = r
    · simp [own, Ne.symm foreign]
    · simp [only q (List.mem_range.1 hq) own]

/-- The one ENABLED ring is the one candidate of its class, wherever the round-robin stands. -/
theorem ringsOf_single (k : Nat) : ringsOf s k = if k = (ringAt s.host r).cls then [r] else [] := by
  have rings := enabledRings_single small enabled only k
  unfold ringsOf
  rw [rings]
  dsimp only
  cases Sparse.get? s.sched.rr k with
  | none => rfl
  | some l =>
    by_cases own : k = (ringAt s.host r).cls
    · by_cases past : l < r
      · simp [own, past]
      · simp [own, past, Nat.le_of_not_lt past]
    · simp [own]

/-- The decision of a scheduler whose one candidate is that ring. -/
theorem decide1_single (fresh : ∀ y ∈ s.sched.jobs, y.phase ≠ .adjourned) (cls : (ringAt s.host r).cls < 4) :
    decide1 s = tryRing s r := by
  have each : ∀ k, (match (adjournedOf s k).findSome? (tryJob s) with
      | some t => some t
      | none => (ringsOf s k).findSome? (tryRing s)) = if k = (ringAt s.host r).cls then tryRing s r else Option.none := by
    intro k
    rw [adjournedOf_nil fresh, ringsOf_single small enabled only, List.findSome?_nil]
    by_cases own : k = (ringAt s.host r).cls
    · simp only [own, if_true, List.findSome?_cons, List.findSome?_nil]
      cases tryRing s r <;> rfl
    · simp only [own, if_false, List.findSome?_nil]
  have all := congrArg (fun g => (List.range 4).findSome? g) (funext each)
  refine Eq.trans all ?_
  generalize (ringAt s.host r).cls = c at cls ⊢
  cases tryRing s r with
  | none => simp
  | some t =>
    have : c = 0 ∨ c = 1 ∨ c = 2 ∨ c = 3 := by omega
    obtain rfl | rfl | rfl | rfl := this <;> rfl

end

/-- The deadline that an admitted job gets: a blitz job's from its doorbell, none else. -/
def deadlineFor (s : State) (x : Ring) (j : Job) (p : Placement) : Option Nat :=
  if x.cls = 0 then some (deadlineOf s j (bellOf x x.head s.now) p) else j.deadline

variable {s1 s2 : State} {r k : Nat} {x : Ring} {desc : Bytes} {j j2 : Job} {p : Placement} {c : Sched}

/-- The head entry of a ring that loads and finds a placement is admitted. -/
theorem tryRing_admits (hx : ringAt s.host r = x) (hk : (if x.cls = 0 then budgetClass s.host r 0 else x.cls + 1) = k)
    (enabled : x.state = 3) (entry : x.head ≠ x.tail) (room : s.sched.jobs.length < Config.maxJobs)
    (blitz : x.cls = 0 → ∀ y ∈ s.sched.jobs, y.ring ≠ r)
    (read : readLog s x.owner k (x.base + 128 * (x.head % 2 ^ x.log2)) 128 = (.ok desc, s1))
    (load : Load.run s1 k (via s1 (newJob s1.sched.nextId r x.head x desc) 0x10000) x.resv (newJob s1.sched.nextId r x.head x desc) = (.ok j, s2))
    (fits : (if j.espalier then Starts.reduced s2.bu else !Placing.shapeFits s2 (JDesc.gr desc) (JDesc.gc desc)) = false)
    (found : Placing.locate s2 x.cls j.espalier (JDesc.gr desc) (JDesc.gc desc) = some p)
    (placed : Placing.place s2.sched x.cls j p = some (c, j2)) :
    tryRing s r = some (Starting.startReady (leaveRing (s2.setSched { c with jobs := c.jobs ++ [{ j2 with deadline := deadlineFor s2 x j2 p }] }) r x)) := by
  have candidate : ¬(x.state ≠ 3 ∨ x.head = x.tail ∨ Config.maxJobs ≤ s.sched.jobs.length ∨
      (x.cls = 0 ∧ s.sched.jobs.any (·.ring == r))) := by
    rintro (h | h | h | ⟨zero, h⟩)
    · exact h enabled
    · exact entry h
    · omega
    · obtain ⟨y, hy, on⟩ := List.any_eq_true.1 h
      exact blitz zero y hy (by simpa using on)
  unfold tryRing
  dsimp only
  rw [hx, hk, if_neg candidate, read]
  dsimp only
  rw [load]
  dsimp only
  rw [fits, if_neg Bool.false_ne_true, found]
  dsimp only
  rw [placed, deadlineFor]
  by_cases zero : x.cls = 0
  · simp only [zero, if_true, Option.map_some]
  · simp only [zero, if_false, Option.map_some]

/-- The ring that an entry has left. -/
theorem leaveRing_ring (s : State) (r : Nat) (x : Ring) :
    ringAt (leaveRing s r x).host r = { x with head := (x.head + 1) % 2 ^ 32, bells := (ringAt (leaveRing s r x).host r).bells } := by
  have ring : ∃ b, ringAt (leaveRing s r x).host r = { x with head := (x.head + 1) % 2 ^ 32, bells := b } :=
    ⟨_, (ringAt_putRing ..).trans (if_pos rfl)⟩
  obtain ⟨b, ring⟩ := ring
  rw [ring]

end Sch

/-- Settles O28: decide1_single leaves the head entry as the one candidate, and tryRing_admits admits it. -/
theorem admissionTakesTheHeadEntry : Obligations.AdmissionTakesTheHeadEntry := by
  intro s s1 s2 r desc j j2 p c x k on fresh small enabled cls only entry room blitz read load fits found placed
  refine ⟨Sch.deadlineFor s2 x j2 p, fun other => if_neg other, fun zero => by rw [Sch.deadlineFor, if_pos zero]; rfl, ?_, ?_,
    fun q other => (ringAt_putRing ..).trans (if_neg other), rfl, rfl, (Sparse.get_put ..).trans (if_pos rfl), ?_⟩
  · show execAdmissionDecision s = _
    rw [execAdmissionDecision, on, if_neg Bool.false_ne_true, Sch.decide1_single small enabled only fresh cls,
      Sch.tryRing_admits rfl rfl enabled entry room blitz read load fits found placed]
  · exact Sch.leaveRing_ring ..
  · exact (Sparse.getD_put ..).trans (if_pos rfl)

end Machine
end Sys2Proof
end

section
/-! PROOF. JOB_REPLAY resumes a job from its own context (spec/16_scheduling_and_budgets.md R377 to R380,
spec/18_reliability_and_recovery.md R421). -/

namespace Sys2Proof
namespace Machine

open Bits Ops JobOps

variable {s u w : State} {id : Nat} {x y j : Job}

/-! ### Plot memory -/

/-- Two schedulers that differ in plot memory and its errors alone. -/
def PlotOnly (c d : Sched) : Prop := ∃ p e, d = { c with plot := p, plotErrs := e }

theorem PlotOnly.refl (c : Sched) : PlotOnly c c := ⟨c.plot, c.plotErrs, rfl⟩
theorem PlotOnly.trans {a b c : Sched} : PlotOnly a b → PlotOnly b c → PlotOnly a c := by
  rintro ⟨-, -, rfl⟩ ⟨p, e, rfl⟩
  exact ⟨p, e, rfl⟩
theorem PlotOnly.foldl {α : Type} {g : Sched → α → Sched} (each : ∀ c a, PlotOnly c (g c a)) :
    ∀ (l : List α) (c : Sched), PlotOnly c (l.foldl g c)
  | [], c => .refl c
  | a :: l, c => (each c a).trans (PlotOnly.foldl each l (g c a))
theorem PlotOnly.put {c d : Sched} (h : PlotOnly c d) (j : Job) : PlotOnly (put c j) (put d j) := by
  obtain ⟨p, e, rfl⟩ := h
  exact ⟨p, e, rfl⟩

theorem plotWrite_plotOnly (c : Sched) (j : Job) (p o : Nat) (b : Bytes) : PlotOnly c (plotWrite c j p o b) := ⟨_, _, rfl⟩
theorem zeroWindows_plotOnly (c : Sched) (j : Job) : PlotOnly c (zeroWindows c j) :=
  PlotOnly.foldl (fun _ _ => ⟨_, _, rfl⟩) j.wins c
theorem wcFresh_plotOnly (c : Sched) (j : Job) (v : Nat) : PlotOnly c (wcFresh c j v) := by
  unfold wcFresh
  split
  · exact .refl c
  · exact (plotWrite_plotOnly ..).trans (PlotOnly.foldl (fun _ _ => plotWrite_plotOnly ..) _ _)

/-! ### Resuming -/

namespace Starting

/-- The context is read without writing. -/
theorem readCtx_tidy (v : Via) (a : Nat) : Tidy (readCtx v a) :=
  Tidy.bind (MM.read_tidy ..) fun _ => Tidy.bind (MM.read_tidy ..) fun _ => Tidy.bind (MM.read_tidy ..) fun _ =>
    Tidy.bind (MM.read_tidy ..) fun _ => Tidy.bind (MM.read_tidy ..) fun _ => Tidy.pure _

/-- A job without a loop block reads no root. -/
theorem root_none (found : find s.sched id = some j) (plain : j.loop = none) : root s id = s := by
  unfold root
  rw [found]
  dsimp only
  rw [plain]

/-- A job resumed from a context that reads back well, without events and loop block, stands restored in the job list. -/
theorem resume_restored {c : Ctx} (clean : memClean u) (found : find u.sched id = some y)
    (reads : ((readCtx { via u y 0x10000 with cls := 10 } (JDesc.context y.desc)).run.run ⟨u.mem, 0, [], [], []⟩).1 = .ok c)
    (ok : ctxOk c = true) (noReserved : ctxReserved c = false) (plain : y.loop = none) (silent : JDesc.events y.desc = 0) :
    find (resume u id).sched id = some (withTables (restored y c)) ∧ (resume u id).free = u.free := by
  obtain ⟨_, t, run, rfl, clean', -, -, same⟩ := run_clean clean 10 (readCtx_tidy _ _)
  generalize hj : withTables (restored y c) = j
  have own : j.id = id := by rw [← hj]; exact find_id (x := y) found
  have plain' : j.loop = none := by rw [← hj]; exact plain
  have silent' : JDesc.events j.desc = 0 := by rw [← hj]; exact silent
  unfold resume
  rw [found]
  dsimp only
  rw [run, reads]
  dsimp only
  rw [ok, if_neg (by decide), noReserved, if_neg (by decide), hj, if_pos silent']
  generalize (if keepsValues j = true then _ else 0) = value
  obtain ⟨p, e, fresh⟩ := ((zeroWindows_plotOnly t.sched j).trans (wcFresh_plotOnly _ j value)).put j
  have stands : find (put t.sched j) id = some j := find_put (by rw [same]; exact found) own
  generalize hw : t.setSched (put (wcFresh (zeroWindows t.sched j) j value) j) = w
  have cleanW : memClean w := by rw [← hw]; exact clean'
  have foundW : find w.sched id = some j := by rw [← hw, fresh]; exact stands
  obtain ⟨_, v, run', -, -, -, -, same'⟩ := run_clean cleanW 10 (Tidy.pure ())
  have foundV : find v.sched id = some j := by rw [same']; exact foundW
  rw [run']
  dsimp only
  rw [root_none foundV plain']
  exact ⟨foundV, by rw [same', ← hw]; show t.free = _; rw [same]⟩

end Starting

/-! ### JOB_REPLAY -/

theorem exec_jobReplay (found : find s.sched id = some x) (running : x.phase = .running) (due : x.replay = true)
    (drained : Sch.mayAdjourn x = true) (on : s.bu.stopped = false) :
    exec (.jobReplay id) s = .next (refreshReady (Starting.resume (Starting.writeContext s id) id)) := by
  show execJobReplay id s = _
  rw [execJobReplay, found]
  exact if_pos (by rw [running, due, drained, on]; rfl)

/-- Settles O30: writeContext leaves u, and resume_restored takes the job up again from it. -/
theorem replayResumesFromItsOwnContext : Obligations.ReplayResumesFromItsOwnContext := by
  intro s id x found running due drained on clean
  obtain ⟨u, y, written, cleanU, foundY, phase, adjourns, replay, place, wins, cells, -, others, -, same⟩ :=
    Starting.writeContext_clean s id x clean found
  have runs := exec_jobReplay found running due drained on
  rw [written] at runs ⊢
  refine ⟨y, runs, foundY, phase, adjourns, replay, place, wins, cells, others, same, ?_⟩
  intro c reads ok noReserved plain silent
  obtain ⟨resumed, free⟩ := Starting.resume_restored cleanU foundY reads ok noReserved plain silent
  obtain ⟨q, ready⟩ := Finish.refreshReady_eq (Starting.resume u id)
  refine ⟨_, runs, ?_, rfl, place, ?_⟩
  · rw [ready]
    exact resumed
  · rw [ready]
    exact free.trans (by rw [same])

end Machine
end Sys2Proof
end

section
/-! PROOF. Write combining and the scrub (spec/13_stacked_memory.md), the step and the reset state (spec/00_scope.md). -/

namespace Sys2Proof
namespace Machine

open Bits Ops JobOps

variable {s : State}

/-! ### Write combining -/

theorem exec_wcWriteMerge {src a : Nat} {b : Bytes} {t : State} (up : MemRows.up s = true) (inside : a + b.length ≤ Config.memTop)
    (write : writeMem s (MemRows.writer s src).1 (MemRows.writer s src).2 a b = (t, [])) :
    exec (.wcWriteMerge src a b) s = .next t := by
  have serves : ¬(decide (Config.memTop < a + b.length) || !MemRows.up s) = true := by
    rw [up]
    simpa using inside
  show execWcWriteMerge src a b s = _
  unfold execWcWriteMerge
  rw [if_neg serves]
  dsimp only
  rw [write]
  rfl

/-- The entries that an idle flush of a line takes at time `now`. -/
def idleOn (line now : Nat) (e : WcEntry) : Bool := e.line == line && decide (e.time + MemRows.idleNs ≤ now)

theorem exec_wcIdleFlush {n line : Nat} {t : State}
    (flush : flushWhere (tick s n) (idleOn line (tick s n).now) = (t, [])) : exec (.wcIdleFlush n line) s = .next t := by
  show execWcIdleFlush n line s = _
  unfold execWcIdleFlush
  show Host.Outcome.next (settle (flushWhere (tick s n) (idleOn line (tick s n).now)).1 (flushWhere (tick s n) (idleOn line (tick s n).now)).2) = _
  rw [flush]
  rfl

theorem idleOn_other {line now : Nat} {e : WcEntry} (busy : idleOn line now e = false) (on : e.line = line) : now < e.time + 214 := by
  rw [idleOn, on, beq_self_eq_true, Bool.true_and] at busy
  have late := of_decide_eq_false busy
  unfold MemRows.idleNs at late
  omega

/-! ### The scrub -/

namespace MemRows

theorem markScrub_self (m : Mem) (l : Nat) : markScrub m m l = m := by
  unfold markScrub
  split
  · next absent present => rw [absent] at present; cases present
  · rfl

/-- Lines without error patterns read as they are: the scrub changes nothing. -/
theorem scrubFrom_clean (clean : memClean s) : ∀ l : List Nat, scrubFrom s l = s
  | [] => rfl
  | c :: l => by
    rw [scrubFrom, Memory.readChannel_clean clean.1]
    dsimp only
    rw [markScrub_self]
    exact scrubFrom_clean clean l

theorem advance_eq (m : Mem) : advance m = { m with
    codeword := if m.codeword < 63 then m.codeword + 1 else 0
    slot := if m.codeword < 63 then m.slot else if m.slot + 1 < 466033 then m.slot + 1 else 0
    passes := if m.codeword < 63 then m.passes else if m.slot + 1 < 466033 then m.passes else m.passes + 1 } := by
  have slots : Config.slotsPerChannel = 466033 := rfl
  unfold advance
  rw [slots]
  by_cases within : m.codeword < 63
  · simp only [within, if_true]
  · by_cases next : m.slot + 1 < 466033
    · simp only [within, next, if_false, if_true]
    · simp only [within, next, if_false]

end MemRows

theorem exec_scrubRead (clean : memClean s) (up : MemRows.up s = true) : exec .scrubRead s =
    .next ((s.setMem (MemRows.advance s.mem)).setSched (charge s.sched 6 Config.channels 0)) := by
  show execScrubRead s = _
  unfold execScrubRead
  rw [up, if_neg (by decide)]
  dsimp only
  rw [MemRows.scrubFrom_clean clean]

/-- Settles O32: each of the three goes through the law of the write, the flush or the scrub in clean memory. -/
theorem writeCombiningKeepsWhatReadsSee : Obligations.WriteCombiningKeepsWhatReadsSee := by
  intro s clean
  refine ⟨fun src a b up inside => ?_, fun n line => ?_, fun up => ?_⟩
  · obtain ⟨t, write, cleanT, bytes, same⟩ := writeMem_clean clean (MemRows.writer s src).1 (MemRows.writer s src).2 a b
    exact ⟨t, exec_wcWriteMerge up inside write, cleanT, bytes, same⟩
  · obtain ⟨t, flush, cleanT, bytes, kept, same⟩ := flush_clean (s := tick s n) clean (idleOn line (tick s n).now)
    refine ⟨t, exec_wcIdleFlush flush, cleanT, bytes, fun e he on => ?_, same⟩
    have now : t.now = (tick s n).now := by rw [same]
    rw [now]
    exact idleOn_other (kept e he) on
  · rw [exec_scrubRead clean up, MemRows.advance_eq]
    rfl

/-! ### A step -/

/-- Settles O57: by the two cases of the queue. -/
theorem stepRunsTheFrontCommand : Obligations.StepRunsTheFrontCommand := by
  intro c s
  exact ⟨rfl, fun idle => by rw [step, idle]⟩

/-! ### Reset -/

theorem value_reset_jrCtl (r : Nat) : Regs.value State.reset (.jrCtl r) = 0xFF000000 := by
  show 0xFF * 2 ^ 24 + 0 * 2 ^ 20 + 0 * 2 ^ 18 + 0 * 2 ^ 15 + 0 = 0xFF000000
  norm_num

theorem value_reset_memStack (k : Nat) : Regs.value State.reset (.memStack k) = 0 := by
  show wrap 8 0 * 2 ^ 16 + 0 * 4 + 2 * ofBool (([] : List Nat).contains k) + ofBool (([] : List Nat).contains k) = 0
  simp [wrap, ofBool]

theorem value_reset_fabPortViol (p : Nat) : Regs.value State.reset (.fabPortViol p) = 0 := by
  show 0 * 2 ^ 24 + 0 = 0
  norm_num

theorem value_reset_fabPortErr (p : Nat) : Regs.value State.reset (.fabPortErr p) = 0 := by
  show 0 * 2 ^ 40 + 0 * 2 ^ 16 + 0 = 0
  norm_num

theorem value_reset_fabPortStatus (p : Nat) : Regs.value State.reset (.fabPortStatus p) = 0 := by
  show 0 * 2 ^ 16 + (if PortState.disabled = .up then 0 else 0) * 16 + 8 * ofBool false + 0 = 0
  rfl

theorem loadOf_nil (e : Nat) : Regs.loadOf [] e = 0 := by simp [Regs.loadOf]

theorem standing_reset : standing State.reset := ⟨rfl, Memory.wcOk_nil, by decide⟩

/-- Settles O58: the reset state's fields, with the registers whose value is a sum of fields computed above. -/
theorem resetValues : Obligations.ResetValues := by
  refine ⟨rfl, rfl, rfl, rfl, rfl, rfl, rfl, rfl, rfl, fun _ => rfl, rfl, rfl, rfl, rfl, rfl, rfl, rfl, rfl, rfl, rfl, rfl, rfl, rfl, rfl,
    rfl, rfl, rfl, rfl, rfl, rfl, rfl, fun r => ⟨rfl, value_reset_jrCtl r, rfl, rfl, rfl⟩, fun _ => ⟨rfl, rfl, rfl⟩,
    fun p => ⟨rfl, value_reset_fabPortStatus p, value_reset_fabPortViol p, value_reset_fabPortErr p, rfl⟩,
    fun _ => ⟨rfl, rfl, rfl, rfl, rfl⟩, fun k => ⟨rfl, rfl, value_reset_memStack k, rfl, loadOf_nil k, loadOf_nil k⟩, standing_reset⟩

end Machine
end Sys2Proof
end

section
/-! PROOF. Supply, hard brake, control window and temperatures (spec/20_power_thermal_measurement.md). -/

namespace Sys2Proof
namespace Machine

open Bits Ops

variable {s : State}

/-! ### The supply -/

namespace Starts

/-- What the loss of power from s leaves in t, bring-up and the power's phase apart. -/
def Lost (s t : State) : Prop := t.fuses = s.fuses ∧ t.flash = s.flash ∧ t.pending = s.pending ∧
  t.host = { State.resetHost with perstLow := s.host.perstLow } ∧ t.mem = State.resetMem ∧ t.fab = State.resetFabric ∧
  t.sched = State.resetSched ∧ t.codec = State.reset.codec ∧ t.cache = State.reset.cache ∧ t.tm = State.reset.tm ∧
  t.log = ⟨[], s.log.next, 0, 0, []⟩ ∧ t.recov = none ∧ t.free = s.free + 1 ∧ t.ident.level = 0 ∧ t.ident.unlocks = 0 ∧
  t.pwr.brakePin = s.pwr.brakePin ∧ t.pwr.latch = none

/-- Power is lost from a state that differs from s in its clock and its power alone. -/
theorem volatileLost_lost (n : Nat) (p : Power) (pin : p.brakePin = s.pwr.brakePin) :
    Lost s (volatileLost { s with now := n, pwr := p }) := by
  rw [volatileLost_eq]
  exact ⟨rfl, rfl, rfl, rfl, rfl, rfl, rfl, rfl, rfl, rfl, rfl, rfl, rfl, rfl, rfl, pin, rfl⟩

theorem Lost.setBu {t : State} (lost : Lost s t) (b : BringUp) : Lost s (t.setBu b) := lost
theorem Lost.setPwr {t : State} (lost : Lost s t) {p : Power} (pin : p.brakePin = t.pwr.brakePin) (latch : p.latch = t.pwr.latch) :
    Lost s (t.setPwr p) := by
  obtain ⟨fuses, flash, pending, host, mem, fab, sched, codec, cache, tm, log, recov, free, level, unlocks, brake, noLatch⟩ := lost
  exact ⟨fuses, flash, pending, host, mem, fab, sched, codec, cache, tm, log, recov, free, level, unlocks, pin.trans brake, latch.trans noLatch⟩

theorem railsOff_lost (p : Power) (pin : p.brakePin = s.pwr.brakePin) (ph : PowerPhase) : Lost s (railsOff (s.setPwr p) ph) :=
  (volatileLost_lost s.now p pin).setPwr rfl rfl
theorem railsOff_bu (ph : PowerPhase) : (railsOff s ph).bu = State.resetBringUp := by rw [railsOff, volatileLost_eq]; rfl
theorem railsOff_p48v (ph : PowerPhase) : (railsOff s ph).pwr.p48v = s.pwr.p48v := by rw [railsOff, volatileLost_eq]; rfl

/-- With P48V in range a cold start runs HUB_BOOT. -/
theorem coldStart_eq (ok : operating s.pwr.p48v = true) :
    coldStart s = (volatileLost s).setBu { State.resetBringUp with step := 1 } := by
  have ok' : operating (coldState s).pwr.p48v = true := by rw [coldState, volatileLost_eq]; exact ok
  rw [coldStart, startStep_runs ok' (.inl (by decide)), coldState, volatileLost_eq]
  rfl

end Starts

/-- PTP time starts at 0 with the cold start. -/
theorem ptpTime_start {s : State} (ptp : s.ptp = { State.resetPtp with offset := -(s.now : Int), since := s.now }) : ptpTime s = 0 := by
  rw [ptpTime, ptpDrift, ptp]
  show wrap 64 ((s.now : Int) + -(s.now : Int) + 0 * ((s.now : Int) - s.now) / 1000000000) = 0
  rw [Int.add_right_neg, Int.zero_mul]
  rfl

theorem exec_p48vRise {mv : Nat} (off : s.pwr.phase = .off) (high : 38000 ≤ mv) :
    exec (.p48vRise mv) s = .next { s with pwr := { s.pwr with p48v := mv, phase := .softStart } } := if_pos ⟨off, high⟩

theorem exec_p48vOvervoltageClear {mv : Nat} (high : s.pwr.phase = .overvolt) (low : mv < 60000) :
    exec (.p48vOvervoltageClear mv) s = .next { s with pwr := { s.pwr with p48v := mv, phase := .softStart } } := if_pos ⟨low, high⟩

/-- The power once the rails are good. -/
def Starts.goodPower (s : State) (n : Nat) : Power :=
  { s.pwr with phase := .good, inSince := if operating s.pwr.p48v then some (max s.now n) else none }

theorem exec_powerGood (n : Nat) (soft : s.pwr.phase = .softStart) :
    exec (.powerGood n) s = .next (Starts.coldStart { s with now := max s.now n, pwr := Starts.goodPower s n }) := if_pos soft

theorem powerGood_starts {n : Nat} (soft : s.pwr.phase = .softStart) (ok : Starts.operating s.pwr.p48v = true) :
    ∃ t, exec (.powerGood n) s = .next t ∧ Starts.Lost s t ∧ t.now = max s.now n ∧ t.pwr.phase = .good ∧
      t.bu = { State.resetBringUp with step := 1 } ∧ ptpTime t = 0 := by
  have lost := Starts.volatileLost_lost (s := s) (max s.now n) (Starts.goodPower s n) rfl
  have start := Starts.coldStart_eq (s := { s with now := max s.now n, pwr := Starts.goodPower s n }) ok
  refine ⟨_, (exec_powerGood n soft).trans (congrArg Host.Outcome.next start), lost.setBu _, ?_, ?_, rfl, ptpTime_start ?_⟩
  · rw [Starts.volatileLost_eq]; rfl
  · rw [Starts.volatileLost_eq]; rfl
  · rw [Starts.volatileLost_eq]; rfl

theorem p48vUndervoltage_loses {mv : Nat} (low : mv < 36000) :
    ∃ t, exec (.p48vUndervoltage mv) s = .next t ∧ Starts.Lost s t ∧ t.pwr.phase = .off ∧ t.pwr.p48v = mv ∧
      t.pwr.thermTrip = false ∧ t.bu = State.resetBringUp := by
  have lost := Starts.railsOff_lost (s := s) { s.pwr with p48v := mv } rfl .off
  have volts := Starts.railsOff_p48v (s := s.setPwr { s.pwr with p48v := mv }) .off
  have bu := Starts.railsOff_bu (s := s.setPwr { s.pwr with p48v := mv }) .off
  exact ⟨_, if_pos low, lost.setPwr rfl rfl, rfl, volts, rfl, bu⟩

theorem p48vOvervoltage_loses {mv : Nat} (high : 62000 ≤ mv) (untripped : s.pwr.phase ≠ .tripped) :
    ∃ t, exec (.p48vOvervoltage mv) s = .next t ∧ Starts.Lost s t ∧ t.pwr.phase = .overvolt ∧ t.pwr.p48v = mv ∧
      t.bu = State.resetBringUp := by
  have lost := Starts.railsOff_lost (s := s) { s.pwr with p48v := mv } rfl .overvolt
  have volts := Starts.railsOff_p48v (s := s.setPwr { s.pwr with p48v := mv }) .overvolt
  have bu := Starts.railsOff_bu (s := s.setPwr { s.pwr with p48v := mv }) .overvolt
  exact ⟨_, if_pos ⟨high, untripped⟩, lost, rfl, volts, bu⟩

/-- Settles O33: each threshold begins soft-start, the cold start or the loss of power. -/
theorem supplyStages : Obligations.SupplyStages := by
  intro s mv n
  exact ⟨exec_p48vRise, exec_p48vOvervoltageClear, powerGood_starts, p48vUndervoltage_loses, p48vOvervoltage_loses⟩

/-! ### The hard brake -/

theorem runWaiting_nil {t : Nat} (none : s.pwr.waiting = []) : Starts.runWaiting s t = s := by
  unfold Starts.runWaiting
  split
  · rw [none]
    show s.setPwr { s.pwr with waiting := [] } = s
    rw [← none]
    rfl
  · rfl

namespace Pwr

theorem enterBrake_on (c : Nat) (on : s.pwr.brake = true) : enterBrake s c = s := if_pos on
theorem enterBrake_off (c : Nat) (off : s.pwr.brake = false) :
    enterBrake s c = logEvent { s with pwr := { s.pwr with brake := true } } (report 0x0801 c s.pwr.latest.mw) :=
  if_neg (by rw [off]; decide)

/-- Entering the brake leaves a record and lets no store run that did not wait. -/
theorem enterBrake_logs (c t : Nat) (off : s.pwr.brake = false) (none : s.pwr.waiting = []) :
    logs { s with pwr := { s.pwr with brake := true } } (Starts.runWaiting (enterBrake s c) t)
      { status := 0x0801, source := 0x7000, arg0 := c, arg1 := s.pwr.latest.mw } := by
  rw [enterBrake_off c off, runWaiting_nil (by rw [logEvent_pwr]; exact none)]
  exact logEvent_logs _ _

theorem band_iff (mv : Nat) : band mv = true ↔ (36000 ≤ mv ∧ mv < 40000) ∨ (60000 < mv ∧ mv ≤ 62000) := by
  simp [band]

/-- P48V noted without a crossing of a band of R456. -/
theorem noteInput_same {t mv : Nat} (same : band mv = s.pwr.outBand) : noteInput s t mv = s.setPwr { s.pwr with
    p48v := mv
    inSince := if 40000 ≤ mv ∧ mv ≤ 60000 then some (s.pwr.inSince.getD t) else none } := by
  have range : Starts.operating mv = decide (40000 ≤ mv ∧ mv ≤ 60000) := by simp [Starts.operating]
  unfold noteInput
  dsimp only
  rw [same, if_neg (by cases s.pwr.outBand <;> decide), if_neg (by cases s.pwr.outBand <;> decide)]
  simp only [range, decide_eq_true_eq]

/-- The power after one measurement that crosses no band. -/
def sampled (s : State) (n mv curr : Nat) (mw : Word) (rail : List (Half × Word)) : Power := { s.pwr with
  latest := ⟨mv % 65536, curr % 65536, mw.toNat, rail.map fun (v, c) => (v.toNat, c.toNat), ptpTime (tick s n)⟩
  winSum := s.pwr.winSum + mw.toNat
  winCount := s.pwr.winCount + 1
  p48v := mv
  inSince := if 40000 ≤ mv ∧ mv ≤ 60000 then some (s.pwr.inSince.getD n) else none }

/-- The brake after a measurement: over-power, then a low pin, then the end of over-power. -/
def braked (t : State) (high was : Bool) (n : Nat) : State :=
  if high then enterBrake t 2 else if t.pwr.brakePin then enterBrake t 3 else if was then causeEnds t n else t

theorem braked_pin {t : State} (was : Bool) (n : Nat) (pin : t.pwr.brakePin = true) : braked t false was n = enterBrake t 3 := if_pos pin
theorem braked_idle {t : State} (n : Nat) (idle : t.pwr.brakePin = false ∨ t.pwr.brake = true) : braked t false false n = t := by
  cases pin : t.pwr.brakePin with
  | true => exact (braked_pin false n pin).trans (enterBrake_on 3 (idle.resolve_left (by rw [pin]; decide)))
  | false => exact if_neg (show ¬t.pwr.brakePin = true by rw [pin]; decide)

/-- With nothing to brake for and no store waiting, the state stands. -/
theorem runWaiting_braked_idle {t : State} {n : Nat} (idle : t.pwr.brakePin = false ∨ t.pwr.brake = true) (none : t.pwr.waiting = []) :
    Starts.runWaiting (braked t false false n) n = t := by
  rw [braked_idle n idle, runWaiting_nil none]

theorem exec_powerSample (n curr : Nat) {mv : Nat} (mw : Word) (rail : List (Half × Word)) (good : s.pwr.phase = .good)
    (same : band mv = s.pwr.outBand) : exec (.powerSample n mv curr mw rail) s = .next (Starts.runWaiting (braked { s with
      now := max s.now n
      pwr := { sampled s n mv curr mw rail with brakeOver := decide (fused s * 1150 < mw.toNat) } }
      (decide (fused s * 1150 < mw.toNat)) s.pwr.brakeOver n) n) := by
  have on : ¬(tick s n).pwr.phase ≠ .good := fun off => off good
  have note := fun (u : State) (outBand : u.pwr.outBand = s.pwr.outBand) => noteInput_same (s := u) (t := n) (same.trans outBand.symm)
  show execPowerSample n mv curr mw rail s = _
  unfold execPowerSample
  dsimp only
  rw [if_neg on, note _ (by rfl)]
  rfl

end Pwr

theorem exec_pwrBrakeNFall (n : Nat) (good : s.pwr.phase = .good) : exec (.pwrBrakeNFall n) s =
    .next (Pwr.enterBrake { s with now := max s.now n, pwr := { s.pwr with brakePin := true } } 3) := if_pos good

theorem exec_pwrBrakeNRise (n : Nat) (none : s.pwr.waiting = []) : exec (.pwrBrakeNRise n) s = .next { s with
    now := max s.now n
    pwr := { s.pwr with brakePin := false, brakeEnd := if s.pwr.brake ∧ ¬ s.pwr.brakeOver then n else s.pwr.brakeEnd } } := by
  let t : State := { s with now := max s.now n, pwr := { s.pwr with brakePin := false } }
  have ends : (if t.pwr.brake then Pwr.causeEnds t n else t) =
      { t with pwr := { t.pwr with brakeEnd := if s.pwr.brake ∧ ¬ s.pwr.brakeOver then n else s.pwr.brakeEnd } } := by
    cases on : s.pwr.brake with
    | false => simp [t, on]
    | true => cases over' : s.pwr.brakeOver <;> simp [t, on, over', Pwr.causeEnds, State.setPwr]
  show Host.Outcome.next (Starts.runWaiting (if t.pwr.brake then Pwr.causeEnds t n else t) n) = _
  exact congrArg Host.Outcome.next ((congrArg (Starts.runWaiting · n) ends).trans (runWaiting_nil none))

theorem exec_brakeRelease {n : Nat} (on : s.pwr.brake = true) (pin : s.pwr.brakePin = false) (under : s.pwr.brakeOver = false)
    (late : s.pwr.brakeEnd + 1000000 ≤ n) :
    exec (.brakeRelease n) s = .next { s with now := max s.now n, pwr := { s.pwr with brake := false, fTgt := 700 } } :=
  if_pos ⟨on, by show ¬s.pwr.brakePin = true; simp [pin], by show ¬s.pwr.brakeOver = true; simp [under], late⟩

/-- Settles O34: a sample's three cases of braked, then the pin's edges and the release. -/
theorem hardBrakeEntryAndRelease : Obligations.HardBrakeEntryAndRelease := by
  intro s n mv curr mw rail good none
  refine ⟨fun bands => ?_, fun off => ?_, exec_pwrBrakeNRise n none, exec_brakeRelease⟩
  · have same : Pwr.band mv = s.pwr.outBand := by rw [Bool.eq_iff_iff, Pwr.band_iff]; exact bands
    rw [Pwr.exec_powerSample n curr mw rail good same]
    refine ⟨fun high off => ?_, fun low pin off => ?_, fun low under idle => ?_⟩
    · rw [decide_eq_true (show Pwr.fused s * 1150 < mw.toNat from high)]
      exact ⟨_, rfl, Pwr.enterBrake_logs 2 n off none⟩
    · rw [decide_eq_false (show ¬Pwr.fused s * 1150 < mw.toNat from Nat.not_lt.2 low)]
      exact ⟨_, congrArg (fun u => Host.Outcome.next (Starts.runWaiting u n)) (Pwr.braked_pin _ n pin), Pwr.enterBrake_logs 3 n off none⟩
    · rw [decide_eq_false (show ¬Pwr.fused s * 1150 < mw.toNat from Nat.not_lt.2 low), under]
      refine (congrArg Host.Outcome.next (Pwr.runWaiting_braked_idle
        (t := { s with now := max s.now n, pwr := { Pwr.sampled s n mv curr mw rail with brakeOver := false } }) idle none)).trans ?_
      rw [← under]
      rfl
  · exact ⟨_, (exec_pwrBrakeNFall n good).trans (congrArg _ (Pwr.enterBrake_off 3 off)), logEvent_logs _ _⟩

/-! ### The control window -/

/-- A record is logged where something changed, else the state stands. -/
theorem next_logged_iff (b : State) (change : Bool) (r : Report) : ∃ t, (.next (if change then logEvent b r else b) : Out) = .next t ∧
    (change = false → t = b) ∧ (change = true → logs b t r) := by
  cases change with
  | false => exact ⟨b, rfl, fun _ => rfl, nofun⟩
  | true => exact ⟨_, rfl, nofun, fun _ => logEvent_logs _ _⟩

namespace Pwr

/-- The power after a control window, for the mean `mw` in mW, the windows above the limit and case 1 of R463. -/
def windowed (s : State) (mw wins : Nat) (yield : Bool) : Power :=
  let target := nextTarget (mw / 1000) s.pwr.polP s.pwr.fTgt (if blitzEnabled s.host && !yield && !s.pwr.yieldHub then 1400 else 400) s.pwr.polF
  { s.pwr with
    pAvg := mw
    winSum := 0
    winCount := 0
    overWins := wins
    pOp := s.pwr.polP
    tTh := s.pwr.polT
    fCap := s.pwr.polF
    yieldPow := yield
    fTgt := if s.pwr.yieldHub then min 1000 target else target }

theorem exec_controlWindow (good : s.pwr.phase = .good) (full : 64 ≤ s.pwr.winCount) :
    let mw := s.pwr.winSum / s.pwr.winCount
    let wins := if fused s < mw / 1000 then s.pwr.overWins + 1 else 0
    let yield := blitzEnabled s.host && decide (16 ≤ wins)
    exec .controlWindow s = .next (if yield && !s.pwr.yieldPow then logEvent { s with pwr := windowed s mw wins yield } (report 0x0801 1 0)
      else { s with pwr := windowed s mw wins yield }) :=
  if_neg (by rintro (off | few); exacts [off good, absurd few (Nat.not_lt.2 full)])

end Pwr

/-- Settles O35: exec_controlWindow, with the record where case 1 of R463 begins. -/
theorem controlWindowMovesTheClockTarget : Obligations.ControlWindowMovesTheClockTarget := by
  intro s good full p mw w wins yield floor moved target q
  have runs := Pwr.exec_controlWindow good full
  refine ⟨fun begins was => ?_, fun stays => ?_⟩
  · have change : (yield && !p.yieldPow) = true := by rw [begins, was]; rfl
    exact ⟨_, runs.trans (congrArg _ (if_pos change)), logEvent_logs _ _⟩
  · have change : ¬(yield && !p.yieldPow) = true := by
      obtain no | was := stays
      · simp [no]
      · simp [was]
    exact runs.trans (congrArg _ (if_neg change))

/-! ### Temperatures -/

/-- A thermal trip from a state that differs from s in power and memory alone. -/
theorem thermalTrip_trips {u : State} (fuses : u.fuses = s.fuses) (flash : u.flash = s.flash) (log : u.log = s.log) (arg : Nat) (n : Int) :
    let t := Starts.thermalTrip u arg n
    t.pwr.phase = .tripped ∧ t.pwr.trip = some (arg, n) ∧ t.pwr.thermTrip = true ∧ t.bu = State.resetBringUp ∧
      t.mem = State.resetMem ∧ t.sched = State.resetSched ∧ t.fuses = s.fuses ∧ t.flash = s.flash ∧ t.log.next = s.log.next := by
  rw [Starts.thermalTrip, Starts.railsOff, Starts.volatileLost_eq]
  exact ⟨rfl, rfl, rfl, rfl, rfl, rfl, fuses, flash, show u.log.next = s.log.next by rw [log]⟩

section
variable (k : Nat) (temp : Byte) (good : s.pwr.phase = .good)
include good

theorem exec_cellTempSample_trips (top : 115 ≤ temp.toInt) : exec (.cellTempSample k temp) s =
    .next (Starts.thermalTrip (s.setPwr { s.pwr with cellTemp := Sparse.put s.pwr.cellTemp k temp.toInt }) (0x10000 + k) temp.toInt) := by
  show execCellTempSample k temp s = _
  unfold execCellTempSample
  rw [if_neg (not_not.2 good)]
  exact if_pos top

theorem exec_hubTempSample_trips (top : 115 ≤ temp.toInt) : exec (.hubTempSample temp) s =
    .next (Starts.thermalTrip (s.setPwr { s.pwr with hubTemp := temp.toInt }) 0x20000 temp.toInt) := by
  show execHubTempSample temp s = _
  unfold execHubTempSample
  rw [if_neg (not_not.2 good)]
  exact if_pos top

theorem exec_cellTempSample (below : temp.toInt < 115) :
    let hot := blitzEnabled s.host && decide ((s.pwr.tTh : Int) + 10 ≤ temp.toInt)
    let u : State := { s with pwr := { s.pwr with
      cellTemp := Sparse.put s.pwr.cellTemp k temp.toInt
      fc := Sparse.put s.pwr.fc k (Pwr.nextLimit (Sparse.getD s.pwr.fc k (Config.clkMax s.fuses.variant)) temp.toInt s.pwr.tTh
        (if blitzEnabled s.host && decide (temp.toInt < (s.pwr.tTh : Int) + 10) then 1400 else 400) s.pwr.fTgt)
      hot := if hot then (if s.pwr.hot.contains k then s.pwr.hot else k :: s.pwr.hot) else s.pwr.hot.filter (· != k) } }
    exec (.cellTempSample k temp) s =
      .next (if hot != s.pwr.hot.contains k then logEvent u { status := 0x0802, source := 0x7000, arg0 := 0x10000 + k } else u) := by
  show execCellTempSample k temp s = _
  unfold execCellTempSample
  rw [if_neg (not_not.2 good)]
  exact if_neg (not_le.2 below)

theorem exec_hubTempSample (below : temp.toInt < 115) :
    let u : State := { s with pwr := { s.pwr with hubTemp := temp.toInt, yieldHub := decide (105 < temp.toInt) } }
    exec (.hubTempSample temp) s = .next (if decide (105 < temp.toInt) != s.pwr.yieldHub then
      logEvent u { status := 0x0802, source := 0x7000, arg0 := 0x20000 } else u) := by
  show execHubTempSample temp s = _
  unfold execHubTempSample
  rw [if_neg (not_not.2 good)]
  exact if_neg (not_le.2 below)

/-- Memory after a stack's temperature: its refresh row and throttle follow R312. -/
def stackNoted (m : Mem) (k : Nat) (n : Int) (row : Nat) : Mem := { m with
  temp := Sparse.put m.temp k n
  rate := Sparse.put m.rate k (min 2 row)
  throttle := if row = 3 then (if m.throttle.contains k then m.throttle else k :: m.throttle) else m.throttle.filter (· != k) }

theorem exec_stackTempSample_trips (top : 110 ≤ temp.toInt) : ∃ m, exec (.stackTempSample k temp) s =
    .next (Starts.thermalTrip (s.setMem m) k temp.toInt) := by
  show ∃ m, execStackTempSample k temp s = _
  unfold execStackTempSample
  rw [if_neg (not_not.2 good)]
  exact ⟨_, if_pos top⟩

theorem exec_stackTempSample (below : temp.toInt < 110) {row : Nat}
    (hrow : Memory.tempRow (if s.mem.throttle.contains k then 3 else Sparse.getD s.mem.rate k 0) temp.toInt = row) :
    exec (.stackTempSample k temp) s = .next (if decide (row = 3) != s.mem.throttle.contains k then
      logEvent (s.setMem (stackNoted s.mem k temp.toInt row)) { status := 0x0802, source := 0x4000 + k, arg0 := if row = 3 then k else 0x100 + k }
      else s.setMem (stackNoted s.mem k temp.toInt row)) := by
  show execStackTempSample k temp s = _
  unfold execStackTempSample
  rw [if_neg (not_not.2 good)]
  dsimp only
  rw [if_neg (not_le.2 below), hrow]
  show (if row = 3 ∧ ¬s.mem.throttle.contains k = true then Host.Outcome.next (logEvent (s.setMem (stackNoted s.mem k temp.toInt row)) _)
    else if row ≠ 3 ∧ s.mem.throttle.contains k = true then .next (logEvent (s.setMem (stackNoted s.mem k temp.toInt row)) _)
    else .next (s.setMem (stackNoted s.mem k temp.toInt row))) = _
  generalize stackNoted s.mem k temp.toInt row = m
  by_cases top : row = 3
  · cases s.mem.throttle.contains k <;> simp [top]
  · cases s.mem.throttle.contains k <;> simp [top]

end

/-- Settles O36: a sample below the top acts and logs a crossing, one at the top trips. -/
theorem temperatureSamplesActAndTrip : Obligations.TemperatureSamplesActAndTrip := by
  intro s k temp good n trips acts hot floor old moved was row
  refine ⟨fun top => ⟨⟨_, exec_cellTempSample_trips k temp good top, thermalTrip_trips rfl rfl rfl _ _⟩,
      ⟨_, exec_hubTempSample_trips temp good top, thermalTrip_trips rfl rfl rfl _ _⟩⟩, fun top => ?_,
    fun below => ⟨?_, ?_⟩, fun below => ?_⟩
  · obtain ⟨m, runs⟩ := exec_stackTempSample_trips k temp good top
    exact ⟨_, runs, thermalTrip_trips rfl rfl rfl _ _⟩
  · have runs := exec_cellTempSample k temp good below
    obtain ⟨t, next, same, logged⟩ := next_logged_iff _ _ _
    exact ⟨t, runs.trans next, same, logged⟩
  · have runs := exec_hubTempSample temp good below
    obtain ⟨t, next, same, logged⟩ := next_logged_iff _ _ _
    exact ⟨t, runs.trans next, same, logged⟩
  · have runs := exec_stackTempSample k temp good below (row := row) rfl
    obtain ⟨t, next, same, logged⟩ := next_logged_iff _ _ _
    exact ⟨t, runs.trans next, same, logged⟩

end Machine
end Sys2Proof
end

section
/-! PROOF. A port's training and timers, the reception of frames and the LINK frames (spec/14_twisil_fabric.md R320 to R338). -/

namespace Sys2Proof
namespace Machine

open Bits Ops

variable {s u : State} {t p : Nat} {fr f : Sys2Proof.Frame}

namespace Link

/-! ### Training and retry -/

theorem goDown_quiet (state : (portAt s p).state = .training) (was : (portAt s p).wasUp = false) : goDown s p = ended (putPort s p
    { portAt s p with state := .down, gen := 0, unacked := [], queue := [], downAt := s.now, wasUp := false }) p :=
  if_neg (by rw [state, was]; decide)

theorem goDown_logs (was : (portAt s p).wasUp = true) : logs (ended (putPort s p
    { portAt s p with state := .down, gen := 0, unacked := [], queue := [], downAt := s.now, wasUp := false }) p) (goDown s p) (linkDown p) := by
  have logged : ((portAt s p).state == .up || (portAt s p).wasUp) = true := by rw [was, Bool.or_true]
  rw [goDown, if_pos logged]
  exact logEvent_logs _ _

theorem lockFails_lower (left : 1 < (portAt s p).tryGen) :
    lockFails s p = putPort s p { portAt s p with tryGen := (portAt s p).tryGen - 1, stage := 2 } := if_neg (Nat.not_le.2 left)
theorem lockFails_last (last : (portAt s p).tryGen ≤ 1) : lockFails s p = linkTrainDone (goDown s p) := if_pos last

theorem train_cable (cable : hasCable s p = true) : train s p = putPort s p
    { portAt s p with state := .training, gen := 0, stage := 0, tryGen := 1, partner := 0 } := if_pos cable

theorem leaveUp_up (up : (portAt s p).state = .up) (cable : hasCable s p = true) : leaveUp s p = logEvent (putPort s p
    { portAt s p with state := .training, gen := 0, stage := 0, tryGen := 1, partner := 0, wasUp := true }) (linkDown p) := by
  rw [leaveUp, if_pos up, train_cable cable]
  dsimp only
  rw [portAt_putPort_self, putPort_putPort]

theorem sendReplay_waiting (waits : (portAt s p).replaying = true) : sendReplay s p = putPort
    (sendLink s p (linkBlock 3 0 (portAt s p).rxSeq 0 0 0 0 0 [])) p { portAt s p with replays := satInc (2 ^ 24 - 1) (portAt s p).replays 1 } := by
  rw [sendReplay]
  generalize portAt s p = x at waits
  cases x
  subst waits
  rfl

end Link

open Link

section
variable (training : (portAt s p).state = .training) (ready : (portAt s p).stage % 2 = 0)
include training ready

theorem portTraining_on : ¬((portAt (tick s t) p).state ≠ .training ∨ (portAt (tick s t) p).stage % 2 = 1) := by
  rintro (off | odd)
  · exact off training
  · have : (portAt s p).stage % 2 = 1 := odd
    omega

theorem exec_portTraining_locked : exec (.portTraining t p true) s =
    .next (sendHello (putPort (tick s t) p { portAt s p with stage := (portAt s p).stage + 1 }) p) :=
  (if_neg (portTraining_on training ready)).trans (if_pos rfl)

theorem exec_portTraining_fails : exec (.portTraining t p false) s = .next (lockFails (tick s t) p) :=
  (if_neg (portTraining_on training ready)).trans (if_neg Bool.false_ne_true)

theorem exec_trainingLockTimeout : exec (.trainingLockTimeout t p) s = .next (lockFails (tick s t) p) :=
  if_neg (portTraining_on training ready)

end

theorem exec_portRetryTimer (down : (portAt s p).state = .down) (enabled : (cfgAt s p).enable = true) (unmarked : (cfgAt s p).qmark = false)
    (late : (portAt s p).downAt + 1000000000 ≤ t) : exec (.portRetryTimer t p) s = .next (train (tick s t) p) :=
  if_pos ⟨down, enabled, by show ¬(cfgAt s p).qmark = true; simp [unmarked], late⟩

theorem exec_creditReturnTimer (up : (portAt s p).state = .up) (owed : (portAt s p).freed ≠ (portAt s p).returned) :
    exec (.creditReturnTimer t p) s = .next (sendLink (putPort (tick s t) p { portAt s p with returned := (portAt s p).freed }) p
      (linkBlock 2 0 0 0 0 (Sparse.getD (portAt s p).freed 0 0 % 2 ^ 32) (Sparse.getD (portAt s p).freed 1 0 % 2 ^ 32)
        (Sparse.getD (portAt s p).freed 2 0 % 2 ^ 32) [])) := if_pos ⟨up, owed⟩

/-- A failed attempt lowers the generation, or ends DOWN at the lowest. -/
theorem lockFails_fails {o : Out} (training : (portAt s p).state = .training) (fails : o = .next (lockFails (tick s t) p)) :
    (1 < (portAt s p).tryGen → o = .next (putPort (tick s t) p { portAt s p with tryGen := (portAt s p).tryGen - 1, stage := 2 })) ∧
    ((portAt s p).tryGen ≤ 1 → ∃ v, o = .next (linkTrainDone v) ∧
      ((portAt s p).wasUp = false → v = ended (putPort (tick s t) p
        { portAt s p with state := .down, gen := 0, unacked := [], queue := [], downAt := (tick s t).now, wasUp := false }) p) ∧
      ((portAt s p).wasUp = true → logs (ended (putPort (tick s t) p
        { portAt s p with state := .down, gen := 0, unacked := [], queue := [], downAt := (tick s t).now, wasUp := false }) p) v (linkDown p))) :=
  ⟨fun left => fails.trans (congrArg _ (lockFails_lower (s := tick s t) left)),
    fun last => ⟨goDown (tick s t) p, fails.trans (congrArg _ (lockFails_last (s := tick s t) last)),
      goDown_quiet (s := tick s t) training, goDown_logs (s := tick s t)⟩⟩

/-- Settles O39: the attempt's two ends, the retry, lock loss and each timer in its state. -/
theorem portTrainingAndTimers : Obligations.PortTrainingAndTimers := by
  intro s t p
  refine ⟨fun training ready => ⟨exec_portTraining_locked training ready, lockFails_fails training (exec_portTraining_fails training ready),
      lockFails_fails training (exec_trainingLockTimeout training ready)⟩,
    fun down enabled unmarked late => exec_portRetryTimer down enabled unmarked late,
    fun up cable => ⟨_, (if_pos up).trans (congrArg Host.Outcome.next (leaveUp_up (s := tick s t) up cable)), logEvent_logs _ _⟩,
    fun up waits => (if_pos ⟨up, waits⟩).trans (congrArg Host.Outcome.next (sendReplay_waiting (s := tick s t) waits)),
    fun live => if_pos live, exec_creditReturnTimer, fun quarantined => if_pos quarantined, rfl⟩

/-! ### Reception -/

namespace Link

/-- The port after an ACK: what it covers has left the replay buffer. -/
def acked (f : Sys2Proof.Frame) (y : Port) : Port :=
  if (y.unacked.filter fun e => 2048 ≤ (ackOf f + 4096 - e.1) % 4096).length < y.unacked.length then
    { y with unacked := y.unacked.filter fun e => 2048 ≤ (ackOf f + 4096 - e.1) % 4096, tries := (0, 0) } else y

/-- The port after a frame that takes a SEQ has been taken. -/
def credited (f : Sys2Proof.Frame) (y : Port) : Port := { y with
  received := Sparse.upd y.received (vc f) 0 (· + units (len f) false)
  freed := Sparse.upd y.freed (vc f) 0 (· + units (len f) false) }

theorem accept_takesSeq (takes : takesSeq f = true) (y : Port) :
    accept (putPort s p y) p f false = drainQueue (putPort s p (credited f (acked f y))) p := by
  have ack : applyAck (putPort s p y) p (ackOf f) = putPort s p (acked f y) := by
    show putPort (putPort s p y) p (acked f (portAt (putPort s p y) p)) = _
    rw [portAt_putPort_self, putPort_putPort]
  rw [accept, ack, if_pos takes, portAt_putPort_self, putPort_putPort]
  rfl

theorem accept_noSeq (takes : takesSeq f = false) : accept s p f false = drainQueue (putPort s p (acked f (portAt s p))) p := by
  have ack : applyAck s p (ackOf f) = putPort s p (acked f (portAt s p)) := rfl
  rw [accept, ack, if_neg (by rw [takes]; decide)]

/-- The state in which the header of a frame in order is checked. -/
def inOrder (s : State) (p : Nat) (f : Sys2Proof.Frame) : State :=
  if takesSeq f then putPort s p { portAt s p with rxSeq := ((portAt s p).rxSeq + 1) % 4096, replaying := false } else s

/-- What the header of a frame in order decides. -/
def judged (u : State) (p : Nat) (f : Sys2Proof.Frame) : Rx :=
  match headerReason (portAt u p) f with
  | some r => .drop (violateNak u p r f)
  | none => .take f (accept u p f false)

section
variable (up : (portAt s p).state = .up) (clear : (portAt s p).crypt = false) (plain : f.sec = none)
  (sound : crcOf f.header f.payload none = f.crc)
include up clear plain sound

/-- A sound frame out of order is not looked at. -/
theorem receive_outOfOrder (takes : takesSeq f = true) (other : seqOf f ≠ (portAt s p).rxSeq) : receive s p f =
    if (seqOf f + 4096 - (portAt s p).rxSeq) % 4096 < 2048 then .drop (sendReplay s p) else .drop s := by
  unfold receive
  dsimp only
  rw [if_neg (by rw [up]; decide), if_neg (by rw [plain]; exact not_not.2 sound)]
  simp only [clear, plain, Bool.false_and, Bool.false_eq_true, if_false, Option.isSome_none]
  exact if_pos ⟨up, takes, other⟩

variable (order : takesSeq f = true → seqOf f = (portAt s p).rxSeq)
include order

/-- A sound frame in order is judged by its header. -/
theorem receive_inOrder : receive s p f = judged (inOrder s p f) p f := by
  have first : ¬((portAt s p).state = .up ∧ takesSeq f = true ∧ seqOf f ≠ (portAt s p).rxSeq) := fun h => h.2.2 (order h.2.1)
  have next : (if (portAt s p).state = .up ∧ takesSeq f = true then putPort s p
      { portAt s p with rxSeq := ((portAt s p).rxSeq + 1) % 4096, replaying := false } else s) = inOrder s p f := by
    simp only [up, true_and, inOrder]
  simp only [clear] at next
  unfold receive
  dsimp only
  rw [if_neg (by rw [up]; decide), if_neg (by rw [plain]; exact not_not.2 sound)]
  simp only [clear, plain, Bool.false_and, Bool.false_eq_true, if_false, Option.isSome_none]
  rw [if_neg first, next, if_pos up]
  cases header : headerReason (portAt (inOrder s p f) p) f with
  | some r => simp only [judged, header]
  | none => simp only [judged, header]

theorem receive_violates {r : Nat} (bad : headerReason (portAt (inOrder s p f) p) f = some r) :
    receive s p f = .drop (violateNak (inOrder s p f) p r f) := by
  rw [receive_inOrder up clear plain sound order, judged, bad]

theorem receive_takes (good : headerReason (portAt (inOrder s p f) p) f = none) :
    receive s p f = .take f (accept (inOrder s p f) p f false) := by
  rw [receive_inOrder up clear plain sound order, judged, good]

end

theorem receive_closed (closed : (portAt s p).state = .quarantined ∨ (portAt s p).state = .disabled ∨ (portAt s p).state = .down) :
    receive s p f = .drop s := if_pos closed

theorem receive_badCrc (live : (portAt s p).state = .training ∨ (portAt s p).state = .up)
    (bad : crcOf f.header f.payload f.sec ≠ f.crc) : receive s p f = .drop (badCrc s p) := by
  have opens : ¬((portAt s p).state = .quarantined ∨ (portAt s p).state = .disabled ∨ (portAt s p).state = .down) := by
    obtain state | state := live
    · rw [state]; decide
    · rw [state]; decide
  exact (if_neg opens).trans (if_pos bad)

end Link

/-- Settles O40: receive's cases in its own order: state, CRC, SEQ, header, acceptance. -/
theorem framesAreReceivedInOrder : Obligations.FramesAreReceivedInOrder := by
  intro s p f x left acked' ahead z units'
  refine ⟨receive_closed, fun live bad => receive_badCrc live bad, fun up clear plain sound => ⟨fun takes other near => ?_,
    fun takes other far => ?_, fun takes seq => ?_, fun takes => ?_⟩⟩
  · exact (receive_outOfOrder up clear plain sound takes other).trans (if_pos near)
  · exact (receive_outOfOrder up clear plain sound takes other).trans (if_neg (Nat.not_lt.2 far))
  · have next : inOrder s p f = putPort s p z := if_pos takes
    have port : portAt (inOrder s p f) p = z := by rw [next, portAt_putPort_self]
    refine ⟨fun r bad => ?_, fun good => ?_⟩
    · rw [receive_violates up clear plain sound (fun _ => seq) (by rw [port]; exact bad), next]
    · rw [receive_takes up clear plain sound (fun _ => seq) (by rw [port]; exact good), next, accept_takesSeq takes]
      have same : credited f (acked f z) = { acked' z with
          received := Sparse.upd x.received (vc f) 0 (· + units'), freed := Sparse.upd x.freed (vc f) 0 (· + units') } := by
        show credited f (acked' z) = _
        by_cases covers : left.length < x.unacked.length
        · simp only [acked', if_pos covers]
          rfl
        · simp only [acked', if_neg covers]
          rfl
      rw [same]
  · have next : inOrder s p f = s := if_neg (by rw [takes]; decide)
    have order : takesSeq f = true → seqOf f = (portAt s p).rxSeq := fun h => by rw [takes] at h; cases h
    refine ⟨fun r bad => ?_, fun good => ?_⟩
    · rw [receive_violates up clear plain sound order (by rw [next]; exact bad), next]
    · rw [receive_takes up clear plain sound order (by rw [next]; exact good), next, accept_noSeq takes]
      rfl

/-! ### LINK frames -/

section
variable (takes : receive (tick s t) p fr = .take f u) (link : kind f = 4)
include takes link

/-- A sound LINK block of the command's own kind acts. -/
theorem onLink_acts {sub : Nat} (act : Bytes → State → State) (good : linkBad f.payload = false) (own : fld f.payload 0 1 = sub) :
    onLink s t p sub fr act = act f.payload u := by
  unfold onLink
  rw [takes]
  dsimp only
  rw [if_neg (not_not.2 link), if_neg (by rw [good]; decide), if_pos own]

/-- A block that breaks R327 is a violation. -/
theorem onLink_violates (sub : Nat) (act : Bytes → State → State) (bad : linkBad f.payload = true) :
    onLink s t p sub fr act = violateNak u p 3 f := by
  unfold onLink
  rw [takes]
  dsimp only
  rw [if_neg (not_not.2 link), if_pos bad]

end

/-- A port in clear with nothing to resend comes UP at once. -/
theorem enterUp_clear (clear : (cfgAt u p).encrypt = false) (acked : (portAt u p).unacked = []) (queue : (portAt u p).queue = []) :
    enterUp u p = linkTrainDone (ended (putPort u p { portAt u p with
      state := .up, gen := (portAt u p).tryGen, granted := [], used := [], freed := [], received := [], returned := [],
      crypt := false, tries := (0, 0), wasUp := false }) p) := by
  unfold enterUp
  simp only [clear, acked, Bool.false_and, Bool.false_eq_true, if_false, List.foldl_nil]
  simp only [drainQueue, portAt_putPort_self, queue, Link.drain]

/-- The port that has noted its partner's HELLO. -/
def Link.met (b : Bytes) (x : Port) : Port := { x with partner := fld b 4 2, partnerOffer := fld b 6 1 }

section
variable (takes : receive (tick s t) p fr = .take f u) (link : kind f = 4) (good : linkBad f.payload = false)
include takes link good

theorem exec_linkHello_first (own : fld f.payload 0 1 = 1) (training : (portAt u p).state = .training) (stage : (portAt u p).stage = 1) :
    exec (.linkHello t p fr) s = .next (putPort u p { met f.payload (portAt u p) with
      stage := 2, tryGen := max 1 (min (offer u p) (fld f.payload 6 1)) }) :=
  congrArg Host.Outcome.next ((onLink_acts takes link _ good own).trans (if_pos ⟨training, stage⟩))

theorem exec_linkHello_second (own : fld f.payload 0 1 = 1) (training : (portAt u p).state = .training) (stage : (portAt u p).stage = 3) :
    exec (.linkHello t p fr) s = .next (enterUp (putPort u p (met f.payload (portAt u p))) p) := by
  have first : ¬((portAt u p).state = .training ∧ (portAt u p).stage = 1) := fun h => by omega
  exact congrArg Host.Outcome.next ((onLink_acts takes link _ good own).trans ((if_neg first).trans (if_pos ⟨training, stage⟩)))

theorem exec_linkHello_other (own : fld f.payload 0 1 = 1)
    (other : (portAt u p).state ≠ .training ∨ ((portAt u p).stage ≠ 1 ∧ (portAt u p).stage ≠ 3)) :
    exec (.linkHello t p fr) s = .next (putPort u p (met f.payload (portAt u p))) := by
  have first : ¬((portAt u p).state = .training ∧ (portAt u p).stage = 1) := fun h => other.elim (· h.1) (·.1 h.2)
  have second : ¬((portAt u p).state = .training ∧ (portAt u p).stage = 3) := fun h => other.elim (· h.1) (·.2 h.2)
  exact congrArg Host.Outcome.next ((onLink_acts takes link _ good own).trans ((if_neg first).trans (if_neg second)))

theorem exec_linkCredit (own : fld f.payload 0 1 = 2) (up : (portAt u p).state = .up) :
    exec (.linkCredit t p fr) s = .next (drainQueue (putPort u p { portAt u p with
      granted := [(0, fld f.payload 8 4), (1, fld f.payload 12 4), (2, fld f.payload 16 4)] }) p) :=
  congrArg Host.Outcome.next ((onLink_acts takes link _ good own).trans (if_pos up))

theorem exec_linkReplay_ninth (own : fld f.payload 0 1 = 3) (up : (portAt u p).state = .up) (ninth : (portAt u p).tries = (fld f.payload 2 2, 8)) :
    exec (.linkReplay t p fr) s = .next (leaveUp (putPort u p { portAt u p with tries := (0, 0) }) p) :=
  congrArg Host.Outcome.next ((onLink_acts takes link _ good own).trans ((if_neg (not_not.2 up)).trans (if_pos ninth)))

theorem exec_linkReplay_resends (own : fld f.payload 0 1 = 3) (up : (portAt u p).state = .up)
    (few : (portAt u p).tries ≠ (fld f.payload 2 2, 8)) : exec (.linkReplay t p fr) s = .next
      (((portAt u p).unacked.dropWhile fun e => e.1 != fld f.payload 2 2).foldl (fun s e => wire s p e.1 e.2) (putPort u p { portAt u p with
        tries := (fld f.payload 2 2, if (portAt u p).tries.1 = fld f.payload 2 2 then (portAt u p).tries.2 + 1 else 1) })) :=
  congrArg Host.Outcome.next ((onLink_acts takes link _ good own).trans ((if_neg (not_not.2 up)).trans (if_neg few)))

end

/-- Settles O41: a taken frame's command acts on the state that reception leaves. -/
theorem linkFramesAct : Obligations.LinkFramesAct := by
  intro s u t p fr f takes
  refine ⟨?_, fun link good => ⟨fun own training => ⟨exec_linkHello_first takes link good own training, fun stage => ?_⟩,
      exec_linkHello_other takes link good, exec_linkCredit takes link good,
      fun own up => ⟨exec_linkReplay_ninth takes link good own up, exec_linkReplay_resends takes link good own up⟩,
      fun own => congrArg Host.Outcome.next (onLink_acts takes link _ good own),
      fun own => congrArg Host.Outcome.next (onLink_acts takes link _ good own)⟩,
    fun link bad => ⟨congrArg Host.Outcome.next (onLink_violates takes link 1 _ bad), congrArg Host.Outcome.next (onLink_violates takes link 2 _ bad),
      congrArg Host.Outcome.next (onLink_violates takes link 3 _ bad), congrArg Host.Outcome.next (onLink_violates takes link 4 _ bad),
      congrArg Host.Outcome.next (onLink_violates takes link 5 _ bad)⟩⟩
  · show execIdle t p fr s = _
    rw [execIdle, takes]
  · have second := exec_linkHello_second takes link good own training stage
    refine ⟨second, fun clear acked queue => second.trans (congrArg Host.Outcome.next ?_)⟩
    have port := portAt_putPort_self u p (met f.payload (portAt u p))
    rw [enterUp_clear (by rw [cfgAt_putPort]; exact clear) (by rw [port]; exact acked) (by rw [port]; exact queue), port, putPort_putPort]
    rfl

end Machine
end Sys2Proof
end

section
/-! PROOF. MCTP control, sensors, firmware update and SPDM (spec/21_management_identity_debug.md R471 to R487,
spec/19_security.md R440 to R442). -/

namespace Sys2Proof
namespace Machine

open Bits Ops

variable {s : State} {t b : Nat}

namespace Man

theorem onMctp_up (up : mctp s b = true) (act : State → State) : onMctp s b act = act s := if_pos up

theorem mctp_up (good : s.pwr.phase = .good) (pins : b = 0 → s.ident.pinMode = 0) : mctp s b = true := by
  rw [mctp, good]
  by_cases smbus : b = 0
  · simp [pins smbus]
  · simp [smbus]

/-! ### Sensors -/

theorem pushPldm_length (m : Mgmt) (e : PldmEvent) (h : m.queue.length ≤ 32) : (pushPldm m e).queue.length ≤ 32 := by
  unfold pushPldm
  split
  · next room => simpa using room
  · simp only [List.length_append, List.length_drop, List.length_singleton]
    omega

theorem pushPldm_frame (m : Mgmt) (e : PldmEvent) :
    ∃ q o g, pushPldm m e = { m with queue := q, overflow := o, given := g } := by
  unfold pushPldm
  split
  · exact ⟨_, m.overflow, m.given, rfl⟩
  · exact ⟨_, _, _, rfl⟩

/-- The management state after sensor k of s is read. -/
def sensed (s : State) (m : Mgmt) (k : Nat) : Mgmt :=
  let n := { m with sensors := Sparse.put m.sensors k (reading s k), states := Sparse.put m.states k (sensorState s k) }
  if sensorState s k = Sparse.getD m.states k 0 then n else pushPldm n (.sensor k (sensorState s k))

/-- Reading sensors takes nothing from the management state or the clock. -/
theorem foldl_updateSensor (n : Nat) : ∀ (l : List Nat) (m : Mgmt),
    l.foldl updateSensor { s with now := n, mgmt := m } = { s with now := n, mgmt := l.foldl (sensed s) m }
  | [], _ => rfl
  | k :: l, m => foldl_updateSensor n l (sensed s m k)

/-- The sensors of l have been read on the way from m to n: those and no others are noted, and a change of state alone
reaches the queue. -/
def Noted (s : State) (l : List Nat) (m n : Mgmt) : Prop :=
  n = { m with sensors := n.sensors, states := n.states, queue := n.queue, overflow := n.overflow, given := n.given } ∧
  (m.queue.length ≤ 32 → n.queue.length ≤ 32) ∧
  (∀ k, Sparse.get? n.sensors k = if k ∈ l then some (reading s k) else Sparse.get? m.sensors k) ∧
  (∀ k, Sparse.get? n.states k = if k ∈ l then some (sensorState s k) else Sparse.get? m.states k) ∧
  ((∀ k ∈ l, Sparse.getD m.states k 0 = sensorState s k) → n.queue = m.queue ∧ n.overflow = m.overflow ∧ n.given = m.given)

theorem noted_nil (s : State) (m : Mgmt) : Noted s [] m m :=
  ⟨rfl, id, fun _ => rfl, fun _ => rfl, fun _ => ⟨rfl, rfl, rfl⟩⟩

theorem noted_sensed (s : State) (m : Mgmt) (k : Nat) : Noted s [k] m (sensed s m k) := by
  have single : ∀ {α : Type} (x : Sparse α) (v : α) (j : Nat),
      Sparse.get? (Sparse.put x k v) j = if j ∈ [k] then some v else Sparse.get? x j := fun x v j => by simp [Sparse.get_put]
  have noted : ∀ {α : Type} (g : Nat → α) (x : Sparse α) (j : Nat),
      Sparse.get? (Sparse.put x k (g k)) j = if j ∈ [k] then some (g j) else Sparse.get? x j := fun g x j => by
    rw [single]
    by_cases here : j = k
    · rw [here]
    · simp [here]
  unfold sensed
  dsimp only
  split
  · exact ⟨rfl, id, noted _ _, noted _ _, fun _ => ⟨rfl, rfl, rfl⟩⟩
  · next changed =>
    have room := pushPldm_length { m with sensors := Sparse.put m.sensors k (reading s k), states := Sparse.put m.states k (sensorState s k) }
      (.sensor k (sensorState s k))
    obtain ⟨q, o, g, pushed⟩ := pushPldm_frame
      { m with sensors := Sparse.put m.sensors k (reading s k), states := Sparse.put m.states k (sensorState s k) } (.sensor k (sensorState s k))
    rw [pushed] at room ⊢
    exact ⟨rfl, room, noted _ _, noted _ _, fun same => absurd (same k List.mem_cons_self).symm changed⟩

theorem Noted.cons {m n o : Mgmt} {k : Nat} {l : List Nat} (first : Noted s [k] m n) (rest : Noted s l n o) : Noted s (k :: l) m o := by
  obtain ⟨same, room, sensors, states, quiet⟩ := first
  obtain ⟨same', room', sensors', states', quiet'⟩ := rest
  have join : ∀ {α : Type} {g : Nat → α} {x y z : Sparse α},
      (∀ j, Sparse.get? y j = if j ∈ [k] then some (g j) else Sparse.get? x j) →
      (∀ j, Sparse.get? z j = if j ∈ l then some (g j) else Sparse.get? y j) →
      ∀ j, Sparse.get? z j = if j ∈ k :: l then some (g j) else Sparse.get? x j := by
    intro α g x y z hy hz j
    rw [hz, hy]
    by_cases tail : j ∈ l
    · simp [tail]
    · by_cases head : j = k
      · simp [head]
      · simp [tail, head]
  refine ⟨by rw [same', same], fun h => room' (room h), join sensors sensors', join states states', fun h => ?_⟩
  obtain ⟨queue, overflow, given⟩ := quiet fun j hj => h j (by simp at hj; simp [hj])
  obtain ⟨queue', overflow', given'⟩ := quiet' fun j hj => by
    rw [Sparse.getD, states]
    by_cases head : j ∈ [k]
    · simp [head]
    · rw [if_neg head]
      exact h j (List.mem_cons_of_mem _ hj)
  exact ⟨queue'.trans queue, overflow'.trans overflow, given'.trans given⟩

theorem noted_all (s : State) : ∀ (l : List Nat) (m : Mgmt), Noted s l m (l.foldl (sensed s) m)
  | [], m => noted_nil s m
  | k :: l, m => (noted_sensed s m k).cons (noted_all s l (sensed s m k))

theorem mem_sensors {k : Nat} : k ∈ (List.range 14).map (· + 1) ↔ 1 ≤ k ∧ k ≤ 14 := by
  simp only [List.mem_map, List.mem_range]
  refine ⟨?_, fun h => ⟨k - 1, by omega, by omega⟩⟩
  rintro ⟨j, hj, rfl⟩
  omega

end Man

open Man

theorem exec_pldmSensorUpdate (t : Nat) (good : s.pwr.phase = .good) : exec (.pldmSensorUpdate t) s =
    .next { s with now := max s.now t, mgmt := ((List.range 14).map (· + 1)).foldl (sensed s) s.mgmt } :=
  (if_neg (not_not.2 good)).trans (congrArg Host.Outcome.next (foldl_updateSensor (max s.now t) _ s.mgmt))

/-! ### MCTP control -/

section
variable (up : mctp s b = true)
include up

theorem exec_setEndpointId {e : Byte} (low : 0 < e.toNat) (high : e.toNat < 255) :
    exec (.setEndpointId b e) s = .next (reply (s.setMgmt { s.mgmt with eid := Sparse.put s.mgmt.eid b e.toNat }) b 0 [e]) :=
  congrArg Host.Outcome.next ((onMctp_up up _).trans (if_neg (by omega)))

theorem exec_getMctpVersionSupport (ty : Byte) :
    exec (.getMctpVersionSupport b ty) s = .next (reply s b (if ty.toNat ∈ [0, 1, 5, 255] then 0 else 0x80) []) := by
  have code : (if [0, 1, 5, 255].contains ty.toNat then success else 0x80) = if ty.toNat ∈ [0, 1, 5, 255] then 0 else 0x80 := by
    simp only [List.contains_iff_mem, success]
  refine congrArg Host.Outcome.next ((onMctp_up up _).trans ?_)
  rw [code]

theorem exec_poll_gives {e : PldmEvent} {r : List PldmEvent} (queue : s.mgmt.queue = e :: r) :
    exec (.pollForPlatformEventMessage b false) s =
      .next (reply (s.setMgmt { s.mgmt with overflow := 0, given := true }) b 0 (toLe 4 s.mgmt.overflow ++ pldmBytes e)) := by
  refine congrArg Host.Outcome.next ((onMctp_up up _).trans ?_)
  rw [if_neg Bool.false_ne_true, queue]
  rfl

theorem exec_poll_acknowledges {e : PldmEvent} {r : List PldmEvent} (queue : s.mgmt.queue = e :: r) :
    exec (.pollForPlatformEventMessage b true) s = .next (reply (s.setMgmt { s.mgmt with
      queue := if s.mgmt.given then r else e :: r, given := false }) b 0 []) := by
  refine congrArg Host.Outcome.next ((onMctp_up up _).trans ?_)
  rw [if_pos rfl, queue]
  rfl

end

/-- Settles O45: the MCTP commands answer on a binding in service, and the update notes all fourteen sensors. -/
theorem mctpControlAndSensors : Obligations.MctpControlAndSensors := by
  intro s good
  refine ⟨fun b pins => ?_, fun t room => ?_⟩
  · have up := mctp_up good pins
    exact ⟨fun e => exec_setEndpointId up, congrArg Host.Outcome.next (onMctp_up up _), exec_getMctpVersionSupport up,
      congrArg Host.Outcome.next (onMctp_up up _), fun e r queue => ⟨exec_poll_gives up queue, exec_poll_acknowledges up queue⟩⟩
  · have noted := noted_all s ((List.range 14).map (· + 1)) s.mgmt
    have runs := exec_pldmSensorUpdate t good
    generalize ((List.range 14).map (· + 1)).foldl (sensed s) s.mgmt = m at noted runs
    obtain ⟨same, full, sensors, states, quiet⟩ := noted
    simp only [mem_sensors] at sensors states
    exact ⟨m, runs.trans (congrArg (fun m => Host.Outcome.next { s with now := max s.now t, mgmt := m }) same), full room, sensors, states,
      fun h => quiet fun k hk => h k (mem_sensors.1 hk).1 (mem_sensors.1 hk).2⟩

/-! ### Firmware update -/

/-- An update command of the agent that started the update acts on it. -/
theorem Man.onUpdate_own {u : Update} (up : mctp s b = true) (started : s.mgmt.update = some u) (own : u.binding = b)
    (act : State → Update → State) : onUpdate s b act = act s u := by
  rw [onUpdate, onMctp_up up, started]
  exact if_pos own

theorem exec_requestUpdate {size : Nat} (up : mctp s b = true) (asked : 0 < size) : exec (.requestUpdate b 4 size) s =
    .next (if s.mgmt.update.isSome then reply s b 0x81 [] else reply (setUpdate s (some ⟨b, false, false, [], false, false⟩)) b 0 []) := by
  refine congrArg Host.Outcome.next ((onMctp_up up _).trans ?_)
  rw [if_neg (by omega : ¬(4 ≠ 4 ∨ size = 0))]
  rfl

theorem firmwareTransfer_accepted {u : Update} {comp off : Nat} {part : Bytes} (passed : u.passed = true) (short : part.length ≤ 512)
    (inside : off + part.length ≤ Sparse.getD u.sizes comp 0) :
    ¬((!u.passed) = true ∨ 512 < part.length ∨ Sparse.getD u.sizes comp 0 < off + part.length) := by
  rw [passed]
  rintro (h | h | h)
  · cases h
  · omega
  · omega

section
variable {u : Update} (up : mctp s b = true) (started : s.mgmt.update = some u) (own : u.binding = b)
include up started own

theorem exec_passComponentTable {comps : List (Nat × Nat)} (known : ∀ e ∈ comps, 1 ≤ e.1 ∧ e.1 ≤ 4)
    (fits : ((comps.foldl (fun m e => Sparse.put m e.1 e.2) u.sizes).map (·.2)).sum ≤ 12582912) :
    exec (.passComponentTable b comps) s = .next (reply (setUpdate s (some { u with
      sizes := comps.foldl (fun m e => Sparse.put m e.1 e.2) u.sizes
      passed := decide ((comps.foldl (fun m e => Sparse.put m e.1 e.2) u.sizes).length = 4) })) b 0 []) := by
  have all : comps.any (fun e => e.1 < 1 || 4 < e.1) = false := by
    rw [List.any_eq_false]
    intro e he
    have := known e he
    simp only [Bool.or_eq_true, decide_eq_true_eq]
    omega
  have room : decide (slotBytes < ((comps.foldl (fun m e => Sparse.put m e.1 e.2) u.sizes).map (·.2)).sum) = false := by
    rw [decide_eq_false_iff_not, slotBytes]
    omega
  refine congrArg Host.Outcome.next ((onUpdate_own up started own _).trans ?_)
  dsimp only
  rw [all, room]
  rfl

theorem exec_firmwareComponentTransfer {comp off : Nat} {part : Bytes} (passed : u.passed = true) (short : part.length ≤ 512)
    (inside : off + part.length ≤ Sparse.getD u.sizes comp 0) :
    exec (.firmwareComponentTransfer t b comp off part) s = .next (if !Starts.storeOk s.pwr t then deferStore (tick s t) else
      reply (setUpdate (putSpare (tick s t) { (if u.erased then spare s else ⟨0, []⟩) with
          images := Sparse.put (if u.erased then spare s else ⟨0, []⟩).images comp
            (splice (Sparse.getD (if u.erased then spare s else ⟨0, []⟩).images comp []) off part) })
        (some { u with erased := true, verified := false, applied := false })) b 0 []) :=
  congrArg Host.Outcome.next ((onUpdate_own (s := tick s t) up started own _).trans
    (if_neg (firmwareTransfer_accepted passed short inside)))

theorem exec_verifyComplete {good : Bool}
    (checks : good = (u.erased && Bring.slotOk s.fuses (spare s) && Bring.tested { s.bu with images := Bring.byType (spare s) })) :
    exec (.verifyComplete b) s = .next (reply (setUpdate s (some { u with verified := good })) b (if good then 0 else 1) []) := by
  refine congrArg Host.Outcome.next ((onUpdate_own up started own _).trans ?_)
  dsimp only
  rw [← checks]
  cases good <;> rfl

theorem exec_applyComplete (verified : u.verified = true) :
    exec (.applyComplete b) s = .next (reply (setUpdate s (some { u with applied := true })) b 0 []) :=
  congrArg Host.Outcome.next ((onUpdate_own up started own _).trans (if_pos verified))

theorem exec_activateFirmware (applied : u.applied = true) (may : Starts.storeOk s.pwr t = true) :
    exec (.activateFirmware t b) s =
      .next (reply (setUpdate (putSpare (tick s t) { spare s with seq := (inForce s).seq + 1 }) none) b 0 []) := by
  have known : ¬(!u.applied) = true := by simp [applied]
  have now : ¬(!Starts.storeOk (tick s t).pwr t) = true := by show ¬(!Starts.storeOk s.pwr t) = true; simp [may]
  exact congrArg Host.Outcome.next ((onUpdate_own (s := tick s t) up started own _).trans ((if_neg known).trans (if_neg now)))

end

/-- Settles O46: each step of the agent's own update through onUpdate_own. -/
theorem firmwareUpdateRunsInSteps : Obligations.FirmwareUpdateRunsInSteps := by
  intro s t b up
  refine ⟨fun size => exec_requestUpdate up, fun u started own => ⟨fun comps known fits => exec_passComponentTable up started own known fits,
    fun comp off part passed short inside => ⟨fun wait => ?_, fun may => ?_⟩, fun good => exec_verifyComplete up started own,
    exec_applyComplete up started own, exec_activateFirmware up started own,
    congrArg Host.Outcome.next (onUpdate_own up started own _)⟩⟩
  · exact (exec_firmwareComponentTransfer up started own passed short inside).trans
      (congrArg Host.Outcome.next (if_pos (by rw [wait]; rfl)))
  · exact (exec_firmwareComponentTransfer up started own passed short inside).trans
      (congrArg Host.Outcome.next (if_neg (by rw [may]; decide)))

/-! ### SPDM -/

namespace Man

variable {n : Nat}

theorem onSpdm_serves (up : spdmUp s b = true) (reached : n ≤ spdmState s b) (act : State → State) : onSpdm s b n act = act s := by
  rw [onSpdm, up, if_neg (by decide), if_neg (Nat.not_lt.2 reached)]

theorem onSpdm_early (up : spdmUp s b = true) (early : spdmState s b < n) (act : State → State) : onSpdm s b n act = reply s b 4 [] := by
  rw [onSpdm, up, if_neg (by decide), if_pos early, unexpected]

end Man

section
variable (up : spdmUp s b = true)
include up

theorem exec_getVersion : exec (.getVersion b) s = .next (reply (setSpdm s b 1 [0x84]) b 0 [0x12]) :=
  congrArg Host.Outcome.next (if_pos up)

theorem exec_negotiateAlgorithms (reached : 2 ≤ spdmState s b) {a h : Word} (p384 : bit a.toNat 7 = true) (sha384 : bit h.toNat 1 = true) :
    exec (.negotiateAlgorithms b a h) s =
      .next (reply (setSpdm s b 3 (0xE3 :: toLe 4 a.toNat ++ toLe 4 h.toNat)) b 0 (toLe 4 0x80 ++ toLe 4 2)) :=
  congrArg Host.Outcome.next ((onSpdm_serves up reached _).trans (if_pos (by rw [p384, sha384]; rfl)))

/-- The measurement blocks that an index asks for: their number, all nine, or one. -/
def Man.blocksAt (s : State) (i : Nat) : Bytes :=
  if i = 0 then toLe 1 9 else if i = 0xFF then ((List.range 9).map fun k => block s (k + 1)).flatten else block s i

theorem exec_getMeasurements (reached : 3 ≤ spdmState s b) {i : Nat} (known : i ≤ 9 ∨ i = 0xFF) (k : BitVec 256) :
    exec (.getMeasurements b i false k) s = .next (reply (setSpdm s b 3 (0xE0 :: toLe 1 i ++ blocksAt s i)) b 0 (blocksAt s i)) := by
  refine congrArg Host.Outcome.next ((onSpdm_serves up reached _).trans ?_)
  dsimp only
  rw [if_neg (by omega)]
  rfl

theorem exec_getMeasurements_signed (reached : 3 ≤ spdmState s b) {i : Nat} (known : i ≤ 9 ∨ i = 0xFF) (k : BitVec 256) :
    let nonce := toLe 32 (Config.freeValue s.free).toNat
    let t := setSpdm { s with free := s.free + 1 } b 3 (0xE0 :: toLe 1 i ++ toLe 32 k.toNat ++ blocksAt s i ++ nonce)
    exec (.getMeasurements b i true k) s = .next (reply t b 0 (blocksAt s i ++ nonce ++ sign t b)) := by
  refine congrArg Host.Outcome.next ((onSpdm_serves up reached _).trans ?_)
  dsimp only
  rw [if_neg (by omega)]
  rfl

end

/-- Settles O47: each request by onSpdm_early or onSpdm_serves. -/
theorem spdmRequestsAreServedInOrder : Obligations.SpdmRequestsAreServedInOrder := by
  intro s b up
  refine ⟨exec_getVersion up, ⟨fun e => congrArg Host.Outcome.next (onSpdm_early up e _), fun _ _ e => congrArg Host.Outcome.next (onSpdm_early up e _),
      fun e => congrArg Host.Outcome.next (onSpdm_early up e _), fun _ _ _ e => congrArg Host.Outcome.next (onSpdm_early up e _),
      fun _ _ e => congrArg Host.Outcome.next (onSpdm_early up e _), fun _ _ _ e => congrArg Host.Outcome.next (onSpdm_early up e _)⟩,
    fun reached => congrArg Host.Outcome.next (onSpdm_serves up reached _), fun reached a h => exec_negotiateAlgorithms up reached,
    fun reached => ⟨congrArg Host.Outcome.next (onSpdm_serves up reached _), fun o n => congrArg Host.Outcome.next (onSpdm_serves up reached _),
      fun k => congrArg Host.Outcome.next (onSpdm_serves up reached _),
      fun i k known => ⟨exec_getMeasurements up reached known k, exec_getMeasurements_signed up reached known k⟩⟩⟩

end Machine
end Sys2Proof
end

section
/-! PROOF. Module-lost faults, the warm start and the restoration (spec/17_bring_up.md R398 to R400,
spec/18_reliability_and_recovery.md R427 to R430). -/

namespace Sys2Proof
namespace Machine

open Bits Ops JobOps

variable {s : State} {t : Nat}

namespace Recov

/-! ### Module-lost faults -/

/-- The record of a module-lost fault. -/
def lostReport (a : Nat) : Report := { status := 0x0302, source := source a, cls := 4, arg1 := a }

/-- Faults that are younger than 3,600 s. -/
def young (s : State) : List Nat := s.bu.recent.filter fun x => decide (s.now < x + 3600000000000)

/-- The state that has logged the fault, with what a record changes besides. -/
def logged (s : State) (a : Nat) (g : Mgmt) (m : Tm) (n : Nat) : State := { s with
  log := appendLog s.log (eventOf s (lostReport a)) (lostReport a).notifies ((lostReport a).notifies || (lostReport a).stop)
  mgmt := g
  tm := m
  sched := charge s.sched 10 1 0
  flash := { s.flash with lost := n } }

/-- With WARM_EN and fewer than three recent faults a warm start is ordered. -/
theorem moduleLost_warm (a : Nat) (warm : s.bu.warmEn = true) (few : (young s).length < 3) : ∃ g m n, moduleLost s a =
    (logged s a g m n).setBu { s.bu with
      recent := young s ++ [s.now], lostArg := some a, recovering := true, downFrom := some (s.bu.downFrom.getD s.now) } := by
  obtain ⟨g, m, n, log⟩ := logQuiet_eq s (lostReport a)
  have stays : ¬(!s.bu.warmEn || decide (4 ≤ (young s ++ [s.now]).length)) = true := by
    rw [warm, List.length_append, List.length_singleton]
    simpa using few
  refine ⟨g, m, n, ?_⟩
  rw [moduleLost, ← lostReport, log]
  exact if_neg stays

/-- Otherwise a cold start begins. -/
theorem moduleLost_starts_cold (a : Nat) (cold : s.bu.warmEn = false ∨ 3 ≤ (young s).length) : ∃ g m n, moduleLost s a =
    (Starts.coldStart (logged s a g m n)).setBu { (Starts.coldStart (logged s a g m n)).bu with downFrom := some (s.bu.downFrom.getD s.now) } := by
  obtain ⟨g, m, n, log⟩ := logQuiet_eq s (lostReport a)
  have falls : (!s.bu.warmEn || decide (4 ≤ (young s ++ [s.now]).length)) = true := by
    obtain off | many := cold
    · rw [off]; rfl
    · rw [List.length_append, List.length_singleton, Bool.or_eq_true]
      exact .inr (decide_eq_true (Nat.succ_le_succ many))
  refine ⟨g, m, n, ?_⟩
  rw [moduleLost, ← lostReport, log]
  exact if_pos falls

theorem moduleLost_cold_leaves (a : Nat) (ok : Starts.operating s.pwr.p48v = true) (cold : s.bu.warmEn = false ∨ 3 ≤ (young s).length) :
    ∃ v, moduleLost s a = v ∧ v.bu = { State.resetBringUp with step := 1, downFrom := some (s.bu.downFrom.getD s.now) } ∧
      v.mem = State.resetMem ∧ v.sched = State.resetSched ∧ v.recov = none ∧ v.fuses = s.fuses ∧
      (∃ n, v.flash = { s.flash with lost := n }) ∧ v.log.next = s.log.next + 1 := by
  obtain ⟨g, m, n, runs⟩ := moduleLost_starts_cold a cold
  rw [runs, Starts.coldStart_eq (s := logged s a g m n) ok, Starts.volatileLost_eq]
  exact ⟨_, rfl, rfl, rfl, rfl, rfl, rfl, ⟨n, rfl⟩, rfl⟩

/-! ### The warm start -/

/-- The state with memory settled: bytes b and budgets g. -/
def settledTo (s : State) (b : Sparse Byte) (g : Sparse Budget) : State :=
  { s with mem := { s.mem with bytes := b, wc := [], owed := [] }, sched := { s.sched with budgets := g } }

theorem keptArea_settledTo (fresh : s.recov = none) (b : Sparse Byte) (g : Sparse Budget) : keptArea (settledTo s b g) =
    ⟨s.host.rings, s.host.ctx, s.cache, s.pwr.polP, s.pwr.polT, s.pwr.polF, g, s.sched.jobs, s.fab⟩ := by
  have none : (settledTo s b g).recov = none := fresh
  rw [keptArea, none]
  rfl

/-- The state that a warm start leaves once memory is settled: the recovery area kept, the hub at reset. -/
def warmed (s : State) (b : Sparse Byte) (g : Sparse Budget) : State := { s with
  host := { s.host with rings := [], ctx := [] }
  cache := State.reset.cache
  pwr := { s.pwr with polP := Config.pwrLimit s.fuses.variant, polT := 100, polF := Config.clkMax s.fuses.variant }
  sched := { State.resetSched with
    nextId := s.sched.nextId, subs := s.sched.subs, dones := s.sched.dones, fails := s.sched.fails
    budgets := resetBudgets { s.sched with budgets := g } }
  codec := { s.codec with enc := [], dec := [] }
  fab := resetFabric s.fab
  mgmt := { s.mgmt with update := none }
  mem := { s.mem with bytes := b, wc := [], owed := [], selfRef := List.range 8, eccMode := false, sealEn := false, sealBase := 0 }
  bu := { s.bu with
    auto := true, step := 1, phase := 0, code := 0, skipped := 0, reject := false, warm := true, fwBase := 0, images := [], cellFw := []
    waves := 0, wavesOn := false, lastWave := 0, castling := [], withdrawn := [], recovering := true, mpRunning := false
    stopped := true, lostArg := none, restart := none }
  recov := some ⟨s.host.rings, s.host.ctx, s.cache, s.pwr.polP, s.pwr.polT, s.pwr.polF, g, s.sched.jobs, s.fab⟩ }

/-- The hub's reset of a state with memory settled. -/
theorem resetHub_settledTo (b : Sparse Byte) (g : Sparse Budget) (r : Option RecArea) : (resetHub (settledTo s b g)).setRecov r =
    { warmed s b g with recov := r } := by
  unfold warmed resetHub settledTo
  dsimp only [State.setHost, State.setCache, State.setPwr, State.setSched, State.setCodec, State.setFab, State.setMgmt, State.setMem,
    State.setBu, State.setRecov]

/-- In clean memory a warm start settles memory without a change that reads see. -/
theorem warmStart_clean (clean : memClean s) (noFixes : s.mem.fixes = []) (fresh : s.recov = none)
    (ok : Starts.operating s.pwr.p48v = true) :
    ∃ b g, (∀ x, byteOf (warmed s b g) x = byteOf s x) ∧ warmStart s = warmed s b g := by
  obtain ⟨b, g, settles, bytes⟩ := settleMemory_clean clean noFixes
  have settled : settleMemory s = settledTo s b g := settles
  refine ⟨b, g, fun x => show byteOf (settledTo s b g) x = _ from settled ▸ bytes x, ?_⟩
  rw [warmStart, settled, keptArea_settledTo fresh, resetHub_settledTo, Starts.startStep_runs (by exact ok) (.inl (by decide))]
  rfl

/-! ### The restoration -/

theorem restoreBudgets_frame : ∀ (l : Sparse Budget) (c : Sched), ∃ b, restoreBudgets l c = { c with budgets := b }
  | [], c => ⟨c.budgets, rfl⟩
  | (k, x) :: l, c => by
    obtain ⟨b, rest⟩ := restoreBudgets_frame l { c with budgets := Sparse.put c.budgets k { budgetAt c k with
      limTxn := x.limTxn, limNj := x.limNj, newTxn := x.newTxn, newNj := x.newNj } }
    exact ⟨b, rest⟩

/-- Without open records none is written. -/
theorem endRecords_idle (none : ∀ q < 16, openRecords s q = []) : endRecords s = s := by
  have each : ∀ l : List Nat, (∀ q ∈ l, q < 16) →
      l.foldl (fun s q => (openRecords s q).foldl (fun s n => Fab.opqDone s q n 0x0505 0 0) s) s = s := by
    intro l small
    induction l with
    | nil => rfl
    | cons q l ih =>
      rw [List.foldl_cons, none q (small q List.mem_cons_self)]
      exact ih fun k hk => small k (List.mem_cons_of_mem _ hk)
  exact each _ fun q => List.mem_range.1

/-- Without a busy mailbox no command is answered. -/
theorem endCommands_idle (idle : ∀ e ∈ s.host.mbox, e.2.busy = false) : endCommands s = s := by
  have none : (s.host.mbox.filter fun (f, m) => m.busy && !s.host.held.any (·.1 == f)) = [] := by
    rw [List.filter_eq_nil_iff]
    intro e he
    simp [idle e he]
  rw [endCommands, none]
  rfl

theorem notifyBack_none (up : s.bu.downFrom = none) : notifyBack s = s := by rw [notifyBack, up]

/-- The state that has its rings, contexts, cache, policies and budgets back. -/
def givenBack (s : State) (r : RecArea) (b : Sparse Budget) : State := { s with
  host := { s.host with rings := r.rings.map fun e => (e.1, restoreRing e.2), ctx := r.ctx }
  cache := r.cache
  pwr := { s.pwr with polP := r.polP, polT := r.polT, polF := r.polF }
  sched := { s.sched with budgets := b } }

/-- What the restoration does once the area is back: jobs, records and commands end. -/
def closeAll (s : State) (js : List Job) : State :=
  let u := notifyBack (Finish.resetsDone (endCommands (endRecords (endJobs (s.setRecov none) js))))
  u.setBu { u.bu with recovering := false, downFrom := none }

theorem restore_givenBack (s : State) (r : RecArea) : ∃ b, restore s r = closeAll (givenBack s r b) r.jobs := by
  obtain ⟨b, budgets⟩ := restoreBudgets_frame r.budgets s.sched
  obtain ⟨c, blitz, -⟩ := Mbox.blitzBudgets_frame (givenBack s r b)
  refine ⟨c, ?_⟩
  have runs : restore s r = closeAll (Mbox.blitzBudgets ((givenBack s r b).setSched (restoreBudgets r.budgets s.sched))) r.jobs := by
    unfold restore closeAll
    generalize Mbox.blitzBudgets = f, notifyBack = n, Finish.resetsDone = d, endRecords = e
    rfl
  have given : Mbox.blitzBudgets ((givenBack s r b).setSched (restoreBudgets r.budgets s.sched)) = givenBack s r c := by
    rw [budgets]
    exact blitz
  rw [runs, given]

/-- With no job, record, command or reset open nothing ends. -/
theorem closeAll_idle (records : ∀ q < 16, openRecords s q = []) (commands : ∀ e ∈ s.host.mbox, e.2.busy = false)
    (free : s.host.resetting = []) (up : s.bu.downFrom = none) :
    closeAll s [] = { s with recov := none, bu := { s.bu with recovering := false, downFrom := none } } := by
  have records' : endRecords (s.setRecov none) = s.setRecov none := endRecords_idle records
  have commands' : endCommands (s.setRecov none) = s.setRecov none := endCommands_idle commands
  have resets : Finish.resetsDone (s.setRecov none) = s.setRecov none := Finish.resetsDone_none _ rfl free
  have back : notifyBack (s.setRecov none) = s.setRecov none := notifyBack_none up
  unfold closeAll
  rw [show endJobs (s.setRecov none) [] = s.setRecov none from rfl, records', commands', resets, back]
  rfl

end Recov

theorem exec_warmStart (ordered : s.bu.lostArg.isSome = true ∨ s.bu.restart = some true) (done : Recov.hubsDone s.sched = true) :
    exec (.warmStart t) s = .next (Recov.warmStart (tick s t)) := by
  refine if_pos (?_ : (Recov.ordered s.bu && Recov.hubsDone s.sched) = true)
  rw [done, Bool.and_true, Recov.ordered]
  obtain fault | restart := ordered
  · rw [fault]; rfl
  · rw [restart]; simp

theorem exec_recoveryRestore {r : RecArea} (area : s.recov = some r) (ready : Mbox.ready s = true) :
    exec (.recoveryRestore t) s = .next (Recov.restore (tick s t) r) := by
  have area' : (tick s t).recov = some r := area
  show execRecoveryRestore t s = _
  unfold execRecoveryRestore
  dsimp only
  rw [area']
  exact if_pos ready

theorem exec_recoveryCutBound (fault : s.bu.lostArg.isSome = true) (late : Recov.detected s.bu + 50000000 ≤ max s.now t) :
    exec (.recoveryCutBound t) s = .next (Recov.cutAll (tick s t)) :=
  if_pos (by rw [Bool.and_eq_true]; exact ⟨fault, decide_eq_true late⟩)

/-- Settles O49: a fault's two outcomes, the warm start in settled memory, and the restoration of its area. -/
theorem moduleLostFaultsAndRecovery : Obligations.ModuleLostFaultsAndRecovery := by
  intro s t ok u rep young' lost
  have fault : ∀ a, lost (.next (Recov.moduleLost u a)) a := by
    refine fun a => ⟨fun warm few => ?_, fun cold => ?_⟩
    · obtain ⟨g, m, n, runs⟩ := Recov.moduleLost_warm (s := u) a warm few
      exact ⟨g, m, n, congrArg Host.Outcome.next runs⟩
    · obtain ⟨v, runs, leaves⟩ := Recov.moduleLost_cold_leaves (s := u) a ok cold
      exact ⟨v, congrArg Host.Outcome.next runs, leaves⟩
  refine ⟨fun w => fault _, fun k => fault _, fun k => fault _, fun ordered done clean noFixes fresh => ?_,
    fun r area ready => ⟨exec_recoveryRestore area ready, fun noJobs records commands free up => ?_⟩, exec_recoveryCutBound, rfl⟩
  · obtain ⟨b, g, bytes, starts⟩ := Recov.warmStart_clean (s := u) clean noFixes fresh ok
    rw [exec_warmStart ordered done, starts]
    exact ⟨Recov.warmed u b g, _, rfl, rfl, rfl, rfl, rfl, rfl, rfl, rfl, rfl, rfl, bytes, clean.1, rfl, rfl, rfl, rfl, rfl, rfl, rfl, rfl, rfl, rfl, rfl, rfl,
      rfl, rfl, rfl, rfl, rfl, rfl, rfl, rfl, rfl, rfl, rfl, rfl, rfl⟩
  · obtain ⟨b, restores⟩ := Recov.restore_givenBack u r
    rw [noJobs, Recov.closeAll_idle (s := Recov.givenBack u r b) records commands free up] at restores
    exact ⟨_, (exec_recoveryRestore area ready).trans (congrArg Host.Outcome.next restores), rfl⟩

end Machine
end Sys2Proof
end

section
/-! PROOF. Castling, overlong steps, stores and cables (spec/17_bring_up.md, spec/18_reliability_and_recovery.md R418 to R434,
spec/20_power_thermal_measurement.md R469, spec/21_management_identity_debug.md R480). -/

namespace Sys2Proof
namespace Machine

open Bits Ops JobOps

variable {s : State} {t : Nat}

/-! ### Castling -/

namespace Castle

/-- The positions of row i that its due castlings free. -/
def freed (s : State) (i : Nat) : List Nat := (due s.bu i).flatMap (·.lids)

/-- The bring-up state with the cells ps given firmware version v and a pass at time n. -/
def served (b : BringUp) (ps : List Nat) (v : Word) (n : Nat) : BringUp :=
  { b with cellFw := ps.foldl (fun m p => Sparse.put m p v) b.cellFw, kat := ps.foldl (fun m p => Sparse.put m p n) b.kat }

theorem served_foldl (v : Word) (n : Nat) : ∀ (ps : List Nat) (b : BringUp),
    ps.foldl (fun b p => { b with cellFw := Sparse.put b.cellFw p v, kat := Sparse.put b.kat p n }) b = served b ps v n
  | [], _ => rfl
  | p :: ps, b => served_foldl v n ps { b with cellFw := Sparse.put b.cellFw p v, kat := Sparse.put b.kat p n }

/-- The map change of a row where no cell fails. -/
theorem change_passes (i : Nat) {m : Sparse Nat} (map : (due s.bu i).foldl (fun b e => setOut b i e.col) s.bu = { s.bu with outMap := m }) :
    change s i [] = Bring.chargeFetch (s.setBu (served { s.bu with
        outMap := m
        castling := s.bu.castling.map fun e => if e.row = i then { e with mapped := true } else e }
      (((freed s i).eraseDups).filterMap (Starts.physOf m)) (Bring.versions s.bu).2.1 (ptpTime s)))
      (((freed s i).eraseDups).filterMap (Starts.physOf m)).length := by
  have all : ∀ l : List Nat, l.filter (fun p => !(([] : List (Nat × Option (Word × Word))).filter fun e =>
      l.contains (Starts.physIdx (i / 16) (i % 16) e.1)).any fun e => Starts.physIdx (i / 16) (i % 16) e.1 == p) = l :=
    fun l => List.filter_eq_self.2 fun _ _ => rfl
  unfold change
  dsimp only
  rw [map]
  dsimp only
  rw [all, served_foldl]
  rfl

end Castle

theorem exec_castlingMapChange {i : Nat} (due : Castle.due s.bu i ≠ []) (vacated : Castle.vacated s (Castle.freed s i) = true) :
    exec (.castlingMapChange i []) s = .next (Castle.change s i []) := by
  have pending : (Castle.due s.bu i).isEmpty = false := by simpa using due
  exact if_neg (show ¬((Castle.due s.bu i).isEmpty || !Castle.vacated s (Castle.freed s i)) = true by rw [pending, vacated]; decide)

/-! ### Overlong steps -/

section
variable {j g d : Nat} {x : Job} {c : CellRun} {f : Flight} (found : find s.sched j = some x) (cell : Sparse.get? x.cells g = some c)
  (flight : c.flights.find? (·.d == d) = some f)
include found cell flight

theorem exec_overlongStepTimeout : exec (.overlongStepTimeout j g d) s =
    if x.faults.contains ⟨0x0302, some g, d, f.n, x.epoch⟩ then
      .next (Castle.declare (log (abandon s j g d) x 0x0302 (x.lid g) 2 0 (x.lid g) (removes := true)) (x.lid g))
    else .next (fault (abandon s j g d) j ⟨0x0302, some g, d, f.n, x.epoch⟩ (x.lid g) (x.lid g) 0 (x.lid g)) := by
  have step : ((Sparse.get? x.cells g).bind fun c => c.flights.find? (·.d == d)) = some f := by rw [cell]; exact flight
  show execOverlongStepTimeout j g d s = _
  rw [execOverlongStepTimeout, found]
  dsimp only
  rw [step]

theorem overlong_first (new : (⟨0x0302, some g, d, f.n, x.epoch⟩ : FaultKey) ∉ x.faults) : exec (.overlongStepTimeout j g d) s =
    .next (fault (abandon s j g d) j ⟨0x0302, some g, d, f.n, x.epoch⟩ (x.lid g) (x.lid g) 0 (x.lid g)) :=
  (exec_overlongStepTimeout found cell flight).trans (if_neg (by simpa using new))

theorem overlong_again (old : (⟨0x0302, some g, d, f.n, x.epoch⟩ : FaultKey) ∈ x.faults) : exec (.overlongStepTimeout j g d) s =
    .next (Castle.declare (log (abandon s j g d) x 0x0302 (x.lid g) 2 0 (x.lid g) (removes := true)) (x.lid g)) :=
  (exec_overlongStepTimeout found cell flight).trans (if_pos (by simpa using old))

end

/-! ### Stores -/

namespace Starts

theorem wantStore_now (k : StoreKind) (may : storeOk s.pwr t = true) : wantStore s t k = runStore s k := if_pos may
theorem wantStore_waits (k : StoreKind) (wait : storeOk s.pwr t = false) : wantStore s t k = s.setPwr { s.pwr with
    deferred := true, waiting := if s.pwr.waiting.contains k then s.pwr.waiting else s.pwr.waiting ++ [k] } :=
  if_neg (by rw [wait]; decide)

theorem newerMask_first {f : Flash} (valid : f.mask0.valid = true) (newer : f.mask1.valid = false ∨ f.mask1.seq ≤ f.mask0.seq) :
    newerMask f = some f.mask0 := by
  refine if_pos ?_
  rw [valid, Bool.true_and, Bool.or_eq_true]
  exact newer.imp (fun h => by rw [h]; rfl) decide_eq_true

theorem newerMask_second {f : Flash} (valid : f.mask1.valid = true) (newer : f.mask0.seq < f.mask1.seq) :
    newerMask f = some f.mask1 := by
  refine (if_neg ?_).trans (if_pos valid)
  rw [valid]
  simp only [Bool.not_true, Bool.false_or, Bool.and_eq_true, decide_eq_true_eq]
  omega

/-- The flash with copy 0 or copy 1 of the field mask, and the service record, written. -/
def masked0 (f : Flash) (c : MaskCopy) (ident : Bytes) : Flash := { f with mask0 := c, ident := ident }
def masked1 (f : Flash) (c : MaskCopy) (ident : Bytes) : Flash := { f with mask1 := c, ident := ident }

/-- The identity memory with the service record of now. -/
def identStored (s : State) : Bytes :=
  splice s.flash.ident 0x40 (serviceRecord (ptpTime s) (cellsOut s.bu.outMap) (cellsReduced s.bu.outMap))

theorem runStore_mask_blank (blank : newerMask s.flash = none) : runStore s .fieldMask =
    { s with flash := masked0 s.flash ⟨1, true, s.bu.fieldMask⟩ (identStored s), bu := { s.bu with maskDirty := false } } := by
  unfold runStore
  dsimp only
  rw [blank]
  rfl

variable {c : MaskCopy} (newer : newerMask s.flash = some c)
include newer

theorem runStore_mask_after0 (first : c = s.flash.mask0) : runStore s .fieldMask =
    { s with flash := masked1 s.flash ⟨(c.seq + 1) % 2 ^ 32, true, s.bu.fieldMask⟩ (identStored s), bu := { s.bu with maskDirty := false } } := by
  unfold runStore
  dsimp only
  rw [newer]
  dsimp only
  rw [if_pos (decide_eq_true first)]
  rfl

theorem runStore_mask_after1 (second : c ≠ s.flash.mask0) : runStore s .fieldMask =
    { s with flash := masked0 s.flash ⟨(c.seq + 1) % 2 ^ 32, true, s.bu.fieldMask⟩ (identStored s), bu := { s.bu with maskDirty := false } } := by
  unfold runStore
  dsimp only
  rw [newer]
  dsimp only
  rw [if_neg (fun h => second (of_decide_eq_true h))]
  rfl

end Starts

theorem exec_flashLogStore (some : s.log.toFlash ≠ []) : exec (.flashLogStore t) s = .next (Starts.wantStore (tick s t) t .flashLog) :=
  if_neg (show ¬s.log.toFlash.isEmpty = true by simpa using some)
theorem exec_fieldMaskStore (dirty : s.bu.maskDirty = true) : exec (.fieldMaskStore t) s = .next (Starts.wantStore (tick s t) t .fieldMask) :=
  if_pos dirty

/-- The mask overwrites the older copy with the next sequence number. -/
theorem fieldMaskStore_writes (may : Starts.storeOk s.pwr t = true) (dirty : s.bu.maskDirty = true) :
    ∃ v : Flash, exec (.fieldMaskStore t) s = .next { tick s t with flash := v, bu := { s.bu with maskDirty := false } } ∧
      v = { s.flash with mask0 := v.mask0, mask1 := v.mask1, ident := v.ident } ∧
      (Starts.newerMask s.flash = none → Starts.newerMask v = some ⟨1, true, s.bu.fieldMask⟩) ∧
      ∀ c, Starts.newerMask s.flash = some c → c.seq + 1 < 2 ^ 32 → Starts.newerMask v = some ⟨c.seq + 1, true, s.bu.fieldMask⟩ ∧
        (c = v.mask0 ∨ c = v.mask1) := by
  rw [exec_fieldMaskStore dirty, Starts.wantStore_now (s := tick s t) .fieldMask may]
  cases newer : Starts.newerMask s.flash with
  | none =>
    have runs := Starts.runStore_mask_blank (s := tick s t) newer
    obtain ⟨-, invalid⟩ := Starts.newerMask_none newer
    exact ⟨_, congrArg Host.Outcome.next runs, rfl, fun _ => Starts.newerMask_first rfl (.inl invalid), nofun⟩
  | some c =>
    obtain ⟨valid, which⟩ := Starts.newerMask_some newer
    by_cases first : c = s.flash.mask0
    · have runs := Starts.runStore_mask_after0 (s := tick s t) newer first
      refine ⟨_, congrArg Host.Outcome.next runs, rfl, nofun, fun d hd room => ?_⟩
      cases hd
      rw [Nat.mod_eq_of_lt room]
      exact ⟨Starts.newerMask_second rfl (show s.flash.mask0.seq < c.seq + 1 by rw [← first]; omega), .inl first⟩
    · have runs := Starts.runStore_mask_after1 (s := tick s t) newer first
      have second : c = s.flash.mask1 := which.resolve_left first
      refine ⟨_, congrArg Host.Outcome.next runs, rfl, nofun, fun d hd room => ?_⟩
      cases hd
      rw [Nat.mod_eq_of_lt room]
      exact ⟨Starts.newerMask_first rfl (.inr (show s.flash.mask1.seq ≤ c.seq + 1 by rw [← second]; omega)), .inr second⟩

/-! ### Cables -/

theorem exec_cablePoll_off {c : Nat} {a : Cable} (off : s.ident.vcblOff.contains c = true ∨ s.ident.pinMode ≠ 0) :
    exec (.cablePoll t c (some a)) s =
      .next { tick s t with ident := { s.ident with cables := Sparse.put s.ident.cables c (false, false, 0, 0) } } :=
  if_pos (show (s.ident.vcblOff.contains c || s.ident.pinMode != 0) = true by simpa using off)

theorem exec_cablePoll_on {c : Nat} {a : Cable} (on : s.ident.vcblOff.contains c = false) (pins : s.ident.pinMode = 0) :
    exec (.cablePoll t c (some a)) s = .next (if (Sparse.getD s.ident.cables c (false, false, 0, 0)).1 then tick s t
      else { tick s t with ident := { s.ident with cables := Sparse.put s.ident.cables c (Bring.readCable s.bu (some a)) } }) := by
  refine (if_neg (show ¬(s.ident.vcblOff.contains c || s.ident.pinMode != 0) = true by rw [on, pins]; decide)).trans ?_
  show (if (Sparse.getD s.ident.cables c (false, false, 0, 0)).1 = true then Host.Outcome.next (tick s t) else _) = _
  cases (Sparse.getD s.ident.cables c (false, false, 0, 0)).1 <;> rfl

/-- Settles O50: the castling's map change and return, the overlong step's two cases, the stores and the cables. -/
theorem castlingStoresAndCables : Obligations.CastlingStoresAndCables := by
  intro s t
  refine ⟨fun i due vacated => ?_, fun i => rfl, fun j g d x c f found cell flight => ⟨overlong_first found cell flight, overlong_again found cell flight⟩,
    fun may => ⟨fun some => ?_, fieldMaskStore_writes may⟩, ⟨fun some wait => ?_, fun dirty wait => ?_⟩,
    fun c => ⟨rfl, fun a => exec_cablePoll_off, fun a => exec_cablePoll_on, rfl⟩⟩
  · obtain ⟨m, map, set, others⟩ := Castle.setOut_foldl i (Castle.due s.bu i) s.bu
    rw [exec_castlingMapChange due vacated, Castle.change_passes i map, map]
    refine ⟨_, rfl, rfl, fun e he _ => set _ (.inr ⟨e, he, rfl⟩), others, fun p hp => ⟨?_, ?_⟩, fun p hp => ⟨?_, ?_⟩⟩
    · exact (Castle.get_puts _ _ _ _).trans (if_pos hp)
    · exact (Castle.get_puts _ _ _ _).trans (if_pos hp)
    · exact (Castle.get_puts _ _ _ _).trans (if_neg hp)
    · exact (Castle.get_puts _ _ _ _).trans (if_neg hp)
  · exact (exec_flashLogStore some).trans (congrArg Host.Outcome.next (Starts.wantStore_now (s := tick s t) .flashLog may))
  · exact (exec_flashLogStore some).trans (congrArg Host.Outcome.next (Starts.wantStore_waits (s := tick s t) .flashLog wait))
  · exact (exec_fieldMaskStore dirty).trans (congrArg Host.Outcome.next (Starts.wantStore_waits (s := tick s t) .fieldMask wait))

end Machine
end Sys2Proof
end

section
/-! PROOF. Claims of values: request, answer and timeout (spec/05_loop_tables_and_fusion.md R128 to R131). -/

namespace Sys2Proof
namespace Machine

open Bits Ops JobOps

namespace JobOps

/-- A job put in its own place stands there, and no other job changes. -/
theorem set_stands {b : State} {j : Nat} {x y : Job} (found : find b.sched j = some x) (own : y.id = j) :
    find (set b y).sched j = some y ∧ ∀ z : Job, z.id ≠ j → (z ∈ (set b y).sched.jobs ↔ z ∈ b.sched.jobs) :=
  ⟨find_put found own, fun _ other => mem_put (by rw [own]; exact other)⟩

theorem find_of_jobs {c d : Sched} {j : Nat} {x : Job} (found : find c j = some x) (same : d.jobs = c.jobs) : find d j = some x := by
  unfold find at *
  rw [same]
  exact found

theorem logs_jobs {s b : State} {r : Report} (logged : logs s b r) : b.sched.jobs = s.sched.jobs := by
  rw [logged.2]
  rfl

/-- The record of a job's event. -/
theorem log_logs (s : State) (x : Job) (st src a0 a1 : Nat) :
    logs s (log s x st src 0 a0 a1) { status := st, source := src, fn := x.fn, arg0 := a0, arg1 := a1, relanes := x.relanes } :=
  logEvent_logs _ _

end JobOps

namespace Cells

variable {s : State} {j g tag : Nat} {x : Job} {c : CellRun}

/-- The cell with an answer on its way. -/
def answered (c : CellRun) (tag v : Nat) : CellRun := { c with answers := c.answers ++ [(tag, v)] }

section
variable (found : find s.sched j = some x) (cell : cellOf x g = some c) (f : CellRun → CellRun)
include found cell

/-- A new tag takes VALUE, which counts on. -/
theorem claimArrives_new (new : (wcOwner s.sched x g).1 ≠ tag) (none : x.reclaim = []) : claimArrives s x g tag f =
    set (s.setSched (wcSetValue (wcSetOwner s.sched x g tag (wcValue s.sched x)) x (wcValue s.sched x + 1)))
      (putCell x g (answered (f c) tag (wcValue s.sched x))) := by
  have stands : find (s.setSched (wcSetValue (wcSetOwner s.sched x g tag (wcValue s.sched x)) x (wcValue s.sched x + 1))).sched x.id = some x := by
    rw [find_id found]
    exact found
  unfold claimArrives atomicClaim
  dsimp only
  rw [if_neg new, none]
  dsimp only
  rw [if_neg Bool.false_ne_true, upd_found stands, cell]
  rfl

/-- A value to run again goes first. -/
theorem claimArrives_reclaims (new : (wcOwner s.sched x g).1 ≠ tag) {v : Nat} {r : List Nat} (values : x.reclaim = v :: r) :
    claimArrives s x g tag f = set (set (s.setSched (wcSetOwner s.sched x g tag v)) { x with reclaim := r })
      (putCell { x with reclaim := r } g (answered (f c) tag v)) := by
  have stands : find (set (s.setSched (wcSetOwner s.sched x g tag v)) { x with reclaim := r }).sched x.id = some { x with reclaim := r } :=
    find_put (by rw [find_id found]; exact found) rfl
  have cell' : cellOf { x with reclaim := r } g = some c := cell
  unfold claimArrives atomicClaim
  dsimp only
  rw [if_neg new, values]
  dsimp only
  rw [if_neg Bool.false_ne_true, upd_found stands, cell']
  rfl

/-- A tag that stands in OWNER is answered from there, with a record. -/
theorem claimArrives_repeats (old : (wcOwner s.sched x g).1 = tag) : claimArrives s x g tag f =
    set (log s x 0x0303 (x.lid g) 0 (wcOwner s.sched x g).2 (x.lid g)) (putCell x g (answered (f c) tag (wcOwner s.sched x g).2)) := by
  have logged := log_logs s x 0x0303 (x.lid g) (wcOwner s.sched x g).2 (x.lid g)
  have stands : find (log s x 0x0303 (x.lid g) 0 (wcOwner s.sched x g).2 (x.lid g)).sched x.id = some x :=
    find_of_jobs (by rw [find_id found]; exact found) (logs_jobs logged)
  unfold claimArrives atomicClaim
  dsimp only
  rw [if_pos old]
  dsimp only
  rw [if_pos rfl, upd_found stands, cell]
  rfl

end

end Cells

section
variable {s : State} {j g : Nat} {x : Job} {c : CellRun} (found : find s.sched j = some x) (cell : Cells.cellOf x g = some c)
include found cell

theorem exec_claimRequest_new (none : c.sent = []) (live : JobOps.live x = true) (on : s.bu.stopped = false)
    (wants : Cells.wantsValue x c = true) : exec (.claimRequest j g) s =
      .next (Cells.claimArrives s x g c.tag fun c => { c with tag := (c.tag + 1) % 65536, ask := some ⟨c.tag, 0⟩ }) := by
  show execClaimRequest j g s = _
  unfold execClaimRequest
  rw [found]; dsimp only
  rw [cell]; dsimp only
  rw [none]; dsimp only
  rw [live, on, wants]
  rfl

theorem exec_claimRequest_resent {tag : Nat} {r : List Nat} (sent : c.sent = tag :: r) (on : s.bu.stopped = false) :
    exec (.claimRequest j g) s = .next (Cells.claimArrives s x g tag fun c => { c with sent := r }) := by
  show execClaimRequest j g s = _
  unfold execClaimRequest
  rw [found]; dsimp only
  rw [cell]; dsimp only
  rw [sent]; dsimp only
  rw [on, if_neg Bool.false_ne_true]

theorem exec_claimAnswer_first {tag v : Nat} {r : List (Nat × Nat)} (answers : c.answers = (tag, v) :: r) {a : Machine.Ask} (asked : c.ask = some a)
    (own : a.tag = tag) : exec (.claimAnswer j g) s = .next (set s (Cells.putCell x g
      (if Cells.claimBound x ≤ v then { c with answers := r, ask := none, ended := true }
       else { c with answers := r, ask := none, vals := c.vals ++ [v] }))) := by
  show execClaimAnswer j g s = _
  unfold execClaimAnswer
  rw [found]; dsimp only
  rw [cell]; dsimp only
  rw [answers]; dsimp only
  rw [asked]; dsimp only
  rw [if_pos own]

theorem exec_claimAnswer_other {tag v : Nat} {r : List (Nat × Nat)} (answers : c.answers = (tag, v) :: r)
    (other : ∀ a, c.ask = some a → a.tag ≠ tag) : exec (.claimAnswer j g) s = .next (set s (Cells.putCell x g { c with answers := r })) := by
  show execClaimAnswer j g s = _
  unfold execClaimAnswer
  rw [found]; dsimp only
  rw [cell]; dsimp only
  rw [answers]; dsimp only
  cases asked : c.ask with
  | none => rfl
  | some a =>
    dsimp only
    rw [if_neg (other a asked)]

theorem exec_meshTimeout_claim {a : Machine.Ask} (asked : c.ask = some a) (left : a.tries < 7) : exec (.meshTimeout j g) s = .next (set s
    (Cells.putCell x g { c with ask := some { a with tries := a.tries + 1 }, sent := c.sent ++ [a.tag] })) := by
  show execMeshTimeout j g s = _
  unfold execMeshTimeout
  rw [found]; dsimp only
  rw [cell]; dsimp only
  rw [asked]; dsimp only
  rw [if_pos left]

end

/-- Settles O51: a request arrives by one of the three claimArrives laws; answers and timeouts change the cell alone. -/
theorem claimsFollowTheProtocol : Obligations.ClaimsFollowTheProtocol := by
  intro s j g x c found cell owner value only quiet rep served
  have own := find_id found
  have arrives : ∀ (tag : Nat) (f : CellRun → CellRun), served (.next (Cells.claimArrives s x g tag f)) tag (f c) := by
    refine fun tag f => ⟨fun new none => ?_, fun new v r values => ?_, fun old => ?_⟩
    · rw [Cells.claimArrives_new found cell f new none]
      exact ⟨_, rfl, rfl, set_stands (find_of_jobs found rfl) own⟩
    · rw [Cells.claimArrives_reclaims found cell f new values]
      have first := set_stands (b := s.setSched (wcSetOwner s.sched x g tag v)) (y := { x with reclaim := r }) (find_of_jobs found rfl) own
      have second := set_stands (y := Cells.putCell { x with reclaim := r } g (Cells.answered (f c) tag v)) first.1 own
      exact ⟨_, rfl, rfl, second.1, fun z other => (second.2 z other).trans (first.2 z other)⟩
    · rw [Cells.claimArrives_repeats found cell f old]
      have logged := log_logs s x 0x0303 (x.lid g) (wcOwner s.sched x g).2 (x.lid g)
      generalize log s x 0x0303 (x.lid g) 0 (wcOwner s.sched x g).2 (x.lid g) = b at logged
      have jobs := logs_jobs logged
      have stands := set_stands (y := Cells.putCell x g (Cells.answered (f c) tag (wcOwner s.sched x g).2)) (find_of_jobs found jobs) own
      exact ⟨b, _, rfl, logged, rfl, stands.1, fun z other => (stands.2 z other).trans (by rw [jobs])⟩
  refine ⟨fun none live on wants => ?_, fun tag r sent on => ?_, fun tag v r answers => ⟨fun a => exec_claimAnswer_first found cell answers,
    exec_claimAnswer_other found cell answers⟩, fun a => exec_meshTimeout_claim found cell⟩
  · rw [exec_claimRequest_new found cell none live on wants]
    exact arrives c.tag fun c => { c with tag := (c.tag + 1) % 65536, ask := some ⟨c.tag, 0⟩ }
  · rw [exec_claimRequest_resent found cell sent on]
    exact arrives tag fun c => { c with sent := r }

end Machine
end Sys2Proof
end

section
/-! PROOF. Tile steps at the cells: issue, completion, chain sums, blocks, softmax, SCAT rows and iterations
(spec/02_streams_and_stations.md R37 to R57, spec/03_espalier_array.md R66, R67). -/

namespace Sys2Proof
namespace Machine

open Bits Ops JobOps

variable {s : State} {j g d : Nat} {x : Job} {c : CellRun} {f : Flight}

/-! ### Issue -/

namespace Cells

theorem together_single (alone : ¬(x.espalier = true ∧ Desc.station (x.descAt d) = Desc.mat)) : together x g d = [g] := if_neg alone

/-- A step that no espalier MAT issues starts with no rows to feed. -/
theorem matFlight0_plain (alone : ¬(x.espalier = true ∧ Desc.station (x.descAt d) = Desc.mat)) (n : Nat) :
    matFlight0 x c g d n = flight0 d n 0 0 := by
  have no : (x.espalier && Desc.station (x.descAt d) == Desc.mat) = false := by
    rw [Bool.eq_false_iff, ne_eq, Bool.and_eq_true, beq_iff_eq]
    exact alone
  rw [matFlight0, no]
  rfl

/-- Outside the espalier no row is fed. -/
theorem feed_plain (plain : x.espalier = false) (k : Nat) (c : CellRun) : feed x g k c = c := by
  cases k with
  | zero => rfl
  | succ k =>
    rw [feed]
    cases matFlight x c with
    | none => rfl
    | some f => rw [plain]; rfl

/-- Two cells that differ in slots, error patterns and buffer alone. -/
def BufferOnly (c k : CellRun) : Prop := k = { c with slots := k.slots, errs := k.errs, buf := k.buf }

theorem fixUnit_bufferOnly (c : CellRun) (u : Nat) : BufferOnly c (fixUnit c u) := by
  unfold BufferOnly fixUnit
  dsimp only
  split
  · rfl
  · split
    · split
      · rfl
      · rfl
    · rfl

/-- Without an error pattern a unit is left as it is. -/
theorem fixUnit_clean (clean : c.errs = []) (u : Nat) : fixUnit c u = c := by
  unfold fixUnit leftOf
  rw [clean]
  show ({ c with errs := [] } : CellRun) = c
  rw [← clean]

theorem fixUnits_bufferOnly : ∀ (l : List Nat) (c : CellRun), BufferOnly c (l.foldl fixUnit c)
  | [], c => rfl
  | u :: l, c => by
    have first := fixUnit_bufferOnly c u
    have rest := fixUnits_bufferOnly l (fixUnit c u)
    unfold BufferOnly at *
    rw [List.foldl_cons]
    generalize l.foldl fixUnit (fixUnit c u) = k at rest
    rw [rest, first]

theorem fixUnits_clean (clean : c.errs = []) : ∀ l : List Nat, l.foldl fixUnit c = c
  | [] => rfl
  | u :: l => by rw [List.foldl_cons, fixUnit_clean clean]; exact fixUnits_clean clean l

theorem filter_flights_issued (c : CellRun) (d n : Nat) :
    (c.flights ++ [flight0 d n 0 0]).filter (fun f => !(f.d == d && f.n == n)) = c.flights.filter fun f => !(f.d == d && f.n == n) := by
  rw [List.filter_append]
  simp [flight0]

/-- The cell of a step that is issued has it counted, and in flight once. -/
theorem issued_bufferOnly (y : Job) (c : CellRun) (g d n : Nat) : BufferOnly { c with
      flights := c.flights.filter (fun f => !(f.d == d && f.n == n)) ++ [flight0 d n 0 0], issued := Sparse.put c.issued d (n + 1) }
    (issued y { c with flights := c.flights ++ [flight0 d n 0 0] } g d (flight0 d n 0 0)) := by
  have flights := filter_flights_issued c d n
  have number : (flight0 d n 0 0).n = n := rfl
  generalize flight0 d n 0 0 = q at flights number ⊢
  unfold BufferOnly issued fillSlots dropFlight
  dsimp only
  generalize operandUnits _ _ _ _ _ = l
  rw [fixUnits_bufferOnly l { c with flights := c.flights ++ [q] }]
  dsimp only
  rw [number, flights]

/-- Where no error pattern stands, the buffer is kept. -/
theorem issued_clean (none : c.errs = []) (y : Job) (q : Flight) (g d : Nat) :
    (issued y { c with flights := c.flights ++ [q] } g d q).errs = [] ∧ (issued y { c with flights := c.flights ++ [q] } g d q).buf = c.buf := by
  unfold issued fillSlots
  dsimp only
  rw [fixUnits_clean (c := { c with flights := c.flights ++ [q] }) none]
  exact ⟨none, rfl⟩

/-- A job whose cell g is replaced twice: only that cell changes, and no other job. -/
theorem set_cell_twice (found : find s.sched j = some x) (c k : CellRun) :
    let y := putCell (putCell x g c) g k
    let t := set (set s (putCell x g c)) y
    find t.sched j = some y ∧ y = { x with cells := y.cells } ∧ cellOf y g = some k ∧ (∀ i, i ≠ g → cellOf y i = cellOf x i) ∧
      (∀ z : Job, z.id ≠ j → (z ∈ t.sched.jobs ↔ z ∈ s.sched.jobs)) ∧ t = { s with sched := { s.sched with jobs := t.sched.jobs } } := by
  have own : x.id = j := find_id found
  have before := set_stands (y := putCell x g c) found own
  have after := set_stands (y := putCell (putCell x g c) g k) before.1 own
  exact ⟨after.1, rfl, Sparse.get_put_self .., fun i other => (Sparse.get_put_ne _ other _).trans (Sparse.get_put_ne _ other _),
    fun z other => (after.2 z other).trans (before.2 z other), rfl⟩

/-- A step of a compute station is put in flight at its cell. -/
theorem issueAt_compute (found : find s.sched j = some x) (cell : cellOf x g = some c) (noLoad : Desc.station (x.descAt d) ≠ Desc.load)
    (noStore : Desc.station (x.descAt d) ≠ Desc.store) (alone : ¬(x.espalier = true ∧ Desc.station (x.descAt d) = Desc.mat)) :
    let q := flight0 d (nextStep c d) 0 0
    let y := putCell x g { c with flights := c.flights ++ [q] }
    issueAt s j d g = set (set s y) (putCell y g (feed y g 64 (issued y { c with flights := c.flights ++ [q] } g d q))) := by
  intro q y
  have own : x.id = j := find_id found
  have stands : find (set s y).sched j = some y := find_put found own
  have here : cellOf y g = some { c with flights := c.flights ++ [q] } := Sparse.get_put_self ..
  have inFlight : (flightOf { c with flights := c.flights ++ [q] } d).isNone = false := by
    cases first : flightOf { c with flights := c.flights ++ [q] } d with
    | some f => rfl
    | none => exact absurd (beq_self_eq_true d) (List.find?_eq_none.1 first q (by simp))
  unfold issueAt
  rw [found]
  dsimp only
  rw [cell]
  dsimp only
  rw [if_neg noLoad, if_neg noStore]
  dsimp only
  rw [matFlight0_plain alone, upd_found stands, here]
  dsimp only
  rw [inFlight, if_neg Bool.false_ne_true]

end Cells

section
variable (found : find s.sched j = some x)
include found

theorem exec_tileStepIssue (first : Cells.redoes s x g d = false) (may : Cells.mayIssue s x g d = true) (funded : Cells.funded s x d = true)
    (sound : Cells.checkCells x d (Cells.together x g d) = .ok) : exec (.tileStepIssue j g d) s =
      .next ((Cells.together x g d).foldl (fun s k => Cells.issueAt s j d k) s) := by
  show execTileStepIssue j g d s = _
  unfold execTileStepIssue
  rw [found]
  dsimp only
  rw [first, if_neg Bool.false_ne_true, may, funded, if_neg (by decide), if_neg (by decide), sound]

theorem exec_tileStepIssue_redo (again : Cells.redoes s x g d = true) (funded : Cells.funded s x d = true) :
    exec (.tileStepIssue j g d) s = .next (Cells.redoNext s x g) := by
  show execTileStepIssue j g d s = _
  unfold execTileStepIssue
  rw [found]
  dsimp only
  rw [again, funded, if_pos rfl, if_neg (by decide)]

/-- What the issue of a compute step leaves. -/
theorem tileStepIssue_compute (cell : Cells.cellOf x g = some c) (first : Cells.redoes s x g d = false) (may : Cells.mayIssue s x g d = true)
    (funded : Cells.funded s x d = true) (noLoad : Desc.station (x.descAt d) ≠ Desc.load) (noStore : Desc.station (x.descAt d) ≠ Desc.store)
    (alone : ¬(x.espalier = true ∧ Desc.station (x.descAt d) = Desc.mat)) (sound : Cells.checkCells x d [g] = .ok) :
    let q := Cells.flight0 d (Cells.nextStep c d) 0 0
    ∃ t y c' c'', exec (.tileStepIssue j g d) s = .next t ∧ find t.sched j = some y ∧
      y = { x with cells := y.cells } ∧ Cells.cellOf y g = some c'' ∧ (∀ k, k ≠ g → Cells.cellOf y k = Cells.cellOf x k) ∧
      c' = { c with
        flights := c.flights.filter (fun f => !(f.d == d && f.n == Cells.nextStep c d)) ++ [q]
        issued := Sparse.put c.issued d (Cells.nextStep c d + 1)
        slots := c'.slots
        errs := c'.errs
        buf := c'.buf } ∧ (c.errs = [] → c'.errs = [] ∧ c'.buf = c.buf) ∧
      c'' = Cells.feed (Cells.putCell x g { c with flights := c.flights ++ [q] }) g 64 c' ∧ (x.espalier = false → c'' = c') ∧
      (∀ z : Job, z.id ≠ j → (z ∈ t.sched.jobs ↔ z ∈ s.sched.jobs)) ∧ t = { s with sched := { s.sched with jobs := t.sched.jobs } } := by
  intro q
  obtain ⟨b, flying⟩ : ∃ b : CellRun, b = { c with flights := c.flights ++ [q] } := ⟨_, rfl⟩
  have one := Cells.together_single (g := g) alone
  have runs := exec_tileStepIssue (g := g) found first may funded (by rw [one]; exact sound)
  rw [one, List.foldl_cons, List.foldl_nil, Cells.issueAt_compute found cell noLoad noStore alone] at runs
  have bufferOnly := Cells.issued_bufferOnly (Cells.putCell x g b) c g d (Cells.nextStep c d)
  have clean := fun none => Cells.issued_clean (c := c) none (Cells.putCell x g b) q g d
  change exec _ s = .next (set (set s (Cells.putCell x g { c with flights := c.flights ++ [q] }))
    (Cells.putCell _ g (Cells.feed _ g 64 (Cells.issued _ _ g d q)))) at runs
  change Cells.BufferOnly _ (Cells.issued _ { c with flights := c.flights ++ [q] } g d q) at bufferOnly
  rw [← flying] at runs bufferOnly clean ⊢
  generalize Cells.issued (Cells.putCell x g b) b g d q = k at runs bufferOnly clean
  have plain : x.espalier = false → _ := fun still => Cells.feed_plain (x := Cells.putCell x g b) (g := g) still 64 k
  obtain ⟨k', fed⟩ : ∃ k', k' = Cells.feed (Cells.putCell x g b) g 64 k := ⟨_, rfl⟩
  rw [← fed] at runs plain
  obtain ⟨stands, same, here, cells, others, frame⟩ := Cells.set_cell_twice (g := g) found b k'
  exact ⟨_, _, k, k', runs, stands, same, here, cells, bufferOnly, clean, fed, plain, others, frame⟩

end

/-! ### The other steps of a cell -/

section
variable (found : find s.sched j = some x) (cell : Cells.cellOf x g = some c) (on : s.bu.stopped = false)
include found cell on

theorem exec_tileStepComplete (flight : Cells.flightOf c d = some f) (may : Cells.mayComplete s x g d c f = true) :
    exec (.tileStepComplete j g d) s = .next (Cells.completeStep s x c g d f) := by
  show execTileStepComplete j g d s = _
  unfold execTileStepComplete
  rw [found]; dsimp only
  rw [cell]; dsimp only
  rw [flight]; dsimp only
  rw [on, may]; rfl

theorem exec_sumLinkTransfer {e : RowSum} {r : List RowSum} {m : Nat} {a : Option (List Val)} (front : c.queue = e :: r)
    (espalier : x.espalier = true) (part : x.partOf e.d e.n = m / 32) (row : e.row = m % 32) (arrives : Cells.arriving x c g e = some a) :
    exec (.sumLinkTransfer j g m) s = .next (Cells.sumRow s x g e a) := by
  show execSumLinkTransfer j g m s = _
  unfold execSumLinkTransfer
  rw [found]; dsimp only
  rw [cell]; dsimp only
  rw [front]; dsimp only
  rw [if_pos (by rw [espalier, on, part, row]; simp), arrives]

theorem exec_stationaryReload (flight : Cells.matFlight x c = some f) (may : Cells.mayReload x c f = true) :
    exec (.stationaryReload j g) s = .next (Cells.reload s x c g f) := by
  show execStationaryReload j g s = _
  unfold execStationaryReload
  rw [found]; dsimp only
  rw [cell]; dsimp only
  rw [flight]; dsimp only
  rw [on, may]; rfl

theorem exec_shadowSwap (flight : Cells.matFlight x c = some f) {b : Block} (shadow : c.shadow = some b) (step : b.d = f.d)
    (execution : b.exec = x.execOf f.d f.n) : exec (.shadowSwap j g) s =
      .next (set s (Cells.putCell x g (Cells.feed x g 64 { c with reg := some b, shadow := none }))) := by
  have may : Cells.maySwap x c f = true := by
    unfold Cells.maySwap
    rw [shadow]
    dsimp only
    rw [step, execution]
    simp
  show execShadowSwap j g s = _
  unfold execShadowSwap
  rw [found]; dsimp only
  rw [cell]; dsimp only
  rw [flight]; dsimp only
  rw [on, may, shadow]; rfl

theorem exec_softmaxCompletionStep {m k : Nat} (ready : Cells.softReady x c d = some m) (key : Cells.softKey x c d = some k)
    (live : JobOps.live x = true) (runs : c.halt = false) (first : Cells.softFirst s x g d m = true)
    (energy : energyLeft s.sched (JobOps.budget s x) = true) :
    exec (.softmaxCompletionStep j g d) s = .next (Cells.softStep s x c g d k m) := by
  show execSoftmaxCompletionStep j g d s = _
  unfold execSoftmaxCompletionStep
  rw [found]; dsimp only
  rw [cell]; dsimp only
  rw [ready, key]; dsimp only
  rw [live, on, runs, first, energy]; rfl

theorem exec_atomicUnitRequest (flight : (c.flights.find? fun f => Desc.station (x.descAt f.d) == Desc.scat) = some f)
    (left : f.row < Cells.scatRows x c g f.d f.n) (funded : txnLeft s.sched (JobOps.budget s x) = true) :
    let a := (Cells.operand x c g f.d f.n 0 0).getD (Cells.nullOf (x.descAt f.d))
    let w := fld ((Cells.operand x c g f.d f.n 1 0).getD (Cells.nullOf (x.descAt f.d))).data (8 * f.row) 8
    let row := Cells.runNum ((List.range a.vc).mapM fun k => a.decode f.row k)
    ∀ m ls u, JobOps.run s (JobOps.budget s x) (Scat.row (JobOps.viaAt s x (JobOps.cellSrc x g) f.d) x.cacheD (ptpTime s) (x.descAt f.d) w row.1) =
        (.ok (.ok, m, ls), u) → find u.sched j = some x →
      exec (.atomicUnitRequest j g) s = .next (set u (Cells.putCell x g (Cells.putFlight c { f with
        row := f.row + 1
        marks := Cells.addMarks f.marks (Cells.addMarks row.2 m)
        lines := f.lines ++ ls.filter fun l => !f.lines.contains l }))) := by
  intro a w row m ls u write stands
  have issues : ¬(s.bu.stopped || decide (Cells.scatRows x c g f.d f.n ≤ f.row)) = true := by
    rw [on, Bool.false_or, decide_eq_true_eq]
    exact Nat.not_le.2 left
  show execAtomicUnitRequest j g s = _
  unfold execAtomicUnitRequest
  rw [found]; dsimp only
  rw [cell]; dsimp only
  rw [flight]; dsimp only
  rw [if_neg issues, funded, if_neg (by decide), write]
  dsimp only
  rw [upd_found stands, cell]

end

/-! ### Overflow reports -/

section
variable (found : find s.sched j = some x) (cell : Cells.cellOf x g = some c) {st e off : Nat} (report : c.report = some (st, e, off))
include found cell report

theorem exec_firstOverflowFault_later (ending : x.phase = .ending) :
    exec (.firstOverflowFault j g) s = .next (set s (Cells.putCell x g { c with report := none })) := by
  show execFirstOverflowFault j g s = _
  unfold execFirstOverflowFault
  rw [found]; dsimp only
  rw [cell]; dsimp only
  rw [report]; dsimp only
  rw [if_pos ending]

theorem exec_firstOverflowFault_first (running : x.phase ≠ .ending) : exec (.firstOverflowFault j g) s =
    .next (upd (log (set s (Cells.putCell x g { c with report := none })) x st (x.lid g) 0 e off) j fun y => endJob y st e (x.lid g) 0) := by
  show execFirstOverflowFault j g s = _
  unfold execFirstOverflowFault
  rw [found]; dsimp only
  rw [cell]; dsimp only
  rw [report]; dsimp only
  rw [if_neg running]

/-- The first report is logged and ends the job. -/
theorem firstOverflowFault_ends (running : x.phase ≠ .ending) : ∃ b t, exec (.firstOverflowFault j g) s = .next t ∧
    logs (set s (Cells.putCell x g { c with report := none })) b
      { status := st, source := x.lid g, fn := x.fn, arg0 := e, arg1 := off, relanes := x.relanes } ∧
    t = { b with sched := { b.sched with jobs := t.sched.jobs } } ∧
    find t.sched j = some (endJob (Cells.putCell x g { c with report := none }) st e (x.lid g) 0) := by
  have own : x.id = j := find_id found
  have taken := (set_stands (y := Cells.putCell x g { c with report := none }) found own).1
  have logged := log_logs (set s (Cells.putCell x g { c with report := none })) x st (x.lid g) e off
  have runs := exec_firstOverflowFault_first found cell report running
  generalize log (set s (Cells.putCell x g { c with report := none })) x st (x.lid g) 0 e off = b at logged runs
  have stands := find_of_jobs taken (logs_jobs logged)
  exact ⟨b, _, runs.trans (congrArg Host.Outcome.next (upd_found stands _)), logged, rfl,
    find_put stands ((Rst.endJob_id ..).trans own)⟩

end

/-! ### Iterations -/

theorem exec_loopIterationAdvance (found : find s.sched j = some x) (live : JobOps.live x = true) (on : s.bu.stopped = false)
    (left : x.epoch + 1 < niter x) (cells : cellsDone x = true) (hub : hubDone x = true) (idle : x.hexec = []) :
    let y := { x with epoch := x.epoch + 1, reclaim := [], finished := [] }
    let z := { y with cells := y.cells.map fun e => (e.1, Cells.nextIteration y e.2) }
    exec (.loopIterationAdvance j) s = .next (refreshReady { s with
      sched := put (if (Tab.claimLevel x.table).isNone then s.sched else wcSetValue s.sched z 0) z }) := by
  intro y z
  show execLoopIterationAdvance j s = _
  unfold execLoopIterationAdvance
  rw [found]
  exact if_pos (by rw [live, on, cells, hub, idle, decide_eq_true left]; rfl)

/-- Settles O52: each command by the law of its step. -/
theorem tileStepsIssueAndComplete : Obligations.TileStepsIssueAndComplete := by
  intro s j g d x found
  exact ⟨fun funded => ⟨fun again => exec_tileStepIssue_redo found again funded, fun first may sound => exec_tileStepIssue found first may funded sound⟩,
    fun c cell first may funded noLoad noStore alone sound => tileStepIssue_compute found cell first may funded noLoad noStore alone sound,
    fun c f cell on => ⟨exec_tileStepComplete found cell on, fun e r m a => exec_sumLinkTransfer found cell on,
      fun flight => ⟨exec_stationaryReload found cell on flight, fun b => exec_shadowSwap found cell on flight⟩,
      fun m k => exec_softmaxCompletionStep found cell on, exec_atomicUnitRequest found cell on,
      fun st e off report => ⟨exec_firstOverflowFault_later found cell report, firstOverflowFault_ends found cell report⟩⟩,
    exec_loopIterationAdvance found⟩

end Machine
end Sys2Proof
end

section
/-! PROOF. Executions of hub stations: grant and completion (spec/02_streams_and_stations.md R44, R46). -/

namespace Sys2Proof
namespace Machine

open Bits Ops JobOps

variable {s b u w : State} {j d n : Nat} {x y : Job}

/-- The outcome grants execution n of descriptor d of job j with its work: from a state in which the job is y, the execution
joins the job's and is counted, and nothing else changes. -/
def GrantsIn (o : Out) (j d n : Nat) (u : State) (y : Job) (work : HubWork) : Prop :=
  ∃ t, o = .next t ∧ t = { u with sched := { u.sched with jobs := t.sched.jobs } } ∧
    (∀ z : Job, z.id ≠ j → (z ∈ t.sched.jobs ↔ z ∈ u.sched.jobs)) ∧
    find t.sched j = some { y with hexec := y.hexec ++ [⟨d, n, work⟩], hgrant := Sparse.put y.hgrant d (n + 1) }

namespace Hub

theorem grant_grantsIn (stands : find u.sched j = some y) (d n : Nat) (work : HubWork) :
    GrantsIn (.next (grant u j d n work)) j d n u y work := by
  have own : y.id = j := find_id stands
  have granted := set_stands (y := { y with hexec := y.hexec ++ [⟨d, n, work⟩], hgrant := Sparse.put y.hgrant d (n + 1) }) stands own
  unfold grant
  rw [upd_found stands]
  exact ⟨_, rfl, rfl, granted.2, granted.1⟩

/-- ENC, DEC and INGEST draw on class 7, the others on the job's own class. -/
theorem classOf_station (b : State) (x : Job) (st : Nat) :
    classOf b x st = if st = 0x10 ∨ st = 0x13 ∨ st = 0x14 then 7 else budget b x := by
  unfold classOf isCodec ingest enc dec
  simp only [Bool.or_eq_true, beq_iff_eq, or_assoc]

/-! ### What the start of each station grants -/

theorem begin_enc (station : stationOf x d = 0x13) (n : Nat) : begin b x d n = Enc.start b x d n := by
  unfold begin
  rw [station]
  rfl

theorem begin_dec (station : stationOf x d = 0x14) (n : Nat) : begin b x d n = Dec.start b x d n := by
  unfold begin
  rw [station]
  rfl

theorem begin_pfx (station : stationOf x d = 0x15) (n : Nat) : begin b x d n = Pfx.start b x d n := by
  unfold begin
  rw [station]
  rfl

theorem begin_ingest (station : stationOf x d = 0x10) (n : Nat) : begin b x d n = grant b x.id d n (.dec unentered) := by
  unfold begin
  rw [station]
  rfl

theorem begin_unit (station : stationOf x d = 0x11 ∨ stationOf x d = 0x12) (n : Nat) : begin b x d n = startUnit b x d n := by
  unfold begin
  rcases station with format | sample
  · rw [format]; rfl
  · rw [sample]; rfl

/-- An execution beyond COUNT is granted with no work. -/
theorem begin_beyond (beyond : stationOf x d = 0x13 ∧ fld (x.descAt d) 0x30 4 ≤ n ∨ stationOf x d = 0x14 ∧ fld (x.descAt d) 0x30 4 ≤ n ∨
    stationOf x d = 0x15 ∧ fld (x.descAt d) 0x28 4 ≤ n) : begin b x d n = grant b x.id d n .plain := by
  rcases beyond with ⟨station, count⟩ | ⟨station, count⟩ | ⟨station, count⟩
  · rw [begin_enc station]; unfold Enc.start; exact if_pos count
  · rw [begin_dec station]; unfold Dec.start; exact if_pos count
  · rw [begin_pfx station]; unfold Pfx.start; exact if_pos count

/-- SAMPLE and FORMAT do their work at the grant. -/
theorem startUnit_works {m : Marks} (works : run b (budget b x) (unitWork x (viaOf b x (stationOf x d) d) d n) = (.ok m, u)) :
    startUnit b x d n = grant (spend (tally u x.id none d n d m []) x m.energy) x.id d n .plain := by
  unfold startUnit
  rw [works]

end Hub

theorem Enc.start_bound {g : Enc.Got} {offs : List Int} {e : Nat} (within : ¬ fld (x.descAt d) 0x30 4 ≤ n)
    (fetched : run b 7 (Enc.fetch (Hub.viaOf b x Hub.enc d) (x.descAt d) n) = (.ok g, u)) (offsets : g.offs = some offs)
    (running : (Codecs.encAreaOf u g.head).closed = false) (bound : Codecs.bind u true x (fld (x.descAt d) 0x20 8) 0
      (Codecs.units (Enc.width g.sess) (Enc.height g.sess) (Enc.fpsNum g.sess) (Enc.fpsDen g.sess)) = .ok w e) :
    Enc.start b x d n = Hub.grant w x.id d n (.enc (Enc.work g.sess g.pic (fld (x.descAt d) 0x20 8)
      (fld (x.descAt d) 0x28 8 + 128 * n) (Codecs.encAreaOf u g.head) offs g.field)) := by
  unfold Enc.start
  dsimp only
  rw [if_neg within, fetched]; dsimp only
  rw [offsets]; dsimp only
  rw [running, if_neg Bool.false_ne_true, bound]

theorem Dec.start_bound {q au h data : Bytes} {e : Nat} (within : ¬ fld (x.descAt d) 0x30 4 ≤ n)
    (fetched : run b 7 (Dec.fetch (Hub.viaOf b x Hub.dec d) (x.descAt d) n) = (.ok (q, au, some (h, data)), u))
    (running : (Codecs.decAreaOf u h).closed = false) (bound : Codecs.bind u false x (fld (x.descAt d) 0x20 8) 0
      (Codecs.units (Dec.maxW q) (Dec.maxH q) (Dec.fpsNum q) (Dec.fpsDen q)) = .ok w e) :
    Dec.start b x d n = Hub.grant w x.id d n (.dec (Dec.work (fld (x.descAt d) 0x20 8) q (Codecs.decAreaOf u h)
      (Codecs.keyOf (Hub.viaOf b x Hub.dec d) (Dec.state q)) au data)) := by
  unfold Dec.start
  dsimp only
  rw [if_neg within, fetched]; dsimp only
  rw [running, if_neg Bool.false_ne_true, bound]

theorem Pfx.start_fetched {q : Bytes} {node : Nat} (within : ¬ fld (x.descAt d) 0x28 4 ≤ n)
    (fetched : run b (budget b x) (Pfx.fetchReq (Hub.viaOf b x Hub.pfx d) (x.descAt d) x.cacheD (ptpTime b) n) = (.ok (q, node), u)) :
    Pfx.start b x d n = Hub.grant u x.id d n (.pfx (Pfx.newWork u x (fld (x.descAt d) 0x20 8 + 32 * n) q node)) := by
  unfold Pfx.start
  dsimp only
  rw [if_neg within, fetched]

/-- A new request is decided at once where its form or the module's role refuses it. -/
theorem Pfx.newWork_eq (u : State) (x : Job) (a : Nat) (q : Bytes) (node : Nat) : Pfx.newWork u x a q node =
    ⟨q, a, node, 0, 0, 0, 0, 0, 0, 0, none, if Pfx.wellFormed x.cacheD (CacheOps.parseReq q) = false then some (3, none)
      else if Pfx.permitted (FabServe.role u) (CacheOps.parseReq q) = false then some (7, none) else none⟩ := by
  unfold Pfx.newWork
  dsimp only
  cases Pfx.wellFormed x.cacheD (CacheOps.parseReq q) <;> cases Pfx.permitted (FabServe.role u) (CacheOps.parseReq q) <;> rfl

/-! ### The command HUB_EXECUTION_GRANT -/

section
variable (on : s.bu.stopped = false) (found : find (refreshReady s).sched j = some x)
include on found

theorem exec_hubExecutionGrant_notNext (other : Hub.isNext (refreshReady s) x d = false) :
    exec (.hubExecutionGrant j d) s = .next (refreshReady s) := by
  show execHubExecutionGrant j d s = _
  unfold execHubExecutionGrant
  rw [on, if_neg Bool.false_ne_true]; dsimp only
  rw [found]; dsimp only
  rw [other]
  rfl

variable (next : Hub.isNext (refreshReady s) x d = true)
include next

theorem exec_hubExecutionGrant_exhausted
    (spent : classOpen (refreshReady s) (Hub.classOf (refreshReady s) x (Hub.stationOf x d)) = false ∨
      energyLeft (refreshReady s).sched (Hub.classOf (refreshReady s) x (Hub.stationOf x d)) = false) :
    exec (.hubExecutionGrant j d) s =
      .next ((refreshReady s).setSched (markStall (refreshReady s).sched (Hub.classOf (refreshReady s) x (Hub.stationOf x d)))) := by
  have closed := Bool.and_eq_false_iff.2 spent
  show execHubExecutionGrant j d s = _
  unfold execHubExecutionGrant
  rw [on, if_neg Bool.false_ne_true]; dsimp only
  rw [found]; dsimp only
  rw [next, closed]
  rfl

theorem exec_hubExecutionGrant_funded (traffic : classOpen (refreshReady s) (Hub.classOf (refreshReady s) x (Hub.stationOf x d)) = true)
    (energy : energyLeft (refreshReady s).sched (Hub.classOf (refreshReady s) x (Hub.stationOf x d)) = true) :
    exec (.hubExecutionGrant j d) s = .next (Hub.begin (refreshReady s) x d (Sparse.getD x.hgrant d 0)) := by
  show execHubExecutionGrant j d s = _
  unfold execHubExecutionGrant
  rw [on, if_neg Bool.false_ne_true]; dsimp only
  rw [found]; dsimp only
  rw [next, traffic, energy]
  rfl

end

/-! ### Completion -/

theorem exec_hubExecutionComplete {e : HubExec} (on : s.bu.stopped = false) (found : find s.sched j = some x) (first : Hub.first x d = some e) :
    exec (.hubExecutionComplete j d) s = .next (Hub.conclude s x e) := by
  show execHubExecutionComplete j d s = _
  unfold execHubExecutionComplete
  rw [on, if_neg Bool.false_ne_true, found]; dsimp only
  rw [first]

/-- An execution that completes leaves the job's, counts and signals. -/
theorem Hub.completed_found {o : Out} (completes : o = .next (completed u j d n)) (y : Job) (stands : find u.sched j = some y) :
    o = .next (signal (set u { y with
      hexec := y.hexec.filter fun z => !(z.d == d && z.n == n)
      hdone := Sparse.upd y.hdone d 0 (· + 1) }) j d []) := by
  have own : y.id = j := find_id stands
  rw [completes]
  unfold completed dropExec
  dsimp only
  rw [upd_found stands, upd_found (find_put stands (by exact own)), set_set (by rfl)]

namespace Hub

theorem conclude_enc {k : EncWork} (rows : k.rows.length = Enc.nrows k.sess) (out : k.heldRows = 0) (within : k.spent = none)
    (written : run s 7 (do
      MM.write (viaOf s x enc d) (k.paddr + 0x48) (Enc.outputs k)
      MM.write (viaOf s x enc d) (Enc.state k.sess) (Codecs.image (Codecs.microcode s)
        (Codecs.engineOf s true k.addr x.fn, Enc.areaAfter (Codecs.microcode s) k) (Enc.areaBytes k.sess))) = (.ok (), u)) :
    conclude s x ⟨d, n, .enc k⟩ = completed (Codecs.release { u with codec := { u.codec with encAreas :=
      (Codecs.engineOf s true k.addr x.fn, Enc.areaAfter (Codecs.microcode s) k) :: u.codec.encAreas } } true k.addr x.fn
        (Enc.endSet k.pic)) x.id d n := by
  unfold conclude
  dsimp only
  rw [if_pos ⟨rows, out⟩]
  unfold Enc.finish
  dsimp only
  rw [written, within]
  rfl

theorem conclude_dec {k : DecWork} (station : stationOf x d = dec) (last : k.last = true) (out : k.out = [])
    (decoded : Dec.decoded s x dec d n k (Dec.endSet k.unit) = some u) :
    conclude s x ⟨d, n, .dec k⟩ = completed u x.id d n := by
  have ended : Dec.ended k = true := by
    unfold Dec.ended
    rw [last, out]
    rfl
  unfold conclude
  dsimp only
  rw [if_pos station]
  unfold Dec.finish
  rw [ended, if_neg (by decide), decoded]

theorem conclude_ingest {k : DecWork} {r : IngRun} (found : find s.sched x.id = some x) (station : stationOf x d = ingest)
    (entry : Sparse.get? x.ingest d = some r) (earliest : n = Sparse.getD x.hdone d 0) (started : k.started = true)
    (last : k.last = true) (fin : k.fin = true) (visible : Ing.shown x d n k = true)
    (written : run s 7 (MM.put (viaOf s x ingest d) (Ing.queueAddr (x.descAt d) + 0x10) 4 ((r.q0 + n + 1) % 2 ^ 32)) = (.ok (), u)) :
    conclude s x ⟨d, n, .dec k⟩ = completed u x.id d n := by
  unfold conclude
  dsimp only
  rw [if_neg (by rw [station]; decide), if_pos earliest]
  unfold Ing.finish
  rw [started, last, if_neg (by decide), fin, if_pos rfl]; dsimp only
  rw [found]; dsimp only
  rw [visible, if_pos rfl]
  unfold Ing.complete
  dsimp only
  rw [entry]; dsimp only
  rw [written]

theorem conclude_pfx {k : PfxWork} {res : Nat} {node : Option Nat} (decided : k.fin = some (res, node))
    (written : run s (budget s x) (do
      MM.put (viaOf s x pfx d) (k.addr + 1) 1 res
      match node with
        | some m => MM.put (viaOf s x pfx d) (k.addr + 0xC) 4 m
        | none => pure ()) = (.ok (), u)) :
    conclude s x ⟨d, n, .pfx k⟩ = completed u x.id d n := by
  unfold conclude
  dsimp only
  unfold Pfx.finish
  rw [decided]
  dsimp only
  cases node with
  | none => dsimp only at written ⊢; rw [written]
  | some m => dsimp only at written ⊢; rw [written]

end Hub

/-- Settles O53: HUB_EXECUTION_GRANT runs the start of the station whose execution is next, and HUB_EXECUTION_COMPLETE the
end of the station's first execution; the lemmas above say what each grants or completes. -/
theorem hubExecutionsAreGrantedAndComplete : Obligations.HubExecutionsAreGrantedAndComplete := by
  unfold Obligations.HubExecutionsAreGrantedAndComplete
  intro s j d x on
  dsimp only
  refine ⟨fun found => ?_, fun found n work first => ?_⟩
  · have own := find_id found
    have other := exec_hubExecutionGrant_notNext (d := d) on found
    have exhausted := exec_hubExecutionGrant_exhausted (d := d) on found
    have funded := exec_hubExecutionGrant_funded (d := d) on found
    rw [Hub.classOf_station] at exhausted funded
    generalize refreshReady s = b at *
    refine ⟨other, exhausted, fun next traffic energy => ?_⟩
    rw [funded next traffic energy]
    subst own
    refine ⟨fun station => ?_, fun station m u works y stands => ?_, fun count => ?_,
      fun station count g u offs w e fetched offsets running bound y stands => ?_,
      fun station count q au h data u w e fetched running bound y stands => ?_, fun station count q node u fetched y stands => ?_⟩
    · rw [Hub.begin_ingest station]
      exact Hub.grant_grantsIn found ..
    · rw [Hub.begin_unit station, Hub.startUnit_works works]
      exact Hub.grant_grantsIn stands ..
    · rw [Hub.begin_beyond count]
      exact Hub.grant_grantsIn found ..
    · rw [station] at fetched
      rw [Hub.begin_enc station, Enc.start_bound (Nat.not_le_of_lt count) fetched offsets running bound]
      exact Hub.grant_grantsIn stands ..
    · rw [station] at fetched ⊢
      rw [Hub.begin_dec station, Dec.start_bound (Nat.not_le_of_lt count) fetched running bound]
      exact Hub.grant_grantsIn stands ..
    · rw [station] at fetched
      rw [Hub.begin_pfx station, Pfx.start_fetched (Nat.not_le_of_lt count) fetched, Pfx.newWork_eq]
      exact Hub.grant_grantsIn stands ..
  · have own := find_id found
    rw [exec_hubExecutionComplete on found first]
    subst own
    refine ⟨fun plain => ?_, fun k u enc rows out within station written => ?_, fun k u dec station last out decoded => ?_,
      fun k u r dec station entry earliest started last fin visible written => ?_, fun k res node u pfx decided station written => ?_⟩
    · subst plain
      exact Hub.completed_found rfl
    · subst enc
      rw [station] at written
      exact Hub.completed_found (congrArg _ (Hub.conclude_enc rows out within written))
    · subst dec
      exact Hub.completed_found (congrArg _ (Hub.conclude_dec station last out decoded))
    · subst dec
      rw [station] at written
      exact Hub.completed_found (congrArg _ (Hub.conclude_ingest found station entry earliest started last fin visible written))
    · subst pfx
      rw [station] at written
      refine Hub.completed_found (congrArg _ (Hub.conclude_pfx decided ?_))
      cases node <;> exact written

end Machine
end Sys2Proof
end

section
/-! PROOF. Codec executions: block rows, chunks, pictures, ingest entries and ticks (spec/11_video_encode.md,
spec/12_decode_and_ingest.md). -/

namespace Sys2Proof
namespace Machine

open Bits Ops JobOps

/-- A coded row as R259 builds it: headers before the first row of a key picture, the row's bits, a slice's padding, and the
overshoot at the first row that reaches the budget. -/
theorem Enc.rowCoded_eq (ver : Word) (w : EncWork) (px : Bytes × Bytes) :
    let b := w.sess
    let r := w.rows.length
    let q := Enc.rowQp b w
    let qps := Enc.blockQps b w r q
    let view := Enc.view ver w (w.luma ++ px.1) (w.chroma ++ px.2)
    let code := Enc.codeBlocks view w.key w.spent.isSome r qps
    let raw := (if w.key = true ∧ r = 0 then Enc.header b else []) ++ Config.codedRow view (⟨r, qps.map (Enc.written b), code.1⟩ : Enc.RowCode)
    let ends := r + 1 = Enc.nrows b ∨ Enc.sliceRows b ≠ 0 ∧ w.heldRows + 1 = Enc.sliceRows b
    let bits := if ends then raw ++ Enc.pad (w.hold.length + raw.length) else raw
    let full := w.spent = none ∧ Enc.constRate b = true ∧ r + 1 < Enc.nrows b ∧ w.budget ≤ (w.rows.map (·.2)).sum + bits.length
    Enc.rowCoded ver w px = { w with
      luma := w.luma ++ px.1
      chroma := w.chroma ++ px.2
      motion := code.2
      rows := w.rows ++ [(q, bits.length)]
      qps := qps
      spent := if full then some (r + 1) else w.spent
      hold := w.hold ++ bits
      heldRows := w.heldRows + 1 } := by
  unfold Enc.rowCoded
  simp only [List.map_append, List.map_cons, List.map_nil, List.sum_append, List.sum_cons, List.sum_nil, Nat.add_zero,
    Bool.and_eq_true, Bool.or_eq_true, decide_eq_true_eq, Option.isNone_iff_eq_none, and_assoc, beq_iff_eq, bne_iff_ne]
  rfl

/-- The decoding's turn is taken: its work and its run stand. -/
def Ing.placeTurn (s : State) (j d n : Nat) (y : Ing.Turn) : State :=
  match y.run with
  | some r => Ing.putRun (Hub.setExec s j ⟨d, n, .dec y.work⟩) j d r
  | none => Hub.setExec s j ⟨d, n, .dec y.work⟩

section
variable {s : State} {t j d n : Nat} {x : Job} (on : s.bu.stopped = false) (found : find s.sched j = some x) (funded : classOpen s 7 = true)
include on found funded

theorem exec_encBlockRow {w : EncWork} {px : Bytes × Bytes} {u : State} (first : Hub.first x d = some ⟨d, n, .enc w⟩)
    (within : w.rows.length < Enc.nrows w.sess) (room : Enc.sliceFull w = false) (input : Enc.inputReady s x w w.rows.length = true)
    (read : run s 7 (Enc.pixels (Hub.viaOf s x Hub.enc d) w w.rows.length) = (.ok px, u)) :
    exec (.encBlockRow j d) s = .next (Hub.setExec
      { u with sched := charge u.sched 7 0 (60000000 * (Enc.blockRows w.sess w.rows.length).length * Enc.bw w.sess) } j
      ⟨d, n, .enc (Enc.rowCoded (Codecs.microcode u) w px)⟩) := by
  have codes : (s.bu.stopped || decide (Enc.nrows w.sess ≤ w.rows.length) || Enc.sliceFull w) = false := by
    rw [on, room, decide_eq_false (Nat.not_le_of_lt within)]
    rfl
  show execEncBlockRow j d s = _
  unfold execEncBlockRow
  rw [found]; dsimp only
  rw [first]; dsimp only
  rw [codes, input, funded, if_neg Bool.false_ne_true, if_neg (by decide), if_neg (by decide), read]
  rfl

theorem exec_encChunkEmit {w : EncWork} {room : Bool} {u : State} (first : Hub.first x d = some ⟨d, n, .enc w⟩) (full : Enc.sliceFull w = true)
    (emitted : run s 7 (do
      let r ← Codecs.readRing (Hub.viaOf s x Hub.enc d) (Enc.out w.sess)
      if Codecs.hasRoom r (Enc.chunk w).length then do
        Codecs.putRing (Hub.viaOf s x Hub.enc d) r (Enc.chunk w)
        pure true
      else pure false) = (.ok room, u)) :
    let sent := Hub.setExec u j ⟨d, n, .enc { w with hold := [], heldRows := 0, slice := w.slice + 1 }⟩
    exec (.encChunkEmit j d) s = .next (if room = false then u else if Enc.outEvt w.pic = 0xFFFF then sent
      else Codecs.bump sent x (Enc.outEvt w.pic)) := by
  show execEncChunkEmit j d s = _
  unfold execEncChunkEmit
  rw [found]; dsimp only
  rw [first]; dsimp only
  rw [on, full, if_neg (by decide), funded, if_neg (by decide), emitted]
  cases room with
  | false => rfl
  | true => rfl

section
variable {w : DecWork} {o : Option Ing.Turn} {u : State} (decoding : Ing.decoding x d n = some w) (session : w.sess.isEmpty = false)
  (turned : run s 7 (Ing.output (Hub.viaOf s x (Hub.stationOf x d) d) (Codecs.microcode s) x d n s.free w) = (.ok o, u))
include decoding session turned

theorem exec_decPictureOutput_waits (waits : o = none) : exec (.decPictureOutput j d n) s = .next u := by
  subst waits
  show execDecPictureOutput j d n s = _
  unfold execDecPictureOutput
  rw [found]; dsimp only
  rw [decoding]; dsimp only
  rw [on, session, if_neg (by decide), funded, if_neg (by decide), turned]

theorem exec_decPictureOutput_noPicture {y : Ing.Turn} (turn : o = some y) (noPicture : y.pic = none) :
    exec (.decPictureOutput j d n) s = .next (Ing.placeTurn u j d n y) := by
  subst turn
  show execDecPictureOutput j d n s = _
  unfold execDecPictureOutput
  rw [found]; dsimp only
  rw [decoding]; dsimp only
  rw [on, session, if_neg (by decide), funded, if_neg (by decide), turned]; dsimp only
  rw [noPicture]
  rfl

theorem exec_decPictureOutput_picture {y : Ing.Turn} {p : _} (turn : o = some y) (picture : y.pic = some p) :
    let v := Dec.report { u with
      free := u.free + 1
      sched := charge u.sched 7 0 (20000000 * ceilDiv p.1.width 16 * ceilDiv p.1.height 16) } x w.addr p.2.2.1 p.1 p.2.1 p.2.2.2
    exec (.decPictureOutput j d n) s = .next (Ing.placeTurn v j d n y) := by
  subst turn
  show execDecPictureOutput j d n s = _
  unfold execDecPictureOutput
  rw [found]; dsimp only
  rw [decoding]; dsimp only
  rw [on, session, if_neg (by decide), funded, if_neg (by decide), turned]; dsimp only
  rw [picture]
  rfl

end

section
variable {h : HubExec} {g : Ing.Seen} {u v : State} (pending : Ing.pending x d = some h)
  (looked : run s 7 (Ing.look (Hub.viaOf s x Hub.ingest d) x d h.n (ptpTime s)) = (.ok g, u))
include pending looked

theorem exec_ingestEntry_notWritten (waits : g.ready = false) : exec (.ingestEntry j d) s = .next u := by
  show execIngestEntry j d s = _
  unfold execIngestEntry Ing.entry
  rw [on, if_neg Bool.false_ne_true, funded, if_neg (by decide), found]; dsimp only
  rw [pending]; dsimp only
  rw [looked]; dsimp only
  rw [waits]
  rfl

variable (ready : g.ready = true) (sound : g.ok = true)
include ready sound

theorem exec_ingestEntry_video {e : Nat} (kind : Ing.eKind g.entry = 0) (idle : Ing.decodingOn x d (Ing.eSession g.entry) = none)
    (running : (Codecs.decAreaOf u g.head).closed = false)
    (bound : Codecs.bind u false x (Ing.eSession g.entry) (Ing.queueAddr (x.descAt d))
      (Codecs.units (Dec.maxW g.sess) (Dec.maxH g.sess) (Dec.fpsNum g.sess) (Dec.fpsDen g.sess)) = .ok v e) :
    exec (.ingestEntry j d) s = .next (Hub.setExec (Ing.putRun v j d g.run) j ⟨d, h.n, .dec ⟨Ing.eSession g.entry, g.sess,
      Codecs.decAreaOf u g.head, Codecs.keyOf (Hub.viaOf u x Hub.ingest d) (Dec.state g.sess), g.entry, g.data, 0, false, [], true, false⟩⟩) := by
  have own := find_id found
  show execIngestEntry j d s = _
  unfold execIngestEntry Ing.entry
  rw [on, if_neg Bool.false_ne_true, funded, if_neg (by decide), found]; dsimp only
  rw [pending]; dsimp only
  rw [looked]; dsimp only
  rw [ready, sound, if_neg (by decide), if_neg (by decide), if_neg (not_not_intro kind), idle]
  unfold Ing.startVideo
  dsimp only
  rw [running, if_neg Bool.false_ne_true, bound, own]
  rfl

theorem exec_ingestEntry_audio {r : IngRun} (kind : Ing.eKind g.entry ≠ 0) (arrived : run u 7 (Ing.arrive (Hub.viaOf u x Hub.ingest d) (x.descAt d) g.run
      ⟨Ing.eSource g.entry, Ing.eTs g.entry, h.n, true, ⟨[], 0, g.entry⟩⟩) = (.ok r, v)) :
    exec (.ingestEntry j d) s = .next (Hub.setExec (Ing.putRun v j d r) j
      ⟨d, h.n, .dec ⟨0, [], ⟨false, 0, [], [], []⟩, 0, g.entry, [], 0, true, [], true, true⟩⟩) := by
  have own := find_id found
  show execIngestEntry j d s = _
  unfold execIngestEntry Ing.entry
  rw [on, if_neg Bool.false_ne_true, funded, if_neg (by decide), found]; dsimp only
  rw [pending]; dsimp only
  rw [looked]; dsimp only
  rw [ready, sound, if_neg (by decide), if_neg (by decide), if_pos kind]
  unfold Ing.startAudio
  dsimp only
  rw [arrived, own]
  rfl

end

theorem exec_ingestDelivery {w : DecWork} {p : _} {rest : List _} {room : Bool} {u : State}
    (earliest : Hub.exec? x d (Sparse.getD x.hdone d 0) = some ⟨d, n, .dec w⟩) (out : w.out = p :: rest) (station : Hub.stationOf x d = Hub.ingest)
    (delivered : run s 7 (Dec.deliver (Hub.viaOf s x Hub.ingest d) (Ing.deliv (x.descAt d)) p) = (.ok room, u)) :
    exec (.ingestDelivery j d) s = .next (if room = false then u else Hub.setExec u j ⟨d, n, .dec { w with out := rest }⟩) := by
  show execIngestDelivery j d s = _
  unfold execIngestDelivery
  rw [found]; dsimp only
  rw [earliest]; dsimp only
  rw [out]; dsimp only
  rw [on, station, if_neg (by decide), funded, if_neg (by decide), delivered]
  cases room with
  | false => rfl
  | true => rfl

/-- What LIVE_TICK_EMIT answers once the tick is emitted, or is not due. -/
theorem exec_liveTickEmit {r : IngRun} {o : Option (IngRun × Nat)} {u : State} (run : Sparse.get? x.ingest d = some r)
    (group : r.group.isEmpty = false) (granted : ∃ y ∈ x.hexec, y.d = d)
    (emitted : JobOps.run (tick s t) 7 (Ing.emitTick (Hub.viaOf (tick s t) x Hub.ingest d) x d (ptpTime (tick s t)) r) = (.ok o, u)) :
    (o = none → exec (.liveTickEmit t j d) s = .next u) ∧
      ∀ q m, o = some (q, m) → exec (.liveTickEmit t j d) s = .next (if m = 0 then Ing.putRun u j d q
        else logEvent { Ing.putRun u j d q with free := (Ing.putRun u j d q).free + 1 }
          { status := 0x0708, source := srcHub Hub.ingest, fn := x.fn, relanes := x.relanes,
            arg0 := (Config.freeValue (Ing.putRun u j d q).free).toNat, arg1 := r.tick * 2 ^ 16 + m }) := by
  have any : x.hexec.any (·.d == d) = true := by
    obtain ⟨y, mem, at_d⟩ := granted
    exact List.any_eq_true.2 ⟨y, mem, by rw [at_d]; exact beq_self_eq_true d⟩
  have runs : exec (.liveTickEmit t j d) s = execLiveTickEmit t j d s := rfl
  rw [runs]
  unfold execLiveTickEmit
  dsimp only
  rw [show find (tick s t).sched j = some x from found]; dsimp only
  rw [run]; dsimp only
  rw [group, any, show (tick s t).bu.stopped = false from on, if_neg (by decide), show classOpen (tick s t) 7 = true from funded,
    if_neg (by decide), emitted]
  refine ⟨fun waits => by rw [waits], fun q m due => ?_⟩
  rw [due]
  dsimp only
  by_cases missing : m = 0
  · rw [if_pos missing, if_pos missing]
  · rw [if_neg missing, if_neg missing]
    rfl

end

/-- Settles O54: each codec command's outcome where its work may be done. -/
theorem codecRowsChunksAndPictures : Obligations.CodecRowsChunksAndPictures := by
  unfold Obligations.CodecRowsChunksAndPictures
  intro s t j d x on found funded
  dsimp only
  refine ⟨fun n w first => ⟨fun px u within room input read => ?_, fun room u full emitted => exec_encChunkEmit on found funded first full emitted⟩,
    fun n w o u decoding session turned => ⟨exec_decPictureOutput_waits on found funded decoding session turned, fun y turn noPicture => ?_,
      fun y h f num sub turn picture => ?_⟩,
    fun h g u pending looked => ⟨exec_ingestEntry_notWritten on found funded pending looked,
      fun ready sound kind idle v e running bound => exec_ingestEntry_video on found funded pending looked ready sound kind idle running bound,
      fun ready sound kind r v arrived => exec_ingestEntry_audio on found funded pending looked ready sound kind arrived⟩,
    fun n w p rest earliest out station room u delivered => exec_ingestDelivery on found funded earliest out station delivered,
    fun r o u run group granted emitted => ?_⟩
  · rw [exec_encBlockRow on found funded first within room input read, Enc.rowCoded_eq]
  · rw [exec_decPictureOutput_noPicture on found funded decoding session turned turn noPicture]
    rfl
  · rw [exec_decPictureOutput_picture on found funded decoding session turned turn picture]
    rfl
  · obtain ⟨waits, emits⟩ := exec_liveTickEmit on found funded run group granted emitted
    refine ⟨waits, fun q whole => emits q 0 whole, fun q m due missing => ⟨_, (emits q m due).trans (congrArg _ (if_neg missing)), logEvent_logs _ _⟩⟩

end Machine
end Sys2Proof
end

section
/-! PROOF. PREFIX requests: the first step of a granted request (spec/08_attention_and_paged_cache.md R185 to R191). -/

namespace Sys2Proof
namespace Machine

open Bits Ops JobOps

namespace Pfx

variable {s u z : State} {j d n : Nat} {x : Job} {w : PfxWork}

/-- Another module takes part in the request. -/
def Far (r : CacheOps.PReq) : Prop := r.remote = true ∨ r.op = 7 ∨ r.op = 5

theorem far_iff (r : CacheOps.PReq) : (r.remote || r.op == send || r.op == fetch) = true ↔ Far r := by
  unfold Far
  simp only [Bool.or_eq_true, beq_iff_eq, or_assoc]

/-! ### The command for an operation -/

section
variable (found : find s.sched j = some x) (first : Hub.first x d = some ⟨d, n, .pfx w⟩)
include found first

theorem step_other {o : Nat} (other : (CacheOps.parseReq w.req).op ≠ o) : step s j d o = s := by
  have skip : (s.bu.stopped || (CacheOps.parseReq w.req).op != o) = true := by
    rw [bne_iff_ne.2 other, Bool.or_true]
  unfold step
  rw [found]; dsimp only
  rw [first]; dsimp only
  rw [if_pos skip]

theorem step_begin {o : Nat} (on : s.bu.stopped = false) (funded : txnLeft s.sched (budget s x) = true) (undecided : w.fin = none)
    (fresh : w.stage = 0) (named : (CacheOps.parseReq w.req).op = o) : step s j d o = begin s x d n w := by
  unfold step
  rw [found]; dsimp only
  rw [first]; dsimp only
  rw [on, named, funded, bne_self_eq_false, if_neg (by decide), if_neg (by decide)]
  unfold advance
  rw [undecided, if_neg (by decide), if_pos fresh]

end

/-! ### A request of this module alone -/

section
variable (near : ¬ Far (CacheOps.parseReq w.req))
include near

theorem begin_own_waits (ran : run s (budget s x) (ownOp (Hub.viaOf s x Hub.pfx d) x.cacheD (ptpTime s) w (Fab.freeTag s).isSome) = (.ok none, u)) :
    begin s x d n w = u := by
  unfold begin
  dsimp only
  rw [if_neg (mt (far_iff _).1 near), ran]

theorem begin_own_decided {res : Nat} {node : Option Nat} (ran : run s (budget s x)
      (ownOp (Hub.viaOf s x Hub.pfx d) x.cacheD (ptpTime s) w (Fab.freeTag s).isSome) = (.ok (some ((res, node), none)), u)) :
    begin s x d n w = decided u x d n w res node := by
  unfold begin
  dsimp only
  rw [if_neg (mt (far_iff _).1 near), ran]

/-- The release of a REMOTE entry forgets its hit and returns its lease. -/
theorem begin_own_remoteRelease {res a e : Nat} {node : Option Nat} (ran : run s (budget s x)
      (ownOp (Hub.viaOf s x Hub.pfx d) x.cacheD (ptpTime s) w (Fab.freeTag s).isSome) = (.ok (some ((res, node), some (a, e))), u)) :
    begin s x d n w =
      if res = 0 then returnLease (setHit (decided u x d n w res node) (x.fn, a) none) w e else decided u x d n w res node := by
  unfold begin
  dsimp only
  rw [if_neg (mt (far_iff _).1 near), ran]

end

/-- What a local request runs, a RELEASE apart: the pool's operation. -/
theorem ownOp_local (v : Via) (c : Bytes) (now : Nat) (tagged : Bool) (keeps : (CacheOps.parseReq w.req).op ≠ 4) :
    ownOp v c now w tagged = (do
      let a ← if (CacheOps.parseReq w.req).op = 1 then CacheOps.lookup v c now (CacheOps.parseReq w.req) w.nodeIn
        else if (CacheOps.parseReq w.req).op = 2 then CacheOps.insert v c now (CacheOps.parseReq w.req) w.nodeIn
        else if (CacheOps.parseReq w.req).op = 3 then CacheOps.fork v c now (CacheOps.parseReq w.req)
        else CacheOps.evictReq v c now { CacheOps.parseReq w.req with nodeIn := w.nodeIn }
      pure (some (a, none))) := by
  unfold ownOp localOp
  dsimp only
  rw [if_neg (show ¬ (CacheOps.parseReq w.req).op = release from keeps), if_neg (show ¬ (CacheOps.parseReq w.req).op = release from keeps)]
  simp only [pure_bind, Option.isSome_none, Bool.false_and, Bool.false_eq_true, if_false]
  by_cases lookups : (CacheOps.parseReq w.req).op = 1
  · rw [if_pos lookups, if_pos lookups]
  rw [if_neg lookups, if_neg lookups]
  by_cases inserts : (CacheOps.parseReq w.req).op = 2
  · rw [if_pos inserts, if_pos inserts]
  rw [if_neg inserts, if_neg inserts]
  by_cases forks : (CacheOps.parseReq w.req).op = 3
  · rw [if_pos forks, if_pos forks]
  rw [if_neg forks, if_neg forks]

/-! ### A request that another module takes part in -/

section
variable (far : Far (CacheOps.parseReq w.req))
include far

theorem begin_noTag (noTag : (Fab.freeTag s).isSome = false) : begin s x d n w = s := by
  have waits : (Fab.freeTag s).isNone = true := Option.isSome_eq_false_iff.1 noTag
  unfold begin
  dsimp only
  rw [if_pos ((far_iff _).2 far), if_pos waits]

variable {op a e p : Nat} {toks : Bytes} (tagged : (Fab.freeTag s).isSome = true)
include tagged

/-- With a free TAG the request opens. -/
theorem begin_tagged : begin s x d n w = match run s (budget s x) (opening (Hub.viaOf s x Hub.pfx d) x.cacheD (ptpTime s) w) with
    | (.error e, s) => fails s x d n e
    | (.ok (.error k), s) => decided s x d n w k none
    | (.ok (.ok (a, e, p, toks)), s) =>
      let r := CacheOps.parseReq w.req
      let w := { w with old := e, page := p, entry := a }
      if r.op = send then pushPart s x d n w
      else if r.op = fetch then pullPart s x d n { w with rpage := CacheOps.ePage e }
      else (Fab.issue (setWork s x d n { w with stage := 1 }) (.pfx x.id d)
        { op := Fab.opPrefix, dst := r.endpoint, len := 1024, arg := wireReq w w.nodeIn, data := toks }).getD
          (setWork s x d n { w with stage := 1 }) := by
  have goes : ¬ (Fab.freeTag s).isNone = true := by
    obtain ⟨k, free⟩ := Option.isSome_iff_exists.1 tagged
    rw [free]
    exact Bool.false_ne_true
  unfold begin
  dsimp only
  exact (if_pos ((far_iff _).2 far)).trans (if_neg goes)

theorem begin_refused {res : Nat} (opened : run s (budget s x) (opening (Hub.viaOf s x Hub.pfx d) x.cacheD (ptpTime s) w) = (.ok (.error res), u)) :
    begin s x d n w = decided u x d n w res none := by
  rw [begin_tagged far tagged, opened]

variable (opened : run s (budget s x) (opening (Hub.viaOf s x Hub.pfx d) x.cacheD (ptpTime s) w) = (.ok (.ok (a, e, p, toks)), u))
include opened

/-- A remote LOOKUP or INSERT issues a PREFIX transaction. -/
theorem begin_prefix (notSend : (CacheOps.parseReq w.req).op ≠ 7) (notFetch : (CacheOps.parseReq w.req).op ≠ 5) :
    let b := Hub.setExec u x.id ⟨d, n, .pfx { w with old := e, page := p, entry := a, stage := 1 }⟩
    begin s x d n w = (Fab.issue b (.pfx x.id d)
      { op := Fab.opPrefix, dst := (CacheOps.parseReq w.req).endpoint, len := 1024, arg := splice w.req 8 (toLe 4 w.nodeIn)
        data := toks }).getD b := by
  rw [begin_tagged far tagged, opened]
  dsimp only
  rw [if_neg notSend, if_neg notFetch]
  rfl

/-- SEND issues the first part of its page. -/
theorem begin_send (isSend : (CacheOps.parseReq w.req).op = 7) {bs : Bytes}
    (read : run u (budget u x) (MM.read (Hub.viaOf u x Hub.pfx d) (pageAt x.cacheD p w.moved) (partLen x.cacheD w.moved)) = (.ok bs, z)) :
    let k := partLen x.cacheD w.moved
    let b := Hub.setExec z x.id ⟨d, n, .pfx { w with old := e, page := p, entry := a, stage := 2, moved := w.moved + k, ans := none }⟩
    begin s x d n w = (Fab.issue b (.pfx x.id d)
      { op := Fab.opPageWrite, dst := (CacheOps.parseReq w.req).endpoint, off := w.moved, len := k
        o1 := w.rpage + 2 ^ 32 * CacheOps.pageBytes x.cacheD, o2 := CacheOps.eFill e, arg := splice w.req 8 (toLe 4 w.nodeIn), data := bs }).getD b := by
  rw [begin_tagged far tagged, opened]
  dsimp only
  rw [if_pos isSend]
  unfold pushPart
  dsimp only
  rw [read]
  dsimp only
  rw [if_pos isSend]
  rfl

/-- FETCH asks for the first part into the page it popped. -/
theorem begin_fetch (isFetch : (CacheOps.parseReq w.req).op = 5) {ps : List (Nat × Nat)}
    (mapped : xlatRun u.host x.fn (pageAt x.cacheD p w.moved) (partLen x.cacheD w.moved) true = some ps) :
    let k := partLen x.cacheD w.moved
    let b := Hub.setExec u x.id ⟨d, n, .pfx { w with
      old := e, page := p, entry := a, rpage := CacheOps.ePage e, stage := 2, moved := w.moved + k, ans := none }⟩
    begin s x d n w = (Fab.issue b (.pfx x.id d)
      { op := Fab.opPageRead, dst := (CacheOps.parseReq w.req).endpoint, off := w.moved, len := k
        o1 := CacheOps.ePage e + 2 ^ 32 * CacheOps.pageBytes x.cacheD, o2 := hitOf u (x.fn, a), arg := splice w.req 8 (toLe 4 w.nodeIn)
        addr := ps }).getD b := by
  rw [begin_tagged far tagged, opened]
  dsimp only
  rw [if_neg (by rw [isFetch]; decide), if_pos isFetch]
  unfold pullPart
  dsimp only
  rw [mapped]
  rfl

end

end Pfx

/-- Settles O55: the seven commands differ in the operation they run alone, so one argument over the operation serves them
all. -/
theorem prefixRequestsRun : Obligations.PrefixRequestsRun := by
  unfold Obligations.PrefixRequestsRun
  intro s j d n x w found first on funded undecided fresh r v c now k tagged put done far pageAt o1 m wire runs
  have own := find_id found
  have outcome : ∀ {b t : State}, b = t → (.next b : Out) = .next t := congrArg _
  have command : ∀ op, runs (.next (Pfx.step s j d op)) op := by
    intro op
    have begins : r.op = op → Pfx.step s j d op = Pfx.begin s x d n w := Pfx.step_begin found first on funded undecided fresh
    refine ⟨fun other => outcome (Pfx.step_other found first other), fun named near y u ran => ⟨fun waits => ?_, fun res node decides => ?_,
        fun res node a e releases => ?_⟩, fun named away noTag => ?_, fun named away free q u opened => ⟨fun res refused => ?_, fun a e p toks opens =>
        ⟨fun notSend notFetch => ?_, fun isSend bs z read => ?_, fun isFetch ps mapped => ?_⟩⟩⟩
    all_goals refine outcome ((begins named).trans ?_)
    all_goals subst own
    · subst waits
      exact Pfx.begin_own_waits near ran
    · subst decides
      exact Pfx.begin_own_decided near ran
    · subst releases
      exact Pfx.begin_own_remoteRelease near ran
    · exact Pfx.begin_noTag away noTag
    · subst refused
      exact Pfx.begin_refused away free opened
    · subst opens named
      exact Pfx.begin_prefix away free opened notSend notFetch
    · subst opens named
      exact Pfx.begin_send away free opened isSend read
    · subst opens named
      exact Pfx.begin_fetch away free opened isFetch mapped
  exact ⟨command 1, command 2, command 3, command 4, command 5, command 6, command 7, Pfx.ownOp_local v c now tagged⟩

end Machine
end Sys2Proof
end
